-- ==== Sys2Proof/Word.lean ====
section
/-! DEFINITION. Word types of the L9 and the sorted table that every sparse piece of state uses. -/

namespace Sys2Proof

/-- Eight bits: the smallest addressable unit (R2). -/
abbrev Byte := BitVec 8
/-- A 32-bit register or word. -/
abbrev Word := BitVec 32
/-- A 64-bit register, address or latch. -/
abbrev DWord := BitVec 64

/-- Sparse data by a numeric key: pairs with strictly rising keys. An unlisted key holds a default
that the reader names. -/
abbrev Tab (α : Type) := List (Nat × α)

/-- What is listed at `k`, if anything. -/
def Tab.find {α : Type} : Tab α → Nat → Option α
  | [], _ => none
  | (j, v) :: t, k => if j = k then some v else if k < j then none else Tab.find t k

/-- The value at `k`, or the default `d`. -/
def Tab.get {α : Type} (t : Tab α) (d : α) (k : Nat) : α := (t.find k).getD d

/-- List `v` at `k`, in place of whatever stood there. -/
def Tab.put {α : Type} : Tab α → Nat → α → Tab α
  | [], k, v => [(k, v)]
  | (j, w) :: t, k, v =>
    if j = k then (k, v) :: t
    else if k < j then (k, v) :: (j, w) :: t
    else (j, w) :: Tab.put t k v

/-- Drop the entry at `k`. -/
def Tab.del {α : Type} : Tab α → Nat → Tab α
  | [], _ => []
  | (j, w) :: t, k =>
    if j = k then t
    else if k < j then (j, w) :: t
    else (j, w) :: Tab.del t k

/-- Drop every entry at `k`. -/
def Tab.without {α : Type} (t : Tab α) (k : Nat) : Tab α := t.filter fun e => e.1 != k

/-- Write `v` at `k` where an unlisted key reads as `d`: writing `d` removes the entry. -/
def Tab.set {α : Type} [DecidableEq α] (t : Tab α) (d : α) (k : Nat) (v : α) : Tab α :=
  if v = d then t.del k else t.put k v

/-- Every key of the table lies above `n`. -/
def Tab.above {α : Type} (n : Nat) : Tab α → Bool
  | [] => true
  | (j, _) :: _ => decide (n < j)

/-- Keys rise strictly. -/
def Tab.sorted {α : Type} : Tab α → Bool
  | [] => true
  | (j, _) :: t => Tab.above j t && Tab.sorted t

/-- No entry equals the default. -/
def Tab.noDefault {α : Type} [DecidableEq α] (d : α) : Tab α → Bool
  | [] => true
  | (_, v) :: t => decide (v ≠ d) && Tab.noDefault d t

/-- The canonical form: keys rise strictly and no entry equals what an unlisted key reads as. -/
def Tab.canon {α : Type} [DecidableEq α] (d : α) (t : Tab α) : Bool :=
  t.sorted && t.noDefault d

end Sys2Proof
end

