-- ==== Sys2Proof/Syntax.lean ====
section
/-! DEFINITION. Syntax of the L9: operands, fields, and the one inductive of instructions and machine
steps. Every row of spec/opcode_table.json is one constructor of `Instr`: the instruction rows
first, in the table's order, then the rows of the table that name a step of the part itself
(an issue, a landing, an arrival, a request from outside). -/

namespace Sys2Proof

/-- An operand field once its role is known (R56, R60, R61, R412). -/
inductive Opnd where
  /-- V0 to V127, with its dead mark (R66). A run starts here. -/
  | v (n : BitVec 7) (dead : Bool)
  /-- C0 to C7. -/
  | c (n : BitVec 3)
  /-- L0 to L2. -/
  | l (n : Fin 3)
  /-- ZERO (0x8B); in a destination, discard. -/
  | zero
  /-- G0 to G63. A run starts here. -/
  | g (n : BitVec 6)
  /-- The immediate k − 16, from −16 to 31. -/
  | imm (k : Fin 48)
  /-- A predicate field: Pn or its negation (R60). -/
  | p (n : BitVec 3) (neg : Bool)
  /-- A convergence field (R61). -/
  | k (n : BitVec 4)
  /-- A barrier number (R412). -/
  | bar (n : BitVec 3)
  /-- The signed 18-bit immediate of W64 form 1 in the place of srcB (R52). -/
  | imm18 (i : BitVec 18)
  deriving DecidableEq, Repr

/-- The fields of a W64 instruction of form 0 or 1 (R50 to R52). Form 1 is the one whose `b` is an
`imm18`, or whose instruction has form 1 alone. -/
structure Fields where
  stall : BitVec 3
  pred : BitVec 3
  neg : Bool
  /-- Co-write slot when cwe is 1 (R65). -/
  cw : Option (BitVec 3)
  dst : Opnd
  a : Opnd
  b : Opnd
  c : Opnd
  /-- mod5, with the meaning of the instruction's class (R67 to R71). -/
  mod : BitVec 5
  deriving DecidableEq, Repr

/-- The fields of the four W64 instructions whose whole high word is an immediate (R53). -/
structure Wide where
  stall : BitVec 3
  pred : BitVec 3
  neg : Bool
  cw : Option (BitVec 3)
  dst : Opnd
  imm : Word
  deriving DecidableEq, Repr

/-- The fields of a W32 instruction with short operands (R54). -/
structure Short where
  stall : BitVec 3
  dst : Opnd
  a : Opnd
  b : Opnd
  deriving DecidableEq, Repr

/-- The fields of a W16 instruction (R55). -/
structure Short16 where
  d : Opnd
  s : Opnd
  deriving DecidableEq, Repr

/-- Relations of ICMP (R245). -/
inductive Cmp where
  | eq | ne | lt | le | gt | ge
  deriving DecidableEq, Repr

/-- Relations of FCMP and DCMP (R268). -/
inductive FCmp where
  | eq | ne | lt | le | gt | ge | num | nan
  deriving DecidableEq, Repr

/-- Modes of SHFL (R259). -/
inductive ShflMode where
  | idx | up | down | xor
  deriving DecidableEq, Repr

/-- Operations of REDUX (R260). -/
inductive ReduxOp where
  | add | min | max | and | or | xor
  deriving DecidableEq, Repr

/-- Operations of ATOM, ATOMS, ATOMX and RED (R400). -/
inductive AtomOp where
  | add | min | max | and | or | xor | exch
  deriving DecidableEq, Repr

/-- Types of the atomics (R400). -/
inductive AType where
  | i32 | n32 | i64 | n64
  deriving DecidableEq, Repr

/-- Kinds of BAR (R412). -/
inductive BarKind where
  | arrive | wait | sync
  deriving DecidableEq, Repr

/-- Relations of WAITC (R404). -/
inductive WRel where
  | eq | ne | lt | le | gt | ge | any | none
  deriving DecidableEq, Repr

/-- Integer formats of ICVT, F2I and I2F (R250). -/
inductive IFmt where
  | i32 | n32 | i64 | n64 | i16 | n16 | i8 | n8
  deriving DecidableEq, Repr

/-- Scalar element formats, codes 0 to 18 (R86). -/
inductive EFmt where
  | f64 | f32 | f19 | bf16 | f16 | e4m3 | e5m2 | e3m4 | e3m2 | e2m3 | e2m1
  | i16 | i8 | n8 | i4 | n4 | i2 | t2 | b1
  deriving DecidableEq, Repr

/-- Special registers (R254). -/
inductive SReg where
  | tidX | tidY | tidZ | ntidX | ntidY | ntidZ | teamX | teamY | teamZ | nteamX | nteamY | nteamZ
  | lane | group | gwidth | core | pairside | cluster | die | part | clk | sib | nsib
  | trapcause | trapaddr | trappc | seed | leaseid
  deriving DecidableEq, Repr

/-- What a terminal fault reports (R449, R452). -/
structure FaultRec where
  cause : Byte
  flags : BitVec 16
  addr : DWord
  pc : DWord
  core : BitVec 16
  slot : Byte
  lane : Byte
  deriving DecidableEq, Repr

/-- A hart's access towards GPU agents (R395): loads and stores of n bytes, fences, and the
read-modify-writes of AMO, LR and SC. -/
inductive HartOp where
  | load (addr : DWord) (n : Nat) (rd : BitVec 5)
  | store (addr : DWord) (n : Nat) (data : DWord)
  | fence (publish acquire : Bool)
  | amo (addr : DWord) (ty : AType) (op : AtomOp) (data : DWord) (rd : BitVec 5) (aq rl : Bool)
  deriving DecidableEq, Repr

/-- What a peer's access does here: a load of n bytes, a store, or an atomic (R391, R392, R396). -/
inductive PeerOp where
  | load (n : Nat)
  | store (bytes : List Byte)
  | atom (o : AtomOp) (ty : AType) (val : Nat)
  | cas (ty : AType) (cmp val : Nat)
  | last (n : Word)
  deriving DecidableEq, Repr

/-- A peer package's access to a partition of this one (R425). -/
structure PeerReq where
  podid : Nat
  /-- Partition at the requester. -/
  frm : Nat
  /-- Partition here for which the request arrives. -/
  rpart : Nat
  /-- Offset W of the window (R423). -/
  w : DWord
  op : PeerOp
  /-- The requesting launch at the peer, as its lease record names it (R426). -/
  lease : Nat
  deriving DecidableEq, Repr

/-- An envelope that arrives over Ethernet (R434). -/
structure RemoteEnv where
  soid : Word
  srcQnum : BitVec 12
  tag : Word
  qnum : BitVec 12
  count : DWord
  waitroom : Bool
  payload : List Byte
  deriving DecidableEq, Repr

/-- A message of the registered class (R428). -/
inductive RegMsg where
  /-- A pool reduction post of another member, as its module receives it (R440). -/
  | poolPost (member : Nat) (key : DWord) (dst len mask : Nat) (start : Bool) (elems : List Byte)
  /-- A remote SBREAD that asks this package (R495). -/
  | ballotRead (podid frm rpart : Nat) (key : DWord) (sel : Nat) (tag : Nat)
  /-- The answer to a remote SBREAD of this package. -/
  | ballotAnswer (tag : Nat) (w0 : Word) (value : DWord) (w3 : Word)
  /-- A lease request of a peer (R426). -/
  | lease (podid frm rpart launch range : Nat) (base : DWord) (len : Nat) (kind : Nat)
  /-- A peer's launch has ended, and its leases here are released (R426). -/
  | leaseRelease (podid frm rpart launch : Nat)
  /-- The answer to a lease request of this package, which its queue and range name: a status word. -/
  | leaseAnswer (launch range : Nat) (st : Word)
  deriving DecidableEq, Repr

/-- The instructions and steps of the part: one constructor per row of the opcode table. An
instruction carries its operands; a step of the part acts on the event that has come due, which the
state holds (Event). -/
inductive Instr where
  -- Control (08_fetch_control, 19_interruptions, 20_retirement_siblings, 06_placement_work)
  | nop (f : Fields)
  | braW32 (stall : BitVec 3) (off : BitVec 20)
  | bra (w : Wide)
  | brx (f : Fields)
  | call (w : Wide)
  | callx (f : Fields)
  | ret (f : Fields)
  | exit (f : Fields)
  | yield (f : Fields)
  | trap (code : BitVec 18) (f : Fields)
  | tret (f : Fields)
  | syscall (f : Fields)
  | bkpt (code : BitVec 18) (f : Fields)
  | spawn (f : Fields)
  | cdecl (f : Fields)
  | csign (f : Fields)
  | brdecW32 (stall : BitVec 3) (ctr : Opnd) (off : BitVec 13)
  | brdec (off : BitVec 18) (f : Fields)
  -- Integer, predicate and group (10_integer_instructions)
  | iaddW16 (x : Short16)
  | iaddW32 (x : Short)
  | iadd (f : Fields)
  | isubW16 (x : Short16)
  | isub (f : Fields)
  | iaddc (f : Fields)
  | isubb (f : Fields)
  | iadd64 (f : Fields)
  | isub64 (f : Fields)
  | ineg (f : Fields)
  | iabs (f : Fields)
  | imulW16 (x : Short16)
  | imulW32 (x : Short)
  | imul (f : Fields)
  | imulh (f : Fields)
  | imad (f : Fields)
  | imad64 (f : Fields)
  | iminW16 (x : Short16)
  | iminW32 (x : Short)
  | imin (f : Fields)
  | imaxW16 (x : Short16)
  | imax (f : Fields)
  | idiff (f : Fields)
  | isad (f : Fields)
  | andW16 (x : Short16)
  | andW32 (x : Short)
  | and (f : Fields)
  | orW16 (x : Short16)
  | or (f : Fields)
  | xorW16 (x : Short16)
  | xor (f : Fields)
  | andn (f : Fields)
  | not (f : Fields)
  | logic3 (tt : BitVec 8) (f : Fields)
  | shlW16 (x : Short16)
  | shlW32 (x : Short)
  | shl (f : Fields)
  | shrlW16 (x : Short16)
  | shrl (f : Fields)
  | shraW16 (x : Short16)
  | shra (f : Fields)
  | rotl (f : Fields)
  | fshl (f : Fields)
  | bfx (f : Fields)
  | bfi (f : Fields)
  | popc (f : Fields)
  | clz (f : Fields)
  | ctz (f : Fields)
  | brev (f : Fields)
  | bperm (f : Fields)
  | icmp (r : Cmp) (f : Fields)
  | isel (f : Fields)
  | movW16 (x : Short16)
  | movW32 (x : Short)
  | mov (f : Fields)
  | movi (w : Wide)
  | movhi (w : Wide)
  | leaW32 (x : Short)
  | lea (f : Fields)
  | lea64 (f : Fields)
  | icvt (into frm : IFmt) (f : Fields)
  | plop (tt : BitVec 8) (f : Fields)
  | pmovPv (f : Fields)
  | pmovVp (f : Fields)
  | sread (r : SReg) (f : Fields)
  | swrite (r : SReg) (f : Fields)
  | voteAll (f : Fields)
  | voteAny (f : Fields)
  | voteBallot (f : Fields)
  | voteUni (f : Fields)
  | shfl (m : ShflMode) (f : Fields)
  | redux (o : ReduxOp) (f : Fields)
  | matchv (all : Bool) (f : Fields)
  -- Float (11_float_instructions)
  | faddW16 (x : Short16)
  | faddW32 (x : Short)
  | fadd (f : Fields)
  | fsub (f : Fields)
  | fmulW16 (x : Short16)
  | fmulW32 (x : Short)
  | fmul (f : Fields)
  | ffma (f : Fields)
  | fminW16 (x : Short16)
  | fminW32 (x : Short)
  | fmin (f : Fields)
  | fmaxW16 (x : Short16)
  | fmax (f : Fields)
  | fcmp (r : FCmp) (f : Fields)
  | fclass (f : Fields)
  | frcp (f : Fields)
  | frsq (f : Fields)
  | fsqrt (f : Fields)
  | fdiv (f : Fields)
  | fexp2 (f : Fields)
  | flog2 (f : Fields)
  | fsin (f : Fields)
  | fcos (f : Fields)
  | ftanh (f : Fields)
  | fscale (f : Fields)
  | frnd (f : Fields)
  | f2i (into : IFmt) (frm : EFmt) (hi : Bool) (f : Fields)
  | i2f (into : EFmt) (frm : IFmt) (hi : Bool) (f : Fields)
  | fcvt (into frm : EFmt) (dn sn : BitVec 3) (sr satf : Bool) (f : Fields)
  | dadd (f : Fields)
  | dsub (f : Fields)
  | dmul (f : Fields)
  | dfma (f : Fields)
  | dcmp (r : FCmp) (f : Fields)
  | pkadd (f16 : Bool) (f : Fields)
  | pkmul (f16 : Bool) (f : Fields)
  | pkfma (f16 : Bool) (f : Fields)
  | pkmm (f16 max : Bool) (f : Fields)
  | qdot4 (ae5 be5 : Bool) (f : Fields)
  | idot4 (an bn : Bool) (f : Fields)
  -- Memory access (14_memory_instructions)
  | ldW32 (x : Short)
  | ld (f : Fields)
  | stW32 (x : Short)
  | st (f : Fields)
  | ldsW32 (x : Short)
  | lds (f : Fields)
  | stsW32 (x : Short)
  | sts (f : Fields)
  | ldx (f : Fields)
  | stx (f : Fields)
  | pref (f : Fields)
  | cctlWb (f : Fields)
  | cctlInv (f : Fields)
  | cctlWbinv (f : Fields)
  | icinv (f : Fields)
  | ifence (f : Fields)
  -- Placement (07_placement_data)
  | pin (f : Fields)
  | unpin (f : Fields)
  | hint (f : Fields)
  | plq (f : Fields)
  -- Synchronisation and queues (17_sync_atomics, 05_queues_launch)
  | atom (o : AtomOp) (ty : AType) (f : Fields)
  | acas (ty : AType) (f : Fields)
  | atoms (o : AtomOp) (ty : AType) (f : Fields)
  | atomx (o : AtomOp) (ty : AType) (f : Fields)
  | red (o : AtomOp) (ty : AType) (f : Fields)
  | waitc (r : WRel) (u w64 : Bool) (f : Fields)
  | phasePub (f : Fields)
  | phaseSnap (f : Fields)
  | phaseFull (f : Fields)
  | barArrive (f : Fields)
  | barWait (f : Fields)
  | barSync (f : Fields)
  | last (f : Fields)
  | enq (f : Fields)
  | deq (f : Fields)
  | lnlEnq (scope : BitVec 3) (wait : Bool) (rs2 rs1 rd : BitVec 5)
  | lnlDeq (scope : BitVec 3) (wait : Bool) (rs2 rs1 rd : BitVec 5)
  -- Couriers and the key-value cache (15_couriers_kv)
  | xcopy (f : Fields)
  | xfill (f : Fields)
  | xgath (f : Fields)
  | xappk (f : Fields)
  | xseal (f : Fields)
  | xptr (f : Fields)
  | btapp (f : Fields)
  | btrel (f : Fields)
  -- Pool and siblings (18_fabric_pool, 20_retirement_siblings)
  | xpoolFill (f : Fields)
  | xpoolCopy (f : Fields)
  | xpoolCmp (f : Fields)
  | xpoolReduce (f : Fields)
  | sbpost (f : Fields)
  | sbpoll (f : Fields)
  | sbread (f : Fields)
  -- Matrix (13_matrix_instructions)
  | mzero (f : Fields)
  | mma (f : Fields)
  | mmasp (f : Fields)
  | mldacc (f : Fields)
  | mstacc (f : Fields)
  | mpack (f : Fields)
  | mread (f : Fields)
  | mwrite (f : Fields)
  | mrowMax (f : Fields)
  | mrowSum (f : Fields)
  | mexp (f : Fields)
  -- Steps of the part: issue and landing (08, 09)
  | issueSelection
  | soloIssue
  | loopBufferRefill
  | icacheFill
  | resultLanding
  | fillBufferWrite
  -- faults (19)
  | terminalFaultArrival
  | launchStopArrival
  | migWindowReplay
  | handoverReplay
  | ringRecordPost
  -- host windows (05)
  | hostDoorbell
  | hostSlotWrite
  | hostSlotTimeout
  | hostDeferredExamine
  -- launch and placement of work (05, 06)
  | completionReservation
  | launchAdmission
  | leaseGrant
  | clusterHandout
  | stealWithinDie
  | stealAcrossDies
  | poolRedivide
  | teamStart
  | groupsReady
  | activeSetEntry
  | preemptStarvation
  -- pre-emption (19)
  | preemptionRequest
  | deferralEnd
  | forcedSave
  | teamSave
  | pressureRestore
  | teamRestore
  -- SPAWN (06)
  | pigeonholeTimerExpiry
  | pigeonholeLaunch
  | spawnBlockRetry
  -- placement of data (07)
  | invalidationRequest
  | invalidationComplete
  | migrationStart
  | migrationLineCopy
  | migrationComplete
  | heatHalving
  | frameScrub
  | poolHandover
  | poolMemberLeave
  -- phase consistency (16)
  | publicationComplete
  | l1LineExpiry
  | wcDrainTimeout
  -- monitors, queues, barriers, signatures (17, 05)
  | monitorReevaluate
  | monitorPoll
  | waitcTimeout
  | queueWaiterServe
  | queuePoll
  | barrierArrival
  | barrierWake
  | cdeclEffect
  | signatureArrival
  -- matrix engine (12, 13)
  | matrixChunk
  | matrixEventComplete
  | matrixStatusWrite
  | mreadPerform
  | tileFetch
  -- couriers (15)
  | courierJobStart
  | courierWrite
  | courierJobComplete
  | tokenRefill
  | fabricTokenRefill
  | deferredBlockFree
  -- retirement (20)
  | trackerEntryDrain
  | teamSideComplete
  | launchCompletion
  | cancelOrderArrival
  | siblingRetire
  -- pool and fabric (18)
  | poolModuleOp
  | reductionComplete
  | reductionTimeout
  | peerWindowAccess
  | peerLeaseMessage
  | registeredReceive
  | registeredResend
  | laneFailure
  | retrainEnd
  | stationDown
  | scaleOutSend
  | scaleOutReceive
  | waitroomRetry
  | scaleOutStatus
  -- service pairs (19)
  | serviceQuantum
  | sysdoneWrite
  | heartbeat
  | heartbeatCheck
  | leaderTakeover
  -- errors (19)
  | frameRetire
  | writebackPoison
  | coreFence
  -- the part around the work (24)
  | packageReset
  | attestationRequest
  | keyRotation
  | partcfgWrite
  | powerMeasurement
  | thermalTrip
  | firmwareUpdate
  | registerWrite
  | hostMemoryAccess
  | hartMemoryAccess
  | hartInterrupt
  | cxlPortDown
  | lockstepMismatch
  | poolMemberJoin
  deriving DecidableEq, Repr

/-- A step of the part that has come due, with what it acts on: one constructor per row of the opcode
table that no word encodes. -/
inductive Event where
  /-- Nothing has come due. -/
  | none
  -- Steps of the part: issue and landing (08, 09)
  | issueSelection (core dom : Nat)
  /-- The read phase of an issue goes on (R215). -/
  | readPhase (core tag : Nat)
  | soloIssue (core lane : Nat)
  | loopBufferRefill (core lane : Nat) (addr : DWord)
  /-- The core serves one of the refill requests of the cycle (R197). -/
  | loopBufferServe (core : Nat)
  | icacheFill (core : Nat) (line : Nat)
  | resultLanding (core : Nat)
  | fillBufferWrite (core : Nat)
  -- faults (19)
  | terminalFaultArrival (launch : Nat) (r : FaultRec)
  | launchStopArrival (launch core : Nat)
  | migWindowReplay (hub id : Nat)
  | handoverReplay (page id : Nat)
  | ringRecordPost (hub : Nat)
  -- host windows (05)
  | hostDoorbell (hub queue : Nat)
  | hostSlotWrite (hub queue offset : Nat) (data : List Byte)
  | hostSlotTimeout (hub queue : Nat) (seq : Nat)
  | hostDeferredExamine (hub queue : Nat)
  -- launch and placement of work (05, 06)
  | completionReservation (part queue : Nat)
  | launchAdmission (part : Nat)
  | leaseGrant (part queue : Nat)
  | clusterHandout (cluster : Nat)
  | stealWithinDie (cluster : Nat)
  | stealAcrossDies (die part : Nat)
  | poolRedivide (core : Nat) (word : Word)
  | teamStart (core : Nat)
  | groupsReady (core : Nat)
  | activeSetEntry (core dom : Nat)
  | preemptStarvation (launch : Nat)
  -- pre-emption (19)
  | preemptionRequest (launch team : Nat)
  | deferralEnd (launch team : Nat)
  | forcedSave (launch team : Nat)
  | teamSave (launch team : Nat)
  | pressureRestore (core : Nat)
  | teamRestore (launch team core : Nat)
  -- SPAWN (06)
  | pigeonholeTimerExpiry (core hole stamp : Nat)
  | pigeonholeLaunch (core : Nat)
  | spawnBlockRetry (core slot : Nat)
  /-- The insertions of an issue of SPAWN (R151): of each lane the entry, the arguments and the recorded seed. -/
  | spawnInsert (core slot tag : Nat) (lanes : List (Nat × Nat × List (BitVec 32) × BitVec 32))
  -- placement of data (07)
  | invalidationRequest (part : Nat) (req : DWord) (aliased : Bool)
  | invalidationComplete (part : Nat)
  | migrationStart (hub : Nat)
  | migrationLineCopy (hub entry : Nat)
  | migrationComplete (hub entry : Nat)
  | heatHalving (hub : Nat)
  | frameScrub (frame : Nat)
  | poolHandover (page owner : Nat)
  | poolMemberLeave (member : Nat) (dirty : List Nat)
  -- phase consistency (16)
  | publicationComplete (core id : Nat)
  /-- A write that waits until a line leaves staging (R386). -/
  | stagingRetry (core id : Nat)
  | l1LineExpiry (core line filled : Nat)
  | wcDrainTimeout (core id : Nat)
  -- monitors, queues, barriers, signatures (17, 05)
  | monitorReevaluate (line : Nat)
  | monitorPoll (core slot : Nat)
  | waitcTimeout (core slot stamp : Nat)
  | queueWaiterServe (queue : Nat)
  | queuePoll (id : Nat)
  | barrierArrival (core slot lane : Nat) (bar : BitVec 3) (count : BitVec 24)
      (kind : BarKind)
  | barrierWake (core : Nat) (bar : BitVec 3)
  | cdeclEffect (core slot : Nat) (k : BitVec 4) (set : List Nat) (lanes : List Nat)
  | signatureArrival (core slot lane : Nat) (k : BitVec 4) (matrix : Bool)
  -- matrix engine (12, 13)
  | matrixChunk (core : Nat)
  | matrixEventComplete (core : Nat)
  | matrixStatusWrite (core id : Nat)
  | mreadPerform (core : Nat)
  | tileFetch (core : Nat)
  -- couriers (15)
  | courierJobStart (core chan : Nat)
  | courierWrite (core chan : Nat)
  | courierJobComplete (core chan : Nat)
  | tokenRefill (hub : Nat)
  | fabricTokenRefill (hub : Nat)
  | deferredBlockFree (part : Nat)
  /-- BTRELs that wait for a table's copies are looked at again (R361). -/
  | tableRetry (table : Nat)
  -- retirement (20)
  | trackerEntryDrain (core entry : Nat)
  | teamSideComplete (core : Nat)
  | launchCompletion (launch : Nat)
  | cancelOrderArrival (launch team core : Nat)
  | siblingRetire (launch team : Nat)
  -- pool and fabric (18)
  | poolModuleOp (id : Nat)
  | reductionComplete (key : DWord) (dst : Nat)
  | reductionTimeout (key : DWord) (dst stamp : Nat)
  | peerWindowAccess (r : PeerReq)
  | peerLeaseMessage (podid frm rpart launch range : Nat) (base : DWord) (len kind : Nat)
  | registeredReceive (podid : Nat) (seq : Word) (crcOk : Bool) (m : RegMsg)
  | registeredResend (podid : Nat) (seq : Word)
  | laneFailure (station : Nat)
  | retrainEnd (station : Nat)
  | stationDown (station : Nat)
  | scaleOutSend (part : Nat)
  | scaleOutReceive (e : RemoteEnv)
  | waitroomRetry (id : Nat)
  | scaleOutStatus (part : Nat) (st : Word)
  -- service pairs (19)
  | serviceQuantum
  | sysdoneWrite (tag : Word)
  | heartbeat
  | heartbeatCheck (die : Nat)
  | leaderTakeover (die : Nat)
  -- errors (19)
  | frameRetire (frame : Nat)
  | writebackPoison (line : Nat)
  | coreFence (core : Nat)
  -- the part around the work (24)
  | packageReset
  | attestationRequest (nonce : List Byte) (part : Byte) (addr : Nat)
  | keyRotation (part spare : Nat)
  /-- The frame that a rotation rewrites is done (R516). -/
  | keyFrame (spare : Nat)
  | partcfgWrite (part offset : Nat) (value : DWord)
  | powerMeasurement (die : Nat) (milliwatts : Nat)
  | thermalTrip (die : Nat)
  | firmwareUpdate (die : Nat) (image : List Byte)
  | registerWrite (hub offset : Nat) (value : DWord)
  | hostMemoryAccess (write : Bool) (addr : Nat) (data : List Byte) (n : Nat)
  | hartMemoryAccess (hart : Nat) (op : HartOp)
  | hartInterrupt (hart cause : Nat)
  | cxlPortDown (port : Nat)
  | lockstepMismatch (die : Nat)
  | poolMemberJoin (member : Nat)
  deriving DecidableEq, Repr

/-- The row of a step. -/
def Event.row : Event → Option Instr
  | .none => Option.none
  | .issueSelection .. => some .issueSelection
  | .readPhase .. => some .issueSelection
  | .soloIssue .. => some .soloIssue
  | .loopBufferRefill .. => some .loopBufferRefill
  | .loopBufferServe .. => some .loopBufferRefill
  | .icacheFill .. => some .icacheFill
  | .resultLanding .. => some .resultLanding
  | .fillBufferWrite .. => some .fillBufferWrite
  | .terminalFaultArrival .. => some .terminalFaultArrival
  | .launchStopArrival .. => some .launchStopArrival
  | .migWindowReplay .. => some .migWindowReplay
  | .handoverReplay .. => some .handoverReplay
  | .ringRecordPost .. => some .ringRecordPost
  | .hostDoorbell .. => some .hostDoorbell
  | .hostSlotWrite .. => some .hostSlotWrite
  | .hostSlotTimeout .. => some .hostSlotTimeout
  | .hostDeferredExamine .. => some .hostDeferredExamine
  | .completionReservation .. => some .completionReservation
  | .launchAdmission .. => some .launchAdmission
  | .leaseGrant .. => some .leaseGrant
  | .clusterHandout .. => some .clusterHandout
  | .stealWithinDie .. => some .stealWithinDie
  | .stealAcrossDies .. => some .stealAcrossDies
  | .poolRedivide .. => some .poolRedivide
  | .teamStart .. => some .teamStart
  | .groupsReady .. => some .groupsReady
  | .activeSetEntry .. => some .activeSetEntry
  | .preemptStarvation .. => some .preemptStarvation
  | .preemptionRequest .. => some .preemptionRequest
  | .deferralEnd .. => some .deferralEnd
  | .forcedSave .. => some .forcedSave
  | .teamSave .. => some .teamSave
  | .pressureRestore .. => some .pressureRestore
  | .teamRestore .. => some .teamRestore
  | .pigeonholeTimerExpiry .. => some .pigeonholeTimerExpiry
  | .pigeonholeLaunch .. => some .pigeonholeLaunch
  | .spawnBlockRetry .. => some .spawnBlockRetry
  | .spawnInsert .. => some .spawnBlockRetry
  | .invalidationRequest .. => some .invalidationRequest
  | .invalidationComplete .. => some .invalidationComplete
  | .migrationStart .. => some .migrationStart
  | .migrationLineCopy .. => some .migrationLineCopy
  | .migrationComplete .. => some .migrationComplete
  | .heatHalving .. => some .heatHalving
  | .frameScrub .. => some .frameScrub
  | .poolHandover .. => some .poolHandover
  | .poolMemberLeave .. => some .poolMemberLeave
  | .publicationComplete .. => some .publicationComplete
  | .stagingRetry .. => some .publicationComplete
  | .l1LineExpiry .. => some .l1LineExpiry
  | .wcDrainTimeout .. => some .wcDrainTimeout
  | .monitorReevaluate .. => some .monitorReevaluate
  | .monitorPoll .. => some .monitorPoll
  | .waitcTimeout .. => some .waitcTimeout
  | .queueWaiterServe .. => some .queueWaiterServe
  | .queuePoll .. => some .queuePoll
  | .barrierArrival .. => some .barrierArrival
  | .barrierWake .. => some .barrierWake
  | .cdeclEffect .. => some .cdeclEffect
  | .signatureArrival .. => some .signatureArrival
  | .matrixChunk .. => some .matrixChunk
  | .matrixEventComplete .. => some .matrixEventComplete
  | .matrixStatusWrite .. => some .matrixStatusWrite
  | .mreadPerform .. => some .mreadPerform
  | .tileFetch .. => some .tileFetch
  | .courierJobStart .. => some .courierJobStart
  | .courierWrite .. => some .courierWrite
  | .courierJobComplete .. => some .courierJobComplete
  | .tokenRefill .. => some .tokenRefill
  | .fabricTokenRefill .. => some .fabricTokenRefill
  | .deferredBlockFree .. => some .deferredBlockFree
  | .tableRetry .. => some .deferredBlockFree
  | .trackerEntryDrain .. => some .trackerEntryDrain
  | .teamSideComplete .. => some .teamSideComplete
  | .launchCompletion .. => some .launchCompletion
  | .cancelOrderArrival .. => some .cancelOrderArrival
  | .siblingRetire .. => some .siblingRetire
  | .poolModuleOp .. => some .poolModuleOp
  | .reductionComplete .. => some .reductionComplete
  | .reductionTimeout .. => some .reductionTimeout
  | .peerWindowAccess .. => some .peerWindowAccess
  | .peerLeaseMessage .. => some .peerLeaseMessage
  | .registeredReceive .. => some .registeredReceive
  | .registeredResend .. => some .registeredResend
  | .laneFailure .. => some .laneFailure
  | .retrainEnd .. => some .retrainEnd
  | .stationDown .. => some .stationDown
  | .scaleOutSend .. => some .scaleOutSend
  | .scaleOutReceive .. => some .scaleOutReceive
  | .waitroomRetry .. => some .waitroomRetry
  | .scaleOutStatus .. => some .scaleOutStatus
  | .serviceQuantum .. => some .serviceQuantum
  | .sysdoneWrite .. => some .sysdoneWrite
  | .heartbeat .. => some .heartbeat
  | .heartbeatCheck .. => some .heartbeatCheck
  | .leaderTakeover .. => some .leaderTakeover
  | .frameRetire .. => some .frameRetire
  | .writebackPoison .. => some .writebackPoison
  | .coreFence .. => some .coreFence
  | .packageReset .. => some .packageReset
  | .attestationRequest .. => some .attestationRequest
  | .keyRotation .. => some .keyRotation
  | .keyFrame .. => some .keyRotation
  | .partcfgWrite .. => some .partcfgWrite
  | .powerMeasurement .. => some .powerMeasurement
  | .thermalTrip .. => some .thermalTrip
  | .firmwareUpdate .. => some .firmwareUpdate
  | .registerWrite .. => some .registerWrite
  | .hostMemoryAccess .. => some .hostMemoryAccess
  | .hartMemoryAccess .. => some .hartMemoryAccess
  | .hartInterrupt .. => some .hartInterrupt
  | .cxlPortDown .. => some .cxlPortDown
  | .lockstepMismatch .. => some .lockstepMismatch
  | .poolMemberJoin .. => some .poolMemberJoin

end Sys2Proof
end

