-- ==== Sys2Proof/Machine/Shapes.lean ====
section
/-! DEFINITION. The operand forms: what each field of each instruction may hold (R57 to R62, R72 and
the encoding rule of each chapter), the modifier codes it accepts (R67 to R71) and its latency class
(R73). Short forms expand to W64 form 0 (R76 to R78). -/

namespace Sys2Proof

/-- Role of a source field. -/
inductive Role where
  /-- Must hold 0x8B with its dead bit clear. -/
  | none
  /-- An operand of n registers under R233: V, L, G, ZERO, an immediate, and C when n is 1. -/
  | src (n : Nat)
  /-- A V or G run of n registers and nothing else. -/
  | run (n : Nat)
  /-- A G run of 4 (R303). -/
  | grun
  /-- A branch target: V run of 2, G run of 2 or latch (R204). -/
  | target
  /-- A scratchpad offset of ENQ and DEQ: V, G or an immediate (R114). -/
  | line
  /-- A 64-bit address that is not ZERO (R339). -/
  | nonzero
  /-- A predicate field (R60). -/
  | pred
  /-- A convergence field (R61). -/
  | conv
  /-- A barrier number (R412). -/
  | bar
  /-- A code the instruction itself interprets (R400, R404): held by its constructor. -/
  | own
  deriving DecidableEq, Repr

/-- Role of the destination field (R59 to R62). -/
inductive DstRole where
  /-- Must hold 0x8B. -/
  | none
  /-- A result of n registers: V, 0x8B, and C or G where allowed. -/
  | val (n : Nat) (c g : Bool)
  /-- P0 to P7. -/
  | pred
  /-- A V or G run of 2. -/
  | link
  /-- One V register or C slot, read and written (R204). -/
  | counter
  /-- Store-form data of n registers (R62). -/
  | data (n : Nat)
  deriving DecidableEq, Repr

/-- Latency class (R72). -/
inductive Lat where
  | f1 | f2 | var | none
  deriving DecidableEq, Repr

/-- The W64 forms of an instruction (R72, R74): form 0 alone, form 1 alone with the immediate
interpreted by the instruction, form 0 or 1 with the immediate in the place of srcB, or the wide
immediate of R53. -/
inductive FormRule where
  | zero | one | both | wide
  deriving DecidableEq, Repr

structure Shape where
  dst : DstRole
  a : Role
  b : Role
  c : Role
  modOk : Bool
  lat : Lat
  form : FormRule
  deriving DecidableEq, Repr

/-- Integer-class modifiers (R68): whether .i16x2 and .n16x2 and whether .sat are accepted; the
half types never with an immediate of form 1 (R52). -/
def iMod (half sat form1 : Bool) (m : BitVec 5) : Bool :=
  m.toNat < 8 && (!m.getLsbD 1 || (half && !form1)) && (!m.getLsbD 2 || sat)

/-- Modifiers of the shifts (R240): .i32 or .i16x2. -/
def shMod (form1 : Bool) (m : BitVec 5) : Bool := m == 0 || (m == 2 && !form1)

/-- Float-class modifiers (R263). -/
def fMod (rnd sat nega top : Bool) (m : BitVec 5) : Bool :=
  (rnd || (!m.getLsbD 0 && !m.getLsbD 1)) && (!m.getLsbD 2 || sat) &&
  (!m.getLsbD 3 || nega) && (!m.getLsbD 4 || top)

/-- Memory-class modifiers (R70, R330): load or store, global or scratchpad. -/
def mMod (load global : Bool) (m : BitVec 5) : Bool :=
  m.toNat % 8 < 5 && (!m.getLsbD 3 || (load && (m.toNat % 8 == 1 || m.toNat % 8 == 2))) &&
  (!m.getLsbD 4 || global)

/-- Registers that a memory access size takes (R70). -/
def sizeRegs (m : BitVec 5) : Nat :=
  if m.toNat % 8 = 3 then 2 else if m.toNat % 8 = 4 then 4 else 1

/-- The field `b` is the immediate of form 1. -/
def Fields.form1 (f : Fields) : Bool :=
  match f.b with
  | .imm18 _ => true
  | _ => false

/-- Whether an integer format of R250 is 64 bits wide. -/
def IFmt.wide : IFmt → Bool
  | .i64 | .n64 => true
  | _ => false

/-- Registers of an operand or result in an integer format (R250). -/
def IFmt.regs (t : IFmt) : Nat := if t.wide then 2 else 1

/-- Registers of a 64-bit or shorter float format (R277). -/
def EFmt.regs : EFmt → Nat
  | .f64 => 2
  | _ => 1

/-- Codes of the scalar element formats (R86). -/
def EFmt.code : EFmt → Nat
  | .f64 => 0 | .f32 => 1 | .f19 => 2 | .bf16 => 3 | .f16 => 4 | .e4m3 => 5 | .e5m2 => 6
  | .e3m4 => 7 | .e3m2 => 8 | .e2m3 => 9 | .e2m1 => 10 | .i16 => 11 | .i8 => 12 | .n8 => 13
  | .i4 => 14 | .n4 => 15 | .i2 => 16 | .t2 => 17 | .b1 => 18

/-- Largest element index of a format in a register (R277). -/
def EFmt.maxIndex : EFmt → Nat
  | .bf16 | .f16 => 1
  | .e4m3 | .e5m2 | .e3m4 => 3
  | .e3m2 | .e2m3 => 4
  | .e2m1 => 7
  | _ => 0

/-- The .hi bit of F2I and I2F goes with the 16-bit formats alone (R275, R276). -/
def hiOk (e : EFmt) (hi : Bool) : Bool := !hi || e == .bf16 || e == .f16

/-- Formats of F2I and I2F: codes 0 to 4 (R275, R276). -/
def convOk (e : EFmt) (hi : Bool) : Bool := e.code ≤ 4 && hiOk e hi

/-- Limits of the FCVT format word (R277). -/
def fcvtOk (into frm : EFmt) (dn sn : BitVec 3) (sr : Bool) (m : BitVec 5) : Bool :=
  into.code ≤ 10 && frm.code ≤ 10 && dn.toNat ≤ into.maxIndex && sn.toNat ≤ frm.maxIndex &&
  (!sr || (m.toNat % 4 == 0 && frm.code ≤ 4 && 2 ≤ into.code && into != frm))

/-- Width of a special register in registers (R254). -/
def SReg.regs : SReg → Nat
  | .clk | .trapaddr | .trappc => 2
  | _ => 1

/-- Special registers that SWRITE may write (R254). -/
def SReg.writable : SReg → Bool
  | .trappc | .seed => true
  | _ => false

/-- Registers of an atomic's type (R400). -/
def AType.regs : AType → Nat
  | .i32 | .n32 => 1
  | .i64 | .n64 => 2

/-- Relations that have an unsigned form (R404). -/
def WRel.ordered : WRel → Bool
  | .lt | .le | .gt | .ge => true
  | _ => false

/-! ## Expansion of the short forms (R76 to R78) -/

/-- The fields of a W64 form 0 instruction that a W32 word expands to (R76). -/
def Short.fields (x : Short) : Fields :=
  { stall := x.stall, pred := 7, neg := false, cw := none, dst := x.dst, a := x.a, b := x.b,
    c := .zero, mod := 0 }

/-- The fields that a W16 word expands to: d := d op s (R78). -/
def Short16.fields (x : Short16) : Fields :=
  { stall := 0, pred := 7, neg := false, cw := none, dst := x.d, a := x.d, b := x.s, c := .zero,
    mod := 0 }

/-- The W16 MOV takes s5 as srcA and ZERO as srcB (R78). -/
def Short16.movFields (x : Short16) : Fields := { x.fields with a := x.s, b := .zero }

/-- The fields of a wide-immediate instruction, without the immediate. -/
def Wide.fields (w : Wide) : Fields :=
  { stall := w.stall, pred := w.pred, neg := w.neg, cw := w.cw, dst := w.dst, a := .zero,
    b := .zero, c := .zero, mod := 0 }

/-- The fields of the W32 BRA and BRDEC (R203): form 1, guard P7. -/
def shortBranchFields (stall : BitVec 3) (ctr : Opnd) : Fields :=
  { stall := stall, pred := 7, neg := false, cw := none, dst := ctr, a := .zero, b := .zero,
    c := .zero, mod := 0 }

/-- The operand fields of an instruction; a short form has those of its expansion (R76 to R78). -/
def Instr.fields : Instr → Fields
  | .nop f | .brx f | .callx f | .ret f | .exit f | .yield f | .trap _ f | .tret f | .syscall f
  | .bkpt _ f | .spawn f | .cdecl f | .csign f | .brdec _ f | .iadd f | .isub f | .iaddc f
  | .isubb f | .iadd64 f | .isub64 f | .ineg f | .iabs f | .imul f | .imulh f | .imad f
  | .imad64 f | .imin f | .imax f | .idiff f | .isad f | .and f | .or f | .xor f | .andn f
  | .not f | .logic3 _ f | .shl f | .shrl f | .shra f | .rotl f | .fshl f | .bfx f | .bfi f
  | .popc f | .clz f | .ctz f | .brev f | .bperm f | .icmp _ f | .isel f | .mov f | .lea f
  | .lea64 f | .icvt _ _ f | .plop _ f | .pmovPv f | .pmovVp f | .sread _ f | .swrite _ f
  | .voteAll f | .voteAny f | .voteBallot f | .voteUni f | .shfl _ f | .redux _ f | .matchv _ f
  | .fadd f | .fsub f | .fmul f | .ffma f | .fmin f | .fmax f | .fcmp _ f | .fclass f | .frcp f
  | .frsq f | .fsqrt f | .fdiv f | .fexp2 f | .flog2 f | .fsin f | .fcos f | .ftanh f | .fscale f
  | .frnd f | .f2i _ _ _ f | .i2f _ _ _ f | .fcvt _ _ _ _ _ _ f | .dadd f | .dsub f | .dmul f
  | .dfma f | .dcmp _ f | .pkadd _ f | .pkmul _ f | .pkfma _ f | .pkmm _ _ f | .qdot4 _ _ f
  | .idot4 _ _ f | .ld f | .st f | .lds f | .sts f | .ldx f | .stx f | .pref f | .cctlWb f
  | .cctlInv f | .cctlWbinv f | .icinv f | .ifence f | .pin f | .unpin f | .hint f | .plq f
  | .atom _ _ f | .acas _ f | .atoms _ _ f | .atomx _ _ f | .red _ _ f | .waitc _ _ _ f
  | .phasePub f | .phaseSnap f | .phaseFull f | .barArrive f | .barWait f | .barSync f | .last f
  | .enq f | .deq f | .xcopy f | .xfill f | .xgath f | .xappk f | .xseal f | .xptr f | .btapp f
  | .btrel f | .xpoolFill f | .xpoolCopy f | .xpoolCmp f | .xpoolReduce f | .sbpost f | .sbpoll f
  | .sbread f | .mzero f | .mma f | .mmasp f | .mldacc f | .mstacc f | .mpack f | .mread f
  | .mwrite f | .mrowMax f | .mrowSum f | .mexp f => f
  | .iaddW16 x | .isubW16 x | .imulW16 x | .iminW16 x | .imaxW16 x | .andW16 x | .orW16 x
  | .xorW16 x | .shlW16 x | .shrlW16 x | .shraW16 x | .faddW16 x | .fmulW16 x | .fminW16 x
  | .fmaxW16 x => x.fields
  | .movW16 x => x.movFields
  | .iaddW32 x | .imulW32 x | .iminW32 x | .andW32 x | .shlW32 x | .movW32 x | .leaW32 x
  | .faddW32 x | .fmulW32 x | .fminW32 x | .ldW32 x | .stW32 x | .ldsW32 x | .stsW32 x => x.fields
  | .bra w | .call w | .movi w | .movhi w => w.fields
  | .braW32 stall _ => shortBranchFields stall .zero
  | .brdecW32 stall ctr _ => shortBranchFields stall ctr
  | _ => shortBranchFields 0 .zero

/-! ## The table of shapes -/

/-- The integer mould of R235: dst V, C and G where allowed; b and c as given. -/
def Shape.int (g : Bool) (b c : Role) (ok : Bool) (lat : Lat) (form : FormRule) : Shape :=
  ⟨.val 1 true g, .src 1, b, c, ok, lat, form⟩

/-- A control instruction without operands (R203). -/
def Shape.plain (dst : DstRole) (a : Role) (ok : Bool) : Shape :=
  ⟨dst, a, .none, .none, ok, .none, .zero⟩

/-- A variable-latency instruction of form 0 that writes n registers (R73). -/
def Shape.var (n : Nat) (a b c : Role) (ok : Bool) : Shape :=
  ⟨.val n false false, a, b, c, ok, .var, .zero⟩

/-- A load or a store (R331). -/
def Shape.mem (load global : Bool) (f : Fields) : Shape :=
  ⟨if load then .val (sizeRegs f.mod) false false else .data (sizeRegs f.mod),
   if global then .src 2 else .src 1, .src 1, .none, mMod load global f.mod,
   if load then .var else .none, .both⟩

/-- LDX and STX: the memory class on a cluster word (R331). -/
def Shape.memX (load : Bool) (f : Fields) : Shape :=
  { Shape.mem load false f with a := .src 1 }

/-- An atomic (R400). -/
def Shape.atomic (dst : Bool) (addr val : Nat) (ty : AType) (ok : Bool) : Shape :=
  ⟨if dst then .val ty.regs false false else .none, .src addr, .src val, .own, ok,
   if dst then .var else .none, .zero⟩

/-- A job card instruction (R346, R437): .sp in mod5[4]. -/
def Shape.card (f : Fields) : Shape :=
  Shape.var 1 (if f.mod.getLsbD 4 then .src 1 else .run 2) .none .none (f.mod.toNat % 16 == 0)

/-- A signed matrix instruction (R302, R303): mod5[4] is 0. -/
def Shape.signed (dst : DstRole) (a b c : Role) (f : Fields) : Shape :=
  ⟨dst, a, b, c, !f.mod.getLsbD 4, if dst = .none then .none else .var, .zero⟩

/-- A float instruction of F32 operands (R262, R263). -/
def Shape.flt (b c : Role) (ok : Bool) (lat : Lat) (form : FormRule) : Shape :=
  ⟨.val 1 true false, .src 1, b, c, ok, lat, form⟩

/-- A step of the part, which no word encodes. -/
def Shape.event : Shape := ⟨.none, .none, .none, .none, true, .none, .zero⟩

/-- What the fields of each instruction hold. The short forms have the shape of their expansion. (Log 17, DEDUCED.) (Log 18, DEDUCED.) -/
def Instr.shape : Instr → Shape
  | .nop f | .exit f | .yield f | .tret f | .ifence f => .plain .none .none (f.mod == 0)
  | .braW32 _ _ => ⟨.none, .none, .none, .none, true, .none, .one⟩
  | .bra _ => ⟨.none, .none, .none, .none, true, .none, .wide⟩
  | .brx f | .ret f => .plain .none .target (f.mod == 0)
  | .call _ => ⟨.link, .none, .none, .none, true, .none, .wide⟩
  | .callx f => .plain .link .target (f.mod == 0)
  | .trap _ f | .bkpt _ f => ⟨.none, .none, .none, .none, f.mod == 0, .none, .one⟩
  | .syscall f => ⟨.val 1 false false, .run 2, .src 1, .none, f.mod == 0, .var, .both⟩
  | .spawn f =>
    .var 1 (.src 1) (if f.mod = 0 then .none else .run f.mod.toNat) .none
      (f.mod == 0 || f.mod == 1 || f.mod == 2 || f.mod == 4)
  | .cdecl f =>
    ⟨.none, .conv, if f.mod.toNat % 4 = 0 then .src 2 else .none, .none, f.mod.toNat < 3, .none,
     .zero⟩
  | .csign f => .plain .none .conv (f.mod == 0)
  | .brdecW32 _ _ _ => ⟨.counter, .none, .none, .none, true, .none, .one⟩
  | .brdec _ f => ⟨.counter, .none, .none, .none, f.mod == 0, .none, .one⟩
  -- integer
  | .iaddW16 _ | .iaddW32 _ | .isubW16 _ | .imulW16 _ | .imulW32 _ | .iminW16 _ | .iminW32 _
  | .imaxW16 _ | .andW16 _ | .andW32 _ | .orW16 _ | .xorW16 _ | .shlW16 _ | .shlW32 _
  | .shrlW16 _ | .shraW16 _ | .leaW32 _ => .int true (.src 1) .none true .f1 .both
  | .iadd f | .isub f | .imul f =>
    .int true (.src 1) .none (iMod true true f.form1 f.mod) .f1 .both
  | .imulh f | .imin f | .imax f =>
    .int true (.src 1) .none (iMod true false f.form1 f.mod) .f1 .both
  | .iaddc f | .isubb f => .int false (.src 1) .pred (f.mod == 0) .f1 .zero
  | .iadd64 f | .isub64 f =>
    ⟨.val 2 false true, .src 2, .src 2, .none, iMod false true f.form1 f.mod, .f1, .both⟩
  | .ineg f | .iabs f => .int true .none .none (iMod true true false f.mod) .f1 .zero
  | .imad f => .int true (.src 1) (.src 1) (iMod true true false f.mod) .f1 .zero
  | .imad64 f =>
    ⟨.val 2 false true, .src 1, .src 1, .src 2, iMod false true false f.mod, .f1, .zero⟩
  | .idiff f => .int false (.src 1) .none (iMod true true false f.mod) .f1 .zero
  | .isad f => .int false (.src 1) (.src 1) (iMod true true false f.mod) .f1 .zero
  | .and f | .or f | .xor f | .andn f => .int true (.src 1) .none (f.mod == 0) .f1 .both
  | .not f => .int true .none .none (f.mod == 0) .f1 .both
  | .logic3 _ f => .int true (.src 1) (.src 1) (f.mod == 0) .f1 .zero
  | .shl f | .shrl f | .shra f => .int true (.src 1) .none (shMod f.form1 f.mod) .f1 .both
  | .rotl f => .int true (.src 1) .none (f.mod == 0) .f1 .both
  | .fshl f | .bfi f | .bperm f => .int false (.src 1) (.src 1) (f.mod == 0) .f1 .zero
  | .bfx f => .int true (.src 1) .none (iMod false false f.form1 f.mod) .f1 .both
  | .popc f | .clz f | .ctz f | .brev f => .int true .none .none (f.mod == 0) .f1 .zero
  | .icmp _ f => ⟨.pred, .src 1, .src 1, .none, iMod false false f.form1 f.mod, .f1, .both⟩
  | .isel f => .int true (.src 1) .pred (f.mod == 0) .f1 .zero
  | .movW16 _ | .movW32 _ => .int true .none .none true .f1 .zero
  | .mov f =>
    if f.mod = 1 then ⟨.val 2 false true, .src 2, .none, .none, true, .f1, .zero⟩
    else .int true .none .none (f.mod == 0) .f1 .zero
  | .movi _ => ⟨.val 1 true true, .none, .none, .none, true, .f1, .wide⟩
  | .movhi _ => ⟨.val 2 false true, .none, .none, .none, true, .f1, .wide⟩
  | .lea f => .int true (.src 1) .none (f.mod.toNat < 8) .f1 .both
  | .lea64 f => ⟨.val 2 false true, .src 2, .src 1, .none, f.mod.toNat < 16, .f1, .both⟩
  | .icvt into frm f =>
    ⟨.val into.regs true false, .src frm.regs, .none, .none, f.mod.toNat < 2, .f2, .one⟩
  | .plop _ f => ⟨.pred, .pred, .pred, .pred, f.mod == 0, .f1, .zero⟩
  | .pmovPv f => ⟨.val 1 true true, .none, .none, .none, f.mod == 0, .f1, .zero⟩
  | .pmovVp f => ⟨.none, .src 1, .src 1, .none, f.mod == 0, .f1, .zero⟩
  | .sread r f => ⟨.val r.regs true true, .none, .none, .none, f.mod == 0, .f1, .one⟩
  | .swrite r f => ⟨.data r.regs, .none, .none, .none, f.mod == 0 && r.writable, .f1, .one⟩
  | .voteAll f | .voteAny f | .voteUni f =>
    ⟨.pred, .pred, .none, .none, f.mod == 0, .f1, .zero⟩
  | .voteBallot f => ⟨.val 1 true true, .pred, .none, .none, f.mod.toNat < 2, .f1, .zero⟩
  | .shfl _ f => .int false (.src 1) .none (f.mod == 0) .f1 .both
  | .redux o f =>
    .int true .none .none (iMod false (o == .add) false f.mod) .f2 .zero
  | .matchv _ f => .int true .none .none (f.mod.toNat < 2) .f2 .zero
  -- float
  | .faddW16 _ | .faddW32 _ | .fmulW16 _ | .fmulW32 _ | .fminW16 _ | .fminW32 _ | .fmaxW16 _ =>
    .flt (.src 1) .none true .f1 .both
  | .fadd f | .fsub f | .fmul f | .fscale f =>
    .flt (.src 1) .none (fMod true true true true f.mod) .f1 .both
  | .ffma f => .flt (.src 1) (.src 1) (fMod true true true true f.mod) .f1 .zero
  | .fmin f | .fmax f => .flt (.src 1) .none (fMod false true true true f.mod) .f1 .both
  | .fcmp _ f => ⟨.pred, .src 1, .src 1, .none, fMod false false true true f.mod, .f1, .both⟩
  | .fclass f =>
    ⟨.val 1 true false, .src (if f.mod = 1 then 2 else 1), .none, .none, f.mod.toNat < 4, .f1,
     .zero⟩
  | .frcp f | .frsq f | .fsqrt f =>
    .flt .none .none (fMod true true true true f.mod) .f2 .zero
  | .fdiv f => .flt (.src 1) .none (fMod true true true true f.mod) .f2 .zero
  | .fexp2 f | .flog2 f | .fsin f | .fcos f | .ftanh f =>
    .flt .none .none (fMod false true true true f.mod) .f2 .zero
  | .frnd f => .flt .none .none (fMod true true true true f.mod) .f2 .zero
  | .f2i into frm hi f =>
    ⟨.val into.regs true false, .src frm.regs, .none, .none,
     fMod true false true true f.mod && convOk frm hi, .f2, .one⟩
  | .i2f into frm hi f =>
    ⟨.val into.regs true false, .src frm.regs, .none, .none,
     fMod true true false false f.mod && convOk into hi, .f2, .one⟩
  | .fcvt into frm dn sn sr _ f =>
    ⟨.val into.regs true false, .src frm.regs, .none, .none,
     fMod true false true true f.mod && fcvtOk into frm dn sn sr f.mod, .f2, .one⟩
  | .dadd f | .dsub f | .dmul f =>
    ⟨.val 2 false false, .src 2, .src 2, .none, fMod true true true true f.mod, .f2, .zero⟩
  | .dfma f =>
    ⟨.val 2 false false, .src 2, .src 2, .src 2, fMod true true true true f.mod, .f2, .zero⟩
  | .dcmp _ f => ⟨.pred, .src 2, .src 2, .none, fMod false false true true f.mod, .f2, .zero⟩
  | .pkadd _ f | .pkmul _ f =>
    .flt (.src 1) .none (fMod true true true true f.mod) .f1 .zero
  | .pkfma _ f => .flt (.src 1) (.src 1) (fMod true true true true f.mod) .f1 .zero
  | .pkmm _ _ f => .flt (.src 1) .none (fMod false true true true f.mod) .f1 .zero
  | .qdot4 _ _ f => .flt (.src 1) (.src 1) (fMod true true false false f.mod) .f2 .zero
  | .idot4 _ _ f => .flt (.src 1) (.src 1) (iMod false true false f.mod) .f2 .zero
  -- memory
  | .ldW32 _ => ⟨.val 1 false false, .src 2, .src 1, .none, true, .var, .both⟩
  | .stW32 _ => ⟨.data 1, .src 2, .src 1, .none, true, .none, .both⟩
  | .ldsW32 _ => ⟨.val 1 false false, .src 1, .src 1, .none, true, .var, .both⟩
  | .stsW32 _ => ⟨.data 1, .src 1, .src 1, .none, true, .none, .both⟩
  | .ld f => .mem true true f
  | .st f => .mem false true f
  | .lds f => .mem true false f
  | .sts f => .mem false false f
  | .ldx f => .memX true f
  | .stx f => .memX false f
  | .pref f => ⟨.none, .src 2, .src 1, .none, f.mod.toNat < 2, .none, .both⟩
  | .cctlWb f | .cctlWbinv f => ⟨.none, .src 2, .src 1, .none, f.mod.toNat < 8, .none, .both⟩
  | .cctlInv f => ⟨.none, .src 2, .src 1, .none, f.mod == 0, .none, .both⟩
  | .icinv f =>
    ⟨.none, if f.mod.getLsbD 3 then .none else .nonzero, .none, .none, f.mod.toNat < 16, .none,
     .zero⟩
  -- placement
  | .pin f => .var 1 (.run 2) (.src 1) (.src 1) (f.mod == 0)
  | .unpin f => .var 1 (.run 2) (.src 1) .none (f.mod == 0)
  | .hint f => ⟨.none, .run 2, .src 1, .src 1, f.mod == 0, .none, .zero⟩
  | .plq f => .var 2 (.run 2) .none .none (f.mod == 0)
  -- synchronisation and queues
  | .atom _ ty _ => .atomic true 2 ty.regs ty true
  | .acas ty _ => { Shape.atomic true 2 ty.regs ty true with b := .run (2 * ty.regs) }
  | .atoms _ ty _ | .atomx _ ty _ => .atomic true 1 ty.regs ty true
  | .red o ty f => .atomic false 2 ty.regs ty (o != .exch && !f.mod.getLsbD 3)
  | .waitc r u w64 f =>
    .var 1 (.src 2) (.src (if w64 then 2 else 1)) .own (f.mod.toNat < 16 && (!u || r.ordered))
  | .phasePub f | .phaseSnap f | .phaseFull f => .plain .none .none (f.mod.toNat < 8)
  | .barArrive f | .barSync f => ⟨.none, .bar, .src 1, .none, f.mod == 0, .none, .zero⟩
  | .barWait f => .plain .none .bar (f.mod == 0)
  | .last f => .var 1 (.src 2) (.src 1) .none (f.mod.toNat < 8)
  | .enq f | .deq f =>
    .var 1 (.run 2) (if f.mod.getLsbD 4 then .line else .run 2) .none true
  | .lnlEnq _ _ _ _ _ | .lnlDeq _ _ _ _ _ => .event
  -- couriers
  | .xcopy f | .xfill f | .xgath f => .card f
  | .xappk f =>
    .var 1 (.run 2) (if f.mod.getLsbD 4 then .src 1 else .run 2) .none
      (!f.mod.getLsbD 2 && !f.mod.getLsbD 3)
  | .xseal f => .var 1 (.run 2) .none .none (f.mod.toNat < 4)
  | .xptr f => .var 1 (.src 1) .none .none (f.mod.toNat < 4)
  | .btapp f | .btrel f => .var 1 (.run 2) (.src 1) .none (f.mod == 0)
  -- pool and siblings
  | .xpoolFill f | .xpoolCopy f | .xpoolCmp f | .xpoolReduce f => .card f
  | .sbpost f => .var 1 (.src 2) .none .none (f.mod == 0)
  | .sbpoll f => .var 1 .none .none .none (f.mod == 0)
  | .sbread f => .var 4 (.src 2) (.src 1) .none (f.mod == 0)
  -- matrix
  | .mzero f => .signed .none (.src 1) .none .none f
  | .mma f | .mmasp f => .signed (.val 1 false false) .grun .grun (.run 4) f
  | .mldacc f => .signed (.val 1 false false) (.src 1) .grun .none f
  | .mstacc f | .mpack f => .signed (.val 1 false false) (.src 1) .grun (.run 2) f
  | .mread f =>
    .var (if f.mod.getLsbD 0 then 2 else 1) (.src 1) (.src 1) .none (f.mod.toNat < 2)
  | .mwrite f =>
    ⟨.data (if f.mod.getLsbD 0 then 2 else 1), .src 1, .src 1, .none, f.mod.toNat < 2, .none,
     .zero⟩
  | .mrowMax f | .mrowSum f => .var 1 (.src 1) (.src 1) .none (f.mod == 0)
  | .mexp f => ⟨.none, .src 1, .src 1, .src 1, f.mod.toNat < 2, .none, .zero⟩
  | _ => .event

end Sys2Proof
end

