-- ==== Sys2Proof/WellFormed.lean ====
section
/-! DEFINITION. Well-formed instructions: each field holds what its role allows (R57 to R62), every
modifier code is one the instruction accepts (R67), and a co-write stands only where R65 allows it.
The encoder writes well-formed instructions and the decoder produces nothing else. -/

namespace Sys2Proof

/-- A 16- or 32-bit-wide code fits the register run rule R6. -/
def aligned (n k : Nat) : Bool := k % n == 0

/-- What an ordinary operand field of the role may hold. -/
def Role.ok : Role → Opnd → Bool
  | .none, .zero => true
  | .own, .zero => true
  | .src n, .v k _ => aligned n k.toNat
  | .src n, .g k => aligned n k.toNat
  | .src n, .c _ => n == 1
  | .src _, .l _ => true
  | .src _, .zero => true
  | .src _, .imm _ => true
  | .run n, .v k _ => aligned n k.toNat
  | .run n, .g k => aligned n k.toNat
  | .grun, .g k => aligned 4 k.toNat
  | .target, .v k _ => aligned 2 k.toNat
  | .target, .g k => aligned 2 k.toNat
  | .target, .l _ => true
  | .line, .v _ _ => true
  | .line, .g _ => true
  | .line, .imm _ => true
  | .nonzero, .v k _ => aligned 2 k.toNat
  | .nonzero, .g k => aligned 2 k.toNat
  | .nonzero, .l _ => true
  | .nonzero, .imm _ => true
  | .pred, .p _ _ => true
  | .conv, .k _ => true
  | .bar, .bar _ => true
  | _, _ => false

/-- What a destination field of the role may hold. A destination carries no dead mark. -/
def DstRole.ok : DstRole → Opnd → Bool
  | .none, .zero => true
  | .val n _ _, .v k dead => aligned n k.toNat && !dead
  | .val _ _ _, .zero => true
  | .val n c _, .c _ => c && n == 1
  | .val n _ g, .g k => g && aligned n k.toNat
  | .pred, .p _ neg => !neg
  | .link, .v k dead => aligned 2 k.toNat && !dead
  | .link, .g k => aligned 2 k.toNat
  | .counter, .v _ dead => !dead
  | .counter, .c _ => true
  | .data n, .v k dead => aligned n k.toNat && !dead
  | .data n, .g k => aligned n k.toNat
  | .data n, .c _ => n == 1
  | .data _, .zero => true
  | _, _ => false

/-- Whether a co-write may stand (R65): a fixed-latency instruction that writes a value, of 32
bits; IADDC and ISUBB, which write a predicate beside it, are among them (log 89, DEDUCED). -/
def Shape.cwOk (h : Shape) : Bool :=
  match h.dst, h.lat with
  | .val n _ _, .f1 => n == 1
  | .val n _ _, .f2 => n == 1
  | _, _ => false

/-- The b field: its role, or the immediate of form 1 where the instruction has both forms. -/
def Shape.bOk (h : Shape) (o : Opnd) : Bool :=
  match o with
  | .imm18 _ => h.form == .both
  | o => h.b.ok o

/-- The c field: its role; form 1 has none. -/
def Shape.cOk (h : Shape) (f : Fields) : Bool :=
  if f.form1 then f.c == .zero else h.c.ok f.c

/-- All fields of a W64 form 0 or 1 instruction fit its shape. -/
def Shape.fits (h : Shape) (f : Fields) : Bool :=
  h.modOk && h.dst.ok f.dst && h.a.ok f.a && h.bOk f.b && h.cOk f &&
  (f.cw.isNone || h.cwOk)

/-- The fields of a wide-immediate instruction fit its shape. -/
def Shape.fitsWide (h : Shape) (w : Wide) : Bool :=
  h.dst.ok w.dst && (w.cw.isNone || h.cwOk)

/-- srcA7 of a W32 word (R54): the first 96 V registers, C, L, ZERO, or −4 to 15. -/
def a7Ok : Opnd → Bool
  | .v k dead => k.toNat < 96 && !dead
  | .c _ | .l _ | .zero => true
  | .imm k => 12 ≤ k.val && k.val ≤ 31
  | _ => false

/-- srcB6 of a W32 word (R54). -/
def b6Ok : Opnd → Bool
  | .v k dead => k.toNat < 32 && !dead
  | .c _ | .l _ | .zero => true
  | .imm k => 12 ≤ k.val && k.val ≤ 31
  | _ => false

/-- dst7 of a W32 word (R54). -/
def d7Ok : Opnd → Bool
  | .v k dead => k.toNat < 120 && !dead
  | .c _ => true
  | _ => false

/-- s5 of a W16 word (R55). -/
def s5Ok : Opnd → Bool
  | .v k dead => k.toNat < 16 && !dead
  | .c _ | .l _ | .zero => true
  | .imm k => k.val == 17 || k.val == 18 || k.val == 20 || k.val == 24
  | _ => false

/-- d6 of a W16 word (R55). -/
def d6Ok : Opnd → Bool
  | .v k dead => k.toNat < 48 && !dead
  | .c _ => true
  | _ => false

/-- A W32 word: each short field in its range and its expansion well-formed (R77). -/
def Shape.fitsShort (h : Shape) (x : Short) : Bool :=
  d7Ok x.dst && a7Ok x.a && b6Ok x.b && h.fits x.fields

/-- A W16 word (R78). -/
def Shape.fitsShort16 (h : Shape) (x : Short16) : Bool :=
  d6Ok x.d && s5Ok x.s && h.fits x.fields

/-- Well-formed: the fields fit the instruction's shape; LOGIC3 and PLOP hold their truth table in
the place of the modifier. A step of the part is always well-formed: no word encodes it. -/
def Instr.wf (i : Instr) : Bool :=
  match i with
  | .nop f | .brx f | .callx f | .ret f | .exit f | .yield f | .trap _ f | .tret f | .syscall f
  | .bkpt _ f | .spawn f | .cdecl f | .csign f | .brdec _ f | .iadd f | .isub f | .iaddc f
  | .isubb f | .iadd64 f | .isub64 f | .ineg f | .iabs f | .imul f | .imulh f | .imad f | .imad64 f
  | .imin f | .imax f | .idiff f | .isad f | .and f | .or f | .xor f | .andn f | .not f
  | .logic3 _ f | .shl f | .shrl f | .shra f | .rotl f | .fshl f | .bfx f | .bfi f | .popc f
  | .clz f | .ctz f | .brev f | .bperm f | .icmp _ f | .isel f | .mov f | .lea f | .lea64 f
  | .icvt _ _ f | .plop _ f | .pmovPv f | .pmovVp f | .sread _ f | .swrite _ f | .voteAll f
  | .voteAny f | .voteBallot f | .voteUni f | .shfl _ f | .redux _ f | .matchv _ f | .fadd f
  | .fsub f | .fmul f | .ffma f | .fmin f | .fmax f | .fcmp _ f | .fclass f | .frcp f | .frsq f
  | .fsqrt f | .fdiv f | .fexp2 f | .flog2 f | .fsin f | .fcos f | .ftanh f | .fscale f | .frnd f
  | .f2i _ _ _ f | .i2f _ _ _ f | .fcvt _ _ _ _ _ _ f | .dadd f | .dsub f | .dmul f | .dfma f
  | .dcmp _ f | .pkadd _ f | .pkmul _ f | .pkfma _ f | .pkmm _ _ f | .qdot4 _ _ f | .idot4 _ _ f
  | .ld f | .st f | .lds f | .sts f | .ldx f | .stx f | .pref f | .cctlWb f | .cctlInv f
  | .cctlWbinv f | .icinv f | .ifence f | .pin f | .unpin f | .hint f | .plq f | .atom _ _ f
  | .acas _ f | .atoms _ _ f | .atomx _ _ f | .red _ _ f | .waitc _ _ _ f | .phasePub f
  | .phaseSnap f | .phaseFull f | .barArrive f | .barWait f | .barSync f | .last f | .enq f
  | .deq f | .xcopy f | .xfill f | .xgath f | .xappk f | .xseal f | .xptr f | .btapp f | .btrel f
  | .xpoolFill f | .xpoolCopy f | .xpoolCmp f | .xpoolReduce f | .sbpost f | .sbpoll f | .sbread f
  | .mzero f | .mma f | .mmasp f | .mldacc f | .mstacc f | .mpack f | .mread f | .mwrite f
  | .mrowMax f | .mrowSum f | .mexp f => i.shape.fits f
  | .bra w | .call w | .movi w | .movhi w => i.shape.fitsWide w
  | .iaddW32 x | .imulW32 x | .iminW32 x | .andW32 x | .shlW32 x | .movW32 x | .leaW32 x
  | .faddW32 x | .fmulW32 x | .fminW32 x | .ldW32 x | .stW32 x | .ldsW32 x | .stsW32 x =>
    i.shape.fitsShort x
  | .iaddW16 x | .isubW16 x | .imulW16 x | .iminW16 x | .imaxW16 x | .andW16 x | .orW16 x
  | .xorW16 x | .shlW16 x | .shrlW16 x | .shraW16 x | .faddW16 x | .fmulW16 x | .fminW16 x
  | .fmaxW16 x => i.shape.fitsShort16 x
  | .movW16 x => d6Ok x.d && s5Ok x.s && i.shape.fits x.movFields
  | .braW32 _ _ => true
  | .brdecW32 _ ctr _ => d7Ok ctr
  | .lnlEnq _ _ _ _ _ | .lnlDeq _ _ _ _ _ => true
  | _ => true

end Sys2Proof
end

