-- ==== Sys2Proof/Decode.lean ====
section
/-! DEFINITION. The decoder, total on any bytes, which refuses by name (R48 to R81), and the encoder
written from the same tables. -/

namespace Sys2Proof

/-! ## Numbers and codes -/

/-- Bits [lo + n − 1 : lo] of w. -/
def bits (w lo n : Nat) : Nat := w / 2 ^ lo % 2 ^ n

/-- Read a list of bytes as one number, the lowest address first (R2). -/
def leNat : List Byte → Nat
  | [] => 0
  | b :: t => b.toNat + 256 * leNat t

/-- The n bytes of a number, the lowest address first (R2). -/
def leBytes : Nat → Nat → List Byte
  | 0, _ => []
  | n + 1, w => BitVec.ofNat 8 w :: leBytes n (w / 256)

def Cmp.code : Cmp → Nat
  | .eq => 0 | .ne => 1 | .lt => 2 | .le => 3 | .gt => 4 | .ge => 5

def Cmp.ofCode : Nat → Option Cmp
  | 0 => some .eq | 1 => some .ne | 2 => some .lt | 3 => some .le | 4 => some .gt | 5 => some .ge
  | _ => none

def FCmp.code : FCmp → Nat
  | .eq => 0 | .ne => 1 | .lt => 2 | .le => 3 | .gt => 4 | .ge => 5 | .num => 6 | .nan => 7

def FCmp.ofCode : Nat → Option FCmp
  | 0 => some .eq | 1 => some .ne | 2 => some .lt | 3 => some .le | 4 => some .gt | 5 => some .ge
  | 6 => some .num | 7 => some .nan | _ => none

def ShflMode.code : ShflMode → Nat
  | .idx => 0 | .up => 1 | .down => 2 | .xor => 3

def ShflMode.ofCode : Nat → Option ShflMode
  | 0 => some .idx | 1 => some .up | 2 => some .down | 3 => some .xor | _ => none

def ReduxOp.code : ReduxOp → Nat
  | .add => 0 | .min => 1 | .max => 2 | .and => 3 | .or => 4 | .xor => 5

def ReduxOp.ofCode : Nat → Option ReduxOp
  | 0 => some .add | 1 => some .min | 2 => some .max | 3 => some .and | 4 => some .or
  | 5 => some .xor | _ => none

def AtomOp.code : AtomOp → Nat
  | .add => 0 | .min => 1 | .max => 2 | .and => 3 | .or => 4 | .xor => 5 | .exch => 6

def AtomOp.ofCode : Nat → Option AtomOp
  | 0 => some .add | 1 => some .min | 2 => some .max | 3 => some .and | 4 => some .or
  | 5 => some .xor | 6 => some .exch | _ => none

/-- Types of the atomics as srcC codes (R400). -/
def AType.code : AType → Nat
  | .i32 => 0xE0 | .n32 => 0xE1 | .i64 => 0xE2 | .n64 => 0xE3

def AType.ofCode : Nat → Option AType
  | 0xE0 => some .i32 | 0xE1 => some .n32 | 0xE2 => some .i64 | 0xE3 => some .n64 | _ => none

def WRel.code : WRel → Nat
  | .eq => 0 | .ne => 1 | .lt => 2 | .le => 3 | .gt => 4 | .ge => 5 | .any => 6 | .none => 7

def WRel.ofCode : Nat → Option WRel
  | 0 => some .eq | 1 => some .ne | 2 => some .lt | 3 => some .le | 4 => some .gt | 5 => some .ge
  | 6 => some .any | 7 => some .none | _ => Option.none

def IFmt.code : IFmt → Nat
  | .i32 => 0 | .n32 => 1 | .i64 => 2 | .n64 => 3 | .i16 => 4 | .n16 => 5 | .i8 => 6 | .n8 => 7

def IFmt.ofCode : Nat → Option IFmt
  | 0 => some .i32 | 1 => some .n32 | 2 => some .i64 | 3 => some .n64 | 4 => some .i16
  | 5 => some .n16 | 6 => some .i8 | 7 => some .n8 | _ => none

def EFmt.ofCode : Nat → Option EFmt
  | 0 => some .f64 | 1 => some .f32 | 2 => some .f19 | 3 => some .bf16 | 4 => some .f16
  | 5 => some .e4m3 | 6 => some .e5m2 | 7 => some .e3m4 | 8 => some .e3m2 | 9 => some .e2m3
  | 10 => some .e2m1 | 11 => some .i16 | 12 => some .i8 | 13 => some .n8 | 14 => some .i4
  | 15 => some .n4 | 16 => some .i2 | 17 => some .t2 | 18 => some .b1 | _ => none

/-- Selectors of the special registers (R254). -/
def SReg.code : SReg → Nat
  | .tidX => 0x00 | .tidY => 0x01 | .tidZ => 0x02 | .ntidX => 0x03 | .ntidY => 0x04
  | .ntidZ => 0x05 | .teamX => 0x06 | .teamY => 0x07 | .teamZ => 0x08 | .nteamX => 0x09
  | .nteamY => 0x0A | .nteamZ => 0x0B | .lane => 0x0C | .group => 0x0D | .gwidth => 0x0E
  | .core => 0x0F | .pairside => 0x10 | .cluster => 0x11 | .die => 0x12 | .part => 0x13
  | .clk => 0x14 | .sib => 0x15 | .nsib => 0x16 | .trapcause => 0x17 | .trapaddr => 0x18
  | .trappc => 0x19 | .seed => 0x1A | .leaseid => 0x1B

def SReg.ofCode : Nat → Option SReg
  | 0x00 => some .tidX | 0x01 => some .tidY | 0x02 => some .tidZ | 0x03 => some .ntidX
  | 0x04 => some .ntidY | 0x05 => some .ntidZ | 0x06 => some .teamX | 0x07 => some .teamY
  | 0x08 => some .teamZ | 0x09 => some .nteamX | 0x0A => some .nteamY | 0x0B => some .nteamZ
  | 0x0C => some .lane | 0x0D => some .group | 0x0E => some .gwidth | 0x0F => some .core
  | 0x10 => some .pairside | 0x11 => some .cluster | 0x12 => some .die | 0x13 => some .part
  | 0x14 => some .clk | 0x15 => some .sib | 0x16 => some .nsib | 0x17 => some .trapcause
  | 0x18 => some .trapaddr | 0x19 => some .trappc | 0x1A => some .seed | 0x1B => some .leaseid
  | _ => none

/-! ## Operand codes (R56, R60, R61) -/

/-- The W64 code of an operand. -/
def Opnd.code : Opnd → Nat
  | .v n _ => n.toNat
  | .c n => 0x80 + n.toNat
  | .l n => 0x88 + n.val
  | .zero => 0x8B
  | .g n => 0x90 + n.toNat
  | .imm j => 0xD0 + j.val
  | .p n neg => 0xF0 + n.toNat + (if neg then 8 else 0)
  | .k n => 0xE0 + n.toNat
  | .bar n => 0xE0 + n.toNat
  | .imm18 _ => 0x8B

/-- The dead mark of an operand (R66). -/
def Opnd.dead : Opnd → Bool
  | .v _ d => d
  | _ => false

/-- The ordinary operand of a code below 256 (R56); none for a reserved code and for a dead mark on
anything but a V code (R66). -/
def Opnd.ofCode (k : Nat) (dead : Bool) : Option Opnd :=
  if k < 0x80 then some (.v (BitVec.ofNat 7 k) dead)
  else if dead then none
  else if k < 0x88 then some (.c (BitVec.ofNat 3 (k - 0x80)))
  else if k = 0x88 then some (.l 0)
  else if k = 0x89 then some (.l 1)
  else if k = 0x8A then some (.l 2)
  else if k = 0x8B then some .zero
  else if k < 0x90 then none
  else if k < 0xD0 then some (.g (BitVec.ofNat 6 (k - 0x90)))
  else if h : k - 0xD0 < 48 then some (.imm ⟨k - 0xD0, h⟩)
  else none

/-- The two decode traps (R80). -/
inductive Ill where
  | insn | opnd
  deriving DecidableEq, Repr

/-- Take an ordinary operand where the role allows it. -/
def Role.ordinary (r : Role) (k : Nat) (dead : Bool) : Except Ill Opnd :=
  match Opnd.ofCode k dead with
  | some o => if r.ok o then .ok o else .error .opnd
  | Option.none => .error .opnd

/-- Read a source field of a role: its code and its dead mark. -/
def Role.parse (r : Role) (k : Nat) (dead : Bool) : Except Ill Opnd :=
  match r with
  | .none => if k = 0x8B && !dead then .ok .zero else .error .insn
  | .own => if dead then .error .insn else .ok .zero
  | .nonzero => if k = 0x8B then .error .insn else r.ordinary k dead
  | .pred =>
    if 0xF0 ≤ k && !dead then .ok (.p (BitVec.ofNat 3 (k - 0xF0)) (0xF8 ≤ k)) else .error .opnd
  | .conv =>
    if 0xE0 ≤ k && k < 0xF0 && !dead then .ok (.k (BitVec.ofNat 4 (k - 0xE0))) else .error .opnd
  | .bar =>
    if 0xE0 ≤ k && k < 0xE8 && !dead then .ok (.bar (BitVec.ofNat 3 (k - 0xE0))) else .error .opnd
  | .src _ | .run _ | .grun | .target | .line => r.ordinary k dead

/-- Read a destination field (R59 to R62). -/
def DstRole.parse (r : DstRole) (k : Nat) : Except Ill Opnd :=
  match r with
  | .none => if k = 0x8B then .ok .zero else .error .insn
  | .pred =>
    if 0xF0 ≤ k && k < 0xF8 then .ok (.p (BitVec.ofNat 3 (k - 0xF0)) false) else .error .opnd
  | .val _ _ _ | .link | .counter | .data _ =>
    match Opnd.ofCode k false with
    | some o => if r.ok o then .ok o else .error .opnd
    | Option.none => .error .opnd

/-! ## The opcode map (R72) -/

/-- The only minor of a major. -/
def only (minor : Nat) (k : Fields → Instr) : Option (Fields → Instr) :=
  if minor = 0 then some k else none

/-- Minor m takes the m-th of a major's instructions. -/
def minors (minor : Nat) (ks : List (Fields → Instr)) : Option (Fields → Instr) := ks[minor]?

/-- Majors 0x00 to 0x0F. -/
def skelControl (major minor imm : Nat) : Option (Fields → Instr) :=
  match major with
  | 0x00 => only minor .nop
  | 0x02 => only minor .brx
  | 0x04 => only minor .callx
  | 0x05 => only minor .ret
  | 0x06 => only minor .exit
  | 0x07 => only minor .yield
  | 0x08 => only minor (.trap (BitVec.ofNat 18 imm))
  | 0x09 => only minor .tret
  | 0x0A => only minor .syscall
  | 0x0B => only minor (.bkpt (BitVec.ofNat 18 imm))
  | 0x0C => only minor .spawn
  | 0x0D => only minor .cdecl
  | 0x0E => only minor .csign
  | 0x0F => only minor (.brdec (BitVec.ofNat 18 imm))
  | _ => none

/-- ICVT's format word (R250). -/
def skelIcvt (imm : Nat) : Option (Fields → Instr) :=
  if imm / 256 = 0 then do
    let into ← IFmt.ofCode (bits imm 0 4)
    let frm ← IFmt.ofCode (bits imm 4 4)
    pure (.icvt into frm)
  else none

/-- SREAD and SWRITE: the selector, with zeros above it (R253). -/
def skelSReg (imm : Nat) (k : SReg → Fields → Instr) : Option (Fields → Instr) :=
  if imm / 256 = 0 then do
    let r ← SReg.ofCode imm
    pure (k r)
  else none

/-- LOGIC3 and PLOP: the truth table is {mod5, minor} (R71). -/
def skelTruth (minor mod : Nat) (k : BitVec 8 → Fields → Instr) : Option (Fields → Instr) :=
  some fun f => k (BitVec.ofNat 8 (8 * mod + minor)) { f with mod := 0 }

/-- Majors 0x10 to 0x2E. -/
def skelInt (major minor mod imm : Nat) : Option (Fields → Instr) :=
  match major with
  | 0x10 => minors minor [.iadd, .isub]
  | 0x11 => minors minor [.iaddc, .isubb]
  | 0x12 => minors minor [.iadd64, .isub64]
  | 0x13 => minors minor [.ineg, .iabs]
  | 0x14 => minors minor [.imul, .imulh]
  | 0x15 => only minor .imad
  | 0x16 => only minor .imad64
  | 0x17 => minors minor [.imin, .imax]
  | 0x18 => minors minor [.idiff, .isad]
  | 0x19 => minors minor [.and, .or, .xor, .andn, .not]
  | 0x1A => skelTruth minor mod .logic3
  | 0x1B => minors minor [.shl, .shrl, .shra, .rotl]
  | 0x1C => only minor .fshl
  | 0x1D => only minor .bfx
  | 0x1E => only minor .bfi
  | 0x1F => minors minor [.popc, .clz, .ctz, .brev]
  | 0x20 => only minor .bperm
  | 0x21 => (Cmp.ofCode minor).map .icmp
  | 0x22 => only minor .isel
  | 0x23 => only minor .mov
  | 0x25 => minors minor [.lea, .lea64]
  | 0x26 => if minor = 0 then skelIcvt imm else none
  | 0x27 => skelTruth minor mod .plop
  | 0x28 => minors minor [.pmovPv, .pmovVp]
  | 0x29 => if minor = 0 then skelSReg imm .sread else none
  | 0x2A => if minor = 0 then skelSReg imm .swrite else none
  | 0x2B => minors minor [.voteAll, .voteAny, .voteBallot, .voteUni]
  | 0x2C => (ShflMode.ofCode minor).map .shfl
  | 0x2D => (ReduxOp.ofCode minor).map .redux
  | 0x2E => minors minor [.matchv false, .matchv true]
  | _ => none

/-- F2I's format word (R275). -/
def skelF2i (imm : Nat) : Option (Fields → Instr) :=
  if imm / 1024 = 0 then do
    let into ← IFmt.ofCode (bits imm 0 4)
    let frm ← EFmt.ofCode (bits imm 4 5)
    pure (.f2i into frm (bits imm 9 1 == 1))
  else none

/-- I2F's format word (R276). -/
def skelI2f (imm : Nat) : Option (Fields → Instr) :=
  if imm / 1024 = 0 then do
    let into ← EFmt.ofCode (bits imm 0 5)
    let frm ← IFmt.ofCode (bits imm 5 4)
    pure (.i2f into frm (bits imm 9 1 == 1))
  else none

/-- FCVT's format word (R277). -/
def skelFcvt (imm : Nat) : Option (Fields → Instr) := do
  let into ← EFmt.ofCode (bits imm 0 5)
  let frm ← EFmt.ofCode (bits imm 5 5)
  pure (.fcvt into frm (BitVec.ofNat 3 (bits imm 10 3)) (BitVec.ofNat 3 (bits imm 13 3))
    (bits imm 16 1 == 1) (bits imm 17 1 == 1))

/-- Majors 0x30 to 0x47. -/
def skelFloat (major minor imm : Nat) : Option (Fields → Instr) :=
  match major with
  | 0x30 => minors minor [.fadd, .fsub]
  | 0x31 => only minor .fmul
  | 0x32 => only minor .ffma
  | 0x33 => minors minor [.fmin, .fmax]
  | 0x34 => (FCmp.ofCode minor).map .fcmp
  | 0x35 => only minor .fclass
  | 0x36 => minors minor [.frcp, .frsq, .fsqrt]
  | 0x37 => only minor .fdiv
  | 0x38 => minors minor [.fexp2, .flog2, .fsin, .fcos, .ftanh]
  | 0x39 => only minor .fscale
  | 0x3A => only minor .frnd
  | 0x3B => if minor = 0 then skelF2i imm else none
  | 0x3C => if minor = 0 then skelI2f imm else none
  | 0x3D => if minor = 0 then skelFcvt imm else none
  | 0x3E => minors minor [.dadd, .dsub]
  | 0x3F => only minor .dmul
  | 0x40 => only minor .dfma
  | 0x41 => (FCmp.ofCode minor).map .dcmp
  | 0x42 => minors minor [.pkadd false, .pkadd true]
  | 0x43 => minors minor [.pkmul false, .pkmul true]
  | 0x44 => minors minor [.pkfma false, .pkfma true]
  | 0x45 => minors minor [.pkmm false false, .pkmm false true, .pkmm true false, .pkmm true true]
  | 0x46 => minors minor [.qdot4 false false, .qdot4 false true, .qdot4 true false,
      .qdot4 true true]
  | 0x47 => minors minor [.idot4 false false, .idot4 false true, .idot4 true false,
      .idot4 true true]
  | _ => none

/-- An atomic: the operation from the minor, the type from srcC (R400). -/
def skelAtom (minor cc : Nat) (k : AtomOp → AType → Fields → Instr) : Option (Fields → Instr) := do
  let o ← AtomOp.ofCode minor
  let ty ← AType.ofCode cc
  pure (k o ty)

/-- WAITC's compare code (R404). -/
def skelWaitc (cc : Nat) : Option (Fields → Instr) :=
  if 0xE0 ≤ cc then do
    let r ← WRel.ofCode (bits cc 0 3)
    pure (.waitc r (bits cc 3 1 == 1) (bits cc 4 1 == 1))
  else none

/-- Majors 0x50 to 0x7E. -/
def skelMemory (major minor cc : Nat) : Option (Fields → Instr) :=
  match major with
  | 0x50 => only minor .ld
  | 0x51 => only minor .st
  | 0x52 => only minor .lds
  | 0x53 => only minor .sts
  | 0x54 => only minor .ldx
  | 0x55 => only minor .stx
  | 0x56 => only minor .pref
  | 0x57 => minors minor [.cctlWb, .cctlInv, .cctlWbinv]
  | 0x58 => only minor .icinv
  | 0x59 => only minor .ifence
  | 0x5A => minors minor [.pin, .unpin]
  | 0x5B => only minor .hint
  | 0x5C => only minor .plq
  | 0x60 => skelAtom minor cc .atom
  | 0x61 => if minor = 0 then (AType.ofCode cc).map .acas else none
  | 0x62 => skelAtom minor cc .atoms
  | 0x63 => skelAtom minor cc .atomx
  | 0x64 => skelAtom minor cc .red
  | 0x65 => if minor = 0 then skelWaitc cc else none
  | 0x66 => minors minor [.phasePub, .phaseSnap, .phaseFull]
  | 0x67 => minors minor [.barArrive, .barWait, .barSync]
  | 0x68 => only minor .last
  | 0x69 => only minor .enq
  | 0x6A => only minor .deq
  | 0x6C => only minor .xcopy
  | 0x6D => only minor .xfill
  | 0x6E => only minor .xgath
  | 0x6F => only minor .xappk
  | 0x70 => only minor .xseal
  | 0x71 => only minor .xptr
  | 0x72 => minors minor [.btapp, .btrel]
  | 0x73 => minors minor [.xpoolFill, .xpoolCopy, .xpoolCmp, .xpoolReduce]
  | 0x74 => only minor .sbpost
  | 0x75 => minors minor [.sbpoll, .sbread]
  | 0x78 => only minor .mzero
  | 0x79 => only minor .mma
  | 0x7A => only minor .mmasp
  | 0x7B => minors minor [.mldacc, .mstacc]
  | 0x7C => minors minor [.mread, .mwrite]
  | 0x7D => only minor .mpack
  | 0x7E => minors minor [.mrowMax, .mrowSum, .mexp]
  | _ => none

/-- The instruction a W64 header of form 0 or 1 names, waiting for its fields. imm is the immediate
of form 1 and cc the srcC code of form 0. -/
def skel (major minor mod imm cc : Nat) : Option (Fields → Instr) :=
  if major < 0x10 then skelControl major minor imm
  else if major < 0x30 then skelInt major minor mod imm
  else if major < 0x50 then skelFloat major minor imm
  else skelMemory major minor cc

/-- The wide-immediate instructions (R53). -/
def skelWide (major minor : Nat) : Option (Wide → Instr) :=
  match major, minor with
  | 0x01, 0 => some .bra
  | 0x03, 0 => some .call
  | 0x24, 0 => some .movi
  | 0x24, 1 => some .movhi
  | _, _ => none

/-! ## W64 -/

/-- Co-write fields (R65): a slot without the enable bit, or an enable bit on an instruction that
does not allow it, is ILLEGAL_INSN; on a result wider than 32 bits it is ILLEGAL_OPND. -/
def Shape.parseCw (h : Shape) (cwe slot : Nat) : Except Ill (Option (BitVec 3)) :=
  if cwe = 0 then (if slot = 0 then .ok none else .error .insn)
  else if h.cwOk then .ok (some (BitVec.ofNat 3 slot))
  else
    match h.dst, h.lat with
    | .val _ _ _, .f1 => .error .opnd
    | .val _ _ _, .f2 => .error .opnd
    | _, _ => .error .insn

/-- Whether a parse ended in ILLEGAL_INSN, which goes before ILLEGAL_OPND (R81). -/
def isInsn {α : Type} : Except Ill α → Bool
  | .error .insn => true
  | _ => false

/-- Whether a form bit is one the instruction allows (R74). -/
def FormRule.allows : FormRule → Nat → Bool
  | .zero, form => form == 0
  | .one, form => form == 1
  | .both, _ => true
  | .wide, form => form == 1

/-- Put the parsed fields together, ILLEGAL_INSN first. -/
def joinFields (stall pred : BitVec 3) (neg : Bool) (mod : BitVec 5)
    (cw : Except Ill (Option (BitVec 3))) (d a b c : Except Ill Opnd) (mk : Fields → Instr) :
    Except Ill Instr :=
  if isInsn cw || isInsn d || isInsn a || isInsn b || isInsn c then .error .insn
  else
    match cw, d, a, b, c with
    | .ok cw, .ok d, .ok a, .ok b, .ok c => .ok (mk ⟨stall, pred, neg, cw, d, a, b, c, mod⟩)
    | _, _, _, _, _ => .error .opnd

/-- The header of a W64 word (R50). -/
structure Header where
  stall : Nat
  major : Nat
  minor : Nat
  pred : Nat
  neg : Nat
  dst : Nat
  cwslot : Nat
  cwe : Nat
  form : Nat
  deriving DecidableEq, Repr

def Header.ofWord (w : Nat) : Header :=
  { stall := bits w 2 3, major := bits w 5 7, minor := bits w 12 3, pred := bits w 15 3,
    neg := bits w 18 1, dst := bits w 19 8, cwslot := bits w 27 3, cwe := bits w 30 1,
    form := bits w 31 1 }

/-- Decode a W64 word of form 0 (R51): the high word hi. -/
def decodeForm0 (h : Header) (hi : Nat) : Except Ill Instr :=
  let mod := bits hi 27 5
  match skel h.major h.minor mod 0 (bits hi 16 8) with
  | none => .error .insn
  | some mk =>
    let m := BitVec.ofNat 5 mod
    let sh := (mk ⟨0, 7, false, none, .zero, .zero, .zero, .zero, m⟩).shape
    if sh.modOk && sh.form.allows 0 then
      joinFields (BitVec.ofNat 3 h.stall) (BitVec.ofNat 3 h.pred) (h.neg == 1) m
        (sh.parseCw h.cwe h.cwslot) (sh.dst.parse h.dst)
        (sh.a.parse (bits hi 0 8) (bits hi 24 1 == 1))
        (sh.b.parse (bits hi 8 8) (bits hi 25 1 == 1))
        (sh.c.parse (bits hi 16 8) (bits hi 26 1 == 1)) mk
    else .error .insn

/-- Decode a W64 word of form 1 (R52). -/
def decodeForm1 (h : Header) (hi : Nat) : Except Ill Instr :=
  let mod := bits hi 9 5
  let imm := bits hi 14 18
  match skel h.major h.minor mod imm 0x8B with
  | none => .error .insn
  | some mk =>
    let m := BitVec.ofNat 5 mod
    let i18 := Opnd.imm18 (BitVec.ofNat 18 imm)
    let sh := (mk ⟨0, 7, false, none, .zero, .zero, i18, .zero, m⟩).shape
    if sh.modOk && sh.form.allows 1 then
      joinFields (BitVec.ofNat 3 h.stall) (BitVec.ofNat 3 h.pred) (h.neg == 1) m
        (sh.parseCw h.cwe h.cwslot) (sh.dst.parse h.dst)
        (sh.a.parse (bits hi 0 8) (bits hi 8 1 == 1))
        (.ok (if sh.form = .both then i18 else .zero)) (.ok .zero) mk
    else .error .insn

/-- Decode a wide-immediate word (R53). -/
def decodeWide (h : Header) (hi : Nat) (mk : Wide → Instr) : Except Ill Instr :=
  let sh := (mk ⟨0, 7, false, none, .zero, 0⟩).shape
  let cw := sh.parseCw h.cwe h.cwslot
  let d := sh.dst.parse h.dst
  if h.form ≠ 1 || isInsn cw || isInsn d then .error .insn
  else
    match cw, d with
    | .ok cw, .ok d =>
      .ok (mk ⟨BitVec.ofNat 3 h.stall, BitVec.ofNat 3 h.pred, h.neg == 1, cw, d,
        BitVec.ofNat 32 hi⟩)
    | _, _ => .error .opnd

/-- Decode a W64 word. -/
def decode64 (w : Nat) : Except Ill Instr :=
  let h := Header.ofWord w
  let hi := bits w 32 32
  match skelWide h.major h.minor with
  | some mk => decodeWide h hi mk
  | none => if h.form = 0 then decodeForm0 h hi else decodeForm1 h hi

/-! ## W32 and W16 -/

/-- srcA7 (vl = 96) and srcB6 (vl = 32) of R54, s5 below 28 (vl = 16) of R55. -/
def shortSrc (vl k : Nat) : Opnd :=
  if k < vl then .v (BitVec.ofNat 7 k) false
  else if k < vl + 8 then .c (BitVec.ofNat 3 (k - vl))
  else if k = vl + 8 then .l 0
  else if k = vl + 9 then .l 1
  else if k = vl + 10 then .l 2
  else if k = vl + 11 then .zero
  else .imm (Fin.ofNat 48 (k - vl))

/-- dst7 of R54 (vl = 120) and d6 of R55 (vl = 48). -/
def shortDst (vl k : Nat) : Opnd :=
  if k < vl then .v (BitVec.ofNat 7 k) false else .c (BitVec.ofNat 3 (k - vl))

/-- s5 of R55: the four immediates are 1, 2, 4 and 8. -/
def src5 (k : Nat) : Opnd :=
  if k < 28 then shortSrc 16 k
  else if k = 28 then .imm 17
  else if k = 29 then .imm 18
  else if k = 30 then .imm 20
  else .imm 24

/-- Check an expansion's fields against its shape (R76): the operand faults of the short forms. -/
def checkShort (i : Instr) (f : Fields) : Except Ill Instr :=
  if i.shape.fits f then .ok i else .error .opnd

/-- The W32-eligible majors with short operands (R77). -/
def skelShort (major : Nat) : Option (Short → Instr) :=
  match major with
  | 0x10 => some .iaddW32
  | 0x14 => some .imulW32
  | 0x17 => some .iminW32
  | 0x19 => some .andW32
  | 0x1B => some .shlW32
  | 0x23 => some .movW32
  | 0x25 => some .leaW32
  | 0x30 => some .faddW32
  | 0x31 => some .fmulW32
  | 0x33 => some .fminW32
  | 0x50 => some .ldW32
  | 0x51 => some .stW32
  | 0x52 => some .ldsW32
  | 0x53 => some .stsW32
  | _ => none

/-- Decode a W32 word (R54, R77). -/
def decode32 (w : Nat) : Except Ill Instr :=
  let major := bits w 5 7
  let stall := BitVec.ofNat 3 (bits w 2 3)
  if major = 0x01 then .ok (.braW32 stall (BitVec.ofNat 20 (bits w 12 20)))
  else if major = 0x0F then
    .ok (.brdecW32 stall (shortDst 120 (bits w 12 7)) (BitVec.ofNat 13 (bits w 19 13)))
  else
    match skelShort major with
    | none => .error .insn
    | some mk =>
      let x : Short := ⟨stall, shortDst 120 (bits w 12 7), shortSrc 96 (bits w 19 7),
        shortSrc 32 (bits w 26 6)⟩
      if major = 0x23 && bits w 26 6 ≠ 43 then .error .insn
      else checkShort (mk x) x.fields

/-- The W16 compact ops (R78), MOV apart. -/
def skelCompact (op : Nat) : Option (Short16 → Instr) :=
  match op with
  | 1 => some .iaddW16
  | 2 => some .isubW16
  | 3 => some .imulW16
  | 4 => some .andW16
  | 5 => some .orW16
  | 6 => some .xorW16
  | 7 => some .shlW16
  | 8 => some .shrlW16
  | 9 => some .shraW16
  | 10 => some .iminW16
  | 11 => some .imaxW16
  | 12 => some .faddW16
  | 13 => some .fmulW16
  | 14 => some .fminW16
  | 15 => some .fmaxW16
  | _ => none

/-- Decode a W16 word (R55, R78, R79). -/
def decode16 (w : Nat) : Except Ill Instr :=
  let d6 := bits w 5 6
  let x : Short16 := ⟨shortDst 48 d6, src5 (bits w 11 5)⟩
  if 56 ≤ d6 then .error .opnd
  else
    match skelCompact (bits w 1 4) with
    | some mk => checkShort (mk x) x.fields
    | none => checkShort (.movW16 x) x.movFields

/-! ## Bytes -/

/-- Length in bytes that the first byte of an instruction gives (R48). -/
def insnLength (b : Byte) : Nat :=
  if b.toNat % 2 = 0 then 2 else if b.toNat % 4 = 1 then 4 else 8

/-- What the bytes at a program counter are. -/
inductive Decoded where
  /-- An instruction of so many bytes. -/
  | ok (i : Instr) (len : Nat)
  /-- ILLEGAL_INSN (R80). -/
  | illegalInsn
  /-- ILLEGAL_OPND (R80). -/
  | illegalOpnd
  /-- Fewer bytes than the instruction has. -/
  | truncated
  deriving DecidableEq, Repr

def Decoded.ofExcept (len : Nat) : Except Ill Instr → Decoded
  | .ok i => .ok i len
  | .error .insn => .illegalInsn
  | .error .opnd => .illegalOpnd

/-- Decode the instruction at the head of the bytes. -/
def decode (bs : List Byte) : Decoded :=
  match bs with
  | [] => .truncated
  | b :: _ =>
    let len := insnLength b
    if bs.length < len then .truncated
    else
      let w := leNat (bs.take len)
      .ofExcept len (if len = 2 then decode16 w else if len = 4 then decode32 w else decode64 w)

/-- Decode one of the two hart instructions of the custom-0 space (R122): other funct3 values and a
nonzero funct7[2:0] are an illegal instruction of the hart. -/
def decodeHart (w : Nat) : Option Instr :=
  if bits w 0 7 = 0x0B && bits w 25 3 = 0 then
    let scope := BitVec.ofNat 3 (bits w 29 3)
    let wait := bits w 28 1 == 1
    let rs2 := BitVec.ofNat 5 (bits w 20 5)
    let rs1 := BitVec.ofNat 5 (bits w 15 5)
    let rd := BitVec.ofNat 5 (bits w 7 5)
    if bits w 12 3 = 0 then some (.lnlEnq scope wait rs2 rs1 rd)
    else if bits w 12 3 = 1 then some (.lnlDeq scope wait rs2 rs1 rd)
    else none
  else none

/-- Whether a table word of nbits is a hart instruction: 32 bits long with the low bits of a RISC-V
word, where an L9 instruction of that length has low bits 01 (R48, R122). -/
def isHartWord (nbits w : Nat) : Bool := nbits == 32 && w % 4 == 3

/-- The instruction the decoder reads from an instruction whose bits are w. -/
def decodeTableWord (nbits w : Nat) : Option Instr :=
  if isHartWord nbits w then decodeHart (w % 2 ^ 32)
  else
    match decode (leBytes 8 (w % 2 ^ nbits)) with
    | .ok i _ => some i
    | _ => none

/-! ## The encoder -/

/-- The own fields an instruction puts beside its operands: mod5, the form-1 immediate and the
srcC code. -/
structure Own where
  mod : Nat
  imm : Nat
  cc : Option Nat
  deriving DecidableEq, Repr

/-- The words of a W64 instruction of form 0 or 1. -/
def packFields (major minor : Nat) (form : Nat) (f : Fields) (o : Own) : Nat :=
  let head := 3 + 2 ^ 2 * f.stall.toNat + 2 ^ 5 * major + 2 ^ 12 * minor + 2 ^ 15 * f.pred.toNat
    + 2 ^ 18 * f.neg.toNat + 2 ^ 19 * f.dst.code
    + (match f.cw with | none => 0 | some s => 2 ^ 27 * s.toNat + 2 ^ 30)
  if form = 0 then
    head + 2 ^ 32 * (f.a.code + 2 ^ 8 * f.b.code + 2 ^ 16 * o.cc.getD f.c.code
      + 2 ^ 24 * f.a.dead.toNat + 2 ^ 25 * f.b.dead.toNat + 2 ^ 26 * f.c.dead.toNat
      + 2 ^ 27 * o.mod)
  else
    head + 2 ^ 31 + 2 ^ 32 * (f.a.code + 2 ^ 8 * f.a.dead.toNat + 2 ^ 9 * o.mod + 2 ^ 14 * o.imm)

/-- The words of a wide-immediate instruction. -/
def packWide (major minor : Nat) (w : Wide) : Nat :=
  3 + 2 ^ 2 * w.stall.toNat + 2 ^ 5 * major + 2 ^ 12 * minor + 2 ^ 15 * w.pred.toNat
    + 2 ^ 18 * w.neg.toNat + 2 ^ 19 * w.dst.code
    + (match w.cw with | none => 0 | some s => 2 ^ 27 * s.toNat + 2 ^ 30)
    + 2 ^ 31 + 2 ^ 32 * w.imm.toNat

/-- The short code of a source (R54, R55). -/
def srcShort (vl : Nat) : Opnd → Nat
  | .v k _ => k.toNat
  | .c k => vl + k.toNat
  | .l k => vl + 8 + k.val
  | .zero => vl + 11
  | .imm k => vl + k.val
  | _ => 0

def dstShort (vl : Nat) : Opnd → Nat
  | .v k _ => k.toNat
  | .c k => vl + k.toNat
  | _ => 0

def code5 : Opnd → Nat
  | .imm k => if k.val = 17 then 28 else if k.val = 18 then 29 else if k.val = 20 then 30 else 31
  | o => srcShort 16 o

/-- How an instruction is laid out. -/
inductive Layout where
  | w16 (op : Nat) (x : Short16)
  | w32 (major : Nat) (x : Short)
  | short32 (w : Nat)
  | w64 (major minor : Nat) (form : Nat) (f : Fields) (o : Own)
  | wide (major minor : Nat) (w : Wide)
  /-- A step of the part: no word. -/
  | nothing
  deriving DecidableEq, Repr

/-- Form 0 or 1 by the b field. -/
def Layout.std (major minor : Nat) (f : Fields) : Layout :=
  match f.b with
  | .imm18 i => .w64 major minor 1 f ⟨f.mod.toNat, i.toNat, none⟩
  | _ => .w64 major minor 0 f ⟨f.mod.toNat, 0, none⟩

/-- Form 1 alone, with an immediate the instruction interprets. -/
def Layout.own1 (major : Nat) (imm : Nat) (f : Fields) : Layout :=
  .w64 major 0 1 f ⟨f.mod.toNat, imm, none⟩

/-- Form 0 with a srcC code the instruction interprets. -/
def Layout.own0 (major minor cc : Nat) (f : Fields) : Layout :=
  .w64 major minor 0 f ⟨f.mod.toNat, 0, some cc⟩

/-- Form 0 with a truth table (R71). -/
def Layout.truth (major : Nat) (tt : BitVec 8) (f : Fields) : Layout :=
  .w64 major (tt.toNat % 8) 0 f ⟨tt.toNat / 8, 0, none⟩

/-- The word of a hart instruction (R122). -/
def packHart (funct3 : Nat) (scope : BitVec 3) (wait : Bool) (rs2 rs1 rd : BitVec 5) : Nat :=
  0x0B + 2 ^ 7 * rd.toNat + 2 ^ 12 * funct3 + 2 ^ 15 * rs1.toNat + 2 ^ 20 * rs2.toNat
    + 2 ^ 28 * wait.toNat + 2 ^ 29 * scope.toNat

/-- Where each instruction stands in the opcode map (R72, R77, R78). -/
def Instr.layout : Instr → Layout
  | .nop f => .std 0x00 0 f
  | .braW32 stall off => .short32 (1 + 2 ^ 2 * stall.toNat + 2 ^ 5 * 0x01 + 2 ^ 12 * off.toNat)
  | .bra w => .wide 0x01 0 w
  | .brx f => .std 0x02 0 f
  | .call w => .wide 0x03 0 w
  | .callx f => .std 0x04 0 f
  | .ret f => .std 0x05 0 f
  | .exit f => .std 0x06 0 f
  | .yield f => .std 0x07 0 f
  | .trap code f => .own1 0x08 code.toNat f
  | .tret f => .std 0x09 0 f
  | .syscall f => .std 0x0A 0 f
  | .bkpt code f => .own1 0x0B code.toNat f
  | .spawn f => .std 0x0C 0 f
  | .cdecl f => .std 0x0D 0 f
  | .csign f => .std 0x0E 0 f
  | .brdecW32 stall ctr off =>
    .short32 (1 + 2 ^ 2 * stall.toNat + 2 ^ 5 * 0x0F + 2 ^ 12 * dstShort 120 ctr
      + 2 ^ 19 * off.toNat)
  | .brdec off f => .own1 0x0F off.toNat f
  | .iaddW16 x => .w16 1 x
  | .iaddW32 x => .w32 0x10 x
  | .iadd f => .std 0x10 0 f
  | .isubW16 x => .w16 2 x
  | .isub f => .std 0x10 1 f
  | .iaddc f => .std 0x11 0 f
  | .isubb f => .std 0x11 1 f
  | .iadd64 f => .std 0x12 0 f
  | .isub64 f => .std 0x12 1 f
  | .ineg f => .std 0x13 0 f
  | .iabs f => .std 0x13 1 f
  | .imulW16 x => .w16 3 x
  | .imulW32 x => .w32 0x14 x
  | .imul f => .std 0x14 0 f
  | .imulh f => .std 0x14 1 f
  | .imad f => .std 0x15 0 f
  | .imad64 f => .std 0x16 0 f
  | .iminW16 x => .w16 10 x
  | .iminW32 x => .w32 0x17 x
  | .imin f => .std 0x17 0 f
  | .imaxW16 x => .w16 11 x
  | .imax f => .std 0x17 1 f
  | .idiff f => .std 0x18 0 f
  | .isad f => .std 0x18 1 f
  | .andW16 x => .w16 4 x
  | .andW32 x => .w32 0x19 x
  | .and f => .std 0x19 0 f
  | .orW16 x => .w16 5 x
  | .or f => .std 0x19 1 f
  | .xorW16 x => .w16 6 x
  | .xor f => .std 0x19 2 f
  | .andn f => .std 0x19 3 f
  | .not f => .std 0x19 4 f
  | .logic3 tt f => .truth 0x1A tt f
  | .shlW16 x => .w16 7 x
  | .shlW32 x => .w32 0x1B x
  | .shl f => .std 0x1B 0 f
  | .shrlW16 x => .w16 8 x
  | .shrl f => .std 0x1B 1 f
  | .shraW16 x => .w16 9 x
  | .shra f => .std 0x1B 2 f
  | .rotl f => .std 0x1B 3 f
  | .fshl f => .std 0x1C 0 f
  | .bfx f => .std 0x1D 0 f
  | .bfi f => .std 0x1E 0 f
  | .popc f => .std 0x1F 0 f
  | .clz f => .std 0x1F 1 f
  | .ctz f => .std 0x1F 2 f
  | .brev f => .std 0x1F 3 f
  | .bperm f => .std 0x20 0 f
  | .icmp r f => .std 0x21 r.code f
  | .isel f => .std 0x22 0 f
  | .movW16 x => .w16 0 x
  | .movW32 x => .w32 0x23 x
  | .mov f => .std 0x23 0 f
  | .movi w => .wide 0x24 0 w
  | .movhi w => .wide 0x24 1 w
  | .leaW32 x => .w32 0x25 x
  | .lea f => .std 0x25 0 f
  | .lea64 f => .std 0x25 1 f
  | .icvt into frm f => .own1 0x26 (into.code + 16 * frm.code) f
  | .plop tt f => .truth 0x27 tt f
  | .pmovPv f => .std 0x28 0 f
  | .pmovVp f => .std 0x28 1 f
  | .sread r f => .own1 0x29 r.code f
  | .swrite r f => .own1 0x2A r.code f
  | .voteAll f => .std 0x2B 0 f
  | .voteAny f => .std 0x2B 1 f
  | .voteBallot f => .std 0x2B 2 f
  | .voteUni f => .std 0x2B 3 f
  | .shfl m f => .std 0x2C m.code f
  | .redux o f => .std 0x2D o.code f
  | .matchv all f => .std 0x2E all.toNat f
  | .faddW16 x => .w16 12 x
  | .faddW32 x => .w32 0x30 x
  | .fadd f => .std 0x30 0 f
  | .fsub f => .std 0x30 1 f
  | .fmulW16 x => .w16 13 x
  | .fmulW32 x => .w32 0x31 x
  | .fmul f => .std 0x31 0 f
  | .ffma f => .std 0x32 0 f
  | .fminW16 x => .w16 14 x
  | .fminW32 x => .w32 0x33 x
  | .fmin f => .std 0x33 0 f
  | .fmaxW16 x => .w16 15 x
  | .fmax f => .std 0x33 1 f
  | .fcmp r f => .std 0x34 r.code f
  | .fclass f => .std 0x35 0 f
  | .frcp f => .std 0x36 0 f
  | .frsq f => .std 0x36 1 f
  | .fsqrt f => .std 0x36 2 f
  | .fdiv f => .std 0x37 0 f
  | .fexp2 f => .std 0x38 0 f
  | .flog2 f => .std 0x38 1 f
  | .fsin f => .std 0x38 2 f
  | .fcos f => .std 0x38 3 f
  | .ftanh f => .std 0x38 4 f
  | .fscale f => .std 0x39 0 f
  | .frnd f => .std 0x3A 0 f
  | .f2i into frm hi f => .own1 0x3B (into.code + 2 ^ 4 * frm.code + 2 ^ 9 * hi.toNat) f
  | .i2f into frm hi f => .own1 0x3C (into.code + 2 ^ 5 * frm.code + 2 ^ 9 * hi.toNat) f
  | .fcvt into frm dn sn sr satf f =>
    .own1 0x3D (into.code + 2 ^ 5 * frm.code + 2 ^ 10 * dn.toNat + 2 ^ 13 * sn.toNat
      + 2 ^ 16 * sr.toNat + 2 ^ 17 * satf.toNat) f
  | .dadd f => .std 0x3E 0 f
  | .dsub f => .std 0x3E 1 f
  | .dmul f => .std 0x3F 0 f
  | .dfma f => .std 0x40 0 f
  | .dcmp r f => .std 0x41 r.code f
  | .pkadd h f => .std 0x42 h.toNat f
  | .pkmul h f => .std 0x43 h.toNat f
  | .pkfma h f => .std 0x44 h.toNat f
  | .pkmm h m f => .std 0x45 (2 * h.toNat + m.toNat) f
  | .qdot4 a b f => .std 0x46 (2 * a.toNat + b.toNat) f
  | .idot4 a b f => .std 0x47 (2 * a.toNat + b.toNat) f
  | .ldW32 x => .w32 0x50 x
  | .ld f => .std 0x50 0 f
  | .stW32 x => .w32 0x51 x
  | .st f => .std 0x51 0 f
  | .ldsW32 x => .w32 0x52 x
  | .lds f => .std 0x52 0 f
  | .stsW32 x => .w32 0x53 x
  | .sts f => .std 0x53 0 f
  | .ldx f => .std 0x54 0 f
  | .stx f => .std 0x55 0 f
  | .pref f => .std 0x56 0 f
  | .cctlWb f => .std 0x57 0 f
  | .cctlInv f => .std 0x57 1 f
  | .cctlWbinv f => .std 0x57 2 f
  | .icinv f => .std 0x58 0 f
  | .ifence f => .std 0x59 0 f
  | .pin f => .std 0x5A 0 f
  | .unpin f => .std 0x5A 1 f
  | .hint f => .std 0x5B 0 f
  | .plq f => .std 0x5C 0 f
  | .atom o ty f => .own0 0x60 o.code ty.code f
  | .acas ty f => .own0 0x61 0 ty.code f
  | .atoms o ty f => .own0 0x62 o.code ty.code f
  | .atomx o ty f => .own0 0x63 o.code ty.code f
  | .red o ty f => .own0 0x64 o.code ty.code f
  | .waitc r u w64 f => .own0 0x65 0 (0xE0 + r.code + 8 * u.toNat + 16 * w64.toNat) f
  | .phasePub f => .std 0x66 0 f
  | .phaseSnap f => .std 0x66 1 f
  | .phaseFull f => .std 0x66 2 f
  | .barArrive f => .std 0x67 0 f
  | .barWait f => .std 0x67 1 f
  | .barSync f => .std 0x67 2 f
  | .last f => .std 0x68 0 f
  | .enq f => .std 0x69 0 f
  | .deq f => .std 0x6A 0 f
  | .lnlEnq scope wait rs2 rs1 rd => .short32 (packHart 0 scope wait rs2 rs1 rd)
  | .lnlDeq scope wait rs2 rs1 rd => .short32 (packHart 1 scope wait rs2 rs1 rd)
  | .xcopy f => .std 0x6C 0 f
  | .xfill f => .std 0x6D 0 f
  | .xgath f => .std 0x6E 0 f
  | .xappk f => .std 0x6F 0 f
  | .xseal f => .std 0x70 0 f
  | .xptr f => .std 0x71 0 f
  | .btapp f => .std 0x72 0 f
  | .btrel f => .std 0x72 1 f
  | .xpoolFill f => .std 0x73 0 f
  | .xpoolCopy f => .std 0x73 1 f
  | .xpoolCmp f => .std 0x73 2 f
  | .xpoolReduce f => .std 0x73 3 f
  | .sbpost f => .std 0x74 0 f
  | .sbpoll f => .std 0x75 0 f
  | .sbread f => .std 0x75 1 f
  | .mzero f => .std 0x78 0 f
  | .mma f => .std 0x79 0 f
  | .mmasp f => .std 0x7A 0 f
  | .mldacc f => .std 0x7B 0 f
  | .mstacc f => .std 0x7B 1 f
  | .mpack f => .std 0x7D 0 f
  | .mread f => .std 0x7C 0 f
  | .mwrite f => .std 0x7C 1 f
  | .mrowMax f => .std 0x7E 0 f
  | .mrowSum f => .std 0x7E 1 f
  | .mexp f => .std 0x7E 2 f
  | _ => .nothing

/-- The bytes of a layout. -/
def Layout.bytes : Layout → List Byte
  | .w16 op x => leBytes 2 (2 * op + 2 ^ 5 * dstShort 48 x.d + 2 ^ 11 * code5 x.s)
  | .w32 major x =>
    leBytes 4 (1 + 2 ^ 2 * x.stall.toNat + 2 ^ 5 * major + 2 ^ 12 * dstShort 120 x.dst
      + 2 ^ 19 * srcShort 96 x.a + 2 ^ 26 * srcShort 32 x.b)
  | .short32 w => leBytes 4 w
  | .w64 major minor form f o => leBytes 8 (packFields major minor form f o)
  | .wide major minor w => leBytes 8 (packWide major minor w)
  | .nothing => []

/-- The words of a well-formed instruction, as bytes in address order. -/
def encode (i : Instr) : List Byte := i.layout.bytes

/-- One of the two instructions of the harts (R122). -/
def Instr.ofHart : Instr → Bool
  | .lnlEnq _ _ _ _ _ => true
  | .lnlDeq _ _ _ _ _ => true
  | _ => false

/-- A word of the L9 encodes it: it is neither a hart's instruction nor a step of the part. -/
def Instr.coded (i : Instr) : Bool := i.layout != .nothing && !i.ofHart

end Sys2Proof
end

