-- ==== Sys2Proof/Config.lean ====
section
/-! DEFINITION. What an implementation fixes and the manual leaves open: constants without a body
(free values, log 2) and the figures of R16 and R21 that the machine counts with. -/

namespace Sys2Proof.Config

/-- The value FEXP2 (0), FLOG2 (1), FSIN (2), FCOS (3) and FTANH (4) return for an operand away
from the exact points of R271: one fixed function of the operand bits (R272), otherwise open. -/
opaque transcendental : Nat → Word → Word

/-- Byte that a read of a peer package, or of a unit outside the package, delivers: the counter
names the read. -/
opaque outsideByte : Nat → Byte

/-- The signature of hub 0's identity key over a report (R514): the private half is never read. -/
opaque identitySign : List Byte → List Byte

/-- The public identity key in DEVID (R514). -/
opaque identityPublic : BitVec 256

/-- A 32-bit value of a result the manual leaves unstated, named by a counter. -/
opaque openWord : Nat → Word

/-- Byte of a key pair that bring-up loads into a key slot (R20): the counter names the byte. -/
opaque keyByte : Nat → Byte

/-- The outcome of a service pair's self-test (R511): the counter names the test. -/
opaque selfTest : Nat → Bool

/-- PKGID as the management port holds it (R511). -/
opaque portPkgid : BitVec 31

/-- The bytes of a configuration record, from its registers by offset (R514): their order and form
are open. -/
opaque recordBytes : List (Nat × Nat) → List Byte

/-! ## Rows of R21, in cycles -/

def rowScratchOwn : Nat := 20
def rowScratchPair : Nat := 34
def rowScratchCluster : Nat := 60
def rowL1 : Nat := 28
def rowNear : Nat := 96
def rowFar : Nat := 140
def rowOtherDie : Nat := 420
def rowHbm : Nat := 560
def rowLp : Nat := 700
def rowPool : Nat := 1500
def rowPeer : Nat := 2600
def rowSpawn : Nat := 12
def rowEnq : Nat := 80
def rowWaitc : Nat := 110
def rowHubOp : Nat := 420
/-- One crossing of the Weahovik mesh (R22). -/
def meshCrossing : Nat := 120

/-- GPU dies of the package (R13), cores of a die (R16). -/
def gpuDies : Nat := 6
def coresPerDie : Nat := 64
/-- Longest instruction, in bytes (R48). -/
def maxInsnBytes : Nat := 8

end Sys2Proof.Config
end

