-- ==== Sys2Proof/Machine/State.lean ====
section
/-! DEFINITION. The state of the package as plain data: the threads and their operand levels, the cores
and their engines, memory with its staging, the launches and teams, the hubs, pool, fabric and
service registers, and the list of events the part has pending. -/

namespace Sys2Proof.Machine

/-! ## Why a step can stop -/

/-- A fault of the machine. -/
inductive Fault where
  /-- Raised by step when the agent whose turn it is does not exist (a core number above 383, or an
  agent number above 299: 288 harts and the 12 service pairs of log 7): no reachable state has such a turn. Safe: the hardware has no such agent. -/
  | noSuchAgent
  deriving DecidableEq, Repr

/-- A refusal of the model. -/
inductive Refusal where
  /-- Raised by an arm of exec whose instruction has no meaning yet. Safe: nothing follows from it. -/
  | notModelled (mnemonic : String)
  /-- Raised by step when a hart's word is not of the custom-0 space: the manual covers the processor
  dies only where they meet the GPU side (00_scope.md), and gives RISC-V's own instructions no effect. Safe:
  the run stops. -/
  | hartInstruction
  deriving DecidableEq, Repr

/-! ## A thread and its operand levels (R213) -/

/-- One V register: its value, whether it is vacated (R228) and the issue tag of its last accepted
write (R219). -/
structure VReg where
  val : Word
  vac : Bool
  tag : Nat
  deriving DecidableEq, Repr

/-- One C slot with its valid bit (R82, R222). -/
structure CSlot where
  val : Word
  valid : Bool
  tag : Nat
  deriving DecidableEq, Repr

/-- One latch: while a push is pending it holds the value a short read returns, and the number of the
push it waits for (R221). -/
structure Latch where
  val : DWord
  valid : Bool
  pend : Option Nat
  deriving DecidableEq, Repr

/-- The levels that an invalidation clears (R225) and a trap handler shadows (R227). ctx numbers the
period since the last clearing: a write in flight from an earlier period is discarded (R226). -/
structure Level where
  ctx : Nat
  c : Tab CSlot
  l0 : Latch
  l1 : Latch
  l2 : Latch
  deriving DecidableEq, Repr

/-- What holds a thread that is not ready for another reason than time (R192). -/
inductive Wait where
  | none
  /-- WAITC: the lane's parked condition (R405). -/
  | cond
  /-- ENQ.wait or DEQ.wait: the lane's parked operation (R119). -/
  | queue
  /-- The check of an arrival, a CDECL or a signature at the side 0 core (R527). -/
  | answer
  /-- BAR.wait or BAR.sync at a barrier, in the phase of this generation (R413). -/
  | barrier (bar : BitVec 3) (gen : BitVec 16)
  /-- CSIGN: the round it signed (R418). -/
  | sign (k : BitVec 4) (round : BitVec 16)
  /-- SYSCALL: the call tag (R464). -/
  | call (tag : Word)
  /-- SPAWN without a pigeonhole (R155). -/
  | spawn
  /-- A held access: replayed as the retryable cause says (R450). -/
  | held (cause : Byte)
  /-- SBPOLL's answer (R492). -/
  | poll
  /-- A completing signature that waits for a place in the engine's queue (R296). -/
  | engine
  deriving DecidableEq, Repr

/-- An instruction whose check is under way at the side 0 core (R527), or whose lanes wait: its effective
issue, its stall count, its address and the next, and the registers that its dead marks have vacated (R228). -/
structure Await where
  e : Nat
  stall : Nat
  pc : DWord
  npc : DWord
  dead : List Nat
  /-- The instruction blocks its group (R225). -/
  block : Bool
  deriving DecidableEq, Repr

/-- A matrix instruction whose signature is on its way (R285): which one, its operand words, its
destination and tag, the level trap it would raise (R224). -/
structure Sig where
  op : Nat
  accd : Word
  ops : List Word
  dst : Option Nat
  tag : Nat
  trap : Option (Nat × Nat)
  deriving DecidableEq, Repr

/-- A thread (R191, R213, R254). -/
structure Thread where
  /-- Linear index in the team (R131, R151). -/
  index : Nat
  spawned : Bool
  pc : DWord
  v : Tab VReg
  lv : Level
  p : BitVec 7
  /-- Issue tags of the predicates' last accepted writes (R219). -/
  ptags : Tab Nat
  seed : Word
  trapcause : Word
  trapaddr : DWord
  trappc : DWord
  /-- The handler flag of R445. -/
  handler : Bool
  shadow : Level
  /-- First cycle in which the next instruction can issue (R216). -/
  next : Nat
  /-- Cycle of the last solo issue, plus one (R198). -/
  lastSolo : Nat
  wait : Wait
  await : Option Await
  sig : Option Sig
  /-- Predicates that the safe point at which it stopped keeps over a save (R229). -/
  plive : BitVec 7
  /-- Executed EXIT. -/
  exited : Bool
  /-- Stopped by a pre-emption, a cancellation or a launch's stop (R449, R455). -/
  stopped : Bool
  /-- Order number below which filled L1 lines are not read (R380). -/
  l1since : Nat
  /-- The scope of an acquire that takes effect before the thread's next issue (R380). -/
  acqNext : Option Nat
  /-- Cycle in which every load, atomic and queue operation it issued has returned (R380). -/
  loadsDone : Nat
  /-- Cycle in which every store, CCTL and ICINV it issued has been performed (R340, R379). -/
  storesDone : Nat
  /-- Cycle in which its latest publication completes (R379). -/
  pubDone : Nat
  /-- Its publications whose last acknowledgement has not arrived (R379). -/
  pubs : List Nat
  /-- Cycle by which its other operations at a hub or a unit have been performed (R479). -/
  workDone : Nat
  /-- Statuses that are written at a restore (R458, R461): register ↦ issue tag, and the word once it
  has come. -/
  pendv : Tab (Nat × Option Word)
  /-- Registers that hold a job's status not yet read: the issue tag and the job's scope (R380). -/
  acqs : Tab (Nat × Nat)
  deriving DecidableEq, Repr

/-! ## Groups and cores -/

/-- One G register with the group issue order of its last accepted write (R219). -/
structure GReg where
  val : Word
  tag : Nat
  deriving DecidableEq, Repr

/-- States of a group (R146). -/
inductive GState where
  | ready | active | blocked | saved | retired
  deriving DecidableEq, Repr

/-- The ageing counter of a path and the opportunity at which it reached 256 (R193, R194). -/
structure Age where
  count : Nat
  full : Nat
  deriving DecidableEq, Repr

/-- A group (R134, R146). -/
structure Group where
  width : Nat
  threads : Tab Thread
  g : Tab GReg
  st : GState
  /-- Cycle in which it became Ready or Blocked. -/
  since : Nat
  /-- Cycle in which it entered the active set (R232). -/
  entered : Nat
  /-- First cycle in which it can be chosen (R232, R528). -/
  earliest : Nat
  /-- Ageing counter of R232. -/
  age : Age
  /-- Ageing counters of its paths, by PC (R194). -/
  paths : Tab Age
  /-- Cycle in which the group was launched or restored. -/
  born : Nat
  /-- G registers that the safe points at which its threads stopped keep (R229). -/
  glive : BitVec 64
  deriving DecidableEq, Repr

/-- What a write in flight does when its time comes. -/
inductive MicroOp where
  /-- Bits of mask of a V register (R217, R278). -/
  | v (n : Nat) (mask val : Word)
  /-- A C slot of the period ctx, with the rest of the word from a V register or the slot (R222,
  R278). -/
  | c (n ctx : Nat) (mask val : Word) (base : Option Nat)
  /-- A G register (R75). -/
  | g (n : Nat) (val : Word)
  /-- Predicate bits (R223). -/
  | p (mask val : BitVec 7)
  /-- The value of a pending push of the period ctx (R221): the merge of R278 where base is given. -/
  | latch (push ctx : Nat) (mask val : DWord) (base : Option (Nat × Nat))
  /-- Shift a value into the latches of the period ctx (R221). -/
  | push (ctx : Nat) (val : DWord) (pend : Option Nat)
  /-- Vacate V registers (R66, R228). -/
  | vacate (regs : List Nat)
  /-- Clear every C slot and latch of the thread (R225). -/
  | clear (ctx : Nat)
  /-- The group leaves the active set (R146). -/
  | group (st : GState)
  deriving DecidableEq, Repr

/-- A fixed-latency effect in flight: the cycle it is due, the cycle it lands (R217), the effective
issue and the issue tag of its instruction (R219). -/
structure Landing where
  due : Nat
  land : Nat
  eff : Nat
  tag : Nat
  slot : Nat
  lane : Nat
  op : MicroOp
  deriving DecidableEq, Repr

/-- A variable-latency destination on the scoreboard (R218): the registers that are pending, and the
result with the cycle it is due once that is known. -/
structure VarResult where
  due : Option Nat
  tag : Nat
  slot : Nat
  lane : Nat
  /-- First V register and number of registers. -/
  reg : Nat
  n : Nat
  vals : List Word
  /-- The status of a job, which its first reader acquires at this scope (R380). -/
  acq : Option Nat
  /-- A load, atomic, queue operation or courier status, for which an acquire waits (R380). -/
  ord : Bool
  deriving DecidableEq, Repr

/-- A result in a fill buffer that waits for idle ports: its lane pair and the banks still to be
written (R218). -/
structure Fill where
  slot : Nat
  pair : Nat
  banks : List Nat
  deriving DecidableEq, Repr

/-- A read port taken by an instruction's read phase (R215). -/
structure PortUse where
  slot : Nat
  pair : Nat
  bank : Nat
  cycle : Nat
  deriving DecidableEq, Repr

/-- A port of an issue domain (R328, R329): its first free request slot, and the cycles in which the
last requests of its queued instructions leave. -/
structure PortState where
  free : Nat
  leaves : List Nat
  deriving DecidableEq, Repr

/-- A line of a core's L1 with its bytes and its fill (R327, R383). -/
structure L1Line where
  line : Nat
  key : Nat
  filled : Nat
  order : Nat
  used : Nat
  bytes : List Byte
  /-- Of each byte, the staged write that gave it, by its place in coherence order; 0 for none (R376). -/
  src : List Nat
  deriving DecidableEq, Repr

/-- A line of the instruction cache (R196). -/
structure ILine where
  line : Nat
  /-- Key slot of the line's frame when it was filled (R180). -/
  key : Nat
  used : Nat
  bytes : List Byte
  deriving DecidableEq, Repr

/-- One entry of a loop buffer (R197). -/
structure LoopEntry where
  addr : DWord
  bytes : List Byte
  deriving DecidableEq, Repr

/-- A lane's last-page register (R161); gpage and asid tell which invalidation requests cover it, and
dirty whether both leaves have D set. -/
structure LastPage where
  vpage : Nat
  frame : Nat
  gpage : Nat
  asid : Nat
  r : Bool
  w : Bool
  x : Bool
  dirty : Bool
  key : Nat
  part : Nat
  deriving DecidableEq, Repr

/-- An entry of the write-combining buffer (R391). -/
structure WcEntry where
  id : Nat
  line : Nat
  bytes : Tab Byte
  first : Nat
  /-- The threads whose stores it holds (R479). -/
  makers : List Nat
  deriving DecidableEq, Repr

/-- A record of a pigeonhole (R151). -/
structure SpawnRec where
  args : List Word
  index : Nat
  seed : Word
  deriving DecidableEq, Repr

/-- States of a pigeonhole (R152). -/
inductive HoleState where
  | free | filling | due
  deriving DecidableEq, Repr

structure Hole where
  st : HoleState
  key : Nat
  recs : List SpawnRec
  /-- Cycle in which the timer reaches 0. -/
  expires : Nat
  /-- Number of the filling, so that an old timer is told from a new one. -/
  stamp : Nat
  deriving DecidableEq, Repr

/-- The team side that a core holds (R132). -/
structure Side where
  launch : Nat
  team : Nat
  side : Nat
  /-- Cycle in which it was placed, by a start or a restore (R145). -/
  placed : Nat
  /-- Cycles it has consumed before this placement (R127). -/
  consumed : Nat
  started : Bool
  /-- It has been given back, and its groups become Ready within 32 cycles (R528). -/
  returning : Bool
  holes : Tab Hole
  /-- Groups saved under slot pressure, oldest first (R148). -/
  pressed : List Group
  /-- Cycle in which the last of its threads stopped under a cancellation (R482). -/
  stopAt : Option Nat
  deriving DecidableEq, Repr

/-- Kinds of courier jobs (R345, R365). -/
inductive JobKind where
  | copy | fill | gather | appk | seal
  deriving DecidableEq, Repr

/-- A region of a footprint (R345, R348): global or scratchpad. -/
structure Region where
  sp : Bool
  base : Nat
  len : Nat
  deriving DecidableEq, Repr

/-- A courier job in a core's window (R347): the team side and thread it belongs to, its destination,
its card, footprint and scope. -/
structure Job where
  id : Nat
  kind : JobKind
  chan : Nat
  thread : Nat
  /-- The slot, the lane and the PC of the instruction that submitted it (R360). -/
  slot : Nat
  lane : Nat
  pc : DWord
  dst : Option Nat
  tag : Nat
  /-- The card as copied at acceptance (R342); empty for XAPPK and XSEAL. -/
  card : List Byte
  /-- Table of XGATH, XAPPK and XSEAL, and the token record of XAPPK with its space (R365). -/
  table : DWord
  src : DWord
  sp : Bool
  reads : List Region
  writes : List Region
  scope : Nat
  /-- Cycle in which it started (R348). -/
  started : Option Nat
  /-- Transfers written so far, and the first cycle of the next (R350). -/
  pos : Nat
  next : Nat
  /-- The next transfer waits for tokens (R354). -/
  wants : Bool
  /-- What a table job took at its start: the header's and the pool's addresses, H, Dh, the base of the
  blocks and their size, the staging area (R363, R365). -/
  hpa : Nat
  pool : Nat
  heads : Nat
  dh : Nat
  base : Nat
  log2b : Nat
  stage : Nat
  /-- Entry words of a gather (R363). -/
  ents : List Word
  /-- The token record, and the reserved slot (R365). -/
  record : List Byte
  token : Option Nat
  status : Option Word
  deriving DecidableEq, Repr

/-- An entry of the block translation cache (R363). -/
structure BtEntry where
  table : DWord
  gen : Word
  idx : Nat
  word : Word
  used : Nat
  deriving DecidableEq, Repr

/-- Kinds of engine events (R296, R320). -/
inductive EngKind where
  | mzero | mma | mmasp | mldacc | mstacc | mpack | mrowMax | mrowSum | mexp | mread | mwrite
  deriving DecidableEq, Repr

/-- Events that write memory (R314, R318). -/
def EngKind.writes : EngKind → Bool
  | .mstacc => true
  | .mpack => true
  | _ => false

/-- A line that the tile fetch unit has read, with its physical line where it is global (R295). -/
structure FLine where
  bytes : List Byte
  bad : Bool
  pline : Option Nat
  deriving DecidableEq, Repr

/-- A signer of a round that has a destination: thread, register, issue tag (R305). -/
structure SignDst where
  index : Nat
  reg : Nat
  tag : Nat
  deriving DecidableEq, Repr

/-- A lane's part of a per-lane event: lane, accumulator descriptor, index word, and its data or m
(R316). -/
structure LaneOp where
  lane : Nat
  accd : Word
  idx : Word
  data : DWord
  deriving DecidableEq, Repr

/-- An event in the order of a matrix engine (R296, R320). -/
structure EngEvent where
  id : Nat
  kind : EngKind
  /-- The cycle of its placing, and the issue domain for events of one cycle (R320). -/
  placed : Nat
  dom : Nat
  slot : Nat
  /-- The thread whose signature completed the set, or the issuing lane's thread. -/
  thread : Nat
  accd : Word
  /-- Operand words of a signed operation: the descriptors and the control words. -/
  ops : List Word
  lanes : List LaneOp
  /-- State of the generator at the start (R312). -/
  seed : Word
  /-- Signers that receive the status (R305). -/
  dsts : List SignDst
  /-- Issue tag of a per-lane event. -/
  tag : Nat
  /-- Operand lines A (or the only operand) and B as fetched, and the cycle they arrive (R295). -/
  la : Tab FLine
  lb : Tab FLine
  fetched : Bool
  arrives : Nat
  /-- The bitmaps of MMASP have been read (R289), or there are none. -/
  maps : Bool
  /-- Bytes that MSTACC or MPACK has still to write, once it has started (R315). -/
  todo : Option (List (Nat × List Byte))
  /-- Next chunk, and the first cycle in which it may occupy the engine. -/
  chunk : Nat
  next : Nat
  /-- Everything has been performed: it ends in the cycle before next. -/
  past : Bool
  status : Word
  /-- Last cycle it occupied the engine, once it has ended. -/
  ended : Option Nat
  deriving DecidableEq, Repr

/-- An entry of the retirement tracker (R478): the group by its slot and the cycle it was placed in,
its exited threads, and the write-combining entries and the cycle they wait for. -/
structure TrackEntry where
  id : Nat
  slot : Nat
  born : Nat
  threads : List Nat
  wc : List Nat
  done : Nat
  deriving DecidableEq, Repr

/-- A V register that a lane has read in a cycle of the read phase before the last (R215, R220): the value it
had then, and whether the read was short. -/
structure EarlyRead where
  lane : Nat
  reg : Nat
  val : Word
  short : Bool
  deriving DecidableEq, Repr

/-- An issue (R193, R198): the core, the group slot, the subscribed lanes, the PC they hold, whether it is a
solo issue, and the length of the instruction once fetched. -/
structure Issue where
  core : Nat
  slot : Nat
  lanes : List Nat
  pc : DWord
  solo : Bool
  len : Nat
  /-- V registers that a safe-point entry vacates at this issue (R229). -/
  vac : List Nat
  /-- The cycle of issue, and the issue tag: its place in the group issue order (R219). -/
  t : Nat
  tag : Nat
  /-- While the read phase goes on (R215): the instruction, the registers still to be read, and those read so
  far. -/
  insn : Option Instr
  left : List Nat
  early : List EarlyRead
  deriving DecidableEq, Repr

/-- A core (R15, R16). -/
structure Core where
  side : Option Side
  /-- Partition word in force, and the cycle in which the division ends (R139). -/
  pword : Option Word
  dividing : Nat
  /-- Partition whose data the SRAM holds (R136). -/
  owner : Option Nat
  fenced : Bool
  /-- Cycle of the package count at which the core left reset (R255). -/
  clk0 : Nat
  sram : Tab Byte
  /-- Granule tags (R294). -/
  tags : Tab (BitVec 4)
  sramPoison : List Nat
  /-- The launch whose team was on the core last: its record and the cycle of its admission (R197). -/
  lastLaunch : Option (Nat × Nat)
  groups : Tab Group
  /-- Issues whose read phase goes on (R215). -/
  reading : List Issue
  /-- Broadcast issues that wait for a line of the instruction cache, with the cycle it is filled (R196). -/
  fetching : List (Nat × Issue)
  landings : List Landing
  vres : List VarResult
  fills : List Fill
  ports : List PortUse
  /-- The global and scratchpad port of each domain (R328, R329). -/
  gport : Tab PortState
  sport : Tab PortState
  l1 : List L1Line
  icache : List ILine
  loops : Tab (List LoopEntry)
  /-- Loop-buffer requests and the lane number served last (R197). -/
  loopReq : List (Nat × DWord)
  loopLast : Nat
  /-- Cycle of the last refill access served, plus one. -/
  loopServed : Nat
  lastPage : Tab LastPage
  wc : List WcEntry
  jobs : List Job
  btcache : List BtEntry
  engine : List EngEvent
  engineFree : Nat
  tracker : List TrackEntry
  /-- Retry counts of uncorrectable errors in its SRAM (R474). -/
  errors : Nat
  deriving DecidableEq, Repr

/-! ## Memory -/

/-- A write held in staging (R374): its place in coherence order, its bytes, the team side that made
it, the threads whose open phase holds it, and the scope it is published at, with the acting
core. -/
structure Staged where
  order : Nat
  addr : Nat
  bytes : List (Option Byte)
  core : Nat
  launch : Nat
  team : Nat
  side : Nat
  maker : Nat
  mask : List Nat
  /-- Scope and acting core of its publication below PACKAGE (R378). -/
  pub : Option (Nat × Nat)
  /-- While its team is saved it is visible to no core (R389). -/
  hidden : Bool
  /-- The courier job that made it, or 0 (R349). -/
  job : Nat
  /-- A write of a table operation, which every table operation sees (R360). -/
  tbl : Bool
  deriving DecidableEq, Repr

/-- What a global access does at its home slice. -/
inductive HeldOp where
  /-- A load, with the sign extension and the .stream of R330. -/
  | load (sx stream : Bool)
  | store (bytes : List Byte) (stream : Bool)
  | atom (o : AtomOp) (ty : AType) (val : Nat)
  | cas (ty : AType) (cmp val : Nat)
  /-- LAST with its count (R410). -/
  | last (n : Word)
  /-- PREF (R336), and CCTL with what it does (R337). -/
  | pref (l2 : Bool)
  | cctl (wb inv : Bool)
  deriving DecidableEq, Repr

/-- A store or a CCTL, which IFENCE and publications wait for (R332, R340, R379); the others return a value or
may (R402). -/
def HeldOp.isStore : HeldOp → Bool
  | .store _ _ => true
  | .cctl _ _ => true
  | _ => false

/-- It writes the line (R174). -/
def HeldOp.writes : HeldOp → Bool
  | .load _ _ | .pref _ | .cctl _ _ => false
  | _ => true

/-- It returns or changes bytes: PREF and CCTL do neither, and no handover holds them (R178, R341). -/
def HeldOp.moves : HeldOp → Bool
  | .pref _ | .cctl _ _ => false
  | _ => true

def HeldOp.isLoad : HeldOp → Bool
  | .load _ _ => true
  | _ => false

/-- A lane's global access, checked and translated; held while a retryable fault or the stalled-write
window of a hub keeps it back (R175, R450). -/
structure Held where
  id : Nat
  cause : Nat
  replays : Nat
  /-- The hub in whose stalled-write window it stands. -/
  win : Option Nat
  core : Nat
  slot : Nat
  lane : Nat
  thread : Nat
  launch : Nat
  pc : DWord
  va : DWord
  pa : Nat
  /-- It is the first lane of its line's request (R328), and a load that the L1 did not serve when the request
  left. -/
  first : Bool
  miss : Bool
  size : Nat
  dst : Opnd
  regs : Nat
  tag : Nat
  /-- Scope of an atomic, as executed, and whether it is an acquire (R399). -/
  scope : Nat
  acq : Bool
  op : HeldOp
  deriving DecidableEq, Repr

/-- A line held in an L2 slice (R526), with the key slot of its frame when it was filled (R180). -/
structure L2Line where
  line : Nat
  key : Nat
  used : Nat
  deriving DecidableEq, Repr

/-- A parked or polling condition of WAITC (R404 to R407). -/
structure CondWait where
  core : Nat
  slot : Nat
  lane : Nat
  va : DWord
  pa : Nat
  rel : WRel
  uns : Bool
  w64 : Bool
  value : DWord
  tag : Nat
  scope : Nat
  /-- The location lies in a peer's window. -/
  peer : Bool
  /-- Holds a monitor of the slice; otherwise it polls. -/
  mon : Bool
  stamp : Nat
  deriving DecidableEq, Repr

/-- A BTREL that waits for the XAPPK copies into its table (R361). -/
structure TableWait where
  core : Nat
  launch : Nat
  team : Nat
  thread : Nat
  dst : Option Nat
  tag : Nat
  table : DWord
  hpa : Nat
  /-- The entries it releases (R361), and the lane that raises a failed access (R360). -/
  count : Nat
  slot : Nat
  lane : Nat
  pc : DWord
  deriving DecidableEq, Repr

/-- Who a queue operation belongs to. -/
inductive Requester where
  | lane (core slot lane : Nat)
  | hart (h : Nat)
  deriving DecidableEq, Repr

/-- A parked queue operation (R119). -/
structure QueueWait where
  id : Nat
  who : Requester
  enq : Bool
  q : DWord
  qpa : Nat
  line : DWord
  /-- Physical address of the line, where it is not in the scratchpad. -/
  linePa : Nat
  sp : Bool
  scope : Nat
  tag : Nat
  /-- The instruction has .wait; without it the operation is parked only while a handover, or a store of the
  thread that is held, keeps it back (R178, R450). -/
  wait : Bool
  mon : Bool
  deriving DecidableEq, Repr

/-! ## Launches and teams -/

/-- Kinds of leases (R126). -/
inductive LeaseKind where
  | ro | rw | wo
  deriving DecidableEq, Repr

/-- A leased range, rounded outward to 64 KiB pages (R123). -/
structure Lease where
  page : Nat
  count : Nat
  kind : LeaseKind
  deriving DecidableEq, Repr

/-- A run of guest pages of a lease and the frames they reach (R177). -/
structure FrameRun where
  gpage : Nat
  frame : Nat
  count : Nat
  deriving DecidableEq, Repr

/-- The fields of a launch envelope (R126). -/
structure Envelope where
  flags : Byte
  prio : Nat
  log2w : Nat
  pword : Word
  entry : DWord
  args : DWord
  argSize : Nat
  regs : Nat
  leaseCount : Nat
  tx : Nat
  ty : Nat
  tz : Nat
  timer : Nat
  gx : Nat
  gy : Nat
  gz : Nat
  spaddr : DWord
  spcount : Nat
  sibN : Nat
  sibQ : Nat
  exitScope : Nat
  sibKey : DWord
  dep0 : DWord
  dep1 : DWord
  leaseList : DWord
  ctag : DWord
  text : Nat
  deriving DecidableEq, Repr

/-- An admitted launch; its key is the number of its lease record (R124, R254). -/
structure Launch where
  part : Nat
  env : Envelope
  /-- Physical address of the launch queue's descriptor and the envelope's sequence (R127). -/
  queue : Nat
  seq : Nat
  datp : DWord
  leases : List Lease
  /-- The leased frame set (R177), as runs of guest pages and the frames they reach. -/
  frames : List FrameRun
  /-- The launch's safe-point entries, in address order (R39). -/
  safepoints : List (Nat × List Byte)
  /-- The address of the trap handler (R444). -/
  handler : Option DWord
  /-- CEIL as it stood at its admission (R369, R515). -/
  ceil : Nat
  admitted : Nat
  /-- Cycle from which R145 counts, in hub 0. -/
  starve : Nat
  preempting : Bool
  /-- Unstarted ranges by package cluster (R140, R141). -/
  ranges : Tab (Nat × Nat)
  completed : Nat
  cancelled : Nat
  cycles : Nat
  /-- First terminal fault (R449). -/
  fault : Option FaultRec
  deriving DecidableEq, Repr

/-- A team barrier (R411). -/
structure Barrier where
  gen : BitVec 16
  arr : BitVec 24
  n : BitVec 24
  /-- Threads pending, with the generation each waits for (R411). -/
  pend : Tab (BitVec 16)
  deriving DecidableEq, Repr

/-- Uses of a convergence round (R415). -/
inductive ConvUse where
  | none | csign | matrix
  deriving DecidableEq, Repr

/-- Kinds of a convergence register's member set (R416). -/
inductive DeclKind where
  | none | mask | team | pair
  deriving DecidableEq, Repr

/-- A convergence register (R415). -/
structure Conv where
  decl : DeclKind
  set : List Nat
  use : ConvUse
  signed : List Nat
  round : BitVec 16
  /-- Signers with a destination (R305). -/
  dsts : List SignDst
  deriving DecidableEq, Repr

/-- A team in being: running or saved. -/
structure Team where
  launch : Nat
  index : Nat
  cores : List Nat
  barriers : Tab Barrier
  convs : Tab Conv
  spawncount : Nat
  /-- Sides that have completed (R479). -/
  doneSides : List Nat
  /-- Cycle in which a pending pre-emption request arrived (R455, R456). -/
  preempt : Option Nat
  /-- The request proceeds: threads stop at their next stop point (R455). -/
  stopping : Bool
  /-- The save is forced (R457). -/
  forced : Bool
  /-- A cancellation is pending (R487). -/
  cancel : Bool
  /-- The launch for which the pre-emption was requested (R145). -/
  forLaunch : Option Nat
  /-- Its exit scope's demotion has been counted (R370). -/
  exitDemoted : Bool
  deriving DecidableEq, Repr

/-- A team side kept in a context slot (R459 to R461). -/
structure SavedSide where
  /-- The side's books: pigeonholes, cycles consumed, groups saved under pressure. -/
  side : Side
  groups : Tab Group
  /-- Jobs not yet started, in order of acceptance (R353). -/
  jobs : List Job
  sram : Tab Byte
  tags : Tab (BitVec 4)
  sramPoison : List Nat
  deriving DecidableEq, Repr

/-- A saved team. -/
structure Saved where
  launch : Nat
  team : Nat
  sides : List SavedSide
  deriving DecidableEq, Repr

/-! ## Partitions -/

/-- USED and LIMIT of a quota register (R183, R359). -/
structure Quota where
  used : Nat
  limit : Nat
  deriving DecidableEq, Repr

/-- A token bucket (R354, R431). -/
structure Bucket where
  depth : Nat
  rate : Nat
  debt : Nat
  tokens : Nat
  deriving DecidableEq, Repr

/-- A fault ring of a partition (R451): posted counts its records modulo 2^32 (R452); TAIL is posted
modulo 2^16. -/
structure Ring where
  base : DWord
  log2n : Nat
  head : BitVec 16
  posted : Word
  lost : BitVec 16
  deriving DecidableEq, Repr

/-- An invalidation request (R163). A request of a migration engine names its hub and forwarding entry (R173), and
may have acted before those ahead of it, which wait for its move (R177). -/
structure InvReq where
  number : Nat
  req : DWord
  asid : BitVec 16
  acted : Bool
  move : Option (Nat × Nat)
  deriving DecidableEq, Repr

/-- The translation of a NAPOT leaf of stage one or two (R158): the address space and the page, the frame it
reaches, and which of the sixteen entries was used. -/
structure Napot where
  two : Bool
  asid : Nat
  page : Nat
  frame : Nat
  idx : Nat
  deriving DecidableEq, Repr

/-- What is carried to a hub and performed there in order of arrival (R187, R188). -/
inductive PinKind where
  | pin | unpin | hint
  deriving DecidableEq, Repr

/-- A PIN, UNPIN or HINT at the requester's hub (R187, R188): waiting, or performed with the frames whose moves
have not ended. It keeps the partition, the root and the leases of its launch, since it outlives the launch (R190).
lag is the time from its issue to its result when nothing holds it up. -/
structure PinOp where
  id : Nat
  hub : Nat
  kind : PinKind
  part : Nat
  datp : DWord
  leases : List Lease
  launch : Nat
  team : Nat
  thread : Nat
  dst : Option Nat
  tag : Nat
  va : Nat
  count : Nat
  target : Nat
  lag : Nat
  left : Option (List Nat)
  moved : Nat
  deriving DecidableEq, Repr

/-- An entry of PEERTAB (R424). -/
structure PeerEntry where
  valid : Bool
  w : Bool
  r : Bool
  rpart : Nat
  deriving DecidableEq, Repr

/-- An XPOOL operation or other call in flight to a Linhel Pool Module (R439). -/
structure PoolOp where
  id : Nat
  launch : Nat
  team : Nat
  thread : Nat
  core : Nat
  dst : Option Nat
  tag : Nat
  /-- 0 fill, 1 copy, 2 cmp, 3 reduce. -/
  op : Nat
  scope : Nat
  len : Nat
  /-- Frames of DST and SRC, and the offsets in their first. -/
  dstFrames : List Nat
  dstOff : Nat
  srcFrames : List Nat
  srcOff : Nat
  /-- Pattern of a fill, or the key of a reduction. -/
  word : DWord
  mask : Nat
  start : Bool
  /-- Contributions of a reduction, as the part has read them. -/
  elems : List Byte
  /-- Next line. -/
  pos : Nat
  /-- The post of a reduction has been recorded. -/
  posted : Bool
  deriving DecidableEq, Repr

/-- A call of SYSCALL in flight (R464 to R466). -/
structure SysCall where
  tag : Word
  core : Nat
  /-- Calling lanes with the index of their thread, so that a save does not lose them (R468); none once
  the call has been cancelled. -/
  lanes : List (Nat × Nat)
  dst : Option Nat
  tagNo : Nat
  argbase : DWord
  launch : Nat
  team : Nat
  /-- The envelope waits for room in the service queue. -/
  waiting : Bool
  /-- There is no queue: the reply is DENIED (R464). -/
  denied : Bool
  /-- The envelope (R465). -/
  env : List Byte
  deriving DecidableEq, Repr

/-- A remote SBREAD in flight (R495): the lanes that wait, and their destination's tag. -/
structure BallotCall where
  id : Nat
  core : Nat
  slot : Nat
  lanes : List Nat
  tag : Nat
  deriving DecidableEq, Repr

/-- A launch at its lease grant (R124): its queue's descriptor, the number of its arrival, the ranges
asked of peers, and their answers (R426). -/
structure Grant where
  queue : Nat
  order : Nat
  asked : List Nat
  answers : Tab Word
  deriving DecidableEq, Repr

/-- A lease recorded here for a launch of a peer (R426). -/
structure PeerLease where
  podid : Nat
  frm : Nat
  rpart : Nat
  launch : Nat
  lease : Lease
  record : Nat
  deriving DecidableEq, Repr

/-- A block whose reference count is 0 and that waits for its free (R362): the pool's descriptor, the
address of the free stack, and the block. -/
structure DeferredBlock where
  pool : Nat
  freest : Nat
  block : Nat
  deriving DecidableEq, Repr

/-- The registers and books of one partition. -/
structure Part where
  datp : DWord
  groot : DWord
  ivasid : BitVec 16
  ivIssued : Word
  ivDone : Word
  ivq : List InvReq
  /-- The addresses through which NAPOT leaves were taken, by page (R158). -/
  napots : List Napot
  psceil : Word
  ceil : BitVec 3
  demoted : DWord
  earlypub : DWord
  qhbm : Quota
  qlp : Quota
  qpool : Quota
  qpin : Quota
  bquota : Quota
  /-- CBKT and CBSTAT by GPU die; FBKT and FBSTAT by hub. -/
  cbkt : Tab Bucket
  fbkt : Tab Bucket
  poolBase : Nat
  poolLimit : Nat
  poolValid : Bool
  xoq : DWord
  xotag : Word
  svcq : DWord
  ring0 : Ring
  ring1 : Ring
  rpwgt : Nat
  peertab : Tab PeerEntry
  hintdrop : DWord
  xdrop : DWord
  fabshort : DWord
  errcnt : DWord
  throtcyc : DWord
  cxcyc : DWord
  cxbytes : DWord
  cxpool : DWord
  cxteams : DWord
  clmask : BitVec 48
  pcstat : Word
  ctxbase : DWord
  ctxn : Nat
  /-- Physical addresses of the partition's queue descriptors, as far as an operation has named them
  (R111, R143, log 6). -/
  queues : List Nat
  /-- Lines of its block pools and block tables that an operation has named, with the offset of their
  FLAGS byte (R356, R357, log 6). -/
  guarded : Tab Nat
  /-- Completion slots reserved, by physical address of the queue (R128). -/
  reserved : Tab Nat
  /-- Launch queues whose head has its reservation, and the queue examined last at each priority
  (R128, R143). -/
  heads : List Nat
  lastQueue : Tab Nat
  /-- Launch sequences that have ended above the completion word, by queue (R128). -/
  ended : Tab (List Nat)
  /-- Launches at their lease grant (R124). -/
  grants : List Grant
  calls : List SysCall
  nextCall : Word
  /-- The envelope that the scale-out engine has removed and not finished: its status address, target
  package and target queue number (R434). -/
  scaleBusy : Option (Nat × Nat × Nat)
  /-- Blocks to be freed once the gathers that translated them have completed (R362). -/
  deferred : List DeferredBlock
  deriving DecidableEq, Repr

/-! ## Hubs, fabric, pool and service -/

/-- A placement entry (R169). -/
structure Place where
  ptepa : BitVec 52
  heat : BitVec 16
  key : BitVec 6
  ptier : BitVec 2
  phub : BitVec 2
  pin : Bool
  smpl : Bool
  migr : Bool
  scrub : Bool
  retired : Bool
  assigned : Bool
  /-- MODEL'S OWN: the engine has passed the frame over until its next sampled event (R172). -/
  passed : Bool
  deriving DecidableEq, Repr

/-- A forwarding entry (R173). -/
structure Forward where
  id : Nat
  frm : Nat
  into : Nat
  progress : Nat
  part : Nat
  /-- The PIN that asked for the move, if it was one. -/
  asked : Option Nat
  deriving DecidableEq, Repr

/-- A hub. -/
structure Hub where
  migpol : Word
  misses : Nat
  sampled : Nat
  /-- A halving of HEAT is due, and the frames sampled since (R171). -/
  halving : Bool
  late : List Nat
  forwards : List Forward
  /-- Moves that wait for a forwarding entry: the frames, and the PIN that asked (R173, R187). -/
  moves : List (Nat × Nat × Option Nat)
  leasesUsed : List Nat
  hbeat : DWord
  /-- Records not yet posted, by partition and ring (R451). -/
  records : List (Nat × Nat × List Byte)
  /-- Reporting-port round (R453). -/
  portPart : Nat
  portCount : Nat
  /-- HOSTQ 0 to 63 (R520). -/
  hostq : Tab DWord
  /-- Pending slots of host windows, with the cycle in which their time ends, and the queues whose
  examination is deferred (R130). -/
  pendingSlot : Tab Nat
  deferred : List Nat
  /-- Partition served last with a spare byte, by die (R355), and by this hub's fabric (R431). -/
  lastShare : Tab Nat
  deriving DecidableEq, Repr

/-- A UALink station (R422, R429, R430). -/
structure Station where
  width : Nat
  retrainEnd : Nat
  deriving DecidableEq, Repr

/-- A per-sibling entry of a ballot record (R482). -/
structure Sib where
  sstate : Nat
  team : Nat
  posted : Bool
  seq : Nat
  slot : Nat
  overpost : Bool
  kvskip : Bool
  cyc : Nat
  tables : List DWord
  /-- The status of its counted post (R485). -/
  st : Word
  /-- Bytes its courier jobs wrote, and its XPOOL operations (R491). -/
  bytes : Nat
  pools : Nat
  deriving DecidableEq, Repr

/-- A slot of a ballot record (R482). -/
structure BallotSlot where
  hash : DWord
  count : Nat
  /-- Ballot sequence number of its earliest post. -/
  first : Nat
  deriving DecidableEq, Repr

/-- A ballot record (R482). -/
structure Ballot where
  launch : Nat
  part : Nat
  n : Nat
  q : Nat
  key : DWord
  st : Nat
  tiebrk : Bool
  keeper : Nat
  posts : Nat
  past : Nat
  slots : List BallotSlot
  sibs : Tab Sib
  deriving DecidableEq, Repr

/-- A pool reduction record (R440). -/
structure Reduction where
  key : DWord
  dst : Nat
  len : Nat
  mask : Nat
  start : Bool
  /-- Contributions by member, and the posts of this package that wait for the closing status. -/
  elems : Tab (List Byte)
  waiters : List Nat
  stamp : Nat
  deriving DecidableEq, Repr

/-- A hart (R122). -/
structure Hart where
  x : Tab DWord
  pc : DWord
  epc : DWord
  cause : DWord
  tval : DWord
  tvec : DWord
  /-- A queue operation of this hart is parked. -/
  parked : Bool
  /-- DATP of the hart's own tables: satp (R157). -/
  satp : DWord
  deriving DecidableEq, Repr

/-- A service pair (R467 to R470). -/
structure Pair where
  inReset : Bool
  fenced : Bool
  lastBeat : DWord
  unchanged : Nat
  deriving DecidableEq, Repr

/-- A die's power control (R522). -/
structure Power where
  /-- Clock in steps of 100 MHz. -/
  clock : Nat
  window : List Nat
  low : Nat
  tripped : Bool
  deriving DecidableEq, Repr

/-- An error-log record (R521). -/
structure ErrRec where
  seq : Nat
  code : Nat
  where_ : Nat
  detail : DWord
  deriving DecidableEq, Repr

/-! ## The package -/

/-- Which agent makes the next step: none (an event comes due), the threads of the issue in cur, or
a hart. -/
inductive Turn where
  | idle | thread | hart (h : Nat)
  deriving DecidableEq, Repr

/-- A registered message sent and not answered: its package, number, contents and resends (R428). -/
structure Unacked where
  pod : Nat
  seq : Word
  msg : RegMsg
  tries : Nat
  deriving DecidableEq, Repr

/-- What leaves the package for the outside, beside the messages of the registered class and the bytes of
window stores: an envelope to a package, the answer to a received envelope, the answer to a peer's
window access with its fault code or 0 (R425, R434), a host's read, and a thermal notice. -/
inductive Out where
  | env (soid : Nat) (e : RemoteEnv)
  | status (soid qnum : Nat) (st : Word)
  | peer (podid cause : Nat) (data : List Byte)
  /-- The bytes of a host's read (R394). -/
  | host (addr : Nat) (data : List Byte)
  /-- A thermal notice of a consumer (R522). -/
  | notice (consumer : Nat)
  deriving DecidableEq, Repr

/-- The whole package. -/
structure State where
  /-- Cycles of the arithmetic clock since the package left reset (R18). The cores, the hubs, the harts and the
  service pairs all run in step on this one count (log 88, DESIGN CHOICE). -/
  now : Nat
  turn : Turn
  cur : Issue
  /-- The event that has come due and is being performed. -/
  event : Event
  /-- Pending events of the part, by the cycle they are due. -/
  agenda : List (Nat × Event)
  /-- MODEL'S OWN: index of the next free value. -/
  freeCount : Nat
  /-- MODEL'S OWN: numbers issues, writes and arrivals in their order. -/
  order : Nat
  mem : Tab Byte
  poison : List Nat
  staged : List Staged
  l2 : Tab (List L2Line)
  /-- Lines whose fill waits for a way of their set (R526). -/
  l2Waits : List L2Line
  conds : List CondWait
  queueWaits : List QueueWait
  tableWaits : List TableWait
  held : List Held
  launches : Tab Launch
  teams : List Team
  saved : List Saved
  peerLeases : List PeerLease
  cores : Tab Core
  parts : Tab Part
  hubs : Tab Hub
  harts : Tab Hart
  places : Tab Place
  /-- Frames of each tier row that are not on the free list (R172). -/
  taken : List Nat
  owners : Tab Nat
  ownerSince : Tab Nat
  handovers : List (Nat × Nat × Nat)
  pinOps : List PinOp
  reductions : List Reduction
  poolOps : List PoolOp
  /-- POOLMEM: MEMBER and PRESENT (R435). -/
  poolMember : BitVec 5
  poolPresent : Word
  ballots : List Ballot
  ballotCalls : List BallotCall
  stations : Tab Station
  ports : Tab Bool
  /-- Registered-class numbers by package: next to send, and the last 4,096 performed (R428). -/
  sendSeq : Tab Word
  recvSeq : Tab (List Nat)
  unacked : List Unacked
  /-- Messages of the fabric sent and not taken over yet by the outside. -/
  outbox : List (Nat × RegMsg)
  sends : List (Nat × List Byte)
  outs : List Out
  /-- Envelopes delivered, by egress queue and target (R434). -/
  delivered : Tab (List (Nat × DWord))
  /-- Envelopes that wait for room: a number, the cycle in which their time ends (R434). -/
  waitroom : List (Nat × Nat × RemoteEnv)
  pkgid : DWord
  leader : DWord
  ready : DWord
  cfgseq : DWord
  mapbase : DWord
  throt : BitVec 12
  devid : BitVec 256
  replace : BitVec 128
  keyrot : Tab DWord
  attreq : Tab DWord
  scrubq : DWord
  errlogBase : DWord
  svcslot : Tab DWord
  svcQuantum : Nat
  svcRemoved : List Nat
  pairs : Tab Pair
  power : Tab Power
  flash : Tab (List Byte)
  fuses : Tab DWord
  /-- SHA-512 digests of the images that bring-up loaded: of the pairs by die, and of Tiroskyo at 12
  (R514). -/
  images : Tab (List Byte)
  errlog : List ErrRec
  /-- The XTS key pairs held by the key slots, 64 bytes each (R20, R180, R516). -/
  keys : Tab (List Byte)
  /-- Key rotations under way: the partition, the spare slot, and the frames still to be rewritten (R516). -/
  rotations : List (Nat × Nat × List Nat)
  deriving DecidableEq, Repr

/-! ## Values at reset -/

def VReg.empty : VReg := ⟨0, true, 0⟩
def CSlot.empty : CSlot := ⟨0, false, 0⟩
def Latch.empty : Latch := ⟨0, false, none⟩
/-- Every C slot and latch invalid. -/
def Level.empty (ctx : Nat) : Level := ⟨ctx, [], Latch.empty, Latch.empty, Latch.empty⟩
def GReg.empty : GReg := ⟨0, 0⟩
def Age.zero : Age := ⟨0, 0⟩

/-- A thread as it starts (R136), before its index, PC and seed are set. -/
def Thread.fresh : Thread :=
  { index := 0, spawned := false, pc := 0, v := [], lv := Level.empty 0, p := 0, ptags := [], seed := 0,
    trapcause := 0, trapaddr := 0, trappc := 0, handler := false, shadow := Level.empty 0,
    next := 0, lastSolo := 0, wait := .none, await := none, sig := none, plive := BitVec.allOnes 7, exited := false, stopped := false, l1since := 0, acqNext := none,
    loadsDone := 0, storesDone := 0, pubDone := 0, pubs := [], workDone := 0, pendv := [], acqs := [] }

/-- A group without threads. -/
def Group.fresh : Group :=
  { width := 16, threads := [], g := [], st := .ready, since := 0, entered := 0, earliest := 0, age := Age.zero,
    paths := [], born := 0, glive := 0 }

/-- A core after reset: no team, no partition word, nothing held (R139). -/
def Core.reset : Core :=
  { side := none, pword := none, dividing := 0, owner := none, fenced := false, clk0 := 0,
    sram := [], tags := [], sramPoison := [], lastLaunch := none, groups := [], reading := [], fetching := [], landings := [], vres := [], fills := [],
    ports := [], gport := [], sport := [], l1 := [], icache := [], loops := [], loopReq := [],
    loopLast := 63, loopServed := 0, lastPage := [], wc := [], jobs := [], btcache := [], engine := [],
    engineFree := 0, tracker := [], errors := 0 }

def Quota.zero : Quota := ⟨0, 0⟩
def Bucket.zero : Bucket := ⟨0, 0, 0, 0⟩
def Ring.zero : Ring := ⟨0, 0, 0, 0, 0⟩

/-- A partition's registers after reset: PPOL.CEIL is 4 (R369), RPWGT is 1 (log 4), the rest 0. -/
def Part.reset : Part :=
  { datp := 0, groot := 0, ivasid := 0, ivIssued := 0, ivDone := 0, ivq := [], napots := [], psceil := 0,
    ceil := 4, demoted := 0, earlypub := 0, qhbm := Quota.zero, qlp := Quota.zero,
    qpool := Quota.zero, qpin := Quota.zero, bquota := Quota.zero, cbkt := [], fbkt := [],
    poolBase := 0, poolLimit := 0, poolValid := false, xoq := 0,
    xotag := 0, svcq := 0, ring0 := Ring.zero, ring1 := Ring.zero, rpwgt := 1, peertab := [],
    hintdrop := 0, xdrop := 0, fabshort := 0, errcnt := 0, throtcyc := 0, cxcyc := 0, cxbytes := 0,
    cxpool := 0, cxteams := 0, clmask := 0, pcstat := 0, ctxbase := 0, ctxn := 0, queues := [], guarded := [],
    reserved := [], heads := [], lastQueue := [], ended := [], grants := [], calls := [],
    nextCall := 0, scaleBusy := none, deferred := [] }

/-- A placement entry after reset (R169). -/
def Place.zero : Place :=
  ⟨0, 0, 0, 0, 0, false, false, false, false, false, false, false⟩

/-- A hub after reset: MIGPOL reads 0xFFFF_FFFF (R172). -/
def Hub.reset : Hub :=
  { migpol := 0xFFFFFFFF, misses := 0, sampled := 0, halving := false, late := [], forwards := [], moves := [],
    leasesUsed := [], hbeat := 0, records := [], portPart := 0, portCount := 0, hostq := [],
    pendingSlot := [], deferred := [], lastShare := [] }

/-- A station carries 4 lanes (R422). -/
def Station.reset : Station := ⟨4, 0⟩

def Hart.reset : Hart := ⟨[], 0, 0, 0, 0, 0, false, 0⟩

/-- Every service pair is held in reset until its image has verified (R511). -/
def Pair.reset : Pair := ⟨true, false, 0, 0⟩

/-- The arithmetic clock of 2.1 GHz is 21 steps of 100 MHz (R16, R522). -/
def Power.reset : Power := ⟨21, [], 0, false⟩

/-- An envelope of zeros. -/
def Envelope.zero : Envelope :=
  { flags := 0, prio := 0, log2w := 4, pword := 0, entry := 0, args := 0, argSize := 0, regs := 8,
    leaseCount := 0, tx := 1, ty := 1, tz := 1, timer := 64, gx := 1, gy := 1, gz := 1, spaddr := 0,
    spcount := 0, sibN := 0, sibQ := 0, exitScope := 0, sibKey := 0, dep0 := 0, dep1 := 0,
    leaseList := 0, ctag := 0, text := 0 }

/-- A launch record before its fields are set. -/
def Launch.zero : Launch :=
  { part := 0, env := Envelope.zero, queue := 0, seq := 0, datp := 0, leases := [], frames := [],
    safepoints := [], handler := none, ceil := 4, admitted := 0, starve := 0, preempting := false, ranges := [],
    completed := 0, cancelled := 0, cycles := 0, fault := none }

def Barrier.zero : Barrier := ⟨0, 0, 0, []⟩
def Conv.zero : Conv := ⟨.none, [], .none, [], 0, []⟩

/-- No issue. -/
def Issue.none : Issue := ⟨0, 0, [], 0, false, 0, [], 0, 0, Option.none, [], []⟩
/-- An issue that is to be fetched. -/
def Issue.of (core slot : Nat) (lanes : List Nat) (pc : DWord) (solo : Bool) : Issue :=
  { Issue.none with core := core, slot := slot, lanes := lanes, pc := pc, solo := solo }

/-- The package right after reset: nothing runs, memory lists nothing, and the bring-up of R511 is
the one pending event. (Log 4, DESIGN CHOICE.) -/
def State.reset : State :=
  { now := 0, turn := .idle, cur := Issue.none, event := .none, agenda := [(0, .packageReset)], freeCount := 0,
    order := 0, mem := [], poison := [], staged := [], l2 := [], l2Waits := [], conds := [], queueWaits := [], tableWaits := [], held := [],
    launches := [], teams := [], saved := [], peerLeases := [], cores := [], parts := [], hubs := [], harts := [],
    places := [], taken := [], owners := [], ownerSince := [], handovers := [], pinOps := [], reductions := [],
    poolOps := [], poolMember := 0, poolPresent := 0, ballots := [], ballotCalls := [], stations := [], ports := [], sendSeq := [],
    recvSeq := [], unacked := [], outbox := [], sends := [], outs := [], delivered := [], waitroom := [],
    pkgid := 0, leader := 0, ready := 0, cfgseq := 0, mapbase := 0, throt := 0, devid := 0,
    replace := 0, keyrot := [], attreq := [], scrubq := 0, errlogBase := 0, svcslot := [],
    svcQuantum := 0, svcRemoved := [], pairs := [], power := [], flash := [], fuses := [], images := [],
    errlog := [], keys := [], rotations := [] }

end Sys2Proof.Machine
end

