-- ==== Sys2Proof/Machine/Num.lean ====
section
/-! DEFINITION. Number formats and exact arithmetic (R86 to R103): values as signed fractions, the one
narrowing Round, the stochastic generator, and the exact operations the float instructions round. -/

namespace Sys2Proof.Machine

/-- A value: NaN, an infinity, or the fraction num / den with a sign (num = 0 is a signed zero). -/
inductive Value where
  | nan
  | inf (neg : Bool)
  | fin (neg : Bool) (num den : Nat)
  deriving DecidableEq, Repr

/-- A float format (R86): exponent and fraction widths, bias, the largest finite code without its
sign, and which special codes it has. -/
structure FloatFmt where
  ebits : Nat
  mbits : Nat
  bias : Nat
  maxCode : Nat
  hasInf : Bool
  hasNan : Bool
  /-- NaN result (R98). -/
  nanCode : Nat
  deriving DecidableEq, Repr

/-- The float formats, codes 0 to 10 (R86). F19 is described without its 13 low bits. -/
def fltOf : EFmt → Option FloatFmt
  | .f64 => some ⟨11, 52, 1023, 0x7FEFFFFFFFFFFFFF, true, true, 0x7FF8000000000000⟩
  | .f32 => some ⟨8, 23, 127, 0x7F7FFFFF, true, true, 0x7FC00000⟩
  | .f19 => some ⟨8, 10, 127, 0x3FBFF, true, true, 0x3FE00⟩
  | .bf16 => some ⟨8, 7, 127, 0x7F7F, true, true, 0x7FC0⟩
  | .f16 => some ⟨5, 10, 15, 0x7BFF, true, true, 0x7E00⟩
  | .e4m3 => some ⟨4, 3, 7, 0x7E, false, true, 0x7F⟩
  | .e5m2 => some ⟨5, 2, 15, 0x7B, true, true, 0x7E⟩
  | .e3m4 => some ⟨3, 4, 3, 0x7E, false, true, 0x7F⟩
  | .e3m2 => some ⟨3, 2, 3, 0x1F, false, false, 0⟩
  | .e2m3 => some ⟨2, 3, 1, 0x1F, false, false, 0⟩
  | .e2m1 => some ⟨2, 1, 1, 0x7, false, false, 0⟩
  | _ => none

/-- Bits of an element (R86). -/
def elemWidth : EFmt → Nat
  | .f64 => 64
  | .f32 | .f19 => 32
  | .bf16 | .f16 | .i16 => 16
  | .e4m3 | .e5m2 | .e3m4 | .i8 | .n8 => 8
  | .e3m2 | .e2m3 => 6
  | .e2m1 | .i4 | .n4 => 4
  | .i2 | .t2 => 2
  | .b1 => 1

/-- 2^k × n / d as a fraction, for an integer k. -/
def scaleFrac (neg : Bool) (n d : Nat) (k : Int) : Value :=
  if 0 ≤ k then .fin neg (n * 2 ^ k.toNat) d else .fin neg n (d * 2 ^ (-k).toNat)

/-- The value of a code (R87); special codes as R86 lists them. -/
def FloatFmt.value (f : FloatFmt) (code : Nat) : Value :=
  let m := code % 2 ^ f.mbits
  let e := code / 2 ^ f.mbits % 2 ^ f.ebits
  let neg := code / 2 ^ (f.mbits + f.ebits) % 2 = 1
  let mag := code % 2 ^ (f.mbits + f.ebits)
  if f.maxCode < mag then
    if f.hasInf && m == 0 then .inf neg else .nan
  else if e = 0 then scaleFrac neg m 1 (1 - (f.bias : Int) - f.mbits)
  else scaleFrac neg (2 ^ f.mbits + m) 1 ((e : Int) - f.bias - f.mbits)

/-- A w-bit pattern as a signed integer. -/
def toInt (w n : Nat) : Int := if n % 2 ^ w < 2 ^ (w - 1) then n % 2 ^ w else (n % 2 ^ w : Nat) - 2 ^ w

/-- An integer as a value. -/
def Value.ofInt (z : Int) : Value := .fin (z < 0) z.natAbs 1

/-- The value of an element code (R86, R89). -/
def elemValue (t : EFmt) (code : Nat) : Value :=
  match fltOf t with
  | some f => f.value (if t = .f19 then code / 2 ^ 13 else code)
  | none =>
    match t with
    | .n8 => .ofInt (code % 256 : Nat)
    | .n4 => .ofInt (code % 16 : Nat)
    | .t2 => .ofInt (if code % 4 = 1 then 1 else if code % 4 = 3 then -1 else 0)
    | .b1 => .ofInt (if code % 2 = 0 then 1 else -1)
    | _ => .ofInt (toInt (elemWidth t) code)

/-! ## Round (R96 to R102) -/

/-- Rounding modes; SR carries the state it has just advanced to (R100). -/
inductive Rm where
  | rne | rz | ru | rd
  | sr (seed : Word)
  deriving DecidableEq, Repr

/-- Modes of the rounding field (R69). -/
def rmOf (m : BitVec 5) : Rm :=
  match m.toNat % 4 with
  | 0 => .rne | 1 => .rz | 2 => .ru | _ => .rd

/-- Whether Pick takes the neighbour of larger magnitude: q is the smaller one's significand and r / d
the fraction passed over (R96, R100). -/
def roundUp (rm : Rm) (neg : Bool) (q r d : Nat) : Bool :=
  match rm with
  | .rne => d < 2 * r || (d == 2 * r && q % 2 == 1)
  | .rz => false
  | .ru => !neg && r != 0
  | .rd => neg && r != 0
  | .sr seed => r != 0 && seed.toNat < r * 2 ^ 32 / d

/-- The exponent n with 2^n ≤ num / den < 2^(n+1), for num, den > 0. -/
def exponent (num den : Nat) : Int :=
  let k : Int := (num.log2 : Int) - den.log2
  let below := if 0 ≤ k then num < den * 2 ^ k.toNat else num * 2 ^ (-k).toNat < den
  if below then k - 1 else k

/-- Overflow (R97): whether the result is the largest finite value and not the special code. -/
def overflowMax (rm : Rm) (neg : Bool) : Bool :=
  match rm with
  | .rne => false
  | .sr _ => false
  | .rz => true
  | .ru => neg
  | .rd => !neg

/-- Round a nonzero fraction to a float format, sign apart: the code without its sign, or none on
overflow. -/
def FloatFmt.roundMag (f : FloatFmt) (rm : Rm) (neg : Bool) (num den : Nat) : Option Nat :=
  let emin : Int := 1 - (f.bias : Int)
  let n := max (exponent num den) emin
  let q0 : Int := n - f.mbits
  let (a, b) := if 0 ≤ q0 then (num, den * 2 ^ q0.toNat) else (num * 2 ^ (-q0).toNat, den)
  let q := a / b
  let q := if roundUp rm neg q (a % b) b then q + 1 else q
  let e := (n + f.bias).toNat
  let code := if q < 2 ^ f.mbits then q else (e - 1) * 2 ^ f.mbits + q
  if f.maxCode < code then none else some code

/-- Round to a float format (R96). satf is fmt.S. -/
def FloatFmt.round (f : FloatFmt) (satf : Bool) (rm : Rm) (x : Value) : Nat :=
  let sgn := fun (neg : Bool) => if neg then 2 ^ (f.ebits + f.mbits) else 0
  let inf := f.maxCode + 1
  match x with
  | .nan => f.nanCode
  | .inf neg =>
    if f.hasInf && !satf then sgn neg + inf
    else if f.hasNan && !satf then f.nanCode
    else sgn neg + f.maxCode
  | .fin neg num den =>
    if num = 0 then sgn neg
    else
      match f.roundMag rm neg num den with
      | some c => sgn neg + c
      | none =>
        if satf || !f.hasNan || overflowMax rm neg then sgn neg + f.maxCode
        else if f.hasInf then sgn neg + inf
        else f.nanCode

/-- A fraction rounded to an integer under a mode. -/
def roundInt (rm : Rm) (neg : Bool) (num den : Nat) : Int :=
  let q := num / den
  let q := if roundUp rm neg q (num % den) den then q + 1 else q
  if neg then -(q : Int) else q

/-- Clamp to a range. -/
def clampInt (lo hi z : Int) : Int := if z < lo then lo else if hi < z then hi else z

/-- Range of an integer element format (R86). -/
def intRange : EFmt → Int × Int
  | .i16 => (-32768, 32767)
  | .i8 => (-128, 127)
  | .n8 => (0, 255)
  | .i4 => (-8, 7)
  | .n4 => (0, 15)
  | .i2 => (-2, 1)
  | .t2 => (-1, 1)
  | _ => (0, 0)

/-- A value to an integer of a range under a mode (R103): NaN gives 0, infinities the ends. -/
def Value.toRange (x : Value) (rm : Rm) (lo hi : Int) : Int :=
  match x with
  | .nan => 0
  | .inf neg => if neg then lo else hi
  | .fin neg num den => clampInt lo hi (roundInt rm neg num den)

/-- The low w bits of an integer. -/
def intBits (w : Nat) (z : Int) : Nat := (z % 2 ^ w).toNat

/-! ## Elements (R234) -/

/-- A w-bit element as a value of the type: unsigned or two's complement. -/
def elemInt (uns : Bool) (w x : Nat) : Int := if uns then (x % 2 ^ w : Nat) else toInt w x

/-- Range of a w-bit element. -/
def typeLo (uns : Bool) (w : Nat) : Int := if uns then 0 else -2 ^ (w - 1)
def typeHi (uns : Bool) (w : Nat) : Int := if uns then 2 ^ w - 1 else 2 ^ (w - 1) - 1

/-- Narrow (R234). -/
def narrow (uns sat : Bool) (w : Nat) (y : Int) : Nat :=
  intBits w (if sat then clampInt (typeLo uns w) (typeHi uns w) y else y)

/-- Width in bits of an integer format (R250). -/
def fmtBits : IFmt → Nat
  | .i32 | .n32 => 32
  | .i64 | .n64 => 64
  | .i16 | .n16 => 16
  | .i8 | .n8 => 8

def fmtUns : IFmt → Bool
  | .n32 | .n64 | .n16 | .n8 => true
  | _ => false

/-- An integer as it is written in a format (R250): the short formats extended to 32 bits. -/
def fmtWrite (t : IFmt) (y : Int) : Nat :=
  intBits (32 * t.regs) (elemInt (fmtUns t) (fmtBits t) (intBits (fmtBits t) y))

/-- Clamp to a format's range (R103). -/
def fmtClamp (t : IFmt) (y : Int) : Int :=
  clampInt (typeLo (fmtUns t) (fmtBits t)) (typeHi (fmtUns t) (fmtBits t)) y

/-- Round to any scalar element format (R96). -/
def roundTo (t : EFmt) (satf : Bool) (rm : Rm) (x : Value) : Nat :=
  match fltOf t with
  | some f => f.round satf rm x * (if t = .f19 then 2 ^ 13 else 1)
  | none =>
    if t = .b1 then
      match x with
      | .nan => 0
      | .inf neg => if neg then 1 else 0
      | .fin neg num _ => if neg && num != 0 then 1 else 0
    else intBits (elemWidth t) (x.toRange rm (intRange t).1 (intRange t).2)

/-- XorStep (R100). -/
def xorStep (v : Word) : Word :=
  let v := v ^^^ (v <<< 13)
  let v := v ^^^ (v >>> 17)
  v ^^^ (v <<< 5)

/-- What SEED stores of a written value: never 0 (R100). -/
def seedOf (v : Word) : Word := if v = 0 then 0x5EED0001 else v

/-! ## Exact operations (R264) -/

def Value.neg : Value → Value
  | .nan => .nan
  | .inf n => .inf !n
  | .fin n a b => .fin (!n) a b

def Value.abs : Value → Value
  | .nan => .nan
  | .inf _ => .inf false
  | .fin _ a b => .fin false a b

def Value.isNeg : Value → Bool
  | .nan => false
  | .inf n => n
  | .fin n _ _ => n

def Value.isZero : Value → Bool
  | .fin _ a _ => a == 0
  | _ => false

/-- A signed fraction from an integer numerator; zero takes the given sign. -/
def Value.ofFrac (z : Int) (den : Nat) (zeroNeg : Bool) : Value :=
  if z = 0 then .fin zeroNeg 0 1 else .fin (z < 0) z.natAbs den

def signed (neg : Bool) (n : Nat) : Int := if neg then -(n : Int) else n

/-- The exact sum of two values. The sign of an exact zero is the addends' where they agree, else
minus under rd (R264). -/
def Value.add (rd : Bool) : Value → Value → Value
  | .nan, _ => .nan
  | _, .nan => .nan
  | .inf a, .inf b => if a = b then .inf a else .nan
  | .inf a, _ => .inf a
  | _, .inf b => .inf b
  | .fin na a b, .fin nc c d =>
    let z := signed na a * d + signed nc c * b
    Value.ofFrac z (b * d) (if a = 0 ∧ c = 0 ∧ na = nc then na else rd)

/-- The exact product (R264). -/
def Value.mul : Value → Value → Value
  | .nan, _ => .nan
  | _, .nan => .nan
  | .inf a, .inf b => .inf (a != b)
  | .inf a, .fin n c _ => if c = 0 then .nan else .inf (a != n)
  | .fin n c _, .inf a => if c = 0 then .nan else .inf (a != n)
  | .fin a n d, .fin b m e => .fin (a != b) (n * m) (d * e)

/-- The exact quotient (R270). -/
def Value.div : Value → Value → Value
  | .nan, _ => .nan
  | _, .nan => .nan
  | .inf _, .inf _ => .nan
  | .inf a, .fin b _ _ => .inf (a != b)
  | .fin a _ _, .inf b => .fin (a != b) 0 1
  | .fin a n d, .fin b m e =>
    if m = 0 then (if n = 0 then .nan else .inf (a != b))
    else .fin (a != b) (n * e) (d * m)

/-- floor of the square root of n, from bit k down. -/
def isqrtGo : Nat → Nat → Nat → Nat
  | 0, _, r => r
  | k + 1, n, r =>
    let t := r + 2 ^ k
    if t * t ≤ n then isqrtGo k n t else isqrtGo k n r

def isqrt (n : Nat) : Nat := isqrtGo (n.log2 / 2 + 1) n 0

/-- A fraction that rounds as the square root of num / den does: the root itself where it is exact
at k fraction bits, else a point between the two neighbouring multiples of 2^−k. -/
def sqrtFrac (num den : Nat) : Value :=
  let k := 80 + num.log2 + den.log2
  let n := num * 2 ^ (2 * k)
  let r := isqrt (n / den)
  if r * r * den = n then .fin false r (2 ^ k) else .fin false (2 * r + 1) (2 ^ (k + 1))

/-- √x (R270). -/
def Value.sqrt : Value → Value
  | .nan => .nan
  | .inf neg => if neg then .nan else .inf false
  | .fin neg num den =>
    if num = 0 then .fin neg 0 1 else if neg then .nan else sqrtFrac num den

/-- 1 / √x (R270). -/
def Value.rsqrt : Value → Value
  | .nan => .nan
  | .inf neg => if neg then .nan else .fin false 0 1
  | .fin neg num den =>
    if num = 0 then .inf neg else if neg then .nan else sqrtFrac den num

/-- x × 2^n (R273). -/
def Value.scale (x : Value) (n : Int) : Value :=
  match x with
  | .fin neg num den => if num = 0 then x else scaleFrac neg num den n
  | _ => x

/-- Compare two values that are not NaN. -/
def Value.cmp : Value → Value → Ordering
  | .inf a, .inf b => if a = b then .eq else if a then .lt else .gt
  | .inf a, _ => if a then .lt else .gt
  | _, .inf b => if b then .gt else .lt
  | .fin a n d, .fin b m e => compare (signed a n * e) (signed b m * d)
  | _, _ => .eq

/-! ## The bounded functions (R271) -/

/-- Fixed point: fractions of 2^P. -/
def fixP : Nat := 256
def fixOne : Int := 2 ^ fixP

/-- Σ over k of the series term, t(k+1) given from t(k): a Taylor sum in fixed point. -/
def fixSeries (next : Nat → Int → Int) : Nat → Nat → Int → Int → Int
  | 0, _, _, acc => acc
  | fuel + 1, k, t, acc => fixSeries next fuel (k + 1) (next k t) (acc + t)

/-- atanh z for |z| ≤ 1/3, from powers of z. -/
def fixAtanh (z : Int) : Int :=
  let z2 := z * z / fixOne
  let rec go : Nat → Nat → Int → Int → Int
    | 0, _, _, acc => acc
    | fuel + 1, k, p, acc => go fuel (k + 1) (p * z2 / fixOne) (acc + p / (2 * k + 1))
  go 100 0 z 0

/-- atan of 1/n. -/
def fixAtanInv (n : Int) : Int :=
  let rec go : Nat → Nat → Int → Int → Int
    | 0, _, _, acc => acc
    | fuel + 1, k, p, acc =>
      go fuel (k + 1) (p / (n * n)) (if k % 2 = 0 then acc + p / (2 * k + 1) else acc - p / (2 * k + 1))
  go 120 0 (fixOne / n) 0

def fixLn2 : Int := 2 * fixAtanh (fixOne / 3)
def fixPi : Int := 16 * fixAtanInv 5 - 4 * fixAtanInv 239

/-- exp x for 0 ≤ x < 1. -/
def fixExp (x : Int) : Int :=
  fixSeries (fun k t => t * x / fixOne / ((k : Int) + 1)) 70 0 fixOne 0

/-- sin x for |x| ≤ 2. -/
def fixSin (x : Int) : Int :=
  fixSeries (fun k t => -(t * x / fixOne * x / fixOne) / ((2 * k + 2) * (2 * k + 3) : Int)) 50 0 x 0

/-- cos x for |x| ≤ 2. -/
def fixCos (x : Int) : Int :=
  fixSeries (fun k t => -(t * x / fixOne * x / fixOne) / ((2 * k + 1) * (2 * k + 2) : Int)) 50 0
    fixOne 0

/-- A fixed-point value times 2^k as a Num. -/
def fixNum (z : Int) (k : Int) : Value := scaleFrac (z < 0) z.natAbs (2 ^ fixP) k

/-- 2^(n / d), near the exact value. -/
def approxExp2 (z : Int) (d : Nat) : Value :=
  let k := z / (d : Int)
  let f := (z - k * d) * fixOne / d
  fixNum (fixExp (f * fixLn2 / fixOne)) k

/-- log2 (num / den). -/
def approxLog2 (num den : Nat) : Value :=
  let n := exponent num den
  let m := scaleFrac false num den (-n)
  match m with
  | .fin _ a b =>
    let z := ((a : Int) - b) * fixOne / ((a : Int) + b)
    fixNum (n * fixOne + 2 * fixAtanh z * fixOne / fixLn2) 0
  | _ => .nan

/-- sin (π × z / d) and cos (π × z / d). -/
def approxTrig (cos : Bool) (z : Int) (d : Nat) : Value :=
  -- reduce to a in [0, 2), then to x in [0, 1/2] half-turns
  let a := z % (2 * (d : Int))
  let (s1, a) := if (d : Int) ≤ a then (true, a - d) else (false, a)
  let (s2, a) := if (d : Int) < 2 * a then (true, (d : Int) - a) else (false, a)
  let x := a * fixPi / d
  let v := if cos then fixCos x else fixSin x
  fixNum (if s1 != (cos && s2) then -v else v) 0

/-- tanh (num / den) for num / den below 9. -/
def approxTanh (num den : Nat) : Value :=
  let x := 2 * (num : Int) * fixOne / den
  let k := x / fixLn2
  let r := x - k * fixLn2
  let e := fixExp r * 2 ^ k.toNat
  fixNum ((e - fixOne) * fixOne / (e + fixOne)) 0

/-- ulp(y) of R271 for a nonzero fraction, as an exponent of 2. -/
def ulpExp (num den : Nat) : Int := max (exponent num den) (-126) - 23

/-- Whether an F32 code is a finite value within 2 ulp of y (R271). -/
def within2ulp (code : Nat) (y : Value) : Bool :=
  match elemValue .f32 code, y with
  | .fin n a b, .fin m c d =>
    let ulp := scaleFrac false 1 1 (ulpExp c d)
    match ulp with
    | .fin _ u v => decide ((signed n a * d - signed m c * b).natAbs * v ≤ 2 * u * (b * d))
    | _ => false
  | _, _ => false

/-- The result of a bounded function away from its exact points: the part's own fixed function
(R272) where it keeps the bound, which every L9 does. -/
def bounded (kind : Nat) (op : Word) (y : Value) : Nat :=
  let t := (Config.transcendental kind op).toNat
  if within2ulp t y then t else roundTo .f32 false .rne y

def f32Nan : Nat := 0x7FC00000
def f32Inf (neg : Bool) : Nat := if neg then 0xFF800000 else 0x7F800000

/-- FEXP2 (R271). -/
def fexp2 (x : Value) (op : Word) : Nat :=
  match x with
  | .nan => f32Nan
  | .inf neg => if neg then 0 else f32Inf false
  | .fin neg num den =>
    let z := signed neg num
    if 128 * (den : Int) ≤ z then f32Inf false
    else if z < -150 * (den : Int) then 0
    else if z % (den : Int) = 0 ∧ -149 * (den : Int) ≤ z then
      roundTo .f32 false .rne (scaleFrac false 1 1 (z / den))
    else bounded 0 op (approxExp2 z den)

/-- FLOG2 (R271). -/
def flog2 (x : Value) (op : Word) : Nat :=
  match x with
  | .nan => f32Nan
  | .inf neg => if neg then f32Nan else f32Inf false
  | .fin neg num den =>
    if num = 0 then f32Inf true
    else if neg then f32Nan
    else
      let n := exponent num den
      if scaleFrac false 1 1 n |>.cmp (.fin false num den) |>.isEq then
        roundTo .f32 false .rne (.ofInt n)
      else bounded 1 op (approxLog2 num den)

/-- (−1)^n as an F32 code. -/
def signOne (n : Int) : Nat := if n % 2 = 0 then 0x3F800000 else 0xBF800000

/-- FSIN (R271): the argument in half-turns. -/
def fsin (x : Value) (op : Word) : Nat :=
  match x with
  | .nan => f32Nan
  | .inf _ => f32Nan
  | .fin neg num den =>
    let z := signed neg num
    if num % den = 0 then (if neg then 0x80000000 else 0)
    else if 2 * num % den = 0 then signOne ((2 * z - den) / (2 * den))
    else bounded 2 op (approxTrig false z den)

/-- FCOS (R271). -/
def fcos (x : Value) (op : Word) : Nat :=
  match x with
  | .nan => f32Nan
  | .inf _ => f32Nan
  | .fin neg num den =>
    let z := signed neg num
    if num % den = 0 then signOne (z / den)
    else if 2 * num % den = 0 then 0
    else bounded 3 op (approxTrig true z den)

/-- FTANH (R271). -/
def ftanh (x : Value) (op : Word) : Nat :=
  match x with
  | .nan => f32Nan
  | .inf neg => if neg then 0xBF800000 else 0x3F800000
  | .fin neg num den =>
    if num = 0 then (if neg then 0x80000000 else 0)
    else if 9 * den ≤ num then (if neg then 0xBF800000 else 0x3F800000)
    else bounded 4 op ((approxTanh num den) |> fun y => if neg then y.neg else y)

end Sys2Proof.Machine
end

