-- ==== Sys2Proof/Machine/Ops.lean ====
section
/-! DEFINITION. The named operations over the state: lookup and update of cores, groups and threads; the
agenda; landings (R217, R219, R220); taking an exception and returning from one (R443 to R448); and
raising a terminal fault (R449). -/

namespace Sys2Proof.Machine

/-- The outcome of a meaning. -/
abbrev Res := Host.Outcome State Fault Refusal

/-! ## Lookup and update -/

def State.core (s : State) (c : Nat) : Core := s.cores.get Core.reset c
def State.setCore (s : State) (c : Nat) (x : Core) : State := { s with cores := s.cores.put c x }
def State.modCore (s : State) (c : Nat) (f : Core → Core) : State := s.setCore c (f (s.core c))

def Core.group (c : Core) (slot : Nat) : Group := c.groups.get Group.fresh slot
def Core.setGroup (c : Core) (slot : Nat) (g : Group) : Core :=
  { c with groups := c.groups.put slot g }
/-- A slot without a group stays empty. -/
def Core.modGroup (c : Core) (slot : Nat) (f : Group → Group) : Core :=
  match c.groups.find slot with
  | some g => c.setGroup slot (f g)
  | none => c

def Group.thread (g : Group) (lane : Nat) : Thread := g.threads.get Thread.fresh lane
def Group.setThread (g : Group) (lane : Nat) (t : Thread) : Group :=
  { g with threads := g.threads.put lane t }
/-- A lane without a thread stays empty. -/
def Group.modThread (g : Group) (lane : Nat) (f : Thread → Thread) : Group :=
  match g.threads.find lane with
  | some t => g.setThread lane (f t)
  | none => g
def Group.modAll (g : Group) (f : Thread → Thread) : Group :=
  { g with threads := g.threads.map fun (l, t) => (l, f t) }

def Core.thread (c : Core) (slot lane : Nat) : Thread := (c.group slot).thread lane
def Core.modThread (c : Core) (slot lane : Nat) (f : Thread → Thread) : Core :=
  c.modGroup slot fun g => g.modThread lane f

def State.thread (s : State) (core slot lane : Nat) : Thread := (s.core core).thread slot lane
def State.modThread (s : State) (core slot lane : Nat) (f : Thread → Thread) : State :=
  s.modCore core fun c => c.modThread slot lane f
def State.modGroup (s : State) (core slot : Nat) (f : Group → Group) : State :=
  s.modCore core fun c => c.modGroup slot f

def State.part (s : State) (p : Nat) : Part := s.parts.get Part.reset p
def State.modPart (s : State) (p : Nat) (f : Part → Part) : State :=
  { s with parts := s.parts.put p (f (s.part p)) }
def State.hub (s : State) (h : Nat) : Hub := s.hubs.get Hub.reset h
def State.modHub (s : State) (h : Nat) (f : Hub → Hub) : State :=
  { s with hubs := s.hubs.put h (f (s.hub h)) }
def State.hart (s : State) (h : Nat) : Hart := s.harts.get Hart.reset h
def State.modHart (s : State) (h : Nat) (f : Hart → Hart) : State :=
  { s with harts := s.harts.put h (f (s.hart h)) }
def State.launch (s : State) (l : Nat) : Launch := s.launches.get Launch.zero l
def State.modLaunch (s : State) (l : Nat) (f : Launch → Launch) : State :=
  { s with launches := s.launches.put l (f (s.launch l)) }

/-- The team side a core holds, with defaults where it holds none. -/
def Core.sideD (c : Core) : Side :=
  c.side.getD { launch := 0, team := 0, side := 0, placed := 0, consumed := 0, started := false,
                returning := false, holes := [], pressed := [], stopAt := none }
def State.coreLaunch (s : State) (c : Nat) : Launch := s.launch (s.core c).sideD.launch
/-- The partition whose team a core holds. -/
def State.corePart (s : State) (c : Nat) : Nat := (s.coreLaunch c).part

def State.findTeam (s : State) (launch team : Nat) : Option Team :=
  s.teams.find? fun t => t.launch == launch && t.index == team
def State.modTeam (s : State) (launch team : Nat) (f : Team → Team) : State :=
  { s with teams := s.teams.map fun t => if t.launch = launch ∧ t.index = team then f t else t }
/-- The team whose side the core holds. -/
def State.coreTeam (s : State) (c : Nat) : Option Team :=
  s.findTeam (s.core c).sideD.launch (s.core c).sideD.team

/-- The numbers of a core (R14, R15). -/
def dieOf (core : Nat) : Nat := core / 64
def clusterOf (core : Nat) : Nat := core % 64 / 8
def hubOfDie (die : Nat) : Nat :=
  if die < 6 then die / 2 else if die < 9 then die - 6 else die - 9
def hubOfCore (core : Nat) : Nat := hubOfDie (dieOf core)
/-- Package-wide number of a core's cluster: 8 × die + cluster. -/
def pkgCluster (core : Nat) : Nat := core / 8
/-- The other core of the pair (R15). -/
def pairOf (core : Nat) : Nat := if core % 2 = 0 then core + 1 else core - 1
/-- Mesh crossing between two hubs (R22). -/
def crossing (h1 h2 : Nat) : Nat := if h1 = h2 then 0 else Config.meshCrossing

/-! ## The agenda -/

/-- The order of the events of one cycle: faults that reach the sorting office come in ascending core
(R449), arrivals at a side 0 core come side 0 first (R527); then the issues whose read phase goes on (R215),
the broadcast issues of the cycle by domain and the solo issues in ascending lane (R219), a refill of a loop
buffer (R197), and the tracker entries that free (R478). (Log 39, DEDUCED.) -/
def eventRank : Event → Nat
  -- cores by their index, then engines, hubs and modules (R449)
  | .terminalFaultArrival _ r => 1 + min r.core.toNat 999 + if r.slot = 0xFF then 1000 else 0
  | .barrierArrival core _ _ _ _ _ => 70001 + core % 2
  | .cdeclEffect core _ _ _ _ => 70001 + core % 2
  | .signatureArrival core _ _ _ _ => 70001 + core % 2
  | .readPhase _ _ => 70003
  | .issueSelection _ dom => 70004 + dom
  | .soloIssue _ lane => 70008 + lane
  | .loopBufferServe _ => 70073
  | .trackerEntryDrain _ _ => 70074
  | _ => 0

/-- Insert an event after every event that is due no later. (Log 3, DESIGN CHOICE.) -/
def insertEvent (due : Nat) (i : Event) : List (Nat × Event) → List (Nat × Event)
  | [] => [(due, i)]
  | (d, j) :: t =>
    if d < due ∨ (d = due ∧ eventRank j ≤ eventRank i) then (d, j) :: insertEvent due i t
    else (due, i) :: (d, j) :: t

/-- Schedule an event of the part for the cycle due, not before the present one. -/
def State.schedule (s : State) (due : Nat) (i : Event) : State :=
  { s with agenda := insertEvent (max due s.now) i s.agenda }

/-- Schedule an event that may be pending at most once for a cycle. -/
def State.scheduleOnce (s : State) (due : Nat) (i : Event) : State :=
  if (max due s.now, i) ∈ s.agenda then s else s.schedule due i

/-- Drop pending events. -/
def State.unschedule (s : State) (p : Event → Bool) : State :=
  { s with agenda := s.agenda.filter fun e => !p e.2 }

/-- The next number of the package's one order of issues, writes and arrivals. -/
def State.tick (s : State) : State := { s with order := s.order + 1 }

/-- Take a free value's index. (Log 2, DESIGN CHOICE.) -/
def State.free (s : State) : Nat × State := (s.freeCount, { s with freeCount := s.freeCount + 1 })

/-! ## Landings (R217 to R222) -/

/-- A V register as it reads: 0 while vacated (R228). -/
def Thread.vread (t : Thread) (n : Nat) : Word :=
  let r := t.v.get VReg.empty n
  if r.vac then 0 else r.val

def Level.slot (l : Level) (n : Nat) : CSlot := l.c.get CSlot.empty n
def Level.latch (l : Level) (n : Nat) : Latch := if n = 0 then l.l0 else if n = 1 then l.l1 else l.l2

/-- Replace the bits of mask. -/
def mergeMask (old mask val : BitVec w) : BitVec w := (old &&& ~~~mask) ||| (val &&& mask)

/-- An accepted or dropped write of a V register (R219, R228): bits outside mask of a vacated
register read 0. -/
def Thread.landV (t : Thread) (tag n : Nat) (mask val : Word) : Thread :=
  if (t.v.get VReg.empty n).tag < tag then
    { t with v := t.v.put n ⟨mergeMask (t.vread n) mask val, false, tag⟩ }
  else t

/-- Apply a change to the level of the period ctx: the thread's own, its shadow while the handler
runs (R227), or neither (R226). -/
def Thread.modLevel (t : Thread) (ctx : Nat) (f : Level → Level) : Thread :=
  if t.lv.ctx = ctx then { t with lv := f t.lv }
  else if t.handler ∧ t.shadow.ctx = ctx then { t with shadow := f t.shadow }
  else t

/-- The word that fills the bits outside a partial write's mask (R278): a V register (below 128) or a
C slot (128 and above); a number from 256 names a G register of the group (R248). -/
def Thread.baseWord (t : Thread) (l : Level) : Option Nat → Word
  | none => 0
  | some n => if n < 128 then t.vread n else (l.slot (n - 128)).val

/-- A write to a C slot lands and makes it valid (R222). -/
def Level.landC (l : Level) (t : Thread) (tag n : Nat) (mask val : Word) (base : Option Nat) : Level :=
  if (l.slot n).tag < tag then
    { l with c := l.c.put n ⟨mergeMask (t.baseWord l base) mask val, true, tag⟩ }
  else l

def Latch.fill (x : Latch) (push : Nat) (val : DWord) : Latch :=
  if x.pend = some push then { x with val := val, pend := none } else x

/-- The 64-bit value of a run of one or two base words (R278). -/
def Thread.baseRun (t : Thread) (l : Level) : Option (Nat × Nat) → DWord
  | none => 0
  | some (n, k) =>
    let lo := (t.baseWord l (some n)).setWidth 64
    if k = 2 then lo ||| ((t.baseWord l (some (n + 1))).setWidth 64 <<< 32) else lo

/-- A pending push's value lands, wherever the push stands by now (R221); bits outside the mask come
from the base as it stands (R278). -/
def Level.landLatch (l : Level) (t : Thread) (push : Nat) (mask val : DWord)
    (base : Option (Nat × Nat)) : Level :=
  let v := mergeMask (t.baseRun l base) mask val
  { l with l0 := l.l0.fill push v, l1 := l.l1.fill push v, l2 := l.l2.fill push v }

/-- PushLatch (R82): shift and put the value into L0. -/
def Level.pushLatch (l : Level) (val : DWord) (pend : Option Nat) : Level :=
  { l with l2 := l.l1, l1 := l.l0, l0 := ⟨val, true, pend⟩ }

/-- Bits of the mask whose register's last accepted write is older than tag (R219). -/
def Thread.openPreds (t : Thread) (tag : Nat) (mask : BitVec 7) : List Nat → BitVec 7
  | [] => 0
  | n :: ns =>
    (if mask.getLsbD n ∧ t.ptags.get 0 n < tag then BitVec.twoPow 7 n else 0) |||
      t.openPreds tag mask ns

def Thread.landP (t : Thread) (tag : Nat) (mask val : BitVec 7) : Thread :=
  let ok := t.openPreds tag mask [0, 1, 2, 3, 4, 5, 6]
  { t with p := mergeMask t.p ok val
           ptags := [0, 1, 2, 3, 4, 5, 6].foldl
             (fun ts n => if ok.getLsbD n then ts.put n tag else ts) t.ptags }

def Thread.vacate (t : Thread) (regs : List Nat) : Thread :=
  { t with v := regs.foldl (fun v n => v.put n { v.get VReg.empty n with vac := true }) t.v }

/-- What a landing does to its thread. -/
def Thread.land (t : Thread) (tag : Nat) : MicroOp → Thread
  | .v n mask val => t.landV tag n mask val
  | .c n ctx mask val base => t.modLevel ctx fun l => l.landC t tag n mask val base
  | .g _ _ => t
  | .p mask val => t.landP tag mask val
  | .latch push ctx mask val base => t.modLevel ctx fun l => l.landLatch t push mask val base
  | .push ctx val pend => t.modLevel ctx fun l => l.pushLatch val pend
  | .vacate regs => t.vacate regs
  | .clear ctx => { t with lv := Level.empty ctx }
  | .group _ => t

/-- A G register accepts the writes that are later in the group issue order (R219). -/
def Group.landG (g : Group) (tag n : Nat) (val : Word) : Group :=
  if (g.g.get GReg.empty n).tag < tag then { g with g := g.g.put n ⟨val, tag⟩ } else g

/-- The G registers of a run of one or two, as 64 bits (R6). -/
def Group.run64 (g : Group) (n k : Nat) : DWord :=
  let lo := ((g.g.get GReg.empty n).val).setWidth 64
  if k = 2 then lo ||| (((g.g.get GReg.empty (n + 1)).val).setWidth 64 <<< 32) else lo

/-- A thread at a blocking instruction holds its group Blocked (R146, R225). -/
def Thread.blocks (t : Thread) : Bool :=
  match t.wait with
  | .cond | .queue | .barrier _ _ | .sign _ _ | .spawn => true
  | .answer => t.await.any (·.block)
  | _ => false

/-- A thread that has not executed EXIT. -/
def Thread.live (t : Thread) : Bool := !t.exited

/-- A thread waits for the reply to its SYSCALL. -/
def Thread.calls (t : Thread) : Bool := match t.wait with | .call _ => true | _ => false

/-- The group is to be Blocked: a thread stands at a blocking instruction, or every live thread waits
for a SYSCALL's reply (R464). -/
def Group.isHeld (g : Group) : Bool :=
  (g.threads.any fun (_, t) => t.blocks) ||
    ((g.threads.any fun (_, t) => t.live) && g.threads.all fun (_, t) => !t.live || t.calls)

/-- The group leaves the active set for a state (R146). -/
def Group.leave (g : Group) (st : GState) (at_ : Nat) : Group :=
  if g.st = .saved ∨ g.st = .retired then g else { g with st := st, since := at_ }

/-- A Blocked group whose condition has been met, and whose time has come, becomes Ready (R146). -/
def Group.rouse (g : Group) (now : Nat) : Group :=
  if g.st = .blocked ∧ !g.isHeld ∧ g.earliest ≤ now then { g with st := .ready, since := now } else g

def Core.land (c : Core) (l : Landing) : Core :=
  match l.op with
  | .g n val => c.modGroup l.slot fun g => g.landG l.tag n val
  | .v n _ _ =>
    -- the write takes its port in its landing cycle (R217, R218)
    let c := c.modThread l.slot l.lane fun t => t.land l.tag l.op
    { c with ports := c.ports ++ [⟨l.slot, l.lane / 2, n % 4, l.land⟩] }
  | .group st => c.modGroup l.slot fun g => g.leave st l.land
  | .latch push ctx mask val (some (n, k)) =>
    -- a run of G registers as it stands (R248)
    if 256 ≤ n then
      c.modThread l.slot l.lane fun t =>
        t.land l.tag (.latch push ctx (BitVec.allOnes 64) (mergeMask ((c.group l.slot).run64 (n - 256) k) mask val) none)
    else c.modThread l.slot l.lane fun t => t.land l.tag l.op
  | op => c.modThread l.slot l.lane fun t => t.land l.tag op

/-- Order of effects in one cycle: V writes, C and predicate and G writes, latch values, dead marks,
pushes, invalidations. -/
def MicroOp.rank : MicroOp → Nat
  | .v _ _ _ => 0
  | .c _ _ _ _ _ => 1
  | .g _ _ => 1
  | .p _ _ => 1
  | .latch _ _ _ _ _ => 2
  | .vacate _ => 3
  | .push _ _ _ => 4
  | .clear _ => 5
  | .group _ => 6

/-- Landings in the order in which they take effect. -/
def Landing.before (a b : Landing) : Bool :=
  a.land < b.land || (a.land == b.land &&
    (a.op.rank < b.op.rank || (a.op.rank == b.op.rank &&
      (a.tag < b.tag || (a.tag == b.tag && a.lane ≤ b.lane)))))

def insertLanding (l : Landing) : List Landing → List Landing
  | [] => [l]
  | x :: t => if Landing.before x l then x :: insertLanding l t else l :: x :: t

/-- The port of a V write: the slot, the lane pair and the bank (R214). (Log 48, DEDUCED.) -/
def Landing.port (l : Landing) : Option (Nat × Nat × Nat) :=
  match l.op with
  | .v n _ _ => some (l.slot, l.lane / 2, n % 4)
  | _ => none

/-- R217's order of writes that want one port: due cycle, effective issue, lane. -/
def Landing.wants (a b : Landing) : Bool :=
  a.due < b.due || (a.due == b.due && (a.eff < b.eff || (a.eff == b.eff && a.lane ≤ b.lane)))

def insertWant (l : Landing) : List Landing → List Landing
  | [] => [l]
  | x :: t => if Landing.wants x l then x :: insertWant l t else l :: x :: t

/-- Give each write of one port its cycle: its due cycle, or the next after the write before it. The two
lanes of a pair that one instruction writes make one write of the pair's bank, as the counted loop
of 08_fetch_control.md shows: last is the tag of the write before. -/
def assignPort (free last : Nat) : List Landing → List Landing
  | [] => []
  | l :: t =>
    let at_ := if l.tag = last then free - 1 else max l.due free
    { l with land := at_ } :: assignPort (at_ + 1) l.tag t

/-- Put a landing in flight. A V write takes its port's next free cycle (R217). -/
def Core.addLanding (c : Core) (l : Landing) : Core :=
  match l.port with
  | none => { c with landings := insertLanding l c.landings }
  | some p =>
    let same := c.landings.filter fun x => x.port == some p
    let rest := c.landings.filter fun x => x.port != some p
    let all := assignPort 0 0 ((same ++ [l]).foldl (fun acc x => insertWant x acc) [])
    { c with landings := all.foldl (fun acc x => insertLanding x acc) rest }

/-- Apply every landing up to and including cycle t. -/
def settleAll (t : Nat) : List Landing → Core → Core
  | [], c => { c with landings := [] }
  | l :: ls, c => if l.land ≤ t then settleAll t ls (c.land l) else { c with landings := l :: ls }

/-- The core as it stands after the landings of cycle t. -/
def Core.settle (c : Core) (t : Nat) : Core := settleAll t c.landings c

/-! ## Exceptions -/

/-- Cycles that a fault or a stop takes between a core and the sorting office of hub 0 (R449): the
bound of the rule, which the model takes as the time. -/
def officeTime (core : Nat) : Nat := Config.rowOtherDie + crossing (hubOfCore core) 0

/-- Raise a terminal fault of a thread: it travels to the sorting office, and its lane issues no more
(R449). (Log 22, DEDUCED.) -/
def State.terminal (s : State) (core slot lane : Nat) (cause : Byte) (flags : BitVec 16)
    (addr pc : DWord) : State :=
  let launch := (s.core core).sideD.launch
  let s := s.modThread core slot lane fun t => { t with stopped := true }
  s.schedule (s.now + officeTime core) (.terminalFaultArrival launch
    { cause := cause, flags := flags, addr := addr, pc := pc, core := BitVec.ofNat 16 core,
      slot := BitVec.ofNat 8 slot, lane := BitVec.ofNat 8 lane })

/-- The thread of a lane that enters the handler (R445): the saved registers, the shadow, the handler
flag, the PC and its first issue. ctx is the number of the new, empty period of its levels. -/
def Thread.enter (t : Thread) (ctx : Nat) (cause : Word) (addr pc handler : DWord)
    (next : Nat) : Thread :=
  { t with trapcause := cause, trapaddr := addr, trappc := pc, shadow := t.lv, lv := Level.empty ctx,
           handler := true, pc := handler, next := next, wait := .none }

/-- A lane raises a precise cause (R443 to R446): it enters the launch's handler, or the cause is
escalated to a terminal fault. pc is the value of TRAPPC, insn the instruction's own address, e and
stall its effective issue and its stall count. -/
def State.trap (s : State) (core slot lane : Nat) (cause : Nat) (addr pc insn : DWord)
    (e stall : Nat) : State :=
  match (s.coreLaunch core).handler, (s.thread core slot lane).handler with
  | some h, false =>
    let s := s.tick
    s.modThread core slot lane fun t =>
      t.enter s.order (BitVec.ofNat 32 cause) addr pc h (e + 1 + stall + 8)
  | _, _ => s.terminal core slot lane (BitVec.ofNat 8 cause) 1 addr insn

/-- The thread that returns from its handler (R448): the shadow comes back, the flag is cleared and
the PC is TRAPPC. -/
def Thread.leave (t : Thread) (next : Nat) : Thread :=
  { t with lv := t.shadow, handler := false, pc := t.trappc, next := next }

/-! ## Cause codes (R443, R449, R450) -/

def causeIllegalInsn : Nat := 0x01
def causeIllegalOpnd : Nat := 0x02
def causeOpndLevel : Nat := 0x03
def causeStallShort : Nat := 0x04
def causeMisalign : Nat := 0x05
def causeSwzMismatch : Nat := 0x06
def causeFormatPair : Nat := 0x07
def causeConvMisuse : Nat := 0x08
def causeScratchRange : Nat := 0x09
def causeBkpt : Nat := 0x0A
def causeTrap : Nat := 0x0B

/-! ## Status words (R84) -/

/-- Status(code, detail): the done bit is always 1. -/
def status (code detail : Nat) : Word :=
  BitVec.ofNat 32 (code % 256 + 256 + 512 * (detail % 2 ^ 23))

def stOk : Nat := 0x00
def stFull : Nat := 0x01
def stEmpty : Nat := 0x02
def stQuota : Nat := 0x03
def stAbsent : Nat := 0x04
def stFootprint : Nat := 0x05
def stPoison : Nat := 0x06
def stCancelled : Nat := 0x07
def stTimeout : Nat := 0x08
def stDenied : Nat := 0x09
def stMalformed : Nat := 0x0A
def stCompareFail : Nat := 0x0B

end Sys2Proof.Machine
end

