-- ==== Sys2Proof/Machine/Operands.lean ====
section
/-! DEFINITION. Operand forms: the read phase and the effective issue (R214 to R216), the value of each
operand (R57, R58, R82, R220), the level checks (R222, R224), and the end of an issue: landings,
latch pushes, dead marks, program counters and traps (R217 to R230). -/

namespace Sys2Proof.Machine

/-! ## Immediates -/

/-- How an immediate code stands in an operand (R58, R262): a two's-complement pattern, the pattern
in both halves, a float of a format, or that float in both halves. -/
inductive ImmKind where
  | int
  | half
  | flt (t : EFmt)
  | pair (t : EFmt)
  deriving DecidableEq, Repr

/-- The pattern of an immediate integer in an operand of n registers (R58). -/
def ImmKind.pattern (k : ImmKind) (n : Nat) (z : Int) : Nat :=
  match k with
  | .int => intBits (32 * n) z
  | .half => intBits 16 z * 65537
  | .flt t => roundTo t false .rne (.ofInt z)
  | .pair t => roundTo t false .rne (.ofInt z) * 65537

/-- The value of imm18 by the instruction's class (R52). -/
def ImmKind.pattern18 (k : ImmKind) (n : Nat) (i : BitVec 18) : Nat :=
  match k with
  | .flt .f64 => i.toNat * 2 ^ 46
  | .flt _ => i.toNat * 2 ^ 14
  | _ => intBits (32 * n) i.toInt

/-! ## Registers of the fields -/

/-- Registers that an operand of a source role spans. -/
def roleRegs : Role → Nat
  | .src n => n
  | .run n => n
  | .grun => 4
  | .target => 2
  | .nonzero => 2
  | .line => 1
  | _ => 0

/-- Registers that a destination spans. -/
def dstRegs : DstRole → Nat
  | .val n _ _ => n
  | .data n => n
  | .link => 2
  | .counter => 1
  | _ => 0

/-- Whether the destination field is read: store data and the BRDEC counter (R62, R204). -/
def dstRead : DstRole → Bool
  | .data _ => true
  | .counter => true
  | _ => false

/-- The V registers of an operand of n registers. -/
def vregs (o : Opnd) (n : Nat) : List Nat :=
  match o with
  | .v k _ => List.range' k.toNat n
  | _ => []

/-- One register past the highest V register that an instruction's fields name (R213). -/
def topReg (sh : Shape) (f : Fields) : Nat :=
  let top := fun (o : Opnd) (n : Nat) => match o with | .v k _ => k.toNat + max n 1 | _ => 0
  max (max (top f.a (roleRegs sh.a)) (top f.b (roleRegs sh.b)))
    (max (top f.c (roleRegs sh.c)) (top f.dst (dstRegs sh.dst)))

/-- The fields that are read, in the order of R224. -/
def readFields (sh : Shape) (f : Fields) : List (Opnd × Nat) :=
  [(f.a, roleRegs sh.a), (f.b, roleRegs sh.b), (f.c, roleRegs sh.c)] ++
    (if dstRead sh.dst then [(f.dst, dstRegs sh.dst)] else [])

/-- Insert into a rising list without repeats. -/
def insertNat (n : Nat) : List Nat → List Nat
  | [] => [n]
  | x :: t => if n < x then n :: x :: t else if n = x then x :: t else x :: insertNat n t

/-- The distinct V registers an instruction reads, rising (R215). -/
def readRegs (sh : Shape) (f : Fields) : List Nat :=
  ((readFields sh f).flatMap fun (o, n) => vregs o n).foldl (fun acc r => insertNat r acc) []

/-- Whether the destination field names registers that the instruction writes; store data are read alone (R62). -/
def dstWritten : DstRole → Bool
  | .data _ => false
  | _ => true

/-- The registers its dead marks vacate, its own destination apart (R66). (Log 20, DEDUCED.) -/
def deadRegs (sh : Shape) (f : Fields) : List Nat :=
  let dst := if dstWritten sh.dst then vregs f.dst (dstRegs sh.dst) else []
  ((readFields sh f).flatMap fun (o, n) => if o.dead then vregs o n else []).filter
    fun r => !dst.contains r

/-! ## The read phase (R215) -/

/-- Whether a bank port is taken in a cycle: by a landing write or by an earlier instruction's read. -/
def Core.portBusy (c : Core) (slot pair bank cycle : Nat) : Bool :=
  (c.landings.any fun l => l.land == cycle && l.port == some (slot, pair, bank)) ||
    (c.ports.any fun u => u.cycle == cycle && u.slot == slot && u.pair == pair && u.bank == bank)

/-- The lane pairs of a list of lanes, rising. -/
def pairsOf (lanes : List Nat) : List Nat :=
  lanes.foldl (fun acc l => insertNat (l / 2) acc) []

/-- The registers that are read in a cycle: of each bank whose port is free in every lane pair, the
lowest-numbered that is left (R215). -/
def Core.readNow (c : Core) (slot : Nat) (pairs left : List Nat) (cycle : Nat) : List Nat :=
  [0, 1, 2, 3].filterMap fun b =>
    if pairs.any fun p => c.portBusy slot p b cycle then none
    else left.find? fun r => r % 4 == b

/-! ## An issue -/

/-- What one issue of an instruction works with: who subscribes, the fields, the cycle t of issue, the
effective issue e, the issue tag, and the core as it stands at e. -/
structure Ctx where
  core : Nat
  slot : Nat
  lanes : List Nat
  pc : DWord
  len : Nat
  stall : Nat
  t : Nat
  e : Nat
  tag : Nat
  sh : Shape
  f : Fields
  /-- The core at e, its landings in flight still listed. -/
  raw : Core
  /-- What the lanes read before the last cycle of the read phase. -/
  early : List EarlyRead
  vac : List Nat
  check : Bool
  deriving DecidableEq, Repr

/-- Begin to execute the issue in cur, whose read phase ends with the next cycle: the core is settled. -/
def State.begin (s : State) (sh : Shape) (f : Fields) : Ctx × State :=
  let u := s.cur
  let c := (s.core u.core).settle s.now
  ({ core := u.core, slot := u.slot, lanes := u.lanes, pc := u.pc, len := u.len,
     stall := f.stall.toNat, t := u.t, e := s.now, tag := u.tag, sh := sh, f := f, raw := c,
     early := u.early, vac := u.vac,
     check := (s.coreLaunch u.core).env.flags.getLsbD 1 }, s.setCore u.core c)

/-- A thread of the issue as it stands at e. -/
def Ctx.thread (x : Ctx) (lane : Nat) : Thread := x.raw.thread x.slot lane

/-- The value of a predicate code for a thread; P7 is 1 (R60). -/
def Thread.pred (t : Thread) (n : BitVec 3) (neg : Bool) : Bool :=
  (if n = 7 then true else t.p.getLsbD n.toNat) != neg

/-- The lane is active: its guard holds (R64). -/
def Ctx.active (x : Ctx) (lane : Nat) : Bool :=
  (x.raw.thread x.slot lane).pred x.f.pred x.f.neg

/-- active(g), rising (R9). -/
def Ctx.actives (x : Ctx) : List Nat := x.lanes.filter x.active

/-- Whether a write in flight to a V register of a lane is a later one than the last it accepted. A vacated
register is not waited for (R224). -/
def Core.pendingV (c : Core) (slot lane r : Nat) : Bool :=
  let reg := (c.thread slot lane).v.get VReg.empty r
  !reg.vac && c.landings.any fun l =>
    l.slot == slot && l.lane == lane && reg.tag < l.tag &&
      (match l.op with | .v n _ _ => n == r | _ => false)

/-- What a lane read of a V register before the last cycle of the read phase. -/
def Ctx.earlyRead (x : Ctx) (lane r : Nat) : Option EarlyRead :=
  x.early.find? fun q => q.lane == lane && q.reg == r

/-- A V register as the issue reads it (R220, R229). -/
def Ctx.readV (x : Ctx) (lane r : Nat) : Word :=
  if x.vac.contains r then 0
  else match x.earlyRead lane r with
    | some q => q.val
    | none => (x.thread lane).vread r

/-- A V register is read short (R220). -/
def Ctx.shortV (x : Ctx) (lane r : Nat) : Bool :=
  !x.vac.contains r && match x.earlyRead lane r with
    | some q => q.short
    | none => x.raw.pendingV x.slot lane r

/-- A G register as the issue reads it. -/
def Ctx.readG (x : Ctx) (r : Nat) : Word := ((x.raw.group x.slot).g.get GReg.empty r).val

/-- Words, the first least significant, as one number (R6). -/
def wordsNat : List Word → Nat
  | [] => 0
  | w :: t => w.toNat + 2 ^ 32 * wordsNat t

/-- The value of an operand field of n registers in a lane (ReadOperand, R82). -/
def Ctx.value (x : Ctx) (lane : Nat) (o : Opnd) (n : Nat) (k : ImmKind) : Nat :=
  match o with
  | .v r _ => wordsNat ((List.range' r.toNat n).map (x.readV lane))
  | .c r => ((x.thread lane).lv.slot r.toNat).val.toNat
  | .l r => ((x.thread lane).lv.latch r.val).val.toNat % 2 ^ (32 * n)
  | .zero => 0
  | .g r => wordsNat ((List.range' r.toNat n).map x.readG)
  | .imm j => k.pattern n ((j.val : Int) - 16)
  | .p r neg => ((x.raw.thread x.slot lane).pred r neg).toNat
  | .k r => r.toNat
  | .bar r => r.toNat
  | .imm18 i => k.pattern18 n i

/-! ## Level checks (R222, R224) -/

/-- Whether a field reads an invalid C slot or latch (OPND_LEVEL). -/
def Ctx.invalid (x : Ctx) (lane : Nat) (o : Opnd) : Bool :=
  match o with
  | .c r => !((x.thread lane).lv.slot r.toNat).valid
  | .l r => !((x.thread lane).lv.latch r.val).valid
  | _ => false

/-- Whether a field is a short read (R220, R221). -/
def Ctx.short (x : Ctx) (lane : Nat) (o : Opnd) (n : Nat) : Bool :=
  match o with
  | .v r _ => (List.range' r.toNat n).any (x.shortV lane)
  | .c r =>
    x.raw.landings.any fun l =>
      l.slot == x.slot && l.lane == lane && x.e < l.land &&
        ((x.thread lane).lv.slot r.toNat).tag < l.tag &&
        (match l.op with
         | .c k ctx _ _ _ => k == r.toNat && ctx == (x.thread lane).lv.ctx
         | _ => false)
  | .l r => ((x.thread lane).lv.latch r.val).pend.isSome
  | .g r =>
    (List.range' r.toNat n).any fun r => x.raw.landings.any fun l =>
      l.slot == x.slot && x.e < l.land && ((x.raw.group x.slot).g.get GReg.empty r).tag < l.tag &&
        (match l.op with | .g k _ => k == r | _ => false)
  | _ => false

/-- The level trap of a lane, if any: the cause and the code of the first field that raises it;
OPND_LEVEL goes before STALL_SHORT (R224). held are operands that must be valid and are not read. -/
def Ctx.levelFault (x : Ctx) (lane : Nat) (fields : List (Opnd × Nat)) (held : List Opnd := []) :
    Option (Nat × Nat) :=
  match (fields.map (·.1) ++ held).find? (x.invalid lane) with
  | some o => some (causeOpndLevel, o.code)
  | none =>
    if x.check then
      (fields.find? fun (o, n) => x.short lane o n).map fun (o, _) => (causeStallShort, o.code)
    else none

/-! ## The end of an issue -/

/-- The prior value of a lane's destination (R221): a register that the safe point vacates reads 0 (R229). -/
def Ctx.prior (x : Ctx) (lane : Nat) : Nat :=
  match x.f.dst, x.sh.dst with
  | _, .data _ => 0
  | .v r _, _ =>
    wordsNat ((List.range' r.toNat (dstRegs x.sh.dst)).map fun n =>
      if x.vac.contains n then 0 else (x.thread lane).vread n)
  | .c r, _ => ((x.thread lane).lv.slot r.toNat).val.toNat
  | .g r, _ => wordsNat ((List.range' r.toNat (dstRegs x.sh.dst)).map x.readG)
  | .p r _, _ => ((x.thread lane).pred r false).toNat
  | _, _ => 0

/-- Put a landing of the issue in flight: due cycle, lane, effect. -/
def Ctx.landing (x : Ctx) (due lane : Nat) (op : MicroOp) : Landing :=
  ⟨due, due, x.e, x.tag, x.slot, lane, op⟩

/-- Put landings in flight and schedule their cycles. -/
def State.addLandings (s : State) (core : Nat) (ls : List Landing) : State :=
  let s := s.modCore core fun c => ls.foldl Core.addLanding c
  (s.core core).landings.foldl (fun s l => s.scheduleOnce l.land (.resultLanding core)) s

/-- A thread passes its instruction: the next address and the cycle of its next issue (R191, R216). -/
def Thread.advance (t : Thread) (pc : DWord) (next : Nat) : Thread :=
  { t with pc := pc, next := next }

/-- The address after the instruction. -/
def Ctx.nextPc (x : Ctx) : DWord := x.pc + BitVec.ofNat 64 x.len

/-- First cycle of a thread's next issue without redirect (R216). -/
def Ctx.nextIssue (x : Ctx) : Nat := x.e + 1 + x.stall

/-- Dead marks of the lanes that execute or pass the instruction (R66, R228), and the safe-point
vacating of the cycle e (R229). -/
def Ctx.deadLandings (x : Ctx) (lanes : List Nat) : List Landing :=
  let regs := deadRegs x.sh x.f ++ x.vac
  if regs.isEmpty then [] else lanes.map fun l => x.landing x.e l (.vacate regs)

/-- A trap that a lane raises in the issue; pc is the value of TRAPPC where it is not the
instruction's own address (R443). -/
structure LaneTrap where
  lane : Nat
  cause : Nat
  addr : DWord
  pc : Option DWord
  deriving DecidableEq, Repr

/-- Raise the traps of an issue (R85). -/
def State.raise (s : State) (x : Ctx) (ts : List LaneTrap) : State :=
  ts.foldl (fun s t => s.trap x.core x.slot t.lane t.cause t.addr (t.pc.getD x.pc) x.pc x.e x.stall) s

/-- Every listed lane passes to the next address. -/
def State.passLanes (s : State) (x : Ctx) (lanes : List Nat) : State :=
  s.modGroup x.core x.slot fun g =>
    lanes.foldl (fun g l => g.modThread l fun t => t.advance x.nextPc x.nextIssue) g

/-- A lane that a transfer takes elsewhere: its PC and the delay b of R200. -/
structure Go where
  lane : Nat
  pc : DWord
  b : Nat
  deriving DecidableEq, Repr

/-- The lanes of a transfer go to their targets (R200). -/
def State.goLanes (s : State) (x : Ctx) (gos : List Go) : State :=
  s.modGroup x.core x.slot fun g =>
    gos.foldl (fun g o => g.modThread o.lane fun t => t.advance o.pc (x.nextIssue + o.b)) g

/-- Complete an issue: the lanes that trapped do so, those of gos go to their targets, the others pass,
the landings go in flight. -/
def State.finishTo (s : State) (x : Ctx) (ts : List LaneTrap) (gos : List Go) (ls : List Landing) :
    State :=
  let ok := x.lanes.filter fun l => !(ts.any fun t => t.lane == l)
  let s := s.passLanes x ok
  let s := s.goLanes x gos
  let s := s.raise x ts
  s.addLandings x.core (x.deadLandings ok ++ ls)

/-- Complete an issue without a transfer. -/
def State.finish (s : State) (x : Ctx) (ts : List LaneTrap) (ls : List Landing) : State :=
  s.finishTo x ts [] ls

/-! ## The mould of the register instructions -/

/-- What one active lane reads: the values of srcA, srcB, srcC and the data field. -/
structure LaneIn where
  lane : Nat
  a : Nat
  b : Nat
  c : Nat
  d : Nat
  th : Thread
  deriving DecidableEq, Repr

/-- What an active lane produces: the value delivered to the destination and pushed, the mask of a
partial write of a 32-bit register, the base a push is merged into, predicate bits, and a new SEED. -/
structure LaneOut where
  val : Nat
  /-- Bits of a partial write (R278); all ones otherwise. -/
  mask : Word
  pmask : BitVec 7
  pval : BitVec 7
  seed : Option Word
  trappc : Option DWord
  deriving DecidableEq, Repr

/-- A plain result. -/
def LaneOut.of (v : Nat) : LaneOut := ⟨v, BitVec.allOnes 32, 0, 0, none, none⟩

/-- A predicate result (R60): the bit for the destination Pn; writing P7 discards it. -/
def LaneOut.bit (dst : Opnd) (b : Bool) : LaneOut :=
  match dst with
  | .p n _ =>
    if n = 7 then ⟨b.toNat, BitVec.allOnes 32, 0, 0, none, none⟩
    else
      let m := BitVec.twoPow 7 n.toNat
      ⟨b.toNat, BitVec.allOnes 32, m, if b then m else 0, none, none⟩
  | _ => LaneOut.of b.toNat

/-- Latch, C, G and predicate time, and V-file time, of a latency class (R213). -/
def latTimes : Lat → Nat × Nat
  | .f2 => (7, 8)
  | _ => (3, 4)

/-- Word i of a result. -/
def resultWord (v i : Nat) : Word := BitVec.ofNat 32 (v / 2 ^ (32 * i))

/-- The base a partial write's C slot or latch is merged into (R278). -/
def Ctx.partialBase (x : Ctx) (o : LaneOut) : Option (Nat × Nat) :=
  if o.mask = BitVec.allOnes 32 then none
  else
    match x.f.dst with
    | .v r _ => some (r.toNat, 1)
    | .c r => some (128 + r.toNat, 1)
    | _ => none

/-- The landings of one active lane's result, the G destination apart. -/
def Ctx.laneLandings (x : Ctx) (o : LaneOut) (lane : Nat) : List Landing :=
  let (lc, lv) := latTimes x.sh.lat
  let n := dstRegs x.sh.dst
  let ctx := (x.thread lane).lv.ctx
  let base := x.partialBase o
  let w0 := resultWord o.val 0
  let dst : List Landing :=
    match x.sh.dst, x.f.dst with
    | .val _ _ _, .v r _ =>
      (List.range n).map fun i => x.landing (x.e + lv) lane (.v (r.toNat + i) o.mask (resultWord o.val i))
    | .val _ _ _, .c r =>
      [x.landing (x.e + lc) lane (.c r.toNat ctx o.mask w0 (base.map (·.1)))]
    | _, _ => []
  let cw : List Landing :=
    match x.f.cw with
    | some j =>
      if x.f.dst = .c j then []
      else [x.landing (x.e + lc) lane (.c j.toNat ctx o.mask w0 (base.map (·.1)))]
    | none => []
  let pr : List Landing :=
    if o.pmask = 0 then [] else [x.landing (x.e + lc) lane (.p o.pmask o.pval)]
  let mask : DWord := if o.mask = BitVec.allOnes 32 then BitVec.allOnes 64 else o.mask.setWidth 64
  dst ++ cw ++ pr ++
    [x.landing x.e lane (.push ctx (BitVec.ofNat 64 (x.prior lane)) (some x.tag)),
     x.landing (x.e + lc) lane (.latch x.tag ctx mask (BitVec.ofNat 64 o.val) base)]

/-- The push of a subscribed lane that is not active: the prior value, not pending (R221). -/
def Ctx.idlePush (x : Ctx) (lane v : Nat) : Landing :=
  x.landing x.e lane (.push (x.thread lane).lv.ctx (BitVec.ofNat 64 v) none)

/-- The G landings of an instruction: the value of the lowest lane (R75). -/
def Ctx.groupLandings (x : Ctx) (v : Nat) : List Landing :=
  match x.sh.dst, x.f.dst with
  | .val n _ _, .g r =>
    (List.range n).map fun i =>
      x.landing (x.e + (latTimes x.sh.lat).1) 0 (.g (r.toNat + i) (resultWord v i))
  | _, _ => []

/-- Read the fields of an active lane. -/
def Ctx.laneIn (x : Ctx) (ka kb kc : ImmKind) (lane : Nat) : LaneIn :=
  { lane := lane, a := x.value lane x.f.a (roleRegs x.sh.a) ka,
    b := x.value lane x.f.b (roleRegs x.sh.b) kb, c := x.value lane x.f.c (roleRegs x.sh.c) kc,
    d := if dstRead x.sh.dst then x.value lane x.f.dst (dstRegs x.sh.dst) .int else 0,
    th := x.thread lane }

/-- The special registers that a result carries are written at e (R101, R256). -/
def State.seeds (s : State) (x : Ctx) (rs : List (Nat × LaneOut)) : State :=
  rs.foldl (fun s (l, o) =>
    if o.seed.isNone && o.trappc.isNone then s
    else s.modThread x.core x.slot l fun t =>
      { t with seed := o.seed.getD t.seed, trappc := o.trappc.getD t.trappc }) s

/-- The mould of the fixed-latency instructions: read every active lane, compute, deliver. fn has the
issue, the inputs of every active lane and the lane's own; held are operands that must be valid besides the sources;
idle gives what an inactive lane pushes. Every active lane is checked, also where the value goes to a G register
and is the lowest lane's (R75; log 82, DEDUCED). (Log 21, DEDUCED.) -/
def State.alu (s : State) (sh : Shape) (f : Fields) (ka kb kc : ImmKind)
    (fn : Ctx → List LaneIn → LaneIn → LaneOut) (held : List Opnd := [])
    (idle : Ctx → Nat → Nat := Ctx.prior) : State :=
  let (x, s) := s.begin sh f
  let checked := x.actives.map fun l => (l, x.levelFault l (readFields sh f) held)
  let ts := checked.filterMap fun (l, r) => r.map fun (cause, code) =>
    (⟨l, cause, BitVec.ofNat 64 code, none⟩ : LaneTrap)
  let ins := (checked.filter fun (_, r) => r.isNone).map fun (l, _) => x.laneIn ka kb kc l
  let outs := ins.map fun i => (i.lane, fn x ins i)
  let outs := match f.dst, sh.dst, outs with
    -- every active lane pushes and co-writes the value that reaches G (R65, R75)
    | .g _, .val _ _ _, (_, o) :: _ => outs.map fun (l, p) => (l, { p with val := o.val })
    | _, _, _ => outs
  let gl := match outs with
    | (_, o) :: _ => x.groupLandings o.val
    | [] => []
  let inactive := x.lanes.filter fun l => !x.active l
  let ls := gl ++ (outs.flatMap fun (l, o) => x.laneLandings o l) ++
    inactive.map fun l => x.idlePush l (idle x l)
  (s.seeds x outs).finish x ts ls

/-- A lane-wise instruction whose result is one value. -/
def State.aluLane (s : State) (sh : Shape) (f : Fields) (k : ImmKind) (fn : LaneIn → Nat) : State :=
  s.alu sh f k k k fun _ _ i => LaneOut.of (fn i)

/-- A lane-wise instruction whose result is a predicate bit (R60). -/
def State.aluPred (s : State) (sh : Shape) (f : Fields) (k : ImmKind) (fn : LaneIn → Bool) : State :=
  s.alu sh f k k k fun _ _ i => LaneOut.bit f.dst (fn i)

end Sys2Proof.Machine
end

