-- ==== Sys2Proof/Machine/Access.lean ====
section
/-! DEFINITION. Memory: the physical map and home slices (R167, R168, R326, R526), two-stage translation
(R157 to R161), leases (R123, R125), what an agent reads (R371, R372), tentative writes, merging and
publication (R374 to R379, R386), and the L1 (R327, R380, R383). -/

namespace Sys2Proof.Machine

/-! ## The physical map -/

/-- Tiers (R167): 1 HBM, 2 LP, 3 pool, as PLQ reports them (R189). -/
inductive Tier where
  | hbm | lp | pool
  deriving DecidableEq, Repr

def poolStart : Nat := 0x8000000000000
def poolEnd : Nat := 0x8400000000000

/-- The tier and hub of a physical address; none in a reserved range (R167, R168). -/
def tierOf (pa : Nat) : Option (Tier × Nat) :=
  if pa < 0xC000000000 then some (.hbm, pa / 0x4000000000)
  else if pa < 0x10000000000 then none
  else if pa < 0x28000000000 then some (.lp, (pa - 0x10000000000) / 0x8000000000)
  else if poolStart ≤ pa ∧ pa < poolEnd then some (.pool, (pa - poolStart) / 65536 % 3)
  else none

/-- The hub that holds a physical address's home slice (R326). -/
def homeHub (pa : Nat) : Nat := ((tierOf pa).map (·.2)).getD 0
/-- The home die (R326). -/
def homeDie (pa : Nat) : Nat := 2 * homeHub pa + pa / 65536 % 2
/-- The home slice on its die (R326). -/
def homeSlice (pa : Nat) : Nat := (pa / 128 % 32) ^^^ (pa / 131072 % 32)

/-- Row of R21 for an access that the home slice's cache serves (R326). -/
def sliceRow (core pa : Nat) : Nat :=
  if homeDie pa = dieOf core then
    if homeSlice pa / 4 = clusterOf core then Config.rowNear else Config.rowFar
  else Config.rowOtherDie + crossing (hubOfCore core) (homeHub pa)

/-- A port of a hub works (R168). -/
def State.portUp (s : State) (hub port : Nat) : Bool := !(s.ports.get false (3 * hub + port))
def State.hubHasPort (s : State) (hub : Nat) : Bool := [0, 1, 2].any (s.portUp hub)

/-- The hub and port on which an access to a pool frame leaves (R168): the frame's own port of its hub, else the
hub's next working one, else the lowest working port of the lowest other hub that has one. -/
def State.poolExit (s : State) (frame : Nat) : Option (Nat × Nat) :=
  let h := frame % 3
  let p := frame / 3 % 3
  let own := [p, (p + 1) % 3, (p + 2) % 3].map fun k => (h, k)
  let others := ([0, 1, 2].filter (· != h)).flatMap fun g => [0, 1, 2].map fun k => (g, k)
  (own ++ others).find? fun (g, k) => s.portUp g k

/-- Cycles that a pool access adds when its hub has lost its three ports (R168): it leaves through another. -/
def State.poolDetour (s : State) (pa : Nat) : Nat :=
  let frame := (pa - poolStart) / 65536
  match s.poolExit frame with
  | some (g, _) => crossing (frame % 3) g
  | none => Config.meshCrossing

/-- Row of R21 for an access that goes to its tier (R526), with R22 and R168. -/
def State.tierRow (s : State) (core pa : Nat) : Nat :=
  match tierOf pa with
  | some (.hbm, h) => Config.rowHbm + crossing (hubOfCore core) h
  | some (.lp, h) => Config.rowLp + crossing (hubOfCore core) h
  | some (.pool, h) => Config.rowPool + crossing (hubOfCore core) h + s.poolDetour pa
  | none => 0

def State.station (s : State) (k : Nat) : Station := s.stations.get Station.reset k
def Station.up (x : Station) : Bool := x.width != 0

/-- The station of a window request: by its line, its package and the working stations of the requester's
hub, else of the lowest hub that has one (R427). -/
def State.stationOf (s : State) (hub pod q : Nat) : Option Nat :=
  let k := (q % 16) ^^^ (pod % 16)
  let on := fun (h : Nat) => ((List.range 16).map fun i => 16 * h + (k + i) % 16).find? fun n =>
    (s.station n).up
  match on hub with
  | some n => some n
  | none => [0, 1, 2].findSome? on

/-- Row of an access to a peer's window: a station behind another hub adds a crossing (R22, R427), and one that
retrains carries nothing until it has (R429). -/
def State.peerRow (s : State) (core pod off : Nat) : Nat :=
  Config.rowPeer + (((s.stationOf (hubOfCore core) pod (off / 128)).map fun n =>
    crossing (hubOfCore core) (n / 16) + ((s.station n).retrainEnd - s.now)).getD 0)

/-! ## The L2 slices and heat (R526, R171) -/

def State.place (s : State) (frame : Nat) : Place := s.places.get Place.zero frame
def State.setPlace (s : State) (frame : Nat) (p : Place) : State :=
  { s with places := s.places.put frame p }

/-- The key slot of the frame of a physical address, under which its lines are cached and encrypted (R180).
(Log 73, DEDUCED.) -/
def State.keyOf (s : State) (pa : Nat) : Nat := (s.place (pa / 65536)).key.toNat

/-! ## Frames and quotas (R167, R183) -/

def frameTier (f : Nat) : Option (Tier × Nat) := tierOf (f * 65536)

/-- The partition a frame belongs to: that of its key slot (R516). -/
def Place.part (p : Place) : Nat := p.key.toNat

def Part.quota (p : Part) (t : Tier) : Quota :=
  match t with | .hbm => p.qhbm | .lp => p.qlp | .pool => p.qpool

def Part.setQuota (p : Part) (t : Tier) (q : Quota) : Part :=
  match t with
  | .hbm => { p with qhbm := q }
  | .lp => { p with qlp := q }
  | .pool => { p with qpool := q }

/-- Count frames in or out of a tier. -/
def State.countIn (s : State) (part : Nat) (t : Tier) (n : Nat) : State :=
  s.modPart part fun p => p.setQuota t { p.quota t with used := (p.quota t).used + n }
def State.countOut (s : State) (part : Nat) (t : Tier) (n : Nat) : State :=
  s.modPart part fun p => p.setQuota t { p.quota t with used := (p.quota t).used - n }

/-- n more frames stay within the partition's limit of a tier. -/
def State.quotaRoom (s : State) (part : Nat) (t : Tier) (n : Nat) : Bool :=
  decide (((s.part part).quota t).used + n ≤ ((s.part part).quota t).limit)

/-- Key of a set: slice of the package and set number. -/
def l2Set (pa : Nat) : Nat := (32 * homeDie pa + homeSlice pa) * 2048 + pa / 4096 % 2048

/-- Staging lines of a set: distinct lines with staged writes (R374). -/
def State.stagingWays (s : State) (set : Nat) : Nat :=
  ((s.staged.filter fun w => l2Set w.addr == set).map fun w => w.addr / 128).eraseDups.length

/-- The lines that the tile fetch units have pinned in the slices (R295). -/
def State.pinnedLines (s : State) : List Nat :=
  s.cores.flatMap fun (_, c) => c.engine.flatMap fun v =>
    (v.la ++ v.lb).filterMap fun (_, l) => l.pline

/-- Drop the least recently used line of a set among those that are not pinned, while the set holds more than
its ways (R526). -/
def dropOldest (pins : List Nat) (ways : Nat) : Nat → List L2Line → List L2Line
  | 0, ls => ls
  | k + 1, ls =>
    if ls.length ≤ ways then ls
    else
      match ls.filter fun y => !pins.contains y.line with
      | [] => ls
      | x :: t =>
        let v := t.foldl (fun m y => if y.used < m.used then y else m) x
        dropOldest pins ways k (ls.filter fun y => y != v)

/-- The hub that counts a frame's misses (R171). -/
def heatHub (frame : Nat) : Nat := homeHub (frame * 65536)

/-- A sampled event of a frame (R171): HEAT rises and saturates, and a candidate that had been passed over is
one again (R172). While a halving of the hub is due, the event is kept until it has been made. -/
def State.sampleFrame (s : State) (hub frame : Nat) : State :=
  let p := s.place frame
  let s := s.setPlace frame { p with passed := false }
  if (s.hub hub).halving then s.modHub hub fun x => { x with late := x.late ++ [frame] }
  else s.setPlace frame { p with passed := false, heat := if p.heat = 0xFFFF then p.heat else p.heat + 1 }

/-- Every 2^24th sampled event of a hub makes a halving due (R171). -/
def State.halvingDue (s : State) (hub k : Nat) : State :=
  if k % 2 ^ 24 = 0 then
    (s.modHub hub fun x => { x with halving := true }).scheduleOnce s.now (.heatHalving hub)
  else s

/-- Count an L2 miss to a frame (R171). -/
def State.countMiss (s : State) (pa : Nat) : State :=
  let frame := pa / 65536
  let p := s.place frame
  if !p.smpl then s
  else
    let h := heatHub frame
    let n := (s.hub h).misses + 1
    let s := s.modHub h fun x => { x with misses := n }
    if n % 16 ≠ 0 then s
    else
      let k := (s.hub h).sampled + 1
      let s := s.modHub h fun x => { x with sampled := k }
      ((s.sampleFrame h frame).halvingDue h k).scheduleOnce s.now (.migrationStart h)

/-- The line is held at its home slice under the key slot of its frame (R180). -/
def State.l2Holds (s : State) (pa : Nat) : Bool :=
  (s.l2.get [] (l2Set pa)).any fun x => x.line == pa / 128 && x.key == s.keyOf pa

/-- The package that owns a pool page (R178); 32 where it belongs to none (log 4). -/
def State.pageOwner (s : State) (page : Nat) : Nat := s.owners.get 32 page

/-- The member index of this package: that of the partition's POOLMEM (R435). -/
def State.memberOf (s : State) : Nat := s.poolMember.toNat

/-- An access to a pool page that another package owns, or that is being handed over (R178). -/
def State.needsHandover (s : State) (pa : Nat) : Bool :=
  poolStart ≤ pa && pa < poolEnd &&
    (let page := (pa - poolStart) / 65536
     s.pageOwner page != s.memberOf || s.handovers.any fun h => h.1 == page)

/-- The ways of a set that its staging lines leave (R526). -/
def State.l2Ways (s : State) (set : Nat) : Nat := 12 - s.stagingWays set

/-- The fills that wait for a way of a set enter it as ways leave (R526). -/
def State.l2Waiting (s : State) (set : Nat) : State :=
  if s.l2Waits.isEmpty then s
  else
    let ls := s.l2.get [] set
    let room := s.l2Ways set - ls.length
    let mine := (s.l2Waits.filter fun x => l2Set (x.line * 128) == set).take room
    { s with l2 := if mine.isEmpty then s.l2 else s.l2.put set (ls ++ mine)
             l2Waits := s.l2Waits.filter fun x => !mine.contains x }

/-- A line is the last used of its set, at an order number; a line of the address under another slot leaves
(R180). On a miss it takes a way of its set; where every way is pinned or a staging line, the fill waits (R526).
A pool page that the package does not own is not cached. -/
def State.l2Enter (s : State) (pa used : Nat) (hit : Bool) : State :=
  let set := l2Set pa
  let rest := (s.l2.get [] set).filter fun x => x.line != pa / 128
  let x : L2Line := ⟨pa / 128, s.keyOf pa, used⟩
  if hit then { s with l2 := s.l2.put set (rest ++ [x]) }
  else if s.needsHandover pa then { s with l2 := s.l2.put set rest }
  else
    let ways := s.l2Ways set
    let rest := dropOldest s.pinnedLines (ways - 1) rest.length rest
    if rest.length < ways then { s with l2 := s.l2.put set (rest ++ [x]) }
    else { s with l2 := s.l2.put set rest
                  l2Waits := s.l2Waits.filter (fun y => y.line != x.line) ++ [x] }

/-- An access reaches its home slice: a miss allocates the line and is counted (R171, R526). -/
def State.l2Touch (s : State) (pa : Nat) (stream : Bool) : State :=
  let s := s.l2Waiting (l2Set pa)
  let hit := s.l2Holds pa
  let s := s.tick.l2Enter pa (if stream && !hit then 0 else s.order + 1) hit
  if hit then s else s.countMiss pa

/-- Cycles of an access, by whether the home slice holds the line (R526). -/
def State.accessRow (s : State) (core pa : Nat) : Nat :=
  if s.l2Holds pa then sliceRow core pa else s.tierRow core pa

/-! ## Bytes -/

/-- The forwarding entry of a frame. -/
def State.forwardOf (s : State) (frame : Nat) : Option (Nat × Forward) :=
  [0, 1, 2].findSome? fun h => ((s.hub h).forwards.find? fun f => f.frm == frame).map fun f => (h, f)

/-- Where an access to a physical address goes while its frame moves: to a line that has been copied, or
to the frame it names (R174). -/
def State.routeRead (s : State) (pa : Nat) : Nat :=
  match s.forwardOf (pa / 65536) with
  | some (_, f) => if pa % 65536 / 128 < f.progress then f.into * 65536 + pa % 65536 else pa
  | none => pa

/-- The merged byte of a physical address, by whichever agent it is read (R174). (Log 1, DESIGN CHOICE.) -/
def State.memByte (s : State) (pa : Nat) : Byte := s.mem.get 0 (s.routeRead pa)

/-- Merged bytes from an address. -/
def State.merged (s : State) (pa n : Nat) : List Byte := (List.range' pa n).map s.memByte

def State.mergedNat (s : State) (pa n : Nat) : Nat := leNat (s.merged pa n)

/-- Put bytes into merged memory. -/
def memPut : List Byte → Nat → Tab Byte → Tab Byte
  | [], _, m => m
  | b :: bs, a, m => memPut bs (a + 1) (m.set 0 a b)

/-- Merged memory stands in its canonical form: addresses rise strictly, and no entry is 0, which an
unlisted address reads as (log 1). -/
def Memory.wf (m : Tab Byte) : Bool := m.canon 0

/-- A line holds an uncorrectable error (R472). (Log 68, DEDUCED.) -/
def State.poisoned (s : State) (pa n : Nat) : Bool :=
  let pa := s.routeRead pa
  s.poison.any fun l => pa / 128 ≤ l && l ≤ (pa + n - 1) / 128

/-- The byte a staged write holds for an address. -/
def Staged.byte (w : Staged) (pa : Nat) : Option Byte :=
  if w.addr ≤ pa then (w.bytes[pa - w.addr]?).join else none

/-- A staged write holds some byte of a range. -/
def Staged.touches (w : Staged) (pa n : Nat) : Bool :=
  (List.range' pa n).any fun a => (w.byte a).isSome

/-- Drop a staged write's bytes of a range. -/
def Staged.drop (w : Staged) (pa n : Nat) : Staged :=
  { w with bytes := w.bytes.mapIdx fun i b =>
      if pa ≤ w.addr + i ∧ w.addr + i < pa + n then none else b }

/-- Staged writes that still hold a byte. -/
def liveStaged (ws : List Staged) : List Staged := ws.filter fun w => w.bytes.any Option.isSome

/-- What watches a line is to be examined again: conditions (R406), queue waiters (R119), and launch
queues that wait for a completion slot (R128). -/
def State.notify (s : State) (pa n : Nat) : State :=
  let near := fun (a : Nat) => pa / 128 ≤ a / 128 && a / 128 ≤ (pa + n - 1) / 128
  let s := s.conds.foldl
    (fun s c => if c.mon && near c.pa then s.scheduleOnce (s.now + 1) (.monitorReevaluate (c.pa / 128)) else s) s
  let s := s.queueWaits.foldl
    (fun s q => if q.mon && near q.qpa then s.scheduleOnce s.now (.queueWaiterServe q.qpa) else s) s
  s.parts.foldl (fun s (p, x) =>
    (x.queues.filter near).foldl (fun s q => s.scheduleOnce (s.now + 1) (.completionReservation p q)) s) s

/-- A write merged as it is performed (R374: published at PACKAGE or wider): the bytes it covers in
earlier staged writes are dropped (R378), and a write of whole lines clears their poison (R472). -/
def State.writeMerged (s : State) (pa : Nat) (bs : List Byte) : State :=
  let pa := s.routeRead pa
  let n := bs.length
  let s := { s with
    mem := memPut bs pa s.mem
    staged := liveStaged (s.staged.map fun (w : Staged) => w.drop pa n)
    poison := if pa % 128 = 0 ∧ n % 128 = 0
      then s.poison.filter fun l => !(pa / 128 ≤ l && l < (pa + n) / 128) else s.poison }
  s.notify pa n

/-! ## Agents and visibility (R368, R372) -/

/-- Who reads at a home slice: a core with the team side it holds, an agent of a partition that is no
core (a hart), or an agent that sees what is merged. -/
inductive Viewer where
  | core (c : Nat)
  | part (p : Nat)
  | merged
  deriving DecidableEq, Repr

/-- A scope acted at by core a covers core c: each scope covers what the narrower ones cover (R368). -/
def State.covers (s : State) (scope a c : Nat) : Bool :=
  match scope with
  | 0 => a == c
  | 1 => a / 2 == c / 2
  | 2 => a / 8 == c / 8
  | 3 => a / 64 == c / 64
  | 4 => a / 64 == c / 64 || s.corePart a == s.corePart c
  | _ => true

/-- A write published at a scope by an acting core is published to core c: at PARTITION, to the cores of the
partition whose launch made it (R368). -/
def State.pubCovers (s : State) (w : Staged) (scope a c : Nat) : Bool :=
  if scope = 4 then a / 64 == c / 64 || (s.launch w.launch).part == s.corePart c else s.covers scope a c

/-- A staged write is visible to a viewer (R372, R389). -/
def State.sees (s : State) (v : Viewer) (w : Staged) : Bool :=
  match v with
  | .core c =>
    let d := (s.core c).sideD
    !w.hidden && (
      ((s.core c).side.isSome && w.launch == d.launch && w.team == d.team && w.side == d.side) ||
      (match w.pub with | some (sc, a) => s.pubCovers w sc a c | none => false))
  | .part p =>
    (match w.pub with | some (sc, _) => 4 ≤ sc | none => false) && (s.launch w.launch).part == p
  | .merged => false

/-- The latest visible byte in coherence order (R371, R372). -/
def State.viewByte (s : State) (v : Viewer) (pa : Nat) : Byte :=
  let pa := s.routeRead pa
  s.staged.foldl (fun b w => if s.sees v w then (w.byte pa).getD b else b) (s.mem.get 0 pa)

/-- The bytes that a read at the home slice returns. -/
def State.view (s : State) (v : Viewer) (pa n : Nat) : List Byte :=
  (List.range' pa n).map (s.viewByte v)

/-! ## Publication (R377 to R379) -/

/-- A write merged from staging: its bytes stand in memory, and earlier staged writes lose them. -/
def State.mergeOne (s : State) (w : Staged) : State :=
  let s := { s with
    mem := (w.bytes.mapIdx fun i b => (w.addr + i, b)).foldl
      (fun m (a, b) => match b with | some b => m.set 0 a b | none => m) s.mem
    staged := liveStaged ((s.staged.filter fun x => x.order != w.order).map fun x =>
      if x.order < w.order then
        { x with bytes := x.bytes.mapIdx fun i b =>
            if (w.byte (x.addr + i)).isSome then none else b }
      else x) }
  s

/-- Mark a write published at a scope below PACKAGE, unless it is already published as widely. -/
def Staged.mark (w : Staged) (scope acting : Nat) : Staged :=
  match w.pub with
  | some (sc, _) => if sc < scope then { w with pub := some (scope, acting) } else w
  | none => { w with pub := some (scope, acting) }

/-- Publish the staged writes that sel selects at a scope, for an acting core (R378). -/
def State.publishWhere (s : State) (scope acting : Nat) (sel : Staged → Bool) : State :=
  let ws := s.staged.filter sel
  let s :=
    if 5 ≤ scope then ws.foldl State.mergeOne s
    else { s with staged := s.staged.map fun w => if sel w then w.mark scope acting else w }
  ws.foldl (fun s w => s.notify w.addr w.bytes.length) s

/-- The writes of a thread's open phase (R376); a matrix operation's stores on the other side of a pair
are among them (R315). -/
def Staged.inPhase (w : Staged) (launch team index : Nat) : Bool :=
  w.launch == launch && w.team == team && w.mask.contains index

/-- The longest row of the slices that hold the writes (R379). -/
def rowsOf (core : Nat) (ws : List Staged) : Nat :=
  ws.foldl (fun m w => max m (sliceRow core w.addr)) 1

/-- The scope as executed under a ceiling, with SCOPE_DEMOTED of the partition counted (R370). -/
def State.demoteTo (s : State) (part ceil scope : Nat) : Nat × State :=
  if ceil < scope then (ceil, s.modPart part fun p => { p with demoted := p.demoted + 1 })
  else (scope, s)

/-- The ceiling of a core: a write of CEIL takes effect for launches admitted after it (R369, R515). -/
def State.ceilOf (s : State) (core : Nat) : Nat := (s.coreLaunch core).ceil

/-- The scope of a core's publication or acquire as executed (R370). -/
def State.demote (s : State) (core scope : Nat) : Nat × State := s.demoteTo (s.corePart core) (s.ceilOf core) scope

/-- The same of an agent that belongs to no launch. -/
def State.demotePart (s : State) (part scope : Nat) : Nat × State :=
  s.demoteTo part (s.part part).ceil.toNat scope

/-! ## Write-combining buffer (R391) -/

/-- A peer package takes a drained entry over: the model keeps no peer's memory, so the entry leaves
for the outside (log 8). -/
def State.drainWc (s : State) (core : Nat) (p : WcEntry → Bool) : State :=
  let c := s.core core
  let out := (c.wc.filter p).flatMap fun e => e.bytes.map fun (i, b) => (e.line * 128 + i, [b])
  { s.setCore core { c with wc := c.wc.filter fun e => !p e } with sends := s.sends ++ out }

/-- For POD and SYSTEM a publication drains the core's write-combining buffer, which takes the peer row (R379,
R391). -/
def State.drainFor (s : State) (core scope : Nat) : Nat × State :=
  if 6 ≤ scope then
    ((s.core core).wc.foldl (fun m e =>
      max m (s.peerRow core (e.line / 2 ^ 39 % 1024) (e.line % 2 ^ 39 * 128))) 0, s.drainWc core fun _ => true)
  else (0, s)

/-- A publication of a thread completes in a cycle, and after its earlier ones (R379). -/
def State.completePub (s : State) (core slot lane done : Nat) : State :=
  let s := s.tick
  let id := s.order
  let at_ := max (s.thread core slot lane).pubDone done
  let s := s.modThread core slot lane fun t => { t with pubDone := at_, pubs := t.pubs ++ [id] }
  s.schedule at_ (.publicationComplete core id)

/-- A thread publishes the staged writes that sel picks, at a scope (R377, R379). -/
def State.publishAs (s : State) (core slot lane scope : Nat) (sel : Staged → Bool) : State :=
  let rows := rowsOf core (s.staged.filter sel)
  let (drain, s) := (s.publishWhere scope core sel).drainFor core scope
  s.completePub core slot lane (s.now + rows + drain)

/-- Publish a thread's open phase at a scope (R377, R379). -/
def State.publishPhase (s : State) (core slot lane scope : Nat) : State :=
  let d := (s.core core).sideD
  let t := s.thread core slot lane
  s.publishAs core slot lane scope fun w => w.inPhase d.launch d.team t.index

/-- The slot and lane of a thread of the team side on a core, by its index. -/
def State.laneOf (s : State) (core index : Nat) : Option (Nat × Nat) :=
  (s.core core).groups.findSome? fun (k, g) =>
    (g.threads.find? fun (_, t) => t.index == index).map fun (l, _) => (k, l)

/-- Staging lines that a core holds (R386): distinct lines of its staged writes. -/
def State.stagingLines (s : State) (core : Nat) : Nat :=
  ((s.staged.filter fun w => w.core == core && !w.hidden).map fun w => w.addr / 128).eraseDups.length

/-- The oldest open phase of a core: the maker of its earliest staged write that lies in the maker's
own open phase (R386). -/
def State.oldestPhase (s : State) (core : Nat) : Option Staged :=
  s.staged.find? fun w => w.core == core && !w.hidden && w.mask.contains w.maker

/-- One early publication (R386). -/
def State.earlyPublish (s : State) (core : Nat) : State :=
  match s.oldestPhase core with
  | none => s
  | some w =>
    let part := (s.launch w.launch).part
    let d := (s.core core).sideD
    let sel := fun (x : Staged) => x.inPhase w.launch w.team w.maker
    let s := match if w.launch = d.launch ∧ w.team = d.team then s.laneOf core w.maker else none with
      | some (slot, lane) => s.publishAs core slot lane 5 sel
      | none => s.publishWhere 5 core sel
    s.modPart part fun p => { p with earlypub := p.earlypub + 1 }

/-- Early publications until the core holds fewer staging lines than a bound, or no open phase is left (R386). -/
def State.makeRoom (s : State) (core : Nat) (bound : Nat := 4096) : Nat → State
  | 0 => s
  | k + 1 =>
    if s.stagingLines core < bound ∨ (s.oldestPhase core).isNone then s
    else (s.earlyPublish core).makeRoom core bound k

/-- The core already holds a staging line for an address. -/
def State.hasStagingLine (s : State) (core pa : Nat) : Bool :=
  s.staged.any fun w => w.core == core && !w.hidden && w.addr / 128 == pa / 128

/-- A write that needs a new staging line finds the core's share full and no open phase left: it waits until a
line leaves staging (R386). -/
def State.stagingFull (s : State) (core pa : Nat) : Bool :=
  !s.hasStagingLine core (s.routeRead pa) && decide (4096 ≤ s.stagingLines core) && (s.oldestPhase core).isNone

/-- The L1 takes a store of its core, with the place of the write in coherence order (R327, R376, R383). -/
def Core.l1Store (c : Core) (pa : Nat) (bs : List Byte) (order : Nat) : Core :=
  { c with l1 := c.l1.map fun x =>
      if x.line = pa / 128 then
        { x with
          bytes := x.bytes.mapIdx fun i b => if pa % 128 ≤ i then (bs[i - pa % 128]?).getD b else b
          src := x.src.mapIdx fun i o =>
            if pa % 128 ≤ i ∧ i - pa % 128 < bs.length then order else o }
      else x }

def Core.l1Drop (c : Core) (pa : Nat) : Core :=
  { c with l1 := c.l1.filter fun x => x.line != pa / 128 }

/-- A tentative write of a core's team side, made by the thread with this index, or by a job for it
(R374). -/
def State.writeStagedBy (s : State) (core index job pa : Nat) (bs : List Byte) : State :=
  let pa := s.routeRead pa
  let s := if s.hasStagingLine core pa then s else s.makeRoom core 4096 4096
  let s := s.tick
  let d := (s.core core).sideD
  let w : Staged := { order := s.order, addr := pa, bytes := bs.map some, core := core,
                      launch := d.launch, team := d.team, side := d.side, maker := index,
                      mask := if job = 0 then [index] else [], pub := none, hidden := false,
                      job := job, tbl := false }
  let s := { s with staged := s.staged ++ [w] }
  let s := s.modCore core fun c => c.l1Store pa bs w.order
  s.notify pa bs.length

/-- A tentative write of a thread. -/
def State.writeStaged (s : State) (core index pa : Nat) (bs : List Byte) : State :=
  s.writeStagedBy core index 0 pa bs

/-! ## Translation (R157 to R160) -/

/-- Why a translation fails: invalid, or refused by R158 or R159. -/
inductive WalkFail where
  | invalid | refused
  deriving DecidableEq, Repr

/-- A leaf: where its entry stands, its entry, the first address it maps to and the bits it leaves to
the offset. -/
structure Leaf where
  pteAddr : Nat
  pte : Nat
  base : Nat
  bits : Nat
  deriving DecidableEq, Repr

def pteBit (pte k : Nat) : Bool := pte.testBit k

/-- Read an entry as a leaf of a level, checking its form. small: a plain 4 KiB leaf is accepted, as
for a hart; a device access refuses it (R158). (Log 25, PRESUMED.) -/
def leafOf (small : Bool) (addr pte level : Nat) : Except WalkFail Leaf :=
  let ppn := pte / 2 ^ 10 % 2 ^ 44
  if pte / 2 ^ 54 % 2 ^ 7 ≠ 0 ∨ pte / 2 ^ 61 % 4 = 3 then .error .invalid
  else if pteBit pte 63 then
    if level = 0 ∧ ppn % 16 = 8 then .ok ⟨addr, pte, (ppn / 16) * 2 ^ 16, 16⟩ else .error .invalid
  else if level = 0 ∧ !small then .error .refused
  else if ppn % 2 ^ (9 * level) ≠ 0 then .error .invalid
  else .ok ⟨addr, pte, ppn * 2 ^ 12, 12 + 9 * level⟩

/-- Walk a table from a level down. read gives an entry, or none where its own address has no
translation; idx is the index width of the first level. -/
def walkTable (small : Bool) (read : Nat → Option Nat) (va : Nat) : Nat → Nat → Nat → Except WalkFail Leaf
  | 0, _, _ => .error .invalid
  | k + 1, base, idx =>
    let addr := base + 8 * (va / 2 ^ (12 + 9 * k) % 2 ^ idx)
    match read addr with
    | none => .error .invalid
    | some pte =>
      if !pteBit pte 0 ∨ (!pteBit pte 1 ∧ pteBit pte 2) then .error .invalid
      else if pteBit pte 1 ∨ pteBit pte 3 then leafOf small addr pte k
      else if pte / 2 ^ 54 ≠ 0 ∨ pteBit pte 4 ∨ pteBit pte 6 ∨ pteBit pte 7 then .error .invalid
      else walkTable small read va k (pte / 2 ^ 10 % 2 ^ 44 * 2 ^ 12) 9

def Leaf.addr (l : Leaf) (va : Nat) : Nat := l.base + va % 2 ^ l.bits

/-- The addresses of the entries that a walk reads, down to its leaf. -/
def walkPath (read : Nat → Option Nat) (va : Nat) : Nat → Nat → Nat → List Nat
  | 0, _, _ => []
  | k + 1, base, idx =>
    let addr := base + 8 * (va / 2 ^ (12 + 9 * k) % 2 ^ idx)
    addr :: match read addr with
      | none => []
      | some pte =>
        if !pteBit pte 0 ∨ pteBit pte 1 ∨ pteBit pte 3 then []
        else walkPath read va k (pte / 2 ^ 10 % 2 ^ 44 * 2 ^ 12) 9

/-- Identifier of the address space of a captured DATP. -/
def asidOf (datp : DWord) : Nat := datp.toNat / 2 ^ 44 % 2 ^ 16

/-- The address through which a device walks to the NAPOT leaf of a 64 KiB page: the one through which the part
first took its translation, until it is invalidated (R158). -/
def State.viaNapot (s : State) (part : Nat) (two : Bool) (asid va : Nat) : Nat :=
  match (s.part part).napots.find? fun r => r.two == two && (two || r.asid == asid) && r.page == va / 65536 with
  | some r => va / 65536 * 65536 + r.idx * 4096
  | none => va

/-- The G-stage walk of a guest physical address: Sv57x4 (R157). (Log 26, PRESUMED.) -/
def State.walkG (s : State) (part gpa : Nat) (small : Bool := false) : Except WalkFail Leaf :=
  if 2 ^ 59 ≤ gpa then .error .invalid
  else walkTable small (fun a => some (s.mergedNat a 8)) (if small then gpa else s.viaNapot part true 0 gpa) 5
    ((s.part part).groot.toNat % 2 ^ 44 / 4 * 4 * 2 ^ 12) 11

/-- The physical address of a guest physical address that a table walk reads. -/
def State.gAddr (s : State) (part gpa : Nat) (small : Bool := false) : Option Nat :=
  match s.walkG part gpa small with
  | .ok l => if pteBit l.pte 4 && pteBit l.pte 1 then some (l.addr gpa) else none
  | .error _ => none

/-- What an access needs of its page (R159). -/
structure Need where
  r : Bool
  w : Bool
  x : Bool
  deriving DecidableEq, Repr

def Need.read : Need := ⟨true, false, false⟩
def Need.write : Need := ⟨false, true, false⟩
def Need.both : Need := ⟨true, true, false⟩
def Need.fetch : Need := ⟨false, false, true⟩
def Need.any : Need := ⟨false, false, false⟩

/-- A combined translation: the partition, the address space and the address, what they reach, the two entries,
and the guest physical addresses of the stage-one entries that the walk read. -/
structure Xlat where
  part : Nat
  asid : Nat
  va : Nat
  small : Bool
  path : List Nat
  pa : Nat
  gpa : Nat
  one : Leaf
  onePa : Nat
  two : Leaf
  r : Bool
  w : Bool
  x : Bool
  dirty : Bool
  deriving DecidableEq, Repr

/-- Translate a virtual address through both stages (R157, R158); datp is the captured root. -/
def State.xlate (s : State) (part : Nat) (datp : DWord) (va : Nat) (small : Bool := false) :
    Except WalkFail Xlat := do
  if va / 2 ^ 57 ≠ (if va.testBit 56 then 127 else 0) then .error .refused
  let read := fun a => (s.gAddr part a small).map fun p => s.mergedNat p 8
  let via := if small then va else s.viaNapot part false (asidOf datp) va
  let root := datp.toNat % 2 ^ 44 * 2 ^ 12
  let one ← walkTable small read (via % 2 ^ 57) 5 root 9
  let gpa := one.addr va
  let two ← s.walkG part gpa small
  let both := fun k => pteBit one.pte k && pteBit two.pte k
  let u := both 4
  .ok { part := part, asid := asidOf datp, va := va, small := small, path := walkPath read (via % 2 ^ 57) 5 root 9,
        pa := two.addr gpa, gpa := gpa, one := one, onePa := (s.gAddr part one.pteAddr small).getD 0,
        two := two, r := u && both 1, w := u && both 2, x := u && both 3, dirty := both 7 }

def Need.allows (n : Need) (r w x : Bool) : Bool := (!n.r || r) && (!n.w || w) && (!n.x || x)

/-- Set bits of an entry by an atomic update (R159). -/
def State.setPte (s : State) (pa pte mask : Nat) : State :=
  let v := pte ||| mask
  if v = pte then s else s.writeMerged pa (leBytes 8 v)

/-- The G-stage leaves through which a walk reached the stage-one entries: A is set, and D where the walk writes
the entry (R159). -/
def State.setTables (s : State) (x : Xlat) (mask : Nat) : State :=
  x.path.foldl (fun s a =>
    match s.walkG x.part a x.small with
    | .ok l =>
      let wrote := a == x.one.pteAddr && (x.one.pte ||| mask) != x.one.pte
      s.setPte l.pteAddr l.pte (if wrote then 2 ^ 6 + 2 ^ 7 else 2 ^ 6)
    | .error _ => s) s

/-- A device takes the translation of a NAPOT leaf through an address (R158). -/
def State.takeNapot (s : State) (x : Xlat) (two : Bool) (l : Leaf) (va : Nat) : State :=
  if x.small || l.bits != 16 || (s.part x.part).napots.any fun r =>
      r.two == two && (two || r.asid == x.asid) && r.page == va / 65536 then s
  else s.modPart x.part fun p => { p with napots := p.napots ++
    [{ two := two, asid := x.asid, page := va / 65536, frame := x.pa / 65536, idx := va / 4096 % 16 }] }

/-- An access uses a translation: A, and D for an access that writes, are set at both stages (R159). -/
def State.setAD (s : State) (x : Xlat) (write : Bool) : State :=
  let mask := if write then 2 ^ 6 + 2 ^ 7 else 2 ^ 6
  let s := (s.takeNapot x false x.one x.va).takeNapot x true x.two x.gpa
  ((s.setTables x mask).setPte x.onePa x.one.pte mask).setPte x.two.pteAddr x.two.pte mask

/-- The pool page range of a partition admits a physical address (R435). -/
def State.poolOk (s : State) (part pa : Nat) : Bool :=
  if poolStart ≤ pa then
    let p := s.part part
    let page := (pa - poolStart) / 65536
    p.poolValid && decide (p.poolBase ≤ page) && decide (page < p.poolLimit)
  else true

/-! ## Leases (R123, R125) -/

/-- Whether leases allow an access of a page. -/
def leasedBy (ls : List Lease) (page : Nat) (n : Need) : Bool :=
  let cov := ls.filter fun x => x.page ≤ page && page < x.page + x.count
  !cov.isEmpty &&
  (!(n.r || n.x) || cov.any fun x => x.kind != .wo) && (!n.w || cov.any fun x => x.kind != .ro)

/-- Whether the launch's leases allow an access of a page. -/
def Launch.leased (l : Launch) (page : Nat) (n : Need) : Bool := leasedBy l.leases page n

/-- A translation reaches the leased frame set (R177): a frame of it, or the frame that a remap has put behind one
of its guest pages. -/
def Launch.hasFrame (l : Launch) (x : Xlat) : Bool :=
  l.frames.any fun r =>
    (r.frame ≤ x.pa / 65536 && x.pa / 65536 < r.frame + r.count) ||
      (r.gpage ≤ x.gpa / 65536 && x.gpa / 65536 < r.gpage + r.count)

/-- Terminal fault codes (R449, R454). -/
def causeLeaseOut : Nat := 0x10
def causePerm : Nat := 0x11
def causePoison : Nat := 0x12
def causeFootprint : Nat := 0x13

/-- A 64-bit address that R157 accepts: bits [63:57] equal bit 56. -/
def canonical (va : Nat) : Bool := va / 2 ^ 57 == (if va.testBit 56 then 127 else 0)

/-- An address of the peer windows (R423). -/
def isWindow (va : Nat) : Bool := va / 2 ^ 56 == 255
/-- Package and offset of a window address (R423). -/
def windowPod (va : Nat) : Nat := va / 2 ^ 46 % 1024
def windowOff (va : Nat) : Nat := va % 2 ^ 46

/-- Where a checked global access goes: a physical address, or a peer's window. -/
inductive Target where
  | mem (pa : Nat)
  | peer (pod off : Nat)
  deriving DecidableEq, Repr

/-- The entry of PEERTAB for a paired peer (R424). -/
def Part.peer (p : Part) (pod : Nat) : Option PeerEntry := (p.peertab.find pod).filter (·.valid)

/-- The first step of R425 for the partition's own table; the package's own id is refused (R423). -/
def State.peerOk (s : State) (part pod : Nat) (n : Need) : Bool :=
  pod != s.pkgid.toNat % 1024 &&
  match (s.part part).peer pod with
  | some e => (!(n.r || n.x) || e.r) && (!n.w || e.w)
  | none => false

/-- Check a walk's result for an access: its permissions, the physical map and the pool range. -/
def State.checkXlat (s : State) (part : Nat) (n : Need) (x : Xlat) : Bool :=
  n.allows x.r x.w x.x && (tierOf x.pa).isSome && s.poolOk part x.pa

/-- An access of a launch at a virtual address, without a last-page register: canonical form, lease,
then translation (R323, R325, R334, R123, R160, R425). -/
def State.resolve (s : State) (launch : Nat) (va : Nat) (n : Need) : Except Nat (Target × State) :=
  let l := s.launch launch
  if !canonical va then .error causePerm
  else if !l.leased (va / 65536) n then .error causeLeaseOut
  else if isWindow va then
    if s.peerOk l.part (windowPod va) n then .ok (.peer (windowPod va) (windowOff va), s)
    else .error causePerm
  else
    match s.xlate l.part l.datp va with
    | .error _ => .error causePerm
    | .ok x =>
      if !s.checkXlat l.part n x then .error causePerm
      else if !l.hasFrame x then .error causeLeaseOut
      else .ok (.mem x.pa, s.setAD x n.w)

/-- Key of a lane's last-page register. -/
def laneKey (slot lane : Nat) : Nat := slot * 64 + lane

/-- An access of a lane: a hit in its last-page register is served by it; a miss refills it (R161). (Log 29, DESIGN CHOICE.) -/
def State.resolveLane (s : State) (core slot lane : Nat) (va : Nat) (n : Need) :
    Except Nat (Target × State) :=
  let launch := (s.core core).sideD.launch
  let l := s.launch launch
  if !canonical va then .error causePerm
  else if !l.leased (va / 65536) n then .error causeLeaseOut
  else if isWindow va then s.resolve launch va n
  else
    match ((s.core core).lastPage.find (laneKey slot lane)).filter fun r =>
        r.vpage == va / 65536 && r.part == l.part && (!n.w || r.dirty) with
    | some r =>
      if n.allows r.r r.w r.x then .ok (.mem (r.frame * 65536 + va % 65536), s)
      else .error causePerm
    | none =>
      match s.xlate l.part l.datp va with
      | .error _ => .error causePerm
      | .ok x =>
        if !s.checkXlat l.part n x then .error causePerm
        else if !l.hasFrame x then .error causeLeaseOut
        else
          let s := s.setAD x n.w
          let r : LastPage := { vpage := va / 65536, frame := x.pa / 65536, gpage := x.gpa / 65536,
                                asid := asidOf l.datp, r := x.r, w := x.w, x := x.x,
                                dirty := x.dirty || n.w, key := s.keyOf x.pa, part := l.part }
          .ok (.mem x.pa, s.modCore core fun c =>
            { c with lastPage := c.lastPage.put (laneKey slot lane) r })

/-! ## Migration and handover routing (R174, R175, R178) -/

/-- Where a write goes while its frame moves: to an address, or stalled in a hub's window (R174). -/
inductive Route where
  | at_ (pa : Nat)
  | stall (hub : Nat)
  deriving DecidableEq, Repr

/-- A reading of the model: log 32, DEDUCED. -/
def State.routeWrite (s : State) (pa : Nat) : Route :=
  match s.forwardOf (pa / 65536) with
  | some (h, f) =>
    if pa % 65536 / 128 < f.progress then .at_ (f.into * 65536 + pa % 65536)
    else if pa % 65536 / 128 = f.progress then .stall h
    else .at_ pa
  | none => .at_ pa

/-! ## The L1 and loads (R327, R372, R376, R383) -/

/-- L1 granules of the partition word in force (R137). -/
def Core.l1Granules (c : Core) : Nat := (c.pword.getD 0).toNat / 2 ^ 18 % 64
def Core.accGranules (c : Core) : Nat := (c.pword.getD 0).toNat / 2 ^ 12 % 64
def Core.spGranules (c : Core) : Nat := (c.pword.getD 0).toNat / 2 ^ 6 % 64
def Core.rfGranules (c : Core) : Nat := (c.pword.getD 0).toNat % 64

/-- Drop the line of an L1 set that is least recently used. -/
def l1Evict (set sets : Nat) (ls : List L1Line) : List L1Line :=
  let mine := ls.filter fun x => x.line % sets == set
  if mine.length < 4 then ls
  else
    match mine with
    | [] => ls
    | x :: t =>
      let v := t.foldl (fun m y => if y.used < m.used then y else m) x
      ls.filter fun y => y.line != v.line

/-- The staged write that gives a core a byte, by its place in coherence order; 0 where the byte is merged
(R371, R376). -/
def State.sourceOf (s : State) (core pa : Nat) : Nat :=
  let pa := s.routeRead pa
  s.staged.foldl (fun o w => if s.sees (.core core) w && (w.byte pa).isSome then w.order else o) 0

/-- Fill a line of the L1 with the bytes its core sees (R327); a line with an uncorrectable error, or of a pool
page that the package does not own (R178), is not kept. -/
def State.l1Fill (s : State) (core pa : Nat) (stream : Bool) : State :=
  let c := s.core core
  let sets := c.l1Granules * 32
  if sets = 0 || s.poisoned (pa / 128 * 128) 128 || s.needsHandover pa then s
  else
    let s := s.tick
    let line := pa / 128
    let x : L1Line := { line := line, key := s.keyOf pa, filled := s.now, order := s.order,
                        used := if stream then 0 else s.order,
                        bytes := s.view (.core core) (line * 128) 128
                        src := (List.range' (line * 128) 128).map (s.sourceOf core) }
    let rest := l1Evict (line % sets) sets (c.l1.filter fun y => y.line != line)
    (s.setCore core { c with l1 := rest ++ [x] }).schedule (s.now + 16384)
      (.l1LineExpiry core line s.now)

/-- The line is one that an operation has named as a queue's descriptor (R111, log 6). -/
def State.isQueueLine (s : State) (line : Nat) : Bool := s.parts.any fun p => p.2.queues.contains line

/-- The line of the L1 that serves a thread's load: present, of its key, and filled since the thread's
last acquire (R327, R380). -/
def Core.l1Hit (c : Core) (key since pa : Nat) : Option L1Line :=
  if c.l1Granules = 0 then none
  else c.l1.find? fun x => x.line == pa / 128 && x.key == key && since ≤ x.order

/-- A thread joins the tentative writes of its core that gave it bytes, by their places in coherence order
(R376). -/
def State.joinPhase (s : State) (core index : Nat) (from_ : List Nat) : State :=
  let d := (s.core core).sideD
  let own := fun (w : Staged) => w.launch == d.launch && w.team == d.team && w.side == d.side
  { s with staged := s.staged.map fun w =>
      if own w ∧ w.pub = none ∧ from_.contains w.order then
        { w with mask := insertNat index w.mask }
      else w }

/-- The L1 line that serves a lane's load of a physical address; a load of a descriptor reads it at its home slice
(R111). -/
def State.l1Serves (s : State) (core slot lane pa : Nat) : Option L1Line :=
  let p := s.routeRead pa
  if s.isQueueLine (p / 128 * 128) then none
  else (s.core core).l1Hit (s.keyOf p) (s.thread core slot lane).l1since p

/-- The bytes a thread's load returns from the home slice, and from a line of the L1 (R333, R372, R383), with the
phase joined. A line's one request fills it (R327, R328): that of its first lane. -/
def State.loadHome (s : State) (core slot lane pa n : Nat) (stream first : Bool) : List Byte × State :=
  let t := s.thread core slot lane
  let p := s.routeRead pa
  let bs := s.view (.core core) p n
  let src := (List.range' p n).map (s.sourceOf core)
  let s := if first then (s.l2Touch p stream).l1Fill core p stream else s
  (bs, s.joinPhase core t.index src)

def State.loadL1 (s : State) (core slot lane pa n : Nat) (x : L1Line) : List Byte × State :=
  let t := s.thread core slot lane
  let p := s.routeRead pa
  let s := s.tick
  let s := s.modCore core fun c => { c with l1 := c.l1.map fun y =>
    if y.line = x.line then { y with used := s.order } else y }
  ((x.bytes.drop (p % 128)).take n, s.joinPhase core t.index ((x.src.drop (p % 128)).take n))

/-- An acquire of a thread at a scope: for PAIR or wider its L1 view is cleared (R380). -/
def State.acquire (s : State) (core slot lane scope : Nat) : State :=
  if scope = 0 then s
  else
    let s := s.tick
    s.modThread core slot lane fun t => { t with l1since := s.order }

/-! ## Ports (R328, R329) -/

def PortState.zero : PortState := ⟨0, []⟩

/-- Request slots for n requests of an instruction with effective issue e, q per cycle: the cycle in
which each leaves, and the port afterwards. -/
def PortState.take (p : PortState) (q e n now : Nat) : List Nat × PortState :=
  let first := max p.free ((e + 1) * q)
  let outs := (List.range n).map fun i => (first + i) / q
  (outs, { free := first + n
           leaves := (p.leaves.filter fun c => now < c) ++ (outs.getLast?.map fun c => [c]).getD [] })

/-- A port has room for one more instruction (R328). -/
def PortState.room (p : PortState) (now : Nat) : Bool := (p.leaves.filter fun c => now < c).length < 8

/-- The home issue domain of a slot (R231). -/
def domainOf (width slot : Nat) : Nat := slot % (64 / width)

/-- Take requests on the global port of a slot's domain. -/
def State.takeGlobal (s : State) (core slot e n : Nat) : List Nat × State :=
  let c := s.core core
  let w := (c.group slot).width
  let d := domainOf w slot
  let (outs, p) := (c.gport.get PortState.zero d).take (w / 16) e n s.now
  (outs, s.setCore core { c with gport := c.gport.put d p })

/-- Occupy the scratchpad port of a slot's domain for n cycles: the cycles it is held (R329). -/
def State.takeScratch (s : State) (core slot e n : Nat) : List Nat × State :=
  let c := s.core core
  let d := domainOf (c.group slot).width slot
  let (outs, p) := (c.sport.get PortState.zero d).take 1 e n s.now
  (outs, s.setCore core { c with sport := c.sport.put d p })

/-! ## Variable-latency results (R218, R223) -/

/-- Put a lane's destination on the scoreboard. -/
def State.pend (s : State) (core slot lane : Nat) (dst : Opnd) (n tag : Nat) (ord : Bool) : State :=
  match dst with
  | .v r _ => s.modCore core fun c =>
      { c with vres := c.vres ++ [⟨none, tag, slot, lane, r.toNat, n, [], none, ord⟩] }
  | _ => s

/-- The result of a pending destination becomes known, due in a cycle. acq is the scope of a job whose
status it is. -/
def State.deliver (s : State) (core slot lane tag due : Nat) (vals : List Word)
    (acq : Option Nat := none) : State :=
  let s := s.modCore core fun c => { c with vres := c.vres.map fun v =>
    if v.slot = slot ∧ v.lane = lane ∧ v.tag = tag then
      { v with due := some (max due s.now), vals := vals, acq := acq } else v }
  s.scheduleOnce due (.fillBufferWrite core)

/-- Words of a number. -/
def natWords (n v : Nat) : List Word := (List.range n).map fun i => BitVec.ofNat 32 (v / 2 ^ (32 * i))

end Sys2Proof.Machine
end

