-- ==== Sys2Proof/Machine/Groups.lean ====
section
/-! DEFINITION. Groups in their states (R146 to R148, R225): entering and leaving the active set, blocking
and waking, invalidation, and stopping at a safe point (R229, R455). -/

namespace Sys2Proof.Machine

/-! ## The active set -/

/-- Largest active set of a domain (R147, R231). -/
def activeMax (width : Nat) : Nat := 4 * (width / 16)

/-- Slots of a core's groups in a domain and a state. -/
def Core.slotsIn (c : Core) (dom : Nat) (st : GState) : List Nat :=
  (c.groups.filter fun (k, g) => g.st == st && domainOf g.width k == dom).map (·.1)

/-- The group becomes Ready (R146). -/
def State.makeReady (s : State) (core slot at_ : Nat) : State :=
  let g := (s.core core).group slot
  let s := s.modGroup core slot fun g => { g with st := .ready, since := max at_ s.now }
  s.scheduleOnce at_ (.activeSetEntry core (domainOf g.width slot))

/-- The Ready group that became Ready first, the lower slot on a tie (R147). -/
def Core.nextReady (c : Core) (dom now : Nat) : Option Nat :=
  ((c.slotsIn dom .ready).filter fun k => (c.group k).since ≤ now).foldl
    (fun best k =>
      match best with
      | none => some k
      | some b => if (c.group k).since < (c.group b).since then some k else some b) none

/-- A group enters the active set: first choice one cycle later (R147, R232). -/
def Group.enter (g : Group) (now : Nat) : Group :=
  { g with st := .active, entered := now, earliest := max g.earliest (now + 1), age := Age.zero }

/-- Let Ready groups in while the domain has places (R147). -/
def Core.fillActive (c : Core) (dom now : Nat) : Nat → Core
  | 0 => c
  | k + 1 =>
    match c.nextReady dom now with
    | none => c
    | some slot =>
      if (c.slotsIn dom .active).length < activeMax (c.group slot).width then
        (c.modGroup slot fun g => g.enter now).fillActive dom now k
      else c

/-- ACTIVE_SET_ENTRY (R147). -/
def State.activeSetEntry (s : State) (core dom : Nat) : State :=
  let c := (s.core core).settle s.now
  let c := { c with groups := c.groups.map fun (k, (g : Group)) => (k, g.rouse s.now) }.fillActive dom s.now 64
  let s := s.setCore core c
  if (c.slotsIn dom .active).isEmpty then s
  else s.scheduleOnce (s.now + 1) (.issueSelection core dom)

/-! ## Leaving it (R146, R225) -/

/-- Clear every thread's C slots and latches at the issue's effective cycle, and move the group to a
state (R146, R225). -/
def Ctx.leaveLandings (x : Ctx) (st : GState) : List Landing :=
  ((x.raw.group x.slot).threads.map fun (l, _) => x.landing x.e l (.clear x.tag)) ++
    [x.landing x.e 0 (.group st)]

/-- The place a group leaves is free from the next cycle (R209). (Log 30, DEDUCED.) -/
def State.freePlace (s : State) (x : Ctx) : State :=
  s.scheduleOnce (x.e + 1)
    (.activeSetEntry x.core (domainOf (x.raw.group x.slot).width x.slot))

/-- A Blocked group that nothing holds any more becomes Ready in a cycle, and is Blocked till then (R146). -/
def State.wakeGroup (s : State) (core slot at_ : Nat) : State :=
  let g := (s.core core).group slot
  if g.st = .blocked ∧ !g.isHeld then
    (s.modGroup core slot fun g => { g with earliest := max g.earliest at_ }).scheduleOnce at_
      (.activeSetEntry core (domainOf g.width slot))
  else s

/-- What a waiting lane keeps of its instruction: the registers of its dead marks are those that the
instruction vacates, and that a withdrawal of it gives back. -/
def Ctx.await (x : Ctx) (lane : Nat) (block : Bool) : Await :=
  ⟨x.e, x.stall, x.pc, x.nextPc,
    (deadRegs x.sh x.f).filter fun n => !((x.thread lane).v.get VReg.empty n).vac, block⟩

/-- Finish an issue in which lanes come to wait. At a deschedule point their PCs stay at the instruction;
a thread that only waits for an answer holds the next address already (R191) and is not ready. Their
dead marks take effect at e like those of any lane (R228). (Log 66, DEDUCED.) -/
def State.finishWait (s : State) (x : Ctx) (ts : List LaneTrap) (waits : List (Nat × Wait))
    (block : Bool) (ls : List Landing) : State :=
  let go := x.lanes.filter fun l => !(ts.any fun t => t.lane == l)
  let ok := go.filter fun l => !(waits.any fun w => w.1 == l)
  let s := s.passLanes x ok
  let s := s.modGroup x.core x.slot fun g =>
    waits.foldl (fun g (l, w) => g.modThread l fun t =>
      { t with
        wait := w, await := some (x.await l block), next := x.nextIssue
        pc := if w == .answer && !block then x.nextPc else x.pc }) g
  let s := s.raise x ts
  s.addLandings x.core (x.deadLandings go ++ ls)

/-- Due pigeonholes of a core try again to launch (R154). -/
def State.pokeDue (s : State) (core at_ : Nat) : State :=
  if (s.core core).sideD.holes.any fun h => h.2.st == .due then s.scheduleOnce at_ (.pigeonholeLaunch core) else s

/-- A blocking instruction with an active lane: its group is Blocked from e, and its levels are invalid (R146,
R225). Where no lane comes to wait, it becomes Ready in the next cycle. -/
def State.blockGroup (s : State) (x : Ctx) : State :=
  if x.actives.isEmpty then s
  else
    let s := (s.addLandings x.core (x.leaveLandings .blocked)).modCore x.core fun c => c.settle x.e
    -- a pigeonhole that wants a slot or contexts may take those of the group (R148)
    ((s.freePlace x).wakeGroup x.core x.slot (x.e + 1)).pokeDue x.core x.e

/-- A lane's wait ends: its PC moves past the instruction, and it issues again no earlier than the
cycle given. -/
def Thread.endWait (t : Thread) (at_ : Nat) : Thread :=
  match t.await with
  | some a =>
    { t with pc := a.npc, wait := .none, await := none, next := max t.next at_ }
  | none => { t with wait := .none, next := max t.next at_ }

/-- Registers that a dead mark has vacated hold their values again. -/
def Thread.unvacate (t : Thread) (regs : List Nat) : Thread :=
  { t with v := regs.foldl (fun v n => v.put n { v.get VReg.empty n with vac := false }) t.v }

/-- A lane's wait is withdrawn: it stands at its instruction and executes it again (R120, R407), with the
sources it had. (Log 66, DEDUCED.) -/
def Thread.withdraw (t : Thread) : Thread :=
  match t.await with
  | some a => { t.unvacate a.dead with pc := a.pc, wait := .none, await := none }
  | none => { t with wait := .none }

/-! ## Safe points (R38, R229, R455) -/

/-- The safe-point entry of an address (R38): its OFFSET is taken from the launch's entry address, where the
text of R123 begins. (Log 70, DEDUCED.) -/
def Launch.safePoint (l : Launch) (pc : DWord) : Option (List Byte) :=
  let off := (pc - l.env.entry).toNat
  (l.safepoints.find? fun e => e.1 == off).map (·.2)

/-- VLIVE, GLIVE and PLIVE of an entry. -/
def spVlive (e : List Byte) : BitVec 128 := BitVec.ofNat 128 (leNat ((e.drop 4).take 16))
def spGlive (e : List Byte) : BitVec 64 := BitVec.ofNat 64 (leNat ((e.drop 20).take 8))
def spPlive (e : List Byte) : BitVec 7 := BitVec.ofNat 7 (leNat ((e.drop 28).take 1))

/-- The registers of the launch that an entry vacates (R229). -/
def deadAt (regs : Nat) (e : List Byte) : List Nat :=
  (List.range regs).filter fun n => !(spVlive e).getLsbD n

/-- A stop of every thread of the core's team is pending (R455, R487). -/
def State.stopPending (s : State) (core : Nat) : Bool :=
  match s.coreTeam core with
  | some t => t.stopping || t.cancel
  | none => false

/-- A thread leaves at an instruction's safe-point entry: the vacating of R229 is applied. -/
def Thread.atSafe (t : Thread) (regs : Nat) (entry : Option (List Byte)) : Thread :=
  match entry with
  | some e => { t.vacate (deadAt regs e) with plive := spPlive e }
  | none => t

/-- A thread stops at an instruction (R455): its PC stays. -/
def Thread.stopAt (t : Thread) (regs : Nat) (entry : Option (List Byte)) : Thread :=
  { t.atSafe regs entry with stopped := true }

/-- The G registers that an entry keeps; all of them where there is none. -/
def gliveOf (entry : Option (List Byte)) : BitVec 64 :=
  match entry with | some e => spGlive e | none => BitVec.allOnes 64

/-- The group as a save keeps it: the G registers and predicates of the masks of its safe points, the others
0 (R229). -/
def Group.kept (g : Group) : Group :=
  { g.modAll (fun t => { t with p := t.p &&& t.plive, plive := BitVec.allOnes 7 }) with
    g := g.g.filter fun r => g.glive.getLsbD r.1 }

/-- Every thread of the group has stopped or exited (R455). -/
def Group.allStopped (g : Group) : Bool := g.threads.all fun (_, t) => t.stopped || t.exited

/-- A group whose live threads have all stopped leaves for Saved, or Retired when cancelled: its C slots
and latches become invalid (R146, R225), except under a forced save (R457). -/
def Group.settleStop (g : Group) (ctx : Nat) (cancel forced : Bool) : Group :=
  { g.modAll (fun t => if forced then t else { t with lv := Level.empty ctx }) with st := if cancel then .retired else .saved }

/-- Stop lanes of a group at their instruction. When every live thread has stopped, the group leaves,
and the save or the retirement of its team is looked at. (Log 31, DEDUCED.) -/
def State.stopLanes (s : State) (core slot : Nat) (lanes : List Nat) (entry : Option (List Byte)) :
    State :=
  let regs := (s.coreLaunch core).env.regs
  let s := s.modGroup core slot fun g =>
    let g := lanes.foldl (fun g l => g.modThread l fun t => t.stopAt regs entry) g
    { g with glive := g.glive ||| gliveOf entry }
  let g := (s.core core).group slot
  if g.allStopped then
    let s := s.tick
    let cancel := (s.coreTeam core).any (·.cancel)
    let forced := (s.coreTeam core).any (·.forced)
    let k := s.order
    let s := s.modGroup core slot fun g => g.settleStop k cancel forced
    let s := s.scheduleOnce (s.now + 1) (.activeSetEntry core (domainOf g.width slot))
    match s.coreTeam core with
    | some t =>
      if cancel then s.scheduleOnce s.now (.siblingRetire t.launch t.index)
      else s.scheduleOnce s.now (.teamSave t.launch t.index)
    | none => s
  else s

end Sys2Proof.Machine
end

