-- ==== Sys2Proof/Machine/Issue.lean ====
section
/-! DEFINITION. Fetch and issue (R191 to R202, R231, R232): which thread is ready, which group, path or
lone thread issues, and how its instruction is fetched and decoded. -/

namespace Sys2Proof.Machine

/-! ## Instruction cache and fetch (R196, R202, R338) -/

/-- A staged write that a fetch of a core sees: published at a scope that covers it (R338). -/
def State.fetchSees (s : State) (core : Nat) (w : Staged) : Bool :=
  !w.hidden && (match w.pub with | some (sc, a) => s.pubCovers w sc a core | none => false)

/-- The bytes of a line as a fill of the instruction cache sees them (R338). -/
def State.fetchView (s : State) (core pa n : Nat) : List Byte :=
  (List.range' pa n).map fun a =>
    s.staged.foldl (fun b w => if s.fetchSees core w then (w.byte a).getD b else b) (s.memByte a)

/-- What reading one line for a fetch comes to. -/
inductive LineRes where
  | fault (cause : Nat)
  | miss (pa : Nat)
  | ok (bytes : List Byte)
  deriving DecidableEq, Repr

/-- The line that holds an address, from the instruction cache. Fetch is a read under R123 that needs X
under R159; a window cannot be fetched from. -/
def State.fetchLine (s : State) (core : Nat) (va : Nat) : LineRes :=
  match s.resolve (s.core core).sideD.launch va Need.fetch with
  | .error c => .fault c
  | .ok (.peer _ _, _) => .fault causePerm
  | .ok (.mem pa, _) =>
    let pa := s.routeRead pa
    match (s.core core).icache.find? fun l => l.line == pa / 128 && l.key == s.keyOf pa with
    | some l => .ok (l.bytes.drop (pa % 128))
    | none => if s.poisoned (pa / 128 * 128) 128 then .fault causePoison else .miss pa

/-- What a fetch comes to: a fault with its address, a miss of a line, or the instruction's bytes. -/
inductive FetchRes where
  | fault (cause : Nat) (addr : DWord)
  | miss (pa : Nat)
  | ok (bytes : List Byte)
  deriving DecidableEq, Repr

/-- Fetch the instruction at an address; one that crosses a line takes each part from its own line
(R49, R338). -/
def State.fetchAt (s : State) (core : Nat) (pc : DWord) : FetchRes :=
  match s.fetchLine core pc.toNat with
  | .fault c => .fault c pc
  | .miss pa => .miss pa
  | .ok bs =>
    let len := insnLength (bs.headD 0)
    if len ≤ bs.length then .ok (bs.take len)
    else
      let next := pc + BitVec.ofNat 64 bs.length
      match s.fetchLine core next.toNat with
      | .fault c => .fault c next
      | .miss pa => .miss pa
      | .ok more => .ok ((bs ++ more).take len)

/-- The bytes from an address to the end of its line, as they are or will be fetched. -/
def State.lineSeen (s : State) (core : Nat) (va : Nat) : Option (List Byte) :=
  match s.fetchLine core va with
  | .fault _ => none
  | .miss pa => some (s.fetchView core pa (128 - pa % 128))
  | .ok bs => some bs

/-- The instruction's bytes at an address, whether its lines are cached or not. -/
def State.seenAt (s : State) (core : Nat) (pc : DWord) : Option (List Byte) :=
  (s.lineSeen core pc.toNat).bind fun bs =>
    let len := insnLength (bs.headD 0)
    if len ≤ bs.length then some (bs.take len)
    else (s.lineSeen core (pc + BitVec.ofNat 64 bs.length).toNat).map fun more => (bs ++ more).take len

/-- A line enters the instruction cache: 128 sets of 4 ways (R196). (Log 28, DEDUCED.) -/
def State.icacheFill (s : State) (core line : Nat) : State :=
  let s := s.tick
  let bs := s.fetchView core (line * 128) 128
  let s := s.l2Touch (line * 128) false
  s.modCore core fun c =>
    let rest := c.icache.filter fun l => l.line != line
    let mine := rest.filter fun l => l.line % 128 == line % 128
    let rest :=
      if mine.length < 4 then rest
      else
        let v := mine.foldl (fun m l => if l.used < m then l.used else m) s.order
        rest.filter fun l => !(l.line % 128 == line % 128 && l.used == v)
    { c with icache := rest ++ [⟨line, s.keyOf (line * 128), s.order, bs⟩] }

/-! ## Readiness (R192, R223, R328) -/

/-- The instruction that stands at an address (R192); none where its fetch or its decoding raises a cause. -/
def State.peek (s : State) (core : Nat) (pc : DWord) : Option Instr :=
  (s.seenAt core pc).bind fun bs => match decode bs with | .ok i _ => some i | _ => none

/-- A register of a lane waits on the scoreboard. -/
def Core.waitsOn (c : Core) (slot lane r : Nat) : Bool :=
  c.vres.any fun v => v.slot == slot && v.lane == lane && v.reg ≤ r && r < v.reg + v.n

/-- A predicate of a lane has a write that has not landed (R223). -/
def Core.predPending (c : Core) (slot lane : Nat) (n : BitVec 3) : Bool :=
  n != 7 && c.landings.any fun l =>
    l.slot == slot && l.lane == lane &&
      (match l.op with | .p m _ => m.getLsbD n.toNat | _ => false)

/-- The predicates an instruction reads; PMOV in both forms delivers them all (R252). (Log 71, DEDUCED.) -/
def predSources (i : Instr) : List (BitVec 3) :=
  let f := i.fields
  let of := fun o => match o with | Opnd.p n _ => [n] | _ => []
  f.pred :: (of f.a ++ of f.b ++ of f.c ++
    (match i with | .pmovPv _ | .pmovVp _ => [0, 1, 2, 3, 4, 5, 6] | _ => []))

/-- Everything of the thread that an acquire waits for has returned (R380). -/
def State.loadsBack (s : State) (core slot lane : Nat) : Bool :=
  let c := s.core core
  (c.thread slot lane).loadsDone ≤ s.now &&
    !(c.vres.any fun v => v.slot == slot && v.lane == lane && v.ord && v.due.isNone) &&
    !(s.held.any fun h => h.core == core && h.slot == slot && h.lane == lane && h.op.moves && !h.op.isStore)

/-- MSTACC or MPACK that a thread's signature completed has still to write, on either side of a pair (R315). -/
def State.engineWrites (s : State) (core index : Nat) : Bool :=
  s.cores.any fun (k, c) => (k == core || k == pairOf core) &&
    c.sideD.launch == (s.core core).sideD.launch && c.sideD.team == (s.core core).sideD.team &&
    c.engine.any fun v => v.kind.writes && v.ended.isNone && v.thread == index

/-- A store of the thread is held (R450), or the engine has still to write for it (R315): a publication of the
thread follows it (R379). (Log 33, DEDUCED.) -/
def State.heldStore (s : State) (core slot lane : Nat) : Bool :=
  (s.held.any fun h => h.core == core && h.slot == slot && h.lane == lane && h.op.isStore) ||
    s.engineWrites core (s.thread core slot lane).index

/-- The register holds a job's status that the thread has not read yet (R380). -/
def Thread.acqOf (t : Thread) (r : Nat) : Option Nat :=
  match t.acqs.find r with
  | some (tag, sc) => if (t.v.get VReg.empty r).tag = tag then some sc else none
  | none => none

/-- An instruction that queues on the global port (R328). -/
def usesGlobal : Instr → Bool
  | .ldW32 _ | .ld _ | .stW32 _ | .st _ | .pref _ | .cctlWb _ | .cctlInv _ | .cctlWbinv _
  | .icinv _ => true
  | _ => false

/-- An instruction that queues on the scratchpad port (R328). -/
def usesScratch : Instr → Bool
  | .ldsW32 _ | .lds _ | .stsW32 _ | .sts _ | .ldx _ | .stx _ => true
  | _ => false

/-- A courier job instruction (R345, R365). -/
def isJob : Instr → Bool
  | .xcopy _ | .xfill _ | .xgath _ | .xappk _ | .xseal _ => true
  | _ => false

/-- An instruction that publishes its threads' open phases (R377). -/
def publishes (i : Instr) : Bool :=
  match i with
  | .phasePub _ | .phaseFull _ | .last _ | .syscall _ | .enq _ | .exit _ | .cctlWb _ | .cctlWbinv _ => true
  | .atom _ _ f | .acas _ f | .atoms _ _ f | .atomx _ _ f | .red _ _ f => f.mod.getLsbD 4
  | .xpoolFill _ | .xpoolCopy _ | .xpoolCmp _ | .xpoolReduce _ => true
  | i => isJob i

/-- An instruction that follows the thread's earlier stores: a publication (R379), or ICINV (R339). -/
def followsStores : Instr → Bool
  | .icinv _ => true
  | i => publishes i

/-- A thread has work of R479 outstanding. -/
def State.outstanding (s : State) (core slot lane : Nat) : Bool :=
  let c := s.core core
  let t := c.thread slot lane
  s.now < t.storesDone || s.now < t.pubDone || !t.pubs.isEmpty || s.now < t.workDone ||
    (c.wc.any fun e => e.makers.contains t.index) ||
    (c.jobs.any fun j => j.thread == t.index) || (s.tableWaits.any fun w => w.core == core && w.thread == t.index) ||
    (s.pinOps.any fun o => o.kind != .hint && o.left.isNone && o.launch == c.sideD.launch && o.team == c.sideD.team &&
      o.thread == t.index) ||
    (s.poolOps.any fun o => !o.posted && o.launch == c.sideD.launch && o.team == c.sideD.team && o.thread == t.index) ||
    s.engineWrites core t.index ||
    (s.held.any fun h => h.core == core && h.slot == slot && h.lane == lane)

/-- An EXIT of the thread has a publication to make (R477). -/
def State.hasPhase (s : State) (core slot lane : Nat) : Bool :=
  let d := (s.core core).sideD
  let i := (s.thread core slot lane).index
  s.staged.any fun w => w.inPhase d.launch d.team i

/-- An EXIT of the thread needs a tracker entry (R478). -/
def State.leavesWork (s : State) (core slot lane : Nat) : Bool :=
  s.outstanding core slot lane || s.hasPhase core slot lane

/-- What an instruction asks of its thread beyond its operands: room on its port (R328), the stores of
an IFENCE (R340), the loads of an acquire (R380), room in the courier window (R347), a tracker entry
(R478). -/
def State.insnReady (s : State) (core slot lane : Nat) (i : Instr) : Bool :=
  let c := s.core core
  let t := c.thread slot lane
  let f := i.fields
  let d := domainOf (c.group slot).width slot
  let act := t.pred f.pred f.neg
  if usesGlobal i then (c.gport.get PortState.zero d).room s.now
  else if usesScratch i then (c.sport.get PortState.zero d).room s.now
  else if isJob i then !act || c.jobs.length < 32
  else
    match i with
    | .ifence _ => !act || (t.storesDone ≤ s.now && !(s.heldStore core slot lane))
    | .phaseSnap _ => !act || s.loadsBack core slot lane
    | .phaseFull _ => !act || s.loadsBack core slot lane
    | .exit _ =>
      !act || !(s.leavesWork core slot lane) || c.tracker.any (fun e => e.slot == slot && e.born == (c.group slot).born) ||
        c.tracker.length < 8
    | _ => true

/-- A broadcast issue of the lane waits for its line (R196). -/
def Core.fetchingLane (c : Core) (slot lane : Nat) : Bool :=
  c.fetching.any fun (_, u) => u.slot == slot && u.lanes.contains lane

/-- A thread is ready (R192): its delays have elapsed, it waits for nothing, and no operand of the
instruction at its PC is pending. -/
def State.threadReady (s : State) (core slot lane : Nat) (insn : Option Instr) : Bool :=
  let c := s.core core
  let t := c.thread slot lane
  !t.exited && !t.stopped && t.wait == .none && t.next ≤ s.now && !c.fetchingLane slot lane &&
  match insn with
  | none => true
  | some i =>
    let f := i.fields
    let regs := readRegs i.shape f
    !(regs.any (c.waitsOn slot lane)) && !((predSources i).any (c.predPending slot lane)) &&
      s.insnReady core slot lane i && (!followsStores i || !(s.heldStore core slot lane)) && (t.acqNext.isNone || s.loadsBack core slot lane) &&
      (!(regs.any fun r => (t.acqOf r).isSome) || s.loadsBack core slot lane)

/-! ## Paths (R192 to R194) -/

/-- Threads that have not executed EXIT, by PC: the paths of a group, lowest PC first. A thread that has
stopped issues no more and belongs to none. (Log 72, DEDUCED.) -/
def Group.pathsOf (g : Group) : Tab (List Nat) :=
  g.threads.foldl (fun ps (l, t) =>
    if t.exited || t.stopped then ps else ps.put t.pc.toNat ((ps.get [] t.pc.toNat) ++ [l])) []

/-- A path whose last thread has left it ceases to exist, with its counter (R192). -/
def Group.prune (g : Group) : Group :=
  { g with paths := g.paths.filter fun p => (g.pathsOf.find p.1).isSome }

/-- The ready paths of a group (R192). -/
def State.readyPaths (s : State) (core slot : Nat) : Tab (List Nat) :=
  let g := (s.core core).group slot
  g.pathsOf.filter fun (pc, ls) =>
    let insn := s.peek core (BitVec.ofNat 64 pc)
    ls.all fun l => s.threadReady core slot l insn

/-- Raise an ageing counter at a cycle (R194, R232). -/
def Age.up (a : Age) (now : Nat) : Age :=
  if a.count < 256 then ⟨a.count + 1, if a.count = 255 then now else a.full⟩ else a

/-- Whether path a is chosen before path b (R193): an age of 256, reached earlier; then more threads,
the higher age, the lower PC. -/
def pathBefore (a b : Age × Nat × Nat) : Bool :=
  let (x, n, p) := a
  let (y, m, q) := b
  if x.count = 256 then
    if y.count = 256 then x.full < y.full || (x.full == y.full && p < q) else true
  else if y.count = 256 then false
  else m < n || (m == n && (y.count < x.count || (x.count == y.count && p < q)))

/-- The path arbiter (R193): the PC and lanes of the chosen path. -/
def Group.arbitrate (g : Group) (ps : Tab (List Nat)) : Option (Nat × List Nat) :=
  let key := fun (p : Nat × List Nat) => (g.paths.get Age.zero p.1, p.2.length, p.1)
  ps.foldl (fun best p =>
    match best with
    | none => some p
    | some b => if pathBefore (key p) (key b) then some p else some b) none

/-- The counters after an opportunity (R194): ready paths that were passed over rise, the chosen path's
and vanished paths' counters go. -/
def Group.agePaths (g : Group) (ready : Tab (List Nat)) (chosen now : Nat) : Group :=
  let here := g.pathsOf
  { g with paths := (here.filterMap fun (pc, _) =>
      if pc = chosen then none
      else
        let a := g.paths.get Age.zero pc
        some (pc, if (ready.find pc).isSome then a.up now else a)) }

/-! ## Group selection (R231, R232) -/

/-- Whether group a entered the active set before group b: of those that entered in one cycle, the one that
became Ready first, and then the lower slot (R147). -/
def enteredBefore (a b : Nat × Group) : Bool :=
  let (j, x) := a
  let (k, y) := b
  x.entered < y.entered ||
    (x.entered == y.entered && (x.since < y.since || (x.since == y.since && j < k)))

/-- Whether group a is chosen before group b (R232). -/
def groupBefore (a b : Nat × Group) : Bool :=
  let (_, x) := a
  let (_, y) := b
  let first := enteredBefore a b
  if x.age.count = 256 then
    if y.age.count = 256 then x.age.full < y.age.full || (x.age.full == y.age.full && first) else true
  else if y.age.count = 256 then false
  else first

/-- The groups of a domain's active set that have a ready path, with their paths. -/
def State.candidates (s : State) (core dom : Nat) : List (Nat × Group × Tab (List Nat)) :=
  (((s.core core).slotsIn dom .active).map fun k =>
    (k, (s.core core).group k, s.readyPaths core k)).filter fun (_, g, ps) =>
      g.earliest ≤ s.now && !ps.isEmpty

/-- The group that the domain issues for. -/
def pickGroup (cs : List (Nat × Group × Tab (List Nat))) : Option (Nat × Group × Tab (List Nat)) :=
  cs.foldl (fun best x =>
    match best with
    | none => some x
    | some b => if groupBefore (x.1, x.2.1) (b.1, b.2.1) then some x else some b) none

/-- Ask for the solo issues of a cycle: every ready thread of a diverged group of the domain's active
set (R198). -/
def State.askSolo (s : State) (core dom : Nat) : State :=
  ((s.core core).slotsIn dom .active).foldl (fun s k =>
    let g := (s.core core).group k
    if g.pathsOf.length < 2 then s
    else g.threads.foldl (fun s (l, t) =>
      if t.next ≤ s.now && !t.exited && !t.stopped && t.wait == .none then
        s.scheduleOnce s.now (.soloIssue core l)
      else s) s) s

/-- The next step makes an issue. -/
def State.turnTo (s : State) (u : Issue) : State := { s with turn := .thread, cur := u }

/-- The broadcast issue of a domain whose line has been filled by now, and whose group is still Active. -/
def Core.fetched (c : Core) (dom now : Nat) : Option (Nat × Issue) :=
  c.fetching.find? fun (a, u) =>
    a ≤ now && (c.group u.slot).st == .active && domainOf (c.group u.slot).width u.slot == dom

/-- Drop the waiting fetches of groups that have left the active set: their threads choose anew. -/
def Core.dropFetches (c : Core) : Core :=
  { c with fetching := c.fetching.filter fun (_, u) => (c.group u.slot).st == .active }

/-- The lanes of a waiting issue that still stand at its address. -/
def Core.atIssue (c : Core) (u : Issue) : List Nat :=
  u.lanes.filter fun l =>
    let t := c.thread u.slot l
    !t.exited && !t.stopped && t.wait == .none && t.pc == u.pc

/-- The ageing of the groups that could issue and are not chosen; the chosen one starts again (R232). -/
def State.ageGroups (s : State) (core : Nat) (cs : List (Nat × Group × Tab (List Nat))) (slot : Option Nat) : State :=
  cs.foldl (fun s (k, _, _) =>
    s.modGroup core k fun g => { g with age := if some k = slot then Age.zero else g.age.up s.now }) s

/-- ISSUE_SELECTION (R232, R193): an issue that has waited for its line goes first (R196); else the chosen
path of the chosen group issues. -/
def State.issueSelection (s : State) (core dom : Nat) : State :=
  if ((s.core core).slotsIn dom .active).isEmpty then s
  else
    let s := s.scheduleOnce (s.now + 1) (.issueSelection core dom)
    let s := s.modCore core Core.dropFetches
    let cs := s.candidates core dom
    match (s.core core).fetched dom s.now with
    | some w =>
      let s := s.modCore core fun c => { c with fetching := c.fetching.erase w }
      let lanes := (s.core core).atIssue w.2
      let s := s.ageGroups core cs none
      let s := if lanes.isEmpty then s else s.turnTo { w.2 with lanes := lanes }
      s.askSolo core dom
    | none =>
      match pickGroup cs with
      | none => s.askSolo core dom
      | some (slot, g, ps) =>
        let s := s.ageGroups core cs (some slot)
        match g.arbitrate ps with
        | none => s
        | some (pc, lanes) =>
          let s := s.modGroup core slot fun g => g.agePaths ps pc s.now
          (s.turnTo (.of core slot lanes (BitVec.ofNat 64 pc) false)).askSolo core dom

/-- The read phase of an issue goes on (R215). -/
def State.readPhase (s : State) (core tag : Nat) : State :=
  match (s.core core).reading.find? fun u => u.tag == tag with
  | none => s
  | some u => (s.modCore core fun c => { c with reading := c.reading.erase u }).turnTo u

/-! ## Solo issue and the loop buffers (R197, R198) -/

/-- An instruction a thread may issue alone (R198). -/
def soloOk : Instr → Bool
  | .nop _ | .braW32 _ _ | .bra _ | .brx _ | .call _ | .callx _ | .ret _ | .brdecW32 _ _ _
  | .brdec _ _ => true
  | .swrite _ _ | .voteAll _ | .voteAny _ | .voteBallot _ | .voteUni _ | .shfl _ _ | .redux _ _
  | .matchv _ _ => false
  | i => i.shape.lat == .f1 || i.shape.lat == .f2

/-- The instruction a lane's loop buffer holds for an address. -/
def Core.loopInsn (c : Core) (lane : Nat) (pc : DWord) : Option (List Byte) :=
  ((c.loops.get [] lane).find? fun e => e.addr == pc).map (·.bytes)

/-- The instruction and its length, as the buffer holds it. -/
def Core.loopDecode (c : Core) (lane : Nat) (pc : DWord) : Option (Instr × List Byte) :=
  (c.loopInsn lane pc).bind fun bs => match decode bs with | .ok i _ => some (i, bs) | _ => none

/-- The slots whose thread of a lane number may be considered for a solo issue this cycle. -/
def State.soloSlots (s : State) (core lane : Nat) : List Nat :=
  ((s.core core).groups.filter fun (_, g) =>
    let t := g.thread lane
    g.st == .active && 2 ≤ g.pathsOf.length && (g.threads.find lane).isSome && t.next ≤ s.now &&
      !t.exited && !t.stopped && t.wait == .none).map (·.1)

/-- The first slot, ascending, whose thread meets every condition of R198. -/
def State.soloPick (s : State) (core lane : Nat) : Option Nat :=
  (s.soloSlots core lane).find? fun k =>
    let t := s.thread core k lane
    match (s.core core).loopDecode lane t.pc with
    | some (i, _) =>
      soloOk i && (t.lastSolo == 0 || t.lastSolo + 3 ≤ s.now) && s.threadReady core k lane (some i)
    | none => false

/-- Ask for a refill (R197). -/
def Core.askRefill (c : Core) (lane : Nat) (pc : DWord) : Core :=
  if c.loopReq.contains (lane, pc) then c else { c with loopReq := c.loopReq ++ [(lane, pc)] }

/-- Distance of a lane after the last lane served (R197). -/
def afterLane (last lane : Nat) : Nat := (lane + 63 - last) % 64

/-- The addresses of consecutive instructions from an address, whether cached or not, and of their ends. -/
def State.runAt (s : State) (core : Nat) : Nat → DWord → List LoopEntry
  | 0, _ => []
  | k + 1, pc =>
    match s.seenAt core pc with
    | some bs => ⟨pc, bs⟩ :: s.runAt core k (pc + BitVec.ofNat 64 bs.length)
    | none => []

/-- The physical addresses at which a run of instructions misses in the instruction cache. -/
def State.runMisses (s : State) (core : Nat) (run : List LoopEntry) : List Nat :=
  run.filterMap fun e => match s.fetchAt core e.addr with | .miss pa => some pa | _ => none

/-- The request that is served next: round-robin over lane numbers, after the last lane served (R197). -/
def Core.nextRefill (c : Core) : Option (Nat × DWord) :=
  c.loopReq.foldl (fun best r =>
    match best with
    | none => some r
    | some b => if afterLane c.loopLast r.1 < afterLane c.loopLast b.1 then some r else some b) none

/-- LOOP_BUFFER_REFILL, the service of a request: one a cycle, once the cycle's requests are in (R197). The lines
that miss are filled first. -/
def State.serveRefill (s : State) (core : Nat) : State :=
  match (s.core core).nextRefill with
  | none => s
  | some (lane, pc) =>
    let s := s.modCore core fun c =>
      { c with loopReq := c.loopReq.filter (fun r => r != (lane, pc)), loopLast := lane }
    let s := if (s.core core).loopReq.isEmpty then s else s.scheduleOnce (s.now + 1) (.loopBufferServe core)
    let run := s.runAt core 8 pc
    let pas := s.runMisses core run
    let row := pas.foldl (fun m pa => max m (s.accessRow core pa)) 0
    let s := pas.foldl (fun s pa => s.scheduleOnce (s.now + s.accessRow core pa) (.icacheFill core (pa / 128))) s
    if run.isEmpty then s else s.schedule (s.now + row + 8) (.loopBufferRefill core lane pc)

/-- SOLO_ISSUE (R198): the buffer of a lane number serves the lowest slot; threads that miss in it ask for a
refill (R197). -/
def State.soloIssue (s : State) (core lane : Nat) : State :=
  let miss := (s.soloSlots core lane).filter fun k =>
    ((s.core core).loopInsn lane (s.thread core k lane).pc).isNone
  let s := s.modCore core fun c =>
    miss.foldl (fun c k => c.askRefill lane (c.thread k lane).pc) c
  let s := if (s.core core).loopReq.isEmpty then s else s.scheduleOnce s.now (.loopBufferServe core)
  match s.soloPick core lane with
  | none => s
  | some slot =>
    let t := s.thread core slot lane
    let s := s.modThread core slot lane fun t => { t with lastSolo := s.now + 1 }
    s.turnTo (.of core slot [lane] t.pc true)

/-- LOOP_BUFFER_REFILL (R197): the instructions not already present replace the oldest of 48. -/
def State.loopRefill (s : State) (core lane : Nat) (pc : DWord) : State :=
  let run := s.runAt core 8 pc
  s.modCore core fun c =>
    let old := c.loops.get [] lane
    let new := old ++ run.filter fun e => !(old.any fun o => o.addr == e.addr)
    { c with loops := c.loops.put lane (new.drop (new.length - 48)) }

/-! ## The instruction of an issue -/

/-- The stall field of a word as decoded (R445). -/
def stallBits (bs : List Byte) : Nat :=
  if bs.length = 2 then 0 else (bs.headD 0).toNat / 4 % 8

/-- The bytes of the issue in cur: from the lane's loop buffer for a solo issue. -/
def State.issueBytes (s : State) : FetchRes :=
  let u := s.cur
  if u.solo then
    match (s.core u.core).loopInsn (u.lanes.headD 0) u.pc with
    | some bs => .ok bs
    | none => s.fetchAt u.core u.pc
  else s.fetchAt u.core u.pc

/-- A cause found at decode is raised in every subscribed thread (R81); e is the cycle of issue. -/
def State.decodeTrap (s : State) (cause : Nat) (bs : List Byte) : State :=
  let u := s.cur
  u.lanes.foldl (fun s l =>
    s.trap u.core u.slot l cause u.pc u.pc u.pc s.now (stallBits bs)) s

/-- The lanes of the issue wait for a line of their instruction, which comes in a cycle (R196); they issue then
without another choice. -/
def State.awaitLine (s : State) (at_ : Nat) : State :=
  s.modCore s.cur.core fun c => { c with fetching := c.fetching ++ [(at_, s.cur)] }

/-- A V code at or above the launch's registers per thread (R213). -/
def State.tooHigh (s : State) (core : Nat) (i : Instr) : Bool :=
  (s.coreLaunch core).env.regs < topReg i.shape i.fields

/-- An instruction at which a thread stops under a pending stop (R455): it carries a safe-point entry or
blocks. EXIT is executed. -/
def State.isStop (s : State) (core : Nat) (pc : DWord) (i : Instr) : Bool :=
  match i with
  | .exit _ => (s.coreTeam core).any (·.cancel)
  | .waitc .. | .barWait _ | .barSync _ | .csign _ | .syscall _ | .spawn _ | .yield _ => true
  | .enq f | .deq f => f.mod.getLsbD 3 || ((s.coreLaunch core).safePoint pc).isSome
  | _ => ((s.coreLaunch core).safePoint pc).isSome

/-- Before its instruction a thread makes the acquires it owes (R380). -/
def State.payAcquires (s : State) (i : Instr) : State :=
  let u := s.cur
  let regs := readRegs i.shape i.fields
  u.lanes.foldl (fun s l =>
    let t := s.thread u.core u.slot l
    let scopes := regs.filterMap t.acqOf
    let s := scopes.foldl (fun s sc => s.acquire u.core u.slot l sc) s
    let s := match t.acqNext with | some sc => s.acquire u.core u.slot l sc | none => s
    if scopes.isEmpty && t.acqNext.isNone then s
    else s.modThread u.core u.slot l fun t =>
      { t with acqNext := none, acqs := t.acqs.filter fun (r, _) => !regs.contains r }) s

/-- A fetch that misses sets A in the leaves of its page (R159). -/
def State.touchPage (s : State) (core : Nat) (pc : DWord) : State :=
  match s.resolve (s.core core).sideD.launch pc.toNat Need.fetch with
  | .ok (_, s) => s
  | .error _ => s

/-- What the lanes of an issue read of registers in this cycle of the read phase but the last (R220, R224). -/
def Core.readEarly (c : Core) (u : Issue) (regs : List Nat) : List EarlyRead :=
  regs.flatMap fun r => u.lanes.map fun l =>
    ⟨l, r, if u.vac.contains r then 0 else (c.thread u.slot l).vread r,
      !u.vac.contains r && c.pendingV u.slot l r⟩

/-- One cycle of the read phase of the issue in cur (R215). When its last registers can be read in the next
cycle, this is its effective issue cycle, and the instruction is executed. Otherwise the lanes stand at the next
address (R191), not ready, and the phase goes on in the next cycle. -/
def State.readOn (s : State) (i : Instr) : State × Option Instr :=
  let u := s.cur
  let c := (s.core u.core).settle s.now
  let pairs := pairsOf u.lanes
  let regs := c.readNow u.slot pairs u.left (s.now + 1)
  let left := u.left.filter fun r => !regs.contains r
  let used := pairs.flatMap fun p => regs.map fun r => (⟨u.slot, p, r % 4, s.now + 1⟩ : PortUse)
  let c := { c with ports := c.ports.filter (fun p => s.now < p.cycle) ++ used }
  if left.isEmpty then
    ({ s.setCore u.core c with cur := { u with insn := none, left := [] } }, some i)
  else
    let u := { u with insn := some i, left := left, early := u.early ++ c.readEarly u regs }
    let s := s.setCore u.core { c with reading := c.reading ++ [u] }
    let s := s.modGroup u.core u.slot fun g =>
      u.lanes.foldl (fun g l => g.modThread l fun t =>
        { t with pc := u.pc + BitVec.ofNat 64 u.len, next := max t.next (s.now + 2) }) g
    (s.schedule (s.now + 1) (.readPhase u.core u.tag), none)

/-- A decoded instruction issues: it takes its place in the group issue order (R219), its lanes make the acquires
they owe, and its read phase begins. -/
def State.issue (s : State) (i : Instr) (len : Nat) (vac : List Nat) : State × Option Instr :=
  let s := s.tick
  let s := s.modGroup s.cur.core s.cur.slot Group.prune
  let s := { s with cur := { s.cur with
    len := len, vac := vac, t := s.now, tag := s.order, left := readRegs i.shape i.fields, early := [] } }
  (s.payAcquires i).readOn i

/-- The issue in cur: its read phase goes on; or it is fetched and decoded, and issues. Else the step is the
fetch alone: a fault (R202), a miss (R196), a decode trap (R81) or a stop (R455). (Log 27, DEDUCED.) -/
def State.fetch (s : State) : State × Option Instr :=
  let u := s.cur
  let s := { s with turn := .idle }
  match u.insn with
  | some i => s.readOn i
  | none =>
    match s.issueBytes with
    | .fault c a =>
      (u.lanes.foldl (fun s l => s.terminal u.core u.slot l (BitVec.ofNat 8 c) 0 a u.pc) s, none)
    | .miss pa =>
      let s := s.touchPage u.core u.pc
      let at_ := s.now + s.accessRow u.core pa
      ((s.scheduleOnce at_ (.icacheFill u.core (pa / 128))).awaitLine at_, none)
    | .ok bs =>
      match decode bs with
      | .illegalInsn => (s.decodeTrap causeIllegalInsn bs, none)
      | .illegalOpnd => (s.decodeTrap causeIllegalOpnd bs, none)
      | .truncated => (s.decodeTrap causeIllegalInsn bs, none)
      | .ok i len =>
        if s.tooHigh u.core i then (s.decodeTrap causeIllegalOpnd bs, none)
        else
          let entry := (s.coreLaunch u.core).safePoint u.pc
          if s.stopPending u.core && s.isStop u.core u.pc i then
            (s.stopLanes u.core u.slot u.lanes entry, none)
          else
            let regs := (s.coreLaunch u.core).env.regs
            s.issue i len (match entry with | some e => deadAt regs e | none => [])

/-! ## Meanings of the issue steps -/

/-- ISSUE_SELECTION (R232, R193, R215). -/
def execIssueSelection (s : State) : Res :=
  match s.event with
  | .issueSelection core dom => .next (s.issueSelection core dom)
  | .readPhase core tag => .next (s.readPhase core tag)
  | _ => .next s

/-- SOLO_ISSUE (R198). -/
def execSoloIssue (s : State) : Res :=
  match s.event with
  | .soloIssue core lane => .next (s.soloIssue core lane)
  | _ => .next s

/-- LOOP_BUFFER_REFILL (R197). -/
def execLoopBufferRefill (s : State) : Res :=
  match s.event with
  | .loopBufferRefill core lane addr => .next (s.loopRefill core lane addr)
  | .loopBufferServe core => .next (s.serveRefill core)
  | _ => .next s

/-- ICACHE_FILL (R196). -/
def execIcacheFill (s : State) : Res :=
  match s.event with
  | .icacheFill core line => .next (s.icacheFill core line)
  | _ => .next s

/-- RESULT_LANDING (R217). -/
def execResultLanding (s : State) : Res :=
  match s.event with
  | .resultLanding core => .next (s.modCore core fun c => c.settle s.now)
  | _ => .next s

/-- ACTIVE_SET_ENTRY (R147). -/
def execActiveSetEntry (s : State) : Res :=
  match s.event with
  | .activeSetEntry core dom => .next (s.activeSetEntry core dom)
  | _ => .next s

end Sys2Proof.Machine
end

