-- ==== Sys2Proof/Machine/Control.lean ====
section
/-! DEFINITION. Control instructions (R200 to R210), TRAP and BKPT (R447) and TRET (R448). -/

namespace Sys2Proof.Machine

/-! ## The mould of the transfers (R200, R201) -/

/-- A lane's trap, TRAPPC at the instruction. -/
def LaneTrap.at_ (lane cause : Nat) (addr : DWord) : LaneTrap := ⟨lane, cause, addr, none⟩

/-- The level traps of the active lanes (R222, R224). -/
def Ctx.levelTraps (x : Ctx) : List LaneTrap :=
  x.actives.filterMap fun l =>
    (x.levelFault l (readFields x.sh x.f)).map fun (c, code) => .at_ l c (BitVec.ofNat 64 code)

/-- The active lanes without a trap of the list. -/
def Ctx.without (x : Ctx) (ts : List LaneTrap) : List Nat :=
  x.actives.filter fun l => !(ts.any fun t => t.lane == l)

/-- An odd target raises MISALIGN (R202). -/
def oddTraps (outs : List (Nat × Option DWord)) : List LaneTrap :=
  outs.filterMap fun (l, t) => t.bind fun a =>
    if a.getLsbD 0 then some (.at_ l causeMisalign a) else none

/-- A transfer: target gives a lane's target, or nothing where it falls through; b is the redirect
delay; ls are the landings of the lanes that complete. -/
def State.jump (s : State) (sh : Shape) (f : Fields) (b : Nat)
    (target : Ctx → Nat → Option DWord) (ls : Ctx → List Nat → List Landing) : State :=
  let (x, s) := s.begin sh f
  let lv := x.levelTraps
  let outs := (x.without lv).map fun l => (l, target x l)
  let ts := lv ++ oddTraps outs
  let done := outs.filter fun o => !(ts.any fun t => t.lane == o.1)
  let gos := done.filterMap fun (l, t) => t.map fun a => (⟨l, a, b⟩ : Go)
  s.finishTo x ts gos (ls x (done.map (·.1)))

/-- address + 2 × offset (R203). -/
def Ctx.relative (x : Ctx) (off : BitVec n) : DWord := x.pc + off.signExtend 64 * 2

/-- The 64-bit target operand (R204). -/
def Ctx.target (x : Ctx) (lane : Nat) : DWord := BitVec.ofNat 64 (x.value lane x.f.a 2 .int)

/-- The link of the lanes that call: V at e + 4, G at e + 3 by the lowest lane (R201, R75, R208). -/
def Ctx.linkLandings (x : Ctx) (lanes : List Nat) : List Landing :=
  match x.f.dst with
  | .v r _ => lanes.flatMap fun l =>
      [0, 1].map fun i => x.landing (x.e + 4) l
        (.v (r.toNat + i) (BitVec.allOnes 32) (resultWord x.nextPc.toNat i))
  | .g r =>
    if lanes.isEmpty then []
    else [0, 1].map fun i => x.landing (x.e + 3) 0 (.g (r.toNat + i) (resultWord x.nextPc.toNat i))
  | _ => []

/-- The decremented counter (R210). -/
def Ctx.counted (x : Ctx) (lane : Nat) : Word :=
  BitVec.ofNat 32 (x.value lane x.f.dst 1 .int) - 1

/-- The counter's writes: V at e + 4, C at e + 3 (R201). -/
def Ctx.counterLandings (x : Ctx) (lanes : List Nat) : List Landing :=
  lanes.filterMap fun l =>
    match x.f.dst with
    | .v r _ =>
      some (x.landing (x.e + 4) l (.v r.toNat (BitVec.allOnes 32) (x.counted l)))
    | .c r => some (x.landing (x.e + 3) l
        (.c r.toNat (x.thread l).lv.ctx (BitVec.allOnes 32) (x.counted l) none))
    | _ => none

/-- BRDEC (R210). -/
def State.countDown (s : State) (sh : Shape) (f : Fields) (off : BitVec n) : State :=
  s.jump sh f 2 (fun x l => if x.counted l = 0 then none else some (x.relative off))
    Ctx.counterLandings

/-- Every active lane raises a cause with the code as TRAPADDR (R447). -/
def State.raiseAll (s : State) (sh : Shape) (f : Fields) (cause : Nat) (code : BitVec 18)
    (after : Bool) : State :=
  let (x, s) := s.begin sh f
  let ts := x.actives.map fun l =>
    (⟨l, cause, code.setWidth 64, if after then some x.nextPc else none⟩ : LaneTrap)
  s.finish x ts []

/-- TRET (R448): a lane outside a handler, or with an odd TRAPPC, raises its cause. -/
def Ctx.tretTrap (x : Ctx) (l : Nat) : Option LaneTrap :=
  let t := x.thread l
  if !t.handler then some (.at_ l causeIllegalInsn x.pc)
  else if t.trappc.getLsbD 0 then some (.at_ l causeMisalign t.trappc) else none

/-- The levels come back, the flag is cleared and the PC is TRAPPC (R448). -/
def State.trapReturn (s : State) (sh : Shape) (f : Fields) : State :=
  let (x, s) := s.begin sh f
  let ts := x.actives.filterMap x.tretTrap
  let s := s.finish x ts []
  s.modGroup x.core x.slot fun g =>
    (x.without ts).foldl (fun g l => g.modThread l fun t => t.leave (x.nextIssue + 4)) g

/-- YIELD (R209). -/
def State.yieldGroup (s : State) (sh : Shape) (f : Fields) : State :=
  let (x, s) := s.begin sh f
  if x.actives.isEmpty then s.finish x [] []
  else (s.finish x [] (x.leaveLandings .ready)).freePlace x

/-! ## Meanings -/

/-- NOP (R205). -/
def execNop (f : Fields) (s : State) : Res :=
  let (x, s) := s.begin (Instr.nop f).shape f
  .next (s.finish x [] [])

/-- BRA in W32 form (R203, R206). -/
def execBraW32 (stall : BitVec 3) (off : BitVec 20) (s : State) : Res :=
  .next (s.jump (Instr.braW32 stall off).shape (Instr.braW32 stall off).fields 2
    (fun x _ => some (x.relative off)) fun _ _ => [])

/-- BRA (R206). -/
def execBra (w : Wide) (s : State) : Res :=
  .next (s.jump (Instr.bra w).shape w.fields 2 (fun x _ => some (x.relative w.imm)) fun _ _ => [])

/-- BRX (R207). -/
def execBrx (f : Fields) (s : State) : Res :=
  .next (s.jump (Instr.brx f).shape f 4 (fun x l => some (x.target l)) fun _ _ => [])

/-- CALL (R208). -/
def execCall (w : Wide) (s : State) : Res :=
  .next (s.jump (Instr.call w).shape w.fields 2 (fun x _ => some (x.relative w.imm))
    Ctx.linkLandings)

/-- CALLX (R208). -/
def execCallx (f : Fields) (s : State) : Res :=
  .next (s.jump (Instr.callx f).shape f 4 (fun x l => some (x.target l)) Ctx.linkLandings)

/-- RET (R207). -/
def execRet (f : Fields) (s : State) : Res :=
  .next (s.jump (Instr.ret f).shape f 4 (fun x l => some (x.target l)) fun _ _ => [])

/-- YIELD (R209). -/
def execYield (f : Fields) (s : State) : Res :=
  .next (s.yieldGroup (Instr.yield f).shape f)

/-- TRAP (R447). -/
def execTrap (code : BitVec 18) (f : Fields) (s : State) : Res :=
  .next (s.raiseAll (Instr.trap code f).shape f causeTrap code true)

/-- BKPT (R447). -/
def execBkpt (code : BitVec 18) (f : Fields) (s : State) : Res :=
  .next (s.raiseAll (Instr.bkpt code f).shape f causeBkpt code false)

/-- TRET (R448). -/
def execTret (f : Fields) (s : State) : Res :=
  .next (s.trapReturn (Instr.tret f).shape f)

/-- BRDEC in W32 form (R203, R210). -/
def execBrdecW32 (stall : BitVec 3) (ctr : Opnd) (off : BitVec 13) (s : State) : Res :=
  .next (s.countDown (Instr.brdecW32 stall ctr off).shape (Instr.brdecW32 stall ctr off).fields off)

/-- BRDEC (R210). -/
def execBrdec (off : BitVec 18) (f : Fields) (s : State) : Res :=
  .next (s.countDown (Instr.brdec off f).shape f off)

end Sys2Proof.Machine
end

