-- ==== Sys2Proof/Machine/Memory.lean ====
section
/-! DEFINITION. Memory access instructions (R323 to R341): line requests, loads, stores, scratchpad and
cluster accesses, PREF, CCTL, ICINV and IFENCE, and how an access is held and replayed (R174, R175,
R178, R450). -/

namespace Sys2Proof.Machine

/-! ## Sizes and addresses -/

/-- Bytes of an access size (R70). -/
def memSize (m : BitVec 5) : Nat :=
  match m.toNat % 8 with
  | 1 => 1
  | 2 => 2
  | 3 => 8
  | 4 => 16
  | _ => 4

/-- Effective address of LD, ST, PREF and CCTL (R323). -/
def Ctx.globalAddr (x : Ctx) (l : Nat) : DWord :=
  BitVec.ofNat 64 (x.value l x.f.a 2 .int) + (BitVec.ofNat 32 (x.value l x.f.b 1 .int)).signExtend 64

/-- Offset or cluster word of LDS, STS, LDX and STX (R323). -/
def Ctx.scratchAddr (x : Ctx) (l : Nat) : Nat :=
  (x.value l x.f.a 1 .int + x.value l x.f.b 1 .int) % 2 ^ 32

/-- MISALIGN of the lanes whose address is no multiple of n (R325). -/
def misaligned (n : Nat) (as : List (Nat × DWord)) : List LaneTrap :=
  as.filterMap fun (l, a) => if a.toNat % n = 0 then none else some (.at_ l causeMisalign a)

/-! ## From lanes to requests (R328) -/

/-- A lane's checked address. -/
structure LaneAcc where
  lane : Nat
  va : DWord
  tgt : Target
  deriving DecidableEq, Repr

/-- The line of a target: physical, or of a peer's window. -/
def Target.line : Target → Nat
  | .mem pa => pa / 128
  | .peer pod off => 2 ^ 60 + pod * 2 ^ 39 + off / 128

/-- Cycles of a request by its target (R326, R526; peer row). -/
def State.targetRow (s : State) (core : Nat) : Target → Nat
  | .mem pa => s.accessRow core pa
  | .peer pod off => s.peerRow core pod off

/-- A lane whose request fails as it is translated raises a terminal fault (R334). -/
def State.faultLane (s : State) (core slot lane cause : Nat) (va pc : DWord) : State :=
  s.terminal core slot lane (BitVec.ofNat 8 cause) 0 va pc

/-- Check and translate the lanes' addresses in ascending order; those that fail raise their fault. -/
def State.resolveAll (s : State) (x : Ctx) (need : Need) (as : List (Nat × DWord)) :
    List LaneAcc × State :=
  as.foldl (fun (acc, s) (l, va) =>
    match s.resolveLane x.core x.slot l va.toNat need with
    | .ok (t, s) => (acc ++ [⟨l, va, t⟩], s)
    | .error c => (acc, s.faultLane x.core x.slot l c va x.pc)) ([], s)

/-- A lane's request: the cycle in which it leaves and its row, and whether it is the first lane of its line. -/
structure Request where
  acc : LaneAcc
  leave : Nat
  row : Nat
  first : Bool
  deriving DecidableEq, Repr

/-- Cycle in which a request's answer is back at its core (R328). -/
def Request.due (r : Request) : Nat := r.leave + r.row - 1

/-- The line requests of an instruction leave the global port in order (R328). -/
def State.requests (s : State) (x : Ctx) (accs : List LaneAcc) : List Request × State :=
  let lines := (accs.map fun a => a.tgt.line).eraseDups
  let (outs, s) := s.takeGlobal x.core x.slot x.e lines.length
  (accs.mapIdx fun i a =>
    ⟨a, (((lines.zip outs).find? fun p => p.1 == a.tgt.line).map (·.2)).getD (x.e + 1),
      s.targetRow x.core a.tgt, !((accs.take i).any fun b => b.tgt.line == a.tgt.line)⟩, s)

/-! ## Performing a global access -/

/-- Bytes that a unit outside the package delivers. -/
def State.outside (s : State) (n : Nat) : List Byte × State :=
  ((List.range n).map fun i => Config.outsideByte (s.freeCount + i),
   { s with freeCount := s.freeCount + n })

/-- The value of a load: sign or zero extension below 32 bits (R332). -/
def loadValue (n : Nat) (sx : Bool) (bs : List Byte) : Nat :=
  if n < 4 ∧ sx then intBits 32 (toInt (8 * n) (leNat bs)) else leNat bs

/-- A thread's result is due: delivered to its destination, and its loads are back by then. A RED has
no result (R402), and no acquire waits for it. (Log 40, DEDUCED.) -/
def State.answer (s : State) (h : Held) (due v : Nat) : State :=
  let s := s.modThread h.core h.slot h.lane fun t =>
    if h.regs = 0 then { t with storesDone := max t.storesDone due }
    else { t with loadsDone := max t.loadsDone due }
  match h.dst with
  | .v _ _ => s.deliver h.core h.slot h.lane h.tag due (natWords h.regs v)
  | _ => s

/-- An acquire that follows a result (R380, R399): the thread goes on once it is back. -/
def State.acquireAfter (s : State) (core slot lane scope due : Nat) : State :=
  s.modThread core slot lane fun t =>
    { t with next := max t.next due, acqNext := some (max scope (t.acqNext.getD 0))
             wait := match t.wait with | .held _ => .none | w => w }

/-- New value of an atomic (R401). -/
def atomApply (o : AtomOp) (ty : AType) (old v : Nat) : Nat :=
  let w := 32 * ty.regs
  let uns := match ty with | .n32 | .n64 => true | _ => false
  let lt := fun a b => if uns then decide (a < b) else decide (toInt w a < toInt w b)
  match o with
  | .add => (old + v) % 2 ^ w
  | .min => if lt v old then v else old
  | .max => if lt old v then v else old
  | .and => old &&& v
  | .or => old ||| v
  | .xor => old ^^^ v
  | .exch => v

/-- What an atomic reads and writes: the value it leaves and the value it returns (R401, R402, R410). -/
def HeldOp.update (old : Nat) : HeldOp → Nat × Nat
  | .atom o ty v => (atomApply o ty old (v % 2 ^ (32 * ty.regs)), old)
  | .cas ty cmp v =>
    let w := 32 * ty.regs
    (if old = cmp % 2 ^ w then v % 2 ^ w else old, old)
  | .last n =>
    let c := (old + 1) % 2 ^ 32
    if c = n.toNat then (0, 1) else (c, 0)
  | _ => (old, old)

/-- Before an atomic the core's tentative writes to the bytes are published at its scope, and the line
leaves the core's L1 (R375). -/
def State.beforeAtomic (s : State) (core pa n scope : Nat) : State :=
  let s := s.publishWhere scope core fun w =>
    w.core == core && !w.hidden && w.pub.isNone && w.touches pa n
  s.modCore core fun c => c.l1Drop pa

/-- Perform an atomic at its place (R397, R402): never tentative, published at PACKAGE. -/
def State.performAtomic (s : State) (h : Held) (pa leave row : Nat) : State :=
  if s.poisoned pa h.size then s.faultLane h.core h.slot h.lane causePoison h.va h.pc
  else
    let s := s.beforeAtomic h.core pa h.size h.scope
    let (new, ret) := h.op.update (leNat (s.view (.core h.core) pa h.size))
    let s := (if h.first then s.l2Touch pa false else s).writeMerged pa (leBytes h.size new)
    let due := leave + row - 1
    let s := s.answer h due ret
    let acq := match h.op with | .last _ => ret == 1 | _ => h.acq
    if acq then s.acquireAfter h.core h.slot h.lane h.scope due else s

/-- The offset of the FLAGS byte of a line that holds a descriptor: of a queue, a block pool or a block
table (R110, R356, R357). -/
def State.flagsByte (s : State) (line : Nat) : Option Nat :=
  if s.isQueueLine line then some 11
  else s.parts.findSome? fun p => p.2.guarded.find line

/-- The line is a descriptor that is enabled, and a store does not clear ENABLE: the home slice drops it
(R111). While ENABLE is 0 every field is open, those that R110 calls RO too. (Log 6, DEDUCED.) -/
def State.dropsStore (s : State) (pa : Nat) (bs : List Byte) : Bool :=
  let line := pa / 128 * 128
  match s.flagsByte line with
  | none => false
  | some k => (s.memByte (line + k)).getLsbD 0 &&
    !(decide (pa ≤ line + k) && (match bs[line + k - pa]? with | some b => !b.getLsbD 0 | none => false))

/-- Perform a lane's load (R332, R334, R383): from the L1, unless its request has left for the home slice. -/
def State.performLoad (s : State) (h : Held) (sx stream : Bool) (pa leave row : Nat) : State :=
  match if h.miss then none else s.l1Serves h.core h.slot h.lane pa with
  | some x =>
    let (bs, s) := s.loadL1 h.core h.slot h.lane pa h.size x
    s.answer h (leave + Config.rowL1 - 1) (loadValue h.size sx bs)
  | none =>
    if s.poisoned pa h.size then s.faultLane h.core h.slot h.lane causePoison h.va h.pc
    else
      let (bs, s) := s.loadHome h.core h.slot h.lane pa h.size stream h.first
      s.answer h (leave + row - 1) (loadValue h.size sx bs)

/-- A thread's stores and CCTLs are performed by a cycle. -/
def State.storesBy (s : State) (core slot lane due : Nat) : State :=
  s.modThread core slot lane fun t => { t with storesDone := max t.storesDone due }

/-- PREF of one line (R336): a poisoned line, or one of a pool page that has to be handed over first, is
dropped. -/
def State.prefLine (s : State) (core pa : Nat) (l2 stream : Bool) : State :=
  let p := s.routeRead pa
  if s.poisoned (pa / 128 * 128) 128 || s.needsHandover pa then s
  else
    let s := s.l2Touch p stream
    if l2 then s else s.l1Fill core p stream

/-- Publish every staged store of the core to a line (R337). -/
def State.publishLine (s : State) (core line scope : Nat) : State :=
  s.publishWhere scope core fun w => w.core == core && !w.hidden && w.addr / 128 == line

/-- Perform a lane's CCTL (R337): .wb is a publication of the thread, performed for a line by its first lane. -/
def State.performCctl (s : State) (h : Held) (wb inv : Bool) (pa leave row : Nat) : State :=
  let due := leave + row - 1
  let p := s.routeRead pa
  let (drain, s) :=
    if wb && h.first then (s.publishLine h.core (p / 128) h.scope).drainFor h.core h.scope else (0, s)
  let s := if inv then s.modCore h.core fun c => c.l1Drop p else s
  let s := if wb then s.completePub h.core h.slot h.lane (due + drain) else s
  s.storesBy h.core h.slot h.lane due

/-- Perform a lane's access at its home slice (R332, R333). -/
def State.perform (s : State) (h : Held) (pa leave row : Nat) : State :=
  match h.op with
  | .load sx stream => s.performLoad h sx stream pa leave row
  | .store bs stream =>
    let s := if s.dropsStore pa bs then s else s.writeStaged h.core h.thread pa bs
    let s := if h.first then s.l2Touch pa stream else s
    s.storesBy h.core h.slot h.lane (leave + row - 1)
  | .pref l2 => if h.first then s.prefLine h.core pa l2 false else s
  | .cctl wb inv => s.performCctl h wb inv pa leave row
  | _ => s.performAtomic h pa leave row

/-! ## Holding and replaying (R174, R175, R178, R450) -/

def causeMigWindow : Nat := 0x20
def causeHandover : Nat := 0x21

/-- The hub that carries the move of a physical address's frame, or its home hub. -/
def State.windowHub (s : State) (pa : Nat) : Nat :=
  ((s.forwardOf (pa / 65536)).map (·.1)).getD (homeHub pa)

/-- A hub's stalled-write window takes one more write of a partition (R175). -/
def State.windowRoom (s : State) (hub part : Nat) : Bool :=
  let mine := s.held.filter fun h => h.win == some hub
  decide (mine.length < 32) &&
    decide ((mine.filter fun h => (s.launch h.launch).part == part).length < 8)

/-- A request for a page waits at the pool directory. -/
def State.handoverAsked (s : State) (page : Nat) : Bool :=
  s.agenda.any fun e => match e.2 with | .poolHandover p _ => p == page | _ => false

/-- Ask the pool directory for a page (R178): no handover begins before the page's owner has stood for 8,192
cycles, and the request waits till then. -/
def State.askHandover (s : State) (pa : Nat) : State :=
  let page := (pa - poolStart) / 65536
  if s.handoverAsked page || s.handovers.any fun h => h.1 == page then s
  else
    let at_ := max s.now (s.ownerSince.get 0 page + (if (s.owners.find page).isSome then 8192 else 0))
    s.schedule at_ (.poolHandover page (s.memberOf))

/-- When a held access is tried again: in a window never by itself; replayed for MIG_WINDOW after 32 and for
HANDOVER after 512 cycles (R450); in the next cycle where it waits for a staging line (R386). -/
def State.replayLater (s : State) (h : Held) (cause : Nat) (win : Option Nat) : State :=
  if win.isSome then s
  else if cause = causeMigWindow then
    s.schedule (s.now + 32) (.migWindowReplay (s.windowHub h.pa) h.id)
  else if cause = causeHandover then
    s.schedule (s.now + 512) (.handoverReplay ((h.pa - poolStart) / 65536) h.id)
  else s.schedule (s.now + 1) (.stagingRetry h.core h.id)

/-- Hold an access; an acquire holds its thread with it (R450, R380). -/
def State.hold (s : State) (h : Held) (cause : Nat) (win : Option Nat) : State :=
  let s := s.tick
  let h := { h with id := s.order, cause := cause, win := win, first := true, miss := false }
  let s := { s with held := s.held ++ [h] }
  let s := if h.acq then
      s.modThread h.core h.slot h.lane fun t => { t with wait := .held (BitVec.ofNat 8 cause) }
    else s
  s.replayLater h cause win

/-- An earlier access of the core to the line is held (R333). -/
def State.heldLine (s : State) (core pa before : Nat) : Option Held :=
  s.held.find? fun h => h.core == core && h.pa / 128 == pa / 128 && h.id < before

/-- What keeps an access back: the cause, 0 where it waits for a staging line, and the hub whose window takes
it. -/
def State.keptBack (s : State) (h : Held) (before : Nat) : Option (Nat × Option Nat) :=
  let part := (s.launch h.launch).part
  if h.op.moves && s.needsHandover h.pa then some (causeHandover, none)
  else
    match s.heldLine h.core h.pa before with
    | some g => some (g.cause, none)
    | none =>
      if !h.op.writes then none
      else
        match s.routeWrite h.pa with
        | .at_ _ =>
          match h.op with
          | .store _ _ => if s.stagingFull h.core h.pa then some (0, none) else none
          | _ => none
        | .stall hub =>
          some (causeMigWindow, if s.windowRoom hub part then some hub else none)

/-- The place of an access that nothing keeps back. -/
def State.placeOf (s : State) (h : Held) : Nat :=
  if !h.op.writes then h.pa else match s.routeWrite h.pa with | .at_ p => p | .stall _ => h.pa

/-- Perform an access, or hold it. -/
def State.tryAccess (s : State) (h : Held) (leave row : Nat) : State :=
  match s.keptBack h (s.order + 1) with
  | none => s.perform h (s.placeOf h) leave row
  | some (cause, win) =>
    let s := if cause = causeHandover then s.askHandover h.pa else s
    s.hold h cause win

/-- A held access is performed: it leaves the held ones, and its thread is held no more. -/
def State.release (s : State) (h : Held) : State :=
  let s := { s with held := s.held.filter fun x => x.id != h.id }
  let s := s.perform h (s.placeOf h) s.now (s.accessRow h.core h.pa)
  s.modThread h.core h.slot h.lane fun t =>
    match t.wait with
    | .held _ => { t with wait := .none }
    | _ => t

/-! ## The copy of a line (R173 to R176) -/

/-- A line leaves every cache of the package. -/
def State.recall (s : State) (line : Nat) : State :=
  { s with
    l2 := s.l2.put (l2Set (line * 128)) ((s.l2.get [] (l2Set (line * 128))).filter fun x => x.line != line)
    l2Waits := s.l2Waits.filter fun x => x.line != line
    cores := s.cores.map fun (c, x) =>
      (c, { x with l1 := x.l1.filter fun y => y.line != line
                   icache := x.icache.filter fun y => y.line != line }) }

/-- Copy line p of F to N, with its poison and its tentative data (R173, R176); the pins of the line follow. -/
def State.copyLine (s : State) (frm into p : Nat) : State :=
  let a := frm * 65536 + 128 * p
  let b := into * 65536 + 128 * p
  let s := s.recall (a / 128)
  let pin := fun (l : FLine) => if l.pline = some (a / 128) then { l with pline := some (b / 128) } else l
  { s with
    mem := memPut ((List.range' a 128).map fun k => s.mem.get 0 k) b s.mem
    poison := if s.poison.contains (a / 128) then insertNat (b / 128) s.poison else s.poison
    staged := s.staged.map fun (w : Staged) =>
      if w.addr / 128 = a / 128 then { w with addr := b + w.addr % 128 } else w
    cores := s.cores.map fun (k, c) => (k, { c with engine := c.engine.map fun v =>
      { v with la := v.la.map fun (j, l) => (j, pin l), lb := v.lb.map fun (j, l) => (j, pin l) } }) }

/-- Perform the writes that the window holds for a line, in order of arrival (R175). -/
def State.openWindow (s : State) (hub frm p : Nat) : State :=
  (s.held.filter fun h => h.win == some hub && h.pa / 65536 == frm && h.pa % 65536 / 128 == p).foldl
    (fun s h => s.release h) s

/-- The next line of a move is copied, and the writes stalled on it are performed (R173 to R175). -/
def State.copyNext (s : State) (hub : Nat) (f : Forward) : State :=
  let s := s.copyLine f.frm f.into f.progress
  let s := s.modHub hub fun h =>
    { h with forwards := h.forwards.map fun g => if g.id = f.id then { g with progress := f.progress + 1 } else g }
  s.openWindow hub f.frm f.progress

/-- An agent other than a lane is about to write the line that a move copies next: the line is copied first, so
that the write follows those stalled on it and is performed on N (R174, R175). (Log 32, DEDUCED.) -/
def State.clearWay (s : State) (pa : Nat) : State :=
  match s.forwardOf (pa / 65536) with
  | some (hub, f) =>
    if f.progress < 512 ∧ pa % 65536 / 128 = f.progress then s.copyNext hub f else s
  | none => s

/-- A write of an agent other than a lane: never tentative, merged as it is performed (R374). -/
def State.agentWrite (s : State) (pa : Nat) (bs : List Byte) : State :=
  let lines := (List.range ((pa % 128 + bs.length + 127) / 128)).map fun i => pa / 128 * 128 + 128 * i
  (lines.foldl State.clearWay s).writeMerged pa bs

/-! ## Peer windows (R391, R392, R396) -/

/-- Merge a core's undrained bytes over a peer's (R392). -/
def Core.overWc (c : Core) (line off : Nat) (bs : List Byte) : List Byte :=
  match c.wc.find? fun e => e.line == line with
  | some e => bs.mapIdx fun i b => (e.bytes.find (off + i)).getD b
  | none => bs

/-- A store to a peer window collects in the write-combining buffer (R391). -/
def State.wcStore (s : State) (core index line off : Nat) (bs : List Byte) : State :=
  let full := (s.core core).wc.length ≥ 64 && !((s.core core).wc.any fun e => e.line == line)
  let oldest := (s.core core).wc.foldl (fun m e => min m e.id) s.order
  let s := if full then s.drainWc core fun e => e.id == oldest else s
  let put := fun (t : Tab Byte) => (bs.mapIdx fun i b => (off + i, b)).foldl (fun t (k, b) => t.put k b) t
  match (s.core core).wc.find? fun e => e.line == line with
  | some e =>
    let s := s.modCore core fun c => { c with wc := c.wc.map fun y =>
      if y.line = line then { y with bytes := put y.bytes, makers := insertNat index y.makers } else y }
    if (put e.bytes).length = 128 then s.drainWc core fun y => y.line == line else s
  | none =>
    let s := s.tick
    let s := s.modCore core fun c =>
      { c with wc := c.wc ++ [⟨s.order, line, put [], s.now, [index]⟩] }
    s.schedule (s.now + 4096) (.wcDrainTimeout core s.order)

/-- FLAGS of a fabric failure in a ring record (R452). -/
def fabricFailure : BitVec 16 := 2

/-- A lane's access to a peer window: the peer's memory stands outside the model. With no working station it is
reported as a fabric failure (R425). (Log 67, DEDUCED.) -/
def State.peerAccess (s : State) (h : Held) (line pod off leave : Nat) : State :=
  let due := leave + s.peerRow h.core pod off - 1
  let off := off % 128
  if (s.stationOf (hubOfCore h.core) pod (line % 2 ^ 39)).isNone && h.op.moves then
    s.terminal h.core h.slot h.lane (BitVec.ofNat 8 causePerm) fabricFailure h.va h.pc
  else match h.op with
  | .load sx _ =>
    let (bs, s) := s.outside h.size
    s.answer h due (loadValue h.size sx ((s.core h.core).overWc line off bs))
  | .store bs _ => s.wcStore h.core h.thread line off bs
  | .pref _ => s
  | .cctl _ _ => s.storesBy h.core h.slot h.lane due
  | _ =>
    let (bs, s) := s.outside h.size
    let (_, ret) := h.op.update (leNat bs)
    let s := s.answer h due ret
    let acq := match h.op with | .last _ => ret == 1 | _ => h.acq
    if acq then s.acquireAfter h.core h.slot h.lane h.scope due else s

/-- The access of one lane of an issue, with its destination pending (R218). (Log 23, DEDUCED.) -/
def State.laneAccess (s : State) (x : Ctx) (r : Request) (size regs scope : Nat) (acq : Bool)
    (op : HeldOp) (miss : Bool := false) : State :=
  let dst := if op.isStore then .zero else x.f.dst
  let s := s.pend x.core x.slot r.acc.lane dst regs x.tag true
  let h : Held :=
    { id := 0, cause := 0, replays := 0, win := none, core := x.core, slot := x.slot,
      lane := r.acc.lane, thread := (x.thread r.acc.lane).index,
      launch := (s.core x.core).sideD.launch, pc := x.pc, va := r.acc.va, pa := 0, size := size,
      dst := dst, regs := regs, tag := x.tag, scope := scope, acq := acq, op := op
      first := r.first, miss := miss }
  match r.acc.tgt with
  | .mem pa => s.tryAccess { h with pa := pa } r.leave r.row
  | .peer pod off => s.peerAccess h r.acc.tgt.line pod off r.leave

/-! ## LD and ST -/

/-- The lanes of a global access: level checks, alignment, then leases and translation; the lanes that
go on, with their requests (R325, R328, R334). -/
def State.globalLanes (s : State) (x : Ctx) (n : Nat) (need : Need) (addr : Ctx → Nat → DWord) :
    List Request × State :=
  let lv := x.levelTraps
  let as := (x.without lv).map fun l => (l, addr x l)
  let ts := lv ++ misaligned n as
  let s := s.finish x ts []
  let (accs, s) := s.resolveAll x need (as.filter fun a => !(ts.any fun t => t.lane == a.1))
  s.requests x accs

/-- LD (R332). -/
def State.loadOp (s : State) (sh : Shape) (f : Fields) : State :=
  let (x, s) := s.begin sh f
  let n := memSize f.mod
  let (rs, s) := s.globalLanes x n Need.read Ctx.globalAddr
  let rs := rs.map fun r => (r, match r.acc.tgt with
    | .mem pa => (s.l1Serves x.core x.slot r.acc.lane pa).isNone
    | .peer _ _ => true)
  -- the lowest lane of a line that misses makes its request
  let first := fun (r : Request) => !(rs.any fun (q, miss) =>
    miss && q.acc.tgt.line == r.acc.tgt.line && decide (q.acc.lane < r.acc.lane))
  rs.foldl (fun s (r, miss) => s.laneAccess x { r with first := first r } n (sizeRegs f.mod) 0 false
    (.load (f.mod.getLsbD 3) (f.mod.getLsbD 4)) miss) s

/-- ST (R332). -/
def State.storeOp (s : State) (sh : Shape) (f : Fields) : State :=
  let (x, s) := s.begin sh f
  let n := memSize f.mod
  let (rs, s) := s.globalLanes x n Need.write Ctx.globalAddr
  rs.foldl (fun s r => s.laneAccess x r n 1 0 false
    (.store (leBytes n (x.value r.acc.lane f.dst (sizeRegs f.mod) .int)) (f.mod.getLsbD 4))) s

/-! ## Scratchpads (R323, R324, R329, R335) -/

def granuleBytes : Nat := 16384

/-- First byte of a core's scratchpad, and its bytes (R137). -/
def Core.spBase (c : Core) : Nat := c.rfGranules * granuleBytes
def Core.spBytes (c : Core) : Nat := c.spGranules * granuleBytes

/-- The cores of the team whose side a core holds, side 0 first. -/
def State.teamCores (s : State) (core : Nat) : List Nat :=
  match s.coreTeam core with
  | some t => t.cores
  | none => [core]

/-- Bytes of the team's scratchpad (R323). -/
def State.teamScratch (s : State) (core : Nat) : Nat :=
  (s.teamCores core).length * (s.core core).spBytes

/-- The core and offset where a team's scratchpad offset lies (R323). -/
def State.scratchPlace (s : State) (core o : Nat) : Nat × Nat :=
  let z := (s.core core).spBytes
  if o < z then ((s.teamCores core).headD core, o)
  else ((s.teamCores core).getD 1 core, o - z)

/-- Read bytes of a core's scratchpad. -/
def Core.spRead (c : Core) (o n : Nat) : List Byte :=
  (List.range' (c.spBase + o) n).map fun a => c.sram.get 0 a

/-- Put bytes into the SRAM from an address. -/
def sramPut : List Byte → Nat → Tab Byte → Tab Byte
  | [], _, m => m
  | b :: bs, a, m => sramPut bs (a + 1) (m.set 0 a b)

/-- Write bytes of a core's scratchpad, with the tag of the granule (R294). -/
def Core.spWrite (c : Core) (o : Nat) (bs : List Byte) (tag : BitVec 4) : Core :=
  let a := c.spBase + o
  { c with sram := sramPut bs a c.sram
           tags := (List.range' (a / granuleBytes) ((a + bs.length - 1) / granuleBytes + 1 - a / granuleBytes)).foldl
             (fun t g => t.set 0 g tag) c.tags
           sramPoison := if bs.length % 4 = 0 then
               c.sramPoison.filter fun w => !(a / 4 ≤ w && w < (a + bs.length) / 4)
             else c.sramPoison }

/-- A word of the scratchpad holds an uncorrectable error. -/
def Core.spPoisoned (c : Core) (o n : Nat) : Bool :=
  c.sramPoison.any fun w => (c.spBase + o) / 4 ≤ w && w ≤ (c.spBase + o + n - 1) / 4

/-- W of R329: the most distinct words that one bank of one side serves. -/
def bankConflict (words : List (Nat × Nat)) : Nat :=
  let ws := words.eraseDups
  ws.foldl (fun m (side, w) =>
    max m (ws.filter fun (t, v) => t == side && v % 32 == w % 32).length) 1

/-- The words that an access of n bytes touches. -/
def wordsOf (place : Nat × Nat) (n : Nat) : List (Nat × Nat) :=
  (List.range ((n + 3) / 4)).map fun i => (place.1, place.2 / 4 + i)

/-- Row of a scratchpad access from one core to another (R335). -/
def scratchRow (core target : Nat) : Nat :=
  if target = core then Config.rowScratchOwn
  else if target = pairOf core then Config.rowScratchPair
  else Config.rowScratchCluster

/-- SCRATCH_RANGE of the offsets that leave the team's scratchpad (R323). -/
def State.scratchTraps (s : State) (core n : Nat) (as : List (Nat × Nat)) : List LaneTrap :=
  as.filterMap fun (l, o) =>
    if o % n ≠ 0 then some (.at_ l causeMisalign (BitVec.ofNat 64 o))
    else if s.teamScratch core < o + n then some (.at_ l causeScratchRange (BitVec.ofNat 64 o))
    else none

/-- Target core and offset of a cluster word (R324). -/
def clusterPlace (core w : Nat) : Nat × Nat := (core / 8 * 8 + w / 2 ^ 24 % 8, w % 2 ^ 20)

/-- MISALIGN, then SCRATCH_RANGE, of cluster words (R324, R325). -/
def State.clusterTraps (s : State) (core n : Nat) (as : List (Nat × Nat)) : List LaneTrap :=
  as.filterMap fun (l, w) =>
    if w % n ≠ 0 then some (.at_ l causeMisalign (BitVec.ofNat 64 w))
    else if w / 2 ^ 27 ≠ 0 ∨ w / 2 ^ 20 % 16 ≠ 0 ∨ (s.core core).spBytes < w % 2 ^ 20 + n then
      some (.at_ l causeScratchRange (BitVec.ofNat 64 w))
    else none

/-- A team side of the issuing core's launch is resident on the target (R335). -/
def State.reaches (s : State) (core target : Nat) : Bool :=
  match (s.core core).side, (s.core target).side with
  | some a, some b => a.launch == b.launch
  | _, _ => false

/-- A dropped cluster access is counted (R335). -/
def State.dropX (s : State) (core : Nat) : State :=
  s.modPart (s.corePart core) fun p => { p with xdrop := p.xdrop + 1 }

/-- A scratchpad access of a lane: where it goes and when it is back. -/
structure ScratchReq where
  lane : Nat
  core : Nat
  off : Nat
  due : Nat
  deriving DecidableEq, Repr

/-- The lanes of a scratchpad access, with their port cycles (R329). cluster: the words are cluster
words. -/
def State.scratchLanes (s : State) (x : Ctx) (n : Nat) (cluster : Bool) (addr : Ctx → Nat → Nat) :
    List ScratchReq × State :=
  let lv := x.levelTraps
  let as := (x.without lv).map fun l => (l, addr x l)
  let ts := if cluster then s.clusterTraps x.core n as else s.scratchTraps x.core n as
  let s := s.finish x (lv ++ ts) []
  let ok := as.filter fun a => !(ts.any fun t => t.lane == a.1)
  let places := ok.map fun (l, o) =>
    (l, if cluster then clusterPlace x.core o else s.scratchPlace x.core o)
  let w := bankConflict (places.flatMap fun p => wordsOf p.2 n)
  let (outs, s) := if places.isEmpty then ([], s) else s.takeScratch x.core x.slot x.e w
  let start := outs.headD (x.e + 1)
  (places.map fun (l, c, o) => ⟨l, c, o, start + scratchRow x.core c + w - 2⟩, s)

/-- A lane's result of a scratchpad access. -/
def State.scratchAnswer (s : State) (x : Ctx) (r : ScratchReq) (regs v : Nat) : State :=
  let s := s.modThread x.core x.slot r.lane fun t => { t with loadsDone := max t.loadsDone r.due }
  match x.f.dst with
  | .v _ _ => s.deliver x.core x.slot r.lane x.tag r.due (natWords regs v)
  | _ => s

/-- LDS, and LDX with cluster set (R332, R335). -/
def State.scratchLoad (s : State) (sh : Shape) (f : Fields) (cluster : Bool) : State :=
  let (x, s) := s.begin sh f
  let n := memSize f.mod
  let (rs, s) := s.scratchLanes x n cluster Ctx.scratchAddr
  rs.foldl (fun s r =>
    let s := s.pend x.core x.slot r.lane f.dst (sizeRegs f.mod) x.tag true
    if cluster && !s.reaches x.core r.core then (s.dropX x.core).scratchAnswer x r (sizeRegs f.mod) 0
    else
      let c := s.core r.core
      if c.spPoisoned r.off n then
        s.faultLane x.core x.slot r.lane causePoison (BitVec.ofNat 64 (x.scratchAddr r.lane)) x.pc
      else s.scratchAnswer x r (sizeRegs f.mod)
        (loadValue n (f.mod.getLsbD 3) (c.spRead r.off n))) s

/-- STS, and STX with cluster set (R332, R335). -/
def State.scratchStore (s : State) (sh : Shape) (f : Fields) (cluster : Bool) : State :=
  let (x, s) := s.begin sh f
  let n := memSize f.mod
  let (rs, s) := s.scratchLanes x n cluster Ctx.scratchAddr
  rs.foldl (fun s r =>
    let s := s.modThread x.core x.slot r.lane fun t => { t with storesDone := max t.storesDone r.due }
    if cluster && !s.reaches x.core r.core then s.dropX x.core
    else s.modCore r.core fun c =>
      c.spWrite r.off (leBytes n (x.value r.lane f.dst (sizeRegs f.mod) .int)) 0) s

/-! ## PREF, CCTL, ICINV and IFENCE -/

/-- The distinct line of each request, by its first lane. -/
def firstOfLine (rs : List Request) : List Request := rs.filter (·.first)

/-- The address that PREF, CCTL and ICINV act on: bits [6:0] are ignored (R336, R337). -/
def lineAddr (a : DWord) : DWord := a &&& ~~~127

/-- The lanes whose line PREF does not drop (R336). -/
def State.prefLanes (s : State) (x : Ctx) (as : List (Nat × DWord)) : List LaneAcc × State :=
  as.foldl (fun (acc, s) (l, va) =>
    match s.resolveLane x.core x.slot l va.toNat Need.read with
    | .ok (.mem pa, t) => if s.poisoned pa 128 then (acc, t) else (acc ++ [⟨l, va, .mem pa⟩], t)
    | _ => (acc, s)) ([], s)

/-- PREF (R336). -/
def State.prefOp (s : State) (sh : Shape) (f : Fields) : State :=
  let (x, s) := s.begin sh f
  let lv := x.levelTraps
  let s := s.finish x lv []
  let (accs, s) := s.prefLanes x ((x.without lv).map fun l => (l, lineAddr (x.globalAddr l)))
  let (rs, s) := s.requests x accs
  (rs.filter (·.first)).foldl (fun s r => s.laneAccess x r 128 0 0 false (.pref (f.mod.getLsbD 0))) s

/-- Scope of an instruction as it executes, once for an issue with active lanes (R370). -/
def State.scopeOf (s : State) (x : Ctx) (scope : Nat) : Nat × State :=
  if x.actives.isEmpty then (scope, s) else s.demote x.core scope

/-- CCTL (R337): wb and inv say what is done. -/
def State.cctlOp (s : State) (sh : Shape) (f : Fields) (wb inv : Bool) : State :=
  let (x, s) := s.begin sh f
  let lv := x.levelTraps
  let (scope, s) := if wb then s.scopeOf x (f.mod.toNat % 8) else (0, s)
  let s := s.finish x lv []
  let (accs, s) := s.resolveAll x Need.any
    ((x.without lv).map fun l => (l, lineAddr (x.globalAddr l)))
  let (rs, s) := s.requests x accs
  rs.foldl (fun s r => s.laneAccess x r 128 0 scope false (.cctl wb inv)) s

/-- The cores of a partition (R19). -/
def State.partCores (s : State) (part : Nat) : List Nat :=
  (List.range 384).filter fun c => (s.part part).clmask.getLsbD (pkgCluster c)

/-- The target cores of a scope (R339). -/
def State.scopeCores (s : State) (core scope : Nat) : List Nat :=
  match scope with
  | 0 => [core]
  | 1 => [core / 2 * 2, core / 2 * 2 + 1]
  | 2 => List.range' (core / 8 * 8) 8
  | 3 => (List.range' (core / 64 * 64) 64)
  | _ => s.partCores (s.corePart core)

/-- Round trip of a request to the farthest target core (R339). -/
def State.icinvRow (s : State) (core scope : Nat) : Nat :=
  match scope with
  | 0 => Config.rowScratchOwn
  | 1 => Config.rowScratchPair
  | 2 => Config.rowScratchCluster
  | 3 => Config.rowFar
  | _ =>
    (s.partCores (s.corePart core)).foldl (fun m c => max m
      (if dieOf c = dieOf core then Config.rowFar
       else Config.rowOtherDie + crossing (hubOfCore core) (hubOfCore c))) Config.rowFar

/-- A core drops a line, or everything, from its instruction cache and empties its loop buffers; cores
of other partitions are not touched (R339). -/
def State.icinvCore (s : State) (part core : Nat) (line : Option Nat) : State :=
  if (s.core core).owner ≠ some part then s
  else s.modCore core fun c =>
    { c with loops := []
             icache := match line with
               | some l => c.icache.filter fun x => x.line != l
               | none => [] }

/-- Invalidate at the target cores of a scope. -/
def State.icinvLine (s : State) (core scope : Nat) (line : Option Nat) : State :=
  (s.scopeCores core scope).foldl (fun s c => s.icinvCore (s.corePart core) c line) s

/-- Completion of the requests that leave one per cycle from the first cycle they may (R339). -/
def State.icinvDone (s : State) (x : Ctx) (lane n scope : Nat) : State :=
  let row := s.icinvRow x.core scope
  s.modThread x.core x.slot lane fun t =>
    { t with storesDone := max (x.e + 1) t.storesDone + (n - 1) + row }

/-- The line under which a cache of a core holds a target: where its bytes stand by now (R174). -/
def State.heldAs (s : State) : Target → Nat
  | .mem pa => s.routeRead pa / 128
  | t => t.line

/-- ICINV (R339). -/
def State.icinvOp (s : State) (sh : Shape) (f : Fields) : State :=
  let (x, s) := s.begin sh f
  let scope := f.mod.toNat % 8
  let lv := x.levelTraps
  let s := s.finish x lv []
  let ok := x.without lv
  if f.mod.getLsbD 3 then
    if ok.isEmpty then s
    else
      let s := s.icinvLine x.core scope none
      let (_, s) := s.takeGlobal x.core x.slot x.e 1
      ok.foldl (fun s l => s.icinvDone x l 1 scope) s
  else
    let (accs, s) := s.resolveAll x Need.any (ok.map fun l =>
      (l, lineAddr (BitVec.ofNat 64 (x.value l f.a 2 .int))))
    let (rs, s) := s.requests x accs
    let lines := firstOfLine rs
    let s := lines.foldl (fun s r => s.icinvLine x.core scope (some (s.heldAs r.acc.tgt))) s
    rs.foldl (fun s r => s.icinvDone x r.acc.lane lines.length scope) s

/-- IFENCE (R340). -/
def State.ifenceOp (s : State) (sh : Shape) (f : Fields) : State :=
  let (x, s) := s.begin sh f
  let s := s.finish x [] []
  x.actives.foldl (fun s l =>
    let s := s.modThread x.core x.slot l fun t => { t with next := max t.next (x.e + 1 + 4) }
    s.modCore x.core fun c => { c with loops := c.loops.put l [] }) s

/-! ## Meanings -/

/-- LD in W32 form (R77, R332). -/
def execLdW32 (x : Short) (s : State) : Res := .next (s.loadOp (Instr.ldW32 x).shape x.fields)
/-- LD (R332). -/
def execLd (f : Fields) (s : State) : Res := .next (s.loadOp (Instr.ld f).shape f)
/-- ST in W32 form (R77, R332). -/
def execStW32 (x : Short) (s : State) : Res := .next (s.storeOp (Instr.stW32 x).shape x.fields)
/-- ST (R332). -/
def execSt (f : Fields) (s : State) : Res := .next (s.storeOp (Instr.st f).shape f)
/-- LDS in W32 form (R77, R332). -/
def execLdsW32 (x : Short) (s : State) : Res :=
  .next (s.scratchLoad (Instr.ldsW32 x).shape x.fields false)
/-- LDS (R332). -/
def execLds (f : Fields) (s : State) : Res := .next (s.scratchLoad (Instr.lds f).shape f false)
/-- STS in W32 form (R77, R332). -/
def execStsW32 (x : Short) (s : State) : Res :=
  .next (s.scratchStore (Instr.stsW32 x).shape x.fields false)
/-- STS (R332). -/
def execSts (f : Fields) (s : State) : Res := .next (s.scratchStore (Instr.sts f).shape f false)
/-- LDX (R332, R335). -/
def execLdx (f : Fields) (s : State) : Res := .next (s.scratchLoad (Instr.ldx f).shape f true)
/-- STX (R332, R335). -/
def execStx (f : Fields) (s : State) : Res := .next (s.scratchStore (Instr.stx f).shape f true)
/-- PREF (R336). -/
def execPref (f : Fields) (s : State) : Res := .next (s.prefOp (Instr.pref f).shape f)
/-- CCTL.wb (R337). -/
def execCctlWb (f : Fields) (s : State) : Res :=
  .next (s.cctlOp (Instr.cctlWb f).shape f true false)
/-- CCTL.inv (R337). -/
def execCctlInv (f : Fields) (s : State) : Res :=
  .next (s.cctlOp (Instr.cctlInv f).shape f false true)
/-- CCTL.wbinv (R337). -/
def execCctlWbinv (f : Fields) (s : State) : Res :=
  .next (s.cctlOp (Instr.cctlWbinv f).shape f true true)
/-- ICINV (R339). -/
def execIcinv (f : Fields) (s : State) : Res := .next (s.icinvOp (Instr.icinv f).shape f)
/-- IFENCE (R340). -/
def execIfence (f : Fields) (s : State) : Res := .next (s.ifenceOp (Instr.ifence f).shape f)

end Sys2Proof.Machine
end

