-- ==== Sys2Proof/Machine/Atomics.lean ====
section
/-! DEFINITION. Atomics (R396 to R403) and LAST (R410): the lanes of one instruction that fall in one line
or word are performed together, in ascending lane order, at the place where the location lives. -/

namespace Sys2Proof.Machine

/-- Scope, release and acquire of an atomic's mod5 (R400). -/
def atomScope (m : BitVec 5) : Nat := m.toNat % 8
def atomRel (m : BitVec 5) : Bool := m.getLsbD 4
def atomAcq (m : BitVec 5) : Bool := m.getLsbD 3

/-- The 64-bit address operand of an atomic. -/
def Ctx.atomAddr (x : Ctx) (l : Nat) : DWord := BitVec.ofNat 64 (x.value l x.f.a 2 .int)

/-- A global atomic (R402, R403): op is the operation of a lane. -/
def State.atomicOp (s : State) (sh : Shape) (f : Fields) (size regs : Nat) (rel acq : Bool)
    (op : Ctx → Nat → HeldOp) : State :=
  let (x, s) := s.begin sh f
  let (scope, s) := s.scopeOf x (atomScope f.mod)
  let (rs, s) := s.globalLanes x size Need.both Ctx.atomAddr
  rs.foldl (fun s r =>
    let l := r.acc.lane
    let s := if rel then s.publishPhase x.core x.slot l scope else s
    s.laneAccess x r size regs scope acq (op x l)) s

/-- The value operand of an atomic. -/
def Ctx.atomValue (x : Ctx) (ty : AType) (l : Nat) : Nat := x.value l x.f.b ty.regs .int

/-- The operation of ACAS: compare in the first half of the run, new in the second (R400). -/
def Ctx.casOp (x : Ctx) (ty : AType) (l : Nat) : HeldOp :=
  let v := x.value l x.f.b (2 * ty.regs) .int
  .cas ty (v % 2 ^ (32 * ty.regs)) (v / 2 ^ (32 * ty.regs))

/-- A scratchpad atomic of one lane at the bank (R397, R402); the granule's tag becomes 0b0000. -/
def State.bankAtomic (s : State) (x : Ctx) (r : ScratchReq) (size : Nat) (op : HeldOp)
    (regs : Nat) : State :=
  let c := s.core r.core
  if c.spPoisoned r.off size then
    s.faultLane x.core x.slot r.lane causePoison (BitVec.ofNat 64 (x.value r.lane x.f.a 1 .int)) x.pc
  else
    let (new, ret) := op.update (leNat (c.spRead r.off size))
    let s := s.modCore r.core fun c => c.spWrite r.off (leBytes size new) 0
    s.scratchAnswer x r regs ret

/-- ATOMS, and ATOMX with cluster set (R396, R402). -/
def State.scratchAtomic (s : State) (sh : Shape) (f : Fields) (o : AtomOp) (ty : AType)
    (cluster : Bool) : State :=
  let (x, s) := s.begin sh f
  let rel := atomRel f.mod
  let acq := atomAcq f.mod
  let (scope, s) := if rel || acq then s.scopeOf x (atomScope f.mod) else (atomScope f.mod, s)
  let size := 4 * ty.regs
  let (rs, s) := s.scratchLanes x size cluster fun x l => x.value l x.f.a 1 .int
  rs.foldl (fun s r =>
    let s := if rel then s.publishPhase x.core x.slot r.lane scope else s
    let s := s.pend x.core x.slot r.lane f.dst ty.regs x.tag true
    let s :=
      if cluster && !s.reaches x.core r.core then (s.dropX x.core).scratchAnswer x r ty.regs 0
      else s.bankAtomic x r size (.atom o ty (x.atomValue ty r.lane)) ty.regs
    if acq then s.acquireAfter x.core x.slot r.lane scope r.due else s) s

/-! ## Meanings -/

/-- ATOM (R402). -/
def execAtom (o : AtomOp) (ty : AType) (f : Fields) (s : State) : Res :=
  .next (s.atomicOp (Instr.atom o ty f).shape f (4 * ty.regs) ty.regs (atomRel f.mod) (atomAcq f.mod)
    fun x l => .atom o ty (x.atomValue ty l))

/-- ACAS (R402). -/
def execAcas (ty : AType) (f : Fields) (s : State) : Res :=
  .next (s.atomicOp (Instr.acas ty f).shape f (4 * ty.regs) ty.regs (atomRel f.mod) (atomAcq f.mod)
    fun x l => x.casOp ty l)

/-- RED (R402): no result. -/
def execRed (o : AtomOp) (ty : AType) (f : Fields) (s : State) : Res :=
  .next (s.atomicOp (Instr.red o ty f).shape f (4 * ty.regs) 0 (atomRel f.mod) false
    fun x l => .atom o ty (x.atomValue ty l))

/-- ATOMS (R402). -/
def execAtoms (o : AtomOp) (ty : AType) (f : Fields) (s : State) : Res :=
  .next (s.scratchAtomic (Instr.atoms o ty f).shape f o ty false)

/-- ATOMX (R402). -/
def execAtomx (o : AtomOp) (ty : AType) (f : Fields) (s : State) : Res :=
  .next (s.scratchAtomic (Instr.atomx o ty f).shape f o ty true)

/-- LAST (R410). -/
def execLast (f : Fields) (s : State) : Res :=
  .next (s.atomicOp (Instr.last f).shape f 4 1 true false
    fun x l => .last (BitVec.ofNat 32 (x.value l f.b 1 .int)))

end Sys2Proof.Machine
end

