-- ==== Sys2Proof/Machine/Flags.lean ====
section
/-! DEFINITION. Predicate results: the part has no flags register, and these are the bits that its
comparing and carrying instructions write to predicates (R236, R245, R251, R268), with the class
word of FCLASS (R269). -/

namespace Sys2Proof.Machine

/-- An integer relation (R245). -/
def cmpInt (r : Cmp) (a b : Int) : Bool :=
  match r with
  | .eq => a == b
  | .ne => a != b
  | .lt => a < b
  | .le => a ≤ b
  | .gt => b < a
  | .ge => b ≤ a

/-- A float relation, ordered or not (R268). +0 and −0 compare equal. -/
def cmpFloat (r : FCmp) (a b : Value) : Bool :=
  if a = .nan ∨ b = .nan then
    match r with
    | .ne => true
    | .nan => true
    | _ => false
  else
    match r with
    | .eq => a.cmp b == .eq
    | .ne => a.cmp b != .eq
    | .lt => a.cmp b == .lt
    | .le => a.cmp b != .gt
    | .gt => a.cmp b == .gt
    | .ge => a.cmp b != .lt
    | .num => true
    | .nan => false

/-- The result bit of a truth table (R71): T[4a + 2b + c]. -/
def truthBit (tt : BitVec 8) (a b c : Bool) : Bool := tt.getLsbD (4 * a.toNat + 2 * b.toNat + c.toNat)

/-- The condition of WAITC on the location's value x and the right-hand side y (R404). -/
def waitRel (r : WRel) (uns : Bool) (w64 : Bool) (x y : Nat) : Bool :=
  let w := if w64 then 64 else 32
  let x := x % 2 ^ w
  let y := y % 2 ^ w
  let lt := if uns then decide (x < y) else decide (toInt w x < toInt w y)
  match r with
  | .eq => x == y
  | .ne => x != y
  | .lt => lt
  | .le => lt || x == y
  | .gt => !(lt || x == y)
  | .ge => !lt
  | .any => x &&& y != 0
  | .none => x &&& y == 0

/-- The class word of an encoding (R269): one bit of ten. -/
def classWord (f : FloatFmt) (code : Nat) : Nat :=
  let m := code % 2 ^ f.mbits
  let e := code / 2 ^ f.mbits % 2 ^ f.ebits
  let neg := code / 2 ^ (f.mbits + f.ebits) % 2 = 1
  if e = 2 ^ f.ebits - 1 then
    if m = 0 then (if neg then 2 ^ 0 else 2 ^ 7)
    else if m / 2 ^ (f.mbits - 1) = 0 then 2 ^ 8 else 2 ^ 9
  else if e = 0 then
    if m = 0 then (if neg then 2 ^ 3 else 2 ^ 4)
    else (if neg then 2 ^ 2 else 2 ^ 5)
  else (if neg then 2 ^ 1 else 2 ^ 6)

end Sys2Proof.Machine
end

