-- ==== Sys2Proof/Machine/Sync.lean ====
section
/-! DEFINITION. WAITC and its monitors (R404 to R407), PHASE (R408), the team barriers (R411 to R414, R527)
and the convergence registers (R415 to R419, R527). -/

namespace Sys2Proof.Machine

/-! ## WAITC -/

/-- Condition monitors taken at a slice of the package: one for each group and line of parked
conditions, one for each parked queue lane (R406, R119). -/
def State.monitorsAt (s : State) (pa : Nat) : Nat :=
  let here := fun (a : Nat) => homeDie a == homeDie pa && homeSlice a == homeSlice pa
  let cs := (s.conds.filter fun c => c.mon && here c.pa).map fun c => (c.core, c.slot, c.pa / 128)
  cs.eraseDups.length + (s.queueWaits.filter fun q => q.mon && here q.qpa).length

/-- A lane's condition takes or shares a monitor; the pool and peer windows never do (R406). -/
def State.takesMonitor (s : State) (c : CondWait) : Bool :=
  !c.peer && !(decide (poolStart ≤ c.pa)) &&
    ((s.conds.any fun d => d.mon && d.core == c.core && d.slot == c.slot && d.pa / 128 == c.pa / 128) ||
      decide (s.monitorsAt c.pa < 64))

/-- What one evaluation comes to (R405). -/
inductive Eval where
  | met | unmet | poison
  deriving DecidableEq, Repr

/-- Evaluate a condition at the home slice: the location as the lane's thread sees it there (R372). -/
def State.evalCond (s : State) (c : CondWait) : Eval × State :=
  let n := if c.w64 then 8 else 4
  let p := s.routeRead c.pa
  if c.peer then
    let (bs, s) := s.outside n
    (if waitRel c.rel c.uns c.w64 (leNat bs) c.value.toNat then .met else .unmet, s)
  else if s.needsHandover c.pa then (.unmet, s.askHandover c.pa)
  else if s.poisoned p n then (.poison, s)
  else
    (if waitRel c.rel c.uns c.w64 (leNat (s.view (.core c.core) p n)) c.value.toNat then .met
     else .unmet, s)

/-- A lane of WAITC receives its status in a cycle; it makes the effect of PHASE.snap when its group
goes on (R405). -/
def State.endCond (s : State) (c : CondWait) (st : Word) (due : Nat) : State :=
  let s := { s with conds := s.conds.filter fun d => d.stamp != c.stamp }
  let s := s.deliver c.core c.slot c.lane c.tag due [st]
  s.modThread c.core c.slot c.lane fun t => { t.endWait due with acqNext := some c.scope }

/-- The evaluation that meets a condition is a load of the value it compared (R405): the thread joins the phase
of the tentative writes that gave it (R376), and an L1 copy of the line, which may be older, leaves (R383). -/
def State.condLoad (s : State) (c : CondWait) : State :=
  if c.peer then s
  else
    let p := s.routeRead c.pa
    let src := (List.range' p (if c.w64 then 8 else 4)).map (s.sourceOf c.core)
    (s.joinPhase c.core (s.thread c.core c.slot c.lane).index src).modCore c.core fun x => x.l1Drop p

/-- An evaluation of a lane whose result is back in a cycle. -/
def State.tryCond (s : State) (c : CondWait) (due : Nat) : State :=
  match s.evalCond c with
  | (.met, s) => (s.condLoad c).endCond c (status stOk 0) due
  | (.unmet, s) => s
  | (.poison, s) =>
    let pc := (s.thread c.core c.slot c.lane).pc
    { s with conds := s.conds.filter fun d => d.stamp != c.stamp }.faultLane
      c.core c.slot c.lane causePoison c.va pc

/-- A lane parks its condition: with a monitor, or polling every 512 cycles (R406). -/
def State.parkCond (s : State) (c : CondWait) (timed : Bool) (e : Nat) : State :=
  let s := s.tick
  let c := { c with stamp := s.order, mon := s.takesMonitor c }
  let s := { s with conds := s.conds ++ [c] }
  let s := if c.mon then s else s.scheduleOnce (s.now + 512) (.monitorPoll c.core c.slot)
  if timed then s.schedule (e + 65536) (.waitcTimeout c.core c.slot c.stamp) else s

/-- The condition of a lane of a WAITC issue. -/
def Ctx.condOf (x : Ctx) (r : WRel) (u w64 : Bool) (scope : Nat) (q : Request) : CondWait :=
  { core := x.core, slot := x.slot, lane := q.acc.lane, va := q.acc.va
    pa := match q.acc.tgt with | .mem pa => pa | .peer _ off => off
    rel := r, uns := u, w64 := w64
    value := BitVec.ofNat 64 (x.value q.acc.lane x.f.b (if w64 then 2 else 1) .int)
    tag := x.tag, scope := scope
    peer := match q.acc.tgt with | .mem _ => false | .peer _ _ => true
    mon := false, stamp := 0 }

/-- WAITC (R405). -/
def State.waitcOp (s : State) (sh : Shape) (f : Fields) (r : WRel) (u w64 : Bool) : State :=
  let (x, s) := s.begin sh f
  let (scope, s) := s.scopeOf x (f.mod.toNat % 8)
  let lv := x.levelTraps
  let as := (x.without lv).map fun l => (l, x.atomAddr l)
  let ts := lv ++ misaligned (if w64 then 8 else 4) as
  let as := as.filter fun a => !(ts.any fun t => t.lane == a.1)
  let s := s.finishWait x ts (as.map fun a => (a.1, .cond)) true []
  let s := as.foldl (fun s a => s.pend x.core x.slot a.1 f.dst 1 x.tag false) s
  let (accs, s) := s.resolveAll x Need.read as
  let (rs, s) := s.requests x accs
  let s := s.blockGroup x
  let s := rs.foldl (fun s q => s.parkCond (x.condOf r u w64 scope q) (f.mod.getLsbD 3) x.e) s
  let mine := s.conds.filter fun c => c.core == x.core && c.slot == x.slot && c.tag == x.tag
  let s := mine.foldl (fun s c =>
    s.tryCond c (((rs.find? fun q => q.acc.lane == c.lane).map Request.due).getD x.e)) s
  s.wakeGroup x.core x.slot (rs.foldl (fun m q => max m q.due) (x.e + 1))

/-- Lanes of parked conditions are evaluated again; a group whose lanes are all served becomes Ready. -/
def State.retryConds (s : State) (cs : List CondWait) (due : CondWait → Nat) : State :=
  cs.foldl (fun s c => (s.tryCond c (due c)).wakeGroup c.core c.slot (due c)) s

/-- MONITOR_REEVALUATE (R406): the cycle after the write, so that the group issues no earlier than the
WAITC row after it. -/
def State.monitorReevaluate (s : State) (line : Nat) : State :=
  s.retryConds (s.conds.filter fun c => c.mon && c.pa / 128 == line)
    fun c => s.now + Config.rowWaitc + crossing (hubOfCore c.core) (homeHub c.pa) - 2

/-- MONITOR_POLL (R406): polling lanes of a group, every 512 cycles. -/
def State.monitorPoll (s : State) (core slot : Nat) : State :=
  let mine := fun (c : CondWait) => c.core == core && c.slot == slot && !c.mon
  let s := s.retryConds (s.conds.filter mine) fun c =>
    s.now + (if c.peer then s.peerRow core (windowPod c.va.toNat) (windowOff c.va.toNat)
      else s.accessRow core c.pa)
  if s.conds.any mine then s.scheduleOnce (s.now + 512) (.monitorPoll core slot) else s

/-- WAITC_TIMEOUT (R405). -/
def State.waitcTimeout (s : State) (core slot stamp : Nat) : State :=
  match s.conds.find? fun c => c.stamp == stamp with
  | some c => (s.endCond c (status stTimeout 0) s.now).wakeGroup core slot s.now
  | none => s

/-! ## PHASE (R408) -/

/-- PHASE: pub and snap say which halves it makes (R377, R380, R384). -/
def State.phaseOp (s : State) (sh : Shape) (f : Fields) (pub snap : Bool) : State :=
  let (x, s) := s.begin sh f
  let (scope, s) := s.scopeOf x (f.mod.toNat % 8)
  let s := s.finish x [] []
  x.actives.foldl (fun s l =>
    let s := if pub then s.publishPhase x.core x.slot l scope else s
    if snap then
      if pub then
        s.acquireAfter x.core x.slot l scope (s.thread x.core x.slot l).pubDone
      else s.acquire x.core x.slot l scope
    else s) s

/-! ## Sides, answers and live threads -/

/-- Cycles from e to the arrival at the side 0 core, and to the answer (R413, R527). -/
def arriveTime (side : Nat) : Nat := if side = 0 then 2 else 16
def answerTime (side : Nat) : Nat := if side = 0 then 2 else 32

/-- The side of the team that a core holds. -/
def State.sideOf (s : State) (core : Nat) : Nat := (s.core core).sideD.side

/-- Indices of the live threads of a list of groups. -/
def liveOf (gs : List Group) : List Nat :=
  gs.flatMap fun g => (g.threads.filter fun (_, t) => !t.exited).map fun (_, t) => t.index

/-- The live threads of a core's side: started and not exited (R411), groups saved under pressure
included. -/
def State.sideLive (s : State) (core : Nat) : List Nat :=
  let c := s.core core
  if c.side.isSome then liveOf (c.groups.map (·.2)) ++ liveOf c.sideD.pressed else []

/-- The cores that still hold a side of a team: a side that has completed has left its core (R480). -/
def State.sidesOf (s : State) (t : Team) : List Nat :=
  t.cores.filter fun c => (s.core c).side.any fun d => d.launch == t.launch && d.team == t.index

/-- The live threads of a team that runs. -/
def State.teamLive (s : State) (t : Team) : List Nat := (s.sidesOf t).flatMap s.sideLive

def Team.barrier (t : Team) (b : BitVec 3) : Barrier := t.barriers.get Barrier.zero b.toNat
def Team.conv (t : Team) (k : BitVec 4) : Conv := t.convs.get Conv.zero k.toNat

/-- Change the team whose side a core holds. -/
def State.modCoreTeam (s : State) (core : Nat) (f : Team → Team) : State :=
  s.modTeam (s.core core).sideD.launch (s.core core).sideD.team f

/-- The answer to a thread's check is in: it goes on (R527). -/
def State.answerLane (s : State) (core slot lane at_ : Nat) : State :=
  (s.modThread core slot lane fun t => t.endWait at_).wakeGroup core slot at_

/-- The waits of a core's threads that ends picks end in a cycle, and their groups wake. -/
def State.endWaits (s : State) (core : Nat) (ends : Thread → Bool) (at_ : Nat) : State :=
  let slots := ((s.core core).groups.filter fun g => g.2.threads.any fun u => ends u.2).map (·.1)
  let s := s.modCore core fun c => { c with
    groups := c.groups.map fun (k, g) => (k, g.modAll fun u => if ends u then u.endWait at_ else u) }
  slots.foldl (fun s slot => s.wakeGroup core slot at_) s

/-- A check at the side 0 core failed: the cause is raised precisely at the instruction (R527). -/
def State.lateTrap (s : State) (core slot lane cause : Nat) (addr : DWord) (at_ : Nat) : State :=
  match (s.thread core slot lane).await with
  | some a =>
    let s := s.modThread core slot lane Thread.withdraw
    let s := s.trap core slot lane cause addr a.pc a.pc a.e a.stall
    (s.modThread core slot lane fun t => { t with next := max t.next at_ }).wakeGroup core slot at_
  | none => s

/-- CONV_MISUSE with the field's code in TRAPADDR (R443, R527). -/
def State.misuse (s : State) (core slot lane : Nat) (code : Nat) (at_ : Nat) : State :=
  s.lateTrap core slot lane causeConvMisuse (BitVec.ofNat 64 code) at_

/-! ## Barriers (R411 to R414) -/

/-- The phase of a barrier completes: GEN rises, and no thread of the phase is pending (R413). -/
def Barrier.complete (b : Barrier) : Barrier :=
  { b with gen := b.gen + 1, arr := 0, pend := b.pend.filter fun p => p.2 != b.gen }

/-- Arrivals that complete the phase: N, or the live threads (R413). -/
def Barrier.target (b : Barrier) (live : Nat) : Nat := if b.n = 0 then live else b.n.toNat

/-- Whether the phase is complete. -/
def Barrier.full (b : Barrier) (live : Nat) : Bool := b.target live ≤ b.arr.toNat

/-- An arrival of a thread that is not pending (R413). -/
def Barrier.arrive (b : Barrier) (index : Nat) (count : BitVec 24) : Barrier :=
  { b with n := if b.arr = 0 then count else b.n, arr := b.arr + 1, pend := b.pend.put index b.gen }

/-- Put a barrier of the team, completed when its phase is full: both sides' waits end 2 and 16 cycles
later (R413). -/
def State.putBarrier (s : State) (t : Team) (b : BitVec 3) (x : Barrier) : State :=
  let full := x.full (s.teamLive t).length
  let x := if full then x.complete else x
  let s := s.modTeam t.launch t.index fun t => { t with barriers := t.barriers.put b.toNat x }
  if full then
    (s.sidesOf t).foldl (fun s c => s.schedule (s.now + arriveTime (s.sideOf c)) (.barrierWake c b)) s
  else s

/-- BARRIER_ARRIVAL (R413, R527). -/
def State.barrierArrival (s : State) (core slot lane : Nat) (b : BitVec 3) (count : BitVec 24)
    (kind : BarKind) : State :=
  match s.coreTeam core with
  | none => s
  | some t =>
    let th := s.thread core slot lane
    let x := t.barrier b
    let at_ := (th.await.map (·.e)).getD s.now + answerTime (s.sideOf core)
    let waits := fun (s : State) => s.modThread core slot lane fun t => { t with wait := .barrier b x.gen }
    match kind with
    | .wait => waits s
    | _ =>
      if (x.pend.find th.index).isSome then s.misuse core slot lane (0xE0 + b.toNat) at_
      else
        let s := if kind = .sync then waits s else s.answerLane core slot lane at_
        s.putBarrier t b (x.arrive th.index count)

/-- BARRIER_WAKE (R413): the waits on a core whose phase has completed end. -/
def State.barrierWake (s : State) (core : Nat) (b : BitVec 3) : State :=
  match s.coreTeam core with
  | none => s
  | some t =>
    let gen := (t.barrier b).gen
    s.endWaits core (fun u => match u.wait with | .barrier c n => c == b && n != gen | _ => false) s.now

/-- The barrier number of a BAR. -/
def Ctx.barOf (x : Ctx) : BitVec 3 := match x.f.a with | .bar n => n | _ => 0

/-- BAR (R412, R413): arrivals of the active lanes in ascending lane order. -/
def State.barOp (s : State) (sh : Shape) (f : Fields) (kind : BarKind) : State :=
  let (x, s) := s.begin sh f
  let lv := x.levelTraps
  let ok := x.without lv
  let block := kind != .arrive
  let s := s.finishWait x lv (ok.map fun l => (l, .answer)) block []
  let s := ok.foldl (fun s l =>
    s.schedule (x.e + arriveTime (s.sideOf x.core))
      (.barrierArrival x.core x.slot l x.barOf (BitVec.ofNat 24 (x.value l f.b 1 .int)) kind)) s
  if block then s.blockGroup x else s

/-! ## Convergence registers (R415 to R419) -/

/-- The convergence register of a field. -/
def Ctx.convOf (x : Ctx) (o : Opnd) : BitVec 4 := match o with | .k n => n | _ => x.f.mod.setWidth 4

/-- The new set of CDECL (R416): kind 0 mask, 1 team, 2 pair. -/
def State.declSet (s : State) (x : Ctx) (kind mask : Nat) : List Nat :=
  match kind with
  | 0 => ((x.raw.group x.slot).threads.filter fun (l, t) => !t.exited && mask.testBit l).map
      fun (_, t) => t.index
  | 1 => s.sideLive x.core
  | _ => match s.coreTeam x.core with | some t => s.teamLive t | none => []

/-- CDECL (R416, R527). -/
def State.cdeclOp (s : State) (sh : Shape) (f : Fields) : State :=
  let (x, s) := s.begin sh f
  let lv := x.levelTraps
  let ok := x.without lv
  let k := x.convOf f.a
  let kind := f.mod.toNat % 4
  let alone := (s.teamCores x.core).length < 2
  if kind = 2 ∧ alone then
    s.finish x (lv ++ ok.map fun l => .at_ l causeConvMisuse (BitVec.ofNat 64 (0xE0 + k.toNat))) []
  else
    let s := s.finishWait x lv (ok.map fun l => (l, .answer)) false []
    match ok with
    | [] => s
    | l :: _ =>
      s.schedule (x.e + arriveTime (s.sideOf x.core))
        (.cdeclEffect x.core x.slot k (s.declSet x kind (x.value l f.b 2 .int)) ok)

/-- CDECL_EFFECT (R416, R527): a set declared, or CONV_MISUSE in every lane while the round is partly
signed. -/
def State.cdeclEffect (s : State) (core slot : Nat) (k : BitVec 4) (set lanes : List Nat) : State :=
  match s.coreTeam core with
  | none => s
  | some t =>
    let c := t.conv k
    let at_ := ((s.thread core slot (lanes.headD 0)).await.map (·.e)).getD s.now + answerTime (s.sideOf core)
    if c.signed.isEmpty then
      let live := s.teamLive t
      let set := set.filter live.contains
      let s := s.modCoreTeam core fun t =>
        { t with convs := t.convs.put k.toNat { c with decl := .mask, set := set, use := .none } }
      lanes.foldl (fun s l => s.answerLane core slot l at_) s
    else lanes.foldl (fun s l => s.misuse core slot l (0xE0 + k.toNat) at_) s

/-- A signature by a thread is refused (R417). -/
def Conv.refuses (c : Conv) (index : Nat) (use : ConvUse) : Bool :=
  c.decl == .none || !(c.set.contains index) || c.signed.contains index ||
    (c.use != .none && c.use != use)

/-- The register after a signature. -/
def Conv.sign (c : Conv) (index : Nat) (use : ConvUse) : Conv :=
  { c with use := use, signed := insertNat index c.signed }

/-- Every member has signed. -/
def Conv.complete (c : Conv) : Bool := !c.signed.isEmpty && c.set.all c.signed.contains

/-- The register after its round (R415). -/
def Conv.close (c : Conv) : Conv :=
  { c with use := .none, signed := [], round := c.round + 1, dsts := [] }

/-- The waits of a completed CSIGN round end, at the times of R413 (R418). -/
def State.wakeSigners (s : State) (t : Team) (k : BitVec 4) (round : BitVec 16) : State :=
  (s.sidesOf t).foldl (fun s core =>
    s.endWaits core (fun u => u.wait == .sign k round) (s.now + arriveTime (s.sideOf core))) s

/-- A CSIGN reaches the side 0 core (R417, R418). -/
def State.csignArrival (s : State) (core slot lane : Nat) (k : BitVec 4) : State :=
  match s.coreTeam core with
  | none => s
  | some t =>
    let th := s.thread core slot lane
    let c := t.conv k
    let at_ := (th.await.map (·.e)).getD s.now + answerTime (s.sideOf core)
    if c.refuses th.index .csign then s.misuse core slot lane (0xE0 + k.toNat) at_
    else
      let d := c.sign th.index .csign
      let s := s.modThread core slot lane fun t => { t with wait := .sign k c.round }
      let e := if d.complete then d.close else d
      let s := s.modCoreTeam core fun t => { t with convs := t.convs.put k.toNat e }
      if d.complete then s.wakeSigners t k c.round else s

/-- CSIGN (R418). -/
def State.csignOp (s : State) (sh : Shape) (f : Fields) : State :=
  let (x, s) := s.begin sh f
  let lv := x.levelTraps
  let ok := x.without lv
  let s := s.finishWait x lv (ok.map fun l => (l, .answer)) true []
  let s := ok.foldl (fun s l =>
    s.schedule (x.e + arriveTime (s.sideOf x.core))
      (.signatureArrival x.core x.slot l (x.convOf f.a) false)) s
  s.blockGroup x

/-! ## Meanings -/

/-- WAITC (R405). -/
def execWaitc (r : WRel) (u w64 : Bool) (f : Fields) (s : State) : Res :=
  .next (s.waitcOp (Instr.waitc r u w64 f).shape f r u w64)

/-- PHASE.pub (R408). -/
def execPhasePub (f : Fields) (s : State) : Res :=
  .next (s.phaseOp (Instr.phasePub f).shape f true false)

/-- PHASE.snap (R408). -/
def execPhaseSnap (f : Fields) (s : State) : Res :=
  .next (s.phaseOp (Instr.phaseSnap f).shape f false true)

/-- PHASE.full (R384, R408). -/
def execPhaseFull (f : Fields) (s : State) : Res :=
  .next (s.phaseOp (Instr.phaseFull f).shape f true true)

/-- BAR.arrive (R413). -/
def execBarArrive (f : Fields) (s : State) : Res :=
  .next (s.barOp (Instr.barArrive f).shape f .arrive)

/-- BAR.wait (R413). -/
def execBarWait (f : Fields) (s : State) : Res :=
  .next (s.barOp (Instr.barWait f).shape f .wait)

/-- BAR.sync (R413). -/
def execBarSync (f : Fields) (s : State) : Res :=
  .next (s.barOp (Instr.barSync f).shape f .sync)

/-- CDECL (R416). -/
def execCdecl (f : Fields) (s : State) : Res :=
  .next (s.cdeclOp (Instr.cdecl f).shape f)

/-- CSIGN (R418). -/
def execCsign (f : Fields) (s : State) : Res :=
  .next (s.csignOp (Instr.csign f).shape f)

/-- MONITOR_REEVALUATE (R406). -/
def execMonitorReevaluate (s : State) : Res :=
  match s.event with
  | .monitorReevaluate line => .next (s.monitorReevaluate line)
  | _ => .next s

/-- MONITOR_POLL (R406). -/
def execMonitorPoll (s : State) : Res :=
  match s.event with
  | .monitorPoll core slot => .next (s.monitorPoll core slot)
  | _ => .next s

/-- WAITC_TIMEOUT (R405). -/
def execWaitcTimeout (s : State) : Res :=
  match s.event with
  | .waitcTimeout core slot stamp => .next (s.waitcTimeout core slot stamp)
  | _ => .next s

/-- BARRIER_ARRIVAL (R413). -/
def execBarrierArrival (s : State) : Res :=
  match s.event with
  | .barrierArrival core slot lane b count kind => .next (s.barrierArrival core slot lane b count kind)
  | _ => .next s

/-- BARRIER_WAKE (R413). -/
def execBarrierWake (s : State) : Res :=
  match s.event with
  | .barrierWake core b => .next (s.barrierWake core b)
  | _ => .next s

/-- CDECL_EFFECT (R416). -/
def execCdeclEffect (s : State) : Res :=
  match s.event with
  | .cdeclEffect core slot k set lanes => .next (s.cdeclEffect core slot k set lanes)
  | _ => .next s

end Sys2Proof.Machine
end

