-- ==== Sys2Proof/Machine/Queue.lean ====
section
/-! DEFINITION. Hardware queues (R109 to R122): the descriptor, one operation at its home slice, parked
operations, ENQ and DEQ, the two hart instructions, completion records (R127, R128) and the windows
through which hosts write envelopes (R129, R130). -/

namespace Sys2Proof.Machine

/-! ## The descriptor (R110) -/

structure QDesc where
  base : Nat
  log2n : Nat
  kind : Nat
  qscope : Nat
  flags : Byte
  priomax : Nat
  part : Nat
  qnum : Nat
  head : Nat
  tail : Nat
  cq : Nat
  cword : Nat
  hseq : Nat
  deriving DecidableEq, Repr

/-- n bytes of a line from an offset, as a number. -/
def lineNat (bs : List Byte) (off n : Nat) : Nat := leNat ((bs.drop off).take n)

def QDesc.ofBytes (bs : List Byte) : QDesc :=
  { base := lineNat bs 0 8, log2n := lineNat bs 8 1, kind := lineNat bs 9 1, qscope := lineNat bs 10 1,
    flags := BitVec.ofNat 8 (lineNat bs 11 1), priomax := lineNat bs 12 1, part := lineNat bs 13 1,
    qnum := lineNat bs 14 2 % 4096, head := lineNat bs 16 8, tail := lineNat bs 24 8,
    cq := lineNat bs 32 8, cword := lineNat bs 40 8, hseq := lineNat bs 48 4 }

/-- Enabled, and not malformed (R111, R112). -/
def QDesc.ok (d : QDesc) : Bool :=
  d.flags.getLsbD 0 && d.kind < 4 && d.flags.toNat < 4 && d.log2n ≤ 16 && d.base % 128 == 0 &&
    (!d.flags.getLsbD 1 || d.kind == 1)

def QDesc.slots (d : QDesc) : Nat := 2 ^ d.log2n
/-- Records held (R110). -/
def QDesc.held (d : QDesc) : Nat := (d.tail + 2 ^ 64 - d.head) % 2 ^ 64
/-- A reading of the model: log 34, DEDUCED. -/
def QDesc.full (d : QDesc) : Bool := d.held == d.slots
def QDesc.empty (d : QDesc) : Bool := d.held == 0
/-- Virtual address of the slot for a count (R110). -/
def QDesc.slotVa (d : QDesc) (c : Nat) : Nat := (d.base + 128 * (c % d.slots)) % 2 ^ 64

/-- A descriptor as a viewer sees it at its slice. -/
def State.qdesc (s : State) (v : Viewer) (qpa : Nat) : QDesc := .ofBytes (s.view v qpa 128)

/-- The descriptor's line is known as a queue of the partition (R111, R143, log 6, DEDUCED). -/
def State.knowQueue (s : State) (part qpa : Nat) : State :=
  s.modPart part fun p => { p with queues := insertNat qpa p.queues }

/-- Write a field of a descriptor of n bytes. -/
def State.putField (s : State) (qpa off n v : Nat) : State := s.agentWrite (qpa + off) (leBytes n v)

/-- The physical address that an agent of the part reaches through a partition's two stages. -/
def State.agentPa (s : State) (part : Nat) (datp : DWord) (va : Nat) (n : Need) : Option Nat :=
  match s.xlate part datp va with
  | .ok x => if s.checkXlat part n x then some x.pa else none
  | .error _ => none

/-- The same for an access that uses the translation: A is set, and D for one that writes (R159). -/
def State.agentUse (s : State) (part : Nat) (datp : DWord) (va : Nat) (n : Need) (write : Bool) :
    Option (Nat × State) :=
  match s.xlate part datp va with
  | .ok x => if s.checkXlat part n x then some (x.pa, s.setAD x write) else none
  | .error _ => none

/-! ## One operation (R116, R117) -/

/-- The service pair that an agent number names: those past the 288 harts, by die (log 7). -/
def pairAgent (h : Nat) : Option Nat := if h < 288 then none else some (h - 288)

/-- Where a requester stands: its partition, its captured DATP, and what it sees. A hart whose cluster no
partition's mask holds stands in partition 0 (log 74, DESIGN CHOICE). -/
def State.reqPart (s : State) : Requester → Nat
  | .lane core _ _ => s.corePart core
  | .hart h =>
    ((s.parts.find? fun p => p.2.clmask.getLsbD (h / 96 * 16 + h % 96 / 6)).map (·.1)).getD 0

def State.reqDatp (s : State) : Requester → DWord
  | .lane core _ _ => (s.coreLaunch core).datp
  | .hart h => (s.part (s.reqPart (.hart h))).datp

def State.reqViewer (s : State) : Requester → Viewer
  | .lane core _ _ => .core core
  | .hart h => if (pairAgent h).isSome then .merged else .part (s.reqPart (.hart h))

/-- The partition for which a queue operation is made: a service pair works for the partition of the queue
(R112, R467). -/
def State.queuePart (s : State) (who : Requester) (d : QDesc) : Nat :=
  match who with
  | .lane _ _ _ => s.reqPart who
  | .hart h => if (pairAgent h).isSome then d.part else s.reqPart who

/-- The root through which its ring slot is translated. -/
def State.queueDatp (s : State) (who : Requester) (d : QDesc) : DWord :=
  match who with
  | .lane _ _ _ => s.reqDatp who
  | .hart _ => (s.part (s.queuePart who d)).datp

/-- Read bytes of a team's scratchpad, one by one: an offset need not be aligned. -/
def State.teamRead (s : State) (core o n : Nat) : List Byte :=
  (List.range' o n).map fun o =>
    let (c, k) := s.scratchPlace core o
    ((s.core c).spRead k 1).headD 0

/-- Write bytes of a team's scratchpad. -/
def State.teamWrite (s : State) (core : Nat) (o : Nat) (bs : List Byte) (tag : BitVec 4) : State :=
  (bs.mapIdx fun i b => (o + i, b)).foldl (fun s (o, b) =>
    let (c, k) := s.scratchPlace core o
    s.modCore c fun x => x.spWrite k [b] tag) s

def State.teamPoisoned (s : State) (core o n : Nat) : Bool :=
  (List.range' o n).any fun o => let (c, k) := s.scratchPlace core o; (s.core c).spPoisoned k 1

/-- The 128 bytes that an insertion takes, as the requester sees them; none where they hold an
uncorrectable error. -/
def State.lineRead (s : State) (w : QueueWait) : Option (List Byte) :=
  match w.who with
  | .lane core _ _ =>
    if w.sp then
      if s.teamPoisoned core w.line.toNat 128 then none else some (s.teamRead core w.line.toNat 128)
    else
      let p := s.routeRead w.linePa
      if s.poisoned p 128 then none else some (s.view (.core core) p 128)
  | .hart h =>
    let p := s.routeRead w.linePa
    if s.poisoned p 128 then none else some (s.view (s.reqViewer (.hart h)) p 128)

/-- A removed record is written to its line: an ordinary store of the thread, a scratchpad store, or a
store of the hart (R117, R122). -/
def State.lineWrite (s : State) (w : QueueWait) (bs : List Byte) : State :=
  match w.who with
  | .lane core slot lane =>
    if w.sp then s.teamWrite core w.line.toNat bs 0
    else if s.dropsStore w.linePa bs then s
    else (s.clearWay w.linePa).writeStaged core (s.thread core slot lane).index w.linePa bs
  | .hart _ => if s.dropsStore w.linePa bs then s else s.agentWrite w.linePa bs

/-- What one operation comes to. -/
inductive QRes where
  | done (st : Word) (s : State)
  | park
  | fault (cause : Nat) (addr : DWord)
  /-- It is kept back: it is tried again in so many cycles. -/
  | busy (after : Nat) (s : State)

/-- An operation of a kind that the queue refuses (R112); svc: a service pair makes it. -/
def QDesc.refuses (d : QDesc) (enq svc : Bool) : Bool :=
  if enq then d.kind != 0 && d.kind != 1 else d.kind != 0 && d.kind != 3 && !(svc && d.kind == 2)

def Requester.service : Requester → Bool
  | .hart h => (pairAgent h).isSome
  | _ => false

/-- A page that has to be handed over keeps an operation back (R178), and so do a held store of the core to the
operation's line (R333) and the want of a staging line (R386). -/
def State.queueBusy (s : State) (w : QueueWait) (pas : List Nat) : Option (Nat × State) :=
  match pas.find? s.needsHandover with
  | some pa => some (512, s.askHandover pa)
  | none =>
    match w.who with
    | .lane core _ _ =>
      if !w.sp && ((s.heldLine core w.linePa (s.order + 1)).isSome ||
          (!w.enq && s.stagingFull core w.linePa)) then some (1, s) else none
    | .hart _ => none

/-- A queue operation performed at the home slice of the descriptor (R116). -/
def State.queueTry (s : State) (w : QueueWait) : QRes :=
  match s.queueBusy w (w.qpa :: if w.sp then [] else [w.linePa]) with
  | some (n, s) => .busy n s
  | none =>
    let d := s.qdesc (s.reqViewer w.who) w.qpa
    let part := s.queuePart w.who d
    let s := (s.knowQueue part w.qpa).l2Touch w.qpa false
    if !d.ok ∨ d.part ≠ part ∨ d.refuses w.enq w.who.service then .done (status stDenied 0) s
    else if (if w.enq then d.full else d.empty) then .park
    else
      let c := if w.enq then d.tail else d.head
      let need := if w.enq then Need.write else Need.read
      match s.agentUse part (s.queueDatp w.who d) (d.slotVa c) need w.enq with
      | none => .fault causePerm (BitVec.ofNat 64 (d.slotVa c))
      | some (spa, s) =>
        match s.queueBusy w [spa] with
        | some (n, s) => .busy n s
        | none =>
          let s := s.l2Touch spa false
          if w.enq then
            match s.lineRead w with
            | none => .fault causePoison w.line
            | some bs => .done (status stOk c) ((s.agentWrite spa bs).putField w.qpa 24 8 (d.tail + 1))
          else if s.poisoned spa 128 then .fault causePoison (BitVec.ofNat 64 (d.slotVa c))
          else
            let bs := s.view .merged spa 128
            .done (status stOk c) ((s.putField w.qpa 16 8 (d.head + 1)).lineWrite w bs)

/-! ## Completing and parking (R115, R119) -/

/-- Cycles of a queue operation of a core: the row of R21 on its own die, else by way of the hub. -/
def queueRow (core qpa : Nat) : Nat :=
  if homeDie qpa = dieOf core then Config.rowEnq else sliceRow core qpa

/-- Write a hart's register; x0 is hard-wired. -/
def Hart.put (h : Hart) (rd : Nat) (v : DWord) : Hart :=
  if rd = 0 then h else { h with x := h.x.put rd v }

/-- A requester has its status. A lane's dequeue is an acquire that takes effect with it, at .core a wait alone
(R118, R380). -/
def State.queueDone (s : State) (w : QueueWait) (st : Word) (due : Nat) : State :=
  match w.who with
  | .lane core slot lane =>
    let s := s.deliver core slot lane w.tag due [st]
    let s := s.modThread core slot lane fun t => { t with loadsDone := max t.loadsDone due }
    if w.enq then s else s.acquireAfter core slot lane w.scope due
  | .hart h => s.modHart h fun x =>
    { x.put w.tag (st.setWidth 64) with pc := x.pc + 4, parked := false }

/-- A hart takes an exception (R122). (Log 7, PRESUMED.) -/
def Hart.trap (h : Hart) (cause : Nat) (tval : DWord) : Hart :=
  { h with epc := h.pc, cause := BitVec.ofNat 64 cause, tval := tval, pc := h.tvec &&& ~~~3,
           parked := false }

/-- The hardware error that a hart takes for poisoned data (log 7). -/
def hartPoison : Nat := 19

/-- A fault of a requester that waited or issued (R121): terminal for a lane; for a hart a page fault, or the
hardware error (R122). -/
def State.queueFault (s : State) (w : QueueWait) (cause : Nat) (addr : DWord) : State :=
  match w.who with
  | .lane core slot lane =>
    let t := s.thread core slot lane
    s.faultLane core slot lane cause addr ((t.await.map (·.pc)).getD t.pc)
  | .hart h => s.modHart h fun x =>
    x.trap (if cause = causePoison then hartPoison else if w.enq then 15 else 13) addr

/-- Put an operation among those that wait. -/
def State.keepQueue (s : State) (w : QueueWait) : State :=
  let s := { s with queueWaits := s.queueWaits ++ [w] }
  match w.who with
  | .hart h => s.modHart h fun x => { x with parked := true }
  | .lane core slot lane =>
    -- an acquire that is kept back holds its thread (R380)
    if w.wait ∨ w.enq then s
    else s.modThread core slot lane fun t => { t with wait := .held (BitVec.ofNat 8 causeHandover) }

/-- Park an operation: with a monitor of the slice, or polling every 512 cycles (R119). -/
def State.parkQueue (s : State) (w : QueueWait) : State :=
  let s := s.tick
  let w := { w with id := s.order, mon := decide (s.monitorsAt w.qpa < 64) }
  let s := s.keepQueue w
  if w.mon then s else s.schedule (s.now + 512) (.queuePoll w.id)

/-- Keep an operation back: it is tried again after some cycles. -/
def State.delayQueue (s : State) (w : QueueWait) (after : Nat) : State :=
  let s := s.tick
  (s.keepQueue { w with id := s.order, mon := false }).schedule (s.now + after) (.queuePoll s.order)

/-- FULL or EMPTY (R121). -/
def fullWord (enq : Bool) : Word := status (if enq then stFull else stEmpty) 0

/-- A waiting operation has its status; its lane's wait ends (R119). -/
def State.queueEnds (s : State) (w : QueueWait) (st : Word) : State :=
  let due := match w.who with
    | .lane core _ _ => s.now + queueRow core w.qpa
    | .hart _ => s.now
  let s := { s with queueWaits := s.queueWaits.filter fun x => x.id != w.id }
  let s := s.queueDone w st due
  match w.who with
  | .lane core slot lane =>
    if w.wait then (s.modThread core slot lane fun t => t.endWait due).wakeGroup core slot due else s
  | .hart _ => s

/-- A waiting operation tries again (R119). -/
def State.queueRetry (s : State) (w : QueueWait) : State :=
  match s.queueTry w with
  | .park => if w.wait then s else s.queueEnds w (fullWord w.enq)
  | .busy _ s => s
  | .fault c a => { s with queueWaits := s.queueWaits.filter fun x => x.id != w.id }.queueFault w c a
  | .done st s => s.queueEnds w st

/-- QUEUE_WAITER_SERVE (R119): the parked lanes of a queue in the order in which they parked. -/
def State.queueServe (s : State) (qpa : Nat) : State :=
  (s.queueWaits.filter fun w => w.mon && w.qpa == qpa).foldl State.queueRetry s

/-- QUEUE_POLL (R119). -/
def State.queuePoll (s : State) (id : Nat) : State :=
  match s.queueWaits.find? fun w => w.id == id with
  | none => s
  | some w =>
    let after := match s.queueTry w with | .busy n _ => n | _ => 512
    let s := s.queueRetry w
    if s.queueWaits.any fun x => x.id == id then s.schedule (s.now + after) (.queuePoll id)
    else s.queueServe w.qpa

/-! ## ENQ and DEQ (R113 to R116) -/

/-- The descriptor address and the line address of a lane. -/
def Ctx.queueAddr (x : Ctx) (l : Nat) : DWord := BitVec.ofNat 64 (x.value l x.f.a 2 .int)
def Ctx.queueLine (x : Ctx) (l : Nat) : DWord :=
  BitVec.ofNat 64 (if x.f.mod.getLsbD 4 then x.value l x.f.b 1 .int else x.value l x.f.b 2 .int)

/-- MISALIGN and SCRATCH_RANGE of a queue operation (R116). -/
def State.queueTrap (s : State) (x : Ctx) (l : Nat) : Option LaneTrap :=
  let q := x.queueAddr l
  let a := x.queueLine l
  let sp := x.f.mod.getLsbD 4
  if q.toNat % 128 ≠ 0 then some (.at_ l causeMisalign q)
  else if !sp ∧ a.toNat % 128 ≠ 0 then some (.at_ l causeMisalign a)
  else if sp ∧ s.teamScratch x.core < a.toNat + 128 then some (.at_ l causeScratchRange a)
  else none

/-- Check the form of both addresses (R121), then the leases of the descriptor and the line, then translate both
(R116). (Log 35, DEDUCED.) -/
def State.queueResolve (s : State) (x : Ctx) (l : Nat) (enq : Bool) :
    Except (Nat × DWord) (Nat × Nat × State) :=
  let q := x.queueAddr l
  let a := x.queueLine l
  let need := if enq then Need.read else Need.write
  let sp := x.f.mod.getLsbD 4
  let la := s.coreLaunch x.core
  if !canonical q.toNat then .error (causePerm, q)
  else if !sp && !canonical a.toNat then .error (causePerm, a)
  else if !la.leased (q.toNat / 65536) Need.both then .error (causeLeaseOut, q)
  else if !sp && !la.leased (a.toNat / 65536) need then .error (causeLeaseOut, a)
  else
    match s.resolveLane x.core x.slot l q.toNat Need.both with
    | .ok (.mem qpa, s) =>
      if sp then .ok (qpa, 0, s)
      else
        match s.resolveLane x.core x.slot l a.toNat need with
        | .ok (.mem pa, s) => .ok (qpa, pa, s)
        | .ok (.peer _ _, _) => .error (causePerm, a)
        | .error c => .error (c, a)
    | .ok (.peer _ _, _) => .error (causePerm, q)
    | .error c => .error (c, q)

/-- One lane's operation of an issue. -/
def State.queueLane (s : State) (x : Ctx) (l scope : Nat) (enq wait : Bool) : State :=
  let s := s.pend x.core x.slot l x.f.dst 1 x.tag true
  match s.queueResolve x l enq with
  | .error (c, a) => s.faultLane x.core x.slot l c a x.pc
  | .ok (qpa, pa, s) =>
    let w : QueueWait :=
      { id := 0, who := .lane x.core x.slot l, enq := enq, q := x.queueAddr l, qpa := qpa,
        line := x.queueLine l, linePa := pa, sp := x.f.mod.getLsbD 4, scope := scope, tag := x.tag,
        wait := wait, mon := false }
    let s := if enq then s.publishPhase x.core x.slot l scope else s
    let due := x.e + queueRow x.core qpa
    let pass := fun (s : State) =>
      if wait then s.modThread x.core x.slot l fun t => t.endWait due else s
    match s.queueTry w with
    -- the lanes parked at the queue are served as soon as their operations can complete (R119)
    | .done st s => (pass (s.queueDone w st due)).queueServe qpa
    | .fault c a => s.faultLane x.core x.slot l c a x.pc
    | .busy n s => s.delayQueue w n
    | .park =>
      if wait then s.parkQueue w
      else (s.knowQueue (s.corePart x.core) qpa).queueDone w (fullWord enq) due

/-- ENQ and DEQ (R116). -/
def State.queueOp (s : State) (sh : Shape) (f : Fields) (enq : Bool) : State :=
  let (x, s) := s.begin sh f
  let wait := f.mod.getLsbD 3
  let (scope, s) := s.scopeOf x (f.mod.toNat % 8)
  let lv := x.levelTraps
  let ts := lv ++ (x.without lv).filterMap (s.queueTrap x)
  let ok := x.without ts
  if wait then
    let s := (s.finishWait x ts (ok.map fun l => (l, .queue)) true []).blockGroup x
    let s := ok.foldl (fun s l => s.queueLane x l scope enq true) s
    s.wakeGroup x.core x.slot (ok.foldl (fun m l => max m (s.thread x.core x.slot l).next) (x.e + 1))
  else
    let s := s.finish x ts []
    ok.foldl (fun s l => s.queueLane x l scope enq false) s

/-! ## The hart instructions (R122) -/

/-- The physical address that a hart's address names through its satp and the partition's G-stage; bit is the
permission asked for: 1 read, 2 write, 3 execute. A service pair's address is physical (log 7), and the hubs refuse
a pair in reset (R470). -/
def State.hartWalk (s : State) (h : Nat) (va : Nat) (bit : Nat) : Option Nat :=
  let part := s.reqPart (.hart h)
  let satp := (s.hart h).satp
  match pairAgent h with
  | some d => if (s.pairs.get Pair.reset d).inReset then none else some va
  | none =>
  if satp.toNat / 2 ^ 60 = 0 then
    match s.walkG part va true with
    | .ok l => if pteBit l.pte 4 && pteBit l.pte bit then some (l.addr va) else none
    | .error _ => none
  else
    match s.xlate part satp va true with
    | .ok x =>
      let ok := fun k => pteBit x.one.pte k && pteBit x.two.pte k
      if ok bit then some x.pa else none
    | .error _ => none

/-- The memory that a hart reaches. -/
def State.hartPa (s : State) (h : Nat) (va : Nat) (write : Bool) : Option Nat :=
  (s.hartWalk h va (if write then 2 else 1)).filter fun pa => (tierOf pa).isSome

/-- A translation of a hart that fails does so at the G-stage: its own tables grant the permission, or an
entry of theirs has no translation (read here as a number that no entry holds). -/
def State.hartGuest (s : State) (h : Nat) (va : Nat) (bit : Nat) : Bool :=
  let part := s.reqPart (.hart h)
  let satp := (s.hart h).satp
  if satp.toNat / 2 ^ 60 = 0 then true
  else if va / 2 ^ 57 ≠ (if va.testBit 56 then 127 else 0) then false
  else
    let read := fun a => some (((s.gAddr part a true).map fun p => s.mergedNat p 8).getD (2 ^ 64 + 0xCF))
    match walkTable true read (va % 2 ^ 57) 5 (satp.toNat % 2 ^ 44 * 2 ^ 12) 9 with
    | .ok l => decide (2 ^ 64 ≤ l.pte) || pteBit l.pte bit
    | .error _ => false

/-- The exception of a hart whose access of a kind (the permission bit it asks for) reaches nothing: a page
fault, a guest-page fault, or an access fault where a translation names no memory (R122). -/
def State.hartCause (s : State) (h : Nat) (va : Nat) (bit : Nat) : Nat :=
  let (access, page) := match bit with
    | 1 => (5, 13)
    | 2 => (7, 15)
    | _ => (1, 12)
  match if (pairAgent h).isSome then some 0 else s.hartWalk h va bit with
  | some _ => access
  | none => if s.hartGuest h va bit then page + 8 else page

/-- lnl.enq and lnl.deq: the effect of ENQ or DEQ for one lane (R122). -/
def State.hartQueue (s : State) (scope : Nat) (wait enq : Bool) (rs2 rs1 rd : BitVec 5) : State :=
  match s.turn with
  | .hart h =>
    let s := { s with turn := .idle }
    let reg := fun (r : BitVec 5) => if r = 0 then (0 : DWord) else (s.hart h).x.get 0 r.toNat
    let q := reg rs1
    let a := reg rs2
    let aBit := if enq then 1 else 2
    if q.toNat % 128 ≠ 0 then s.modHart h fun x => x.trap 6 q
    else if a.toNat % 128 ≠ 0 then s.modHart h fun x => x.trap (if enq then 4 else 6) a
    else
      match s.hartPa h q.toNat true, s.hartPa h a.toNat (!enq) with
      | none, _ => s.modHart h fun x => x.trap (s.hartCause h q.toNat 2) q
      | _, none => s.modHart h fun x => x.trap (s.hartCause h a.toNat aBit) a
      | some qpa, some pa =>
        let s := if (pairAgent h).isSome then s else (s.demotePart (s.reqPart (.hart h)) scope).2
        let w : QueueWait :=
          { id := 0, who := .hart h, enq := enq, q := q, qpa := qpa, line := a, linePa := pa,
            sp := false, scope := scope, tag := rd.toNat, wait := wait, mon := false }
        match s.queueTry w with
        | .done st s => (s.queueDone w st s.now).queueServe qpa
        | .fault c b => s.queueFault w c b
        | .busy n s => s.delayQueue w n
        | .park => if wait then s.parkQueue w else s.queueDone w (fullWord enq) s.now
  | _ => s

/-! ## Completion records (R127, R128) -/

/-- The completion queue of a launch queue: its descriptor's physical address, when it is an enabled
completion queue of the partition (R128). -/
def State.completionQueue (s : State) (part qpa : Nat) : Option Nat :=
  let d := s.qdesc .merged qpa
  match s.agentPa part (s.part part).datp d.cq Need.any with
  | none => none
  | some cpa =>
    let c := s.qdesc .merged cpa
    if d.cq % 128 = 0 ∧ c.ok ∧ c.kind = 3 ∧ c.part = part then some cpa else none

/-- Reserve a slot of the completion queue (R128). -/
def State.reserve (s : State) (part qpa : Nat) : Option State :=
  match s.completionQueue part qpa with
  | none => none
  | some cpa =>
    let c := s.qdesc .merged cpa
    let n := (s.part part).reserved.get 0 cpa
    if c.held + n < c.slots then
      some ((s.knowQueue part cpa).modPart part fun p => { p with reserved := p.reserved.put cpa (n + 1) })
    else none

/-- The bytes of a completion record (R127). -/
def completionLine (st : Word) (seq tag cycles done cancelled : Nat) : List Byte :=
  leBytes 4 4 ++ leBytes 4 st.toNat ++ leBytes 8 seq ++ leBytes 8 tag ++ leBytes 8 cycles ++
    leBytes 4 done ++ leBytes 4 cancelled ++ leBytes 88 0

/-- Insert a line into the completion queue, using a reserved slot. Where the slot has no translation by then the
record is lost and TAIL rises; where CQ names no enabled completion queue any more, nothing is written (log 75,
DESIGN CHOICE). -/
def State.insertCompletion (s : State) (part qpa : Nat) (bs : List Byte) : State :=
  match s.completionQueue part qpa with
  | none => s
  | some cpa =>
    let c := s.qdesc .merged cpa
    let s := s.modPart part fun p =>
      { p with reserved := p.reserved.put cpa (p.reserved.get 0 cpa - 1) }
    match s.agentUse part (s.part part).datp (c.slotVa c.tail) Need.any true with
    | some (spa, s) => (s.agentWrite spa bs).putField cpa 24 8 (c.tail + 1)
    | none => s.putField cpa 24 8 (c.tail + 1)

/-- The first launch at or above a count that has not ended. -/
def firstOpen (ended : List Nat) : Nat → Nat → Nat
  | 0, n => n
  | k + 1, n => if ended.contains n then firstOpen ended k (n + 1) else n

/-- A launch of a queue has ended: CWORD rises to the first that has not (R128). The numbers that the head has not
passed stay known, so that a slot consumed as invalid never reaches the office (R130). -/
def State.raiseCword (s : State) (part qpa seq : Nat) : State :=
  let old := (s.part part).ended.get [] qpa
  let ended := insertNat seq old
  let d := s.qdesc .merged qpa
  let n := firstOpen ended ended.length d.cword
  let s := s.modPart part fun p =>
    { p with ended := p.ended.put qpa (ended.filter fun k => n ≤ k ∨ d.head ≤ k) }
  if n = d.cword then s else s.putField qpa 40 8 n

/-- Write a launch's completion record and raise CWORD (R127, R128). -/
def State.complete (s : State) (part qpa seq : Nat) (st : Word) (tag cycles done cancelled : Nat) :
    State :=
  (s.insertCompletion part qpa (completionLine st seq tag cycles done cancelled)).raiseCword part qpa seq

/-! ## The service queue (R464) -/

/-- The partition's service queue, when SVCQ names one that is enabled and well formed. -/
def State.serviceQueue (s : State) (part : Nat) : Option Nat :=
  let va := (s.part part).svcq.toNat
  if va = 0 ∨ va % 128 ≠ 0 then none
  else
    match s.agentPa part (s.part part).datp va Need.any with
    | none => none
    | some q =>
      let d := s.qdesc .merged q
      if d.ok ∧ d.kind = 2 ∧ d.part = part then some q else none

def State.modCall (s : State) (part : Nat) (tag : Word) (f : SysCall → SysCall) : State :=
  s.modPart part fun p => { p with calls := p.calls.map fun c => if c.tag = tag then f c else c }

/-- Insert a waiting call's envelope, if the queue has room; without a queue the call is denied. -/
def State.insertCall (s : State) (part : Nat) (c : SysCall) : State :=
  match s.serviceQueue part with
  | none =>
    (s.modCall part c.tag fun c => { c with waiting := false, denied := true }).schedule s.now
      (.sysdoneWrite c.tag)
  | some q =>
    let s := s.knowQueue part q
    let d := s.qdesc .merged q
    if d.full then s
    else
      match s.agentUse part (s.part part).datp (d.slotVa d.tail) Need.any true with
      | none => s
      | some (spa, s) =>
        let s := s.modCall part c.tag fun c => { c with waiting := false }
        (s.agentWrite spa c.env).putField q 24 8 (d.tail + 1)

/-- The waiting calls of a partition, oldest first. -/
def State.insertCalls (s : State) (part : Nat) : State :=
  ((s.part part).calls.filter fun c => c.waiting).foldl (fun s c => s.insertCall part c) s

/-! ## Host windows (R129, R130, R520) -/

/-- One step of CRC-32C on a bit. -/
def crcBit (c : Nat) : Nat := if c % 2 = 1 then (c / 2) ^^^ 0x82F63B78 else c / 2

def crcByte (c : Nat) (b : Byte) : Nat :=
  crcBit (crcBit (crcBit (crcBit (crcBit (crcBit (crcBit (crcBit (c ^^^ b.toNat))))))))

/-- CRC-32C (R129). -/
def crc32c (bs : List Byte) : Nat := (bs.foldl crcByte 0xFFFFFFFF) ^^^ 0xFFFFFFFF

/-- The launch descriptor that HOSTQ gives a host queue: an enabled window (R520). -/
def State.hostDesc (s : State) (hub queue : Nat) : Option (Nat × QDesc) :=
  let a := ((s.hub hub).hostq.get 0 queue).toNat
  let d := s.qdesc .merged a
  if a = 0 ∨ !d.ok ∨ !d.flags.getLsbD 1 ∨ 9 < d.log2n then none else some (a, d)

/-- The bytes of the slot for a count. -/
def State.slotBytes (s : State) (d : QDesc) (c : Nat) : Option (Nat × List Byte) :=
  (s.agentPa d.part (s.part d.part).datp (d.slotVa c) Need.any).map fun pa => (pa, s.merged pa 128)

/-- The slot holds the envelope of sequence HSEQ, whole (R129, R130). -/
def hostValid (hseq : Nat) (bs : List Byte) : Bool :=
  lineNat bs 120 4 == hseq && lineNat bs 124 4 == crc32c (bs.take 120)

/-- The hub passes on to the next slot. -/
def State.hostNext (s : State) (hub queue qpa : Nat) (d : QDesc) : State :=
  let s := s.modHub hub fun h => { h with pendingSlot := h.pendingSlot.without queue }
  (s.putField qpa 24 8 (d.tail + 1)).putField qpa 48 4 (d.hseq + 1)

/-- Examine slot HSEQ and, after each one accepted, the next (R130). -/
def State.hostExamine (s : State) (hub queue : Nat) : Nat → State
  | 0 => s
  | k + 1 =>
    match s.hostDesc hub queue with
    | none => s
    | some (qpa, d) =>
      if d.full then s
      else
        match s.slotBytes d d.hseq with
        | none => s
        | some (_, bs) =>
          if hostValid d.hseq bs then
            ((s.knowQueue d.part qpa).hostNext hub queue qpa d).hostExamine hub queue k
          else if ((s.hub hub).pendingSlot.find queue).isSome then s
          else
            let s := s.modHub hub fun h => { h with pendingSlot := h.pendingSlot.put queue (s.now + 4096) }
            s.schedule (s.now + 4096) (.hostSlotTimeout hub queue d.hseq)

/-- HOST_DOORBELL (R130): a doorbell at a full ring is kept. -/
def State.hostDoorbell (s : State) (hub queue : Nat) : State :=
  match s.hostDesc hub queue with
  | none => s
  | some (_, d) =>
    if d.full then s.modHub hub fun h => { h with deferred := insertNat queue h.deferred }
    else s.hostExamine hub queue (d.slots + 1)

/-- A pending slot whose time has ended is consumed as invalid once its record's slot is reserved
(R130). Its record carries a completion tag and counts of 0 (log 76, DESIGN CHOICE). -/
def State.hostConsume (s : State) (hub queue : Nat) : State :=
  match s.hostDesc hub queue, (s.hub hub).pendingSlot.find queue with
  | some (qpa, d), some at_ =>
    if s.now < at_ then s
    else
      match s.reserve d.part qpa with
      | none => s
      | some s =>
        let seq := d.tail
        let s := s.hostNext hub queue qpa d
        (s.complete d.part qpa seq (status stMalformed 0x78) 0 0 0 0).hostExamine hub queue (d.slots + 1)
  | _, _ => s

/-- HOST_SLOT_TIMEOUT (R130). -/
def State.hostTimeout (s : State) (hub queue seq : Nat) : State :=
  match s.hostDesc hub queue with
  | some (_, d) => if d.hseq = seq then s.hostConsume hub queue else s
  | none => s

/-- A slot has been accepted and not yet removed (R130). -/
def QDesc.accepted (d : QDesc) (slot : Nat) : Bool :=
  (List.range (min d.held d.slots)).any fun i => (d.head + i) % d.slots == slot

/-- HOST_SLOT_WRITE (R130, R520): bytes for an accepted slot are dropped; a write to the slot under
examination has it examined again. -/
def State.hostSlotWrite (s : State) (hub queue offset : Nat) (data : List Byte) : State :=
  match s.hostDesc hub queue with
  | none => s
  | some (_, d) =>
    let s := (data.mapIdx fun i b => (offset + i, b)).foldl (fun s (o, b) =>
      if d.slots ≤ o / 128 ∨ d.accepted (o / 128) then s
      else
        match s.agentUse d.part (s.part d.part).datp (d.slotVa (o / 128)) Need.any true with
        | some (pa, s) => s.agentWrite (pa + o % 128) [b]
        | none => s) s
    let cur := d.hseq % d.slots
    if (data.mapIdx fun i _ => (offset + i) / 128).contains cur &&
        ((s.hub hub).pendingSlot.find queue).isSome then
      (s.hostExamine hub queue (d.slots + 1)).hostConsume hub queue
    else s

/-- HOST_DEFERRED_EXAMINE (R130). -/
def State.hostDeferred (s : State) (hub queue : Nat) : State :=
  let s := s.modHub hub fun h => { h with deferred := h.deferred.filter fun q => q != queue }
  s.hostDoorbell hub queue

/-- A removal leaves a window's ring not full: its deferred examinations are due (R130). -/
def State.ringFreed (s : State) (qpa : Nat) : State :=
  s.hubs.foldl (fun s (h, x) =>
    x.deferred.foldl (fun s q =>
      if (x.hostq.get 0 q).toNat = qpa then s.scheduleOnce s.now (.hostDeferredExamine h q) else s) s) s

/-! ## Meanings -/

/-- ENQ (R116). -/
def execEnq (f : Fields) (s : State) : Res := .next (s.queueOp (Instr.enq f).shape f true)

/-- DEQ (R116). -/
def execDeq (f : Fields) (s : State) : Res := .next (s.queueOp (Instr.deq f).shape f false)

/-- lnl.enq (R122). -/
def execLnlEnq (scope : BitVec 3) (wait : Bool) (rs2 rs1 rd : BitVec 5) (s : State) : Res :=
  .next (s.hartQueue scope.toNat wait true rs2 rs1 rd)

/-- lnl.deq (R122). -/
def execLnlDeq (scope : BitVec 3) (wait : Bool) (rs2 rs1 rd : BitVec 5) (s : State) : Res :=
  .next (s.hartQueue scope.toNat wait false rs2 rs1 rd)

/-- QUEUE_WAITER_SERVE (R119). -/
def execQueueWaiterServe (s : State) : Res :=
  match s.event with
  | .queueWaiterServe q => .next (s.queueServe q)
  | _ => .next s

/-- QUEUE_POLL (R119). -/
def execQueuePoll (s : State) : Res :=
  match s.event with
  | .queuePoll id => .next (s.queuePoll id)
  | _ => .next s

/-- HOST_DOORBELL (R130). -/
def execHostDoorbell (s : State) : Res :=
  match s.event with
  | .hostDoorbell hub queue => .next (s.hostDoorbell hub queue)
  | _ => .next s

/-- HOST_SLOT_WRITE (R130). -/
def execHostSlotWrite (s : State) : Res :=
  match s.event with
  | .hostSlotWrite hub queue offset data => .next (s.hostSlotWrite hub queue offset data)
  | _ => .next s

/-- HOST_SLOT_TIMEOUT (R130). -/
def execHostSlotTimeout (s : State) : Res :=
  match s.event with
  | .hostSlotTimeout hub queue seq => .next (s.hostTimeout hub queue seq)
  | _ => .next s

/-- HOST_DEFERRED_EXAMINE (R130). -/
def execHostDeferredExamine (s : State) : Res :=
  match s.event with
  | .hostDeferredExamine hub queue => .next (s.hostDeferred hub queue)
  | _ => .next s

end Sys2Proof.Machine
end

