-- ==== Sys2Proof/Machine/Launch.lean ====
section
/-! DEFINITION. The sorting office and the distributor tree (R126, R128, R131 to R145, R481, R528): envelope
checks, dependences, lease grants (R124), ranges, hand-outs and steals, team starts. -/

namespace Sys2Proof.Machine

/-! ## The envelope (R126) -/

def Envelope.ofBytes (bs : List Byte) : Envelope :=
  let n := lineNat bs
  { flags := BitVec.ofNat 8 (n 1 1), prio := n 2 1, log2w := n 3 1, pword := BitVec.ofNat 32 (n 4 4),
    entry := BitVec.ofNat 64 (n 8 8), args := BitVec.ofNat 64 (n 16 8), argSize := n 24 2,
    regs := n 26 1, leaseCount := n 27 1, tx := n 28 2, ty := n 30 2, tz := n 32 2, timer := n 34 2,
    gx := n 36 4, gy := n 40 4, gz := n 44 4, spaddr := BitVec.ofNat 64 (n 48 8), spcount := n 56 4,
    sibN := n 60 1, sibQ := n 61 1, exitScope := n 62 1, sibKey := BitVec.ofNat 64 (n 64 8),
    dep0 := BitVec.ofNat 64 (n 72 8), dep1 := BitVec.ofNat 64 (n 80 8),
    leaseList := BitVec.ofNat 64 (n 88 8), ctag := BitVec.ofNat 64 (n 96 8), text := n 104 4 }

def Envelope.paired (e : Envelope) : Bool := e.flags.getLsbD 0
def Envelope.sibling (e : Envelope) : Bool := e.flags.getLsbD 2
def Envelope.width (e : Envelope) : Nat := 2 ^ e.log2w
/-- Threads of a team, and teams of the grid (R131). -/
def Envelope.threads (e : Envelope) : Nat := e.tx * e.ty * e.tz
def Envelope.teams (e : Envelope) : Nat := e.gx * e.gy * e.gz
/-- Threads a core receives from a team (R132). -/
def Envelope.sideThreads (e : Envelope) (side : Nat) : Nat :=
  if e.paired then (if side = 0 then (e.threads + 1) / 2 else e.threads / 2) else e.threads
def Envelope.firstThread (e : Envelope) (side : Nat) : Nat :=
  if side = 0 then 0 else (e.threads + 1) / 2
/-- Fields of a partition word (R137). -/
def pwordField (w : Word) (k : Nat) : Nat := w.toNat / 2 ^ (6 * k) % 64
/-- Thread contexts of a core (R154). -/
def Envelope.contexts (e : Envelope) : Nat :=
  min 2048 (pwordField e.pword 0 * 16384 / (max e.regs 1 * 4))
/-- The quorum Q (R482). -/
def Envelope.quorum (e : Envelope) : Nat := if e.sibQ = 0 then e.sibN / 2 + 1 else e.sibQ

def bad (b : Bool) (off : Nat) : Option Word := if b then some (status stMalformed off) else none

/-- The first field, by offset, that breaks its limit, up to the dependences (R126). A partition word that does not
sum to 64 is MALFORMED also where a count is above the ceiling (log 77, DESIGN CHOICE). -/
def Envelope.check (e : Envelope) (bs : List Byte) (priomax : Nat) (psceil : Word) : Option Word :=
  let w := e.pword
  let sum := pwordField w 0 + pwordField w 1 + pwordField w 2 + pwordField w 3
  let past := [0, 1, 2, 3].any fun k => pwordField psceil k < pwordField w k
  let dims := [e.tx, e.ty, e.tz].any fun n => n = 0 ∨ 4096 < n
  let side := e.sideThreads 0
  [bad (lineNat bs 0 1 != 1) 0x00, bad (8 ≤ e.flags.toNat) 0x01, bad (3 < e.prio || priomax < e.prio) 0x02,
   bad (e.log2w < 4 || 6 < e.log2w) 0x03, bad (sum != 64 || 2 ^ 24 ≤ w.toNat) 0x04,
   if past then some (status stDenied 4) else none,
   bad (e.entry.toNat % 128 != 0) 0x08, bad (e.args.toNat % 128 != 0) 0x10,
   bad (e.argSize % 4 != 0 || 128 < e.argSize) 0x18,
   bad (e.regs % 8 != 0 || e.regs < 8 || 128 < e.regs) 0x1A, bad (16 < e.leaseCount) 0x1B,
   bad (dims || (if e.paired then 4096 else 2048) < e.threads || 64 * e.width < side ||
     e.contexts < side) 0x1C,
   bad (e.timer < 64) 0x22, bad (e.teams = 0 || 2 ^ 32 ≤ e.teams) 0x24,
   bad (e.sibling && e.teams != e.sibN) 0x24,
   bad (e.spaddr.toNat % 8 != 0) 0x30, bad (e.spcount = 0) 0x38,
   bad (if e.sibling then e.sibN < 2 || 64 < e.sibN else e.sibN != 0) 0x3C,
   bad (if e.sibling then e.sibN < e.sibQ else e.sibQ != 0) 0x3D, bad (7 < e.exitScope) 0x3E,
   bad (lineNat bs 0x3F 1 != 0) 0x3F].findSome? id

/-- The fields after the dependences that no list is needed for. -/
def Envelope.checkTail (e : Envelope) (bs : List Byte) : Option Word :=
  [bad (e.text < 2 || 2 ^ 24 < e.text) 0x68, bad (lineNat bs 0x6C 12 != 0) 0x6C].findSome? id

/-! ## Dependences (R126, R128) -/

/-- The enabled launch queue of a number, the lower address of two (R126). (Log 36, DEDUCED.) -/
def State.launchQueue (s : State) (part qnum : Nat) : Option Nat :=
  let named := fun (q : Nat) =>
    let d := s.qdesc .merged q
    d.ok && d.kind == 1 && d.part == part && d.qnum == qnum
  -- a queue that no operation has named yet is found where it stands in memory
  ((s.part part).queues.find? named).or (((s.mem.map fun c => c.1 / 128 * 128).eraseDups).find? named)

inductive Dep where
  | met | unmet | malformed
  deriving DecidableEq, Repr

def State.depState (s : State) (part : Nat) (d : DWord) : Dep :=
  if d.toNat / 2 ^ 60 % 8 ≠ 0 then .malformed
  else if !d.getLsbD 63 then .met
  else
    match s.launchQueue part (d.toNat / 2 ^ 48 % 4096) with
    | none => .malformed
    | some q => if d.toNat % 2 ^ 48 ≤ (s.qdesc .merged q).cword then .met else .unmet

/-! ## Leases (R123, R124) -/

/-- A range of a launch: its index, base, bytes and kind. -/
structure LeaseRange where
  idx : Nat
  base : Nat
  len : Nat
  kind : LeaseKind
  deriving DecidableEq, Repr

def LeaseRange.lease (r : LeaseRange) : Lease :=
  if r.len = 0 then ⟨r.base / 65536, 0, r.kind⟩
  else ⟨r.base / 65536, (r.base + r.len - 1) / 65536 + 1 - r.base / 65536, r.kind⟩

def LeaseKind.need : LeaseKind → Need
  | .ro => Need.read
  | .rw => Need.both
  | .wo => Need.write

def leaseKindOf (n : Nat) : LeaseKind := if n = 0 then .ro else if n = 1 then .rw else .wo

/-- The implicit ranges, 19 first (R124). -/
def Envelope.implicit (e : Envelope) : List LeaseRange :=
  [⟨19, e.leaseList.toNat, 16 * e.leaseCount, .ro⟩, ⟨16, e.entry.toNat, e.text, .ro⟩,
   ⟨17, e.spaddr.toNat, 32 * e.spcount, .ro⟩, ⟨18, e.args.toNat, e.argSize, .ro⟩]

/-- Why a page cannot be leased (R124), as a status of a range. -/
def State.pageStatus (s : State) (part : Nat) (datp : DWord) (page : Nat) (n : Need) (idx : Nat) :
    Option Word :=
  match s.xlate part datp (page * 65536) with
  | .error .invalid => some (status stAbsent idx)
  | .error .refused => some (status stDenied (idx + 32 * causePerm))
  | .ok x => if s.checkXlat part n x then none else some (status stDenied (idx + 32 * causePerm))

def LeaseRange.pages (r : LeaseRange) : List Nat := List.range' r.lease.page r.lease.count

/-- Statuses of a range's pages. -/
def State.rangeFaults (s : State) (part : Nat) (datp : DWord) (r : LeaseRange) : List Word :=
  if isWindow r.base then []
  else r.pages.filterMap fun p => s.pageStatus part datp p r.kind.need r.idx

/-- The first failure of the grant's first two steps: an absent page goes before a refused one (R124). -/
def firstFault (ws : List Word) : Option Word :=
  match ws.find? fun w => w.toNat % 256 == stAbsent with
  | some w => some w
  | none => ws.head?

/-- One entry of the lease list. -/
def State.listEntry (s : State) (part : Nat) (datp : DWord) (e : Envelope) (i : Nat) : LeaseRange :=
  match s.agentPa part datp (e.leaseList.toNat + 16 * i) Need.read with
  | some pa =>
    let bs := s.merged pa 16
    ⟨i, lineNat bs 0 8, lineNat bs 8 7, leaseKindOf (lineNat bs 15 1)⟩
  | none => ⟨i, 0, 0, .ro⟩

def State.leaseList (s : State) (part : Nat) (datp : DWord) (e : Envelope) : List LeaseRange :=
  (List.range e.leaseCount).map (s.listEntry part datp e)

/-- The kind byte of a list entry is 0 to 2 (R126). -/
def State.listKindOk (s : State) (part : Nat) (datp : DWord) (e : Envelope) (i : Nat) : Bool :=
  match s.agentPa part datp (e.leaseList.toNat + 16 * i) Need.read with
  | some pa => decide (lineNat (s.merged pa 16) 15 1 < 3)
  | none => true

/-- The lease list's own status, then its limits (R126); a range may not span two peers (R426). (Log 35, DEDUCED.) -/
def State.checkList (s : State) (part : Nat) (datp : DWord) (e : Envelope) : Option Word :=
  if e.leaseList.toNat % 16 ≠ 0 then some (status stMalformed 0x58)
  else
    match firstFault (s.rangeFaults part datp (e.implicit.headD ⟨19, 0, 0, .ro⟩)) with
    | some w => some w
    | none =>
      let rs := s.leaseList part datp e
      bad (rs.any fun r => 2 ^ 52 < r.len || !s.listKindOk part datp e r.idx ||
        (isWindow r.base && r.len != 0 && r.base / 2 ^ 46 != (r.base + r.len - 1) / 2 ^ 46)) 0x58

/-- The hub whose lease unit records a partition's leases (R124). -/
def State.homeUnit (s : State) (part : Nat) : Nat :=
  (((List.range 48).find? fun c => (s.part part).clmask.getLsbD c).map fun c => hubOfDie (c / 8)).getD 0

/-- The lowest free record of a unit. -/
def Hub.freeRecord (h : Hub) : Option Nat := (List.range 1024).find? fun k => !h.leasesUsed.contains k

/-- A guest page and its frame join a list of runs. -/
def addFrame (g f : Nat) : List FrameRun → List FrameRun
  | [] => [⟨g, f, 1⟩]
  | r :: t =>
    if r.frame ≤ f ∧ f < r.frame + r.count ∧ g + r.frame = r.gpage + f then r :: t
    else if f = r.frame + r.count ∧ g = r.gpage + r.count then { r with count := r.count + 1 } :: t
    else r :: addFrame g f t

/-- The translations of the pages of a launch's ranges. -/
def State.rangeXlats (s : State) (part : Nat) (datp : DWord) (rs : List LeaseRange) : List Xlat :=
  (rs.flatMap fun r => if isWindow r.base then [] else r.pages).filterMap fun p =>
    match s.xlate part datp (p * 65536) with
    | .ok x => some x
    | .error _ => none

/-- The frames that they reach, as runs. -/
def frameRuns (xs : List Xlat) : List FrameRun :=
  xs.foldl (fun fs x => addFrame (x.gpa / 65536) (x.pa / 65536) fs) []

/-- The frame of a page becomes resident: where its placement entry is not assigned, it is assigned to the
partition within the quota of its tier; none where the quota cannot hold it (R124). (Log 79, DEDUCED.) -/
def State.residePage (s : State) (part : Nat) (x : Xlat) : Option State :=
  let f := x.pa / 65536
  let p := s.place f
  match p.assigned, frameTier f with
  | false, some (t, _) =>
    if !s.quotaRoom part t 1 then none
    else
      let s := s.setPlace f { p with assigned := true, key := BitVec.ofNat 6 part, ptepa := BitVec.ofNat 52 x.two.pteAddr }
      some ({ s with taken := insertNat f s.taken }.countIn part t 1)
  | _, _ => some s

/-- Every frame of the pages becomes resident, or none where a quota cannot hold them (R124). -/
def State.reside (s : State) (part : Nat) : List Xlat → Option State
  | [] => some s
  | x :: xs => (s.residePage part x).bind fun s => s.reside part xs

/-! ## The launch's own tables -/

/-- Bytes that the office reads at a virtual address of the partition, each page by its translation. -/
def State.officeRead (s : State) (part : Nat) (datp : DWord) (va n : Nat) : List Byte :=
  (List.range' va n).map fun a =>
    match s.agentPa part datp a Need.any with
    | some pa => s.memByte pa
    | none => 0

/-- The safe-point entries of a launch (R38). -/
def State.safepointTable (s : State) (part : Nat) (datp : DWord) (e : Envelope) :
    List (Nat × List Byte) :=
  (List.range e.spcount).map fun i =>
    let bs := s.officeRead part datp (e.spaddr.toNat + 32 * i) 32
    (lineNat bs 0 4, bs)

/-- The handler of a launch: the target of a W64 BRA at its entry whose guard is P7 negated (R444). -/
def handlerOf (entry : DWord) (bs : List Byte) : Option DWord :=
  match decode bs with
  | .ok (.bra w) _ =>
    if w.pred = 7 ∧ w.neg then some (entry + w.imm.signExtend 64 * 2) else none
  | _ => none

/-! ## Admission (R140, R143, R481) -/

/-- Clusters of a partition, ascending. -/
def Part.clusters (p : Part) : List Nat := (List.range 48).filter fun c => p.clmask.getLsbD c

/-- Divide a range among weighted takers in order (R140). -/
def shareOut (lo n total : Nat) : Nat → List (Nat × Nat) → List (Nat × (Nat × Nat))
  | _, [] => []
  | before, (who, w) :: t =>
    (who, (lo + n * before / total, lo + n * (before + w) / total)) :: shareOut lo n total (before + w) t

/-- The ranges of a launch by cluster: dies first, then the clusters of each die (R140). -/
def handDown (clusters : List Nat) (n : Nat) : Tab (Nat × Nat) :=
  let dies := (clusters.map (· / 8)).eraseDups
  let weights := dies.map fun d => (d, (clusters.filter fun c => c / 8 == d).length)
  (shareOut 0 n (max clusters.length 1) 0 weights).flatMap fun (d, lo, hi) =>
    let cs := clusters.filter fun c => c / 8 == d
    shareOut lo (hi - lo) (max cs.length 1) 0 (cs.map fun c => (c, 1))

/-- The head envelope of a launch queue. -/
def State.headBytes (s : State) (part : Nat) (d : QDesc) : List Byte :=
  match s.agentPa part (s.part part).datp (d.slotVa d.head) Need.any with
  | some pa => s.merged pa 128
  | none => List.replicate 128 0

/-- The head is removed, and its queue is free (R143). -/
def State.popHead (s : State) (part qpa : Nat) (d : QDesc) : State :=
  let s := s.modPart part fun p => { p with heads := p.heads.filter fun q => q != qpa }
  ((s.putField qpa 16 8 (d.head + 1)).ringFreed qpa).scheduleOnce (s.now + 1) (.launchAdmission part)

/-- A launch ends before any team starts (R127). -/
def State.failHead (s : State) (part qpa : Nat) (d : QDesc) (e : Envelope) (st : Word) : State :=
  (s.popHead part qpa d).complete part qpa d.head st e.ctag.toNat 0 0 0

/-- A partition may take one more ballot record (R481). -/
def State.ballotRoom (s : State) (part : Nat) : Bool :=
  decide (s.ballots.length < 256) && decide ((s.ballots.filter fun b => b.part == part).length < 16)

def Sib.zero : Sib := ⟨0, 0, false, 0, 0, false, false, 0, [], 0, 0, 0⟩

/-- The ballot record of a launch at its admission (R481, R482). -/
def Ballot.fresh (launch part : Nat) (e : Envelope) : Ballot :=
  { launch := launch, part := part, n := e.sibN, q := e.quorum, key := e.sibKey, st := 0,
    tiebrk := false, keeper := 0, posts := 0, past := 0, slots := [],
    sibs := (List.range e.sibN).map fun i => (i, { Sib.zero with team := i }) }

/-- What the examination of a head comes to (R143). -/
inductive Exam where
  | wait
  | fail (st : Word)
  | pass
  deriving DecidableEq, Repr

/-- The checks of R126 and the dependences of a head envelope. -/
def State.examine (s : State) (part : Nat) (d : QDesc) (bs : List Byte) : Exam :=
  let e := Envelope.ofBytes bs
  let p := s.part part
  let d0 := s.depState part e.dep0
  let d1 := s.depState part e.dep1
  let key := e.sibling && e.sibKey != 0 && s.ballots.any fun b => b.part == part && b.key == e.sibKey
  match e.check bs d.priomax p.psceil with
  | some w => .fail w
  | none =>
    if key then .fail (status stDenied 0x40)
    else if d0 = .malformed then .fail (status stMalformed 0x48)
    else if d1 = .malformed then .fail (status stMalformed 0x50)
    else
      match if p.datp.toNat / 2 ^ 60 = 10 then s.checkList part p.datp e else none with
      | some w => .fail w
      | none =>
        match e.checkTail bs with
        | some w => .fail w
        | none =>
          if d0 = .unmet ∨ d1 = .unmet ∨ (e.sibling ∧ !s.ballotRoom part) then .wait else .pass

/-- Queues with a reserved head, highest priority first, round-robin after the queue taken last within
one (R143). -/
def State.headOrder (s : State) (part : Nat) : List (Nat × Nat) :=
  let p := s.part part
  let hs := (p.heads.filter fun q => !(p.grants.any fun g => g.queue == q)).map fun q =>
    (lineNat (s.headBytes part (s.qdesc .merged q)) 2 1, q)
  [3, 2, 1, 0].flatMap fun k =>
    let mine := hs.filter fun h => min h.1 3 == k
    let last := p.lastQueue.get 0 k
    (mine.filter fun h => last < h.2) ++ mine.filter fun h => h.2 ≤ last

/-- A head passes to its lease grant (R124). -/
def State.askGrant (s : State) (part qpa : Nat) : State :=
  let s := s.tick
  let s := s.modPart part fun p => { p with grants := p.grants ++ [⟨qpa, s.order, [], []⟩] }
  s.schedule (s.now + 1) (.leaseGrant part qpa)

/-- LAUNCH_ADMISSION (R143): the first head in order that does not wait is dealt with. None is admitted
before READY (R511). -/
def State.admission (s : State) (part : Nat) : State :=
  if s.ready = 0 then s
  else
  let exams := (s.headOrder part).map fun (k, q) =>
    let d := s.qdesc .merged q
    (k, q, d, s.headBytes part d, s.examine part d (s.headBytes part d))
  match exams.find? fun x => x.2.2.2.2 != .wait with
  | none => s
  | some (k, q, d, bs, r) =>
    let s := s.modPart part fun p => { p with lastQueue := p.lastQueue.put (min k 3) q }
    let s := s.scheduleOnce (s.now + 1) (.launchAdmission part)
    match r with
    | .fail w => s.failHead part q d (Envelope.ofBytes bs) w
    | _ => s.askGrant part q

/-- The head of a launch queue has a slot reserved (R128); a window's slot that is past its time is consumed
(R130). -/
def State.reserveHead (s : State) (part qpa : Nat) : State :=
  let d := s.qdesc .merged qpa
  let s :=
    if !d.ok ∨ d.kind ≠ 1 ∨ d.part ≠ part ∨ d.empty ∨ (s.part part).heads.contains qpa then s
    else if ((s.part part).ended.get [] qpa).contains d.head then
      -- the slot was consumed as invalid and has its record
      s.popHead part qpa d
    else
      match s.reserve part qpa with
      | none => s
      | some s =>
        (s.modPart part fun p => { p with heads := insertNat qpa p.heads }).scheduleOnce s.now
          (.launchAdmission part)
  s.hubs.foldl (fun s (h, x) =>
    x.pendingSlot.foldl (fun s (q, _) =>
      if (x.hostq.get 0 q).toNat = qpa then s.hostConsume h q else s) s) s

/-- COMPLETION_RESERVATION (R128): the cycle after a write of a descriptor. The launch queue it belongs to, and the
launch queues whose completion queue it is, try for their heads; calls that wait for room are inserted (R464). -/
def State.reservation (s : State) (part qpa : Nat) : State :=
  let s := s.insertCalls part
  let s := if (s.part part).xoq ≠ 0 ∧ (s.part part).scaleBusy.isNone then
    s.scheduleOnce s.now (.scaleOutSend part) else s
  ((s.part part).queues.filter fun q => q == qpa || s.completionQueue part q == some qpa).foldl
    (fun s q => s.reserveHead part q) s

/-! ## The grant (R124, R426) -/

/-- Send a message of the registered class: it takes the next number of its pair of packages, and is
sent again if nothing answers it (R428). -/
def State.sendReg (s : State) (pod : Nat) (m : RegMsg) : State :=
  let n := s.sendSeq.get 0 pod
  let u : Unacked := { pod := pod, seq := n, msg := m, tries := 0 }
  let s : State := { s with sendSeq := s.sendSeq.put pod (n + 1), outbox := s.outbox ++ [(pod, m)]
                            unacked := s.unacked ++ [u] }
  s.schedule (s.now + 65536) (.registeredResend pod n)

/-- Ask a peer's lease unit for a range (R426). -/
def State.askPeer (s : State) (part qpa : Nat) (r : LeaseRange) : State :=
  let kind := match r.kind with | .ro => 0 | .rw => 1 | .wo => 2
  let into := windowPod r.base
  let entry := (s.part part).peer into
  let s := s.modPart part fun p => { p with grants := p.grants.map fun g =>
    if g.queue = qpa then { g with asked := g.asked ++ [r.idx] } else g }
  s.sendReg into (.lease (s.pkgid.toNat % 1024) part ((entry.map (·.rpart)).getD 0) qpa r.idx
    (BitVec.ofNat 64 r.base) r.len kind)

/-- Clusters of a launch's partition are to hand out work. -/
def State.pokeClusters (s : State) (part : Nat) : State :=
  (s.part part).clusters.foldl (fun s c => s.scheduleOnce s.now (.clusterHandout c)) s

/-- Admit a launch under a lease record (R140, R143, R254). Its safe-point entries are read here, once (log 80,
DESIGN CHOICE). -/
def State.admitLaunch (s : State) (part qpa : Nat) (d : QDesc) (bs : List Byte) (ranges : List LeaseRange)
    (record : Nat) : State :=
  let e := Envelope.ofBytes bs
  let datp := (s.part part).datp
  let unit := s.homeUnit part
  let id := 1024 * unit + record
  let l : Launch :=
    { Launch.zero with
      part := part, env := e, queue := qpa, seq := d.head, datp := datp,
      leases := ranges.map LeaseRange.lease, frames := frameRuns (s.rangeXlats part datp ranges),
      safepoints := s.safepointTable part datp e,
      handler := handlerOf e.entry (s.officeRead part datp e.entry.toNat 8),
      ceil := (s.part part).ceil.toNat,
      admitted := s.order, starve := s.now, ranges := handDown (s.part part).clusters e.teams }
  let s := s.tick
  let s := s.modHub unit fun h => { h with leasesUsed := insertNat record h.leasesUsed }
  let s := { s with launches := s.launches.put id l
                    ballots := if e.sibling then s.ballots ++ [Ballot.fresh id part e] else s.ballots }
  let s := s.modPart part fun p => { p with grants := p.grants.filter fun g => g.queue != qpa }
  let s := s.schedule (s.now + 2048) (.preemptStarvation id)
  (s.popHead part qpa d).pokeClusters part

/-- The head's grant comes to nothing. -/
def State.denyGrant (s : State) (part qpa : Nat) (d : QDesc) (e : Envelope) (st : Word) : State :=
  (s.modPart part fun p => { p with grants := p.grants.filter fun g => g.queue != qpa }).failHead
    part qpa d e st

/-- No launch of a partition of the same home hub asked earlier (R124). -/
def State.firstInLine (s : State) (part : Nat) (g : Grant) : Bool :=
  s.parts.all fun (p, x) =>
    s.homeUnit p != s.homeUnit part || x.grants.all fun h => g.order ≤ h.order || h.asked.any fun i =>
      (h.answers.find i).isNone

/-- LEASE_GRANT (R124, R426). -/
def State.grantLease (s : State) (part qpa : Nat) : State :=
  match (s.part part).grants.find? fun g => g.queue == qpa with
  | none => s
  | some g =>
    let d := s.qdesc .merged qpa
    let bs := s.headBytes part d
    let e := Envelope.ofBytes bs
    let datp := (s.part part).datp
    let ranges := e.implicit ++ s.leaseList part datp e
    let own := ranges.flatMap (s.rangeFaults part datp)
    let far := ranges.filter fun r => isWindow r.base && r.len != 0
    let local_ := far.filterMap fun r =>
      if s.peerOk part (windowPod r.base) r.kind.need then none
      else some (status stDenied (r.idx + 32 * causePerm))
    let answered := far.filterMap fun r => (g.answers.find r.idx).filter fun w => w.toNat % 256 != stOk
    let mode := if datp.toNat / 2 ^ 60 = 10 then [] else [status stDenied 0]
    match mode.head?.or (firstFault (own ++ local_ ++ answered)) with
    | some w => s.denyGrant part qpa d e w
    | none =>
      match far.filter fun r => !g.asked.contains r.idx with
      | r :: rs => (r :: rs).foldl (fun s r => s.askPeer part qpa r) s
      | [] =>
        if far.any fun r => (g.answers.find r.idx).isNone then s
        else
          match s.reside part (s.rangeXlats part datp ranges) with
          | none => s.denyGrant part qpa d e (status stQuota 0)
          | some s =>
            match (s.hub (s.homeUnit part)).freeRecord with
            | none => s
            | some k => if s.firstInLine part g then s.admitLaunch part qpa d bs ranges k else s

/-- A lease record is free: the launches that wait are tried again in arrival order. -/
def State.retryGrants (s : State) : State :=
  s.parts.foldl (fun s (p, x) =>
    x.grants.foldl (fun s g => s.scheduleOnce (s.now + 1) (.leaseGrant p g.queue)) s) s

/-! ## Cores and teams (R132, R133, R139, R144) -/

/-- Launches of a partition, highest priority first, then in order of admission (R144). -/
def insertLaunch (x : Nat × Launch) : List (Nat × Launch) → List (Nat × Launch)
  | [] => [x]
  | y :: t =>
    if y.2.env.prio > x.2.env.prio ∨ (y.2.env.prio = x.2.env.prio ∧ y.2.admitted < x.2.admitted)
    then y :: insertLaunch x t else x :: y :: t

def State.launchOrder (s : State) (part : Nat) : List (Nat × Launch) :=
  (s.launches.filter fun l => l.2.part == part && l.2.fault.isNone).foldl (fun acc l => insertLaunch l acc) []

/-- A core can take a team side (R133, R139, R140). -/
def State.coreFree (s : State) (core : Nat) : Bool :=
  let c := s.core core
  c.side.isNone && !c.fenced && c.tracker.isEmpty

/-- Cores of a cluster that can take a team, as its sides (R140). -/
def State.placesIn (s : State) (cluster : Nat) (paired : Bool) : Option (List Nat) :=
  if paired then
    ((List.range 4).map fun k => [8 * cluster + 2 * k, 8 * cluster + 2 * k + 1]).find? fun cs =>
      cs.all s.coreFree
  else ((List.range' (8 * cluster) 8).find? s.coreFree).map fun c => [c]

/-- Context slots in use by a partition (R459). -/
def State.slotsUsed (s : State) (part : Nat) : Nat :=
  (s.cores.filter fun (_, c) => match c.side with
    | some d => (s.launch d.launch).part == part
    | none => false).length +
    ((s.saved.filter fun v => (s.launch v.launch).part == part &&
      (s.findTeam v.launch v.team).any fun t => t.cores.isEmpty).map fun v => v.sides.length).sum

/-- A cluster's unstarted range of a launch. -/
def Launch.range (l : Launch) (cluster : Nat) : Nat × Nat := l.ranges.get (0, 0) cluster

/-- A core passes to a partition: another's data is scrubbed (R136, R196). -/
def Core.passTo (c : Core) (part : Nat) : Core :=
  if c.owner = some part then c
  else { c with owner := some part, sram := [], tags := [], sramPoison := [], icache := [], l1 := [],
                loops := [], lastPage := [], btcache := [] }

/-- A team of a launch, by its record and the cycle of its admission, starts on the core (R162, R197). -/
def Core.newLaunch (c : Core) (launch : Nat × Nat) : Core :=
  if c.lastLaunch = some launch then c
  else { c with lastLaunch := some launch, loops := [], loopReq := [], lastPage := [] }

/-- Put a side on a core. When its partition word differs, the pool is divided first (R139). -/
def State.takeSide (s : State) (core : Nat) (side : Side) (next : Event) : State :=
  let l := s.launch side.launch
  let s := s.modCore core fun c =>
    { (c.passTo l.part).newLaunch (side.launch, l.admitted) with side := some side, wc := [], engineFree := s.now }
  if (s.core core).pword = some l.env.pword then s.schedule s.now next
  else (s.schedule s.now (.poolRedivide core l.env.pword)).schedule (s.now + 512) next

/-- The starvation count of a launch starts again (R145). -/
def State.restarve (s : State) (launch : Nat) : State :=
  (s.modLaunch launch fun l => { l with starve := s.now }).scheduleOnce (s.now + 2048)
    (.preemptStarvation launch)

/-- The save that a launch asked for has been made, or its team has ended without one: the count goes on
(R145). -/
def State.endPreempt (s : State) (l : Option Nat) : State :=
  match l with
  | some l =>
    if (s.launches.find l).isSome then (s.modLaunch l fun x => { x with preempting := false }).restarve l else s
  | none => s

/-- Hand the next index of a cluster's range to cores (R140). -/
def State.startTeam (s : State) (launch cluster : Nat) (cores : List Nat) : State :=
  let l := s.launch launch
  let (lo, hi) := l.range cluster
  let s := s.modLaunch launch fun l => { l with ranges := l.ranges.put cluster (lo + 1, hi) }
  let t : Team :=
    { launch := launch, index := lo, cores := cores, barriers := [], convs := [],
      spawncount := l.env.threads, doneSides := [], preempt := none, stopping := false,
      forced := false, cancel := false, forLaunch := none, exitDemoted := false }
  let s := { s with teams := s.teams ++ [t] }
  (cores.mapIdx fun i c => (i, c)).foldl (fun s (i, c) =>
    s.takeSide c { launch := launch, team := lo, side := i, placed := s.now, consumed := 0,
                   started := false, returning := false, holes := [], pressed := [], stopAt := none }
      (.teamStart c)) s

/-- A saved team that a cluster can resume (R144). -/
def State.savedOf (s : State) (launch : Nat) : Option Saved :=
  s.saved.find? fun v => v.launch == launch &&
    !((s.findTeam launch v.team).any fun t => t.cancel || !t.cores.isEmpty)

/-- A saved team is to be restored on cores: each of its sides takes its own (R132, R144, R462). -/
def State.resumeTeam (s : State) (v : Saved) (cores : List Nat) : State :=
  let s := s.modTeam v.launch v.team fun t =>
    { t with cores := cores, preempt := none, stopping := false, forced := false, forLaunch := none }
  v.sides.foldl (fun s d =>
    let c := cores.getD d.side.side 0
    s.takeSide c { d.side with placed := s.now, started := false } (.teamRestore v.launch v.team c)) s

/-- Unstarted indices of a cluster's range. -/
def Launch.left (l : Launch) (cluster : Nat) : Nat := (l.range cluster).2 - (l.range cluster).1

/-- A cluster of the die from which a steal can take (R141). -/
def Launch.sibling (l : Launch) (clusters : List Nat) (cluster : Nat) : Option Nat :=
  clusters.find? fun c => c / 8 == cluster / 8 && c != cluster && decide (2 ≤ l.left c)

/-- The largest range on another die, the lower cluster on a tie (R141). -/
def Launch.largest (l : Launch) (clusters : List Nat) (die : Nat) : Option Nat :=
  (clusters.filter fun c => c / 8 != die && decide (2 ≤ l.left c)).foldl (fun best c =>
    match best with
    | none => some c
    | some b => if l.left b < l.left c then some c else some b) none

/-- A cluster without an index of a launch can have some by a steal (R141). -/
def Launch.canSteal (l : Launch) (clusters : List Nat) (cluster : Nat) : Bool :=
  l.left cluster == 0 && ((l.sibling clusters cluster).isSome ||
    ((clusters.all fun c => c / 8 != cluster / 8 || l.left c == 0) && (l.largest clusters (cluster / 8)).isSome))

/-- One placement by a cluster distributor, if one can be made (R140, R144). A launch that can steal an index does
so before a launch after it is offered the core. -/
def State.handOne (s : State) (cluster : Nat) : List (Nat × Launch) → Option State
  | [] => none
  | (id, l) :: t =>
    match s.placesIn cluster l.env.paired with
    | none => s.handOne cluster t
    | some cores =>
      match s.savedOf id with
      | some v => some (s.resumeTeam v cores)
      | none =>
        if (s.part l.part).ctxn < s.slotsUsed l.part + cores.length then s.handOne cluster t
        else if l.left cluster ≠ 0 then some (s.startTeam id cluster cores)
        else if l.canSteal (s.part l.part).clusters cluster then none
        else s.handOne cluster t

/-- The partition of a cluster. -/
def State.clusterPart (s : State) (cluster : Nat) : Option Nat :=
  (s.parts.find? fun p => p.2.clmask.getLsbD cluster).map (·.1)

def State.handAll (s : State) (cluster part : Nat) : Nat → State
  | 0 => s
  | k + 1 =>
    match s.handOne cluster (s.launchOrder part) with
    | some s => s.handAll cluster part k
    | none => s

/-- A cluster distributor with an empty range and a free core looks for work to steal (R141). -/
def State.seekSteal (s : State) (cluster part : Nat) : State :=
  let cs := (s.part part).clusters
  (s.launchOrder part).foldl (fun s (_, l) =>
    if !l.canSteal cs cluster ∨ (s.placesIn cluster l.env.paired).isNone then s
    else if (l.sibling cs cluster).isSome then s.scheduleOnce s.now (.stealWithinDie cluster)
    else s.scheduleOnce s.now (.stealAcrossDies (cluster / 8) part)) s

/-- CLUSTER_HANDOUT (R140, R142, R144). -/
def State.clusterHandout (s : State) (cluster : Nat) : State :=
  match s.clusterPart cluster with
  | none => s
  | some p => (s.handAll cluster p 9).seekSteal cluster p

/-- Take the upper half of a cluster's range (R141). -/
def State.takeUpper (s : State) (launch frm : Nat) : (Nat × Nat) × State :=
  let (lo, hi) := (s.launch launch).range frm
  let k := (hi - lo) / 2
  ((hi - k, hi), s.modLaunch launch fun l => { l with ranges := l.ranges.put frm (lo, hi - k) })

/-- STEAL_WITHIN_DIE (R141): for the first launch in order that it serves. -/
def State.stealWithin (s : State) (cluster : Nat) : State :=
  match s.clusterPart cluster with
  | none => s
  | some p =>
    let cs := (s.part p).clusters
    match (s.launchOrder p).findSome? fun (id, l) =>
        if l.left cluster = 0 ∧ (s.placesIn cluster l.env.paired).isSome then
          (l.sibling cs cluster).map fun c => (id, c)
        else none with
    | none => s
    | some (id, c) =>
      let (r, s) := s.takeUpper id c
      (s.modLaunch id fun l => { l with ranges := l.ranges.put cluster r }).scheduleOnce s.now
        (.clusterHandout cluster)

/-- STEAL_ACROSS_DIES (R141): what is taken is divided by R140. -/
def State.stealAcross (s : State) (die p : Nat) : State :=
  let cs := (s.part p).clusters
  let mine := cs.filter fun c => c / 8 == die
  match (s.launchOrder p).findSome? fun (id, l) =>
      if mine.all fun c => l.left c == 0 then (l.largest cs die).map fun c => (id, c) else none with
  | none => s
  | some (id, c) =>
    let ((lo, hi), s) := s.takeUpper id c
    let shares := shareOut lo (hi - lo) (max mine.length 1) 0 (mine.map fun c => (c, 1))
    let s := s.modLaunch id fun l =>
      { l with ranges := shares.foldl (fun t (c, r) => t.put c r) l.ranges }
    mine.foldl (fun s c => s.scheduleOnce s.now (.clusterHandout c)) s

/-- POOL_REDIVIDE (R139): the L1 is written back and invalidated, and every granule's tag is cleared
(R294). -/
def State.redivide (s : State) (core : Nat) (word : Word) : State :=
  s.modCore core fun c =>
    { c with pword := some word, l1 := [], tags := [], dividing := s.now + 512 }

/-! ## Starting a side (R134, R136, R528) -/

/-- The G registers at team start: the argument block, else 0 (R136). -/
def argRegs (bs : List Byte) (n : Nat) : Tab GReg :=
  (List.range (n / 4)).filterMap fun i =>
    let w := BitVec.ofNat 32 (lineNat bs (4 * i) 4)
    if w = 0 then none else some (i, ⟨w, 0⟩)

/-- The state of the generator of a launched thread (R100). -/
def launchSeed (team thread : Nat) : Word :=
  seedOf (((0x5EED#16 ^^^ BitVec.ofNat 16 team) ++ (0x0001#16 ^^^ BitVec.ofNat 16 thread)))

/-- A launched thread (R136). -/
def Thread.launched (e : Envelope) (team index ctx : Nat) : Thread :=
  { Thread.fresh with index := index, pc := e.entry, seed := launchSeed team index,
                      lv := Level.empty ctx, l1since := ctx }

/-- The groups of a side (R134). -/
def launchGroups (e : Envelope) (team side ctx now : Nat) (g : Tab GReg) : Tab Group :=
  let n := e.sideThreads side
  let w := e.width
  (List.range ((n + w - 1) / w)).map fun k =>
    let lanes := min w (n - k * w)
    (k, { Group.fresh with
      width := w, g := g, st := .ready, since := now, born := now,
      threads := (List.range lanes).map fun l =>
        (l, Thread.launched e team (e.firstThread side + k * w + l) ctx) })

/-- A sibling's entry of its launch's ballot record. -/
def State.modSib (s : State) (launch team : Nat) (f : Sib → Sib) : State :=
  { s with ballots := s.ballots.map fun b =>
      if b.launch = launch then { b with sibs := b.sibs.map fun (i, x) =>
        if i = team then (i, f x) else (i, x) } else b }

/-- TEAM_START (R528): the side starts, and its groups become Ready 32 cycles later. -/
def State.teamStart (s : State) (core : Nat) : State :=
  match (s.core core).side with
  | none => s
  | some d =>
    let s := s.modCore core fun c =>
      { c with side := some { d with started := true, placed := s.now }, groups := [], landings := [],
               vres := [], fills := [], ports := [], gport := [], sport := [] }
    let s := (s.modSib d.launch d.team fun x => { x with sstate := 1 }).restarve d.launch
    s.schedule (s.now + 32) (.groupsReady core)

/-- The domains of a group width. -/
def domains (width : Nat) : List Nat := List.range (64 / width)

/-- Ready groups may enter their active sets. -/
def State.enterAll (s : State) (core width : Nat) : State :=
  (domains width).foldl (fun s d => s.scheduleOnce s.now (.activeSetEntry core d)) s

/-- GROUPS_READY (R136, R528): the groups of a side that has started; a restored side's groups are
already in place. -/
def State.groupsReady (s : State) (core : Nat) : State :=
  match (s.core core).side with
  | none => s
  | some d =>
    let l := s.launch d.launch
    let e := l.env
    if !d.returning then
      let s := s.tick
      let g := argRegs (s.officeRead l.part l.datp e.args.toNat e.argSize) e.argSize
      let s := s.modCore core fun c =>
        { c with groups := launchGroups e d.team d.side s.order s.now g }
      -- a side that receives no thread is complete at once (R132, R480)
      if (s.core core).groups.isEmpty then s.schedule s.now (.teamSideComplete core)
      else s.enterAll core e.width
    else
      let s := s.modCore core fun c =>
        { c with side := some { d with returning := false }
                 groups := c.groups.map fun (k, g) =>
                   (k, if g.st = .saved then { g with st := .ready, since := s.now } else g) }
      -- groups saved under pressure and Due pigeonholes follow as they have room (R148, R154)
      let s := if d.pressed.isEmpty then s else s.scheduleOnce s.now (.pressureRestore core)
      (s.enterAll core e.width).pokeDue core s.now

/-! ## Starvation (R145) -/

/-- A launch has a team that waits to be placed. -/
def State.wantsPlace (s : State) (id : Nat) : Bool :=
  let l := s.launch id
  (l.ranges.any fun r => r.2.1 < r.2.2) || (s.savedOf id).isSome

/-- The running launch of lowest priority below p, the most recently admitted of several (R145). -/
def State.victimLaunch (s : State) (part p : Nat) : Option Nat :=
  let runs := (s.launches.filter fun (id, l) => l.part == part && l.env.prio < p && l.fault.isNone &&
    s.teams.any fun t => t.launch == id && !t.cores.isEmpty && t.preempt.isNone && t.forLaunch.isNone)
  (runs.foldl (fun best (id, l) =>
    match best with
    | none => some (id, l)
    | some (j, m) =>
      if l.env.prio < m.env.prio ∨ (l.env.prio = m.env.prio ∧ m.admitted < l.admitted)
      then some (id, l) else some (j, m)) none).map (·.1)

/-- Its team whose placement began most recently, the higher index on a tie (R145). -/
def State.victimTeam (s : State) (id : Nat) : Option Nat :=
  let at_ := fun (t : Team) => (s.core (t.cores.headD 0)).sideD.placed
  let ts := s.teams.filter fun t => t.launch == id && !t.cores.isEmpty && t.preempt.isNone && t.forLaunch.isNone
  (ts.foldl (fun best t =>
    match best with
    | none => some t
    | some b =>
      if at_ b < at_ t ∨ (at_ b = at_ t ∧ b.index < t.index) then some t else some b) none).map (·.index)

/-- PREEMPT_STARVATION (R145). (Log 38, DEDUCED.) -/
def State.starvation (s : State) (id : Nat) : State :=
  let l := s.launch id
  if (s.launches.find id).isNone ∨ l.preempting ∨ s.now < l.starve + 2048 ∨ !s.wantsPlace id ∨
      l.fault.isSome then s
  else
    match s.victimLaunch l.part l.env.prio with
    | none => s
    | some v =>
      match s.victimTeam v with
      | none => s
      | some t =>
        let s := s.modLaunch id fun l => { l with preempting := true }
        let s := s.modTeam v t fun x => { x with forLaunch := some id }
        let core := ((s.findTeam v t).map fun x => x.cores.headD 0).getD 0
        s.schedule (s.now + officeTime core) (.preemptionRequest v t)

/-! ## Meanings -/

/-- COMPLETION_RESERVATION (R128). -/
def execCompletionReservation (s : State) : Res :=
  match s.event with
  | .completionReservation part q => .next (s.reservation part q)
  | _ => .next s

/-- LAUNCH_ADMISSION (R143). -/
def execLaunchAdmission (s : State) : Res :=
  match s.event with
  | .launchAdmission part => .next (s.admission part)
  | _ => .next s

/-- LEASE_GRANT (R124). -/
def execLeaseGrant (s : State) : Res :=
  match s.event with
  | .leaseGrant part q => .next (s.grantLease part q)
  | _ => .next s

/-- CLUSTER_HANDOUT (R140). -/
def execClusterHandout (s : State) : Res :=
  match s.event with
  | .clusterHandout c => .next (s.clusterHandout c)
  | _ => .next s

/-- STEAL_WITHIN_DIE (R141). -/
def execStealWithinDie (s : State) : Res :=
  match s.event with
  | .stealWithinDie c => .next (s.stealWithin c)
  | _ => .next s

/-- STEAL_ACROSS_DIES (R141). -/
def execStealAcrossDies (s : State) : Res :=
  match s.event with
  | .stealAcrossDies die part => .next (s.stealAcross die part)
  | _ => .next s

/-- POOL_REDIVIDE (R139). -/
def execPoolRedivide (s : State) : Res :=
  match s.event with
  | .poolRedivide core word => .next (s.redivide core word)
  | _ => .next s

/-- TEAM_START (R528). -/
def execTeamStart (s : State) : Res :=
  match s.event with
  | .teamStart core => .next (s.teamStart core)
  | _ => .next s

/-- GROUPS_READY (R136, R528). -/
def execGroupsReady (s : State) : Res :=
  match s.event with
  | .groupsReady core => .next (s.groupsReady core)
  | _ => .next s

/-- PREEMPT_STARVATION (R145). -/
def execPreemptStarvation (s : State) : Res :=
  match s.event with
  | .preemptStarvation l => .next (s.starvation l)
  | _ => .next s

end Sys2Proof.Machine
end

