-- ==== Sys2Proof/Machine/Spawn.lean ====
section
/-! DEFINITION. SPAWN and the pigeonholes (R149 to R156), and saving a blocked group under slot pressure
(R148). -/

namespace Sys2Proof.Machine

/-! ## Results of a thread that leaves its slot (R458) -/

/-- Every result of a lane that is known is written; the others are marked to be written at the
restore. -/
def flushLane (rs : List VarResult) (t : Thread) : Thread :=
  rs.foldl (fun t r =>
    match r.due with
    | some _ =>
      let t := (r.vals.mapIdx fun i v => (r.reg + i, v)).foldl
        (fun t (n, v) => t.landV r.tag n (BitVec.allOnes 32) v) t
      match r.acq with
      | some sc => { t with acqs := t.acqs.put r.reg (r.tag, sc) }
      | none => t
    | none => { t with pendv := t.pendv.put r.reg (r.tag, none) }) t

/-- The results of a slot are delivered or marked, and leave the scoreboard. -/
def Core.flushSlot (c : Core) (slot : Nat) : Core :=
  let mine := c.vres.filter fun r => r.slot == slot
  let c := c.modGroup slot fun g =>
    { g with threads := g.threads.map fun (l, t) => (l, flushLane (mine.filter fun r => r.lane == l) t) }
  { c with vres := c.vres.filter fun r => r.slot != slot
           fills := c.fills.filter fun f => f.slot != slot }

/-- The statuses kept for a restored lane: written, or pending again (R458). -/
def unpendLane (t : Thread) : Thread :=
  t.pendv.foldl (fun t (n, tag, w) =>
    match w with
    | some v => t.landV tag n (BitVec.allOnes 32) v
    | none => t) { t with pendv := [] }

def pendAgain (slot lane : Nat) (t : Thread) : List VarResult :=
  t.pendv.filterMap fun (n, tag, w) =>
    if w.isNone then some ⟨none, tag, slot, lane, n, 1, [], none, false⟩ else none

/-- A group returns to a slot of a core. -/
def Core.placeGroup (c : Core) (slot : Nat) (g : Group) : Core :=
  let vs := g.threads.flatMap fun (l, t) => pendAgain slot l t
  { c.setGroup slot (g.modAll unpendLane) with vres := c.vres ++ vs }

/-- The status of an operation that outlives a save arrives for a thread, named by its launch, team and
index: in its slot, or kept until its restore (R458). -/
def State.deliverThread (s : State) (launch team index reg tag at_ : Nat) (w : Word)
    (acq : Option Nat := none) : State :=
  let keep := fun (t : Thread) =>
    if t.index = index ∧ (t.pendv.find reg).isSome then
      { t with pendv := t.pendv.put reg (tag, some w)
               acqs := match acq with | some sc => t.acqs.put reg (tag, sc) | none => t.acqs }
    else t
  let here := s.cores.flatMap fun (c, x) =>
    match x.side with
    | some d =>
      if d.launch = launch ∧ d.team = team then
        x.groups.flatMap fun (k, g) =>
          (g.threads.filter fun (_, t) => t.index == index).map fun (l, _) => (c, k, l)
      else []
    | none => []
  let s := here.foldl (fun s (c, k, l) => s.deliver c k l tag at_ [w] acq) s
  let pressed := fun (d : Side) => { d with pressed := d.pressed.map fun g => g.modAll keep }
  { s with
    cores := s.cores.map fun (c, x) =>
      (c, { x with side := x.side.map fun d =>
        if d.launch = launch ∧ d.team = team then pressed d else d })
    saved := s.saved.map fun v =>
      if v.launch = launch ∧ v.team = team then
        { v with sides := v.sides.map fun d =>
            { d with side := pressed d.side, groups := d.groups.map fun (k, g) => (k, g.modAll keep) } }
      else v }

/-! ## Slots and contexts (R148, R154) -/

/-- The lowest free group slot. -/
def Core.freeSlot (c : Core) : Option Nat := (List.range 64).find? fun k => (c.groups.find k).isNone

/-- Contexts that the groups in Ready, Active and Blocked hold: one for each lane that holds a thread, which an
exited one no longer does (R154, R477). -/
def Core.contexts (c : Core) : Nat :=
  ((c.groups.filter fun (_, g) => g.st != .saved && g.st != .retired).map fun (_, g) =>
    (g.threads.filter fun (_, t) => t.live).length).sum

/-- A slot and n contexts are free. -/
def State.hasRoom (s : State) (core n : Nat) : Bool :=
  let c := s.core core
  c.freeSlot.isSome && decide (c.contexts + n ≤ (s.coreLaunch core).env.contexts)

/-- A lane is blocked at WAITC, ENQ.wait or DEQ.wait. -/
def Thread.pressable (t : Thread) : Bool :=
  match t.wait with | .cond | .queue => true | _ => false

/-- The group blocked longest at WAITC, ENQ.wait or DEQ.wait, and at nothing else (R148). -/
def Core.longestBlocked (c : Core) : Option Nat :=
  ((c.groups.filter fun (_, g) => g.st == .blocked && (g.threads.any fun (_, t) => t.pressable) &&
      g.threads.all fun (_, t) => !t.blocks || t.pressable).foldl (fun best (k, g) =>
    match best with
    | none => some (k, g)
    | some (j, h) => if g.since < h.since then some (k, g) else some (j, h)) none).map (·.1)

/-- Withdraw the conditions, parked operations and polls of a slot: its lanes stand at their instruction
again (R120, R407). -/
def State.withdrawSlot (s : State) (core slot : Nat) : State :=
  let mine := fun (w : QueueWait) => w.wait &&
    match w.who with | .lane c k _ => c == core && k == slot | .hart _ => false
  let waits := ((s.conds.filter fun c => c.core == core && c.slot == slot).map (·.tag)) ++
    (s.queueWaits.filter mine).map (·.tag)
  let s := { s with
    conds := s.conds.filter fun c => !(c.core == core && c.slot == slot)
    queueWaits := s.queueWaits.filter fun w => !mine w }
  let tags := ((s.core core).group slot).threads.filterMap fun (l, t) =>
    if t.pressable then some l else none
  s.modCore core fun c =>
    let c := { c with vres := c.vres.filter fun r =>
      !(r.slot == slot && tags.contains r.lane && r.due.isNone && waits.contains r.tag) }
    c.modGroup slot fun g => g.modAll fun t => if t.pressable ∨ t.wait = .spawn then t.withdraw else t

/-- Nothing of fixed latency, and no read phase, of a slot is in flight (R226). -/
def Core.landed (c : Core) (slot now : Nat) : Bool :=
  (c.landings.all fun l => l.slot != slot || decide (l.land ≤ now)) && c.reading.all fun u => u.slot != slot

/-- The group as it is saved under pressure: each thread that was blocked leaves at its safe point (R229). -/
def Group.pressedAt (g : Group) (l : Launch) : Group :=
  let entry := fun (t : Thread) => if t.pressable then l.safePoint t.pc else none
  let live := g.threads.filter fun (_, t) => t.live
  { g with threads := g.threads.map fun (k, (t : Thread)) => (k, t.atSafe l.env.regs (entry t))
           glive := live.foldl (fun (m : BitVec 64) (x : Nat × Thread) => m ||| gliveOf (entry x.2)) 0 }.kept

/-- Save a group under pressure: its slot and contexts are free, and nothing watches its condition
(R148, R162). -/
def State.pressureSave (s : State) (core slot : Nat) : State :=
  let l := s.coreLaunch core
  let s := s.modCore core fun c =>
    let c := c.settle s.now
    c.modGroup slot fun g => g.pressedAt l
  let s := s.withdrawSlot core slot
  s.modCore core fun c =>
    let c := c.flushSlot slot
    let g := { c.group slot with st := .saved, paths := [], glive := 0 }
    { c with
      groups := c.groups.without slot
      lastPage := c.lastPage.filter fun r => r.1 / 64 != slot
      side := c.side.map fun d => { d with pressed := d.pressed ++ [g] } }

/-- Make room for n contexts by saving blocked groups, longest blocked first (R148). A save waits for the group's
writes in flight (R226). -/
def State.freeRoom (s : State) (core n : Nat) : Nat → State
  | 0 => s
  | k + 1 =>
    if s.hasRoom core n then s
    else
      match (s.core core).longestBlocked with
      | some slot =>
        if (s.core core).landed slot s.now then (s.pressureSave core slot).freeRoom core n k
        else s.scheduleOnce (s.now + 1) (.pigeonholeLaunch core)
      | none => s

/-- Groups saved under pressure come back in order as slots and contexts allow. -/
def State.askPressed (s : State) (core : Nat) : State :=
  if (s.core core).sideD.pressed.isEmpty then s else s.scheduleOnce s.now (.pressureRestore core)

/-- Slots or contexts of a core have become free: Due pigeonholes and groups saved under pressure try for them. -/
def State.pokeRoom (s : State) (core at_ : Nat) : State := (s.pokeDue core at_).askPressed core

def Core.setPressed (c : Core) (gs : List Group) : Core :=
  { c with side := c.side.map fun d => { d with pressed := gs } }

/-- PRESSURE_RESTORE (R148). -/
def State.pressureRestore (s : State) (core : Nat) : State :=
  let c := s.core core
  match c.sideD.pressed, c.freeSlot with
  | g :: rest, some slot =>
    if c.sideD.returning || !s.hasRoom core (g.threads.filter fun (_, t) => t.live).length then s
    else
      let g := { g with st := .ready, since := s.now, born := s.now }
      let s := s.modCore core fun c => (c.setPressed rest).placeGroup slot g
      let s := s.scheduleOnce s.now (.activeSetEntry core (domainOf g.width slot))
      s.askPressed core
  | _, _ => s

/-! ## Pigeonholes (R152, R153) -/

def Hole.free : Hole := ⟨.free, 0, [], 0, 0⟩
def Side.hole (d : Side) (k : Nat) : Hole := d.holes.get Hole.free k

/-- The pigeonhole an insertion takes: the filling one of its key, else the lowest free one (R151). -/
def Side.holeFor (d : Side) (key : Nat) : Option Nat :=
  match (List.range 16).find? fun k => (d.hole k).st == .filling && (d.hole k).key == key with
  | some k => some k
  | none => (List.range 16).find? fun k => (d.hole k).st == .free

def State.modSide (s : State) (core : Nat) (f : Side → Side) : State :=
  s.modCore core fun c => { c with side := c.side.map f }

/-- Put a record into a pigeonhole in a cycle (R152). -/
def State.insertRecord (s : State) (core k key at_ : Nat) (r : SpawnRec) : State :=
  let e := (s.coreLaunch core).env
  let h := (s.core core).sideD.hole k
  let s := s.tick
  let h' : Hole :=
    if h.st = .free then ⟨.filling, key, [r], at_ + e.timer, s.order⟩ else { h with recs := h.recs ++ [r] }
  let full := e.width ≤ h'.recs.length
  let h' := if full then { h' with st := .due } else h'
  let s := s.modSide core fun d => { d with holes := d.holes.put k h' }
  let s := if h.st = .free ∧ !full then s.schedule h'.expires (.pigeonholeTimerExpiry core k h'.stamp) else s
  if full then s.scheduleOnce at_ (.pigeonholeLaunch core) else s

/-- A new thread of a pigeonhole's group (R153). -/
def Thread.spawn (r : SpawnRec) (pc : DWord) (ctx : Nat) : Thread :=
  { Thread.fresh with
    index := r.index, spawned := true, pc := pc, seed := r.seed, lv := Level.empty ctx, l1since := ctx
    v := r.args.mapIdx fun i w => (i, ⟨w, false, 0⟩) }

/-- The group of a Due pigeonhole (R153). -/
def State.spawnGroup (s : State) (core : Nat) (h : Hole) : Group :=
  let l := s.coreLaunch core
  let e := l.env
  { Group.fresh with
    width := e.width, st := .ready, since := s.now, earliest := s.now + 12, born := s.now
    g := argRegs (s.officeRead l.part l.datp e.args.toNat e.argSize) e.argSize
    threads := h.recs.mapIdx fun i r => (i, Thread.spawn r (e.entry + BitVec.ofNat 64 h.key) s.order) }

/-- Blocked SPAWNs of a core are to try again (R155). -/
def State.retrySpawns (s : State) (core : Nat) : State :=
  (s.core core).groups.foldl (fun s (k, g) =>
    if g.threads.any fun (_, t) => t.wait == .spawn then s.scheduleOnce s.now (.spawnBlockRetry core k)
    else s) s

/-- The Due pigeonholes, ascending. -/
def Side.dues (d : Side) : List Nat := (List.range 16).filter fun k => (d.hole k).st == .due

/-- A Due pigeonhole's group takes a slot (R153). -/
def State.launchHole (s : State) (core k slot : Nat) : State :=
  let s := s.tick
  let g := s.spawnGroup core ((s.core core).sideD.hole k)
  let s := s.modCore core fun c => c.setGroup slot g
  let s := s.modSide core fun d => { d with holes := d.holes.put k Hole.free }
  let s := s.scheduleOnce s.now (.activeSetEntry core (domainOf g.width slot))
  (s.scheduleOnce (s.now + 1) (.pigeonholeLaunch core)).retrySpawns core

/-- PIGEONHOLE_LAUNCH (R153, R154): the lowest Due pigeonhole that has room, one in a cycle. Room is made for the
lowest (R148). -/
def State.pigeonLaunch (s : State) (core : Nat) : State :=
  let d := (s.core core).sideD
  let n := fun (k : Nat) => (d.hole k).recs.length
  if d.returning then s
  else
    match d.dues with
    | [] => s
    | k :: _ =>
      let s := s.freeRoom core (n k) 64
      match d.dues.find? fun j => s.hasRoom core (n j), (s.core core).freeSlot with
      | some j, some slot => s.launchHole core j slot
      | _, _ => s.askPressed core

/-- PIGEONHOLE_TIMER_EXPIRY (R152). -/
def State.pigeonExpire (s : State) (core k stamp : Nat) : State :=
  let h := (s.core core).sideD.hole k
  if h.st = .filling ∧ h.stamp = stamp then
    (s.modSide core fun d => { d with holes := d.holes.put k { h with st := .due } }).scheduleOnce s.now
      (.pigeonholeLaunch core)
  else s

/-- SPAWN_BLOCK_RETRY (R155): the group becomes Ready and issues the SPAWN again for the lanes that
have not been processed. -/
def State.spawnRetry (s : State) (core slot : Nat) : State :=
  let s := s.modGroup core slot fun g => g.modAll fun t => if t.wait = .spawn then t.withdraw else t
  s.wakeGroup core slot s.now

/-! ## SPAWN (R151) -/

/-- The spawn counter of the team (R151). -/
def State.spawnCount (s : State) (core : Nat) : Nat := ((s.coreTeam core).map (·.spawncount)).getD 0

/-- What a lane hands to the insertion: its entry, its arguments, and the seed of the record (R100, R151). -/
def Ctx.spawnArgs (x : Ctx) (l : Nat) : Nat × Nat × List Word × Word :=
  let n := x.f.mod.toNat
  (l, x.value l x.f.a 1 .int, natWords n (x.value l x.f.b n .int), xorStep (x.thread l).seed)

/-- A lane has its status, which is usable 8 cycles later. -/
def State.spawnDone (s : State) (core slot tag lane : Nat) (st : Word) : State :=
  (s.deliver core slot lane tag (s.now + 8) [st]).modThread core slot lane fun t => t.endWait s.now

/-- The lanes of a SPAWN from the first that blocks stand at it again, and wait (R155): the group is Blocked, and
its levels are invalid (R225). -/
def State.spawnBlocks (s : State) (core slot tag : Nat) (lanes : List Nat) : State :=
  let s := s.modCore core fun c =>
    { c with vres := c.vres.filter fun r => !(r.slot == slot && r.tag == tag && lanes.contains r.lane) }
  let s := s.tick
  let k := s.order
  let s := s.modGroup core slot fun g =>
    let g := lanes.foldl (fun g l => g.modThread l fun t => { t.withdraw with wait := .spawn }) g
    { g.modAll fun t => { t with lv := Level.empty k } with st := .blocked, since := s.now }
  s.scheduleOnce (s.now + 1) (.activeSetEntry core (domainOf ((s.core core).group slot).width slot))

/-- The lanes of a SPAWN in ascending order, in the cycle of the insertions (R151): each traps, has its status, or
blocks with those after it (R155). -/
def State.spawnLanes (s : State) (core slot tag : Nat) : List (Nat × Nat × List Word × Word) → State
  | [] => s
  | (l, key, args, seed) :: ls =>
    let i := s.spawnCount core
    let env := (s.coreLaunch core).env
    let th := s.thread core slot l
    if th.wait != .answer || th.stopped then s.spawnLanes core slot tag ls
    else if key % 2 = 1 then
      (s.lateTrap core slot l causeMisalign (BitVec.ofNat 64 key) s.now).spawnLanes core slot tag ls
    else if env.text ≤ key then
      (s.faultLane core slot l causeLeaseOut (env.entry + BitVec.ofNat 64 key)
        ((th.await.map (·.pc)).getD th.pc)).spawnLanes core slot tag ls
    else if i = 2 ^ 23 then (s.spawnDone core slot tag l (status stQuota 0)).spawnLanes core slot tag ls
    else
      match (s.core core).sideD.holeFor key with
      | none => s.spawnBlocks core slot tag (l :: ls.map (·.1))
      | some k =>
        let s := s.modCoreTeam core fun t => { t with spawncount := i + 1 }
        let s := s.insertRecord core k key s.now ⟨args, i, seed⟩
        (s.spawnDone core slot tag l (status stOk i)).spawnLanes core slot tag ls

/-- SPAWN (R151): its active lanes wait for the cycle e + 1, in which their insertions are made. (Log 78,
DEDUCED.) -/
def State.spawnOp (s : State) (sh : Shape) (f : Fields) : State :=
  let (x, s) := s.begin sh f
  let lv := x.levelTraps
  let ok := x.without lv
  let s := s.finishWait x lv (ok.map fun l => (l, .answer)) false []
  let s := ok.foldl (fun s l => s.pend x.core x.slot l f.dst 1 x.tag false) s
  if ok.isEmpty then s else s.schedule (x.e + 1) (.spawnInsert x.core x.slot x.tag (ok.map x.spawnArgs))

/-! ## Meanings -/

/-- SPAWN (R151). -/
def execSpawn (f : Fields) (s : State) : Res := .next (s.spawnOp (Instr.spawn f).shape f)

/-- PIGEONHOLE_TIMER_EXPIRY (R152). -/
def execPigeonholeTimerExpiry (s : State) : Res :=
  match s.event with
  | .pigeonholeTimerExpiry core k stamp => .next (s.pigeonExpire core k stamp)
  | _ => .next s

/-- PIGEONHOLE_LAUNCH (R153). -/
def execPigeonholeLaunch (s : State) : Res :=
  match s.event with
  | .pigeonholeLaunch core => .next (s.pigeonLaunch core)
  | _ => .next s

/-- SPAWN_BLOCK_RETRY (R151, R155). -/
def execSpawnBlockRetry (s : State) : Res :=
  match s.event with
  | .spawnBlockRetry core slot => .next (s.spawnRetry core slot)
  | .spawnInsert core slot tag lanes => .next (s.spawnLanes core slot tag lanes)
  | _ => .next s

/-- PRESSURE_RESTORE (R148). -/
def execPressureRestore (s : State) : Res :=
  match s.event with
  | .pressureRestore core => .next (s.pressureRestore core)
  | _ => .next s

end Sys2Proof.Machine
end

