-- ==== Sys2Proof/Machine/Tiles.lean ====
section
/-! DEFINITION. Tiles (R86 to R95, R104 to R108, R287 to R293): operand and accumulator descriptors, where
an element and its scales lie, and the exact sum of a chunk. -/

namespace Sys2Proof.Machine

/-! ## Formats of matrix operands (R86, R92) -/

/-- The element format of a code (R86, R92). -/
def codeElem : Nat → EFmt
  | 0 => .f64 | 1 => .f32 | 2 => .f19 | 3 => .bf16 | 4 => .f16 | 5 => .e4m3 | 6 => .e5m2 | 7 => .e3m4
  | 8 => .e3m2 | 9 => .e2m3 | 10 => .e2m1 | 11 => .i16 | 12 => .i8 | 13 => .n8 | 14 => .i4 | 15 => .n4
  | 16 => .i2 | 17 => .t2 | 18 => .b1 | 19 => .e4m3 | 20 => .e5m2 | 21 => .e3m2 | 22 => .e2m3
  | 23 => .e2m1 | 24 => .i8 | 25 => .e2m1 | 26 => .e4m3 | 27 => .e4m3 | 28 => .i8 | 29 => .n4
  | 30 => .i2 | _ => .t2

/-- Bytes of a scale entry of a block format (R92). -/
def entryBytes (code : Nat) : Nat :=
  if 19 ≤ code ∧ code ≤ 25 then 1
  else if code = 28 ∨ code = 30 ∨ code = 31 then 2
  else if code = 26 ∨ code = 27 ∨ code = 29 then 4 else 0

/-- Elements of a block along the row (R92). -/
def blockLen (code : Nat) : Nat := if code = 25 then 16 else if code = 30 ∨ code = 31 then 64 else 32

/-- Scale bytes of one row of K elements (R92, R289). -/
def rowScaleBytes (code k : Nat) : Nat :=
  let blocks := (k + blockLen code - 1) / blockLen code
  if code < 19 ∨ code = 27 then 0
  else if code = 26 then 4
  else if code = 25 then 4 + blocks
  else blocks * entryBytes code

/-- Whether a code lies in the group H, Q, I or the scaled integers of the cross pairings (R104). -/
def inH (c : Nat) : Bool := c == 3 || c == 4
def inQ (c : Nat) : Bool := (5 ≤ c && c ≤ 10) || (19 ≤ c && c ≤ 23) || (25 ≤ c && c ≤ 27)
def inBQ (c : Nat) : Bool := 28 ≤ c && c ≤ 31
def inI (c : Nat) : Bool := (11 ≤ c && c ≤ 18) || c == 24 || inBQ c

/-- The accumulator format of a pairing, as AFMT (R104, R291); sparse: under MMASP, which refuses
group W (R299). -/
def pairing (sparse : Bool) (a b : Nat) : Option Nat :=
  if a < 3 ∨ b < 3 then
    if sparse ∨ a ≠ b then none else some (if a = 0 then 1 else 0)
  else if (inH a && inH b) || (inQ a && inQ b) || (inH a && inBQ b) || (inBQ a && inH b) then some 0
  else if inI a && inI b then some (if a < 19 ∧ b < 19 then 2 else 0)
  else none

/-- FMA per cycle of a format (R297). -/
def fmtRate (c : Nat) : Nat :=
  if c = 0 then 256
  else if c = 1 ∨ c = 2 then 4096
  else if c = 3 ∨ c = 4 ∨ c = 11 then 8192
  else if [5, 6, 7, 12, 13, 19, 20, 24, 26, 27, 28].contains c then 16384
  else if [8, 9, 10, 14, 15, 21, 22, 23, 25, 29].contains c then 32768
  else 65536

/-! ## Operand descriptors (R287 to R290) -/

structure MDesc where
  astr : Nat
  auxoff : Int
  ld : Nat
  fmt : Nat
  tokk : Bool
  swz : Nat
  trans : Bool
  sp : Bool
  addr : Nat
  zeros : Bool
  /-- Bits [56:20] of ADDR. -/
  high : Nat
  deriving DecidableEq, Repr

/-- A descriptor from its four words (R287). -/
def MDesc.ofWords (ws : List Word) : MDesc :=
  let n := wordsNat ws
  let fld := fun (lo w : Nat) => n / 2 ^ lo % 2 ^ w
  let a := fld 0 57
  { astr := fld 116 12, auxoff := toInt 20 (fld 96 20), ld := fld 72 20, fmt := fld 64 5,
    tokk := fld 62 1 == 1, swz := fld 59 3, trans := fld 58 1 == 1, sp := fld 57 1 == 1,
    addr := if fld 57 1 = 0 ∧ a.testBit 56 then a + 127 * 2 ^ 57 else a,
    zeros := fld 92 4 == 0 && fld 69 3 == 0 && fld 63 1 == 0, high := a / 2 ^ 20 }

/-- R290, but for the limits of MMASP. -/
def MDesc.valid (d : MDesc) : Bool :=
  d.zeros && d.swz ≤ 3 && d.addr % 16 == 0 && (!d.sp || d.high == 0) && (!d.tokk || d.fmt == 27)

/-- R290 with the limits of MMASP for K elements. -/
def MDesc.validFor (d : MDesc) (sparse : Bool) (k : Nat) : Bool :=
  d.valid && (!sparse || (!d.trans && k / 8 + rowScaleBytes d.fmt k ≤ d.astr * 16))

/-- Swz (R293). -/
def swizzle (y s : Nat) : Nat :=
  if s = 0 then y else y ^^^ (y / 2 ^ 7 % 2 ^ s * 16)

def MDesc.elem (d : MDesc) : EFmt := codeElem d.fmt
def MDesc.width (d : MDesc) : Nat := elemWidth d.elem

/-- An address of the operand's space. -/
def MDesc.at_ (d : MDesc) (off : Int) : Nat := ((d.addr + off) % 2 ^ 64).toNat

/-- The address of the byte at an offset of the elements' bit string (R288, R293). -/
def MDesc.byteAt (d : MDesc) (o : Nat) : Nat := d.at_ (swizzle o d.swz)

/-- The bit offset of an element; k is its packed index under MMASP (R288, R299). -/
def MDesc.bitOff (d : MDesc) (r k : Nat) : Nat :=
  if d.trans then 128 * d.ld * k + d.width * r else 128 * d.ld * r + d.width * k

/-- An address of the auxiliary area (R289). -/
def MDesc.aux (d : MDesc) (off : Nat) : Nat := d.at_ (128 * d.auxoff + off)

/-- Bytes of a run of bits, the first byte of every 16-byte unit it touches. -/
def unitBytes (bit n : Nat) : List Nat :=
  if n = 0 then []
  else
    let lo := bit / 8
    let hi := (bit + n - 1) / 8
    lo :: ((List.range' (lo / 16 + 1) (hi / 16 - lo / 16)).map (· * 16))

/-! ## An operand of an operation -/

/-- An operand: its descriptor, the rows it gives, K, and whether it is sparse. -/
structure Oprd where
  d : MDesc
  row0 : Nat
  rows : Nat
  k : Nat
  sparse : Bool
  deriving DecidableEq, Repr

def Oprd.rowList (o : Oprd) : List Nat := List.range' o.row0 o.rows

/-- Address of the bitmap of a row and K group (R289). -/
def Oprd.mapAddr (o : Oprd) (r g : Nat) : Nat := o.d.aux (16 * o.d.astr * r + 4 * g)

/-- Offset of the scales after the bitmaps: B of R289. -/
def Oprd.scaleBase (o : Oprd) : Nat := if o.sparse then o.k / 8 else 0

/-- Addresses of the scale entries that a row needs for a chunk of 32 (R289, R93, R94). -/
def Oprd.scaleAddrs (o : Oprd) (r c : Nat) : List Nat :=
  let row := 16 * o.d.astr * r + o.scaleBase
  let f := o.d.fmt
  if f < 19 then []
  else if f = 25 then [o.d.aux row, o.d.aux (row + 4 + 2 * c), o.d.aux (row + 4 + 2 * c + 1)]
  else if f = 26 then [o.d.aux row]
  else if f = 27 then
    if o.d.tokk then [o.d.aux (o.scaleBase + 8 * c), o.d.aux (o.scaleBase + 8 * c + 4)]
    else [o.d.aux (o.scaleBase + 4 * (r / 16))]
  else [o.d.aux (row + entryBytes f * (if blockLen f = 64 then c / 2 else c))]

/-! ## Reading fetched lines -/

/-- A fetched byte. -/
def fetched (t : Tab FLine) (a : Nat) : Byte :=
  match t.find (a / 128) with
  | some l => (l.bytes[a % 128]?).getD 0
  | none => 0

/-- n fetched bytes as a number. -/
def fetchedNat (t : Tab FLine) (a n : Nat) : Nat := leNat ((List.range' a n).map (fetched t))

/-- An address lies in a line with an uncorrectable error. -/
def fetchedBad (t : Tab FLine) (a : Nat) : Bool := ((t.find (a / 128)).map (·.bad)).getD false

/-- A bitmap word (R289). -/
def Oprd.bitmap (o : Oprd) (t : Tab FLine) (r g : Nat) : Nat := fetchedNat t (o.mapAddr r g) 4

/-- Bits set below a position. -/
def popBelow (n : Nat) : Nat → Nat
  | 0 => 0
  | i + 1 => popBelow n i + (if n.testBit i then 1 else 0)

/-- Present elements of a row before a group (R299). -/
def Oprd.before (o : Oprd) (t : Tab FLine) (r : Nat) : Nat → Nat
  | 0 => 0
  | g + 1 => o.before t r g + popBelow (o.bitmap t r g) 32

/-- Addresses that a chunk of kc elements reads, the bitmaps and packing taken from the lines fetched
so far. -/
def Oprd.chunkAddrs (o : Oprd) (t : Tab FLine) (kc c : Nat) : List Nat :=
  let d := o.d
  let elems :=
    if o.sparse then
      o.rowList.flatMap fun r =>
        unitBytes (d.bitOff r (o.before t r c)) (d.width * popBelow (o.bitmap t r c) 32)
    else if d.trans then
      (List.range' (c * kc) kc).flatMap fun k => unitBytes (d.bitOff o.row0 k) (d.width * o.rows)
    else o.rowList.flatMap fun r => unitBytes (d.bitOff r (c * kc)) (d.width * kc)
  elems.map d.byteAt ++ o.rowList.flatMap fun r =>
    (if o.sparse then [o.mapAddr r c] else []) ++ o.scaleAddrs r c

/-- Every bitmap address of a sparse operand. -/
def Oprd.mapAddrs (o : Oprd) : List Nat :=
  if o.sparse then o.rowList.flatMap fun r => (List.range (o.k / 32)).map (o.mapAddr r) else []

/-- Every address the operand's operation reads. -/
def Oprd.addrs (o : Oprd) (t : Tab FLine) (kc : Nat) : List Nat :=
  (List.range (o.k / kc)).flatMap (o.chunkAddrs t kc)

/-! ## Element values (R87 to R95) -/

/-- The code of an element at a bit offset. -/
def MDesc.code (d : MDesc) (t : Tab FLine) (bit : Nat) : Nat :=
  let lo := bit / 8
  let n := (bit + d.width - 1) / 8 + 1 - lo
  leNat ((List.range' lo n).map fun o => fetched t (d.byteAt o)) / 2 ^ (bit % 8) % 2 ^ d.width

/-- An E8M0 scale (R92). -/
def e8m0 (e : Nat) : Value := if e = 255 then .nan else scaleFrac false 1 1 ((e : Int) - 127)

/-- A UE5M3 scale (R92). -/
def ue5m3 (x : Nat) : Value :=
  let m := x % 8
  if x = 255 then .nan
  else if x / 8 = 0 then scaleFrac false m 1 (-17) else scaleFrac false (8 + m) 1 ((x / 8 : Nat) - 18 : Int)

/-- The value of a scale entry of a format (R92). -/
def entryValue (fmt x : Nat) : Value :=
  if fmt = 25 then ue5m3 x
  else if fmt < 25 then e8m0 x
  else if fmt = 26 ∨ fmt = 27 then elemValue .f32 x
  else if fmt = 28 ∨ fmt = 30 then elemValue .f16 x
  else elemValue .bf16 (x % 2 ^ 16)

/-- The scale entry that applies to an element (R92 to R94). -/
def Oprd.entryAddr (o : Oprd) (r k : Nat) : Nat :=
  let row := 16 * o.d.astr * r + o.scaleBase
  let f := o.d.fmt
  if f = 25 then o.d.aux (row + 4 + k / 16)
  else if f = 26 then o.d.aux row
  else if f = 27 then o.d.aux (o.scaleBase + 4 * ((if o.d.tokk then k else r) / 16))
  else o.d.aux (row + entryBytes f * (k / blockLen f))

/-- The value of an element with every scale and zero point (R92, R95, R105). -/
def Oprd.value (o : Oprd) (t : Tab FLine) (opScale : Value) (r k bit : Nat) : Value :=
  let f := o.d.fmt
  let x := elemValue o.d.elem (o.d.code t bit)
  if f < 19 then x
  else
    let raw := fetchedNat t (o.entryAddr r k) (entryBytes f)
    let s := entryValue f raw
    if f = 24 then (x.scale (-6)).mul s
    else if f = 25 then
      let row := elemValue .f32 (fetchedNat t (o.d.aux (16 * o.d.astr * r + o.scaleBase)) 4)
      ((x.mul s).mul row).mul opScale
    else if f = 29 then (x.add false (Value.ofInt (-(raw / 2 ^ 16 % 16 : Nat)))).mul s
    else x.mul s

/-- The elements of a row in a chunk: none where a bitmap leaves one out (R108). -/
def Oprd.rowChunk (o : Oprd) (t : Tab FLine) (opScale : Value) (kc r c : Nat) : List (Option Value) :=
  if o.sparse then
    let m := o.bitmap t r c
    let p := o.before t r c
    (List.range 32).map fun i =>
      if m.testBit i then
        some (o.value t opScale r (32 * c + i) (o.d.bitOff r (p + popBelow m i)))
      else none
  else (List.range' (c * kc) kc).map fun k => some (o.value t opScale r k (o.d.bitOff r k))

/-- Terms of one element of the result in a chunk (R105, R108). (Log 43, DEDUCED.) -/
def terms (a b : List (Option Value)) : List Value :=
  (a.zip b).filterMap fun (x, y) => match x, y with | some x, some y => some (x.mul y) | _, _ => none

/-- The exact sum of the terms (R106): +0 where there are none. -/
def exactSum : List Value → Value
  | [] => .fin false 0 1
  | x :: xs => xs.foldl (Value.add false) x

/-- Positions set in both bitmaps (R299). -/
def bothPresent (a b : List (Option Value)) : Nat :=
  ((a.zip b).filter fun (x, y) => x.isSome && y.isSome).length

/-! ## Accumulators (R291) -/

structure AccDesc where
  pair : Bool
  afmt : Nat
  n : Nat
  m : Nat
  base : Nat
  zeros : Bool
  deriving DecidableEq, Repr

def AccDesc.ofWord (w : Word) : AccDesc :=
  let n := w.toNat
  { pair := n.testBit 17, afmt := n / 2 ^ 15 % 4, n := 16 * (n / 2 ^ 10 % 32 + 1),
    m := 16 * (n / 2 ^ 6 % 16 + 1), base := n % 64, zeros := n < 2 ^ 18 }

/-- Columns a core holds, and bytes of an element. -/
def AccDesc.ns (a : AccDesc) : Nat := if a.pair then a.n / 2 else a.n
def AccDesc.size (a : AccDesc) : Nat := if a.afmt = 1 then 8 else 4
def AccDesc.count (a : AccDesc) : Nat := (a.m * a.ns * a.size + 16383) / 16384

/-- The descriptor meets R291; spans: the set, or for a per-lane instruction the team, lies on both
cores. -/
def AccDesc.ok (a : AccDesc) (acc : Nat) : Bool :=
  a.zeros && a.afmt != 3 && (if a.pair then a.n ≤ 384 && a.n % 32 == 0 else a.n ≤ 192) &&
    a.base + a.count ≤ acc

/-- First column a side holds. -/
def AccDesc.col0 (a : AccDesc) (side : Nat) : Nat := if a.pair then a.ns * side else 0

/-- First byte of the accumulator granules (R137). -/
def Core.accBase (c : Core) : Nat := (c.rfGranules + c.spGranules) * 16384

/-- SRAM address of element (i, j), j counted from the side's first column. -/
def Core.accAddr (c : Core) (a : AccDesc) (i j : Nat) : Nat :=
  c.accBase + a.base * 16384 + (i * a.ns + j) * a.size

def Core.accGet (c : Core) (a : AccDesc) (i j : Nat) : Nat :=
  leNat ((List.range' (c.accAddr a i j) a.size).map fun k => c.sram.get 0 k)

def Core.accPut (c : Core) (a : AccDesc) (i j v : Nat) : Core :=
  { c with sram := sramPut (leBytes a.size v) (c.accAddr a i j) c.sram }

/-- Accumulator granules of an operation, and of rows i0 and i1 (R296). -/
def AccDesc.granules (a : AccDesc) : List Nat := List.range' a.base a.count
def AccDesc.rowGranules (a : AccDesc) (i : Nat) : List Nat :=
  let lo := i * a.ns * a.size / 16384
  let hi := ((i + 1) * a.ns * a.size - 1) / 16384
  List.range' (a.base + lo) (hi + 1 - lo)
def AccDesc.elemGranule (a : AccDesc) (i j : Nat) : Nat := a.base + (i * a.ns + j) * a.size / 16384

/-- The value of an accumulator pattern. -/
def AccDesc.value (a : AccDesc) (v : Nat) : Value :=
  if a.afmt = 1 then elemValue .f64 v else if a.afmt = 2 then .ofInt (toInt 32 v) else elemValue .f32 v

/-- A finite value as an integer (its denominator divides it). -/
def Value.toInt : Value → Int
  | .fin neg n d => signed neg n / (d : Int)
  | _ => 0

/-- Accumulate (R105). -/
def AccDesc.accumulate (a : AccDesc) (rm : Rm) (sat : Bool) (old : Nat) (s : Value) : Nat :=
  if a.afmt = 2 then
    let z := Sys2Proof.Machine.toInt 32 old + s.toInt
    intBits 32 (if sat then clampInt (-2 ^ 31) (2 ^ 31 - 1) z else z)
  else
    roundTo (if a.afmt = 1 then .f64 else .f32) false rm ((a.value old).add (rm == .rd) s)

/-! ## Writing elements (R288, R312 to R314) -/

/-- Merge the bits of an element into pending bytes. -/
def MDesc.putCode (d : MDesc) (m : Tab Byte) (bit code : Nat) : Tab Byte :=
  let lo := bit / 8
  let n := (bit + d.width - 1) / 8 + 1 - lo
  let mask := (2 ^ d.width - 1) * 2 ^ (bit % 8)
  let val := code % 2 ^ d.width * 2 ^ (bit % 8)
  (List.range n).foldl (fun m i =>
    let a := d.byteAt (lo + i)
    let k := BitVec.ofNat 8 (mask / 2 ^ (8 * i))
    m.put a (mergeMask (m.get 0 a) k (BitVec.ofNat 8 (val / 2 ^ (8 * i))))) m

/-- Pending bytes as runs that stay within one line. -/
def byteRuns (m : Tab Byte) : List (Nat × List Byte) :=
  m.foldr (fun (a, b) acc =>
    match acc with
    | (a', bs) :: rest => if a' = a + 1 ∧ a' % 128 ≠ 0 then (a, b :: bs) :: rest else (a, [b]) :: acc
    | [] => [(a, [b])]) []

end Sys2Proof.Machine
end

