-- ==== Sys2Proof/Machine/Matrix.lean ====
section
/-! DEFINITION. The matrix engine and its instructions (R285 to R322): signatures and the checks of the
completing one, the engine's order, tile fetch, chunks, the row instructions and element accesses. -/

namespace Sys2Proof.Machine

/-! ## The engine's order (R296, R320) -/

/-- Events that occupy the engine. -/
def EngKind.occupies : EngKind → Bool
  | .mread => false
  | .mwrite => false
  | _ => true

/-- Signed operations (R302). -/
def EngKind.isSigned : EngKind → Bool
  | .mzero | .mma | .mmasp | .mldacc | .mstacc | .mpack => true
  | _ => false

/-- Events that write the accumulator. -/
def EngKind.changes : EngKind → Bool
  | .mzero | .mma | .mmasp | .mldacc | .mexp | .mwrite => true
  | _ => false

/-- Events with a result for a register (R321). -/
def EngKind.answers : EngKind → Bool
  | .mzero | .mexp | .mread | .mwrite => false
  | _ => true

def EngEvent.acc (v : EngEvent) : AccDesc := AccDesc.ofWord v.accd

/-- Row and column of an index word (R316). -/
def idxRow (w : Word) : Nat := w.toNat / 2 ^ 16 % 256
def idxCol (w : Word) : Nat := w.toNat % 512

/-- Granules an event touches, on a side. -/
def EngEvent.granules (v : EngEvent) (side : Nat) : List Nat :=
  if v.kind.isSigned then v.acc.granules
  else v.lanes.flatMap fun o =>
    let a := AccDesc.ofWord o.accd
    if v.kind.occupies then a.rowGranules (idxRow o.idx)
    else [a.elemGranule (idxRow o.idx) (idxCol o.idx - a.col0 side)]

def EngEvent.touches (v w : EngEvent) (side : Nat) : Bool :=
  (v.granules side).any (w.granules side).contains

/-- Cycles after an event's placing until every event placed no later is known: the cycle after the arrival of a
signature from the farther side (R417). (Log 46, DEDUCED.) -/
def State.engineLag (s : State) (core : Nat) : Nat := if (s.teamCores core).length < 2 then 3 else 17

/-- Put an event into the engine's order: by placing, then by domain (R320). -/
def insertEng (v : EngEvent) : List EngEvent → List EngEvent
  | [] => [v]
  | x :: t =>
    if x.placed < v.placed ∨ (x.placed = v.placed ∧ x.dom ≤ v.dom) then x :: insertEng v t else v :: x :: t

/-- The event that occupies the engine, or is next to. -/
def Core.engHead (c : Core) : Option EngEvent :=
  c.engine.find? fun v => v.kind.occupies && v.ended.isNone

/-- Events of the engine's order before an event. -/
def Core.engBefore (c : Core) (id : Nat) : List EngEvent := c.engine.takeWhile fun v => v.id != id

def Core.modEng (c : Core) (id : Nat) (f : EngEvent → EngEvent) : Core :=
  { c with engine := c.engine.map fun v => if v.id = id then f v else v }

def Core.dropEng (c : Core) (id : Nat) : Core :=
  { c with engine := c.engine.filter fun v => v.id != id }

/-- Signed operations issued on a core and not ended (R296). -/
def Core.engQueued (c : Core) : Nat := (c.engine.filter fun v => v.kind.isSigned && v.ended.isNone).length

/-- Place an event on a core. -/
def State.placeEng (s : State) (core : Nat) (v : EngEvent) : State :=
  let s := s.tick
  let v := { v with id := s.order }
  let s := s.modCore core fun c => { c with engine := insertEng v c.engine }
  let at_ := v.placed + s.engineLag core
  let s := if v.fetched then s else s.schedule (max at_ v.arrives) (.tileFetch core)
  if v.kind.occupies then s.schedule at_ (.matrixChunk core) else s.schedule at_ (.mreadPerform core)

def EngEvent.zero : EngEvent :=
  { id := 0, kind := .mzero, placed := 0, dom := 0, slot := 0, thread := 0, accd := 0, ops := [],
    lanes := [], seed := 0, dsts := [], tag := 0, la := [], lb := [], fetched := true, arrives := 0,
    maps := true, todo := none, chunk := 0, next := 0, past := false, status := 0, ended := none }

/-! ## Operands of a signed operation -/

/-- Words of the descriptors and the control. -/
def EngEvent.descA (v : EngEvent) : MDesc := MDesc.ofWords (v.ops.take 4)
def EngEvent.descB (v : EngEvent) : MDesc := MDesc.ofWords ((v.ops.drop 4).take 4)
/-- Word n of the control block (R306) or of the store control (R311). -/
def EngEvent.ctl (v : EngEvent) (n : Nat) : Word :=
  (v.ops[(if v.kind = .mma ∨ v.kind = .mmasp then 8 else 4) + n]?).getD 0

/-- K of MMA and MMASP (R306). -/
def EngEvent.k (v : EngEvent) : Nat := 32 * ((v.ctl 1).toNat % 16 + 1)
/-- Elements of a chunk (R105). -/
def EngEvent.kc (v : EngEvent) : Nat := if v.acc.afmt = 1 then 8 else 32

/-- Operand A, or the memory operand of MLDACC, MSTACC and MPACK, where a row is i and k is the column
(R309). -/
def EngEvent.oprA (v : EngEvent) : Oprd :=
  if v.kind = .mma ∨ v.kind = .mmasp then ⟨v.descA, 0, v.acc.m, v.k, v.kind == .mmasp⟩
  else ⟨v.descA, 0, v.acc.m, v.acc.n, false⟩

/-- Operand B: the side's rows (R292). -/
def EngEvent.oprB (v : EngEvent) (side : Nat) : Oprd :=
  ⟨v.descB, v.acc.col0 side, v.acc.ns, v.k, v.kind == .mmasp⟩

/-- Scale entries MPACK writes for a row on a side (R313, R314). -/
def EngEvent.packScales (v : EngEvent) (side i : Nat) : List Nat :=
  let d := v.descA
  let n := (v.acc.ns + 31) / 32
  if d.fmt = 26 then [d.aux (16 * d.astr * i)]
  else (List.range' (v.acc.col0 side / 32) n).map fun b =>
    d.aux (16 * d.astr * i + b * entryBytes d.fmt)

/-- Addresses a side's part of the operation reads or writes: with its memory operand, then with B. -/
def EngEvent.addrsA (v : EngEvent) (side : Nat) (t : Tab FLine) : List Nat :=
  match v.kind with
  | .mma | .mmasp => v.oprA.addrs t v.kc
  | .mldacc | .mstacc => v.oprA.chunkAddrs t v.acc.ns (if v.acc.pair then side else 0)
  | .mpack =>
    ((List.range v.acc.m).flatMap fun i =>
        unitBytes (v.descA.bitOff i (v.acc.col0 side)) (v.descA.width * v.acc.ns)).map v.descA.byteAt ++
      (List.range v.acc.m).flatMap (v.packScales side)
  | _ => []

def EngEvent.addrsB (v : EngEvent) (side : Nat) (t : Tab FLine) : List Nat :=
  match v.kind with
  | .mma | .mmasp => (v.oprB side).addrs t v.kc
  | _ => []

/-! ## Reading lines (R295) -/

/-- What reading operand lines comes to: they are read, they wait some cycles, for the handover of a page where an
address is named, or the first of them fails. -/
inductive FetchOut where
  | ok (s : State)
  | wait (n : Nat) (page : Option Nat)
  | fault (cause va : Nat)

/-- A line of a team's scratchpad, as it stands. -/
def State.scratchLine (s : State) (core a : Nat) : FLine :=
  let (c, o) := s.scratchPlace core (a / 128 * 128)
  ⟨(s.core c).spRead o 128, (s.core c).spPoisoned o 128, none⟩

/-- A line of an operand as it stands, read by nobody. -/
def State.peekLine (s : State) (core : Nat) (sp : Bool) (a : Nat) : FLine :=
  if sp then s.scratchLine core a
  else match s.resolve (s.core core).sideD.launch a Need.any with
    | .ok (.mem pa, _) =>
      let p := s.routeRead pa / 128 * 128
      ⟨s.view (.core core) p 128, s.poisoned p 128, none⟩
    | _ => ⟨[], false, none⟩

def State.peekLines (s : State) (core : Nat) (sp : Bool) (as : List Nat) (t : Tab FLine) : Tab FLine :=
  as.foldl (fun t a => if (t.find (a / 128)).isSome then t else t.put (a / 128) (s.peekLine core sp a)) t

/-- The bitmaps of a sparse operand as they stand. -/
def State.peekMaps (s : State) (core : Nat) (o : Oprd) : Tab FLine := s.peekLines core o.d.sp o.mapAddrs []

/-- A slice has a pin for a line (R295). -/
def State.pinRoom (s : State) (pa : Nat) : Bool :=
  let pins := s.pinnedLines.eraseDups
  pins.contains (pa / 128) ||
    decide ((pins.filter fun l => l2Set (l * 128) / 2048 == l2Set pa / 2048).length < 1024)

/-- What keeps a tile fetch from a line: a handover, an earlier store of the core, or the pins (R178, R295). -/
def State.fetchWait (s : State) (core pa : Nat) : Option FetchOut :=
  if s.needsHandover pa then some (.wait 512 (some pa))
  else if (s.held.any fun h => h.core == core && h.pa / 128 == pa / 128 && h.op.writes) || !s.pinRoom pa then
    some (.wait 1 none)
  else none

/-- An event takes a line into operand A or B. -/
def State.takeLine (s : State) (core id : Nat) (b : Bool) (k : Nat) (l : FLine) : State :=
  s.modCore core fun c => c.modEng id fun v =>
    if b then { v with lb := v.lb.put k l } else { v with la := v.la.put k l }

/-- Read one line, pinned where it is global (R295): global lines at their home slices, scratchpad lines at their
cores. -/
def State.fetchLineOf (s : State) (core id : Nat) (b sp : Bool) (a : Nat) : FetchOut :=
  if sp then .ok (s.takeLine core id b (a / 128) (s.scratchLine core a))
  else
    match s.resolve (s.core core).sideD.launch a Need.read with
    | .error c => .fault c a
    | .ok (.peer _ _, s) =>
      let (bs, s) := s.outside 128
      .ok (s.takeLine core id b (a / 128) ⟨bs, false, none⟩)
    | .ok (.mem pa, s) =>
      let p := s.routeRead pa / 128 * 128
      match s.fetchWait core p with
      | some w => w
      | none => .ok ((s.l2Touch p false).takeLine core id b (a / 128)
          ⟨s.view (.core core) p 128, s.poisoned p 128, some (p / 128)⟩)

/-- Lines of an event's operands, by the address and whether it is of B. -/
def State.fetchLines (s : State) (core id : Nat) : List (Bool × Bool × Nat) → FetchOut
  | [] => .ok s
  | (b, sp, a) :: rest =>
    match (s.core core).engine.find? fun v => v.id == id with
    | none => .ok s
    | some v =>
      if ((if b then v.lb else v.la).find (a / 128)).isSome then s.fetchLines core id rest
      else match s.fetchLineOf core id b sp a with
        | .ok s => s.fetchLines core id rest
        | w => w

/-- Fetch group after group, each as a whole once it has its pins, and leave off at the first that waits. -/
def State.fetchGroups (s : State) (core id : Nat) : List (List (Bool × Bool × Nat)) → State × FetchOut
  | [] => (s, .ok s)
  | g :: gs =>
    match s.fetchLines core id g with
    | .ok s => s.fetchGroups core id gs
    | w => (s, w)

/-- Longest row of an operand's lines (R295, R292). -/
def State.tileRow (s : State) (core : Nat) (sp : Bool) (as : List Nat) : Nat :=
  as.foldl (fun m a => max m
    (if sp then scratchRow core (s.scratchPlace core a).1
     else match s.resolve (s.core core).sideD.launch a Need.any with
       | .ok (.mem pa, _) => s.accessRow core pa
       | .ok (.peer pod off, _) => s.peerRow core pod off
       | .error _ => 1)) 1

/-- The bitmaps of a scratchpad operand, which the checks of R286 need. -/
def State.scratchMaps (s : State) (core : Nat) (o : Oprd) : Tab FLine :=
  if o.d.sp && o.sparse then
    s.peekLines core true (o.mapAddrs.filter fun a => a < s.teamScratch core) []
  else []

/-- A fault of an engine: terminal, without a PC (R452). (Log 45, DEDUCED.) -/
def State.engineFault (s : State) (core cause va : Nat) : State :=
  s.schedule (s.now + officeTime core) (.terminalFaultArrival (s.core core).sideD.launch
    { cause := BitVec.ofNat 8 cause, flags := 0, addr := BitVec.ofNat 64 va, pc := 0,
      core := BitVec.ofNat 16 core, slot := 0xFF, lane := 0xFF })

/-- An operation with operands of A and of B (R306). -/
def EngKind.isMma : EngKind → Bool
  | .mma | .mmasp => true
  | _ => false

/-- The operand lines that a chunk needs (R298); MLDACC has one chunk. -/
def EngEvent.chunkLines (v : EngEvent) (side c : Nat) : List (Bool × Bool × Nat) :=
  if v.kind.isMma then
    (v.oprA.chunkAddrs v.la v.kc c).map (fun a => (false, v.descA.sp, a)) ++
      ((v.oprB side).chunkAddrs v.lb v.kc c).map (fun a => (true, v.descB.sp, a))
  else (v.addrsA side v.la).map fun a => (false, v.descA.sp, a)

/-- Chunks of an operation (R105). -/
def EngEvent.chunks (v : EngEvent) : Nat := if v.kind.isMma then v.k / v.kc else 1

/-- The bitmaps of both operands. -/
def EngEvent.mapLines (v : EngEvent) (side : Nat) : List (Bool × Bool × Nat) :=
  v.oprA.mapAddrs.map (fun a => (false, v.descA.sp, a)) ++
    (v.oprB side).mapAddrs.map (fun a => (true, v.descB.sp, a))

/-- The lines of a chunk have arrived. -/
def EngEvent.hasLines (v : EngEvent) (side : Nat) : Bool :=
  v.fetched || (v.maps && (v.chunkLines side v.chunk).all fun (b, _, a) =>
    ((if b then v.lb else v.la).find (a / 128)).isSome)

/-- The row of the lines that remain once the bitmaps are known. -/
def State.linesRow (s : State) (core : Nat) (ls : List (Bool × Bool × Nat)) : Nat :=
  ls.foldl (fun m (_, sp, a) => max m (s.tileRow core sp [a])) 1

/-- A tile fetch that waits is tried again (R295). -/
def State.refetch (s : State) (core n : Nat) (page : Option Nat) : State :=
  let s := match page with | some pa => s.askHandover pa | none => s
  s.scheduleOnce (s.now + n) (.tileFetch core)

/-- Fetch the operands of one event: the bitmaps, then chunk by chunk. A chunk whose lines come after a wait
starts no earlier than they. -/
def State.fetchEvent (s : State) (core : Nat) (v : EngEvent) : State :=
  let side := s.sideOf core
  let fault := fun (s : State) c a => (s.modCore core fun x => x.dropEng v.id).engineFault core c a
  if !v.maps then
    match s.fetchGroups core v.id [v.mapLines side] with
    | (s, .ok _) =>
      let w := ((s.core core).engine.find? fun w => w.id == v.id).getD v
      let at_ := s.now + s.linesRow core ((List.range w.chunks).flatMap (w.chunkLines side))
      (s.modCore core fun x => x.modEng v.id fun w => { w with maps := true, arrives := at_ }).schedule at_
        (.tileFetch core)
    | (s, .wait n page) => s.refetch core n page
    | (s, .fault c a) => fault s c a
  else
    let late := decide (max (v.placed + s.engineLag core) v.arrives < s.now) && !v.hasLines side
    let (s, out) := s.fetchGroups core v.id ((List.range' v.chunk (v.chunks - v.chunk)).map (v.chunkLines side))
    let came := fun (w : EngEvent) =>
      if late && w.hasLines side then { w with next := max w.next s.now } else w
    match out with
    | .ok _ => s.modCore core fun x => x.modEng v.id fun w => came { w with fetched := true }
    | .wait n page => (s.modCore core fun x => x.modEng v.id came).refetch core n page
    | .fault c a => fault s c a

/-- TILE_FETCH (R295): the operands that have arrived; their value is that of this instant. The units of a core
fetch in the engine's order. (Log 44, DEDUCED.) -/
def State.tileFetch (s : State) (core : Nat) : State :=
  let due := ((s.core core).engine.filter fun v => !v.fetched).takeWhile fun v =>
    v.arrives ≤ s.now && v.placed + s.engineLag core ≤ s.now
  let s := due.foldl (fun (s : State) v =>
    -- an event fetches once those before it have
    if ((s.core core).engBefore v.id).all (·.fetched) then s.fetchEvent core v else s) s
  s.scheduleOnce s.now (.matrixChunk core)

/-! ## Checks of the completing signature (R286, R306, R309, R311, R313) -/

/-- The operation of a matrix instruction (Sig.op). -/
def sigKind (op : Nat) : EngKind :=
  match op with
  | 0 => .mzero | 1 => .mma | 2 => .mmasp | 3 => .mldacc | 4 => .mstacc | _ => .mpack

/-- The limits on the memory descriptor (R309). -/
def EngEvent.memOk (v : EngEvent) : Bool :=
  let d := v.descA
  let raw := if v.acc.afmt = 1 then d.fmt == 0 else d.fmt == 1
  d.valid && match v.kind with
  | .mldacc => raw && !d.tokk
  | .mstacc => (if (v.ctl 0).getLsbD 4 then raw else d.fmt ≤ 18) && !d.tokk
  | .mpack => !d.trans && !d.tokk && ((19 ≤ d.fmt && d.fmt ≤ 24) || d.fmt == 26 || d.fmt == 28) &&
      rowScaleBytes d.fmt v.acc.n ≤ d.astr * 16
  | _ => true

/-- The control word is well formed (R306, R311). -/
def EngEvent.ctlOk (v : EngEvent) : Bool :=
  let w := v.ctl 0
  let af := v.acc.afmt
  match v.kind with
  | .mma | .mmasp =>
    let x := v.ctl 1
    x.toNat < 128 && (!x.getLsbD 6 || af == 2) && (x.toNat / 16 % 4 == 0 || af != 2)
  | .mstacc =>
    w.toNat < 32 && (!w.getLsbD 4 || w.toNat % 16 == 0) &&
      (!w.getLsbD 3 || (w.toNat % 4 == 0 && af != 2 && 2 ≤ v.descA.fmt && v.descA.fmt ≤ 10))
  | .mpack => w.toNat < 4
  | _ => true

/-- The accumulator descriptor is well formed for the set, and for MPACK's blocks (R291, R313). -/
def EngEvent.accOk (v : EngEvent) (granules : Nat) (both : Bool) : Bool :=
  v.acc.ok granules && v.acc.pair == both &&
    (v.kind != .mpack || (if v.descA.fmt = 26 then !v.acc.pair else v.acc.ns % 32 == 0))

/-- The detail of MALFORMED, 0 where every descriptor is valid (R306). -/
def EngEvent.malformed (v : EngEvent) (granules : Nat) (both : Bool) : Nat :=
  match v.kind with
  | .mzero => if v.accOk granules both then 0 else 3
  | .mma | .mmasp =>
    let sp := v.kind == .mmasp
    if !v.descA.validFor sp v.k then 1
    else if !v.descB.validFor sp v.k then 2
    else if !v.accOk granules both then 3 else if !v.ctlOk then 4 else 0
  | _ => if !v.memOk then 1 else if !v.accOk granules both then 3 else if !v.ctlOk then 4 else 0

/-- The pairing matches the accumulator (R104). -/
def EngEvent.paired (v : EngEvent) : Bool :=
  match v.kind with
  | .mma | .mmasp => pairing (v.kind == .mmasp) v.descA.fmt v.descB.fmt == some v.acc.afmt
  | _ => true

/-- The sides that hold the accumulator. -/
def EngEvent.sides (v : EngEvent) (side : Nat) : List Nat := if v.acc.pair then [0, 1] else [side]

/-- The scratchpad addresses of the operands, A's before B's, each with its swizzle. -/
def State.scratchAddrs (s : State) (core : Nat) (v : EngEvent) : List (List Nat × Nat) :=
  let sides := v.sides (s.sideOf core)
  let a := if v.descA.sp then
    sides.flatMap fun k => v.oprA.mapAddrs ++ v.addrsA k (s.scratchMaps core v.oprA) else []
  let b := if v.descB.sp then
    sides.flatMap fun k => (v.oprB k).mapAddrs ++ v.addrsB k (s.scratchMaps core (v.oprB k)) else []
  match v.kind with
  | .mzero => []
  | .mma | .mmasp => [(a, v.descA.swz), (b, v.descB.swz)]
  | _ => [(a, v.descA.swz)]

/-- The least of a list. -/
def leastOf : List Nat → Option Nat
  | [] => none
  | x :: t => some (t.foldl min x)

/-- The first scratchpad offset out of range, ascending within an operand (R286). -/
def State.rangeMiss (s : State) (core : Nat) (v : EngEvent) : Option Nat :=
  (s.scratchAddrs core v).findSome? fun (as, _) =>
    leastOf (as.filter fun a => s.teamScratch core ≤ a)

/-- A granule's tag matches a swizzle (R294). -/
def tagMatches (tag : BitVec 4) (swz : Nat) : Bool :=
  if tag = 0 then swz == 0 else tag.toNat == 8 + swz

/-- The tag of the granule that holds a team scratchpad offset. -/
def State.tagOf (s : State) (core o : Nat) : BitVec 4 :=
  let (c, k) := s.scratchPlace core o
  (s.core c).tags.get 0 (((s.core c).spBase + k) / granuleBytes)

/-- The offset of the first granule whose tag does not match (R286, R294); writes are not checked. -/
def State.tagMiss (s : State) (core : Nat) (v : EngEvent) : Option Nat :=
  if v.kind = .mstacc ∨ v.kind = .mpack then none
  else (s.scratchAddrs core v).findSome? fun (as, swz) =>
    leastOf ((as.filter fun a => !tagMatches (s.tagOf core a) swz).map fun a =>
      a / granuleBytes * granuleBytes)

/-- {accumulator format, B code, A code} (R286). -/
def EngEvent.formats (v : EngEvent) : DWord :=
  BitVec.ofNat 64 (v.acc.afmt * 1024 + v.descB.fmt * 32 + v.descA.fmt)

/-! ## Signatures (R285, R302, R417) -/

/-- Write the status of a round's signers in a cycle (R298). (Log 42, DEDUCED.) -/
def State.tellSigners (s : State) (launch team at_ : Nat) (ds : List SignDst) (st : Word) : State :=
  ds.foldl (fun s d => s.deliverThread launch team d.index d.reg d.tag at_ st) s

/-- The event of a signature's instruction. -/
def Sig.event (g : Sig) (dom slot thread e : Nat) (seed : Word) : EngEvent :=
  { EngEvent.zero with
    kind := sigKind g.op, placed := e, dom := dom, slot := slot, thread := thread, accd := g.accd,
    ops := g.ops, seed := seed }

/-- The cores that hold an operation's accumulator (R292). -/
def State.holders (s : State) (core : Nat) (v : EngEvent) : List Nat :=
  if v.acc.pair then s.teamCores core else [core]

/-- Place a completed operation on the cores that hold its accumulator (R320). -/
def State.placeSigned (s : State) (core : Nat) (v : EngEvent) (ds : List SignDst) : State :=
  (s.holders core v).foldl (fun s c =>
    let side := s.sideOf c
    let placed := v.placed + (if c = core then 0 else 14)
    let fetch := v.kind.isMma || v.kind == .mldacc
    -- the elements of MMASP are asked for once the bitmaps have come
    let row := if !fetch then 0
      else if v.kind = .mmasp then s.linesRow c (v.mapLines side)
      else s.linesRow c ((List.range v.chunks).flatMap (v.chunkLines side))
    let live := s.sideLive c
    s.placeEng c { v with
      placed := placed, arrives := placed + row, fetched := !fetch, maps := v.kind != .mmasp,
      dsts := if v.acc.pair then ds.filter fun d => live.contains d.index else ds }) s

/-- Steps of the generator that a completing MSTACC under SR takes (R312). -/
def stepSeed : Nat → Word → Word
  | 0, w => w
  | n + 1, w => stepSeed n (xorStep w)

def EngEvent.seedSteps (v : EngEvent) : Nat :=
  if v.kind = .mstacc ∧ (v.ctl 0).getLsbD 3 then v.acc.m * v.acc.n else 0

/-- The signature of a lane is made: its destination is pending until the status, and it goes on. -/
def State.acceptSign (s : State) (core slot lane at_ : Nat) (g : Sig) : State :=
  let s := match g.dst with
    | some r => s.pend core slot lane (.v (BitVec.ofNat 7 r) false) 1 g.tag false
    | none => s
  let s := s.modThread core slot lane fun t => { t with sig := none }
  s.answerLane core slot lane at_

/-- The signature is not made. -/
def State.refuseSign (s : State) (core slot lane cause : Nat) (addr : DWord) (at_ : Nat) : State :=
  (s.modThread core slot lane fun t => { t with sig := none }).lateTrap core slot lane cause addr at_

/-- The completing signature (R286): the operation completes at once as MALFORMED, traps, or issues. -/
def State.completeRound (s : State) (core slot lane : Nat) (t : Team) (k : BitVec 4) (c : Conv) (g : Sig)
    (at_ : Nat) : State :=
  let th := s.thread core slot lane
  let e := (th.await.map (·.e)).getD s.now
  let ds := c.dsts ++ (match g.dst with | some r => [⟨th.index, r, g.tag⟩] | none => [])
  let v := g.event (domainOf ((s.core core).group slot).width slot) slot th.index e th.seed
  let sides := (s.sidesOf t).filter fun x => (s.sideLive x).any c.signed.contains
  let detail := v.malformed (s.core core).accGranules (1 < sides.length)
  let closed := fun (s : State) =>
    (s.modCoreTeam core fun t => { t with convs := t.convs.put k.toNat c.close }).acceptSign core slot
      lane at_ g
  match g.trap with
  | some (cause, code) => s.refuseSign core slot lane cause (BitVec.ofNat 64 code) at_
  | none =>
    if detail ≠ 0 then
      (closed s).tellSigners t.launch t.index (e + 16) ds (status stMalformed detail)
    else if !v.paired then s.refuseSign core slot lane causeFormatPair v.formats at_
    else
      match s.rangeMiss core v, s.tagMiss core v with
      | some o, _ => s.refuseSign core slot lane causeScratchRange (BitVec.ofNat 64 o) at_
      | none, some o => s.refuseSign core slot lane causeSwzMismatch (BitVec.ofNat 64 o) at_
      | none, none =>
        let s := s.modThread core slot lane fun t => { t with seed := stepSeed v.seedSteps t.seed }
        (closed s).placeSigned core v ds

/-- A matrix signature reaches the side 0 core (R417). While an engine's queue is full, the completing
one waits in place (R296). (Log 41, DEDUCED.) -/
def State.matrixArrival (s : State) (core slot lane : Nat) (k : BitVec 4) : State :=
  match s.coreTeam core with
  | none => s
  | some t =>
    let th := s.thread core slot lane
    let c := t.conv k
    let at_ := max s.now ((th.await.map (·.e)).getD s.now + answerTime (s.sideOf core))
    match th.sig with
    | none => s
    | some g =>
      if c.refuses th.index .matrix then
        s.refuseSign core slot lane causeConvMisuse (BitVec.ofNat 64 (0xE0 + k.toNat)) at_
      else
        let d := c.sign th.index .matrix
        if !d.complete then
          let d := { d with dsts := d.dsts ++
            (match g.dst with | some r => [⟨th.index, r, g.tag⟩] | none => []) }
          (s.modCoreTeam core fun t => { t with convs := t.convs.put k.toNat d }).acceptSign core slot
            lane at_ g
        else if (s.holders core (g.event 0 slot th.index 0 0)).any fun x => 5 ≤ (s.core x).engQueued then
          (s.modThread core slot lane fun t => { t with wait := .engine }).schedule (s.now + 1)
            (.signatureArrival core slot lane k true)
        else s.completeRound core slot lane t k d g at_

/-- A signed matrix instruction: the lanes' signatures set out for the side 0 core (R285, R302). -/
def State.signOp (s : State) (sh : Shape) (f : Fields) (op : Nat) : State :=
  let (x, s) := s.begin sh f
  let ok := x.actives
  let s := s.finishWait x [] (ok.map fun l => (l, .answer)) false []
  let k : BitVec 4 := f.mod.setWidth 4
  let isMma := op == 1 || op == 2
  ok.foldl (fun s l =>
    let b := natWords 4 (x.value l f.b 4 .int)
    let cc := if isMma then natWords 4 (x.value l f.c 4 .int) else natWords 2 (x.value l f.c 2 .int)
    let a := if isMma then natWords 4 (x.value l f.a 4 .int) else []
    let g : Sig :=
      { op := op
        accd := if isMma then cc.headD 0 else BitVec.ofNat 32 (x.value l f.a 1 .int)
        ops := a ++ b ++ cc
        dst := match f.dst with | .v r _ => some r.toNat | _ => none
        tag := x.tag
        trap := x.levelFault l (readFields x.sh x.f) }
    let s := s.modThread x.core x.slot l fun t => { t with sig := some g }
    s.schedule (x.e + arriveTime (s.sideOf x.core)) (.signatureArrival x.core x.slot l k true)) s

/-- A round that an EXIT leaves fully signed: CSIGN completes, a matrix round is closed with CANCELLED
(R419). -/
def State.closeByExit (s : State) (t : Team) (k : BitVec 4) (c : Conv) : State :=
  let s := s.modTeam t.launch t.index fun t => { t with convs := t.convs.put k.toNat c.close }
  match c.use with
  | .csign => s.wakeSigners t k c.round
  | _ => s.tellSigners t.launch t.index s.now c.dsts (status stCancelled 1)

/-- EXIT removes a thread from a convergence register (R419). -/
def State.leaveConv (s : State) (launch team index : Nat) (k : Nat) : State :=
  match s.findTeam launch team with
  | none => s
  | some t =>
    let c := t.conv (BitVec.ofNat 4 k)
    let d := { c with set := c.set.filter (· != index), signed := c.signed.filter (· != index)
                      dsts := c.dsts.filter fun d => d.index != index }
    if d = c then s
    else if d.complete then s.closeByExit t (BitVec.ofNat 4 k) d
    else s.modTeam launch team fun t => { t with convs := t.convs.put k d }

/-! ## Chunks (R105, R298, R299, R307) -/

/-- The rounding mode of two bits. -/
def rmBits (n : Nat) : Rm := match n % 4 with | 0 => .rne | 1 => .rz | 2 => .ru | _ => .rd

/-- Element rows of a chunk on a side: A's, and B's. -/
def EngEvent.chunkRows (v : EngEvent) (side : Nat) : List (List (Option Value)) × List (List (Option Value)) :=
  let sa := elemValue .f32 (v.ctl 2).toNat
  let sb := elemValue .f32 (v.ctl 3).toNat
  (v.oprA.rowList.map fun r => v.oprA.rowChunk v.la sa v.kc r v.chunk,
   (v.oprB side).rowList.map fun r => (v.oprB side).rowChunk v.lb sb v.kc r v.chunk)

/-- Add a chunk to the accumulator (R105, R307). -/
def Core.addChunk (c : Core) (v : EngEvent) (as bs : List (List (Option Value))) : Core :=
  let a := v.acc
  let rm := rmBits ((v.ctl 1).toNat / 16)
  let sat := (v.ctl 1).getLsbD 6
  (as.mapIdx fun i x => (i, x)).foldl (fun c (i, x) =>
    (bs.mapIdx fun j y => (j, y)).foldl (fun c (j, y) =>
      c.accPut a i j (a.accumulate rm sat (c.accGet a i j) (exactSum (terms x y)))) c) c

/-- Cycles a chunk occupies the engine (R298, R299). -/
def EngEvent.chunkCost (v : EngEvent) (as bs : List (List (Option Value))) : Nat :=
  let rate := min (fmtRate v.descA.fmt) (fmtRate v.descB.fmt)
  let d := (v.acc.m * v.acc.ns * v.kc + rate - 1) / rate
  if v.kind = .mmasp then
    let t := (as.map fun x => (bs.map fun y => bothPresent x y).sum).sum
    max ((d + 3) / 4) ((t + rate - 1) / rate)
  else d

/-- The lines of a chunk as the other half of a PAIR operation finds them. -/
def State.otherHalf (s : State) (core : Nat) (v : EngEvent) : Option (EngEvent × Nat) :=
  if !v.acc.pair then none
  else
    let side := 1 - s.sideOf core
    let w := { v with lb := s.peekMaps core (v.oprB side) }
    let of := fun b => ((w.chunkLines side v.chunk).filter fun l => l.1 == b).map (·.2.2)
    some ({ w with la := s.peekLines core v.descA.sp (of false) v.la
                   lb := s.peekLines core v.descB.sp (of true) w.lb }, side)

/-- The chunk needs a line with an uncorrectable error (R300). -/
def EngEvent.chunkBad (v : EngEvent) (side : Nat) : Bool :=
  (v.chunkLines side v.chunk).any fun (b, _, a) => fetchedBad (if b then v.lb else v.la) a

/-- On either half of a PAIR operation (R300). -/
def State.chunkFails (s : State) (core : Nat) (v : EngEvent) : Bool :=
  v.chunkBad (s.sideOf core) ||
    match s.otherHalf core v with | some (w, side) => w.chunkBad side | none => false

/-- The lines that no chunk from the next on uses are pinned no more (R295). -/
def EngEvent.unpin (v : EngEvent) (side : Nat) : EngEvent :=
  let used := (List.range' v.chunk (v.chunks - v.chunk)).flatMap (v.chunkLines side)
  let keep := fun b (k : Nat) (l : FLine) =>
    if used.any fun u => u.1 == b && u.2.2 / 128 == k then l else { l with pline := none }
  { v with la := v.la.map fun (k, l) => (k, keep false k l), lb := v.lb.map fun (k, l) => (k, keep true k l) }

/-- An event ends: the last cycle it occupies is c. -/
def State.endEng (s : State) (core : Nat) (v : EngEvent) (c : Nat) (st : Word) : State :=
  let s := s.modCore core fun x => x.modEng v.id fun v => { v with status := st, next := c + 1, past := true }
  s.schedule c (.matrixEventComplete core)

/-- One chunk of MMA or MMASP, which starts in cycle at_. -/
def State.mmaChunk (s : State) (core : Nat) (v : EngEvent) (at_ : Nat) : State :=
  let side := s.sideOf core
  let s := s.modCore core fun x => x.modEng v.id fun v => v.unpin side
  if s.chunkFails core v then s.endEng core v (at_ - 1) (status stPoison v.chunk)
  else
    let (as, bs) := v.chunkRows side
    let last := at_ + v.chunkCost as bs - 1
    let s := s.modCore core fun x => x.addChunk v as bs
    if (v.chunk + 1) * v.kc = v.k then s.endEng core v last (status stOk 0)
    else
      (s.modCore core fun x => x.modEng v.id fun v => { v with chunk := v.chunk + 1, next := last + 1 }).schedule
        (last + 1) (.matrixChunk core)

/-! ## MZERO, MLDACC, MSTACC, MPACK (R308 to R315) -/

/-- Every element of a side's accumulator, ascending i then j (j from the side's first column). -/
def AccDesc.elems (a : AccDesc) : List (Nat × Nat) :=
  (List.range a.m).flatMap fun i => (List.range a.ns).map fun j => (i, j)

def Core.zeroAcc (c : Core) (a : AccDesc) : Core :=
  a.elems.foldl (fun c (i, j) => c.accPut a i j 0) c

/-- First row of MLDACC whose source has an uncorrectable error (R310). -/
def EngEvent.badRow (v : EngEvent) (side : Nat) : Option Nat :=
  (List.range v.acc.m).find? fun i =>
    ({ v.oprA with row0 := i, rows := 1 }.chunkAddrs v.la v.acc.ns (if v.acc.pair then side else 0)).any
      (fetchedBad v.la)

/-- The first such row of either half (R300, R310). -/
def State.rowFails (s : State) (core : Nat) (v : EngEvent) : Option Nat :=
  let mine := v.badRow (s.sideOf core)
  let other := match s.otherHalf core v with | some (w, side) => w.badRow side | none => none
  match mine, other with
  | some a, some b => some (min a b)
  | some a, none => some a
  | none, o => o

/-- Load rows below n (R310). -/
def Core.loadAcc (c : Core) (v : EngEvent) (side n : Nat) : Core :=
  (v.acc.elems.filter fun e => e.1 < n).foldl (fun c (i, j) =>
    c.accPut v.acc i j (v.descA.code v.la (v.descA.bitOff i (v.acc.col0 side + j)))) c

/-- Round one element for MSTACC (R312). seed is the state after the element's step. -/
def EngEvent.storeCode (v : EngEvent) (old : Nat) (seed : Word) : Nat :=
  let w := v.ctl 0
  if w.getLsbD 4 then old
  else
    let y := (v.acc.value old).mul (elemValue .f32 (v.ctl 1).toNat)
    roundTo v.descA.elem (w.getLsbD 2) (if w.getLsbD 3 then .sr seed else rmBits w.toNat) y

/-- The generator's state for each element of the whole accumulator, in the loop order of R312, with TRANS too.
(Log 81, DEDUCED.) -/
def EngEvent.seedAt (v : EngEvent) (i j : Nat) : Word := stepSeed (i * v.acc.n + j + 1) v.seed

/-- The bytes that MSTACC writes on a side. -/
def Core.storeBytes (c : Core) (v : EngEvent) (side : Nat) : Tab Byte :=
  v.acc.elems.foldl (fun m (i, j) =>
    let k := v.acc.col0 side + j
    let seed := if (v.ctl 0).getLsbD 3 then v.seedAt i k else 0
    v.descA.putCode m (v.descA.bitOff i k) (v.storeCode (c.accGet v.acc i j) seed)) []

/-- The greatest magnitude of a block: NaN where any is (R313). -/
def amaxOf (xs : List Value) : Value :=
  xs.foldl (fun m x =>
    match m, x with
    | .nan, _ => .nan
    | _, .nan => .nan
    | m, x => if (m.cmp x.abs).isLT then x.abs else m) (.fin false 0 1)

/-- emax of an MX format (R313). -/
def emaxOf (fmt : Nat) : Int :=
  if fmt = 19 then 8 else if fmt = 20 then 15 else if fmt = 21 then 4 else if fmt = 24 then 0 else 2

/-- The scale code of a block (R313). -/
def scaleCode (fmt : Nat) (amax : Value) : Nat :=
  let atLeast := fun (k : Int) => let m := scaleFrac false 1 1 k; if (amax.cmp m).isLT then m else amax
  if fmt = 26 then roundTo .f32 false .rne ((atLeast (-126)).div (.ofInt 448))
  else if fmt = 28 then roundTo .f16 false .ru ((atLeast (-24)).div (.ofInt 127))
  else
    match amax with
    | .nan => 255
    | .inf _ => 254
    | .fin _ n d =>
      if n = 0 then 127 else (clampInt 0 254 (exponent n d - emaxOf fmt + 127)).toNat

/-- An element's code under its block's scale (R313). -/
def packCode (fmt code : Nat) (rm : Rm) (x : Value) : Nat :=
  let s := entryValue fmt code
  if fmt = 24 then roundTo .i8 false rm (x.div (s.scale (-6)))
  else if fmt = 28 then roundTo .i8 false rm (x.div s)
  else roundTo (codeElem fmt) true rm (x.div s)

/-- One block of a row: its elements and its scale entry (R313, R314). -/
def EngEvent.packBlock (v : EngEvent) (m : Tab Byte) (i k0 : Nat) (xs : List Value) (sa : Nat) :
    Tab Byte :=
  let d := v.descA
  let code := scaleCode d.fmt (amaxOf xs)
  let rm := rmBits (v.ctl 0).toNat
  let m := (xs.mapIdx fun n x => (n, x)).foldl (fun m (n, x) =>
    d.putCode m (d.bitOff i (k0 + n)) (packCode d.fmt code rm x)) m
  ((leBytes (entryBytes d.fmt) code).mapIdx fun n b => (n, b)).foldl (fun m (n, b) => m.put (sa + n) b) m

/-- The bytes that MPACK writes on a side. -/
def Core.packBytes (c : Core) (v : EngEvent) (side : Nat) : Tab Byte :=
  let a := v.acc
  let scale := elemValue .f32 (v.ctl 1).toNat
  let len := if v.descA.fmt = 26 then a.ns else 32
  (List.range a.m).foldl (fun m i =>
    let xs := (List.range a.ns).map fun j => (a.value (c.accGet a i j)).mul scale
    ((v.packScales side i).mapIdx fun n sa => (n, sa)).foldl (fun m (n, sa) =>
      v.packBlock m i (a.col0 side + n * len) ((xs.drop (n * len)).take len) sa) m) []

/-- What writing the bytes of MSTACC or MPACK comes to: all are written, the rest waits some cycles, or a write
fails its check (R315). -/
inductive StoreOut where
  | ok (s : State)
  | wait (s : State) (n : Nat) (rest : List (Nat × List Byte))
  | fault (s : State) (cause va : Nat)

/-- What keeps back a write of a unit, as it keeps back a store of a thread: a handover, an earlier access of the
core to the line that is held, or a full staging share (R178, R333, R386); the address that needs the handover. -/
def State.unitWait (s : State) (core pa : Nat) : Option (Nat × Option Nat) :=
  if s.needsHandover pa then some (512, some pa)
  else if (s.heldLine core pa (s.order + 1)).isSome || s.stagingFull core pa then some (1, none)
  else none

/-- Store a run of bytes as the completing thread's store; a write to a queue descriptor is dropped
as R111 says. -/
def State.unitStore (s : State) (core index pa : Nat) (bs : List Byte) : State :=
  let s := s.clearWay pa
  let p := s.routeRead pa
  if s.dropsStore p bs then s else (s.writeStaged core index p bs).l2Touch p false

/-- Write the bytes of MSTACC or MPACK (R315); the first check that fails ends the launch. -/
def State.storeRuns (s : State) (core index : Nat) (sp : Bool) : List (Nat × List Byte) → StoreOut
  | [] => .ok s
  | (a, bs) :: rest =>
    if sp then (s.teamWrite core a bs 0).storeRuns core index sp rest
    else
      match s.resolve (s.core core).sideD.launch a Need.write with
      | .error c => .fault s c a
      | .ok (.mem pa, s) =>
        match s.unitWait core pa with
        | some (n, page) =>
          .wait (match page with | some p => s.askHandover p | none => s) n ((a, bs) :: rest)
        | none => (s.unitStore core index pa bs).storeRuns core index sp rest
      | .ok (.peer pod off, s) =>
        (s.wcStore core index (Target.peer pod off).line (off % 128) bs).storeRuns core index sp rest

/-- Bytes moved by a transfer, in cycles of 256 B (R321). -/
def transferCycles (n : Nat) : Nat := max 1 ((n + 255) / 256)

/-- MLDACC on a side, started in cycle at_. -/
def State.mldaccRun (s : State) (core : Nat) (v : EngEvent) (at_ : Nat) : State :=
  let side := s.sideOf core
  let n := (s.rowFails core v).getD v.acc.m
  let st := match s.rowFails core v with | some i => status stPoison i | none => status stOk 0
  let s := s.modCore core fun x => x.loadAcc v side n
  s.endEng core v (at_ + transferCycles (v.acc.m * v.acc.ns * v.acc.size) - 1) st

/-- MSTACC or MPACK on a side, started in cycle at_: its transfer ends no earlier than its last write; a write that
fails its check ends it, and it reports nothing (R315, R321). -/
def State.mstaccRun (s : State) (core : Nat) (v : EngEvent) (at_ : Nat) : State :=
  let side := s.sideOf core
  let m := if v.kind = .mpack then (s.core core).packBytes v side else (s.core core).storeBytes v side
  let row := s.tileRow core v.descA.sp (v.addrsA side [])
  let planned := if v.todo.isSome then v.next else at_ + transferCycles m.length + row - 1
  match s.storeRuns core v.thread v.descA.sp (v.todo.getD (byteRuns m)) with
  | .ok s => s.endEng core v (if v.todo.isSome then max planned s.now else planned) (status stOk 0)
  | .wait s n rest =>
    (s.modCore core fun x => x.modEng v.id fun v => { v with todo := some rest, next := planned }).scheduleOnce
      (s.now + n) (.matrixChunk core)
  | .fault s c a => (s.modCore core fun x => x.dropEng v.id).engineFault core c a

/-! ## MROW, MEXP, MREAD, MWRITE (R316 to R319) -/

/-- Patterns of a row on the issuing side. -/
def Core.accRow (c : Core) (a : AccDesc) (i : Nat) : List Nat := (List.range a.ns).map (c.accGet a i)

/-- x is less than y, with −0 less than +0 (R267). -/
def numLess (x y : Value) : Bool :=
  if x.isZero && y.isZero then x.isNeg && !y.isNeg else (x.cmp y).isLT

/-- The greatest element, NaN ignored unless every one is (R318). -/
def rowMax (row : List Nat) : Nat :=
  let xs := (row.map fun v => (v, elemValue .f32 v)).filter fun p => p.2 != .nan
  match xs with
  | [] => 0x7FC00000
  | x :: t => (t.foldl (fun m y => if numLess m.2 y.2 then y else m) x).1

/-- The rounded exact sum (R318). -/
def rowSum (row : List Nat) : Nat := roundTo .f32 false .rne (exactSum (row.map (elemValue .f32)))

/-- One element of MEXP (R319). -/
def mexpElem (mulForm : Bool) (m : Word) (v : Nat) : Nat :=
  let x := elemValue .f32 v
  let y := elemValue .f32 m.toNat
  if mulForm then
    let neg := m ^^^ 0x80000000
    roundTo .f32 false .rne (x.mul (elemValue .f32 (fexp2 y.neg neg)))
  else
    let d := roundTo .f32 false .rne (x.add false y.neg)
    fexp2 (elemValue .f32 d) (BitVec.ofNat 32 d)

/-- MEXP of one lane; bit 32 of its data marks .mul. -/
def Core.mexpRow (c : Core) (o : LaneOp) : Core :=
  let a := AccDesc.ofWord o.accd
  let i := idxRow o.idx
  (List.range a.ns).foldl (fun c j =>
    c.accPut a i j (mexpElem (o.data.getLsbD 32) (o.data.setWidth 32) (c.accGet a i j))) c

/-- A row event, started in cycle at_. -/
def State.rowRun (s : State) (core : Nat) (v : EngEvent) (at_ : Nat) : State :=
  let last := at_ + max 1 (v.lanes.map fun o => ((AccDesc.ofWord o.accd).ns + 31) / 32).sum - 1
  let red := fun (s : State) (o : LaneOp) =>
    let row := (s.core core).accRow (AccDesc.ofWord o.accd) (idxRow o.idx)
    let w := BitVec.ofNat 32 (if v.kind = .mrowMax then rowMax row else rowSum row)
    s.deliver core v.slot o.lane v.tag (last + 16) [w]
  let s := if v.kind = .mexp then s.modCore core fun c => v.lanes.foldl Core.mexpRow c
    else v.lanes.foldl red s
  s.endEng core v last (status stOk 0)

/-- MATRIX_CHUNK (R298, R321): the head event's next chunk, or the whole of an event without chunks. -/
def State.matrixChunk (s : State) (core : Nat) : State :=
  let c := s.core core
  match c.engHead with
  | none => s
  | some v =>
    let at_ := max (max (v.placed + 1) v.next) (max c.engineFree v.arrives)
    let held := (c.engBefore v.id).any fun w => w.kind == .mwrite && w.touches v (s.sideOf core)
    let ready := max at_ (v.placed + s.engineLag core)
    if !v.hasLines (s.sideOf core) || held || v.past then s
    else if v.todo.isNone ∧ s.now < ready then s.scheduleOnce ready (.matrixChunk core)
    else
      match v.kind with
      | .mma | .mmasp => s.mmaChunk core v at_
      | .mldacc => s.mldaccRun core v at_
      | .mstacc | .mpack => s.mstaccRun core v at_
      | .mzero =>
        (s.modCore core fun x => x.zeroAcc v.acc).endEng core v
          (at_ + (v.acc.m * v.acc.ns * v.acc.size + 2047) / 2048 - 1) (status stOk 0)
      | _ => s.rowRun core v at_

/-- Element accesses after an event that keeps them back are performed after its end (R320). -/
def Core.delayAccess (c : Core) (v : EngEvent) (side next : Nat) (w : EngEvent) : EngEvent :=
  if !w.kind.occupies && w.touches v side && (v.kind.changes || w.kind == .mwrite) &&
      (c.engBefore w.id).any (fun u => u.id == v.id)
  then { w with next := max w.next next } else w

def Core.delayAccesses (c : Core) (v : EngEvent) (side next : Nat) : Core :=
  { c with engine := c.engine.map (c.delayAccess v side next) }

/-- The event has a status for its signers. -/
def EngEvent.reports (v : EngEvent) : Bool := v.kind.isSigned && (v.kind.answers || !v.dsts.isEmpty)

/-- The engine after an event that ended in cycle c. -/
def Core.endHead (c : Core) (v : EngEvent) (side : Nat) : Core :=
  let x := { c.delayAccesses v side v.next with engineFree := v.next }
  if v.reports then x.modEng v.id fun v => { v with ended := some (v.next - 1), la := [], lb := [] }
  else x.dropEng v.id

/-- MATRIX_EVENT_COMPLETE (R321): the event is over, and what waits for it may go on. -/
def State.engComplete (s : State) (core : Nat) : State :=
  match (s.core core).engHead with
  | none => s
  | some v =>
    if !v.past then s
    else
      let side := s.sideOf core
      let s := s.modCore core fun x => x.endHead v side
      let s := if v.reports then s.schedule (v.next + 15) (.matrixStatusWrite core v.id) else s
      (s.schedule v.next (.mreadPerform core)).schedule v.next (.matrixChunk core)

/-- MATRIX_STATUS_WRITE (R298). -/
def State.engStatus (s : State) (core id : Nat) : State :=
  match (s.core core).engine.find? fun v => v.id == id with
  | none => s
  | some v =>
    let d := (s.core core).sideD
    (s.modCore core fun x => x.dropEng id).tellSigners d.launch d.team s.now v.dsts v.status

/-- An element access can be performed: no event before it conflicts (R320). -/
def Core.accessFree (c : Core) (v : EngEvent) (side : Nat) : Bool :=
  (c.engBefore v.id).all fun w =>
    w.ended.isSome || !(w.touches v side) || (v.kind == .mread && !w.kind.changes)

/-- Perform an MREAD or MWRITE (R317). -/
def State.accessOne (s : State) (core : Nat) (v : EngEvent) : State :=
  let side := s.sideOf core
  let at_ := max v.placed v.next
  match v.lanes with
  | o :: _ =>
    let i := idxRow o.idx
    let j := idxCol o.idx - v.acc.col0 side
    if v.kind = .mwrite then
      let s := s.modCore core fun x =>
        ((x.delayAccesses v side at_).dropEng v.id).accPut v.acc i j o.data.toNat
      s.scheduleOnce s.now (.matrixChunk core)
    else
      (s.modCore core fun x => (x.delayAccesses v side at_).dropEng v.id).deliver core v.slot o.lane
        v.tag (at_ + 19) (natWords (v.acc.size / 4) ((s.core core).accGet v.acc i j))
  | [] => s.modCore core fun x => x.dropEng v.id

/-- MREAD_PERFORM (R320): element accesses in the engine's order, each once nothing before it
conflicts. -/
def State.mreadPerform (s : State) (core : Nat) : State :=
  let ids := ((s.core core).engine.filter fun v => !v.kind.occupies).map (·.id)
  ids.foldl (fun s id =>
    match (s.core core).engine.find? fun v => v.id == id with
    | none => s
    | some v =>
      if v.placed + s.engineLag core ≤ s.now ∧ (s.core core).accessFree v (s.sideOf core) then
        s.accessOne core v
      else s) s

/-- The checks of a lane's own operands (R316): b64 is none for row instructions. -/
def State.laneTrap (s : State) (x : Ctx) (l : Nat) (b64 : Option Bool) : Option LaneTrap :=
  let w := BitVec.ofNat 32 (x.value l x.f.a 1 .int)
  let i := BitVec.ofNat 32 (x.value l x.f.b 1 .int)
  let a := AccDesc.ofWord w
  let side := s.sideOf x.core
  let zero := i.toNat / 2 ^ 24 ≠ 0 ∨ i.toNat / 2 ^ 9 % 128 ≠ 0
  let col := b64.isSome && !(decide (a.col0 side ≤ idxCol i) && decide (idxCol i < a.col0 side + a.ns))
  let pair := a.pair && decide ((s.teamCores x.core).length < 2)
  if !a.ok (s.core x.core).accGranules || pair || decide zero || decide (a.m ≤ idxRow i) || col then
    some (.at_ l causeScratchRange (w ++ i))
  else
    let good := match b64 with | some b => (a.afmt == 1) == b | none => a.afmt == 0
    if good then none else some (.at_ l causeFormatPair (BitVec.ofNat 64 (a.afmt * 1024)))

/-- A per-lane instruction (R302, R316, R320): an event for its lanes, or for element accesses one for
each lane. (Log 47, DEDUCED.) -/
def State.laneEngOp (s : State) (sh : Shape) (f : Fields) (kind : EngKind) (b64 : Option Bool)
    (data : Ctx → Nat → DWord) (regs : Nat) : State :=
  let (x, s) := s.begin sh f
  let lv := x.levelTraps
  let ts := lv ++ (x.without lv).filterMap fun l => s.laneTrap x l b64
  let ok := x.without ts
  let s := s.finish x ts []
  let s := if regs = 0 then s else ok.foldl (fun s l => s.pend x.core x.slot l f.dst regs x.tag false) s
  let dom := domainOf (x.raw.group x.slot).width x.slot
  let lane := fun l => (⟨l, BitVec.ofNat 32 (x.value l f.a 1 .int),
    BitVec.ofNat 32 (x.value l f.b 1 .int), data x l⟩ : LaneOp)
  let mk := fun (ls : List Nat) =>
    { EngEvent.zero with
      kind := kind, placed := x.e + 1, arrives := x.e + 1, dom := dom, slot := x.slot,
      thread := (x.thread (ls.headD 0)).index
      accd := BitVec.ofNat 32 (x.value (ls.headD 0) f.a 1 .int), lanes := ls.map lane, tag := x.tag }
  if ok.isEmpty then s
  else if kind.occupies then s.placeEng x.core (mk ok)
  else ok.foldl (fun s l => s.placeEng x.core (mk [l])) s

/-! ## Meanings -/

/-- MZERO (R308). -/
def execMzero (f : Fields) (s : State) : Res := .next (s.signOp (Instr.mzero f).shape f 0)
/-- MMA (R307). -/
def execMma (f : Fields) (s : State) : Res := .next (s.signOp (Instr.mma f).shape f 1)
/-- MMASP (R307, R299). -/
def execMmasp (f : Fields) (s : State) : Res := .next (s.signOp (Instr.mmasp f).shape f 2)
/-- MLDACC (R310). -/
def execMldacc (f : Fields) (s : State) : Res := .next (s.signOp (Instr.mldacc f).shape f 3)
/-- MSTACC (R312). -/
def execMstacc (f : Fields) (s : State) : Res := .next (s.signOp (Instr.mstacc f).shape f 4)
/-- MPACK (R313, R314). -/
def execMpack (f : Fields) (s : State) : Res := .next (s.signOp (Instr.mpack f).shape f 5)

/-- MREAD (R317). -/
def execMread (f : Fields) (s : State) : Res :=
  .next (s.laneEngOp (Instr.mread f).shape f .mread (some (f.mod.getLsbD 0)) (fun _ _ => 0)
    (if f.mod.getLsbD 0 then 2 else 1))

/-- MWRITE (R317). -/
def execMwrite (f : Fields) (s : State) : Res :=
  .next (s.laneEngOp (Instr.mwrite f).shape f .mwrite (some (f.mod.getLsbD 0))
    (fun x l => BitVec.ofNat 64 (x.value l f.dst (if f.mod.getLsbD 0 then 2 else 1) .int)) 0)

/-- MROW.max (R318). -/
def execMrowMax (f : Fields) (s : State) : Res :=
  .next (s.laneEngOp (Instr.mrowMax f).shape f .mrowMax none (fun _ _ => 0) 1)

/-- MROW.sum (R318). -/
def execMrowSum (f : Fields) (s : State) : Res :=
  .next (s.laneEngOp (Instr.mrowSum f).shape f .mrowSum none (fun _ _ => 0) 1)

/-- MEXP (R319). -/
def execMexp (f : Fields) (s : State) : Res :=
  .next (s.laneEngOp (Instr.mexp f).shape f .mexp none
    (fun x l => BitVec.ofNat 64 (x.value l f.c 1 (.flt .f32) + (if f.mod.getLsbD 0 then 2 ^ 32 else 0))) 0)

/-- SIGNATURE_ARRIVAL (R417). -/
def execSignatureArrival (s : State) : Res :=
  match s.event with
  | .signatureArrival core slot lane k matrix =>
    .next (if matrix then s.matrixArrival core slot lane k else s.csignArrival core slot lane k)
  | _ => .next s

/-- TILE_FETCH (R295). -/
def execTileFetch (s : State) : Res :=
  match s.event with
  | .tileFetch core => .next (s.tileFetch core)
  | _ => .next s

/-- MATRIX_CHUNK (R298). -/
def execMatrixChunk (s : State) : Res :=
  match s.event with
  | .matrixChunk core => .next (s.matrixChunk core)
  | _ => .next s

/-- MATRIX_EVENT_COMPLETE (R321). -/
def execMatrixEventComplete (s : State) : Res :=
  match s.event with
  | .matrixEventComplete core => .next (s.engComplete core)
  | _ => .next s

/-- MATRIX_STATUS_WRITE (R298). -/
def execMatrixStatusWrite (s : State) : Res :=
  match s.event with
  | .matrixStatusWrite core id => .next (s.engStatus core id)
  | _ => .next s

/-- MREAD_PERFORM (R320). -/
def execMreadPerform (s : State) : Res :=
  match s.event with
  | .mreadPerform core => .next (s.mreadPerform core)
  | _ => .next s

end Sys2Proof.Machine
end

