-- ==== Sys2Proof/Machine/Couriers.lean ====
section
/-! DEFINITION. Couriers (R342 to R355): cards and footprints, the window and its edges, the transfers and
their tokens, and XPTR. -/

namespace Sys2Proof.Machine

/-! ## The job card (R342) -/

structure Card where
  kind : Nat
  ctl : Nat
  esz : Nat
  swz : Nat
  d : List Nat
  src : Nat
  dst : Nat
  s : List Int
  t : List Int
  fpa : Nat
  tag : Nat
  deriving DecidableEq, Repr

/-- A signed field of four bytes. -/
def lineInt (bs : List Byte) (off : Nat) : Int := toInt 32 (lineNat bs off 4)

def Card.ofBytes (bs : List Byte) : Card :=
  { kind := lineNat bs 0 1, ctl := lineNat bs 1 1, esz := lineNat bs 2 1, swz := lineNat bs 3 1
    d := [0, 1, 2, 3].map fun k => lineNat bs (4 + 2 * k) 2
    src := lineNat bs 0x0C 8, dst := lineNat bs 0x14 8
    s := [0, 1, 2].map fun k => lineInt bs (0x1C + 4 * k)
    t := [0, 1, 2].map fun k => lineInt bs (0x28 + 4 * k)
    fpa := lineNat bs 0x34 8, tag := lineNat bs 0x3C 4 }

def Card.spDst (c : Card) : Bool := c.ctl.testBit 6
def Card.spSrc (c : Card) : Bool := c.ctl.testBit 5
def Card.chan (c : Card) : Nat := c.ctl / 8 % 4
def Card.scope (c : Card) : Nat := c.ctl % 8
/-- Element size E. -/
def Card.e (c : Card) : Nat := 2 ^ (c.esz % 8)
def Card.dim (c : Card) (k : Nat) : Nat := c.d.getD k 1
def Card.sStr (c : Card) (k : Nat) : Int := c.s.getD (k - 1) 0
def Card.tStr (c : Card) (k : Nat) : Int := c.t.getD (k - 1) 0
/-- Elements of a copy or a fill. -/
def Card.count (c : Card) : Nat := c.dim 0 * c.dim 1 * c.dim 2 * c.dim 3

/-- First logical block, block count, head and part of a gather (R342). -/
def Card.lb (c : Card) : Nat := c.dim 0 + 65536 * c.dim 1
def Card.nb (c : Card) : Nat := c.dim 2
def Card.head (c : Card) : Nat := c.dim 3 % 256
def Card.part (c : Card) : Nat := c.dim 3 / 256

/-- The element's index in each dimension, i0 fastest (R344). -/
def Card.index (c : Card) (n k : Nat) : Nat :=
  match k with
  | 0 => n % c.dim 0
  | 1 => n / c.dim 0 % c.dim 1
  | 2 => n / (c.dim 0 * c.dim 1) % c.dim 2
  | _ => n / (c.dim 0 * c.dim 1 * c.dim 2)

/-- Source address of an element, before it wraps (R344). -/
def Card.srcAt (c : Card) (n : Nat) : Int :=
  c.src + c.e * c.index n 0 + c.sStr 1 * c.index n 1 + c.sStr 2 * c.index n 2 + c.sStr 3 * c.index n 3

/-- Destination offset y of an element (R344). -/
def Card.yAt (c : Card) (n : Nat) : Int :=
  c.e * c.index n 0 + c.tStr 1 * c.index n 1 + c.tStr 2 * c.index n 2 + c.tStr 3 * c.index n 3

/-- Where an element at offset y is written, before it wraps (R344). -/
def Card.dstAt (c : Card) (n : Nat) : Int := c.dst + swizzle (c.yAt n).toNat (c.swz % 4)

/-- An address of a space: 64 bits. -/
def wrapAddr (z : Int) : Nat := (z % 2 ^ 64).toNat

/-! ## Spans and checks (R345) -/

/-- Lowest and highest source byte. -/
def Card.srcSpan (c : Card) : Int × Int :=
  let ext := fun (k : Nat) => c.sStr k * ((c.dim k : Int) - 1)
  let lo := [1, 2, 3].foldl (fun (a : Int) k => a + min 0 (ext k)) (c.src : Int)
  let hi := [1, 2, 3].foldl (fun (a : Int) k => a + max 0 (ext k)) ((c.src : Int) + c.e * c.dim 0 - 1)
  (lo, hi)

/-- Lowest and highest destination byte after the swizzle; the offsets rise in element order, so only
the elements of the first and the last 128 bytes of offsets can hold them. -/
def Card.dstSpan (c : Card) : Int × Int :=
  let n := c.count
  let w := min n 128
  let ends := (List.range w).map c.dstAt ++ (List.range' (n - w) w).map c.dstAt
  (ends.foldl min (c.dstAt 0), (ends.foldl max (c.dstAt 0)) + c.e - 1)

/-- The span of the dimensions below k (R345). -/
def Card.spanBelow (c : Card) : Nat → Int
  | 0 => c.e
  | 1 => c.dim 0 * c.e
  | k + 1 => c.spanBelow k + c.tStr k * ((c.dim k : Int) - 1)

/-- An offset is charged where the condition holds. -/
def charge (off : Nat) (b : Bool) : List Nat := if b then [off] else []

def Card.kindCode : JobKind → Nat
  | .copy => 0
  | .fill => 1
  | _ => 2

/-- Offsets charged by the conditions that every card has (R345). (Log 49, DEDUCED.) -/
def Card.common (c : Card) (k : JobKind) : List Nat :=
  charge 0x00 (c.kind != Card.kindCode k) ++ charge 0x01 (c.ctl.testBit 7) ++
  charge 0x03 (4 ≤ c.swz || (c.swz != 0 && !c.spDst)) ++
  charge 0x0C (k == .copy && c.spSrc && c.src / 2 ^ 20 != 0) ++
  charge 0x14 (c.spDst && c.dst / 2 ^ 20 != 0)

/-- Offsets charged to a copy or a fill; z is the team's scratchpad. -/
def Card.strided (c : Card) (k : JobKind) (z : Nat) : List Nat :=
  let e := c.e
  let odd := fun (x : Int) => x % e != 0
  let copy := k == .copy
  let src := c.srcSpan
  let dst := c.dstSpan
  charge 0x02 (4 < c.esz) ++
  [0, 1, 2, 3].flatMap (fun i => charge (4 + 2 * i) (c.dim i == 0)) ++
  charge 0x04 (decide (2 ^ 31 < c.count * e)) ++
  charge 0x0C (copy && odd c.src) ++ charge 0x14 (odd c.dst) ++
  [1, 2, 3].flatMap (fun i => charge (0x18 + 4 * i) (odd (c.sStr i))) ++
  [1, 2, 3].flatMap (fun i => charge (0x24 + 4 * i)
    (odd (c.tStr i) || (decide (1 < c.dim i) && decide (c.tStr i < c.spanBelow i)))) ++
  (if c.count = 0 then [] else
    charge 0x0C (copy && c.spSrc && (decide (src.1 < 0) || decide ((z : Int) ≤ src.2))) ++
    charge 0x14 (c.spDst && decide ((z : Int) ≤ dst.2)) ++
    charge 0x0C (copy && c.spSrc == c.spDst && decide (src.1 ≤ dst.2) && decide (dst.1 ≤ src.2)))

/-- Offsets charged to a gather at acceptance. -/
def Card.gatherBad (c : Card) : List Nat :=
  charge 0x02 (c.esz != 0) ++ charge 0x08 (c.nb == 0) ++
  [2, 3].flatMap (fun i => charge (0x18 + 4 * i) (c.sStr i != 0)) ++
  [2, 3].flatMap (fun i => charge (0x24 + 4 * i) (c.tStr i != 0)) ++ charge 0x34 (c.fpa == 0)

/-! ## Footprints (R343, R344) -/

/-- A region word; nothing where it is absent. -/
def regionOf (w : Nat) : Option Region :=
  let len := (w % 512) * (128 * 2 ^ (w / 2 ^ 10 % 16))
  let sp := w.testBit 9
  let b := w / 2 ^ 14 % 2 ^ 50 * 128
  let b := if sp then b % 2 ^ 20 else if b.testBit 56 then b + 127 * 2 ^ 57 else b
  if len = 0 then none else some ⟨sp, b, len⟩

/-- A region word that is malformed (R343). -/
def regionBad (w : Nat) : Bool :=
  match regionOf w with
  | none => w.testBit 9 && w / 2 ^ 27 != 0
  | some r => if r.sp then w / 2 ^ 27 != 0 || decide (2 ^ 20 < r.base + r.len)
    else decide (2 ^ 57 < r.base % 2 ^ 57 + r.len)

/-- The four words of a footprint block. -/
def footprintWords (bs : List Byte) : List Nat := [0, 8, 16, 24].map fun o => lineNat bs o 8

/-- Lines from one byte to another as a region. -/
def lineRegion (sp : Bool) (lo hi : Int) : Region :=
  ⟨sp, wrapAddr (lo / 128 * 128), (hi / 128 - lo / 128 + 1).toNat * 128⟩

/-- Default footprint of a copy or a fill (R344). -/
def Card.defaultPrint (c : Card) (k : JobKind) : List Region × List Region :=
  (if k = .copy then [lineRegion c.spSrc c.srcSpan.1 c.srcSpan.2] else [],
   [lineRegion c.spDst c.dstSpan.1 c.dstSpan.2])

def Region.has (r : Region) (sp : Bool) (a n : Nat) : Bool :=
  r.sp == sp && decide (r.base ≤ a) && decide (a + n ≤ r.base + r.len)

/-- Every line of a range lies in some region: regions are whole lines. -/
def covered (rs : List Region) (sp : Bool) (a n : Nat) : Bool :=
  (List.range' (a / 128) ((a + n - 1) / 128 + 1 - a / 128)).all fun l =>
    rs.any fun r => r.has sp (l * 128) 128

/-- Every access of a copy or a fill falls in its footprint (R345). -/
def Card.inPrint (c : Card) (k : JobKind) (rd wr : List Region) : Bool :=
  (List.range c.count).all fun n =>
    (k == .fill || covered rd c.spSrc (wrapAddr (c.srcAt n)) c.e) &&
      covered wr c.spDst (wrapAddr (c.dstAt n)) c.e

/-! ## Edges (R348) -/

/-- Two regions share a byte of one space. -/
def Region.meets (a b : Region) : Bool :=
  a.sp == b.sp && decide (a.base < b.base + b.len) && decide (b.base < a.base + a.len)

def anyMeets (as bs : List Region) : Bool := as.any fun a => bs.any a.meets

/-- J, accepted later, depends on I (R348). -/
def Job.dependsOn (j i : Job) : Bool :=
  anyMeets j.reads i.writes || anyMeets j.writes i.reads || anyMeets j.writes i.writes

/-- The oldest incomplete job of a channel, with those accepted before it. -/
def Core.oldestOf (c : Core) (chan : Nat) : Option (List Job × Job) :=
  match c.jobs.findIdx? fun j => j.chan == chan with
  | some i => (c.jobs[i]?).map fun j => (c.jobs.take i, j)
  | none => none

/-- A job by its number, and a change to it. -/
def Core.modJob (c : Core) (id : Nat) (f : Job → Job) : Core :=
  { c with jobs := c.jobs.map fun j => if j.id = id then f j else j }

def State.modJob (s : State) (core id : Nat) (f : Job → Job) : State :=
  s.modCore core fun c => c.modJob id f

/-- Something has left the window: each channel's oldest job is looked at. -/
def State.pokeJobs (s : State) (core : Nat) : State :=
  [0, 1, 2, 3].foldl (fun s ch => s.scheduleOnce s.now (.courierJobStart core ch)) s

/-! ## What a courier reads and writes -/

/-- What reading comes to. -/
inductive CourierRead where
  | ok (bytes : List Byte) (s : State)
  | poison
  | fault (cause va : Nat)
  /-- It waits for some cycles: a page is being handed over to this package (R178), or an earlier access of the
  core to the line is held (R333). -/
  | wait (n : Nat) (s : State)

/-- Read bytes that lie within one line, of the scratchpad or of memory (R349); a page that another package owns
is asked for first. -/
def State.courierRead (s : State) (core : Nat) (sp : Bool) (a n : Nat) : CourierRead :=
  if sp then (if s.teamPoisoned core a n then .poison else .ok (s.teamRead core a n) s)
  else
    match s.resolve (s.core core).sideD.launch a Need.read with
    | .error c => .fault c a
    | .ok (.mem pa, s) =>
      if s.needsHandover pa then .wait 512 (s.askHandover pa)
      else if s.held.any fun h => h.core == core && h.pa / 128 == pa / 128 && h.op.writes then .wait 1 s
      else
        let p := s.routeRead pa
        if s.poisoned p n then .poison else .ok (s.view (.core core) p n) (s.l2Touch p false)
    | .ok (.peer pod off, s) =>
      let (bs, s) := s.outside n
      .ok ((s.core core).overWc (Target.peer pod off).line (off % 128) bs) s

/-- Read pieces in order. -/
def State.courierReadAll (s : State) (core : Nat) (sp : Bool) : List (Nat × Nat) → CourierRead
  | [] => .ok [] s
  | (a, n) :: t =>
    match s.courierRead core sp a n with
    | .ok bs s =>
      match s.courierReadAll core sp t with
      | .ok cs s => .ok (bs ++ cs) s
      | r => r
    | r => r

/-- Pieces of a range that stay within a line. -/
def linePieces (a n : Nat) : List (Nat × Nat) :=
  (List.range ((a + n + 127) / 128 - a / 128)).map fun i =>
    let lo := max a ((a / 128 + i) * 128)
    (lo, min (a + n) ((a / 128 + i + 1) * 128) - lo)

/-- Cycles of the path to a byte (R350). -/
def State.courierRow (s : State) (core : Nat) (sp : Bool) (a : Nat) : Nat :=
  if sp then scratchRow core (s.scratchPlace core a).1
  else
    match s.resolve (s.core core).sideD.launch a Need.read with
    | .ok (.mem pa, _) => s.accessRow core pa
    | .ok (.peer pod off, _) => s.peerRow core pod off
    | .error _ => 1

/-- What writing comes to: all is written, it waits some cycles, for the handover of a page where an address is
named, or a check fails. -/
inductive CourierWrite where
  | ok (s : State)
  | wait (n : Nat) (page : Option Nat)
  | fault (cause va : Nat)

/-- Write runs of a job, each within a line; the first check that fails gives its cause (R349, R374). What keeps
back a store of the core keeps it back too (R174, R178, R386). -/
def State.courierWrite (s : State) (core : Nat) (j : Job) (sp : Bool) (swz : Nat) :
    List (Nat × List Byte) → CourierWrite
  | [] => .ok s
  | (a, bs) :: t =>
    if sp then (s.teamWrite core a bs (BitVec.ofNat 4 (8 + swz))).courierWrite core j sp swz t
    else
      match s.resolve (s.core core).sideD.launch a Need.write with
      | .error c => .fault c a
      | .ok (.mem pa, s) =>
        match s.unitWait core pa with
        | some (n, page) => .wait n page
        | none =>
          let s := s.clearWay pa
          let p := s.routeRead pa
          if s.dropsStore p bs then s.courierWrite core j sp swz t
          else ((s.writeStagedBy core j.thread j.id p bs).l2Touch p false).courierWrite core j sp swz t
      | .ok (.peer pod off, s) =>
        -- straight to the peer, past the write-combining buffer (R427)
        { s with sends := s.sends ++ [((Target.peer pod off).line * 128 + off % 128, bs)] }.courierWrite
          core j sp swz t

/-! ## Token buckets (R354, R355) -/

/-- Take tokens of the core's partition on its die. -/
def State.takeTokens (s : State) (core n : Nat) : Option State :=
  let p := s.corePart core
  let b := (s.part p).cbkt.get Bucket.zero (dieOf core)
  if b.tokens < n then none
  else some (s.modPart p fun x =>
    { x with cbkt := x.cbkt.put (dieOf core) { b with tokens := b.tokens - n } })

/-- Cores of a die that hold a job of a partition, and those with a transfer that waits for tokens. -/
def State.jobsOn (s : State) (part die : Nat) (p : Job → Bool) : Bool :=
  (List.range' (64 * die) 64).any fun c => s.corePart c == part && (s.core c).jobs.any p

/-- One partition's part of a refill, with the spare it leaves (R355, R431). -/
def Bucket.refill (b : Bucket) (idle : Bool) : Bucket × Nat :=
  if idle then (b, b.rate)
  else if 0 < b.debt then
    let k := min (b.rate / 2) b.debt
    ({ b with debt := b.debt - k, tokens := min (b.tokens + b.rate - k) b.depth }, k)
  else ({ b with tokens := min (b.tokens + b.rate) b.depth }, 0)

/-- What a partition takes of the spare. -/
def Bucket.borrow (b : Bucket) (n : Nat) : Bucket :=
  let k := min n (min (b.depth - b.tokens) (b.depth - b.debt))
  { b with tokens := b.tokens + k, debt := b.debt + k }

/-- Share the spare over the borrowers, who stand in round-robin order: the buckets, and who took the
last odd byte. -/
def shareSpare (spare : Nat) (bs : List (Nat × Bucket)) : List (Nat × Bucket) × Option Nat :=
  let n := bs.length
  if n = 0 then ([], none)
  else
    let r := spare % n
    (bs.mapIdx fun i (p, b) => (p, b.borrow (spare / n + if i < r then 1 else 0)),
     if r = 0 then none else (bs[r - 1]?).map (·.1))

/-- A list in rotation from after a number. -/
def rotateAfter (last : Option Nat) (bs : List (Nat × Bucket)) : List (Nat × Bucket) :=
  match last with
  | none => bs
  | some k => (bs.filter fun b => k < b.1) ++ bs.filter fun b => b.1 ≤ k

/-- A refill of buckets: who is idle, who waits for tokens, and who took the last odd byte before
(R355, R431). -/
def refillAll (bs : List (Nat × Bucket)) (idle waits : Nat → Bool) (last : Option Nat) :
    List (Nat × Bucket) × Option Nat :=
  let step := bs.map fun (p, b) => (p, b.refill (idle p && b.tokens == b.depth))
  let spare := (step.map fun x => x.2.2).sum
  let bs := step.map fun x => (x.1, x.2.1)
  let want := rotateAfter last (bs.filter fun (p, b) => waits p && decide (b.debt < b.depth))
  let (got, l) := shareSpare spare want
  (bs.map fun (p, b) => (p, ((got.find? fun g => g.1 == p).map (·.2)).getD b),
   match l with | some k => some k | none => last)

/-- Channels whose transfer waits for tokens are to try again. -/
def State.wakeTransfers (s : State) (core : Nat) : State :=
  (s.core core).jobs.foldl (fun s j =>
    if j.wants then
      (s.modJob core j.id fun j => { j with wants := false }).scheduleOnce s.now (.courierWrite core j.chan)
    else s) s

/-- TOKEN_REFILL on one die (R355). -/
def State.refillDie (s : State) (hub die : Nat) : State :=
  let old := fun (p : Nat) => (s.part p).cbkt.get Bucket.zero die
  let (bs, last) := refillAll ((List.range 48).map fun p => (p, old p)) (fun p => !(s.jobsOn p die fun _ => true))
    (fun p => s.jobsOn p die (·.wants)) ((s.hub hub).lastShare.find die)
  let s := bs.foldl (fun s (p, b) =>
    if b = old p then s else s.modPart p fun x => { x with cbkt := x.cbkt.put die b }) s
  let s := match last with
    | some k => s.modHub hub fun h => { h with lastShare := h.lastShare.put die k }
    | none => s
  (List.range' (64 * die) 64).foldl (fun s c => s.wakeTransfers c) s

/-- TOKEN_REFILL (R355): every 64th cycle of the hub's count. -/
def State.tokenRefill (s : State) (hub : Nat) : State :=
  ((s.refillDie hub (2 * hub)).refillDie hub (2 * hub + 1)).schedule (s.now + 64) (.tokenRefill hub)

/-! ## Running a copy or a fill (R350) -/

/-- The job's card. -/
def Job.cardOf (j : Job) : Card := Card.ofBytes j.card

/-- Elements that a transfer writes: 128 bytes of them at most. -/
def Job.batch (j : Job) : List Nat :=
  let c := j.cardOf
  let n := 128 / c.e
  (List.range' (n * j.pos) n).filter fun i => decide (i < c.count)

/-- The pattern of a fill's element (R344). -/
def Card.pattern (c : Card) : List Byte := (leBytes 8 c.src ++ leBytes 8 c.src).take c.e

/-- The source of a copy's transfer whose arrival it waits for (R350): the first source line for the first bytes,
then every line it needs. -/
def Job.awaits (j : Job) : List Nat :=
  let as := j.batch.map fun n => wrapAddr (j.cardOf.srcAt n)
  if j.pos = 0 then as.take 1 else as

/-- The delivered offset of a copy or a fill (R350). -/
def Job.deliveredY (j : Job) : Nat :=
  let c := j.cardOf
  let n := min (128 / c.e * j.pos) (c.count - 1)
  (c.yAt n).toNat

/-- Transfers of a gathered block: its data by 128 bytes, with the scale before the last (R350). -/
def Job.perBlock (j : Job) : Nat := 16 * j.dh / 128 + 1

/-- The delivered offset of a running job (R350). -/
def Job.deliveredOff (j : Job) : Nat :=
  if j.kind = .gather then
    let b := j.pos / j.perBlock
    (b * j.cardOf.tStr 1 + 128 * min (j.pos % j.perBlock) (j.perBlock - 2 : Nat)).toNat
  else j.deliveredY

/-- The bytes of a block that a gather takes, and of their scale (R358, R364). -/
def Job.blockAt (j : Job) (b : Nat) : Nat × Nat :=
  let c := j.cardOf
  let f := 16 * j.dh
  let base := j.base + (j.ents.getD b 0).toNat % 2 ^ 24 * 2 ^ j.log2b
  (base + c.part * j.heads * f + c.head * f, base + 2 * j.heads * f + c.part * 4 * j.heads + 4 * c.head)

/-- The source of a gather's next transfer: 128 bytes of a block, with the scale before the last (R350, R364). -/
def Job.gatherSource (j : Job) : Nat × Nat :=
  let u := j.pos % j.perBlock
  let m := j.perBlock - 1
  let (data, scale) := j.blockAt (j.pos / j.perBlock)
  if u = m - 1 then (scale, 4) else (data + 128 * (if u = m then m - 1 else u), 128)

/-- The first cycle of a job's next transfer: its source bytes have arrived (R350). A gather's reads follow those of
its table. -/
def State.transferTime (s : State) (core : Nat) (j : Job) : Nat :=
  let row := match j.kind with
    | .copy => j.awaits.foldl (fun m a => max m (s.courierRow core j.cardOf.spSrc a)) 1
    | .gather =>
      let (a, n) := j.gatherSource
      s.courierRow core false j.table.toNat +
        (linePieces a n).foldl (fun m p => max m (s.courierRow core false p.1)) 1
    | _ => 1
  max (s.now + 1) (j.started.getD s.now + row)

/-- A job ends with a status in a cycle (R347). -/
def State.endJob (s : State) (core : Nat) (j : Job) (st : Word) (at_ : Nat) : State :=
  (s.modJob core j.id fun j => { j with status := some st, wants := false }).schedule at_
    (.courierJobComplete core j.chan)

/-- A terminal fault of a job: nothing more of it is written (R352). -/
def State.faultJob (s : State) (core : Nat) (j : Job) (cause va : Nat) : State :=
  let s := s.engineFault core cause va
  (s.modCore core fun c => { c with jobs := c.jobs.filter fun i => i.id != j.id }).pokeJobs core

/-- Bytes written for a sibling are counted (R491). -/
def State.countBytes (s : State) (core n : Nat) : State :=
  let d := (s.core core).sideD
  s.modSib d.launch d.team fun x => { x with bytes := x.bytes + n }

/-- What one transfer comes to: the source pieces and the runs that take their bytes. -/
structure Transfer where
  bytes : Nat
  pieces : List (Nat × Nat)
  srcSp : Bool
  dstSp : Bool
  swz : Nat
  /-- Destination of each byte, in the order of the source bytes. -/
  dsts : List Nat
  /-- Bytes of a fill. -/
  fixed : Option (List Byte)
  /-- Detail of POISON (R352). -/
  detail : Nat
  last : Bool
  deriving DecidableEq, Repr

/-- The next transfer of a copy or a fill. -/
def Job.strided (j : Job) : Transfer :=
  let c := j.cardOf
  let ns := j.batch
  let copy := j.kind == .copy
  { bytes := ns.length * c.e
    pieces := if copy then ns.flatMap fun n => linePieces (wrapAddr (c.srcAt n)) c.e else []
    srcSp := c.spSrc, dstSp := c.spDst, swz := c.swz % 4
    dsts := ns.flatMap fun n => (List.range c.e).map fun (i : Nat) => wrapAddr (c.dstAt n + (i : Int))
    fixed := if copy then none else some (ns.flatMap fun _ => c.pattern)
    detail := j.deliveredY / 16
    last := decide (c.count ≤ 128 / c.e * (j.pos + 1)) }

/-- Bytes by address, as runs within lines. (Log 50, DEDUCED.) -/
def runsOf (dsts : List Nat) (bs : List Byte) : List (Nat × List Byte) :=
  byteRuns ((dsts.zip bs).foldl (fun m (a, b) => m.put a b) ([] : Tab Byte))

/-- Write a transfer's bytes, and go on to the next. -/
def State.deliverTransfer (s : State) (core : Nat) (j : Job) (x : Transfer) (bs : List Byte) : State :=
  match s.takeTokens core x.bytes with
  | none => s.modJob core j.id fun j => { j with wants := true }
  | some s' =>
    match s'.courierWrite core j x.dstSp x.swz (runsOf x.dsts bs) with
    | .fault c a => s.faultJob core j c a
    | .wait n page =>
      (match page with | some p => s.askHandover p | none => s).schedule (s.now + n) (.courierWrite core j.chan)
    | .ok s =>
      let s := s.countBytes core x.bytes
      let k := { j with pos := j.pos + 1 }
      let s := s.modJob core j.id fun j => { j with pos := j.pos + 1 }
      if x.last then
        -- the status follows the acknowledgement of window writes (R427)
        let far := (if x.dstSp then [] else x.dsts.filter isWindow).foldl (fun m a =>
          max m (s.peerRow core (windowPod a) (windowOff a))) 1
        s.endJob core k (status stOk 0) (s.now + far)
      else
        let at_ := s.transferTime core k
        (s.modJob core j.id fun j => { j with next := at_ }).schedule at_ (.courierWrite core j.chan)

/-- Perform a transfer: read its source, take its tokens, write (R350, R354). -/
def State.runTransfer (s : State) (core : Nat) (j : Job) (x : Transfer) : State :=
  match x.fixed with
  | some bs => s.deliverTransfer core j x bs
  | none =>
    match s.courierReadAll core x.srcSp x.pieces with
    | .ok bs s => s.deliverTransfer core j x bs
    | .poison => s.endJob core j (status stPoison x.detail) (s.now + 1)
    | .fault c a => s.faultJob core j c a
    | .wait n s => s.schedule (s.now + n) (.courierWrite core j.chan)

/-- A copy or a fill starts (R348, R350). -/
def State.startStrided (s : State) (core : Nat) (j : Job) : State :=
  let j := { j with started := some s.now }
  let at_ := s.transferTime core j
  (s.modJob core j.id fun j => { j with started := some s.now, next := at_ }).schedule at_
    (.courierWrite core j.chan)

/-! ## Acceptance (R345, R347, R349) -/

/-- Publish the core's staged writes to the lines of global regions for an accepting thread (R349,
R377). -/
def State.publishReads (s : State) (core slot lane scope : Nat) (rs : List Region) : State :=
  let launch := (s.core core).sideD.launch
  let lines := (rs.filter fun r => !r.sp).flatMap fun r => (List.range (r.len / 128)).filterMap fun i =>
    match s.resolve launch (r.base + 128 * i) Need.any with
    | .ok (.mem pa, _) => some (s.routeRead pa / 128)
    | _ => none
  s.publishAs core slot lane scope fun w => w.core == core && !w.hidden && lines.contains (w.addr / 128)

/-- A job enters the window (R347). -/
def State.acceptJob (s : State) (core : Nat) (j : Job) : State :=
  let s := s.tick
  let j := { j with id := s.order }
  (s.modCore core fun c => { c with jobs := c.jobs ++ [j] }).scheduleOnce (s.now + 1)
    (.courierJobStart core j.chan)

def Job.zero : Job :=
  { id := 0, kind := .copy, chan := 0, thread := 0, slot := 0, lane := 0, pc := 0, dst := none, tag := 0, card := [], table := 0,
    src := 0, sp := false, reads := [], writes := [], scope := 0, started := none, pos := 0, next := 0,
    wants := false, hpa := 0, pool := 0, heads := 0, dh := 0, base := 0, log2b := 0, stage := 0,
    ents := [], record := [], token := none, status := none }

/-- The destination register of an instruction, if it has one. -/
def Ctx.dstReg (x : Ctx) : Option Nat := match x.f.dst with | .v r _ => some r.toNat | _ => none

/-- Card address of a lane. -/
def Ctx.cardAddr (x : Ctx) (l : Nat) : DWord :=
  BitVec.ofNat 64 (x.value l x.f.a (if x.f.mod.getLsbD 4 then 1 else 2) .int)

/-- The offset that the card is refused at, if any: the lowest one charged (R345). -/
def Card.refusal (c : Card) (k : JobKind) (z : Nat) (words : List Nat) : Option Nat :=
  let body := if k = .gather then c.gatherBad else c.strided k z
  leastOf (c.common k ++ body ++ charge 0x34 (c.fpa % 32 != 0 || words.any regionBad))

/-- What comes of a card: a status at once, or a footprint. -/
def Card.examine (c : Card) (k : JobKind) (z : Nat) (words : List Nat) :
    Except Word (List Region × List Region) :=
  match c.refusal k z words with
  | some o => .error (status stMalformed o)
  | none =>
    let pick := fun (a b : Nat) => ([words.getD a 0, words.getD b 0]).filterMap regionOf
    let fp := if c.fpa = 0 then c.defaultPrint k else (pick 0 1, pick 2 3)
    if k ≠ .gather ∧ c.fpa ≠ 0 ∧ !c.inPrint k fp.1 fp.2 then .error (status stFootprint 0) else .ok fp

/-- A lane's card, once it and its footprint block have been read (R347). -/
def State.submitCard (s : State) (x : Ctx) (l : Nat) (k : JobKind) (bs : List Byte) (words : List Nat)
    (row : Nat) : State :=
  let c := Card.ofBytes bs
  match c.examine k (s.teamScratch x.core) words with
  | .error st => s.deliver x.core x.slot l x.tag (x.e + row) [st]
  | .ok (rd, wr) =>
    let (scope, s) := s.demote x.core c.scope
    let s := s.publishReads x.core x.slot l scope rd
    s.acceptJob x.core
      { Job.zero with
        kind := k, chan := c.chan, thread := (x.thread l).index, slot := x.slot, lane := l, pc := x.pc
        dst := x.dstReg, tag := x.tag, card := bs, table := BitVec.ofNat 64 c.src, reads := rd, writes := wr, scope := scope }

/-- The destination of a lane's job is pending. -/
def State.pendJob (s : State) (x : Ctx) (l : Nat) : State := s.pend x.core x.slot l x.f.dst 1 x.tag true

/-- What comes of a lane's submission: it is done, or the lane is left at its instruction for some cycles. -/
abbrev Submitted := Option Nat × State

/-- Read a card and its footprint block for a lane, and submit it (R347). -/
def State.cardLane (s : State) (x : Ctx) (k : JobKind) (l : Nat) : Submitted :=
  let a := (x.cardAddr l).toNat
  let sp := x.f.mod.getLsbD 4
  let row := s.courierRow x.core sp a
  let read := fun (s : State) (a n : Nat) =>
    if sp && decide (s.teamScratch x.core < a + n) then CourierRead.ok [] s
    else s.courierReadAll x.core sp (linePieces a n)
  let poisoned := fun (s : State) =>
    (s.pendJob x l).deliver x.core x.slot l x.tag (x.e + row) [status stPoison 0]
  match read s a 64 with
  | .poison => (none, poisoned s)
  | .fault c _ => (none, s.faultLane x.core x.slot l c (x.cardAddr l) x.pc)
  | .wait n s => (some n, s)
  | .ok bs s =>
    let f := (Card.ofBytes bs).fpa
    if f = 0 then (none, (s.pendJob x l).submitCard x l k bs [] row)
    else
      match read s f 32 with
      | .poison => (none, poisoned s)
      | .fault c _ => (none, s.faultLane x.core x.slot l c (BitVec.ofNat 64 f) x.pc)
      | .wait n s => (some n, s)
      | .ok fs s => (none, (s.pendJob x l).submitCard x l k bs
          (if fs.isEmpty then [2 ^ 63 + 2 ^ 9] else footprintWords fs) row)

/-- Lanes that stand at their instruction, to issue it again no earlier than some cycles from now. -/
def State.leaveLanes (s : State) (x : Ctx) (ls : List Nat) (n : Nat) : State :=
  s.modGroup x.core x.slot fun g => ls.foldl (fun g l => g.modThread l fun t =>
    { t.withdraw with next := max t.next (if n = 0 then 0 else s.now + n) }) g

/-- Lanes in ascending order while the window has room; those left stay at their instruction, and how long
(R347). (Log 53, DEDUCED.) -/
def State.jobLanes (s : State) (x : Ctx) (submit : State → Nat → Submitted) : List Nat → (List Nat × Nat) × State
  | [] => (([], 0), s)
  | l :: ls =>
    if (s.core x.core).jobs.length < 32 then
      match submit s l with
      | (none, s) => s.jobLanes x submit ls
      | (some n, s) => ((l :: ls, n), s)
    else ((l :: ls, 0), s)

/-- XCOPY, XFILL and XGATH (R347). -/
def State.cardOp (s : State) (sh : Shape) (f : Fields) (k : JobKind) : State :=
  let (x, s) := s.begin sh f
  let sp := f.mod.getLsbD 4
  let lv := x.levelTraps
  let as := (x.without lv).map fun l => (l, x.cardAddr l)
  let ts := lv ++ as.filterMap fun (l, a) =>
    if a.toNat % 64 ≠ 0 then some (LaneTrap.at_ l causeMisalign a)
    else if sp ∧ s.teamScratch x.core < a.toNat + 64 then some (.at_ l causeScratchRange a) else none
  let ((left, n), s) := s.jobLanes x (fun s l => s.cardLane x k l) (x.without ts)
  (s.finishWait x ts (left.map fun l => (l, .answer)) false []).leaveLanes x left n

/-! ## XPTR (R351) -/

/-- The value for a tag: the oldest incomplete job of the channel with it. -/
def Core.xptr (c : Core) (chan : Nat) (tag : Nat) : Word :=
  match c.jobs.find? fun j => j.chan == chan && !j.card.isEmpty && j.cardOf.tag == tag with
  | none => 0xFFFFFFFF
  | some j => if j.started.isNone then 0 else BitVec.ofNat 32 j.deliveredOff

/-- XPTR (R351). -/
def State.xptrOp (s : State) (sh : Shape) (f : Fields) : State :=
  let (x, s) := s.begin sh f
  let lv := x.levelTraps
  let ok := x.without lv
  let s := s.finish x lv []
  let s := ok.foldl (fun s l => s.pend x.core x.slot l f.dst 1 x.tag false) s
  ok.foldl (fun s l => s.deliver x.core x.slot l x.tag (x.e + 8)
    [(s.core x.core).xptr (f.mod.toNat % 4) (x.value l f.a 1 .int)]) s

end Sys2Proof.Machine
end

