-- ==== Sys2Proof/Machine/Tables.lean ====
section
/-! DEFINITION. The key-value cache (R356 to R366): pools and block tables, BTAPP and BTREL, XGATH's
translation, XAPPK and XSEAL; and the meanings of the couriers. -/

namespace Sys2Proof.Machine

/-! ## Descriptors (R356, R357) -/

/-- A block pool's descriptor. -/
structure PDesc where
  base : Nat
  refs : Nat
  freest : Nat
  nblk : Nat
  nfree : Nat
  log2b : Nat
  flags : Nat
  part : Nat
  zeros : Bool
  deriving DecidableEq, Repr

def PDesc.ofBytes (bs : List Byte) : PDesc :=
  { base := lineNat bs 0 8, refs := lineNat bs 8 8, freest := lineNat bs 16 8, nblk := lineNat bs 24 4,
    nfree := lineNat bs 28 4, log2b := lineNat bs 32 1, flags := lineNat bs 33 1, part := lineNat bs 34 1,
    zeros := lineNat bs 35 93 == 0 }

def PDesc.enabled (p : PDesc) : Bool := p.flags % 2 == 1
def PDesc.malformed (p : PDesc) : Bool :=
  !p.zeros || decide (2 ≤ p.flags) || decide (p.log2b < 7) || decide (20 < p.log2b) || p.nblk == 0 ||
    decide (2 ^ 24 < p.nblk) || p.freest % 4 != 0 || p.refs % 2 != 0 || p.base % 65536 != 0

/-- A block table's header. -/
structure THdr where
  pool : Nat
  entries : Nat
  stage : Nat
  cap : Nat
  nlog : Nat
  nseal : Nat
  gen : Nat
  opent : Nat
  heads : Nat
  hd : Nat
  flags : Nat
  tscope : Nat
  zeros : Bool
  deriving DecidableEq, Repr

def THdr.ofBytes (bs : List Byte) : THdr :=
  { pool := lineNat bs 0 8, entries := lineNat bs 8 8, stage := lineNat bs 16 8, cap := lineNat bs 24 4,
    nlog := lineNat bs 28 4, nseal := lineNat bs 32 4, gen := lineNat bs 36 4, opent := lineNat bs 40 1,
    heads := lineNat bs 41 1, hd := lineNat bs 42 1, flags := lineNat bs 43 1, tscope := lineNat bs 44 1,
    zeros := lineNat bs 45 83 == 0 }

def THdr.enabled (h : THdr) : Bool := h.flags % 2 == 1
/-- Head dimension, and F = 16 × Dh. -/
def THdr.dh (h : THdr) : Nat := 2 ^ h.hd
def THdr.f (h : THdr) : Nat := 16 * h.dh
/-- The fields that give the layout lie in their ranges. -/
def THdr.shaped (h : THdr) : Bool :=
  decide (4 ≤ h.hd) && decide (h.hd ≤ 8) && decide (1 ≤ h.heads) && decide (h.heads ≤ 64)

/-- A field of the header lies outside its range. -/
def THdr.malformed (h : THdr) : Bool :=
  !h.zeros || decide (2 ≤ h.flags) || decide (7 < h.tscope) || !h.shaped || decide (16 < h.opent) ||
    h.cap == 0 || decide (2 ^ 24 < h.cap) || !(h.nlog == h.nseal || h.nlog == h.nseal + 1) ||
    h.stage % 128 != 0 || h.entries % 4 != 0 || h.pool % 128 != 0

/-- The pool does not fit the table (R357). -/
def THdr.unfit (h : THdr) (p : PDesc) (part : Nat) : Bool :=
  p.part != part || decide (2 ^ p.log2b < 32 * h.heads * h.dh + 8 * h.heads)

/-- Bytes of the staging area, and of a token record (R358, R365). -/
def THdr.stageLen (h : THdr) : Nat := 4 * h.heads * h.f + 8 * h.heads
def THdr.recordLen (h : THdr) : Nat := 4 * h.heads * h.dh

/-! ## Reading and writing tables (R360) -/

/-- Who performs a table step: what it sees, its partition, its launch, and the acting core. -/
structure TabWho where
  v : Viewer
  core : Nat
  part : Nat
  launch : Nat
  deriving DecidableEq, Repr

def State.tabWho (s : State) (core : Nat) : TabWho :=
  ⟨.core core, core, s.corePart core, (s.core core).sideD.launch⟩

/-- Bytes as a table operation sees them: every write of a table operation, and what its agent sees. -/
def State.tblRead (s : State) (v : Viewer) (pa n : Nat) : List Byte :=
  (List.range' pa n).map fun a =>
    let a := s.routeRead a
    s.staged.foldl (fun b w => if s.sees v w || w.tbl then (w.byte a).getD b else b) (s.mem.get 0 a)

/-- A write of a table operation at its home slice, published at a scope (R360, R374); below PACKAGE it takes a
line of the core's staging share (R386). -/
def State.tblWrite (s : State) (w : TabWho) (scope pa : Nat) (bs : List Byte) : State :=
  let s := s.clearWay pa
  let pa := s.routeRead pa
  let s := (s.modCore w.core fun c => c.l1Drop pa).l2Touch pa false
  if 5 ≤ scope then s.agentWrite pa bs
  else
    let s := if s.hasStagingLine w.core pa then s else s.makeRoom w.core 4096 4096
    let s := s.tick
    let d := (s.core w.core).sideD
    let x : Staged := { order := s.order, addr := pa, bytes := bs.map some, core := w.core,
                        launch := d.launch, team := d.team, side := d.side, maker := 0, mask := [],
                        pub := some (scope, w.core), hidden := false, job := 0, tbl := true }
    { s with staged := s.staged ++ [x] }.notify pa bs.length

/-- A failed check: its cause and address. What keeps an operation back stands here too: cause 0 while it waits for
an earlier access of its core or for a staging line, and the cause of HANDOVER with the physical address. -/
abbrev TabRes (α : Type) := Except (Nat × Nat) (α × State)

/-- The physical address of a table operation's address, with its lease and translation (R360). What keeps back a
store of the core keeps the operation back (R174, R178, R333, R386). -/
def State.tabPa (s : State) (w : TabWho) (va : Nat) (n : Need) : TabRes Nat :=
  match s.resolve w.launch va n with
  | .ok (.mem pa, s) =>
    if s.needsHandover pa then .error (causeHandover, pa)
    else if (s.heldLine w.core pa (s.order + 1)).isSome || (n.w && s.stagingFull w.core pa) then .error (0, pa)
    else .ok (pa, s)
  | .ok (.peer _ _, _) => .error (causePerm, va)
  | .error c => .error (c, va)

/-- Read pieces, each within a line. -/
def State.tabPieces (s : State) (w : TabWho) (n : Need) : List (Nat × Nat) → TabRes (List Byte)
  | [] => .ok ([], s)
  | (a, k) :: t =>
    match s.tabPa w a n with
    | .error e => .error e
    | .ok (pa, s) =>
      let p := s.routeRead pa
      if s.poisoned p k then .error (causePoison, a)
      else
        match (s.l2Touch p false).tabPieces w n t with
        | .error e => .error e
        | .ok (bs, s') => .ok (s.tblRead w.v pa k ++ bs, s')

/-- Read bytes at a virtual address. -/
def State.tabRead (s : State) (w : TabWho) (va k : Nat) (n : Need := Need.read) : TabRes (List Byte) :=
  s.tabPieces w n (linePieces va k)

/-- Write runs, each within a line. -/
def State.tabRuns (s : State) (w : TabWho) (scope : Nat) : List (Nat × List Byte) → TabRes Unit
  | [] => .ok ((), s)
  | (a, bs) :: t =>
    match s.tabPa w a Need.write with
    | .error e => .error e
    | .ok (pa, s) => (s.tblWrite w scope pa bs).tabRuns w scope t

/-- Write bytes at a virtual address. -/
def State.tabWrite (s : State) (w : TabWho) (scope va : Nat) (bs : List Byte) : TabRes Unit :=
  s.tabRuns w scope ((linePieces va bs.length).map fun (a, n) => (a, (bs.drop (a - va)).take n))

/-- A table that an operation has opened: where its header and its pool's descriptor stand. The pool is
absent where the header does not lead to one. -/
structure Table where
  va : Nat
  hpa : Nat
  h : THdr
  ppa : Nat
  p : Option PDesc
  deriving DecidableEq, Repr

/-- A line is known as a descriptor, with the offset of its FLAGS byte. -/
def State.guard (s : State) (part pa off : Nat) : State :=
  s.modPart part fun p => { p with guarded := p.guarded.put pa off }

/-- Read a table's header and its pool's descriptor. -/
def State.openTable (s : State) (w : TabWho) (va : Nat) (n : Need) : TabRes Table :=
  match s.tabPa w va n with
  | .error e => .error e
  | .ok (hpa, s) =>
    let hp := s.routeRead hpa
    if s.poisoned hp 128 then .error (causePoison, va)
    else
      let h := THdr.ofBytes (s.tblRead w.v hpa 128)
      let s := (s.l2Touch hp false).guard w.part hpa 43
      if h.malformed then .ok (⟨va, hpa, h, 0, none⟩, s)
      else
        match s.tabPa w h.pool n with
        | .error e => .error e
        | .ok (ppa, s) =>
          let pp := s.routeRead ppa
          if s.poisoned pp 128 then .error (causePoison, h.pool)
          else .ok (⟨va, hpa, h, ppa, some (PDesc.ofBytes (s.tblRead w.v ppa 128))⟩,
            (s.l2Touch pp false).guard w.part ppa 33)

/-- An operation that is kept back is tried again after some cycles: none where its check has failed. -/
def tabWaits (cause : Nat) : Option Nat :=
  if cause = 0 then some 1 else if cause = causeHandover then some 512 else none

/-- It asks for the page that it waits for (R178). -/
def State.tabAsk (s : State) (cause pa : Nat) : State := if cause = causeHandover then s.askHandover pa else s

/-- The table is disabled or malformed (R357). -/
def Table.bad (t : Table) (part : Nat) : Bool :=
  match t.p with
  | none => true
  | some p => !t.h.enabled || t.h.unfit p part

def Table.pool (t : Table) : PDesc := t.p.getD (PDesc.ofBytes [])
/-- Its pool is disabled or malformed. -/
def Table.poolBad (t : Table) : Bool := !t.pool.enabled || t.pool.malformed

/-- TSCOPE as executed (R370). -/
def State.tabScope (s : State) (w : TabWho) (t : Table) : Nat := min t.h.tscope (s.launch w.launch).ceil
/-- TSCOPE lies above the ceiling. -/
def State.tabDemoted (s : State) (w : TabWho) (t : Table) : Bool :=
  decide ((s.launch w.launch).ceil < t.h.tscope)

/-! ## Free blocks (R359, R362) -/

/-- A gather of the partition that translated a block is in flight. -/
def State.gathers (s : State) (part pool block : Nat) : Bool :=
  s.cores.any fun (_, c) =>
    (match c.side with | some d => (s.launch d.launch).part == part | none => false) &&
      c.jobs.any fun j => j.kind == .gather && j.pool == pool && j.started.isSome &&
        j.ents.any fun e => e.toNat % 2 ^ 24 == block

/-- Push a block onto its pool's free stack. -/
def State.pushFree (s : State) (w : TabWho) (scope : Nat) (ppa freest block : Nat) : TabRes Unit :=
  let nfree := leNat (s.tblRead w.v (ppa + 28) 4)
  match s.tabWrite w scope (freest + 4 * nfree) (leBytes 4 block) with
  | .error e => .error e
  | .ok (_, s) => .ok ((), s.tblWrite w scope (ppa + 28) (leBytes 4 (nfree + 1)))

/-- Free a block, or keep it until the gathers that translated it have completed (R362). -/
def State.freeBlock (s : State) (w : TabWho) (scope : Nat) (t : Table) (block : Nat) : TabRes Unit :=
  if s.gathers w.part t.ppa block then
    .ok ((), s.modPart w.part fun p =>
      { p with deferred := p.deferred ++ [⟨t.ppa, t.pool.freest, block⟩] })
  else s.pushFree w scope t.ppa t.pool.freest block

/-- Push a block whose free was kept back: the part's own step, at PACKAGE. -/
def State.pushDeferred (s : State) (part : Nat) (d : DeferredBlock) : Option State :=
  let nfree := leNat (s.tblRead .merged (d.pool + 28) 4)
  match s.agentUse part (s.part part).datp (d.freest + 4 * nfree) Need.write true with
  | none => none
  | some (pa, s) => some ((s.agentWrite pa (leBytes 4 d.block)).agentWrite (d.pool + 28) (leBytes 4 (nfree + 1)))

/-- DEFERRED_BLOCK_FREE (R362). -/
def State.deferredFree (s : State) (part : Nat) : State :=
  let ds := (s.part part).deferred
  let s := s.modPart part fun p => { p with deferred := [] }
  ds.foldl (fun s d =>
    let keep := fun (s : State) => s.modPart part fun p => { p with deferred := p.deferred ++ [d] }
    if s.gathers part d.pool d.block then keep s
    else match s.pushDeferred part d with | some s => s | none => keep s) s

def State.modQuota (s : State) (part : Nat) (f : Nat → Nat) : State :=
  s.modPart part fun p => { p with bquota := { p.bquota with used := f p.bquota.used } }

/-! ## BTAPP (R361) -/

/-- The block's reference count. -/
def State.refCount (s : State) (w : TabWho) (t : Table) (block : Nat) : TabRes Nat :=
  match s.tabRead w (t.pool.refs + 2 * block) 2 Need.both with
  | .error e => .error e
  | .ok (bs, s) => .ok (leNat bs, s)

/-- Append an entry word: the entry, NLOG and, for a sealed one, NSEAL. -/
def State.appendEntry (s : State) (w : TabWho) (t : Table) (e : Nat) (closed : Bool) : TabRes Word :=
  let sc := s.tabScope w t
  match s.tabWrite w sc (t.h.entries + 4 * t.h.nlog) (leBytes 4 e) with
  | .error e => .error e
  | .ok (_, s) =>
    let s := s.tblWrite w sc (t.hpa + 28) (leBytes 4 (t.h.nlog + 1))
    let s := if closed then s.tblWrite w sc (t.hpa + 32) (leBytes 4 (t.h.nseal + 1)) else s
    .ok (status stOk (t.h.nlog % 2 ^ 23), s)

/-- BTAPP of a fresh block. -/
def State.btFresh (s : State) (w : TabWho) (t : Table) : TabRes Word :=
  let q := (s.part w.part).bquota
  let p := t.pool
  let sc := s.tabScope w t
  if q.used = q.limit then .ok (status stQuota 0, s)
  else if p.nfree = 0 then .ok (status stFull 0, s)
  else
    match s.tabRead w (p.freest + 4 * (p.nfree - 1)) 4 with
    | .error e => .error e
    | .ok (bs, s) =>
      let b := leNat bs
      match s.refCount w t b with
      | .error e => .error e
      | .ok (_, s) =>
        match s.tabWrite w sc (p.refs + 2 * b) (leBytes 2 1) with
        | .error e => .error e
        | .ok (_, s) =>
          let s := s.tblWrite w sc (t.ppa + 28) (leBytes 4 (p.nfree - 1))
          (s.modQuota w.part (· + 1)).appendEntry w t (b % 2 ^ 24) false

/-- BTAPP that shares a sealed block. -/
def State.btShare (s : State) (w : TabWho) (t : Table) (e : Word) : TabRes Word :=
  let b := e.toNat % 2 ^ 24
  if e.toNat / 2 ^ 29 ≠ 0 ∨ 16 < e.toNat / 2 ^ 24 % 32 ∨ t.pool.nblk ≤ b then
    .ok (status stMalformed 0, s)
  else
    match s.refCount w t b with
    | .error e => .error e
    | .ok (r, s) =>
      if r = 0 then .ok (status stMalformed 0, s)
      else if r = 0xFFFF then .ok (status stFull 2, s)
      else
        match s.tabWrite w (s.tabScope w t) (t.pool.refs + 2 * b) (leBytes 2 (r + 1)) with
        | .error e => .error e
        | .ok (_, s) => s.appendEntry w t e.toNat true

/-- BTAPP (R361). -/
def State.btapp (s : State) (w : TabWho) (t : Table) (e : Word) : TabRes Word :=
  if t.bad w.part ∨ t.poolBad then .ok (status stDenied 0, s)
  else if t.h.nseal < t.h.nlog then .ok (status stDenied 1, s)
  else if t.h.nlog = t.h.cap then .ok (status stFull 1, s)
  else if e = 0xFFFFFFFF then s.btFresh w t
  else s.btShare w t e

/-! ## BTREL (R361) -/

/-- Set every running maximum of the staging area to +0. -/
def State.clearMaxima (s : State) (w : TabWho) (t : Table) : TabRes Unit :=
  s.tabWrite w (s.tabScope w t) (t.h.stage + 4 * t.h.heads * t.h.f) (leBytes (8 * t.h.heads) 0)

/-- Release the block of an entry. -/
def State.releaseBlock (s : State) (w : TabWho) (t : Table) (block : Nat) : TabRes Unit :=
  if t.pool.nblk ≤ block then .ok ((), s)
  else
    match s.refCount w t block with
    | .error e => .error e
    | .ok (r, s) =>
      if r = 0 then .ok ((), s)
      else
        match s.tabWrite w (s.tabScope w t) (t.pool.refs + 2 * block) (leBytes 2 (r - 1)) with
        | .error e => .error e
        | .ok (_, s) =>
          if r = 1 then (s.modQuota w.part (· - 1)).freeBlock w (s.tabScope w t) t block else .ok ((), s)

/-- Release the entries below NLOG, k of them, last first. -/
def State.releaseEntries (s : State) (w : TabWho) (t : Table) : Nat → Nat → TabRes Unit
  | 0, _ => .ok ((), s)
  | k + 1, i =>
    let opened := if i = t.h.nseal then s.clearMaxima w t else .ok ((), s)
    match opened with
    | .error e => .error e
    | .ok (_, s) =>
      let s := if i = t.h.nseal then s.tblWrite w (s.tabScope w t) (t.hpa + 40) [0] else s
      match s.tabRead w (t.h.entries + 4 * i) 4 with
      | .error e => .error e
      | .ok (bs, s) =>
        match s.releaseBlock w t (leNat bs % 2 ^ 24) with
        | .error e => .error e
        | .ok (_, s) => s.releaseEntries w t k (i - 1)

/-- BTREL before it waits: the status that ends it, or the number of entries it releases (R361). -/
def Table.relCount (t : Table) (part : Nat) (n : Word) : Except Word Nat :=
  if t.bad part then .error (status stDenied 0)
  else if t.h.nlog = 0 then .error (status stEmpty 0)
  else .ok (if n = 0 then t.h.nlog else min n.toNat t.h.nlog)

/-- BTREL once no XAPPK copy into the table is in flight: k entries are released (R361). -/
def State.btrelRun (s : State) (w : TabWho) (t : Table) (k : Nat) : TabRes Word :=
  match s.releaseEntries w t (min k t.h.nlog) (t.h.nlog - 1) with
  | .error e => .error e
  | .ok (_, s) =>
    let sc := s.tabScope w t
    let nlog := t.h.nlog - k
    let s := s.tblWrite w sc (t.hpa + 28)
      (leBytes 4 nlog ++ leBytes 4 (min t.h.nseal nlog) ++ leBytes 4 (t.h.gen + 1))
    .ok (status stOk k, s)

/-- BTREL of a table that no copy is in flight to. -/
def State.btrel (s : State) (w : TabWho) (t : Table) (n : Word) : TabRes Word :=
  match t.relCount w.part n with
  | .error st => .ok (st, s)
  | .ok k => s.btrelRun w t k

/-- An XAPPK copy into a table is in flight: a slot is reserved and its job has not completed. -/
def State.appending (s : State) (hpa : Nat) : Bool :=
  s.cores.any fun (_, c) => c.jobs.any fun j => j.kind == .appk && j.hpa == hpa && j.token.isSome

/-! ## The two instructions -/

/-- A sibling tracks a table (R490). -/
def Sib.track (x : Sib) (table : DWord) : Sib :=
  if x.tables.contains table then x
  else if x.tables.length < 4 then { x with tables := x.tables ++ [table] }
  else { x with kvskip := true }

/-- A team tracks a table; KVSKIP is set for every sibling of a table that two of them use. -/
def Ballot.track (b : Ballot) (team : Nat) (table : DWord) : Ballot :=
  let shared := b.sibs.any fun (i, x) => i != team && x.tables.contains table
  { b with sibs := b.sibs.map fun (i, x) =>
      if i = team then (i, { x.track table with kvskip := (x.track table).kvskip || shared })
      else (i, { x with kvskip := x.kvskip || (shared && x.tables.contains table) }) }

def State.trackTable (s : State) (core : Nat) (table : DWord) : State :=
  let d := (s.core core).sideD
  { s with ballots := s.ballots.map fun b => if b.launch = d.launch then b.track d.team table else b }

/-- What comes of a lane's BTAPP or BTREL at the slice: its state, whether TSCOPE was demoted, and the cycles it is
left at its instruction for. -/
structure TableTurn where
  s : State
  demoted : Bool
  left : Option Nat

/-- A lane's BTAPP or BTREL at the slice (R360, R361). -/
def State.tableLane (s : State) (x : Ctx) (rel : Bool) (l : Nat) : TableTurn :=
  let a := x.value l x.f.a 2 .int
  let b := BitVec.ofNat 32 (x.value l x.f.b 1 .int)
  let w := s.tabWho x.core
  let due := x.e + s.courierRow x.core false a
  let taken := fun (s : State) => (s.pend x.core x.slot l x.f.dst 1 x.tag false).modThread x.core x.slot l
    fun t => { t with workDone := max t.workDone due }
  let stops := fun (c va : Nat) =>
    match tabWaits c with
    | some n => (⟨s.tabAsk c va, false, some n⟩ : TableTurn)
    | none => ⟨s.faultLane x.core x.slot l c (BitVec.ofNat 64 va) x.pc, false, none⟩
  match (taken s).openTable w a Need.both with
  | .error (c, va) => stops c va
  | .ok (t, s') =>
    let run := fun (r : TabRes Word) =>
      match r with
      | .error (c, va) => stops c va
      | .ok (st, s'') => ⟨s''.deliver x.core x.slot l x.tag due [st], s'.tabDemoted w t, none⟩
    if rel then
      match t.relCount w.part b with
      | .error st => run (.ok (st, s'))
      | .ok k =>
        if s'.appending t.hpa then
          ⟨{ s' with tableWaits := s'.tableWaits ++
              [{ core := x.core, launch := w.launch, team := (s'.core x.core).sideD.team,
                 thread := (x.thread l).index, dst := x.dstReg, tag := x.tag, table := BitVec.ofNat 64 a,
                 hpa := t.hpa, count := k, slot := x.slot, lane := l, pc := x.pc }] }, s'.tabDemoted w t, none⟩
        else run (s'.btrelRun w t k)
    else run (match s'.btapp w t b with
      | .ok (st, s'') => .ok (st, if st.toNat % 256 = stOk then s''.trackTable x.core (BitVec.ofNat 64 a) else s'')
      | e => e)

/-- The lanes of a table instruction in ascending order, up to one that is kept back (R360): the lanes left at
their instruction, and how long. -/
def State.tableLanes (s : State) (x : Ctx) (rel : Bool) : List Nat → Bool → State × Bool × List Nat × Nat
  | [], d => (s, d, [], 0)
  | l :: ls, d =>
    let r := s.tableLane x rel l
    match r.left with
    | some n => (r.s, d, l :: ls, n)
    | none => r.s.tableLanes x rel ls (d || r.demoted)

/-- One more publication executed at the ceiling (R370). -/
def State.countDemoted (s : State) (part : Nat) (b : Bool) : State :=
  if b then s.modPart part fun p => { p with demoted := p.demoted + 1 } else s

/-- BTAPP and BTREL (R361). -/
def State.tableOp (s : State) (sh : Shape) (f : Fields) (rel : Bool) : State :=
  let (x, s) := s.begin sh f
  let lv := x.levelTraps
  let ts := lv ++ misaligned 128 ((x.without lv).map fun l => (l, BitVec.ofNat 64 (x.value l f.a 2 .int)))
  let (s, dem, left, n) := s.tableLanes x rel (x.without ts) false
  let s := (s.finishWait x ts (left.map fun l => (l, .answer)) false []).leaveLanes x left n
  s.countDemoted (s.corePart x.core) dem

/-- A failing access of a job or of a waiting BTREL is raised by its lane (R360). -/
def State.laneFault (s : State) (core slot lane cause va : Nat) (pc : DWord) : State :=
  s.schedule (s.now + officeTime core) (.terminalFaultArrival (s.core core).sideD.launch
    { cause := BitVec.ofNat 8 cause, flags := 0, addr := BitVec.ofNat 64 va, pc := pc,
      core := BitVec.ofNat 16 core, slot := BitVec.ofNat 8 slot, lane := BitVec.ofNat 8 lane })

/-- A BTREL that waited for a table's copies is performed (R361); what keeps it back leaves it waiting. -/
def State.relWaiting (s : State) (t : TableWait) : State :=
  let w : TabWho := ⟨.core t.core, t.core, (s.launch t.launch).part, t.launch⟩
  let rest := { s with tableWaits := s.tableWaits.filter fun x => x != t }
  let res : TabRes Word :=
    match rest.openTable w t.table.toNat Need.both with
    | .error e => .error e
    | .ok (o, s) => s.btrelRun w o t.count
  match res with
  | .error (c, va) =>
    match tabWaits c with
    | some n => (s.tabAsk c va).scheduleOnce (s.now + n) (.tableRetry t.hpa)
    | none => rest.laneFault t.core t.slot t.lane c va t.pc
  | .ok (st, s) =>
    match t.dst with
    | some r => s.deliverThread t.launch t.team t.thread r t.tag
        (s.now + s.courierRow t.core false t.table.toNat) st
    | none => s

/-- BTRELs that waited for a table's copies are performed (R361). -/
def State.retryTable (s : State) (hpa : Nat) : State :=
  if s.appending hpa then s
  else (s.tableWaits.filter fun w => w.hpa == hpa).foldl State.relWaiting s

/-! ## XGATH (R363, R364) -/

/-- Data bytes of a gather's destination: its last offset (R345). -/
def Card.gatherEnd (c : Card) (f : Nat) : Int := ((c.nb : Int) - 1) * c.tStr 1 + f

/-- Lowest and highest byte of the data, after the swizzle, and of the scale area. -/
def Card.gatherSpans (c : Card) (f : Nat) : (Int × Int) × (Int × Int) :=
  let last := (c.gatherEnd f).toNat
  let top := ((List.range' (last - 128) 128).map fun y => swizzle y (c.swz % 4)).foldl max 0
  (((c.dst : Int), (c.dst : Int) + top),
   ((c.dst : Int) + c.sStr 1, (c.dst : Int) + c.sStr 1 + 4 * c.nb - 1))

/-- The conditions of a gather that depend on its table (R345). -/
def Card.gatherRefusal (c : Card) (h : THdr) (z : Nat) : Option Nat :=
  let (d, a) := c.gatherSpans h.f
  leastOf (charge 0x0A (decide (h.heads ≤ c.head)) ++ charge 0x0B (decide (1 < c.part)) ++
    charge 0x14 (c.spDst && (decide ((z : Int) ≤ d.2) || decide (a.1 < 0) || decide ((z : Int) ≤ a.2))) ++
    charge 0x1C (decide (d.1 ≤ a.2) && decide (a.1 ≤ d.2)) ++
    charge 0x28 (decide (c.tStr 1 < h.f)))

/-- The status that refuses a gather at its start (R352, R363). (Log 51, DEDUCED.) -/
def Card.gatherStatus (c : Card) (t : Table) (part z : Nat) (rd : List Region) : Option Word :=
  let p := t.pool
  if !t.h.enabled || (t.p.isSome && (!p.enabled || p.part != part)) then some (status stDenied 0)
  else if t.p.isNone || t.h.unfit p part || p.malformed then some (status stMalformed 0x0C)
  else if t.h.nseal < c.lb + c.nb then some (status stAbsent c.nb)
  else
    match c.gatherRefusal t.h z with
    | some o => some (status stMalformed o)
    | none =>
      if covered rd false (t.h.entries + 4 * c.lb) (4 * c.nb) then none else some (status stFootprint 0)

/-- Put an entry into the block translation cache: 64 entries, least recently used (R363). -/
def Core.btPut (c : Core) (e : BtEntry) : Core :=
  let rest := c.btcache.filter fun x => !(x.table == e.table && x.gen == e.gen && x.idx == e.idx)
  let rest :=
    if rest.length < 64 then rest
    else
      let v := rest.foldl (fun m x => if x.used < m then x.used else m) e.used
      rest.filter fun x => x.used != v
  { c with btcache := rest ++ [e] }

/-- The translation of a logical block: from the cache, or read and kept (R363). -/
def State.blockEntry (s : State) (w : TabWho) (t : Table) (i : Nat) : TabRes Word :=
  let table := BitVec.ofNat 64 t.va
  let gen := BitVec.ofNat 32 t.h.gen
  let s := s.tick
  match (s.core w.core).btcache.find? fun e => e.table == table && e.gen == gen && e.idx == i with
  | some e => .ok (e.word, s.modCore w.core fun c => c.btPut { e with used := s.order })
  | none =>
    match s.tabRead w (t.h.entries + 4 * i) 4 with
    | .error e => .error e
    | .ok (bs, s) =>
      let word := BitVec.ofNat 32 (leNat bs)
      .ok (word, s.modCore w.core fun c => c.btPut ⟨table, gen, i, word, s.order⟩)

def State.blockEntries (s : State) (w : TabWho) (t : Table) : List Nat → TabRes (List Word)
  | [] => .ok ([], s)
  | i :: is =>
    match s.blockEntry w t i with
    | .error e => .error e
    | .ok (e, s) =>
      match s.blockEntries w t is with
      | .error e => .error e
      | .ok (es, s) => .ok (e :: es, s)

/-- A check of a table job fails, or keeps it back. An uncorrectable error is the POISON of a gather, with a detail,
and of an XAPPK (R352, R365); a failing address is raised by the lane of XAPPK and XSEAL (R360). -/
def State.failJob (s : State) (core : Nat) (j : Job) (cause va detail : Nat) (again : Event) : State :=
  match tabWaits cause with
  | some n => (s.tabAsk cause va).schedule (s.now + n) again
  | none =>
    if cause = causePoison ∧ (j.kind = .gather ∨ j.kind = .appk) then
      s.endJob core j (status stPoison detail) (s.now + 1)
    else if j.kind = .gather then s.faultJob core j cause va
    else
      let s := s.laneFault core j.slot j.lane cause va j.pc
      (s.modCore core fun c => { c with jobs := c.jobs.filter fun i => i.id != j.id }).pokeJobs core

/-- XGATH starts (R363). -/
def State.startGather (s : State) (core : Nat) (j : Job) : State :=
  let w := s.tabWho core
  let c := j.cardOf
  let again := Event.courierJobStart core j.chan
  let ran := fun (s : State) => s.modJob core j.id fun j => { j with started := some s.now }
  match s.openTable w j.table.toNat Need.read with
  | .error (e, va) => s.failJob core j e va 0 again
  | .ok (t, s') =>
    let row := s'.courierRow core false j.table.toNat
    match c.gatherStatus t w.part (s'.teamScratch core) j.reads with
    | some st => (ran s').endJob core j st (s.now + row)
    | none =>
      match s'.blockEntries w t (List.range' c.lb c.nb) with
      | .error (e, va) => s.failJob core j e va ((va - (t.h.entries + 4 * c.lb)) / 4) again
      | .ok (es, s) =>
        let k := { j with ents := es, hpa := t.hpa, pool := t.ppa, heads := t.h.heads, dh := t.h.dh
                          base := t.pool.base, log2b := t.pool.log2b, started := some s.now }
        let at_ := s.transferTime core k
        (s.modJob core j.id fun _ => { k with next := at_ }).schedule at_ (.courierWrite core j.chan)

/-- The next transfer of a gather (R350, R364). -/
def Job.gathered (j : Job) : Transfer :=
  let c := j.cardOf
  let b := j.pos / j.perBlock
  let u := j.pos % j.perBlock
  let m := j.perBlock - 1
  let (a, n) := j.gatherSource
  let i := if u = m then m - 1 else u
  let y := fun (k : Nat) => swizzle (b * c.tStr 1 + 128 * i + k).toNat (c.swz % 4)
  let isScale := u == m - 1
  { bytes := n
    pieces := linePieces a n
    srcSp := false, dstSp := c.spDst, swz := c.swz % 4
    dsts := if isScale then (List.range 4).map fun (k : Nat) => wrapAddr (c.dst + c.sStr 1 + 4 * b + (k : Int))
            else (List.range 128).map fun (k : Nat) => wrapAddr (c.dst + (y k : Int))
    fixed := none, detail := b
    last := decide (c.nb * j.perBlock ≤ j.pos + 1) }

/-- The bytes of the block that a transfer begins lie in the read regions (R364). -/
def Job.blockInside (j : Job) : Bool :=
  let (data, scale) := j.blockAt (j.pos / j.perBlock)
  j.pos % j.perBlock != 0 || (covered j.reads false data (16 * j.dh) && covered j.reads false scale 4)

/-! ## XAPPK (R365) -/

/-- The greater of a running maximum and |x| (R365): a NaN stays. -/
def maxAbs (m : Nat) (x : Nat) : Nat :=
  let v := elemValue .bf16 x
  match elemValue .f32 m, v with
  | .nan, _ => m
  | _, .nan => f32Nan
  | y, v => if numLess y v.abs then (x % 2 ^ 15) * 65536 else m

/-- Element i of a list of two-byte values. -/
def half (bs : List Byte) (i : Nat) : Nat := lineNat bs (2 * i) 2

/-- XAPPK starts: the record is read and a slot reserved (R365). -/
def State.startAppend (s : State) (core : Nat) (j : Job) : State :=
  let w := s.tabWho core
  let again := Event.courierJobStart core j.chan
  let fail := fun (e va : Nat) =>
    if e = causePoison then s.laneFault core j.slot j.lane e va j.pc else s.failJob core j e va 0 again
  match s.openTable w j.table.toNat Need.both with
  | .error (e, va) => fail e va
  | .ok (t, s) =>
    let row := s.courierRow core false j.table.toNat
    let n := if t.h.shaped then t.h.recordLen else 0
    match s.courierReadAll core j.sp (linePieces j.src.toNat n) with
    | .poison => s.endJob core j (status stPoison 0) (s.now + row)
    | .fault c a => fail c a
    | .wait n s => s.schedule (s.now + n) again
    | .ok bs s =>
      let refuse := fun st => s.endJob core j st (s.now + row)
      if t.bad w.part then refuse (status stDenied 0)
      else if t.h.nlog = t.h.nseal then refuse (status stAbsent 0)
      else if t.h.opent = 16 then refuse (status stFull 0)
      else
        match s.tabRead w t.h.stage t.h.stageLen Need.both with
        | .error (e, va) => fail e va
        | .ok (_, s) =>
          let s := s.tblWrite w j.scope (t.hpa + 40) (leBytes 1 (t.h.opent + 1))
          let at_ := s.now + row
          (s.modJob core j.id fun j =>
            { j with hpa := t.hpa, heads := t.h.heads, dh := t.h.dh, stage := t.h.stage, record := bs
                     token := some t.h.opent, started := some s.now, next := at_ }).schedule at_
            (.courierWrite core j.chan)

/-- Bytes of a piece of the record that one transfer copies. -/
def Job.pieceLen (j : Job) : Nat := min 128 (2 * j.dh)

/-- Where piece r of the record goes in the staging area (R358). -/
def Job.pieceAt (j : Job) (r : Nat) : Nat :=
  let o := r * j.pieceLen
  j.stage + 2 * (o / (2 * j.dh) * (16 * j.dh) + j.token.getD 0 * j.dh) + o % (2 * j.dh)

/-- The running maxima after the record: one for each head of the keys, then of the values. -/
def Job.maxima (j : Job) (old : List Byte) : List Byte :=
  (List.range (2 * j.heads)).flatMap fun g =>
    leBytes 4 ((List.range j.dh).foldl (fun m d => maxAbs m (half j.record (g * j.dh + d)))
      (lineNat old (4 * g) 4))

/-- XAPPK's copies have been written: the maxima, then OK (R365). -/
def State.endAppend (s : State) (core : Nat) (j : Job) : State :=
  let w := s.tabWho core
  let a := j.stage + 4 * j.heads * (16 * j.dh)
  let res : TabRes Unit :=
    match s.tabRead w a (8 * j.heads) Need.both with
    | .error e => .error e
    | .ok (bs, s) => s.tabWrite w j.scope a (j.maxima bs)
  match res with
  | .error (e, va) => s.failJob core j e va 0 (.courierWrite core j.chan)
  | .ok (_, s) => s.endJob core j (status stOk (j.token.getD 0)) (s.now + 1)

/-- One transfer of XAPPK. -/
def State.runAppend (s : State) (core : Nat) (j : Job) : State :=
  let n := j.pieceLen
  if j.record.length ≤ j.pos * n then s.endAppend core j
  else match s.takeTokens core n with
  | none => s.modJob core j.id fun j => { j with wants := true }
  | some s' =>
    match s'.tabWrite (s'.tabWho core) j.scope (j.pieceAt j.pos) ((j.record.drop (j.pos * n)).take n) with
    | .error (e, va) => s.failJob core j e va 0 (.courierWrite core j.chan)
    | .ok (_, s) =>
      let s := s.countBytes core n
      let s := s.modJob core j.id fun j => { j with pos := j.pos + 1, next := s.now + 1 }
      if j.record.length ≤ (j.pos + 1) * n then s.endAppend core j
      else s.schedule (s.now + 1) (.courierWrite core j.chan)

/-! ## XSEAL (R366) -/

/-- A head's scale from its running maximum. -/
def sealScale (a : Nat) : Nat :=
  let floor := scaleFrac false 1 1 (-126)
  match elemValue .f32 a with
  | .nan => f32Nan
  | x => roundTo .f32 false .rne ((if numLess x floor then floor else x).div (Value.ofInt 448))

/-- A staged element under its scale. -/
def sealElem (scale x : Nat) : Byte :=
  BitVec.ofNat 8 (roundTo .e4m3 true .rne ((elemValue .bf16 x).div (elemValue .f32 scale)))

/-- The sealed block (R358, R366): st is the staging area. -/
def sealedBlock (heads dh opent : Nat) (st : List Byte) : List Byte :=
  let f := 16 * dh
  let scales := (List.range (2 * heads)).map fun g => sealScale (lineNat st (4 * heads * f + 4 * g) 4)
  ((scales.mapIdx fun g sc => (g, sc)).flatMap fun (g, sc) => (List.range f).map fun i =>
      if i / dh < opent then sealElem sc (half st (g * f + i)) else 0) ++
    scales.flatMap (leBytes 4)

/-- Status that refuses an XSEAL. -/
def Table.sealStatus (t : Table) (part : Nat) : Option Word :=
  if t.bad part then some (status stDenied 0)
  else if t.h.nlog = t.h.nseal then some (status stAbsent 0)
  else if t.h.opent = 0 then some (status stEmpty 0) else none

/-- Steps 2 to 7 of R366. (Log 52, DEDUCED.) -/
def State.sealSteps (s : State) (w : TabWho) (scope : Nat) (t : Table) : TabRes Word :=
  let h := t.h
  match s.tabRead w h.stage h.stageLen Need.both with
  | .error e => .error e
  | .ok (st, s) =>
    match s.tabRead w (h.entries + 4 * h.nseal) 4 Need.both with
    | .error e => .error e
    | .ok (en, s) =>
      let b := leNat en % 2 ^ 24
      match s.tabWrite w scope (t.pool.base + b * 2 ^ t.pool.log2b) (sealedBlock h.heads h.dh h.opent st) with
      | .error e => .error e
      | .ok (_, s) =>
        match s.tabWrite w scope (h.entries + 4 * h.nseal) (leBytes 4 (h.opent * 2 ^ 24 + b)) with
        | .error e => .error e
        | .ok (_, s) =>
          match s.clearMaxima w t with
          | .error e => .error e
          | .ok (_, s) =>
            let s := s.tblWrite w scope (t.hpa + 32) (leBytes 4 (h.nseal + 1))
            .ok (status stOk h.opent, s.tblWrite w scope (t.hpa + 40) [0])

/-- XSEAL starts, or waits at the slice for the copies into its table (R366). -/
def State.startSeal (s : State) (core : Nat) (j : Job) : State :=
  let w := s.tabWho core
  match s.openTable w j.table.toNat Need.both with
  | .error (e, va) => s.failJob core j e va 0 (.courierJobStart core j.chan)
  | .ok (t, s) =>
    if s.appending t.hpa then s
    else
      let row := s.courierRow core false j.table.toNat
      match t.sealStatus w.part with
      | some st => s.endJob core j st (s.now + row)
      | none =>
        let at_ := s.now + row
        (s.modJob core j.id fun j =>
          { j with hpa := t.hpa, heads := t.h.heads, dh := t.h.dh, started := some s.now
                   next := at_ }).schedule at_ (.courierWrite core j.chan)

/-- Bytes that XSEAL writes. -/
def Job.sealBytes (j : Job) : Nat := 2 * j.heads * (16 * j.dh) + 8 * j.heads

/-- The last transfer of XSEAL: the block, the entry and the header as one step. -/
def State.endSeal (s : State) (core : Nat) (j : Job) : State :=
  let w := s.tabWho core
  let again := Event.courierWrite core j.chan
  match s.openTable w j.table.toNat Need.both with
  | .error (e, va) => s.failJob core j e va 0 again
  | .ok (t, s) =>
    if s.appending t.hpa then s.schedule (s.now + 1) (.courierWrite core j.chan)
    else
      match t.sealStatus w.part with
      | some st => s.endJob core j st (s.now + 1)
      | none =>
        match s.sealSteps w j.scope t with
        | .error (e, va) => s.failJob core j e va 0 again
        | .ok (st, s) => s.endJob core j st (s.now + 1)

/-- One transfer of XSEAL: its tokens are taken as it goes. -/
def State.runSeal (s : State) (core : Nat) (j : Job) : State :=
  let done := 128 * j.pos
  if j.sealBytes ≤ done then s.endSeal core j
  else
    let n := min 128 (j.sealBytes - done)
    match s.takeTokens core n with
    | none => s.modJob core j.id fun j => { j with wants := true }
    | some s =>
      let s := s.countBytes core n
      let s := s.modJob core j.id fun j => { j with pos := j.pos + 1, next := s.now + 1 }
      if j.sealBytes ≤ done + n then s.endSeal core { j with pos := j.pos + 1 }
      else s.schedule (s.now + 1) (.courierWrite core j.chan)

/-! ## XAPPK and XSEAL as instructions (R365) -/

/-- The header of a table as a lane's core sees it, where it can be read. -/
def State.headerOf (s : State) (core va : Nat) : Option THdr :=
  match s.tabPa (s.tabWho core) va Need.both with
  | .ok (pa, s) => some (THdr.ofBytes (s.tblRead (.core core) pa 128))
  | .error _ => none

/-- Bytes of the record that XAPPK reads for a table. -/
def State.recordBytes (s : State) (core va : Nat) : Nat :=
  match s.headerOf core va with
  | some h => if h.shaped then h.recordLen else 0
  | none => 0

/-- A lane submits an XAPPK or XSEAL (R347, R365). -/
def State.tableJob (s : State) (x : Ctx) (k : JobKind) (l : Nat) : Submitted :=
  let table := x.value l x.f.a 2 .int
  let sp := x.f.mod.getLsbD 4
  let src := if k = .seal then 0 else x.value l x.f.b (if sp then 1 else 2) .int
  match (s.pendJob x l).tabPa (s.tabWho x.core) table Need.both with
  | .error (c, va) =>
    match tabWaits c with
    | some n => (some n, s.tabAsk c va)
    | none => (none, s.faultLane x.core x.slot l c (BitVec.ofNat 64 va) x.pc)
  | .ok (_, s) =>
    let h := (s.headerOf x.core table).getD (THdr.ofBytes [])
    let n := if h.shaped then h.recordLen else 0
    let (scope, s) := s.demote x.core (min h.tscope 7)
    let rd := if k = .appk ∧ n ≠ 0 then [lineRegion sp src (src + n - 1)] else []
    let st := if h.shaped then [lineRegion false h.stage (h.stage + h.stageLen - 1)] else []
    let s := s.publishReads x.core x.slot l scope (if k = .appk then rd else st)
    (none, s.acceptJob x.core
      { Job.zero with
        kind := k, chan := x.f.mod.toNat % 4, thread := (x.thread l).index
        slot := x.slot, lane := l, pc := x.pc, dst := x.dstReg, tag := x.tag,
        table := BitVec.ofNat 64 table, src := BitVec.ofNat 64 src, sp := sp,
        reads := if k = .appk then rd else st, writes := if k = .appk then st else [], scope := scope })

/-- XAPPK and XSEAL (R365). -/
def State.tableJobOp (s : State) (sh : Shape) (f : Fields) (k : JobKind) : State :=
  let (x, s) := s.begin sh f
  let sp := f.mod.getLsbD 4
  let lv := x.levelTraps
  let ts := lv ++ (x.without lv).filterMap fun l =>
    let t := x.value l f.a 2 .int
    let r := x.value l f.b (if sp then 1 else 2) .int
    if t % 128 ≠ 0 then some (LaneTrap.at_ l causeMisalign (BitVec.ofNat 64 t))
    else if k = .appk ∧ r % 16 ≠ 0 then some (.at_ l causeMisalign (BitVec.ofNat 64 r))
    else if k = .appk ∧ sp ∧ s.teamScratch x.core < r + s.recordBytes x.core t then
      some (.at_ l causeScratchRange (BitVec.ofNat 64 r))
    else none
  let ((left, n), s) := s.jobLanes x (fun s l => s.tableJob x k l) (x.without ts)
  (s.finishWait x ts (left.map fun l => (l, .answer)) false []).leaveLanes x left n

/-! ## The steps of a job -/

/-- The groups of a core have stopped for a save: a job not yet started is saved as it is (R353). -/
def State.saving (s : State) (core : Nat) : Bool :=
  (match s.coreTeam core with | some t => t.stopping | none => false) && (s.core core).groups.all fun g => g.2.allStopped

/-- COURIER_JOB_START (R348): the oldest job of a channel, once nothing it depends on is incomplete. -/
def State.jobStart (s : State) (core chan : Nat) : State :=
  match (s.core core).oldestOf chan with
  | none => s
  | some (before, j) =>
    if j.started.isSome || j.status.isSome || s.saving core || before.any j.dependsOn then s
    else
      match j.kind with
      | .copy | .fill => s.startStrided core j
      | .gather => s.startGather core j
      | .appk => s.startAppend core j
      | .seal => s.startSeal core j

/-- COURIER_WRITE (R350): the next transfer of the channel's running job. -/
def State.jobWrite (s : State) (core chan : Nat) : State :=
  match (s.core core).oldestOf chan with
  | none => s
  | some (_, j) =>
    if j.started.isNone || j.status.isSome || decide (s.now < j.next) then s
    else
      match j.kind with
      | .copy | .fill => s.runTransfer core j j.strided
      | .gather =>
        if j.blockInside then s.runTransfer core j j.gathered
        else s.faultJob core j causeFootprint (j.blockAt (j.pos / j.perBlock)).1
      | .appk => s.runAppend core j
      | .seal => s.runSeal core j

/-- The cores that hold an XSEAL are to look at it again. -/
def State.pokeSeals (s : State) : State :=
  s.cores.foldl (fun s (c, x) =>
    x.jobs.foldl (fun s j =>
      if j.kind == .seal then s.scheduleOnce s.now (.courierJobStart c j.chan) else s) s) s

/-- COURIER_JOB_COMPLETE (R347, R349): the job's writes are published at its scope and its status is
written, an acquire for the thread that reads it. -/
def State.jobComplete (s : State) (core chan : Nat) : State :=
  match (s.core core).oldestOf chan with
  | none => s
  | some (_, j) =>
    match j.status with
    | none => s
    | some st =>
      let d := (s.core core).sideD
      let s := s.publishWhere j.scope core fun w => w.job == j.id
      let s := match j.dst with
        | some r => s.deliverThread d.launch d.team j.thread r j.tag s.now st (some j.scope)
        | none => s
      let s := s.modCore core fun c => { c with jobs := c.jobs.filter fun i => i.id != j.id }
      let s := s.pokeJobs core
      match j.kind with
      | .gather => s.scheduleOnce s.now (.deferredBlockFree (s.corePart core))
      | .appk =>
        let s := if st.toNat % 256 = stOk then s.trackTable core j.table else s
        (s.pokeSeals).retryTable j.hpa
      | _ => s

/-! ## Meanings -/

/-- XCOPY (R346). -/
def execXcopy (f : Fields) (s : State) : Res := .next (s.cardOp (Instr.xcopy f).shape f .copy)
/-- XFILL (R346). -/
def execXfill (f : Fields) (s : State) : Res := .next (s.cardOp (Instr.xfill f).shape f .fill)
/-- XGATH (R346). -/
def execXgath (f : Fields) (s : State) : Res := .next (s.cardOp (Instr.xgath f).shape f .gather)
/-- XAPPK (R365). -/
def execXappk (f : Fields) (s : State) : Res := .next (s.tableJobOp (Instr.xappk f).shape f .appk)
/-- XSEAL (R366). -/
def execXseal (f : Fields) (s : State) : Res := .next (s.tableJobOp (Instr.xseal f).shape f .seal)
/-- XPTR (R351). -/
def execXptr (f : Fields) (s : State) : Res := .next (s.xptrOp (Instr.xptr f).shape f)
/-- BTAPP (R361). -/
def execBtapp (f : Fields) (s : State) : Res := .next (s.tableOp (Instr.btapp f).shape f false)
/-- BTREL (R361). -/
def execBtrel (f : Fields) (s : State) : Res := .next (s.tableOp (Instr.btrel f).shape f true)

/-- COURIER_JOB_START (R348). -/
def execCourierJobStart (s : State) : Res :=
  match s.event with
  | .courierJobStart core chan => .next (s.jobStart core chan)
  | _ => .next s

/-- COURIER_WRITE (R350). -/
def execCourierWrite (s : State) : Res :=
  match s.event with
  | .courierWrite core chan => .next (s.jobWrite core chan)
  | _ => .next s

/-- COURIER_JOB_COMPLETE (R349). -/
def execCourierJobComplete (s : State) : Res :=
  match s.event with
  | .courierJobComplete core chan => .next (s.jobComplete core chan)
  | _ => .next s

/-- TOKEN_REFILL (R355). -/
def execTokenRefill (s : State) : Res :=
  match s.event with
  | .tokenRefill hub => .next (s.tokenRefill hub)
  | _ => .next s

/-- DEFERRED_BLOCK_FREE (R362). -/
def execDeferredBlockFree (s : State) : Res :=
  match s.event with
  | .deferredBlockFree part => .next (s.deferredFree part)
  | .tableRetry hpa => .next (s.retryTable hpa)
  | _ => .next s

end Sys2Proof.Machine
end

