-- ==== Sys2Proof/Machine/Retire.lean ====
section
/-! DEFINITION. Fill buffers (R218), EXIT and the retirement tracker (R476 to R480), the end of teams and
launches (R127, R480), and sibling ballots (R481 to R495). -/

namespace Sys2Proof.Machine

/-! ## Fill buffers (R218) -/

/-- A bank port of a lane pair is idle in a cycle: no read and no fixed-latency write uses it. -/
def Core.portIdle (c : Core) (slot pair bank cycle : Nat) : Bool :=
  !(c.ports.any fun p => p.slot == slot && p.pair == pair && p.bank == bank && p.cycle == cycle) &&
    !(c.landings.any fun l => l.land == cycle && l.port == some (slot, pair, bank))

/-- One fill takes the idle ports that no earlier fill of the cycle has taken. -/
def Core.drainFill (c : Core) (now : Nat) (used : List (Nat × Nat × Nat)) (f : Fill) :
    List (Nat × Nat × Nat) × Fill :=
  f.banks.foldl (fun (u, g) b =>
    if !u.contains (f.slot, f.pair, b) && !g.banks.contains b && c.portIdle f.slot f.pair b now
    then ((f.slot, f.pair, b) :: u, g) else (u, { g with banks := g.banks ++ [b] }))
    (used, { f with banks := [] })

/-- The fills left after a cycle. -/
def Core.drainFills (c : Core) (now : Nat) : Core :=
  let (_, fs) := c.fills.foldl (fun (u, acc) f =>
    let (u, g) := c.drainFill now u f
    (u, acc ++ [g])) (([] : List (Nat × Nat × Nat)), ([] : List Fill))
  { c with fills := fs.filter fun f => !f.banks.isEmpty }

/-- A result enters the fill buffer: its register reads it from now on. -/
def Core.takeResult (c : Core) (v : VarResult) : Core :=
  let c := c.modThread v.slot v.lane fun t =>
    let t := (v.vals.mapIdx fun i w => (v.reg + i, w)).foldl
      (fun t (n, w) => t.landV v.tag n (BitVec.allOnes 32) w) t
    match v.acq with
    | some sc => { t with acqs := t.acqs.put v.reg (v.tag, sc) }
    | none => t
  { c with fills := c.fills ++ [⟨v.slot, v.lane / 2, (List.range v.vals.length).map fun i => (v.reg + i) % 4⟩] }

/-- A due result enters its lane pair's buffer of 4 entries, or stays on the scoreboard. -/
def Core.bringIn (c : Core) (now : Nat) (v : VarResult) : Core :=
  let due := match v.due with | some d => decide (d ≤ now) | none => false
  let n := (c.fills.filter fun f => f.slot == v.slot && f.pair == v.lane / 2).length
  if due && decide (n < 4) then c.takeResult v else { c with vres := c.vres ++ [v] }

/-- FILL_BUFFER_WRITE (R218). -/
def State.fillWrite (s : State) (core : Nat) : State :=
  let c := (s.core core).drainFills s.now
  let c := c.vres.foldl (fun c v => c.bringIn s.now v) { c with vres := [] }
  let s := s.setCore core c
  let due := c.vres.any fun v => match v.due with | some d => decide (d ≤ s.now) | none => false
  if c.fills.isEmpty && !due then s else s.scheduleOnce (s.now + 1) (.fillBufferWrite core)

/-! ## Cancelled and unfinished writes (R387, R388) -/

/-- The writes of a cancelled team: tentative ones leave coherence order, those published below PACKAGE
are published there (R387). -/
def State.dropTentative (s : State) (launch team : Nat) : State :=
  let mine := fun (w : Staged) => w.launch == launch && w.team == team
  let s := { s with staged := s.staged.filter fun w => !(mine w && w.pub.isNone) }
  s.publishWhere 5 0 mine

/-- A completed side's staged writes are published at PACKAGE (R388). -/
def State.publishSide (s : State) (core : Nat) (d : Side) : State :=
  s.publishWhere 5 core fun w => w.launch == d.launch && w.team == d.team && w.side == d.side && !w.hidden

/-! ## The end of a side, a team and a launch (R480, R127) -/

/-- The core cycles of a side's present placement are charged to its launch and its sibling (R127,
R482). -/
def State.chargeSide (s : State) (core : Nat) : State :=
  let d := (s.core core).sideD
  let n := (d.stopAt.getD s.now) - d.placed
  let s := s.modLaunch d.launch fun l => { l with cycles := l.cycles + n }
  s.modSib d.launch d.team fun x => { x with cyc := x.cyc + n }

/-- A core without a team: its tracker entries stay. -/
def Core.vacant (c : Core) : Core :=
  { c with side := none, groups := [], landings := [], vres := [], fills := [], ports := [], gport := [],
           sport := [], wc := [], jobs := [], engine := [], reading := [], fetching := [], loopReq := []
           lastPage := [] }

/-- A side leaves its core, which is offered to other work; its context slot is free (R144, R459), and the timers of
its pigeonholes run no more (R155). -/
def State.leaveCore (s : State) (core : Nat) : State :=
  let part := s.corePart core
  let timer := fun (e : Event) => match e with
    | .pigeonholeTimerExpiry c _ _ => c == core
    | _ => false
  ((s.modCore core Core.vacant).unschedule timer).pokeClusters part

/-- Nothing of the launch runs, is saved or waits to start. -/
def State.launchOver (s : State) (launch : Nat) : Bool :=
  !(s.teams.any fun t => t.launch == launch) && !(s.saved.any fun v => v.launch == launch) &&
    (s.launch launch).ranges.all fun r => r.2.2 ≤ r.2.1

def State.checkLaunch (s : State) (launch : Nat) : State :=
  if (s.launches.find launch).isSome && s.launchOver launch then
    s.scheduleOnce s.now (.launchCompletion launch) else s

/-- A team has ended. -/
def State.endTeam (s : State) (launch team : Nat) (cancelled : Bool) : State :=
  let s := s.endPreempt ((s.findTeam launch team).bind (·.forLaunch))
  let s := { s with teams := s.teams.filter fun t => !(t.launch == launch && t.index == team)
                    saved := s.saved.filter fun v => !(v.launch == launch && v.team == team) }
  let s := s.modLaunch launch fun l =>
    if cancelled then { l with cancelled := l.cancelled + 1 } else { l with completed := l.completed + 1 }
  s.checkLaunch launch

/-- The status of a launch's completion record (R127, R446). -/
def Launch.endStatus (l : Launch) : Word :=
  match l.fault with
  | none => status stOk 0
  | some f =>
    let c := f.cause.toNat
    status (if c = causePoison then stPoison else if c = causeFootprint then stFootprint else stDenied) c

/-- Packages in which a launch holds leases (R426). -/
def Launch.peers (l : Launch) : List Nat :=
  ((l.leases.filter fun x => isWindow (x.page * 65536) && x.count != 0).map fun x =>
    windowPod (x.page * 65536)).eraseDups

/-- LAUNCH_COMPLETION (R127, R128, R125, R426, R481). -/
def State.launchEnd (s : State) (launch : Nat) : State :=
  match s.launches.find launch with
  | none => s
  | some l =>
    if !s.launchOver launch then s
    else
      let s := s.complete l.part l.queue l.seq l.endStatus l.env.ctag.toNat l.cycles l.completed
        (l.env.teams - l.completed)
      let s := l.peers.foldl (fun s p =>
        let rpart := (((s.part l.part).peer p).map (·.rpart)).getD 0
        s.sendReg p (.leaseRelease (s.pkgid.toNat % 1024) l.part rpart l.queue)) s
      let s := { s with launches := s.launches.without launch
                        ballots := s.ballots.filter fun b => b.launch != launch }
      let s := s.modHub (launch / 1024) fun h =>
        { h with leasesUsed := h.leasesUsed.filter fun k => k != launch % 1024 }
      (s.retryGrants).scheduleOnce (s.now + 1) (.launchAdmission l.part)

/-! ## The ballot record (R482 to R484) -/

def State.ballotOf (s : State) (launch : Nat) : Option Ballot := s.ballots.find? fun b => b.launch == launch

def Ballot.sib (b : Ballot) (i : Nat) : Sib := b.sibs.get Sib.zero i

/-- The sibling whose counted post has a sequence number. -/
def Ballot.poster (b : Ballot) (seq : Nat) : Nat :=
  ((b.sibs.find? fun x => x.2.posted && x.2.seq == seq).map (·.1)).getD 0

/-- The used slot with the greatest count, the lowest FIRST of several; whether several share it (R484). -/
def Ballot.plurality (b : Ballot) : Option (Nat × Bool) :=
  let top := b.slots.foldl (fun m x => max m x.count) 0
  let ks := (List.range b.slots.length).filter fun k => (b.slots[k]?).any fun x => x.count == top
  let first := fun (k : Nat) => ((b.slots[k]?).map (·.first)).getD 0
  (ks.foldl (fun best k =>
    match best with
    | none => some k
    | some j => if first k < first j then some k else some j) none).map fun k => (k, decide (1 < ks.length))

/-- Every sibling has posted or completed. -/
def Ballot.settled (b : Ballot) : Bool := b.sibs.all fun x => x.2.posted || x.2.sstate == 3

/-- How an open record closes, if it does: STATE, the winning slot, and TIEBRK (R483). hit is the slot
whose COUNT has just reached Q. -/
def Ballot.closing (b : Ballot) (hit : Option Nat) : Option (Nat × Option Nat × Bool) :=
  if b.st ≠ 0 then none
  else
    match hit with
    | some k => some (1, some k, false)
    | none =>
      if !b.settled then none
      else if b.past < b.posts then
        match b.plurality with
        | some (k, tie) => some (2, some k, tie)
        | none => some (3, none, false)
      else some (3, none, false)

/-- A post is put into its slot, or overflows; the slot, and whether it overflowed (R484). -/
def Ballot.place (b : Ballot) (hash : DWord) : Ballot × Nat × Bool :=
  let n := b.posts
  let b := { b with posts := n + 1 }
  match b.slots.findIdx? fun x => x.hash == hash with
  | some k => ({ b with slots := b.slots.mapIdx fun i x =>
      if i = k then { x with count := x.count + 1 } else x }, k, false)
  | none =>
    if b.slots.length < 8 then
      ({ b with slots := b.slots ++ [⟨hash, 1, n⟩] }, b.slots.length, false)
    else ({ b with past := b.past + 1 }, 0, true)

def State.modBallot (s : State) (launch : Nat) (f : Ballot → Ballot) : State :=
  { s with ballots := s.ballots.map fun b => if b.launch = launch then f b else b }

/-! ## Cancellation (R486 to R491) -/

/-- A sibling that has retired as cancelled is charged to its partition (R491). -/
def State.chargeSibling (s : State) (launch team : Nat) : State :=
  match s.ballotOf launch with
  | none => s
  | some b =>
    let x := b.sib team
    if x.sstate ≠ 4 then s
    else s.modPart b.part fun p =>
      { p with cxcyc := p.cxcyc + BitVec.ofNat 64 x.cyc, cxbytes := p.cxbytes + BitVec.ofNat 64 x.bytes
               cxpool := p.cxpool + BitVec.ofNat 64 x.pools, cxteams := p.cxteams + 1 }

/-- The release of a table that a cancelled sibling alone tracks (R490): the state after it, and the cycles it is
put off by, for the copies into the table (R361) or for what keeps its accesses back. -/
def State.releaseTable (s : State) (b : Ballot) (team core : Nat) (table : DWord) : State × Option Nat :=
  let w : TabWho := ⟨.merged, core, b.part, b.launch⟩
  let skip := fun (s : State) => (s.modSib b.launch team fun x => { x with kvskip := true }, (none : Option Nat))
  let stops := fun (c va : Nat) =>
    match tabWaits c with | some n => (s.tabAsk c va, some n) | none => skip s
  let shared := b.sibs.any fun (i, x) => i != team && x.tables.contains table
  if shared then skip s
  else
    match s.openTable w table.toNat Need.both with
    | .error (c, va) => stops c va
    | .ok (t, s') =>
      if s'.appending t.hpa then (s, some 1)
      else
        match s'.btrel w t 0 with
        | .error (c, va) => stops c va
        | .ok (_, s') => (s', none)

/-- The tables of a cancelled sibling, one after another (R490): one that has been released is tracked no more. -/
def State.releaseTables (s : State) (launch team core : Nat) : State × Option Nat :=
  match s.ballotOf launch with
  | none => (s, none)
  | some b =>
    let x := b.sib team
    if x.sstate ≠ 4 then (s, none)
    else x.tables.foldl (fun (r : State × Option Nat) t =>
      match r.2 with
      | some _ => r
      | none =>
        let (s, n) := r.1.releaseTable b team core t
        match n with
        | some _ => (s, n)
        | none => (s.modSib launch team fun x => { x with tables := x.tables.filter fun u => u != t }, none)) (s, none)

/-- The calls of a cancelled team go on, and their replies are discarded (R468). -/
def State.dropCalls (s : State) (launch team : Nat) : State :=
  { s with parts := s.parts.map fun (p, x) =>
      (p, { x with calls := x.calls.map fun c =>
        if c.launch = launch ∧ c.team = team then { c with lanes := [] } else c }) }

/-- A saved team is discarded without restore (R486, R449), once the tables of a cancelled sibling have been
released (R490). -/
def State.discardSaved (s : State) (launch team core : Nat) : State :=
  let part := (s.launch launch).part
  match s.releaseTables launch team core with
  | (s, some n) =>
    let s := { s with saved := s.saved.filter fun v => !(v.launch == launch && v.team == team) }
    (s.modTeam launch team fun t => { t with cancel := true }).scheduleOnce (s.now + n) (.siblingRetire launch team)
  | (s, none) =>
    let s := (s.dropTentative launch team).chargeSibling launch team
    let s := s.dropCalls launch team
    (s.endTeam launch team true).pokeClusters part

/-- What the ballot unit does with a sibling that is cancelled (R486): a saved one is discarded, a placed
one has an order sent to its cores. -/
def State.orderCancel (s : State) (launch team : Nat) : State :=
  match s.findTeam launch team with
  | none => s
  | some t =>
    if t.cores.isEmpty then s.discardSaved launch team 0
    else (s.sidesOf t).foldl (fun s c =>
      s.schedule (s.now + officeTime c) (.cancelOrderArrival launch team c)) s

/-- Close a record (R483): except with no winner, every sibling but the keeper and those completed is
cancelled; those never placed never start. -/
def State.closeBallot (s : State) (launch : Nat) (hit : Option Nat) : State :=
  match s.ballotOf launch with
  | none => s
  | some b =>
    match b.closing hit with
    | none => s
    | some (st, slot, tie) =>
      let keeper := (slot.bind fun k => (b.slots[k]?).map fun x => b.poster x.first).getD 0
      let s := s.modBallot launch fun b => { b with st := st, tiebrk := tie, keeper := keeper }
      if st = 3 then s
      else
        let lost := (b.sibs.filter fun (i, x) => i != keeper && x.sstate != 3).map (·.1)
        let waiting := (b.sibs.filter fun (i, x) => i != keeper && x.sstate == 0).length
        let s := lost.foldl (fun s i => s.modSib launch i fun x => { x with sstate := 4 }) s
        let s := s.modLaunch launch fun l => { l with ranges := [] }
        let s := s.modPart b.part fun p => { p with cxteams := p.cxteams + BitVec.ofNat 64 waiting }
        lost.foldl (fun s i => s.orderCancel launch i) s

/-- A job's start is no longer to come; the engine's events are dropped (R301, R353). -/
def Core.dropWork (c : Core) : Core :=
  { c with jobs := c.jobs.filter fun j => j.started.isSome, engine := [] }

/-- A thread stands at a blocking instruction. -/
def Thread.atBlock (t : Thread) : Bool := t.blocks || t.calls

/-- Lanes of a group that an order stops at once: every thread of a Ready or Blocked group, and the
threads that stand at a blocking instruction (R487). (Log 69, DEDUCED.) -/
def Group.stopNow (g : Group) : List Nat :=
  (g.threads.filter fun (_, t) =>
    !t.exited && !t.stopped && (g.st == .ready || g.st == .blocked || t.atBlock)).map (·.1)

/-- A stop of the threads that stand still, for good: what they wait for is withdrawn (R488). -/
def State.stopStanding (s : State) (core : Nat) (all : Bool) : State :=
  (s.core core).groups.foldl (fun s (k, g) =>
    let lanes := if all then (g.threads.filter fun (_, t) => !t.exited).map (·.1) else g.stopNow
    if lanes.isEmpty then s
    else
      let s := s.withdrawSlot core k
      let s := s.modGroup core k fun g => lanes.foldl (fun g l => g.modThread l Thread.withdraw) g
      s.stopLanes core k lanes none) s

/-- A side begins to retire as cancelled; its write-combining entries are discarded (R387, R488). -/
def State.cancelSide (s : State) (launch team core : Nat) (all : Bool) : State :=
  let s := s.modTeam launch team fun t => { t with cancel := true }
  let s := s.modCore core fun c => { c.dropWork with wc := [] }
  let s := s.modSide core fun d => { d with holes := [], pressed := [] }
  let s := (s.stopStanding core all).dropCalls launch team
  s.scheduleOnce s.now (.siblingRetire launch team)

/-- The side has been placed and its groups have not come yet. -/
def State.starting (s : State) (core : Nat) : Bool :=
  s.agenda.any fun e => match e.2 with
    | .groupsReady c => c == core
    | .teamStart c => c == core
    | .teamRestore _ _ c => c == core
    | _ => false

/-- CANCEL_ORDER_ARRIVAL (R486, R487, R489). -/
def State.cancelArrival (s : State) (launch team core : Nat) : State :=
  match s.findTeam launch team with
  | none => s
  | some t =>
    if t.cores.isEmpty then s.discardSaved launch team core
    else if !(s.sidesOf t).contains core then s
    else if s.starting core || t.stopping then
      s.schedule (s.now + 1) (.cancelOrderArrival launch team core)
    else s.cancelSide launch team core false

/-- Every thread of a cancelled side has stopped; one that stops at an SBPOLL does so when the answer is back
(R493). -/
def State.sideStopped (s : State) (core : Nat) : Bool :=
  (s.core core).groups.all fun g =>
    g.2.allStopped && g.2.threads.all fun (_, t) => t.wait != .poll || decide (t.next ≤ s.now)

/-- Nothing of R479 that survives is left. -/
def State.sideQuiet (s : State) (core : Nat) : Bool :=
  let c := s.core core
  c.tracker.isEmpty && c.jobs.isEmpty && c.landings.all (fun l => l.land ≤ s.now) &&
    !(s.held.any fun h => h.core == core && !h.op.isLoad) &&
    !(s.tableWaits.any fun w => w.core == core) &&
    c.groups.all fun g => g.2.threads.all fun (_, t) =>
      t.storesDone ≤ s.now && t.pubDone ≤ s.now && t.pubs.isEmpty && t.workDone ≤ s.now

/-- A side whose threads have all stopped is charged for its cycles up to that stop (R482). -/
def State.chargeStop (s : State) (core : Nat) : State :=
  if s.sideStopped core && (s.core core).sideD.stopAt.isNone then
    (s.modSide core fun d => { d with stopAt := some s.now }).chargeSide core
  else s

/-- SIBLING_RETIRE (R387, R488, R490, R491): a cancelled team retires once its stopped threads' work has
drained. -/
def State.retireTeam (s : State) (launch team : Nat) : State :=
  match s.findTeam launch team with
  | none => s
  | some t =>
    let cs := s.sidesOf t
    let again := fun (s : State) n => s.scheduleOnce (s.now + n) (.siblingRetire launch team)
    if !t.cancel then s
    else if t.cores.isEmpty then s.discardSaved launch team 0
    else
      let s := cs.foldl State.chargeStop s
      if cs.isEmpty || !(cs.all s.sideStopped) then s
      else if !(cs.all s.sideQuiet) then again s 1
      else
        match s.releaseTables launch team (cs.headD 0) with
        | (s, some n) => again s n
        | (s, none) =>
          let s := (s.dropTentative launch team).chargeSibling launch team
          let s := { s with held := s.held.filter fun h => !cs.contains h.core }
          let s := cs.foldl State.leaveCore s
          s.endTeam launch team true

/-! ## A side completes (R480) -/

/-- No thread, record, saved group or tracker entry of the side is left. -/
def State.sideDone (s : State) (core : Nat) : Bool :=
  let c := s.core core
  let d := c.sideD
  c.side.isSome && c.groups.isEmpty && d.pressed.isEmpty && (d.holes.all fun h => h.2.recs.isEmpty) &&
    c.tracker.isEmpty && !(s.starting core)

/-- TEAM_SIDE_COMPLETE (R480, R388, R483). (Log 54, DEDUCED.) -/
def State.sideComplete (s : State) (core : Nat) : State :=
  match s.coreTeam core, s.sideDone core with
  | some t, true =>
    let d := (s.core core).sideD
    let s := (s.publishSide core d).chargeSide core
    let s := s.modTeam t.launch t.index fun t => { t with doneSides := insertNat d.side t.doneSides }
    let s := s.leaveCore core
    if t.doneSides.length + 1 < t.cores.length then s
    else
      let lost := (s.ballotOf t.launch).any fun b => (b.sib t.index).sstate == 4
      let s := if lost then s.chargeSibling t.launch t.index
        else s.modSib t.launch t.index fun x => { x with sstate := 3 }
      (s.closeBallot t.launch none).endTeam t.launch t.index lost
  | _, _ => s

/-! ## EXIT (R477) -/

/-- The thread's outstanding work goes to its group's tracker entry (R478). -/
def State.track (s : State) (core slot : Nat) (t : Thread) : State :=
  let c := s.core core
  let born := (c.group slot).born
  let done := max t.storesDone (max t.pubDone t.workDone)
  let wc := (c.wc.filter fun e => e.makers.contains t.index).map (·.id)
  match c.tracker.find? fun e => e.slot == slot && e.born == born with
  | some e =>
    s.setCore core { c with tracker := c.tracker.map fun x =>
      if x.id = e.id then { x with threads := insertNat t.index x.threads, wc := x.wc ++ wc
                                   done := max x.done done } else x }
  | none =>
    let id := ((List.range 8).find? fun i => !(c.tracker.any fun e => e.id == i)).getD 0
    (s.setCore core { c with tracker := c.tracker ++ [⟨id, slot, born, [t.index], wc, done⟩] }).schedule
      (s.now + 1) (.trackerEntryDrain core id)

/-- An exited thread keeps no register, level or predicate (R477). -/
def Thread.exit (t : Thread) (ctx : Nat) : Thread :=
  { t with exited := true, v := [], lv := Level.empty ctx, shadow := Level.empty ctx, p := 0, wait := .none
           await := none, pendv := [], acqs := [] }

/-- One active lane exits. -/
def State.exitLane (s : State) (x : Ctx) (scope l : Nat) : State :=
  let work := s.leavesWork x.core x.slot l
  let d := (s.core x.core).sideD
  let pub := s.hasPhase x.core x.slot l || (decide (6 ≤ scope) && !(s.core x.core).wc.isEmpty)
  let s := if pub then s.publishPhase x.core x.slot l scope else s
  let t := s.thread x.core x.slot l
  let s := (List.range 16).foldl (fun s k => s.leaveConv d.launch d.team t.index k) s
  let s := if work then s.track x.core x.slot t else s
  let s := s.tick
  let k := s.order
  let s := { s with held := s.held.filter fun h =>
    !(h.core == x.core && h.slot == x.slot && h.lane == l && h.op.isLoad) }
  s.modCore x.core fun c =>
    { c.modThread x.slot l fun t => t.exit k with
      vres := c.vres.filter fun v => !(v.slot == x.slot && v.lane == l)
      landings := c.landings.filter fun w => !(w.slot == x.slot && w.lane == l &&
        (match w.op with | .g _ _ => false | .group _ => false | _ => true)) }

/-- Barriers of the whole live team whose arrivals now suffice complete (R413). -/
def State.recheckBarriers (s : State) (launch team : Nat) : State :=
  (List.range 8).foldl (fun s b =>
    match s.findTeam launch team with
    | none => s
    | some t =>
      let x := t.barrier (BitVec.ofNat 3 b)
      if x.n = 0 ∧ x.arr ≠ 0 ∧ x.full (s.teamLive t).length then s.putBarrier t (BitVec.ofNat 3 b) x else s) s

/-- A group whose threads have all exited frees its slot (R146, R477). -/
def State.freeSlot (s : State) (core slot : Nat) : State :=
  let w := ((s.core core).group slot).width
  let s := s.modCore core fun c =>
    { c with groups := c.groups.without slot, landings := c.landings.filter fun l => l.slot != slot
             vres := c.vres.filter fun v => v.slot != slot, fills := c.fills.filter fun f => f.slot != slot
             ports := c.ports.filter fun p => p.slot != slot
             lastPage := c.lastPage.filter fun r => r.1 / 64 != slot }
  let s := s.scheduleOnce (s.now + 1) (.activeSetEntry core (domainOf w slot))
  s.pokeRoom core (s.now + 1)

/-- The exit scope of a launch as executed; a team's demotion is counted once (R370). -/
def State.exitScope (s : State) (core : Nat) : Nat × State :=
  let l := s.coreLaunch core
  let counted := (s.coreTeam core).any (·.exitDemoted)
  if l.env.exitScope ≤ l.ceil then (l.env.exitScope, s)
  else if counted then (l.ceil, s)
  else (l.ceil, (s.modCoreTeam core fun t => { t with exitDemoted := true }).countDemoted l.part true)

/-- EXIT (R477). -/
def State.exitOp (s : State) (sh : Shape) (f : Fields) : State :=
  let (x, s) := s.begin sh f
  if x.actives.isEmpty then s.finish x [] []
  else
    let d := (s.core x.core).sideD
    let s := s.finish x [] []
    let (scope, s) := s.exitScope x.core
    let s := x.actives.foldl (fun s l => s.exitLane x scope l) s
    let s := s.recheckBarriers d.launch d.team
    let g := (s.core x.core).group x.slot
    if g.threads.all fun (_, t) => t.exited then
      (s.freeSlot x.core x.slot).scheduleOnce s.now (.teamSideComplete x.core)
    else
      let clears := g.threads.map fun (l, _) => x.landing x.e l (.clear x.tag)
      let s := (s.addLandings x.core clears).pokeRoom x.core (s.now + 1)
      if g.allStopped then s.stopLanes x.core x.slot [] none
      else if g.isHeld then s.addLandings x.core [x.landing x.e 0 (.group .blocked)] else s

/-! ## The tracker drains (R478, R479) -/

/-- What is left of an entry's work. -/
def State.entryBusy (s : State) (core : Nat) (e : TrackEntry) : Bool :=
  let c := s.core core
  let mine := e.threads.contains
  decide (s.now < e.done) ||
    (s.held.any fun h => h.core == core && h.slot == e.slot && mine h.thread && !h.op.isLoad) ||
    (c.jobs.any fun j => mine j.thread) ||
    (e.threads.any fun i => s.engineWrites core i) ||
    (c.wc.any fun w => e.wc.contains w.id) || (s.tableWaits.any fun w => w.core == core && mine w.thread) ||
    (s.pinOps.any fun o => o.kind != .hint && o.left.isNone && o.launch == c.sideD.launch && o.team == c.sideD.team &&
      mine o.thread) ||
    s.poolOps.any fun o => !o.posted && o.launch == c.sideD.launch && o.team == c.sideD.team && mine o.thread

/-- TRACKER_ENTRY_DRAIN (R478). -/
def State.trackerDrain (s : State) (core id : Nat) : State :=
  match (s.core core).tracker.find? fun e => e.id == id with
  | none => s
  | some e =>
    if s.entryBusy core e then s.schedule (max (s.now + 1) e.done) (.trackerEntryDrain core id)
    else
      (s.modCore core fun c => { c with tracker := c.tracker.filter fun x => x.id != id }).scheduleOnce s.now
        (if (s.core core).side.isSome then .teamSideComplete core else .clusterHandout (pkgCluster core))

/-! ## SBPOST, SBPOLL and SBREAD -/

/-- Cycles of an access to the ballot unit of hub 0 (R21, R22). -/
def ballotTime (core : Nat) : Nat := Config.rowHubOp + crossing (hubOfCore core) 0

/-- A post at the record (R485). -/
def State.post (s : State) (core : Nat) (hash : DWord) : Word × State :=
  let d := (s.core core).sideD
  match s.ballotOf d.launch with
  | none => (status stDenied 0, s)
  | some b =>
    let x := b.sib d.team
    if x.posted then (x.st, s)
    else if b.st ≠ 0 then (status stCancelled 0, s)
    else
      let n := b.posts
      let (b', k, past) := b.place hash
      let hit := if past then none else
        (b'.slots[k]?).bind fun y => if b.q ≤ y.count then some k else none
      let s := s.modBallot d.launch fun _ => b'
      let s := s.modSib d.launch d.team fun x =>
        { x with posted := true, seq := n, slot := k, overpost := past }
      let s := s.closeBallot d.launch hit
      let c := (s.ballotOf d.launch).getD b'
      let closed := c.st != 0
      let keeper := (c.st == 1 || c.st == 2) && c.keeper == d.team
      let st := status stOk (n + 64 * k + 512 * past.toNat + 1024 * closed.toNat + 2048 * keeper.toNat)
      (st, s.modSib d.launch d.team fun x => { x with st := st })

/-- Deliver one result to every active lane. -/
def State.deliverAll (s : State) (x : Ctx) (lanes : List Nat) (due : Nat) (vals : List Word) : State :=
  lanes.foldl (fun s l => s.deliver x.core x.slot l x.tag due vals) s

/-- SBPOST (R485). -/
def State.sbpostOp (s : State) (sh : Shape) (f : Fields) : State :=
  let (x, s) := s.begin sh f
  let lv := x.levelTraps
  let ok := x.without lv
  let s := s.finish x lv []
  match ok with
  | [] => s
  | l :: _ =>
    let s := ok.foldl (fun s l => s.pend x.core x.slot l f.dst 1 x.tag false) s
    let (st, s) := s.post x.core (BitVec.ofNat 64 (x.value l f.a 2 .int))
    s.deliverAll x ok (x.e + ballotTime x.core) [st]

/-- The detail of SBPOLL (R493). -/
def Ballot.pollDetail (b : Ballot) (team : Nat) : Nat :=
  b.st + 4 * (b.sib team).posted.toNat + 8 * ((b.st == 1 || b.st == 2) && b.keeper == team).toNat +
    16 * b.tiebrk.toNat + 32 * (if b.st = 0 then 0 else b.keeper)

/-- SBPOLL (R492, R493): the threads are held until the answer is back; a cancelled team's threads stop
at it. -/
def State.sbpollOp (s : State) (sh : Shape) (f : Fields) : State :=
  let (x, s) := s.begin sh f
  let ok := x.actives
  let d := (s.core x.core).sideD
  let due := x.e + ballotTime x.core
  match s.ballotOf d.launch with
  | some b =>
    if (b.sib d.team).sstate = 4 then
      let s := (s.finishWait x [] (ok.map fun l => (l, .poll)) false [])
      let s := s.modGroup x.core x.slot fun g => ok.foldl (fun g l => g.modThread l fun t =>
        { t.withdraw with stopped := true, wait := .poll, next := max t.next due }) g
      s.scheduleOnce due (.siblingRetire d.launch d.team)
    else
      let s := s.finish x [] []
      let s := ok.foldl (fun s l => s.pend x.core x.slot l f.dst 1 x.tag false) s
      let s := s.deliverAll x ok due [status stOk (b.pollDetail d.team)]
      s.modGroup x.core x.slot fun g => ok.foldl (fun g l => g.modThread l fun t =>
        { t with next := max t.next due }) g
  | none =>
    let s := s.finish x [] []
    let s := ok.foldl (fun s l => s.pend x.core x.slot l f.dst 1 x.tag false) s
    let s := s.deliverAll x ok due [status stDenied 0]
    s.modGroup x.core x.slot fun g => ok.foldl (fun g l => g.modThread l fun t =>
      { t with next := max t.next due }) g

/-- What SBREAD reads of a record: the 64-bit value and the word; nothing where SEL names nothing
(R494). -/
def Ballot.read (b : Ballot) (sel : Nat) : Option (DWord × Word) :=
  let won := b.st == 1 || b.st == 2
  if sel = 0 then
    let hash := ((b.slots[(b.sib b.keeper).slot]?).map (·.hash)).getD 0
    some (if won then hash else 0, BitVec.ofNat 32
      (b.st + 4 * b.tiebrk.toNat + 16 * b.keeper + 1024 * b.posts + 2 ^ 17 * b.past + 2 ^ 24 * b.n))
  else if sel ≤ b.n then
    let x := b.sib (sel - 1)
    some (BitVec.ofNat 64 x.cyc, BitVec.ofNat 32
      (x.sstate + 8 * x.posted.toNat + 16 * (won && b.keeper == sel - 1).toNat + 32 * x.seq + 2048 * x.slot +
        2 ^ 14 * x.overpost.toNat + 2 ^ 15 * x.kvskip.toNat))
  else if 0x41 ≤ sel ∧ sel ≤ 0x48 then
    match b.slots[sel - 0x41]? with
    | some y => some (y.hash, BitVec.ofNat 32 (y.count + 128 * y.first + 8192))
    | none => some (0, 0)
  else none

/-- The four words of SBREAD. -/
def readWords (st : Word) (v : DWord) (w : Word) : List Word :=
  st :: natWords 2 v.toNat ++ [w]

/-- A read of a record of this package by key for a partition (R494, R495). -/
def State.readBallot (s : State) (part : Nat) (key : DWord) (sel : Nat) : Word × DWord × Word :=
  match s.ballots.find? fun b => b.part == part && b.key == key with
  | none => (status stAbsent 0, 0, 0)
  | some b =>
    match b.read sel with
    | some (v, w) => (status stOk 0, v, w)
    | none => (status stMalformed 1, 0, 0)

/-- A local SBREAD (R494). -/
def State.readLocal (s : State) (core : Nat) (key : DWord) (sel : Nat) : Word × DWord × Word :=
  let d := (s.core core).sideD
  if key = 0 then
    match s.ballotOf d.launch with
    | none => (status stDenied 0, 0, 0)
    | some b =>
      match b.read sel with
      | some (v, w) => (status stOk 0, v, w)
      | none => (status stMalformed 1, 0, 0)
  else s.readBallot (s.corePart core) key sel

/-- A remote SBREAD is checked and sent (R495). -/
def State.readRemote (s : State) (x : Ctx) (lanes : List Nat) (key : DWord) (pod sel : Nat) : State :=
  let part := s.corePart x.core
  let due := x.e + ballotTime x.core
  let self := pod == s.pkgid.toNat % 1024
  if key = 0 ∨ self then s.deliverAll x lanes due (readWords (status stMalformed 1) 0 0)
  else if !s.peerOk part pod Need.read then s.deliverAll x lanes due (readWords (status stDenied 0) 0 0)
  else
    let s := s.tick
    let rpart := (((s.part part).peer pod).map (·.rpart)).getD 0
    let c : BallotCall := { id := s.order, core := x.core, slot := x.slot, lanes := lanes, tag := x.tag }
    let s : State := { s with ballotCalls := s.ballotCalls ++ [c] }
    s.sendReg pod (.ballotRead (s.pkgid.toNat % 1024) part rpart key sel s.order)

/-- SBREAD (R494). -/
def State.sbreadOp (s : State) (sh : Shape) (f : Fields) : State :=
  let (x, s) := s.begin sh f
  let lv := x.levelTraps
  let ok := x.without lv
  let s := s.finish x lv []
  match ok with
  | [] => s
  | l :: _ =>
    let key := BitVec.ofNat 64 (x.value l f.a 2 .int)
    let w := x.value l f.b 1 .int
    let s := ok.foldl (fun s l => s.pend x.core x.slot l f.dst 4 x.tag false) s
    let due := x.e + ballotTime x.core
    if w / 2 ^ 19 ≠ 0 then s.deliverAll x ok due (readWords (status stMalformed 1) 0 0)
    else if w.testBit 8 then s.readRemote x ok key (w / 512 % 1024) (w % 256)
    else
      let (st, v, r) := s.readLocal x.core key (w % 256)
      s.deliverAll x ok due (readWords st v r)

/-! ## Meanings -/

/-- EXIT (R477). -/
def execExit (f : Fields) (s : State) : Res := .next (s.exitOp (Instr.exit f).shape f)
/-- SBPOST (R485). -/
def execSbpost (f : Fields) (s : State) : Res := .next (s.sbpostOp (Instr.sbpost f).shape f)
/-- SBPOLL (R493). -/
def execSbpoll (f : Fields) (s : State) : Res := .next (s.sbpollOp (Instr.sbpoll f).shape f)
/-- SBREAD (R494). -/
def execSbread (f : Fields) (s : State) : Res := .next (s.sbreadOp (Instr.sbread f).shape f)

/-- FILL_BUFFER_WRITE (R218). -/
def execFillBufferWrite (s : State) : Res :=
  match s.event with
  | .fillBufferWrite core => .next (s.fillWrite core)
  | _ => .next s

/-- TRACKER_ENTRY_DRAIN (R478). -/
def execTrackerEntryDrain (s : State) : Res :=
  match s.event with
  | .trackerEntryDrain core id => .next (s.trackerDrain core id)
  | _ => .next s

/-- TEAM_SIDE_COMPLETE (R480). -/
def execTeamSideComplete (s : State) : Res :=
  match s.event with
  | .teamSideComplete core => .next (s.sideComplete core)
  | _ => .next s

/-- LAUNCH_COMPLETION (R127). -/
def execLaunchCompletion (s : State) : Res :=
  match s.event with
  | .launchCompletion launch => .next (s.launchEnd launch)
  | _ => .next s

/-- CANCEL_ORDER_ARRIVAL (R487). -/
def execCancelOrderArrival (s : State) : Res :=
  match s.event with
  | .cancelOrderArrival launch team core => .next (s.cancelArrival launch team core)
  | _ => .next s

/-- SIBLING_RETIRE (R488). -/
def execSiblingRetire (s : State) : Res :=
  match s.event with
  | .siblingRetire launch team => .next (s.retireTeam launch team)
  | _ => .next s

end Sys2Proof.Machine
end

