-- ==== Sys2Proof/Machine/Faults.lean ====
section
/-! DEFINITION. Faults on their way (R449, R450): a terminal fault at the sorting office and the stop it
sends, the replay of held accesses, and the fault rings (R451 to R453). -/

namespace Sys2Proof.Machine

/-! ## The rings (R451 to R453) -/

/-- A ring record without its SEQ (R452). -/
def ringRecord (kind : Nat) (cause : Byte) (flags leaseid : Nat) (addr pc : DWord) (core slot lane : Nat) :
    List Byte :=
  leBytes 1 kind ++ [cause] ++ leBytes 2 flags ++ leBytes 4 leaseid ++ leBytes 8 addr.toNat ++
    leBytes 8 pc.toNat ++ leBytes 2 core ++ leBytes 1 slot ++ leBytes 1 lane

/-- The ring of a partition: 0 retryable, 1 terminal. -/
def Part.ring (p : Part) (k : Nat) : Ring := if k = 0 then p.ring0 else p.ring1
def Part.setRing (p : Part) (k : Nat) (r : Ring) : Part :=
  if k = 0 then { p with ring0 := r } else { p with ring1 := r }

/-- TAIL − HEAD = 2^LOG2N. -/
def Ring.full (r : Ring) : Bool := decide (2 ^ r.log2n ≤ ((r.posted.setWidth 16) - r.head).toNat)

/-- A record is dropped: LOST rises, saturating (R451). -/
def Ring.lose (r : Ring) : Ring := { r with lost := if r.lost = 0xFFFF then r.lost else r.lost + 1 }

/-- The cycle of the reporting port's next slot (R453). -/
def portSlot (now : Nat) : Nat := (now + 3) / 4 * 4

/-- A hub takes a record of a partition for a ring: 64 wait at most (R451, R453). A disabled ring takes
none. (Log 56, DEDUCED.) -/
def State.addRecord (s : State) (hub part ring : Nat) (bs : List Byte) : State :=
  if ((s.part part).ring ring).base = 0 then s
  else
    let n := ((s.hub hub).records.filter fun r => r.1 == part && r.2.1 == ring).length
    if 64 ≤ n then s.modPart part fun p => p.setRing ring (p.ring ring).lose
    else
      (s.modHub hub fun h => { h with records := h.records ++ [(part, ring, bs)] }).scheduleOnce
        (portSlot s.now) (.ringRecordPost hub)

/-- The unposted records of a hub whose ring has room, terminal ring first within a partition. -/
def State.postable (s : State) (hub : Nat) : List (Nat × Nat × List Byte) :=
  let ok := (s.hub hub).records.filter fun r => !((s.part r.1).ring r.2.1).full
  (ok.filter fun r => r.2.1 == 1) ++ ok.filter fun r => r.2.1 != 1

/-- The partition that the port serves: the present one until it has posted RPWGT records in the round,
then the next that has records (R453). -/
def State.portTurn (s : State) (hub : Nat) (ps : List Nat) : Option Nat :=
  let h := s.hub hub
  if ps.contains h.portPart ∧ h.portCount < (s.part h.portPart).rpwgt then some h.portPart
  else
    let after := ps.filter fun p => decide (h.portPart < p)
    match leastOf after with
    | some p => some p
    | none => leastOf ps

/-- The physical address of a guest physical address that the part itself writes, whose leaf gets A and D (R159). -/
def State.guestPa (s : State) (part gpa : Nat) : Option (Nat × State) :=
  match s.walkG part gpa with
  | .ok l => some (l.addr gpa, s.setPte l.pteAddr l.pte (2 ^ 6 + 2 ^ 7))
  | .error _ => none

/-- Write a record into its ring with its SEQ, as one publication (R452). -/
def State.postRecord (s : State) (part ring : Nat) (bs : List Byte) : State :=
  let r := (s.part part).ring ring
  let gpa := r.base.toNat + 32 * (r.posted.toNat % 2 ^ r.log2n)
  match s.guestPa part gpa with
  | none => s.modPart part fun p => p.setRing ring r.lose
  | some (pa, s) =>
    (s.agentWrite pa (bs ++ leBytes 4 r.posted.toNat)).modPart part fun p =>
      p.setRing ring { r with posted := r.posted + 1 }

/-- Remove the first record equal to one. -/
def dropRecord (r : Nat × Nat × List Byte) : List (Nat × Nat × List Byte) → List (Nat × Nat × List Byte)
  | [] => []
  | x :: t => if x = r then t else x :: dropRecord r t

/-- RING_RECORD_POST (R453): one record, and the next four cycles later. -/
def State.ringPost (s : State) (hub : Nat) : State :=
  let rs := s.postable hub
  match s.portTurn hub (rs.map (·.1)) with
  | none => s
  | some p =>
    match rs.find? fun r => r.1 == p with
    | none => s
    | some r =>
      let s := s.modHub hub fun h =>
        { h with records := dropRecord r h.records, portPart := p
                 portCount := if p = h.portPart ∧ h.portCount < (s.part p).rpwgt
                   then h.portCount + 1 else 1 }
      let s := s.postRecord r.1 r.2.1 r.2.2
      if (s.hub hub).records.isEmpty then s else s.scheduleOnce (portSlot s.now + 4) (.ringRecordPost hub)

/-! ## Terminal faults (R449) -/

/-- The record of a terminal fault. -/
def faultBytes (r : FaultRec) (leaseid : Nat) : List Byte :=
  ringRecord 2 r.cause r.flags.toNat leaseid r.addr r.pc r.core.toNat r.slot.toNat r.lane.toNat

/-- TERMINAL_FAULT_ARRIVAL (R449): the first fault of a launch ends it. -/
def State.faultArrival (s : State) (launch : Nat) (r : FaultRec) : State :=
  match s.launches.find launch with
  | none => s
  | some l =>
    if l.fault.isSome then s
    else
      let s := s.modLaunch launch fun l => { l with fault := some r, ranges := [] }
      let s := s.addRecord 0 l.part 1 (faultBytes r launch)
      let s := s.modBallot launch fun b => if b.st = 0 then { b with st := 3 } else b
      let mine := s.teams.filter fun t => t.launch == launch
      let s := mine.foldl (fun s t =>
        if t.cores.isEmpty then s.discardSaved launch t.index 0
        else (s.sidesOf t).foldl (fun s c =>
          s.schedule (s.now + officeTime c) (.launchStopArrival launch c)) s) s
      s.checkLaunch launch

/-- LAUNCH_STOP_ARRIVAL (R449): every thread of the launch on the core stops. -/
def State.stopArrival (s : State) (launch core : Nat) : State :=
  match (s.core core).side with
  | none => s
  | some d =>
    if d.launch ≠ launch then s
    else if s.starting core then s.schedule (s.now + 1) (.launchStopArrival launch core)
    else s.cancelSide launch d.team core true

/-! ## Replays (R450) -/

/-- A held access posts a record at its 64th replay and at every 1,024th after it. -/
def replayPosts (n : Nat) : Bool := decide (64 ≤ n) && (n - 64) % 1024 == 0

/-- The record of a held access. -/
def Held.bytes (h : Held) : List Byte :=
  ringRecord 1 (BitVec.ofNat 8 h.cause) 0 h.launch h.va h.pc h.core h.slot h.lane

/-- Count a replay, and report it. -/
def State.countReplay (s : State) (hub : Nat) (h : Held) : State :=
  let n := h.replays + 1
  let s := { s with held := s.held.map fun (x : Held) => if x.id = h.id then { x with replays := n } else x }
  if replayPosts n then s.addRecord hub (s.launch h.launch).part 0 h.bytes else s

/-- A held access stays held for a cause: in a hub's window, or to be replayed. -/
def State.rehold (s : State) (h : Held) (cause : Nat) (win : Option Nat) : State :=
  let s := { s with held := s.held.map fun (x : Held) =>
    if x.id = h.id then { x with cause := cause, win := win } else x }
  s.replayLater h cause win

/-- Replay a held access. -/
def State.replay (s : State) (hub id : Nat) : State :=
  match s.held.find? fun h => h.id == id with
  | none => s
  | some h =>
    if h.win.isSome then s
    else
      let s := if h.cause = 0 then s else s.countReplay hub h
      match s.keptBack h id with
      | none => s.release h
      | some (cause, win) =>
        let s := if cause = causeHandover then s.askHandover h.pa else s
        s.rehold h cause win

/-- MIG_WINDOW_REPLAY: as soon as the window has room for the partition (R450). -/
def State.migReplay (s : State) (hub id : Nat) : State :=
  match s.held.find? fun h => h.id == id with
  | none => s
  | some h =>
    let stalled := match s.routeWrite h.pa with | .stall _ => true | .at_ _ => false
    if stalled && !s.windowRoom hub (s.launch h.launch).part then
      s.schedule (s.now + 1) (.migWindowReplay hub id)
    else s.replay hub id

/-- HANDOVER_REPLAY: at the page's hub (R168, R450). -/
def State.handoverReplay (s : State) (page id : Nat) : State := s.replay (page % 3) id

/-- A write that waits for a staging line is tried again (R386). -/
def State.stagingRetry (s : State) (core id : Nat) : State := s.replay (hubOfCore core) id

/-! ## Meanings -/

/-- TERMINAL_FAULT_ARRIVAL (R449). -/
def execTerminalFaultArrival (s : State) : Res :=
  match s.event with
  | .terminalFaultArrival launch r => .next (s.faultArrival launch r)
  | _ => .next s

/-- LAUNCH_STOP_ARRIVAL (R449). -/
def execLaunchStopArrival (s : State) : Res :=
  match s.event with
  | .launchStopArrival launch core => .next (s.stopArrival launch core)
  | _ => .next s

/-- MIG_WINDOW_REPLAY (R450). -/
def execMigWindowReplay (s : State) : Res :=
  match s.event with
  | .migWindowReplay hub id => .next (s.migReplay hub id)
  | _ => .next s

/-- HANDOVER_REPLAY (R450). -/
def execHandoverReplay (s : State) : Res :=
  match s.event with
  | .handoverReplay page id => .next (s.handoverReplay page id)
  | _ => .next s

/-- RING_RECORD_POST (R453). -/
def execRingRecordPost (s : State) : Res :=
  match s.event with
  | .ringRecordPost hub => .next (s.ringPost hub)
  | _ => .next s

end Sys2Proof.Machine
end

