-- ==== Sys2Proof/Machine/Save.lean ====
section
/-! DEFINITION. Pre-emption (R455 to R462): the request, its deferral, the forced save, saving a team and
restoring it. The bytes of a context slot (R460) are kept as the fields they hold. -/

namespace Sys2Proof.Machine

/-! ## Stopping a team (R455, R457) -/

/-- The thread's wait lets it be saved: nothing it waits for is on its way inside the package. (Log 57, DEDUCED.) -/
def Thread.savable (t : Thread) : Bool :=
  match t.wait with
  | .answer | .held _ | .poll | .engine => false
  | _ => true

/-- Lanes that stop where they stand: under a forced save every thread, else those of R455. -/
def Group.stopsNow (g : Group) (forced : Bool) : List Nat :=
  let lanes := if forced then
      (g.threads.filter fun (_, t) => !t.exited && !t.stopped).map (·.1)
    else g.stopNow
  lanes.filter fun l => (g.thread l).savable

/-- Stop the threads of a core's side that stand still. A thread that stops at a safe point is vacated by
its entry, except under a forced save (R229, R457). -/
def State.stopIdle (s : State) (core : Nat) (forced : Bool) : State :=
  (s.core core).groups.foldl (fun s (k, g) =>
    let lanes := g.stopsNow forced
    if lanes.isEmpty then s
    else
      let s := s.withdrawSlot core k
      lanes.foldl (fun s l =>
        let pc := (s.thread core k l).pc
        s.stopLanes core k [l] (if forced then none else (s.coreLaunch core).safePoint pc)) s) s

/-- The request proceeds: threads stop from now on (R455). -/
def State.proceed (s : State) (launch team : Nat) (forced : Bool) : State :=
  (s.modTeam launch team fun t => { t with stopping := true, forced := forced }).scheduleOnce s.now
    (.teamSave launch team)

/-- A barrier of the team is partly arrived (R456). -/
def Team.partly (t : Team) : Bool := t.barriers.any fun b => b.2.arr != 0

/-- PREEMPTION_REQUEST (R455, R456). -/
def State.preemptRequest (s : State) (launch team : Nat) : State :=
  match s.findTeam launch team with
  | none => s
  | some t =>
    if t.cores.isEmpty ∨ t.preempt.isSome ∨ t.cancel then s
    else
      let s := s.modTeam launch team fun t => { t with preempt := some s.now }
      if t.partly then
        (s.schedule (s.now + 1) (.deferralEnd launch team)).schedule (s.now + 65536)
          (.forcedSave launch team)
      else s.proceed launch team false

/-- DEFERRAL_END (R456): the request is looked at again in each cycle. -/
def State.deferralEnd (s : State) (launch team : Nat) : State :=
  match s.findTeam launch team with
  | none => s
  | some t =>
    if t.preempt.isNone ∨ t.stopping ∨ t.cancel then s
    else if t.partly then s.schedule (s.now + 1) (.deferralEnd launch team)
    else s.proceed launch team false

/-- FORCED_SAVE (R456, R457): the deferral has lasted 65,536 cycles. -/
def State.forcedSave (s : State) (launch team : Nat) : State :=
  match s.findTeam launch team with
  | none => s
  | some t =>
    match t.preempt with
    | some at_ =>
      if t.stopping ∨ t.cancel ∨ s.now < at_ + 65536 then s else s.proceed launch team true
    | none => s

/-! ## The save (R458 to R461) -/

/-- A message of the core is on its way to the side 0 core or back. -/
def State.arriving (s : State) (core : Nat) : Bool :=
  s.agenda.any fun e => match e.2 with
    | .barrierArrival c _ _ _ _ _ => c == core
    | .barrierWake c _ => c == core
    | .cdeclEffect c _ _ _ _ => c == core
    | .signatureArrival c _ _ _ _ => c == core
    | .matrixStatusWrite c _ => c == core
    | _ => false

/-- The status of a job that the save keeps unstarted (R353). -/
def Core.jobKept (c : Core) (v : VarResult) : Bool :=
  c.jobs.any fun j => j.started.isNone && j.tag == v.tag && j.dst == some v.reg

/-- Everything that a save waits for has been performed and delivered (R458, R301, R353). -/
def State.savedUp (s : State) (core : Nat) : Bool :=
  let c := s.core core
  (c.groups.all fun g => g.2.allStopped) && c.reading.isEmpty && (c.landings.all fun l => l.land ≤ s.now) &&
    (c.vres.all fun v => match v.due with | some d => decide (d ≤ s.now) | none => !v.ord || c.jobKept v) &&
    (c.jobs.all fun j => j.started.isNone) && (c.engine.all fun v => v.ended.isSome) &&
    c.tracker.isEmpty && !(s.held.any fun h => h.core == core) &&
    !(s.tableWaits.any fun w => w.core == core) && !(s.ballotCalls.any fun b => b.core == core) &&
    !(s.arriving core) &&
    c.groups.all fun g => g.2.threads.all fun (_, t) =>
      t.savable && t.storesDone ≤ s.now && t.pubDone ≤ s.now && t.pubs.isEmpty && t.workDone ≤ s.now && t.loadsDone ≤ s.now

/-- The side as its context slot keeps it; a pigeonhole's timer holds what remains of it. -/
def Side.keep (d : Side) (now consumed : Nat) : Side :=
  { d with consumed := d.consumed + consumed, started := false
           holes := d.holes.map fun (k, h) => (k, { h with expires := h.expires - now }) }

/-- Save one side: its registers, its granules, its jobs (R460, R461); its staging lines are visible to no
core (R389). (Log 37, DESIGN CHOICE.) -/
def State.saveSide (s : State) (core : Nat) : SavedSide × State :=
  let s := s.modCore core fun c => (c.settle s.now)
  let s := s.drainWc core fun _ => true
  let c := (s.core core).groups.foldl (fun (c : Core) (k, _) => c.flushSlot k) (s.core core)
  let d := c.sideD
  let v : SavedSide :=
    { side := d.keep s.now (s.now - d.placed), groups := c.groups.map fun (k, g) => (k, g.kept), jobs := c.jobs, sram := c.sram
      tags := c.tags, sramPoison := c.sramPoison }
  let s := s.chargeSide core
  let s := { s with staged := s.staged.map fun (w : Staged) =>
    if w.launch = d.launch ∧ w.team = d.team ∧ w.side = d.side then { w with hidden := true } else w }
  (v, s.leaveCore core)

/-- Save every side of a team. -/
def State.saveSides (s : State) : List Nat → List SavedSide × State
  | [] => ([], s)
  | c :: cs =>
    let (v, s) := s.saveSide c
    let (vs, s) := s.saveSides cs
    (v :: vs, s)

/-- The team leaves its cores. -/
def State.saveTeam (s : State) (t : Team) (cs : List Nat) : State :=
  let part := (s.launch t.launch).part
  let (vs, s) := s.saveSides cs
  let v : Saved := { launch := t.launch, team := t.index, sides := vs }
  let s := { s with saved := s.saved ++ [v] }
  let s := s.modTeam t.launch t.index fun t =>
    { t with cores := [], preempt := none, stopping := false, forced := false, forLaunch := none }
  let s := s.modSib t.launch t.index fun x => if x.sstate = 4 then x else { x with sstate := 2 }
  let s := s.endPreempt t.forLaunch
  -- a launch that has ended by a fault keeps no saved team (R449), and a sibling cancelled meanwhile is
  -- discarded (R487)
  let lost := (s.ballotOf t.launch).any fun b => (b.sib t.index).sstate == 4
  let s := if (s.launch t.launch).fault.isSome || lost then s.discardSaved t.launch t.index 0 else s
  s.pokeClusters part

/-- TEAM_SAVE (R455, R458): threads that stand still are stopped, and the team is saved once every group
has stopped and every result is in. -/
def State.teamSave (s : State) (launch team : Nat) : State :=
  match s.findTeam launch team with
  | none => s
  | some t =>
    let cs := s.sidesOf t
    if !t.stopping ∨ t.cancel ∨ cs.isEmpty then s
    else
      let again := fun (s : State) => s.scheduleOnce (s.now + 1) (.teamSave launch team)
      if cs.any s.starting then again s
      else
        let s := cs.foldl (fun s c => s.stopIdle c t.forced) s
        if cs.all s.savedUp then s.saveTeam t cs else again s

/-! ## The restore (R462) -/

/-- A group as it returns: its threads may issue again, and read no line of the core's L1 that was filled
before. -/
def Group.restored (g : Group) (now order : Nat) : Group :=
  { g.modAll (fun t => { t with stopped := false, l1since := max t.l1since order }) with
    st := .saved, since := now, born := now, earliest := 0, age := Age.zero, paths := [], glive := 0 }

/-- The side as a core takes it up again. -/
def Side.resume (d : Side) (now placed consumed : Nat) : Side :=
  { d with started := true, returning := true, placed := placed, consumed := consumed, stopAt := none
           holes := d.holes.map fun (k, h) => (k, { h with expires := h.expires + now }) }

/-- The core as its side's groups, granules and jobs return. -/
def Core.restore (c : Core) (v : SavedSide) (d : Side) (now order : Nat) : Core :=
  let c := { c with side := some d, groups := [], landings := [], vres := [], fills := [], ports := []
                    reading := [], fetching := [], gport := [], sport := [], sram := v.sram, tags := v.tags, sramPoison := v.sramPoison
                    jobs := v.jobs }
  v.groups.foldl (fun c (k, g) => c.placeGroup k (g.restored now order)) c

/-- The timers of a side's pigeonholes; a Due one launches once the groups are Ready. -/
def State.resumeHoles (s : State) (core : Nat) : State :=
  (s.core core).sideD.holes.foldl (fun s (k, h) =>
    match h.st with
    | .filling => s.schedule h.expires (.pigeonholeTimerExpiry core k h.stamp)
    | _ => s) s

/-- Give back one side (R389, R462): its staging lines are visible to the core that takes it. -/
def State.restoreSide (s : State) (core : Nat) (v : SavedSide) : State :=
  let s := s.tick
  let old := (s.core core).sideD
  let d := v.side.resume s.now s.now old.consumed
  let s := s.modCore core fun c => c.restore v d s.now s.order
  let s := { s with staged := s.staged.map fun (w : Staged) =>
    if w.launch = d.launch ∧ w.team = d.team ∧ w.side = d.side ∧ w.hidden then
      { w with hidden := false, core := core } else w }
  -- exactly 4,096 lines are within the share (R386)
  let s := s.makeRoom core 4097 4096
  let s := ((s.resumeHoles core).pokeJobs core).restarve d.launch
  s.schedule (s.now + 32) (.groupsReady core)

/-- A side has been given back; the context slot of a team whose sides all have is free. -/
def State.dropSavedSide (s : State) (launch team side : Nat) : State :=
  { s with saved := (s.saved.map fun v =>
      if v.launch = launch ∧ v.team = team then
        { v with sides := v.sides.filter fun d => d.side.side != side } else v).filter fun v =>
      !v.sides.isEmpty }

/-- TEAM_RESTORE (R462, R528). -/
def State.teamRestore (s : State) (launch team core : Nat) : State :=
  match s.saved.find? fun v => v.launch == launch && v.team == team with
  | none => s
  | some v =>
    let side := (s.core core).sideD.side
    match v.sides.find? fun d => d.side.side == side with
    | none => s
    | some d =>
      let s := (s.restoreSide core d).dropSavedSide launch team side
      s.modSib launch team fun x => if x.sstate = 4 then x else { x with sstate := 1 }

/-! ## Meanings -/

/-- PREEMPTION_REQUEST (R455, R456). -/
def execPreemptionRequest (s : State) : Res :=
  match s.event with
  | .preemptionRequest l t => .next (s.preemptRequest l t)
  | _ => .next s

/-- DEFERRAL_END (R456). -/
def execDeferralEnd (s : State) : Res :=
  match s.event with
  | .deferralEnd l t => .next (s.deferralEnd l t)
  | _ => .next s

/-- FORCED_SAVE (R457). -/
def execForcedSave (s : State) : Res :=
  match s.event with
  | .forcedSave l t => .next (s.forcedSave l t)
  | _ => .next s

/-- TEAM_SAVE (R458). -/
def execTeamSave (s : State) : Res :=
  match s.event with
  | .teamSave l t => .next (s.teamSave l t)
  | _ => .next s

/-- TEAM_RESTORE (R462). -/
def execTeamRestore (s : State) : Res :=
  match s.event with
  | .teamRestore l t c => .next (s.teamRestore l t c)
  | _ => .next s

end Sys2Proof.Machine
end

