-- ==== Sys2Proof/Machine/System.lean ====
section
/-! DEFINITION. SYSCALL and its reply (R463 to R468), the service quanta (R467), and the service pairs:
heartbeat, takeover and lasting faults (R469, R470, R475). -/

namespace Sys2Proof.Machine

/-! ## SYSCALL (R464, R465) -/

/-- The service envelope (R465). -/
def syscallLine (log2w number lanes : Nat) (argbase pc : DWord) (leaseid core slot part tag : Nat) :
    List Byte :=
  [5] ++ leBytes 1 log2w ++ leBytes 2 0 ++ leBytes 4 number ++ leBytes 8 lanes ++ leBytes 8 argbase.toNat ++
    leBytes 8 pc.toNat ++ leBytes 4 leaseid ++ leBytes 2 core ++ leBytes 1 slot ++ leBytes 1 part ++
    leBytes 4 tag ++ leBytes 84 0

/-- Every page of a span lies in an rw lease. (Log 58, DEDUCED.) -/
def Launch.spanRw (l : Launch) (va n : Nat) : Bool :=
  (List.range' (va / 65536) ((va + n - 1) / 65536 + 1 - va / 65536)).all fun p =>
    l.leases.any fun x => x.kind == .rw && decide (x.page ≤ p) && decide (p < x.page + x.count)

/-- Lanes as a mask. -/
def laneMask (ls : List Nat) : Nat := (ls.map fun l => 2 ^ l).sum

/-- The next call tag of a partition: no other call in flight of the package has it (log 10, DESIGN CHOICE). -/
def State.callTag (s : State) (part : Nat) : Word := (s.part part).nextCall * 256 + BitVec.ofNat 32 part

/-- Make the call for the lanes (R464): the envelope goes into the service queue when it has room. -/
def State.makeCall (s : State) (x : Ctx) (lv : List LaneTrap) (lanes : List Nat) (argbase : DWord) (number : Nat) : State :=
  let d := (s.core x.core).sideD
  let part := s.corePart x.core
  let g := (s.core x.core).group x.slot
  let tag := s.callTag part
  let c : SysCall :=
    { tag := tag, core := x.core, lanes := lanes.map fun l => (l, (g.thread l).index)
      dst := match x.f.dst with | .v r _ => some r.toNat | _ => none
      tagNo := x.tag, argbase := argbase, launch := d.launch, team := d.team, waiting := true
      denied := false
      env := syscallLine (g.width.log2) number (laneMask lanes) argbase x.pc d.launch x.core x.slot part
        tag.toNat }
  let s := s.modPart part fun p => { p with calls := p.calls ++ [c], nextCall := p.nextCall + 1 }
  let s := s.finishWait x lv (lanes.map fun l => (l, .call tag)) false []
  let s := lanes.foldl (fun s l => s.pend x.core x.slot l x.f.dst 1 x.tag false) s
  s.insertCall part c

/-- The group after a SYSCALL with an active lane: every level is invalid, and it leaves the active set when the
calling threads are its only live ones (R225, R464). -/
def State.afterCall (s : State) (x : Ctx) (callers : List Nat) : State :=
  let g := (s.core x.core).group x.slot
  if x.actives.isEmpty then s
  else if !callers.isEmpty && g.threads.all fun (l, t) => !t.live || callers.contains l then s.blockGroup x
  else s.addLandings x.core (g.threads.map fun (l, _) => x.landing x.e l (.clear x.tag))

/-- SYSCALL (R464). (Log 19, DEDUCED.) -/
def State.syscallOp (s : State) (sh : Shape) (f : Fields) : State :=
  let (x, s) := s.begin sh f
  let lv := x.levelTraps
  match x.without lv with
  | [] => (s.finish x lv []).afterCall x []
  | l :: ls =>
    let argbase := BitVec.ofNat 64 (x.value l f.a 2 .int)
    let number := x.value l f.b 1 .int
    let width := ((s.core x.core).group x.slot).width
    if argbase.toNat % 128 ≠ 0 then
      (s.finish x (lv ++ (l :: ls).map fun k => .at_ k causeMisalign argbase) []).afterCall x []
    else if !(s.coreLaunch x.core).spanRw argbase.toNat (64 * width) then
      ((l :: ls).foldl (fun s k => s.faultLane x.core x.slot k causeLeaseOut argbase x.pc)
        (s.finish x lv [])).afterCall x []
    else
      let (scope, s) := s.scopeOf x 4
      let s := (l :: ls).foldl (fun s k => s.publishPhase x.core x.slot k scope) s
      (s.makeCall x lv (l :: ls) argbase number).afterCall x (l :: ls)

/-! ## The reply (R466, R468) -/

/-- A thread wherever it is: in a slot, saved under pressure, or saved with its team. -/
def State.modThreadOf (s : State) (launch team index : Nat) (f : Thread → Thread) : State :=
  let one := fun (t : Thread) => if t.index = index then f t else t
  let side := fun (d : Side) => { d with pressed := d.pressed.map fun g => g.modAll one }
  { s with
    cores := s.cores.map fun (c, x) =>
      match x.side with
      | some d =>
        if d.launch = launch ∧ d.team = team then
          (c, { x with side := some (side d), groups := x.groups.map fun (k, g) => (k, g.modAll one) })
        else (c, x)
      | none => (c, x)
    saved := s.saved.map fun v =>
      if v.launch = launch ∧ v.team = team then
        { v with sides := v.sides.map fun d =>
            { d with side := side d.side, groups := d.groups.map fun (k, g) => (k, g.modAll one) } }
      else v }

/-- The reply ends the thread's wait, as an acquire at PARTITION. -/
def Thread.replied (t : Thread) (tag : Word) (at_ : Nat) : Thread :=
  if t.wait = .call tag then { t.endWait at_ with acqNext := some (max 4 (t.acqNext.getD 0)) } else t

/-- The status word of a lane's argument block, as the part reads it (R466). -/
def State.replyWord (s : State) (part : Nat) (c : SysCall) (lane : Nat) : Word :=
  if c.denied then status stDenied 0
  else
    let va := c.argbase.toNat + 64 * lane + 0x3C
    match s.agentPa part (s.launch c.launch).datp va Need.any with
    | some pa => BitVec.ofNat 32 (leNat (s.view (.part part) pa 4))
    | none => 0

/-- Answer one lane. -/
def State.replyLane (s : State) (part : Nat) (c : SysCall) (lane index : Nat) : State :=
  let s := match c.dst with
    | some r => s.deliverThread c.launch c.team index r c.tagNo (s.now + 1) (s.replyWord part c lane)
    | none => s
  s.modThreadOf c.launch c.team index fun t => t.replied c.tag (s.now + 1)

/-- Groups of a team's cores that nothing holds any more become Ready. -/
def State.wakeTeam (s : State) (launch team at_ : Nat) : State :=
  match s.findTeam launch team with
  | none => s
  | some t => (s.sidesOf t).foldl (fun s c =>
      (s.core c).groups.foldl (fun s (k, _) => s.wakeGroup c k at_) s) s

/-- SYSDONE_WRITE (R466): a tag that matches no call in flight is ignored. -/
def State.sysdone (s : State) (tag : Word) : State :=
  match s.parts.findSome? fun (p, x) => (x.calls.find? fun c => c.tag == tag).map fun c => (p, c) with
  | none => s
  | some (part, c) =>
    let s := s.modPart part fun p => { p with calls := p.calls.filter fun y => y.tag != tag }
    let s := { s with svcRemoved := s.svcRemoved.filter fun t => t != tag.toNat }
    let s := c.lanes.foldl (fun s (l, i) => s.replyLane part c l i) s
    s.wakeTeam c.launch c.team (s.now + 1)

/-! ## Service quanta (R467) -/

/-- The partition that owns a quantum: byte i of SVCSLOT. -/
def State.slotOwner (s : State) (i : Nat) : Nat :=
  (s.svcslot.get 0 (i / 8)).toNat / 2 ^ (8 * (i % 8)) % 256

/-- A partition has a call that has not been answered. -/
def State.hasCall (s : State) (part : Nat) : Bool := !(s.part part).calls.isEmpty

/-- The partition that a quantum goes to: its owner, or the next in SVCSLOT that has a pending call. -/
def State.quantumOf (s : State) (q : Nat) : Option Nat :=
  ((List.range 48).map fun k => s.slotOwner ((q + k) % 48)).find? s.hasCall

/-- The service takes the oldest envelope of a partition's queue. -/
def State.takeCall (s : State) (part : Nat) : State :=
  match s.serviceQueue part with
  | none => s
  | some q =>
    let d := s.qdesc .merged q
    if d.empty then s
    else
      let tag := match s.agentPa part (s.part part).datp (d.slotVa d.head) Need.any with
        | some pa => s.mergedNat (pa + 0x28) 4
        | none => 0
      let s := { s with svcRemoved := insertNat tag s.svcRemoved }
      (s.putField q 16 8 (d.head + 1)).insertCalls part

/-- The leader pair runs: it is not held in reset. -/
def State.leaderRuns (s : State) : Bool := !(s.pairs.get Pair.reset s.leader.toNat).inReset

/-- SERVICE_QUANTUM (R467). (Log 59, DEDUCED.) -/
def State.quantum (s : State) : State :=
  let q := s.svcQuantum
  let s := match s.leaderRuns, s.quantumOf q with
    | true, some p => s.takeCall p
    | _, _ => s
  { s with svcQuantum := (q + 1) % 48 }.schedule (s.now + 2000) .serviceQuantum

/-! ## Lasting faults (R475, R521) -/

/-- A record of the package error log (R521). -/
def State.logError (s : State) (code where_ : Nat) (detail : DWord) : State :=
  let s := s.tick
  let all := s.errlog ++ [⟨s.now, code, where_, detail⟩]
  { s with errlog := all.drop (all.length - 4096) }

/-- REPLACE_REQUESTED: a bit of REPLACE stays set until reset (R475, R519). -/
def State.replaceBit (s : State) (bit : Nat) : State :=
  { s with replace := s.replace ||| BitVec.twoPow 128 bit }

/-- A die's service pair is fenced (R469, R470, R474, R475). -/
def State.fencePair (s : State) (die : Nat) : State :=
  let p := s.pairs.get Pair.reset die
  ({ s with pairs := s.pairs.put die { p with inReset := true, fenced := true } }.replaceBit die).logError
    1 die 0

/-! ## The service pairs (R469, R470) -/

def pairCount : Nat := 12

/-- Add one to HBEAT in every hub. -/
def State.beat (s : State) : State :=
  [0, 1, 2].foldl (fun s h => s.modHub h fun x => { x with hbeat := x.hbeat + 1 }) s

/-- HEARTBEAT (R469): the postmaster's, every 2^16 cycles of State.now (log 88, DESIGN CHOICE). -/
def State.heartbeat (s : State) : State :=
  if s.leaderRuns then (s.beat).schedule (s.now + 65536) .heartbeat else s

/-- A deputy's rank. -/
def State.rank (s : State) (die : Nat) : Nat := (die + pairCount - s.leader.toNat % pairCount) % pairCount

/-- Readings without a change after which a deputy finds a lapse. -/
def State.lapseAt (s : State) (die : Nat) : Nat := 16 + s.rank die

/-- HEARTBEAT_CHECK (R469): a deputy reads HBEAT. -/
def State.heartbeatCheck (s : State) (die : Nat) : State :=
  let p := s.pairs.get Pair.reset die
  if p.inReset then s
  else
    let beat := (s.hub (hubOfDie die)).hbeat
    let p := if p.lastBeat = beat then { p with unchanged := p.unchanged + 1 }
      else { p with lastBeat := beat, unchanged := 0 }
    let s := { s with pairs := s.pairs.put die p }
    let s := s.schedule (s.now + 65536) (.heartbeatCheck die)
    if die ≠ s.leader.toNat ∧ s.lapseAt die ≤ p.unchanged then s.schedule s.now (.leaderTakeover die) else s

/-- LEADER_TAKEOVER (R470): the compare with the leader that was found lapsed fails once another deputy
has taken over, and the deputy withdraws. Calls removed without a SYSDONE are served again. -/
def State.takeover (s : State) (die : Nat) : State :=
  let p := s.pairs.get Pair.reset die
  if p.inReset ∨ die = s.leader.toNat ∨ p.unchanged < s.lapseAt die then s
  else
    let old := s.leader.toNat
    let s := { s with leader := BitVec.ofNat 64 die }
    let s := (s.fencePair old).beat
    s.schedule (s.now + 65536) .heartbeat

/-- LOCKSTEP_MISMATCH (R469): a lasting fault of the pair. -/
def State.lockstep (s : State) (die : Nat) : State := s.fencePair die

/-! ## Meanings -/

/-- SYSCALL (R464). -/
def execSyscall (f : Fields) (s : State) : Res := .next (s.syscallOp (Instr.syscall f).shape f)

/-- SYSDONE_WRITE (R466). -/
def execSysdoneWrite (s : State) : Res :=
  match s.event with
  | .sysdoneWrite tag => .next (s.sysdone tag)
  | _ => .next s

/-- SERVICE_QUANTUM (R467). -/
def execServiceQuantum (s : State) : Res :=
  match s.event with
  | .serviceQuantum => .next s.quantum
  | _ => .next s

/-- HEARTBEAT (R469). -/
def execHeartbeat (s : State) : Res :=
  match s.event with
  | .heartbeat => .next s.heartbeat
  | _ => .next s

/-- HEARTBEAT_CHECK (R469). -/
def execHeartbeatCheck (s : State) : Res :=
  match s.event with
  | .heartbeatCheck die => .next (s.heartbeatCheck die)
  | _ => .next s

/-- LEADER_TAKEOVER (R470). -/
def execLeaderTakeover (s : State) : Res :=
  match s.event with
  | .leaderTakeover die => .next (s.takeover die)
  | _ => .next s

/-- LOCKSTEP_MISMATCH (R469). -/
def execLockstepMismatch (s : State) : Res :=
  match s.event with
  | .lockstepMismatch die => .next (s.lockstep die)
  | _ => .next s

end Sys2Proof.Machine
end

