-- ==== Sys2Proof/Machine/Placement.lean ====
section
/-! DEFINITION. Placement of data (R162 to R190): withdrawing translations, heat and the migration engine,
scrubs, pool handovers, PIN, UNPIN, HINT and PLQ; and errors of memory and cores (R472 to R475). -/

namespace Sys2Proof.Machine

/-! ## Withdrawing translations (R163, R164) -/

def InvReq.stage2 (r : InvReq) : Bool := r.req.getLsbD 16
def InvReq.all (r : InvReq) : Bool := r.req.getLsbD 15
def InvReq.anyAsid (r : InvReq) : Bool := r.req.getLsbD 14

/-- The request covers a page number, address [56:16] (R163). -/
def InvReq.covers (r : InvReq) (page : Nat) : Bool :=
  let k := r.req.toNat / 2 ^ 17 % 64
  r.all || decide (41 < k) || r.req.toNat / 2 ^ 23 / 2 ^ k == page % 2 ^ 41 / 2 ^ k

/-- A last-page register holds a translation that the request covers. A migration engine's request
covers the page of its frame. -/
def InvReq.hits (r : InvReq) (frame : Option Nat) (x : LastPage) : Bool :=
  match frame with
  | some f => x.frame == f
  | none =>
    if r.stage2 then r.covers x.gpage
    else r.covers x.vpage && (r.anyAsid || x.asid == r.asid.toNat)

/-- A NAPOT leaf that a device has taken falls under the request (R158, R164). -/
def InvReq.hitsNapot (r : InvReq) (frame : Option Nat) (n : Napot) : Bool :=
  match frame with
  | some f => n.two && n.frame == f
  | none => n.two == r.stage2 && r.covers n.page && (n.two || r.anyAsid || n.asid == r.asid.toNat)

/-- The forwarding entry of a migration engine's request. -/
def State.moveOf (s : State) (r : InvReq) : Option Forward :=
  r.move.bind fun (h, id) => (s.hub h).forwards.find? fun f => f.id == id

/-- Sweep the lanes of a partition, and the NAPOT leaves that its devices have taken (R162, R164). (Log 60,
DEDUCED.) -/
def State.sweep (s : State) (part : Nat) (r : InvReq) : State :=
  let frame := (s.moveOf r).map (·.frm)
  let s := s.modPart part fun p => { p with napots := p.napots.filter fun n => !(r.hitsNapot frame n) }
  { s with cores := s.cores.map fun (c, x) =>
      (c, { x with lastPage := x.lastPage.filter fun (_, p) => !(p.part == part && r.hits frame p) }) }

/-- Cycles after which a request that nothing holds up completes (log 9). -/
def invTime : Nat := Config.rowHubOp

/-- INVALIDATION_REQUEST (R163): a G-stage request through a partition's own view is ignored. -/
def State.invRequest (s : State) (part : Nat) (req : DWord) (alias_ : Bool) (move : Option (Nat × Nat)) :
    State :=
  if req.getLsbD 16 && !alias_ then s
  else
    let n := (s.part part).ivIssued
    let r : InvReq := { number := n.toNat, req := req, asid := (s.part part).ivasid, acted := false, move := move }
    (s.modPart part fun p => { p with ivIssued := n + 1, ivq := p.ivq ++ [r] }).schedule (s.now + invTime)
      (.invalidationComplete part)

/-- A frame of the partition that moves, with the one it moves to. -/
def State.movingFrames (s : State) (part : Nat) : List Nat :=
  (s.places.filter fun (_, p) => p.migr && p.part == part).flatMap fun (f, _) =>
    f :: (s.forwardOf f).toList.map fun g => g.2.into

/-- The request reaches a frame that moves (R177): through a lane's translation, or a leased page. -/
def State.reachesMove (s : State) (part : Nat) (r : InvReq) : Bool :=
  (s.movingFrames part).any fun f =>
    (s.cores.any fun (_, c) => c.lastPage.any fun (_, x) => x.part == part && x.frame == f && r.hits none x) ||
    s.launches.any fun (_, l) => l.part == part &&
      if r.stage2 then
        l.frames.any fun x => x.frame ≤ f && f < x.frame + x.count && r.covers (x.gpage + (f - x.frame))
      else l.leases.any fun x => (List.range x.count).any fun i => r.covers (x.page + i) &&
        match s.xlate part l.datp ((x.page + i) * 65536) with
        | .ok y => y.pa / 65536 == f
        | .error _ => false

/-- The partition's couriers work on a table whose header they have translated (R164). -/
def State.tableWork (s : State) (part : Nat) : Bool :=
  !(s.part part).deferred.isEmpty || s.cores.any fun (k, c) =>
    s.corePart k == part && c.jobs.any fun j => j.started.isSome && j.hpa != 0

/-- Something keeps a request from acting: a frame it reaches is moving (R177), or an access that used a
covered translation has not been performed (R164). -/
def State.invHeld (s : State) (part : Nat) (r : InvReq) : Bool :=
  (r.move.isNone && (s.reachesMove part r || s.tableWork part)) ||
    s.held.any fun h => (s.launch h.launch).part == part &&
      match (s.moveOf r).map (·.frm) with
      | some f => h.pa / 65536 == f
      | none => r.stage2 || r.covers (h.va.toNat / 65536)

/-- A parked condition translates its address again (R164, R166); where that fails, its lane raises the fault. -/
def State.rewalkCond (s : State) (c : CondWait) : State :=
  if c.peer then s
  else
    let others := s.conds.filter fun d => d.stamp != c.stamp
    match s.resolve (s.core c.core).sideD.launch c.va.toNat Need.read with
    | .ok (.mem pa, s) =>
      let s := { s with conds := others }
      let d := { c with pa := pa }
      let d := { d with mon := s.takesMonitor d }
      let s := { s with conds := others ++ [d] }
      if d.mon then s.scheduleOnce (s.now + 1) (.monitorReevaluate (pa / 128))
      else s.scheduleOnce (s.now + 512) (.monitorPoll c.core c.slot)
    | .ok (.peer _ _, s) => s
    | .error k =>
      { s with conds := others }.faultLane c.core c.slot c.lane k c.va (s.thread c.core c.slot c.lane).pc

/-- The addresses of a parked queue operation, translated again. -/
def State.walkWait (s : State) (w : QueueWait) : Except (Nat × DWord) (Nat × Nat × State) :=
  let need := if w.enq then Need.read else Need.write
  match w.who with
  | .lane core _ _ =>
    let launch := (s.core core).sideD.launch
    match s.resolve launch w.q.toNat Need.both with
    | .ok (.mem q, s) =>
      if w.sp then .ok (q, w.linePa, s)
      else
        match s.resolve launch w.line.toNat need with
        | .ok (.mem a, s) => .ok (q, a, s)
        | .ok (.peer _ _, _) => .error (causePerm, w.line)
        | .error c => .error (c, w.line)
    | .ok (.peer _ _, _) => .error (causePerm, w.q)
    | .error c => .error (c, w.q)
  | .hart h =>
    match s.hartPa h w.q.toNat true, s.hartPa h w.line.toNat (!w.enq) with
    | some q, some a => .ok (q, a, s)
    | none, _ => .error (causePerm, w.q)
    | _, none => .error (causePerm, w.line)

/-- A parked queue operation goes on with new translations (R164, R166), or raises its fault. -/
def State.rewalkQueue (s : State) (w : QueueWait) : State :=
  match s.walkWait w with
  | .ok (q, a, s) =>
    { s with queueWaits := s.queueWaits.map fun (x : QueueWait) =>
        if x.id = w.id then { x with qpa := q, linePa := a } else x }.scheduleOnce s.now (.queueWaiterServe q)
  | .error (c, a) => { s with queueWaits := s.queueWaits.filter fun x => x.id != w.id }.queueFault w c a

/-- Operations that are parked hold no covered translation any more (R164, R166). -/
def State.rewalk (s : State) (part : Nat) (r : InvReq) : State :=
  let page := fun (a : DWord) => r.stage2 || r.covers (a.toNat / 65536)
  let s := (s.conds.filter fun c => s.corePart c.core == part && page c.va).foldl State.rewalkCond s
  (s.queueWaits.filter fun w => s.reqPart w.who == part && (page w.q || page w.line)).foldl State.rewalkQueue s

/-- A run of a leased set, with the frames that the G-stage names now behind the pages that a request covers. -/
def State.refreshRun (s : State) (part : Nat) (r : InvReq) (fs : List FrameRun) (x : FrameRun) : List FrameRun :=
  (List.range x.count).foldl (fun fs i =>
    let g := x.gpage + i
    let f := match r.covers g, s.walkG part (g * 65536) with
      | true, .ok l => l.addr (g * 65536) / 65536
      | _, _ => x.frame + i
    addFrame g f fs) fs

/-- A remap of the G-stage substitutes frames of the leased sets (R177). -/
def State.refreshSets (s : State) (part : Nat) (r : InvReq) : State :=
  { s with launches := s.launches.map fun (k, l) =>
      (k, if l.part = part then { l with frames := l.frames.foldl (s.refreshRun part r) [] } else l) }

/-- A request acts: every holder of a covered translation lets it go (R164). -/
def State.invAct (s : State) (part : Nat) (r : InvReq) : State :=
  let s := s.sweep part r
  match r.move with
  | some (h, id) => s.schedule s.now (.migrationComplete h id)
  | none => (if r.stage2 then s.refreshSets part r else s).rewalk part r

/-- The engines' requests act as soon as nothing holds them, also ahead of requests that wait for their moves
(R177). (Log 83, DEDUCED.) -/
def State.actMoves (s : State) (part : Nat) : State :=
  ((s.part part).ivq.filter fun r => r.move.isSome && !r.acted).foldl (fun s r =>
    if s.invHeld part r then s
    else (s.invAct part r).modPart part fun p => { p with
      ivq := p.ivq.map fun q => if q.move = r.move then { q with acted := true } else q }) s

/-- INVALIDATION_COMPLETE (R163, R164): requests complete in the order in which they were issued. -/
def State.invComplete (s : State) (part : Nat) : State :=
  let s := s.actMoves part
  match (s.part part).ivq with
  | [] => s
  | r :: rest =>
    if !r.acted && (r.move.isSome || s.invHeld part r) then s.schedule (s.now + 1) (.invalidationComplete part)
    else
      let s := if r.acted then s else s.invAct part r
      let s := s.modPart part fun p => { p with ivDone := p.ivDone + 1, ivq := rest }
      if rest.isEmpty then s else s.scheduleOnce (s.now + 1) (.invalidationComplete part)

/-! ## Frames and quotas (R167, R183) -/

/-- First frame and number of frames of a tier on a hub; the pool's are the partition's page range
(R167, R435). -/
def State.tierRange (s : State) (part : Nat) (t : Tier) (hub : Nat) : Nat × Nat :=
  match t with
  | .hbm => (hub * 2 ^ 22, 2 ^ 22)
  | .lp => (2 ^ 24 + hub * 2 ^ 23, 2 ^ 23)
  | .pool =>
    let p := s.part part
    (poolStart / 65536 + p.poolBase, if p.poolValid then p.poolLimit - p.poolBase else 0)

/-- The lowest frame of the free list in a range (log 11, DESIGN CHOICE). -/
def State.freeFrame (s : State) (r : Nat × Nat) : Option Nat :=
  let n := firstOpen s.taken s.taken.length r.1
  if n < r.1 + r.2 then some n else none

def State.freeFrames (s : State) (r : Nat × Nat) : Nat :=
  r.2 - (s.taken.filter fun f => decide (r.1 ≤ f) && decide (f < r.1 + r.2)).length

/-! ## Moves (R173 to R177) -/

/-- Cycles from one line's copy to the next (log 9, DESIGN CHOICE). -/
def lineCopyTime : Nat := 20

/-- Make the forwarding entry of a move and begin its copies. -/
def State.makeForward (s : State) (hub frm into : Nat) (asked : Option Nat) : State :=
  let s := s.tick
  let f : Forward := { id := s.order, frm := frm, into := into, progress := 0, part := (s.place frm).part, asked := asked }
  (s.modHub hub fun h => { h with forwards := h.forwards ++ [f] }).schedule (s.now + lineCopyTime)
    (.migrationLineCopy hub s.order)

/-- Begin a move: N leaves the free list, MIGR is set, and the frame counts in both tiers; a hub has eight
forwarding entries (R172, R173, R183). -/
def State.beginMove (s : State) (frm into : Nat) (asked : Option Nat) : State :=
  let p := s.place frm
  let hub := heatHub frm
  let s := { s with taken := insertNat into s.taken }
  let s := s.setPlace frm { p with migr := true }
  let s := match frameTier frm, frameTier into with
    | some (t, _), some (u, _) => if t = u then s else s.countIn p.part u 1
    | _, _ => s
  if (s.hub hub).forwards.length < 8 then s.makeForward hub frm into asked
  else s.modHub hub fun h => { h with moves := h.moves ++ [(frm, into, asked)] }

/-- A leaf that names another frame: the rest of the entry stays. -/
def retarget (pte frame : Nat) : Nat :=
  let ppn := pte / 2 ^ 10 % 2 ^ 44
  pte - ppn * 2 ^ 10 + (frame * 16 + ppn % 16) * 2 ^ 10

/-- A new frame joins the leased sets that the old one leaves (R177). -/
def substFrames (frm into : Nat) (fs : List FrameRun) : List FrameRun :=
  fs.flatMap fun r =>
    if r.frame ≤ frm ∧ frm < r.frame + r.count then
      let k := frm - r.frame
      (if k = 0 then [] else [⟨r.gpage, r.frame, k⟩]) ++ [⟨r.gpage + k, into, 1⟩] ++
        (if k + 1 < r.count then [⟨r.gpage + k + 1, frm + 1, r.count - k - 1⟩] else [])
    else [r]

/-- The leaf at an address names a new frame: a NAPOT leaf in each of its sixteen entries. -/
def State.retargetLeaf (s : State) (pte into : Nat) : State :=
  let (base, n) := if pteBit (s.mergedNat pte 8) 63 then (pte / 128 * 128, 16) else (pte, 1)
  (List.range n).foldl (fun s i =>
    s.agentWrite (base + 8 * i) (leBytes 8 (retarget (s.mergedNat (base + 8 * i) 8) into))) s

/-- Step 4 of a move: the leaf is rewritten and a G-stage request is issued (R173). -/
def State.rewriteLeaf (s : State) (hub : Nat) (f : Forward) : State :=
  let pte := (s.place f.frm).ptepa.toNat
  let s := if pte = 0 then s else s.retargetLeaf pte f.into
  let subst := fun (l : Launch) =>
    if l.part = f.part then { l with frames := substFrames f.frm f.into l.frames } else l
  let s : State := { s with launches := s.launches.map fun (k, l) => (k, subst l) }
  -- STAGE 1 and ALL; only the page of the frame is swept
  s.invRequest f.part (BitVec.ofNat 64 (2 ^ 16 + 2 ^ 15)) true (some (hub, f.id))

/-- MIGRATION_LINE_COPY (R173 to R176): the last copy, whoever made it, is followed by step 4. -/
def State.lineCopy (s : State) (hub id : Nat) : State :=
  match (s.hub hub).forwards.find? fun f => f.id == id with
  | none => s
  | some f =>
    let s := if f.progress < 512 then s.copyNext hub f else s
    if f.progress + 1 < 512 then s.schedule (s.now + lineCopyTime) (.migrationLineCopy hub id)
    else s.rewriteLeaf hub f

/-- An address of the old frame, in the new one. -/
def moveAddr (frm into a : Nat) : Nat := if a / 65536 = frm then into * 65536 + a % 65536 else a

/-- The partition's books follow its descriptors to the new frame. -/
def Part.moved (p : Part) (m : Nat → Nat) : Part :=
  { p with
    queues := p.queues.map m, guarded := p.guarded.map fun (a, k) => (m a, k)
    reserved := p.reserved.map fun (a, k) => (m a, k), heads := p.heads.map m
    lastQueue := p.lastQueue.map fun (k, a) => (k, m a), ended := p.ended.map fun (a, l) => (m a, l)
    grants := p.grants.map fun g => { g with queue := m g.queue }
    deferred := p.deferred.map fun d => { d with pool := m d.pool } }

/-- A table job keeps the physical addresses of the header and of the pool; its others are virtual. -/
def Job.moved (j : Job) (m : Nat → Nat) : Job := { j with hpa := m j.hpa, pool := m j.pool }

/-- What the units keep of physical addresses of the old frame follows its data. -/
def State.followMove (s : State) (frm into : Nat) : State :=
  let m := moveAddr frm into
  { s with
    conds := s.conds.map fun (c : CondWait) => if c.peer then c else { c with pa := m c.pa }
    queueWaits := s.queueWaits.map fun (w : QueueWait) =>
      { w with qpa := m w.qpa, linePa := if w.sp then w.linePa else m w.linePa }
    tableWaits := s.tableWaits.map fun (w : TableWait) => { w with hpa := m w.hpa }
    held := s.held.map fun (h : Held) => { h with pa := m h.pa }
    launches := s.launches.map fun (k, l) => (k, { l with queue := m l.queue })
    parts := s.parts.map fun (k, p) => (k, p.moved m)
    cores := s.cores.map fun (k, c) => (k, { c with jobs := c.jobs.map fun j => j.moved m }) }

/-- The moves that wait for a forwarding entry (R172). -/
def State.nextMove (s : State) (hub : Nat) : State :=
  match (s.hub hub).moves with
  | [] => s
  | (f, n, a) :: rest =>
    if (s.hub hub).forwards.length < 8 then
      (s.modHub hub fun h => { h with moves := rest }).makeForward hub f n a
    else s

/-- The old frame's entry is reset with SCRUB set; the new one's describes the data (R170). RETIRED is of the
storage and stays: data that came to a frame retired meanwhile moves on (R472). -/
def State.moveEntry (s : State) (frm into : Nat) : State :=
  let p := s.place frm
  let q := s.place into
  let gone := { Place.zero with scrub := true, retired := p.retired }
  if !p.assigned then
    -- the frame was unmapped while it moved: both are scrubbed
    ((s.setPlace into { Place.zero with scrub := true, retired := q.retired }).setPlace frm gone).schedule s.now
      (.frameScrub into)
  else
    let s := (s.setPlace into { p with migr := false, retired := q.retired, passed := false }).setPlace frm gone
    if q.retired then s.schedule s.now (.frameRetire into) else s

/-- The frame whose entry describes the data of a frame: between steps 4 and 5 of a move the old one's (R170,
R173). -/
def State.entryFrame (s : State) (f : Nat) : Nat :=
  (([0, 1, 2].findSome? fun h => (s.hub h).forwards.find? fun g => g.into == f).map (·.frm)).getD f

/-! ## The results of PIN (R187, R190) -/

/-- A PIN or UNPIN is over: its status is written. -/
def State.endPin (s : State) (o : PinOp) (st : Word) : State :=
  let s := { s with pinOps := s.pinOps.filter fun (x : PinOp) => x.id != o.id }
  match o.dst with
  | some r => s.deliverThread o.launch o.team o.thread r o.tag (s.now + o.lag) st
  | none => s

/-- A move that a PIN asked for has ended. -/
def State.pinMoved (s : State) (id frm : Nat) : State :=
  match s.pinOps.find? fun o => o.id == id with
  | none => s
  | some o =>
    let left := (o.left.getD []).filter fun f => f != frm
    if left.isEmpty then s.endPin o (status stOk o.moved)
    else { s with pinOps := s.pinOps.map fun (x : PinOp) => if x.id = id then { x with left := some left } else x }

/-- The frames of a list of pages, by their entries; none where a page is not leased, or has no valid combined
translation (R187). -/
def State.pageFrames (s : State) (o : PinOp) (va n : Nat) : Option (List Nat) :=
  (List.range n).foldl (fun acc i =>
    match acc with
    | none => none
    | some fs =>
      let a := va + i * 65536
      if !canonical a || isWindow a || !leasedBy o.leases (a / 65536) Need.any then none
      else
        match s.xlate o.part o.datp a with
        | .ok x => if (tierOf x.pa).isSome then some (fs ++ [s.entryFrame (x.pa / 65536)]) else none
        | .error _ => none) (some [])

/-- A target word is malformed for PIN, or for HINT (R186). -/
def badTarget (t : Nat) (hint : Bool) : Bool :=
  2 ^ 6 ≤ t || (!hint && t / 16 % 4 != 0) || (t % 4 == 3 && t / 4 % 4 != 3)

/-- Address and count are malformed (R187). -/
def badRange (va n : Nat) : Bool := va % 65536 != 0 || n == 0 || decide (4096 < n)

def targetTier (t : Nat) : Option Tier :=
  match t % 4 with | 1 => some .hbm | 2 => some .lp | 3 => some .pool | _ => none

/-- The hub that a frame is to lie on. -/
def targetHub (t frame : Nat) : Nat :=
  if t / 4 % 4 = 3 then ((frameTier frame).map (·.2)).getD 0 else t / 4 % 4

/-- The frame lies in a tier on its target hub; a pool frame lies on no hub. -/
def inPlace (t : Nat) (tier : Tier) (frame : Nat) : Bool :=
  match frameTier frame with
  | some (u, h) => u == tier && (u == .pool || h == targetHub t frame)
  | none => false

/-- The first hub whose tier has fewer free frames than a PIN needs there (R187). -/
def State.lacksRoom (s : State) (part t : Nat) (tier : Tier) (d : List Nat) : Option Nat :=
  if tier = .pool then
    if s.freeFrames (s.tierRange part .pool 0) < d.length then some 3 else none
  else
    [0, 1, 2].find? fun h =>
      decide (s.freeFrames (s.tierRange part tier h) < (d.filter fun f => targetHub t f == h).length)

/-- Move frames in ascending page order (R187). -/
def State.moveAll (s : State) (part t : Nat) (tier : Tier) (id : Nat) (d : List Nat) : State :=
  d.foldl (fun s f =>
    match s.freeFrame (s.tierRange part tier (targetHub t f)) with
    | some n => s.beginMove f n (some id)
    | none => s) s

/-- Set PIN, PTIER and PHUB of a frame's entry. -/
def State.pinFrame (s : State) (t frame : Nat) : State :=
  let p := s.place frame
  s.setPlace frame { p with pin := true, ptier := BitVec.ofNat 2 (t % 4), phub := BitVec.ofNat 2 (t / 4 % 4) }

/-- A PIN that the checks of R187 let through. -/
def State.pinNow (s : State) (o : PinOp) (fs : List Nat) : State :=
  let part := o.part
  let q := (s.part part).qpin
  let fresh := (fs.filter fun f => !(s.place f).pin).length
  let tier := targetTier o.target
  let d := match tier with
    -- a frame without a leaf stays (R170; log 84, DEDUCED)
    | some t => fs.filter fun f => !inPlace o.target t f && (s.place f).ptepa != 0
    | none => []
  let adds := match tier with
    | some t => (d.filter fun f => (frameTier f).map (·.1) != some t).length
    | none => 0
  let past := match tier with | some t => !s.quotaRoom part t adds | none => false
  let full := match tier with | some t => s.lacksRoom part o.target t d | none => none
  if q.limit < q.used + fresh then s.endPin o (status stQuota 4)
  else if past then s.endPin o (status stQuota (o.target % 4))
  else
    match full with
    | some h => s.endPin o (status stFull h)
    | none =>
      let s := s.modPart part fun p => { p with qpin := { p.qpin with used := p.qpin.used + fresh } }
      let s := fs.foldl (fun s f => s.pinFrame o.target f) s
      if d.isEmpty then s.endPin o (status stOk 0)
      else
        let s := { s with pinOps := s.pinOps.map fun (x : PinOp) =>
          if x.id = o.id then { x with left := some d, moved := d.length } else x }
        match tier with
        | some t => s.moveAll part o.target t o.id d
        | none => s

/-- UNPIN of the frames of a range (R187). -/
def State.unpinNow (s : State) (o : PinOp) (fs : List Nat) : State :=
  let part := o.part
  let n := (fs.filter fun f => (s.place f).pin).length
  let s := fs.foldl (fun s f => s.setPlace f { s.place f with pin := false }) s
  let s := s.modPart part fun p => { p with qpin := { p.qpin with used := p.qpin.used - n } }
  s.endPin o (status stOk n)

/-- A HINT on one frame (R188). -/
def State.hintFrame (s : State) (t frame : Nat) : State :=
  let p := { s.place frame with passed := false }
  let p := if p.pin then p
    else { p with ptier := BitVec.ofNat 2 (t % 4), phub := BitVec.ofNat 2 (t / 4 % 4) }
  let p := if t.testBit 5 then { p with smpl := t.testBit 4 } else p
  (s.setPlace frame p).scheduleOnce s.now (.migrationStart (heatHub frame))

/-- A HINT at its hub: dropped and counted where its range or target is refused (R188). -/
def State.hintNow (s : State) (o : PinOp) : State :=
  let s : State := { s with pinOps := s.pinOps.filter fun (x : PinOp) => x.id != o.id }
  let drop := fun (s : State) => s.modPart o.part fun p => { p with hintdrop := p.hintdrop + 1 }
  if badRange o.va o.count || badTarget o.target true then drop s
  else
    match s.pageFrames o o.va o.count with
    | none => drop s
    | some fs => fs.foldl (fun s f => s.hintFrame o.target f) s

/-- Perform a PIN or UNPIN at its hub, unless a frame it reaches is moving (R177). -/
def State.pinStep (s : State) (o : PinOp) : Option State :=
  if badRange o.va o.count || (o.kind == .pin && badTarget o.target false) then
    some (s.endPin o (status stMalformed 0))
  else
    match s.pageFrames o o.va o.count with
    | none => some (s.endPin o (status stDenied 0))
    | some fs =>
      let fs := fs.eraseDups
      if fs.any fun f => (s.place f).migr then none
      else some (if o.kind = .unpin then s.unpinNow o fs else s.pinNow o fs)

/-- The operations of a hub, in order of arrival and lane by lane (R187): one that waits, or whose moves have not
ended, holds those behind it. -/
def State.servePins (s : State) (hub : Nat) : Nat → State
  | 0 => s
  | k + 1 =>
    match s.pinOps.find? fun o => o.hub == hub with
    | none => s
    | some o =>
      if o.kind = .hint then (s.hintNow o).servePins hub k
      else if o.left.isSome then s
      else
        match s.pinStep o with
        | some s => s.servePins hub k
        | none => s

def State.serveAllPins (s : State) : State :=
  [0, 1, 2].foldl (fun s h => s.servePins h (s.pinOps.length)) s

/-- MIGRATION_COMPLETE (R173): step 5. -/
def State.moveComplete (s : State) (hub id : Nat) : State :=
  match (s.hub hub).forwards.find? fun f => f.id == id with
  | none => s
  | some f =>
    let s := s.modHub hub fun h => { h with forwards := h.forwards.filter fun g => g.id != id }
    let left := (s.place f.frm).assigned
    let s := (s.followMove f.frm f.into).moveEntry f.frm f.into
    let s := match frameTier f.frm, frameTier f.into with
      | some (t, _), some (u, _) => if t = u then s else s.countOut f.part (if left then t else u) 1
      | _, _ => s
    let s := s.schedule s.now (.frameScrub f.frm)
    let s := match f.asked with | some p => s.pinMoved p f.frm | none => s
    let s := (s.nextMove hub).serveAllPins
    s.scheduleOnce (s.now + 1) (.migrationStart hub)

/-! ## The migration engine (R172) -/

/-- Frames that an engine may move: assigned, mapped by a leaf, not pinned, not moving, not passed over. -/
def Place.movable (p : Place) : Bool :=
  !p.passed && p.assigned && p.ptepa != 0 && !p.pin && !p.migr && !p.scrub

/-- Tier and hub differ from the entry's preference (R172 step 1). -/
def Place.misplaced (p : Place) (t : Tier) (h : Nat) : Bool :=
  let want := match p.ptier.toNat with | 1 => some Tier.hbm | 2 => some Tier.lp | 3 => some Tier.pool | _ => none
  (match want with | some w => w != t | none => false) ||
    (p.phub.toNat != 3 && t != .pool && p.phub.toNat != h)

/-- Where a misplaced frame goes: its preferred tier and hub, else those it has. -/
def Place.wanted (p : Place) (t : Tier) (h : Nat) : Tier × Nat :=
  ((match p.ptier.toNat with | 1 => .hbm | 2 => .lp | 3 => .pool | _ => t),
   if p.phub.toNat = 3 then h else p.phub.toNat)

/-- Try to move a frame to a tier on a hub, within the quota and the free list. -/
def State.tryMove (s : State) (frame : Nat) (into : Tier × Nat) : Option State :=
  let p := s.place frame
  let same := (frameTier frame).map (·.1) == some into.1
  match s.freeFrame (s.tierRange p.part into.1 into.2) with
  | some n => if same || s.quotaRoom p.part into.1 1 then some (s.beginMove frame n none) else none
  | none => none

/-- The move cannot be made: the candidate is passed over until its next sampled event (R172). -/
def State.passOver (s : State) (frame : Nat) : State := s.setPlace frame { s.place frame with passed := true }

/-- The frames that a hub's engine looks at, with tier and hub. -/
def State.engineFrames (s : State) (hub : Nat) : List (Nat × Place × Tier × Nat) :=
  s.places.filterMap fun (f, p) =>
    match frameTier f with
    | some (t, h) => if p.movable && heatHub f == hub then some (f, p, t, h) else none
    | none => none

/-- Hottest first, the lower frame on a tie. -/
def insertHot (x : Nat × Place × Tier × Nat) :
    List (Nat × Place × Tier × Nat) → List (Nat × Place × Tier × Nat)
  | [] => [x]
  | y :: t => if x.2.1.heat.toNat ≤ y.2.1.heat.toNat then y :: insertHot x t else x :: y :: t

/-- The coldest HBM frame of a partition at or below DEMOTE (R172 step 3). -/
def State.coldest (s : State) (part demote : Nat) : Option (Nat × Nat) :=
  (s.places.foldl (fun (best : Option (Nat × Nat × Nat)) (f, p) =>
    match frameTier f with
    | some (.hbm, h) =>
      if p.movable && p.part == part && p.ptier == 0 && decide (p.heat.toNat ≤ demote) then
        match best with
        | none => some (p.heat.toNat, f, h)
        | some (k, _, _) => if p.heat.toNat < k then some (p.heat.toNat, f, h) else best
      else best
    | _ => best) none).map fun x => x.2

/-- One promotion; where the partition's HBM quota holds it back, its coldest frame moves to LP. -/
def State.promote (s : State) (hub demote : Nat) (x : Nat × Place × Tier × Nat) : State :=
  let (f, p, t, h) := x
  match s.tryMove f (.hbm, if t = .lp then h else hub) with
  | some s => s
  | none =>
    let s := s.passOver f
    if s.quotaRoom p.part .hbm 1 then s
    else
      match s.coldest p.part demote with
      | some (c, ch) => (s.tryMove c (.lp, ch)).getD (s.passOver c)
      | none => s

/-- MIGRATION_START (R172): the engine takes its candidates in order while it has forwarding entries. -/
def State.migrationStart (s : State) (hub : Nat) : State :=
  let m := (s.hub hub).migpol.toNat
  let s := ((s.engineFrames hub).filter fun (_, p, t, h) => p.misplaced t h).foldl
    (fun s (f, p, t, h) =>
      if 8 ≤ (s.hub hub).forwards.length then s else (s.tryMove f (p.wanted t h)).getD (s.passOver f)) s
  let hot := ((s.engineFrames hub).filter fun (_, p, t, _) =>
    p.ptier == 0 && t != .hbm && decide (m / 65536 ≤ p.heat.toNat)).foldl (fun acc x => insertHot x acc) []
  hot.foldl (fun s x =>
    if 8 ≤ (s.hub hub).forwards.length then s else s.promote hub (m % 65536) x) s

/-- HEAT_HALVING (R171): every HEAT of the hub's frames is halved, and the events that were sampled meanwhile
follow. -/
def State.halveHeat (s : State) (hub : Nat) : State :=
  let late := (s.hub hub).late
  let s := s.modHub hub fun h => { h with halving := false, late := [] }
  let s := { s with places := s.places.map fun (f, p) =>
      (f, if heatHub f = hub then { p with heat := p.heat >>> 1 } else p) }
  late.foldl (fun s f => s.sampleFrame hub f) s

/-! ## Scrubs (R181, R182) -/

/-- The lines of a frame in memory, caches and staging are gone; it reads as zero under slot 63. -/
def State.wipe (s : State) (frame : Nat) : State :=
  { s with
    mem := s.mem.filter fun e => e.1 / 65536 != frame
    poison := s.poison.filter fun l => l / 512 != frame
    staged := s.staged.filter fun w => w.addr / 65536 != frame
    l2 := s.l2.map fun (k, ls) => (k, ls.filter fun x => x.line / 512 != frame)
    l2Waits := s.l2Waits.filter fun x => x.line / 512 != frame
    cores := s.cores.map fun (c, x) =>
      (c, { x with l1 := x.l1.filter fun y => y.line / 512 != frame
                   icache := x.icache.filter fun y => y.line / 512 != frame }) }

/-- The scrub completion record: the frame number in the first 8 bytes (log 12, DESIGN CHOICE). -/
def scrubRecord (frame : Nat) : List Byte := leBytes 8 frame ++ leBytes 120 0

/-- Write a record to Tiroskyo's scrub queue; none where the queue is full (R181). -/
def State.scrubNotice (s : State) (frame : Nat) : Option State :=
  let q := s.scrubq.toNat
  if q = 0 then some s
  else
    let d := s.qdesc .merged q
    if !d.ok then some s
    else if d.full then none
    else some ((s.agentWrite (d.slotVa d.tail) (scrubRecord frame)).putField q 24 8 (d.tail + 1))

/-- FRAME_SCRUB (R181). A retired frame never returns to the free list. -/
def State.scrub (s : State) (frame : Nat) : State :=
  let s := s.setPlace frame { s.place frame with scrub := true }
  let s := s.wipe frame
  match s.scrubNotice frame with
  | none => s.schedule (s.now + 512) (.frameScrub frame)
  | some s =>
    let p := s.place frame
    let s := s.setPlace frame { p with scrub := false }
    if p.retired then s else { s with taken := s.taken.filter fun f => f != frame }

/-! ## Pool handovers (R178, R393) -/

/-- A page number of the pool, as a frame number. -/
def poolFrame (page : Nat) : Nat := poolStart / 65536 + page

/-- The package's caches drop a pool page's lines. -/
def State.dropPage (s : State) (page : Nat) : State :=
  let f := poolFrame page
  { s with
    l2 := s.l2.map fun (k, ls) => (k, ls.filter fun x => x.line / 512 != f)
    l2Waits := s.l2Waits.filter fun x => x.line / 512 != f
    cores := s.cores.map fun (c, x) =>
      (c, { x with l1 := x.l1.filter fun y => y.line / 512 != f
                   icache := x.icache.filter fun y => y.line / 512 != f }) }

/-- A staging line of the page is left. -/
def State.pageStaged (s : State) (page : Nat) : Bool :=
  s.staged.any fun w => w.addr / 65536 == poolFrame page

/-- The page is in a handover (R178). -/
def State.listHandover (s : State) (page owner : Nat) : State :=
  if s.handovers.any fun h => h.1 == page then s
  else { s with handovers := s.handovers ++ [(page, owner, s.now)] }

/-- POOL_HANDOVER (R178, R393): not within 8,192 cycles of the last one, and not while the package that
gives the page up holds staging lines of it. -/
def State.handover (s : State) (page owner : Nat) : State :=
  let free := if (s.owners.find page).isSome then s.ownerSince.get 0 page + 8192 else 0
  if s.now < free then s.schedule free (.poolHandover page owner)
  else if s.pageStaged page then (s.listHandover page owner).schedule (s.now + 1) (.poolHandover page owner)
  else
    let s := s.dropPage page
    { s with owners := s.owners.put page owner, ownerSince := s.ownerSince.put page s.now
             handovers := s.handovers.filter fun h => h.1 != page }

/-! ## PIN, UNPIN, HINT and PLQ (R184 to R190) -/

/-- Cycles from e to a result that nothing holds up (R21, R187). -/
def pinTime (pages : Nat) : Nat := Config.rowHubOp + 2 * (pages - 1)

/-- A lane's operation, as it is carried to the requester's hub. -/
def State.pinRequest (s : State) (x : Ctx) (kind : PinKind) (l : Nat) : PinOp :=
  let d := (s.core x.core).sideD
  let la := s.launch d.launch
  let n := x.value l x.f.b 1 .int
  { id := s.order, hub := hubOfCore x.core, kind := kind, part := la.part, datp := la.datp, leases := la.leases
    launch := d.launch, team := d.team, thread := (x.thread l).index
    dst := match x.f.dst with | .v r _ => some r.toNat | _ => none
    tag := x.tag, va := x.value l x.f.a 2 .int, count := n
    target := if kind = .unpin then 0 else x.value l x.f.c 1 .int
    lag := x.e + pinTime (min n 4096) - s.now, left := none, moved := 0 }

/-- A lane's PIN or UNPIN at the requester's hub. -/
def State.pinLane (s : State) (x : Ctx) (kind : PinKind) (l : Nat) : State :=
  let s := (s.pend x.core x.slot l x.f.dst 1 x.tag false).tick
  let o := s.pinRequest x kind l
  let s := { s with pinOps := s.pinOps ++ [o] }
  s.modThread x.core x.slot l fun t => { t with workDone := max t.workDone (s.now + o.lag) }

/-- PIN and UNPIN (R187). -/
def State.pinOp (s : State) (sh : Shape) (f : Fields) (kind : PinKind) : State :=
  let (x, s) := s.begin sh f
  let lv := x.levelTraps
  let ok := x.without lv
  let s := s.finish x lv []
  let s := ok.foldl (fun s l => s.pinLane x kind l) s
  s.servePins (hubOfCore x.core) s.pinOps.length

/-- A lane's HINT at the requester's hub: no register waits for it (R187). -/
def State.hintLane (s : State) (x : Ctx) (l : Nat) : State :=
  let s := s.tick
  { s with pinOps := s.pinOps ++ [s.pinRequest x .hint l] }

/-- HINT (R188). -/
def State.hintOp (s : State) (sh : Shape) (f : Fields) : State :=
  let (x, s) := s.begin sh f
  let lv := x.levelTraps
  let s := s.finish x lv []
  let s := (x.without lv).foldl (fun s l => s.hintLane x l) s
  s.servePins (hubOfCore x.core) s.pinOps.length

/-- Vd+1 of PLQ (R189). -/
def plqWord (p : Place) (frame : Nat) : Nat :=
  let (tier, hub) := match frameTier frame with
    | some (.hbm, h) => (1, h)
    | some (.lp, h) => (2, h)
    | some (.pool, _) => (3, 3)
    | none => (0, 0)
  p.heat.toNat * 2 ^ 16 + tier * 2 ^ 14 + hub * 2 ^ 12 + p.ptier.toNat * 2 ^ 10 + p.phub.toNat * 2 ^ 8 +
    p.pin.toNat * 2 ^ 7 + p.smpl.toNat * 2 ^ 6 + p.migr.toNat * 2 ^ 5

/-- The two words of PLQ (R189). -/
def State.plqWords (s : State) (launch va : Nat) : List Word :=
  let l := s.launch launch
  if !canonical va || isWindow va || !l.leased (va / 65536) Need.any then [status stDenied 0, 0]
  else
    match s.xlate l.part l.datp va with
    | .error .invalid => [status stAbsent 0, 0]
    | .error .refused => [status stDenied 0, 0]
    | .ok x =>
      let f := s.entryFrame (x.pa / 65536)
      [status stOk 0, BitVec.ofNat 32 (plqWord (s.place f) f)]

/-- PLQ (R189). -/
def State.plqOp (s : State) (sh : Shape) (f : Fields) : State :=
  let (x, s) := s.begin sh f
  let lv := x.levelTraps
  let s := s.finish x lv []
  (x.without lv).foldl (fun s l =>
    let s := s.pend x.core x.slot l f.dst 2 x.tag false
    s.deliver x.core x.slot l x.tag (x.e + pinTime 1)
      (s.plqWords (s.core x.core).sideD.launch (x.value l f.a 2 .int))) s

/-! ## Errors (R472 to R475) -/

/-- The REPLACE bit of a frame's storage: its HBM stack, or the hub die of its LP tier (R519). -/
def frameReplace (frame : Nat) : Option Nat :=
  match frameTier frame with
  | some (.hbm, h) => some (12 + 4 * h + frame / 2 ^ 20 % 4)
  | some (.lp, h) => some (9 + h)
  | _ => none

/-- Where a retired frame's data can go: its own tier and hub first, then its tier on another hub, then
another tier (R472). -/
def State.refuge (s : State) (frame : Nat) : Option State :=
  match frameTier frame with
  | none => none
  | some (t, h) =>
    ([(t, h)] ++ [0, 1, 2].map (fun k => (t, k)) ++
      [Tier.hbm, .lp, .pool].flatMap fun u => [0, 1, 2].map fun k => (u, k)).findSome? fun into =>
        s.tryMove frame into

/-- FRAME_RETIRE (R472): RETIRED is set, and the data migrates once a free frame can receive it. -/
def State.retireFrame (s : State) (frame : Nat) : State :=
  let p := s.place frame
  let first := !p.retired
  let s := s.setPlace frame { p with retired := true }
  let s := { s with taken := insertNat frame s.taken }
  let s := if first then
      (match frameReplace frame with | some b => s.replaceBit b | none => s).logError 2 frame 0
    else s
  if !p.assigned || p.ptepa == 0 || p.migr then s
  else
    match s.refuge frame with
    | some s => s
    | none => s.schedule (s.now + 4096) (.frameRetire frame)

/-- WRITEBACK_POISON (R473): the line is charged to its owner. -/
def State.writebackPoison (s : State) (line : Nat) : State :=
  let p := s.place (line / 512)
  let s := { s with poison := insertNat line s.poison }
  s.addRecord (homeHub (line * 128)) p.part 1
    (ringRecord 3 (BitVec.ofNat 8 causePoison) 4 0 (BitVec.ofNat 64 (line * 128)) 0 0xFFFF 0xFF 0xFF)

/-- A core held in reset issues nothing and finishes nothing. -/
def Core.fence (c : Core) : Core :=
  { c with
    fenced := true, reading := [], fetching := [], landings := [], vres := [], fills := [], ports := [], l1 := [], icache := []
    loops := [], loopReq := [], lastPage := [], wc := [], jobs := [], btcache := [], engine := [], tracker := []
    groups := c.groups.map fun (k, g) => (k, { g.modAll (fun t =>
      { t.withdraw with stopped := true }) with st := .retired })
    side := c.side.map fun d => { d with holes := [], pressed := [] } }

/-- CORE_FENCE (R474, R475): the launch of the team on the core ends with POISON. -/
def State.fence (s : State) (core : Nat) : State :=
  let r : FaultRec := { cause := BitVec.ofNat 8 causePoison, flags := 8, addr := 0, pc := 0
                        core := BitVec.ofNat 16 core, slot := 0xFF, lane := 0xFF }
  let side := (s.core core).side
  let s : State := { s with
    conds := s.conds.filter fun c => c.core != core
    queueWaits := s.queueWaits.filter fun w => match w.who with | .lane c _ _ => c != core | .hart _ => true
    tableWaits := s.tableWaits.filter fun w => w.core != core
    held := s.held.filter fun h => h.core != core }
  let s := s.modCore core Core.fence
  let s := (s.replaceBit (dieOf core)).logError 3 core 0
  match side with
  | some d => s.schedule (s.now + officeTime core) (.terminalFaultArrival d.launch r)
  | none => s

/-! ## Meanings -/

/-- PIN (R187). -/
def execPin (f : Fields) (s : State) : Res := .next (s.pinOp (Instr.pin f).shape f .pin)
/-- UNPIN (R187). -/
def execUnpin (f : Fields) (s : State) : Res := .next (s.pinOp (Instr.unpin f).shape f .unpin)
/-- HINT (R188). -/
def execHint (f : Fields) (s : State) : Res := .next (s.hintOp (Instr.hint f).shape f)
/-- PLQ (R189). -/
def execPlq (f : Fields) (s : State) : Res := .next (s.plqOp (Instr.plq f).shape f)

/-- INVALIDATION_REQUEST (R163). -/
def execInvalidationRequest (s : State) : Res :=
  match s.event with
  | .invalidationRequest part req a => .next (s.invRequest part req a none)
  | _ => .next s

/-- INVALIDATION_COMPLETE (R164). -/
def execInvalidationComplete (s : State) : Res :=
  match s.event with
  | .invalidationComplete part => .next (s.invComplete part)
  | _ => .next s

/-- MIGRATION_START (R172). -/
def execMigrationStart (s : State) : Res :=
  match s.event with
  | .migrationStart hub => .next (s.migrationStart hub)
  | _ => .next s

/-- MIGRATION_LINE_COPY (R173). -/
def execMigrationLineCopy (s : State) : Res :=
  match s.event with
  | .migrationLineCopy hub id => .next (s.lineCopy hub id)
  | _ => .next s

/-- MIGRATION_COMPLETE (R173). -/
def execMigrationComplete (s : State) : Res :=
  match s.event with
  | .migrationComplete hub id => .next (s.moveComplete hub id)
  | _ => .next s

/-- HEAT_HALVING (R171). -/
def execHeatHalving (s : State) : Res :=
  match s.event with
  | .heatHalving hub => .next (s.halveHeat hub)
  | _ => .next s

/-- FRAME_SCRUB (R181). -/
def execFrameScrub (s : State) : Res :=
  match s.event with
  | .frameScrub frame => .next (s.scrub frame)
  | _ => .next s

/-- POOL_HANDOVER (R178). -/
def execPoolHandover (s : State) : Res :=
  match s.event with
  | .poolHandover page owner => .next (s.handover page owner)
  | _ => .next s

/-- FRAME_RETIRE (R472). -/
def execFrameRetire (s : State) : Res :=
  match s.event with
  | .frameRetire frame => .next (s.retireFrame frame)
  | _ => .next s

/-- WRITEBACK_POISON (R473). -/
def execWritebackPoison (s : State) : Res :=
  match s.event with
  | .writebackPoison line => .next (s.writebackPoison line)
  | _ => .next s

/-- CORE_FENCE (R474). -/
def execCoreFence (s : State) : Res :=
  match s.event with
  | .coreFence core => .next (s.fence core)
  | _ => .next s

end Sys2Proof.Machine
end

