-- ==== Sys2Proof/Machine/Fabric.lean ====
section
/-! DEFINITION. Beyond the package (R421 to R442, R525): XPOOL and the pool modules, reductions, pool
membership, peer windows as the target serves them, the registered class, stations, the fabric buckets,
and scale-out envelopes. -/

namespace Sys2Proof.Machine

/-! ## The pool card (R438) -/

structure PoolCard where
  op : Nat
  ctl : Nat
  len : Nat
  dst : Nat
  src : Nat
  key : DWord
  mask : Nat
  mode : Nat
  deriving DecidableEq, Repr

def PoolCard.ofBytes (bs : List Byte) : PoolCard :=
  { op := lineNat bs 0 1, ctl := lineNat bs 1 1, len := lineNat bs 4 4, dst := lineNat bs 8 8
    src := lineNat bs 0x10 8, key := BitVec.ofNat 64 (lineNat bs 0x18 8), mask := lineNat bs 0x20 4
    mode := lineNat bs 0x24 1 }

def PoolCard.scope (c : PoolCard) : Nat := c.ctl % 8

/-- The lengths that an operation allows. -/
def PoolCard.lenBad (c : PoolCard) (op : Nat) : Bool :=
  c.len % 128 != 0 || decide (c.len < 128) ||
    (if op = 3 then decide (65536 < c.len) || decide (65536 < c.dst % 65536 + c.len)
     else decide (2 ^ 30 < c.len))

/-- SRC is malformed for an operation. -/
def PoolCard.srcBad (c : PoolCard) (op : Nat) : Bool :=
  match op with
  | 0 => false
  | 3 => c.src % 128 != 0
  | _ => c.src % 128 != 0 || (decide (c.src < c.dst + c.len) && decide (c.dst < c.src + c.len))

/-- The first offending offset of a card (R438). -/
def PoolCard.refusal (c : PoolCard) (bs : List Byte) (op member : Nat) : Option Nat :=
  let red := op == 3
  leastOf (charge 0x00 (c.op != op) ++ charge 0x01 (decide (8 ≤ c.ctl)) ++ charge 0x02 (lineNat bs 2 2 != 0) ++
    charge 0x04 (c.lenBad op) ++ charge 0x08 (c.dst % 128 != 0) ++ charge 0x10 (c.srcBad op) ++
    charge 0x18 (!red && c.key != 0) ++
    charge 0x20 (if red then !c.mask.testBit member else c.mask != 0) ++
    charge 0x24 (if red then decide (2 ≤ c.mode) else c.mode != 0) ++ charge 0x25 (lineNat bs 0x25 27 != 0))

/-! ## XPOOL at the core (R439) -/

/-- Frames of the pages of a range, or the cause that its first bad page raises with its address. -/
def State.poolPages (s : State) (launch va n : Nat) (need : Need) :
    Except (Nat × Nat) (List (Option Nat) × State) :=
  (List.range' (va / 65536) ((va + n - 1) / 65536 + 1 - va / 65536)).foldl (fun acc p =>
    match acc with
    | .error e => .error e
    | .ok (fs, s) =>
      let a := max va (p * 65536)
      match s.resolve launch a need with
      | .error c => .error (c, a)
      | .ok (.mem pa, s) => .ok (fs ++ [some (pa / 65536)], s)
      | .ok (.peer _ _, s) => .ok (fs ++ [none], s)) (.ok ([], s))

/-- The first page outside the pool tier. -/
def notPool (fs : List (Option Nat)) : Option Nat :=
  fs.findIdx? fun f => match f with
    | some f => (frameTier f).map (·.1) != some .pool
    | none => true

/-- What an operation needs of DST. -/
def poolNeed (op : Nat) (start : Bool) : Need :=
  if op = 2 then Need.read else if op = 3 ∧ !start then Need.both else Need.write

/-- A card that has passed its checks becomes an operation at the modules. -/
def State.sendPool (s : State) (x : Ctx) (l op scope : Nat) (c : PoolCard) (dsts srcs : List Nat)
    (elems : List Byte) : State :=
  let s := s.tick
  let d := (s.core x.core).sideD
  let o : PoolOp :=
    { id := s.order, launch := d.launch, team := d.team, thread := (x.thread l).index, core := x.core
      dst := x.dstReg, tag := x.tag, op := op, scope := scope, len := c.len, dstFrames := dsts
      dstOff := c.dst % 65536, srcFrames := srcs, srcOff := c.src % 65536
      word := if op = 0 then BitVec.ofNat 64 c.src else c.key, mask := c.mask, start := c.mode == 1
      elems := elems, pos := 0, posted := false }
  let s := s.modSib d.launch d.team fun y => { y with pools := y.pools + 1 }
  { s with poolOps := s.poolOps ++ [o] }.schedule (x.e + 1) (.poolModuleOp o.id)

/-- The contributions of a reduction, as the thread sees them. -/
def State.readElems (s : State) (x : Ctx) (c : PoolCard) : CourierRead :=
  s.courierReadAll x.core false (linePieces c.src (c.len / 2))

/-- The destination of a lane's operation is pending. -/
def State.pendPool (s : State) (x : Ctx) (l : Nat) : State := s.pend x.core x.slot l x.f.dst 1 x.tag false

/-- Steps 3 to 5 for a lane whose card has been read and whose phase is published (R439). -/
def State.submitPool (s : State) (x : Ctx) (l op scope : Nat) (bs : List Byte) (row : Nat) : Submitted :=
  let c := PoolCard.ofBytes bs
  let launch := (s.core x.core).sideD.launch
  let answer := fun (s : State) (st : Word) =>
    ((none, (s.pendPool x l).deliver x.core x.slot l x.tag (x.e + row) [st] (some scope)) : Submitted)
  let fault := fun (s : State) (k va : Nat) =>
    ((none, s.faultLane x.core x.slot l k (BitVec.ofNat 64 va) x.pc) : Submitted)
  match c.refusal bs op s.memberOf with
  | some o => answer s (status stMalformed o)
  | none =>
    match s.poolPages launch c.dst c.len (poolNeed op (c.mode == 1)) with
    | .error (k, va) => fault s k va
    | .ok (ds, s1) =>
      match if op = 1 ∨ op = 2 then s1.poolPages launch c.src c.len Need.read else .ok ([], s1) with
      | .error (k, va) => fault s1 k va
      | .ok (ss, s2) =>
        match notPool ds, notPool ss with
        | some i, _ => answer s2 (status stDenied (i % 2 ^ 14))
        | none, some i => answer s2 (status stDenied (i % 2 ^ 14 + 2 ^ 22))
        | none, none =>
          if op ≠ 3 then (none, (s2.pendPool x l).sendPool x l op scope c (ds.filterMap id) (ss.filterMap id) [])
          else
            match s2.readElems x c with
            | .fault k va => fault s2 k va
            | .poison => answer s2 (status stPoison 0)
            | .wait n s => (some n, s)
            | .ok es s => (none, (s.pendPool x l).sendPool x l op scope c (ds.filterMap id) [] es)

/-- A lane's card is read, and its open phase is published at the card's scope (R439); whether that was demoted
(R370). A card or a contribution on a page in handover leaves the lane at its instruction (R178). -/
def State.poolLane (s : State) (x : Ctx) (op l : Nat) : TableTurn :=
  let a := (x.cardAddr l).toNat
  let sp := x.f.mod.getLsbD 4
  let row := s.courierRow x.core sp a
  match s.courierReadAll x.core sp (linePieces a 64) with
  | .poison => ⟨(s.pendPool x l).deliver x.core x.slot l x.tag (x.e + row) [status stPoison 0], false, none⟩
  | .fault c _ => ⟨s.faultLane x.core x.slot l c (x.cardAddr l) x.pc, false, none⟩
  | .wait n s => ⟨s, false, some n⟩
  | .ok bs s =>
    let asked := (PoolCard.ofBytes bs).scope
    let scope := min asked (s.ceilOf x.core)
    let (left, s) := (s.publishPhase x.core x.slot l scope).submitPool x l op scope bs row
    ⟨s, left.isNone && decide (scope < asked), left⟩

/-- The lanes in ascending order, up to one that is kept back: whether a publication was demoted, the lanes left
at their instruction, and how long. -/
def State.poolLanes (s : State) (x : Ctx) (op : Nat) : List Nat → Bool → State × Bool × List Nat × Nat
  | [], d => (s, d, [], 0)
  | l :: ls, d =>
    let r := s.poolLane x op l
    match r.left with
    | some n => (r.s, d, l :: ls, n)
    | none => r.s.poolLanes x op ls (d || r.demoted)

/-- XPOOL (R437, R439). -/
def State.xpoolOp (s : State) (sh : Shape) (f : Fields) (op : Nat) : State :=
  let (x, s) := s.begin sh f
  let sp := f.mod.getLsbD 4
  let lv := x.levelTraps
  let as := (x.without lv).map fun l => (l, x.cardAddr l)
  let ts := lv ++ as.filterMap fun (l, a) =>
    if a.toNat % 64 ≠ 0 then some (LaneTrap.at_ l causeMisalign a)
    else if sp ∧ s.teamScratch x.core < a.toNat + 64 then some (.at_ l causeScratchRange a) else none
  let (s, dem, left, n) := s.poolLanes x op (x.without ts) false
  let s := (s.finishWait x ts (left.map fun l => (l, .answer)) false []).leaveLanes x left n
  s.countDemoted (s.corePart x.core) dem

/-! ## The modules (R439, R440, R525) -/

/-- The module that holds a pool page: bits [29:24] of its number (R525). -/
def moduleOf (page : Nat) : Nat := page / 2 ^ 24 % 64

/-- Physical address of line i of a range. -/
def lineOf (frames : List Nat) (off i : Nat) : Nat :=
  let o := off + 128 * i
  frames.getD (o / 65536) 0 * 65536 + o % 65536

/-- An operation is over: its status goes to the thread, as an acquire at the card's scope. -/
def State.endPool (s : State) (o : PoolOp) (st : Word) : State :=
  let s := { s with poolOps := s.poolOps.filter fun (p : PoolOp) => p.id != o.id }
  match o.dst with
  | some r => s.deliverThread o.launch o.team o.thread r o.tag (s.now + s.tierRow o.core (lineOf o.dstFrames o.dstOff 0))
      st (some o.scope)
  | none => s

/-- A module writes a line: the owner's copies are recalled, and it is published at SYSTEM. -/
def State.poolWrite (s : State) (pa : Nat) (bs : List Byte) : State :=
  (s.recall (pa / 128)).agentWrite pa bs

/-- Eight bytes, sixteen times. -/
def poolPattern (w : DWord) : List Byte := (List.replicate 16 (leBytes 8 w.toNat)).flatten

/-- One line of a fill, a copy or a compare: the status that ends the operation, if it does. -/
def State.poolLine (s : State) (o : PoolOp) : Option Word × State :=
  let d := lineOf o.dstFrames o.dstOff o.pos
  let src := lineOf o.srcFrames o.srcOff o.pos
  match o.op with
  | 0 => (none, s.poolWrite d (poolPattern o.word))
  | 1 =>
    if s.poisoned src 128 then (some (status stPoison o.pos), s)
    else (none, s.poolWrite d ((s.recall (src / 128)).merged src 128))
  | _ =>
    if s.poisoned src 128 || s.poisoned d 128 then (some (status stPoison o.pos), s)
    else if s.merged src 128 = s.merged d 128 then (none, s)
    else (some (status stCompareFail o.pos), s)

/-! ### Reductions (R440) -/

/-- A status whose detail the manual does not state for reductions: the detail is a free value. -/
def State.openStatus (s : State) (code : Nat) : Word × State :=
  let (n, s) := s.free
  (status code (Config.openWord n).toNat, s)

/-- The lowest member of a mask that is absent. -/
def State.absentOf (s : State) (mask : Nat) : Option Nat :=
  (List.range 32).find? fun i => mask.testBit i && !s.poolPresent.getLsbD i

/-- A post's status, where it waits in this package. -/
def State.tellPost (s : State) (who : Option Nat) (st : Word) : State :=
  match who.bind fun id => s.poolOps.find? fun o => o.id == id with
  | some o => s.endPool o st
  | none => s

/-- A record closes: every post receives its status. -/
def State.closeReduction (s : State) (r : Reduction) (st : Word) : State :=
  let s := { s with reductions := s.reductions.filter fun (x : Reduction) => !(x.key == r.key && x.dst == r.dst) }
  r.waiters.foldl (fun s id => s.tellPost (some id) st) s

/-- A post in a record that exists (R440). -/
def State.joinReduction (s : State) (r : Reduction) (member : Nat) (elems : List Byte) (who : Option Nat) :
    State :=
  let r := { r with elems := r.elems.put member elems
                    waiters := r.waiters ++ (match who with | some id => [id] | none => []) }
  let s := { s with
    reductions := s.reductions.map fun (x : Reduction) => if x.key = r.key ∧ x.dst = r.dst then r else x
    poolOps := s.poolOps.map fun (o : PoolOp) => if who = some o.id then { o with posted := true } else o }
  if (List.range 32).all fun i => !r.mask.testBit i || (r.elems.find i).isSome then
    s.schedule (s.now + 1) (.reductionComplete r.key r.dst)
  else s

/-- A post reaches the module of DST's page (R440). -/
def State.postReduction (s : State) (member : Nat) (key : DWord) (dst len mask : Nat) (start : Bool)
    (elems : List Byte) (who : Option Nat) : State :=
  match s.reductions.find? fun r => r.key == key && r.dst == dst with
  | some r =>
    if r.len ≠ len ∨ r.mask ≠ mask ∨ r.start ≠ start ∨ (r.elems.find member).isSome then
      let (st, s) := s.openStatus stMalformed
      s.tellPost who st
    else s.joinReduction r member elems who
  | none =>
    let m := moduleOf ((dst - poolStart) / 65536)
    let held := (s.reductions.filter fun r => moduleOf ((r.dst - poolStart) / 65536) == m).length
    if 256 ≤ held then
      let (st, s) := s.openStatus stFull
      s.tellPost who st
    else
      match s.absentOf mask with
      | some i => s.tellPost who (status stAbsent i)
      | none =>
        let s := s.tick
        let r : Reduction := { key := key, dst := dst, len := len, mask := mask, start := start, elems := []
                               waiters := [], stamp := s.order }
        let s : State := { s with reductions := s.reductions ++ [r] }
        (s.schedule (s.now + 2 ^ 26) (.reductionTimeout key dst r.stamp)).joinReduction r member elems who

/-- POOL_MODULE_OP (R439): one line of the operation, or the post of a reduction. (Log 61, DEDUCED.) -/
def State.poolStep (s : State) (id : Nat) : State :=
  match s.poolOps.find? fun o => o.id == id with
  | none => s
  | some o =>
    if o.op = 3 then
      s.postReduction s.memberOf o.word (lineOf o.dstFrames o.dstOff 0) o.len o.mask o.start o.elems (some id)
    else
      match s.poolLine o with
      | (some st, s) => s.endPool o st
      | (none, s) =>
        if o.len ≤ 128 * (o.pos + 1) then s.endPool o (status stOk 0)
        else
          { s with poolOps := s.poolOps.map fun (p : PoolOp) =>
            if p.id = id then { p with pos := p.pos + 1 } else p }.schedule (s.now + 1) (.poolModuleOp id)

/-- Member i's element j. -/
def Reduction.elem (r : Reduction) (i j : Nat) : Value :=
  elemValue .bf16 (leNat (((r.elems.get [] i).drop (2 * j)).take 2))

/-- The members of a mask, rising. -/
def membersOf (mask : Nat) : List Nat := (List.range 32).filter mask.testBit

/-- Element j of DST after the reduction: members in ascending order, rounded at each step. -/
def Reduction.sum (r : Reduction) (old : Nat) (j : Nat) : Nat :=
  (membersOf r.mask).foldl (fun acc i =>
    roundTo .f32 false .rne ((elemValue .f32 acc).add false (r.elem i j))) (if r.start then 0 else old)

/-- Line i of DST after the reduction. -/
def State.reducedLine (s : State) (r : Reduction) (i : Nat) : List Byte :=
  (List.range 32).flatMap fun k =>
    leBytes 4 (r.sum (s.mergedNat (r.dst + 128 * i + 4 * k) 4) (32 * i + k))

/-- Write the lines of DST in order; the first poisoned line that is read ends it. -/
def State.reduceLines (s : State) (r : Reduction) : List Nat → Option Nat × State
  | [] => (none, s)
  | i :: t =>
    if !r.start && s.poisoned (r.dst + 128 * i) 128 then (some i, s)
    else (s.poolWrite (r.dst + 128 * i) (s.reducedLine r i)).reduceLines r t

/-- REDUCTION_COMPLETE (R440). -/
def State.reduceNow (s : State) (key : DWord) (dst : Nat) : State :=
  match s.reductions.find? fun r => r.key == key && r.dst == dst with
  | none => s
  | some r =>
    match s.reduceLines r (List.range (r.len / 128)) with
    | (some i, s) => s.closeReduction r (status stPoison i)
    | (none, s) => s.closeReduction r (status stOk (membersOf r.mask).length)

/-- REDUCTION_TIMEOUT (R440): 2^26 cycles of the module after the record was opened. -/
def State.reduceLate (s : State) (key : DWord) (dst stamp : Nat) : State :=
  match s.reductions.find? fun r => r.key == key && r.dst == dst && r.stamp == stamp with
  | none => s
  | some r =>
    let (st, s) := s.openStatus stTimeout
    s.closeReduction r st

/-! ## Membership (R435, R436) -/

/-- Records that name an absent member close. -/
def State.checkPresence (s : State) : State :=
  s.reductions.foldl (fun s r =>
    match s.absentOf r.mask with
    | some i => s.closeReduction r (status stAbsent i)
    | none => s) s

/-- POOL_MEMBER_LEAVE (R436): its pages are reclaimed, and the lines it held dirty are lost. -/
def State.memberLeave (s : State) (member : Nat) (dirty : List Nat) : State :=
  let gone := (s.owners.filter fun o => o.2 == member).map (·.1)
  { s with
    poolPresent := s.poolPresent &&& ~~~(BitVec.twoPow 32 member)
    owners := s.owners.filter fun o => o.2 != member
    ownerSince := s.ownerSince.filter fun o => !gone.contains o.1
    handovers := s.handovers.filter fun h => h.2.1 != member
    poison := dirty.foldl (fun ls l => insertNat l ls) s.poison }.checkPresence

/-- POOL_MEMBER_JOIN (R435). -/
def State.memberJoin (s : State) (member : Nat) : State :=
  { s with poolPresent := s.poolPresent ||| BitVec.twoPow 32 member }

/-! ## Peer windows at the target (R425, R426) -/

/-- Step 2 of R425: the entry for the requester is valid and names its partition. -/
def State.pairedWith (s : State) (rpart podid frm : Nat) : Bool :=
  ((s.part rpart).peer podid).any fun e => e.rpart == frm

/-- Step 3: W is translated as an address of RPART below 2^46. -/
def State.peerXlat (s : State) (rpart w : Nat) (n : Need) : Option Xlat :=
  if 2 ^ 46 ≤ w then none
  else
    match s.xlate rpart (s.part rpart).datp w with
    | .ok x => if s.checkXlat rpart n x then some x else none
    | .error _ => none

/-- Step 4: the page lies in a peer lease of the requesting launch. -/
def State.peerLeased (s : State) (r : PeerReq) : Bool :=
  s.peerLeases.any fun l => l.podid == r.podid && l.frm == r.frm && l.rpart == r.rpart &&
    l.launch == r.lease && decide (l.lease.page ≤ r.w.toNat / 65536) &&
    decide (r.w.toNat / 65536 < l.lease.page + l.lease.count)

/-- What a peer's operation needs of the page (R403, R425). -/
def peerNeed : PeerOp → Need
  | .load _ => Need.read
  | .store _ => Need.write
  | _ => Need.both

/-- Its bytes. -/
def peerSize : PeerOp → Nat
  | .load n => n
  | .store bs => bs.length
  | .atom _ ty _ | .cas ty _ _ => 4 * ty.regs
  | .last _ => 4

/-- What it does at the slice. -/
def peerHeld : PeerOp → HeldOp
  | .load _ => .load false false
  | .store bs => .store bs false
  | .atom o ty v => .atom o ty v
  | .cas ty c v => .cas ty c v
  | .last n => .last n

/-- The answer to a peer. -/
def State.answerPeer (s : State) (podid cause : Nat) (data : List Byte) : State :=
  { s with outs := s.outs ++ [.peer podid cause data] }

/-- Perform a peer's access at its home slice: a store is published at POD (R391), and so is an atomic's
write (R396). -/
def State.peerPerform (s : State) (r : PeerReq) (pa : Nat) : State :=
  let n := peerSize r.op
  let op := peerHeld r.op
  if s.poisoned pa n && !op.isStore then s.answerPeer r.podid causePoison []
  else
    let old := s.view .merged pa n
    let s := s.l2Touch pa false
    match r.op with
    | .load _ => s.answerPeer r.podid 0 old
    | .store bs => (if s.dropsStore pa bs then s else s.agentWrite pa bs).answerPeer r.podid 0 []
    | _ =>
      let (new, ret) := op.update (leNat old)
      (s.agentWrite pa (leBytes n new)).answerPeer r.podid 0 (leBytes n ret)

/-- PEER_WINDOW_ACCESS (R425): the first check that fails is the requester's fault; a refusal by step 3 is
recorded in RPART's terminal ring. -/
def State.peerAccessIn (s : State) (r : PeerReq) : State :=
  if !s.pairedWith r.rpart r.podid r.frm then s.answerPeer r.podid causePerm []
  else
    match s.peerXlat r.rpart r.w.toNat (peerNeed r.op) with
    | none =>
      (s.addRecord 0 r.rpart 1 (ringRecord 2 (BitVec.ofNat 8 causePerm) 0 0 r.w 0 0xFFFF 0xFF 0xFF)).answerPeer
        r.podid causePerm []
    | some x =>
      if !s.peerLeased r then s.answerPeer r.podid causeLeaseOut []
      else if s.needsHandover x.pa then (s.askHandover x.pa).schedule (s.now + 512) (.peerWindowAccess r)
      else (s.setAD x (peerNeed r.op).w).peerPerform r x.pa

/-- The answer to a peer's lease request (R426): every page passes steps 2 and 3, and its frame becomes resident
within the partition's quotas (log 79). -/
def State.peerLeaseStatus (s : State) (podid frm rpart range : Nat) (base : DWord) (len kind : Nat) :
    Word × State :=
  let k := leaseKindOf kind
  if !s.pairedWith rpart podid frm then (status stDenied (range + 32 * causePerm), s)
  else
    let lo := windowOff base.toNat / 65536
    let n := (windowOff base.toNat + len - 1) / 65536 + 1 - lo
    match (List.range' lo n).findSome? fun p =>
        if (s.peerXlat rpart (p * 65536) k.need).isSome then none
        else some (match s.xlate rpart (s.part rpart).datp (p * 65536) with
          | .error .invalid => status stAbsent range
          | _ => status stDenied (range + 32 * causePerm)) with
    | some w => (w, s)
    | none =>
      match s.reside rpart ((List.range' lo n).filterMap fun p => s.peerXlat rpart (p * 65536) k.need) with
      | none => (status stQuota 0, s)
      | some s => (status stOk 0, s)

/-- PEER_LEASE_MESSAGE (R426): the lease unit answers, and records a lease that it grants; without a free
record the request waits (R124). -/
def State.peerLease (s : State) (podid frm rpart launch range : Nat) (base : DWord) (len kind : Nat) :
    State :=
  let (st, s) := s.peerLeaseStatus podid frm rpart range base len kind
  let unit := s.homeUnit rpart
  if st.toNat % 256 ≠ stOk then s.sendReg podid (.leaseAnswer launch range st)
  else
    match (s.hub unit).freeRecord with
    | none => s.schedule (s.now + 4096) (.peerLeaseMessage podid frm rpart launch range base len kind)
    | some k =>
      let lo := windowOff base.toNat / 65536
      let l : PeerLease :=
        { podid := podid, frm := frm, rpart := rpart, launch := launch
          lease := ⟨lo, (windowOff base.toNat + len - 1) / 65536 + 1 - lo, leaseKindOf kind⟩
          record := 1024 * unit + k }
      let s := s.modHub unit fun h => { h with leasesUsed := insertNat k h.leasesUsed }
      { s with peerLeases := s.peerLeases ++ [l] }.sendReg podid (.leaseAnswer launch range st)

/-- A peer's launch has ended: its leases here are released. -/
def State.peerRelease (s : State) (podid frm rpart launch : Nat) : State :=
  let mine := fun (l : PeerLease) =>
    l.podid == podid && l.frm == frm && l.rpart == rpart && l.launch == launch
  let gone := s.peerLeases.filter mine
  let s : State := { s with peerLeases := s.peerLeases.filter fun l => !mine l }
  let s := gone.foldl (fun s l => s.modHub (l.record / 1024) fun h =>
    { h with leasesUsed := h.leasesUsed.filter fun k => k != l.record % 1024 }) s
  s.retryGrants

/-! ## The registered class (R428) -/

/-- An answer that a launch's grant waits for (R426). -/
def State.leaseAnswered (s : State) (queue range : Nat) (st : Word) : State :=
  s.parts.foldl (fun s (p, x) =>
    if x.grants.any fun g => g.queue == queue && g.asked.contains range then
      (s.modPart p fun y => { y with grants := y.grants.map fun g =>
        if g.queue = queue then { g with answers := g.answers.put range st } else g }).scheduleOnce
        (s.now + 1) (.leaseGrant p queue)
    else s) s

/-- The answer to a remote SBREAD (R495). -/
def State.ballotAnswered (s : State) (id : Nat) (vals : List Word) : State :=
  match s.ballotCalls.find? fun c => c.id == id with
  | none => s
  | some c =>
    let s : State := { s with ballotCalls := s.ballotCalls.filter fun b => b.id != id }
    c.lanes.foldl (fun s l => s.deliver c.core c.slot l c.tag s.now vals) s

/-- Whether a message that was sent is the question of an answer. -/
def msgAsks : RegMsg → RegMsg → Bool
  | .ballotRead _ _ _ _ _ tag, .ballotAnswer t _ _ _ => tag == t
  | .lease _ _ _ l r _ _ _, .leaseAnswer k q _ => l == k && r == q
  | _, _ => false

/-- Perform a message. (Log 8, DESIGN CHOICE.) -/
def State.performMsg (s : State) (podid : Nat) (m : RegMsg) : State :=
  let s : State := { s with unacked := s.unacked.filter fun u => !(u.pod == podid && msgAsks u.msg m) }
  match m with
  | .poolPost member key dst len mask start elems =>
    s.postReduction member key dst len mask start elems none
  | .ballotRead pod frm rpart key sel tag =>
    let ok := s.pairedWith rpart pod frm && ((s.part rpart).peer pod).any (·.r)
    let (st, v, w) := if ok then s.readBallot rpart key sel else (status stDenied 0, 0, 0)
    s.sendReg pod (.ballotAnswer tag st v w)
  | .ballotAnswer tag st v w => s.ballotAnswered tag (readWords st v w)
  | .lease pod frm rpart launch range base len kind =>
    s.schedule s.now (.peerLeaseMessage pod frm rpart launch range base len kind)
  | .leaseRelease pod frm rpart launch => s.peerRelease pod frm rpart launch
  | .leaseAnswer queue range st => s.leaseAnswered queue range st

/-- REGISTERED_RECEIVE (R428): the first copy whose CRC verifies, unless its number lies within the last
4,096 performed. -/
def State.regReceive (s : State) (podid : Nat) (seq : Word) (crcOk : Bool) (m : RegMsg) : State :=
  let old := s.recvSeq.get [] podid
  if !crcOk || old.contains seq.toNat then s
  else
    let all := old ++ [seq.toNat]
    { s with recvSeq := s.recvSeq.put podid (all.drop (all.length - 4096)) }.performMsg podid m

/-- Times that an unanswered message is sent again before it counts as a fabric failure (log 13, DESIGN CHOICE). -/
def resendLimit : Nat := 4

/-- A message that the fabric could not deliver: SBREAD returns TIMEOUT (R495); a lease request is denied as
a fabric failure (R425, R428). -/
def State.lostMsg (s : State) (m : RegMsg) : State :=
  match m with
  | .ballotRead _ _ _ _ _ tag => s.ballotAnswered tag (readWords (status stTimeout 0) 0 0)
  | .lease _ _ _ queue range _ _ _ => s.leaseAnswered queue range (status stDenied (range + 32 * causePerm))
  | _ => s

/-- REGISTERED_RESEND (R428): nothing has answered within 65,536 cycles. -/
def State.regResend (s : State) (podid : Nat) (seq : Word) : State :=
  match s.unacked.find? fun u => u.pod == podid && u.seq == seq with
  | none => s
  | some u =>
    let mine := fun (v : Unacked) => v.pod == podid && v.seq == seq
    if resendLimit ≤ u.tries then
      { s with unacked := s.unacked.filter fun v => !mine v }.lostMsg u.msg
    else
      { s with
        outbox := s.outbox ++ [(podid, u.msg)]
        unacked := s.unacked.map fun v => if mine v then { v with tries := v.tries + 1 } else v }.schedule
        (s.now + 65536) (.registeredResend podid seq)

/-! ## Stations (R422, R427, R429, R430) -/

/-- The two stations of a registered message (R428). -/
def State.regStations (s : State) (hub pod q : Nat) : List Nat :=
  match s.stationOf hub pod q with
  | none => []
  | some a =>
    let h := a / 16
    let k := (a % 16 + 8) % 16
    let b := ((List.range 16).map fun i => 16 * h + (k + i) % 16).find? fun n => (s.station n).up
    [a] ++ (match b with | some b => [b] | none => [])

/-- The next narrower width. -/
def Station.narrow (x : Station) (now : Nat) : Station := ⟨x.width / 2, now + 2048⟩

/-- LANE_FAILURE (R429, R475): the station carries nothing for 2,048 cycles; its last lane takes it
down. -/
def State.laneFail (s : State) (k : Nat) : State :=
  let x := (s.station k).narrow s.now
  let s := { s with stations := s.stations.put k x }
  let s := (s.replaceBit (24 + k)).logError 4 k (BitVec.ofNat 64 x.width)
  if x.up then s.schedule x.retrainEnd (.retrainEnd k) else s.schedule s.now (.stationDown k)

/-- RETRAIN_END (R429): the station carries traffic again. -/
def State.retrained (s : State) (k : Nat) : State :=
  let x := s.station k
  if x.retrainEnd ≤ s.now then { s with stations := s.stations.put k { x with retrainEnd := 0 } } else s

/-- STATION_DOWN (R430): it carries nothing until the package is reset, and R427 chooses another. -/
def State.downStation (s : State) (k : Nat) : State :=
  let s := { s with stations := s.stations.put k ⟨0, 0⟩ }
  s.replaceBit (24 + k)

/-! ## The fabric buckets (R431) -/

/-- Bytes that a hub's working links carry in 64 cycles: 12 / x cycles a line on a station of width x
(R422), and six ports of 1.6 Tb/s (R16). -/
def State.hubEgress (s : State) (hub : Nat) : Nat :=
  let lanes := ((List.range 16).map fun i =>
    let x := s.station (16 * hub + i)
    if s.now < x.retrainEnd then 0 else x.width).sum
  64 * 128 * lanes / 12 + 36571

/-- The partition has egress that waits. (Log 55, DEDUCED.) -/
def State.egressWaits (s : State) (part : Nat) : Bool := s.agenda.any fun e => e.2 == .scaleOutSend part

/-- FABRIC_TOKEN_REFILL (R431): rates are scaled when the hub's working egress is short. -/
def State.refillFabric (s : State) (hub : Nat) : State :=
  let old := fun (p : Nat) => (s.part p).fbkt.get Bucket.zero hub
  let bs := (List.range 48).map fun p => (p, old p)
  let sum := (bs.map fun b => b.2.rate).sum
  let cap := s.hubEgress hub
  let short := decide (cap < sum)
  let scaled := bs.map fun (p, b) => (p, if short then { b with rate := b.rate * cap / sum } else b)
  let (got, last) := refillAll scaled (fun p => !s.egressWaits p) s.egressWaits
    ((s.hub hub).lastShare.find (100 + hub))
  let s := got.foldl (fun s (p, b) =>
    let b := { b with rate := (old p).rate }
    let cut := short && b.rate != 0
    if b = old p ∧ !cut then s
    else s.modPart p fun x =>
      { x with fbkt := x.fbkt.put hub b, fabshort := if cut then x.fabshort + 1 else x.fabshort }) s
  let s := match last with
    | some k => s.modHub hub fun h => { h with lastShare := h.lastShare.put (100 + hub) k }
    | none => s
  s.schedule (s.now + 64) (.fabricTokenRefill hub)

/-! ## Scale-out envelopes (R432 to R434) -/

/-- The partition's egress queue, enabled and a data queue. (Log 62, DEDUCED.) -/
def State.egressQueue (s : State) (part : Nat) : Option (Nat × QDesc) :=
  let va := (s.part part).xoq.toNat
  if va = 0 then none
  else
    match s.agentPa part (s.part part).datp va Need.any with
    | none => none
    | some q =>
      let d := s.qdesc .merged q
      if d.ok ∧ d.kind = 0 ∧ d.part = part then some (q, d) else none

/-- A status address that the partition can be told at. -/
def State.statusOk (s : State) (part va : Nat) : Bool :=
  va == 0 || (va % 4 == 0 && s.launches.any fun (_, l) => l.part == part && l.leased (va / 65536) Need.write)

/-- The first offending offset of a remote envelope (R433). -/
def State.envelopeBad (s : State) (part : Nat) (bs : List Byte) : Option Nat :=
  let n := lineNat bs
  leastOf (charge 0 (n 0 1 != 2) ++ charge 1 (decide (2 ≤ n 1 1)) ++ charge 2 (n 2 2 != 0) ++
    charge 4 (decide (2 ^ 21 ≤ n 4 4) || n 4 4 == s.pkgid.toNat / 1024 % 2 ^ 21) ++
    charge 8 (decide (4096 ≤ n 8 2)) ++ charge 0x0A (n 0x0A 6 != 0) ++
    charge 0x10 (!s.statusOk part (n 0x10 8)) ++ charge 0x78 (n 0x78 8 != 0))

/-- Write a status word for an envelope, published at PARTITION; 0 names no place. -/
def State.tellSender (s : State) (part va : Nat) (st : Word) : State :=
  if va = 0 ∨ !s.statusOk part va then s
  else
    match s.agentUse part (s.part part).datp va Need.write true with
    | some (pa, s) => s.agentWrite pa (leBytes 4 st.toNat)
    | none => s

/-- Envelopes delivered from a partition's egress queue to a target. -/
def State.deliveredTo (s : State) (part soid qnum : Nat) : DWord :=
  (((s.delivered.get [] part).find? fun e => e.1 == 4096 * soid + qnum).map (·.2)).getD 0

def State.countDelivered (s : State) (part soid qnum : Nat) : State :=
  let k := 4096 * soid + qnum
  let old := s.delivered.get [] part
  let n := s.deliveredTo part soid qnum + 1
  { s with delivered := s.delivered.put part ((old.filter fun e => e.1 != k) ++ [(k, n)]) }

/-- The envelope that leaves. -/
def State.envelopeOut (s : State) (part : Nat) (bs : List Byte) (qnum : Nat) : RemoteEnv :=
  { soid := BitVec.ofNat 32 (s.pkgid.toNat / 1024 % 2 ^ 21), srcQnum := BitVec.ofNat 12 qnum
    tag := (s.part part).xotag, qnum := BitVec.ofNat 12 (lineNat bs 8 2)
    count := s.deliveredTo part (lineNat bs 4 4) (lineNat bs 8 2)
    waitroom := lineNat bs 1 1 % 2 == 1, payload := (bs.drop 0x18).take 96 }

/-- Take tokens of a partition on its home hub (R431). -/
def State.takeFabric (s : State) (part n : Nat) : Option State :=
  let h := s.homeUnit part
  let b := (s.part part).fbkt.get Bucket.zero h
  if b.tokens < n then none
  else some (s.modPart part fun x => { x with fbkt := x.fbkt.put h { b with tokens := b.tokens - n } })

/-- SCALE_OUT_SEND (R432, R433): the engine removes the next envelope once the last one's status is
written, and sends it when the bucket has its 128 bytes. -/
def State.scaleSend (s : State) (part : Nat) : State :=
  match (s.part part).scaleBusy, s.egressQueue part with
  | none, some (q, d) =>
    let s := s.knowQueue part q
    if d.empty then s
    else
      match s.agentUse part (s.part part).datp (d.slotVa d.head) Need.any false with
      | none => s
      | some (spa, s) =>
        let bs := s.merged spa 128
        let pop := fun (s : State) => (s.putField q 16 8 (d.head + 1)).ringFreed q
        match s.envelopeBad part bs with
        | some o =>
          ((pop s).tellSender part (lineNat bs 0x10 8) (status stMalformed o)).scheduleOnce (s.now + 1)
            (.scaleOutSend part)
        | none =>
          match s.takeFabric part 128 with
          | none => s.scheduleOnce (s.now + 1) (.scaleOutSend part)
          | some s =>
            let e := s.envelopeOut part bs d.qnum
            let s := s.modPart part fun p =>
              { p with scaleBusy := some (lineNat bs 0x10 8, lineNat bs 4 4, lineNat bs 8 2) }
            let s : State := { s with outs := s.outs ++ [.env (lineNat bs 4 4) e] }
            pop s
  | _, _ => s

/-- SCALE_OUT_STATUS (R434): the target has answered. -/
def State.scaleStatus (s : State) (part : Nat) (st : Word) : State :=
  match (s.part part).scaleBusy with
  | none => s
  | some (va, soid, qnum) =>
    let s := if st.toNat % 256 = stOk then s.countDelivered part soid qnum else s
    let s := s.tellSender part va st
    (s.modPart part fun p => { p with scaleBusy := none }).scheduleOnce (s.now + 1) (.scaleOutSend part)

/-- The queue that an envelope is for: an enabled data queue of that number whose partition's tag is the one
carried (R434). -/
def State.targetQueue (s : State) (e : RemoteEnv) : Option (Nat × Nat × QDesc) :=
  s.parts.findSome? fun (p, x) =>
    if x.xotag ≠ e.tag then none
    else (x.queues.find? fun q =>
      let d := s.qdesc .merged q
      d.ok && d.kind == 0 && d.part == p && d.qnum == e.qnum.toNat).map fun q => (p, q, s.qdesc .merged q)

/-- The envelope as it is inserted (R434). -/
def envLine (e : RemoteEnv) : List Byte :=
  leBytes 1 3 ++ leBytes 3 0 ++ leBytes 4 e.soid.toNat ++ leBytes 2 e.srcQnum.toNat ++ leBytes 6 0 ++
    leBytes 8 e.count.toNat ++ (e.payload ++ List.replicate 96 0).take 96 ++ leBytes 8 0

/-- The answer to a sender. -/
def State.answerEnv (s : State) (e : RemoteEnv) (st : Word) : State :=
  { s with outs := s.outs ++ [.status e.soid.toNat e.srcQnum.toNat st] }

/-- Insert an envelope, if its queue has room: none where it is full. -/
def State.insertEnv (s : State) (e : RemoteEnv) : Option State :=
  match s.targetQueue e with
  | none => some (s.answerEnv e (status stDenied 0))
  | some (p, q, d) =>
    if d.full then none
    else
      match s.agentUse p (s.part p).datp (d.slotVa d.tail) Need.any true with
      | none => some (s.answerEnv e (status stDenied 0))
      | some (spa, s) => some (((s.agentWrite spa (envLine e)).putField q 24 8 (d.tail + 1)).answerEnv e (status stOk 0))

/-- SCALE_OUT_RECEIVE (R434). -/
def State.scaleReceive (s : State) (e : RemoteEnv) : State :=
  match s.insertEnv e with
  | some s => s
  | none =>
    if e.waitroom then
      let s := s.tick
      { s with waitroom := s.waitroom ++ [(s.order, s.now + 65536, e)] }.schedule (s.now + 4096)
        (.waitroomRetry s.order)
    else s.answerEnv e (status stFull 0)

/-- WAITROOM_RETRY (R434): every 4,096 cycles, up to 65,536. -/
def State.waitroomRetry (s : State) (id : Nat) : State :=
  match s.waitroom.find? fun w => w.1 == id with
  | none => s
  | some (_, ends, e) =>
    let out := fun (s : State) => { s with waitroom := s.waitroom.filter fun w => w.1 != id }
    match s.insertEnv e with
    | some s => out s
    | none =>
      if ends ≤ s.now then (out s).answerEnv e (status stTimeout 0)
      else s.schedule (s.now + 4096) (.waitroomRetry id)

/-- CXL_PORT_DOWN (R168, R475). -/
def State.portDown (s : State) (port : Nat) : State :=
  ({ s with ports := s.ports.put port true }.replaceBit (72 + port)).logError 5 port 0

/-! ## Meanings -/

/-- XPOOL.fill (R439). -/
def execXpoolFill (f : Fields) (s : State) : Res := .next (s.xpoolOp (Instr.xpoolFill f).shape f 0)
/-- XPOOL.copy (R439). -/
def execXpoolCopy (f : Fields) (s : State) : Res := .next (s.xpoolOp (Instr.xpoolCopy f).shape f 1)
/-- XPOOL.cmp (R439). -/
def execXpoolCmp (f : Fields) (s : State) : Res := .next (s.xpoolOp (Instr.xpoolCmp f).shape f 2)
/-- XPOOL.reduce (R439, R440). -/
def execXpoolReduce (f : Fields) (s : State) : Res := .next (s.xpoolOp (Instr.xpoolReduce f).shape f 3)

/-- POOL_MODULE_OP (R439). -/
def execPoolModuleOp (s : State) : Res :=
  match s.event with
  | .poolModuleOp id => .next (s.poolStep id)
  | _ => .next s

/-- REDUCTION_COMPLETE (R440). -/
def execReductionComplete (s : State) : Res :=
  match s.event with
  | .reductionComplete key dst => .next (s.reduceNow key dst)
  | _ => .next s

/-- REDUCTION_TIMEOUT (R440). -/
def execReductionTimeout (s : State) : Res :=
  match s.event with
  | .reductionTimeout key dst stamp => .next (s.reduceLate key dst stamp)
  | _ => .next s

/-- POOL_MEMBER_LEAVE (R436). -/
def execPoolMemberLeave (s : State) : Res :=
  match s.event with
  | .poolMemberLeave m dirty => .next (s.memberLeave m dirty)
  | _ => .next s

/-- POOL_MEMBER_JOIN (R435). -/
def execPoolMemberJoin (s : State) : Res :=
  match s.event with
  | .poolMemberJoin m => .next (s.memberJoin m)
  | _ => .next s

/-- PEER_WINDOW_ACCESS (R425). -/
def execPeerWindowAccess (s : State) : Res :=
  match s.event with
  | .peerWindowAccess r => .next (s.peerAccessIn r)
  | _ => .next s

/-- PEER_LEASE_MESSAGE (R426). -/
def execPeerLeaseMessage (s : State) : Res :=
  match s.event with
  | .peerLeaseMessage pod frm rpart launch range base len kind =>
    .next (s.peerLease pod frm rpart launch range base len kind)
  | _ => .next s

/-- REGISTERED_RECEIVE (R428). -/
def execRegisteredReceive (s : State) : Res :=
  match s.event with
  | .registeredReceive pod seq ok m => .next (s.regReceive pod seq ok m)
  | _ => .next s

/-- REGISTERED_RESEND (R428). -/
def execRegisteredResend (s : State) : Res :=
  match s.event with
  | .registeredResend pod seq => .next (s.regResend pod seq)
  | _ => .next s

/-- LANE_FAILURE (R429). -/
def execLaneFailure (s : State) : Res :=
  match s.event with
  | .laneFailure k => .next (s.laneFail k)
  | _ => .next s

/-- RETRAIN_END (R429). -/
def execRetrainEnd (s : State) : Res :=
  match s.event with
  | .retrainEnd k => .next (s.retrained k)
  | _ => .next s

/-- STATION_DOWN (R430). -/
def execStationDown (s : State) : Res :=
  match s.event with
  | .stationDown k => .next (s.downStation k)
  | _ => .next s

/-- FABRIC_TOKEN_REFILL (R431). -/
def execFabricTokenRefill (s : State) : Res :=
  match s.event with
  | .fabricTokenRefill hub => .next (s.refillFabric hub)
  | _ => .next s

/-- SCALE_OUT_SEND (R432). -/
def execScaleOutSend (s : State) : Res :=
  match s.event with
  | .scaleOutSend part => .next (s.scaleSend part)
  | _ => .next s

/-- SCALE_OUT_RECEIVE (R434). -/
def execScaleOutReceive (s : State) : Res :=
  match s.event with
  | .scaleOutReceive e => .next (s.scaleReceive e)
  | _ => .next s

/-- WAITROOM_RETRY (R434). -/
def execWaitroomRetry (s : State) : Res :=
  match s.event with
  | .waitroomRetry id => .next (s.waitroomRetry id)
  | _ => .next s

/-- SCALE_OUT_STATUS (R434). -/
def execScaleOutStatus (s : State) : Res :=
  match s.event with
  | .scaleOutStatus part st => .next (s.scaleStatus part st)
  | _ => .next s

/-- CXL_PORT_DOWN (R168). -/
def execCxlPortDown (s : State) : Res :=
  match s.event with
  | .cxlPortDown port => .next (s.portDown port)
  | _ => .next s

end Sys2Proof.Machine
end

