-- ==== Sys2Proof/Machine/Float.lean ====
section
/-! DEFINITION. Float instructions (R262 to R284): the value each rule forms, one rounding, and one meaning
per instruction. -/

namespace Sys2Proof.Machine

/-! ## Modifiers and results -/

/-- Clamp01 (R265) on a code of the format. -/
def clamp01 (t : EFmt) (code : Nat) : Nat :=
  let x := elemValue t code
  if x = .nan ∨ x.isNeg ∨ x.isZero then 0
  else if x.cmp (.ofInt 1) = .gt then roundTo t false .rne (.ofInt 1)
  else code

/-- .absa, then .nega on the value of srcA (R263). -/
def signA (absa nega : Bool) (x : Value) : Value :=
  let x := if absa then x.abs else x
  if nega then x.neg else x

/-- Round under the modifier's mode, then .sat (R264, R265). -/
def fround (t : EFmt) (m : BitVec 5) (x : Value) : Nat :=
  let v := roundTo t false (rmOf m) x
  if m.getLsbD 2 then clamp01 t v else v

/-- The rounding field is .rd, which gives an exact zero sum its sign (R264). -/
def isRd (m : BitVec 5) : Bool := m.getLsbD 0 && m.getLsbD 1

/-- One element of a two-operand operation with .absa in bit 4. -/
def felem2 (t : EFmt) (m : BitVec 5) (F : Value → Value → Value) (a b : Nat) : Nat :=
  fround t m (F (signA (m.getLsbD 4) (m.getLsbD 3) (elemValue t a)) (elemValue t b))

/-- One element of a fused multiply-add, with .negc in bit 4. -/
def felem3 (t : EFmt) (m : BitVec 5) (a b c : Nat) : Nat :=
  let c := elemValue t c
  let c := if m.getLsbD 4 then c.neg else c
  fround t m (((signA false (m.getLsbD 3) (elemValue t a)).mul (elemValue t b)).add (isRd m) c)

/-- The exact sum a + b (R264). -/
def fsum (m : BitVec 5) (a b : Value) : Value := a.add (isRd m) b
/-- The exact difference a − b (R264). -/
def fdiff (m : BitVec 5) (a b : Value) : Value := a.add (isRd m) b.neg

/-- Whether x comes before y, −0 before +0 (R267). -/
def numBefore (x y : Value) : Bool :=
  match x.cmp y with
  | .lt => true
  | .gt => false
  | .eq => x.isNeg || !y.isNeg

/-- minimumNumber and maximumNumber (R267). -/
def minNum (x y : Value) : Value :=
  if x = .nan then y else if y = .nan then x else if numBefore x y then x else y
def maxNum (x y : Value) : Value :=
  if x = .nan then y else if y = .nan then x else if numBefore x y then y else x

/-- A two-operand float instruction of format t. -/
def State.flt2 (s : State) (i : Instr) (f : Fields) (t : EFmt) (F : Value → Value → Value) : State :=
  s.aluLane i.shape f (.flt t) fun x => felem2 t f.mod F x.a x.b

/-- A one-operand F32 instruction. -/
def State.flt1 (s : State) (i : Instr) (f : Fields) (F : Value → Value) : State :=
  s.flt2 i f .f32 fun a _ => F a

/-- The format of a packed pair. -/
def pairFmt (f16 : Bool) : EFmt := if f16 then .f16 else .bf16

/-- Both elements of a packed operation, each by itself (R281). -/
def packed (F : Nat → Nat → Nat → Nat) (x : LaneIn) : Nat :=
  F (x.a % 65536) (x.b % 65536) (x.c % 65536) +
    65536 * F (x.a / 65536) (x.b / 65536) (x.c / 65536)

/-- A packed instruction. -/
def State.pack2 (s : State) (i : Instr) (f : Fields) (f16 : Bool) (F : Value → Value → Value) : State :=
  s.aluLane i.shape f (.pair (pairFmt f16))
    (packed fun a b _ => felem2 (pairFmt f16) f.mod F a b)

/-! ## F32 arithmetic (R266, R267) -/

def execFaddW16 (x : Short16) (s : State) : Res :=
  .next (s.flt2 (.faddW16 x) x.fields .f32 (fsum 0))
def execFaddW32 (x : Short) (s : State) : Res :=
  .next (s.flt2 (.faddW32 x) x.fields .f32 (fsum 0))
def execFadd (f : Fields) (s : State) : Res := .next (s.flt2 (.fadd f) f .f32 (fsum f.mod))
def execFsub (f : Fields) (s : State) : Res := .next (s.flt2 (.fsub f) f .f32 (fdiff f.mod))
def execFmulW16 (x : Short16) (s : State) : Res :=
  .next (s.flt2 (.fmulW16 x) x.fields .f32 Value.mul)
def execFmulW32 (x : Short) (s : State) : Res :=
  .next (s.flt2 (.fmulW32 x) x.fields .f32 Value.mul)
def execFmul (f : Fields) (s : State) : Res := .next (s.flt2 (.fmul f) f .f32 Value.mul)
def execFfma (f : Fields) (s : State) : Res :=
  .next (s.aluLane (Instr.ffma f).shape f (.flt .f32) fun x => felem3 .f32 f.mod x.a x.b x.c)
def execFminW16 (x : Short16) (s : State) : Res :=
  .next (s.flt2 (.fminW16 x) x.fields .f32 minNum)
def execFminW32 (x : Short) (s : State) : Res :=
  .next (s.flt2 (.fminW32 x) x.fields .f32 minNum)
def execFmin (f : Fields) (s : State) : Res := .next (s.flt2 (.fmin f) f .f32 minNum)
def execFmaxW16 (x : Short16) (s : State) : Res :=
  .next (s.flt2 (.fmaxW16 x) x.fields .f32 maxNum)
def execFmax (f : Fields) (s : State) : Res := .next (s.flt2 (.fmax f) f .f32 maxNum)

/-! ## Comparison and class (R268, R269) -/

/-- A float comparison: .absa and .nega on a. -/
def fcmpFn (t : EFmt) (r : FCmp) (m : BitVec 5) (x : LaneIn) : Bool :=
  cmpFloat r (signA (m.getLsbD 4) (m.getLsbD 3) (elemValue t x.a)) (elemValue t x.b)

def execFcmp (r : FCmp) (f : Fields) (s : State) : Res :=
  .next (s.aluPred (Instr.fcmp r f).shape f (.flt .f32) (fcmpFn .f32 r f.mod))

/-- The format FCLASS selects (R269). -/
def fclassFmt (m : BitVec 5) : EFmt :=
  match m.toNat % 4 with
  | 0 => .f32 | 1 => .f64 | 2 => .bf16 | _ => .f16

def fclassFn (m : BitVec 5) (a : Nat) : Nat :=
  match fltOf (fclassFmt m) with
  | some t => classWord t a
  | none => 0

def execFclass (f : Fields) (s : State) : Res :=
  .next (s.aluLane (Instr.fclass f).shape f (.flt (fclassFmt f.mod)) fun x => fclassFn f.mod x.a)

/-! ## Division, roots and the bounded functions (R270, R271) -/

def execFrcp (f : Fields) (s : State) : Res :=
  .next (s.flt1 (.frcp f) f fun a => (Value.ofInt 1).div a)
def execFrsq (f : Fields) (s : State) : Res := .next (s.flt1 (.frsq f) f Value.rsqrt)
def execFsqrt (f : Fields) (s : State) : Res := .next (s.flt1 (.fsqrt f) f Value.sqrt)
def execFdiv (f : Fields) (s : State) : Res := .next (s.flt2 (.fdiv f) f .f32 Value.div)

/-- The function on srcA after .absa and .nega, then .sat. G has the value and its F32 code, the
operand bits that the fixed function of R272 depends on. (Log 24, DESIGN CHOICE.) -/
def State.bounded1 (s : State) (i : Instr) (f : Fields) (G : Value → Word → Nat) : State :=
  s.aluLane i.shape f (.flt .f32) fun x =>
    let a := signA (f.mod.getLsbD 4) (f.mod.getLsbD 3) (elemValue .f32 x.a)
    let v := G a (BitVec.ofNat 32 (roundTo .f32 false .rne a))
    if f.mod.getLsbD 2 then clamp01 .f32 v else v

def execFexp2 (f : Fields) (s : State) : Res := .next (s.bounded1 (.fexp2 f) f Machine.fexp2)
def execFlog2 (f : Fields) (s : State) : Res := .next (s.bounded1 (.flog2 f) f Machine.flog2)
def execFsin (f : Fields) (s : State) : Res := .next (s.bounded1 (.fsin f) f Machine.fsin)
def execFcos (f : Fields) (s : State) : Res := .next (s.bounded1 (.fcos f) f Machine.fcos)
def execFtanh (f : Fields) (s : State) : Res := .next (s.bounded1 (.ftanh f) f Machine.ftanh)

/-! ## Scaling and rounding to integer (R273, R274) -/

/-- FSCALE: n is a signed 32-bit integer. Beyond ±600 every nonzero operand overflows or falls below
the least subnormal alike. -/
def fscaleFn (m : BitVec 5) (a n : Nat) : Nat :=
  fround .f32 m ((signA (m.getLsbD 4) (m.getLsbD 3) (elemValue .f32 a)).scale (clampInt (-600) 600 (toInt 32 n)))

def execFscale (f : Fields) (s : State) : Res :=
  .next (s.alu (Instr.fscale f).shape f (.flt .f32) .int .int fun _ _ x =>
    LaneOut.of (fscaleFn f.mod x.a x.b))

/-- FRND: a zero keeps the sign of a. -/
def frndNum (m : BitVec 5) : Value → Value
  | .fin neg num den => .fin neg (roundInt (rmOf m) neg num den).natAbs 1
  | x => x

def execFrnd (f : Fields) (s : State) : Res := .next (s.flt1 (.frnd f) f (frndNum f.mod))

/-! ## Conversions (R275 to R279) -/

/-- A half of a 32-bit operand. -/
def halfOf (hi : Bool) (a : Nat) : Nat := if hi then a / 65536 else a

/-- F2I. -/
def f2iFn (into : IFmt) (frm : EFmt) (hi : Bool) (m : BitVec 5) (a : Nat) : Nat :=
  let a := if frm = .bf16 ∨ frm = .f16 then halfOf hi a % 65536 else a
  let x := signA (m.getLsbD 4) (m.getLsbD 3) (elemValue frm a)
  fmtWrite into (x.toRange (rmOf m) (typeLo (fmtUns into) (fmtBits into)) (typeHi (fmtUns into) (fmtBits into)))

/-- How an immediate source of a float format stands in the operand. -/
def cvtImm (frm : EFmt) : ImmKind :=
  if frm = .bf16 ∨ frm = .f16 then .pair frm else .flt frm

def execF2i (into : IFmt) (frm : EFmt) (hi : Bool) (f : Fields) (s : State) : Res :=
  .next (s.aluLane (Instr.f2i into frm hi f).shape f (cvtImm frm) fun x => f2iFn into frm hi f.mod x.a)

/-- An element of w bits at index n of the destination: whole when it fills the register, else a
partial write (R278). -/
def LaneOut.elem (w n v : Nat) : LaneOut :=
  if 32 ≤ w then LaneOut.of v
  else
    { LaneOut.of (v * 2 ^ (w * n)) with mask := BitVec.ofNat 32 ((2 ^ w - 1) * 2 ^ (w * n)) }

/-- A partial write needs its C destination valid (R278). -/
def partialHeld (into : EFmt) (dst : Opnd) : List Opnd :=
  if elemWidth into < 32 then [dst] else []

def execI2f (into : EFmt) (frm : IFmt) (hi : Bool) (f : Fields) (s : State) : Res :=
  .next (s.alu (Instr.i2f into frm hi f).shape f .int .int .int
    (fun _ _ x =>
      LaneOut.elem (elemWidth into) hi.toNat
        (fround into f.mod (.ofInt (elemInt (fmtUns frm) (fmtBits frm) x.a))))
    (held := partialHeld into f.dst))

/-- The source value of FCVT: an immediate is its exact integer whatever the format (R277). -/
def fcvtSource (frm : EFmt) (sn : BitVec 3) (f : Fields) (a : Nat) : Value :=
  match f.a with
  | .imm k => .ofInt ((k.val : Int) - 16)
  | _ => elemValue frm (a / 2 ^ (elemWidth frm * sn.toNat) % 2 ^ elemWidth frm)

/-- FCVT (R278, R279). -/
def fcvtFn (into frm : EFmt) (dn sn : BitVec 3) (sr satf : Bool) (f : Fields) (seed : Word)
    (a : Nat) : LaneOut :=
  let x := signA (f.mod.getLsbD 4) (f.mod.getLsbD 3) (fcvtSource frm sn f a)
  let next := xorStep seed
  let rm := if sr then .sr next else rmOf f.mod
  { LaneOut.elem (elemWidth into) dn.toNat (roundTo into satf rm x) with
    seed := if sr then some next else none }

def execFcvt (into frm : EFmt) (dn sn : BitVec 3) (sr satf : Bool) (f : Fields) (s : State) : Res :=
  .next (s.alu (Instr.fcvt into frm dn sn sr satf f).shape f .int .int .int
    (fun _ _ x => fcvtFn into frm dn sn sr satf f x.th.seed x.a)
    (held := partialHeld into f.dst))

/-! ## F64 arithmetic (R268, R280) -/

def execDadd (f : Fields) (s : State) : Res := .next (s.flt2 (.dadd f) f .f64 (fsum f.mod))
def execDsub (f : Fields) (s : State) : Res := .next (s.flt2 (.dsub f) f .f64 (fdiff f.mod))
def execDmul (f : Fields) (s : State) : Res := .next (s.flt2 (.dmul f) f .f64 Value.mul)
def execDfma (f : Fields) (s : State) : Res :=
  .next (s.aluLane (Instr.dfma f).shape f (.flt .f64) fun x => felem3 .f64 f.mod x.a x.b x.c)
def execDcmp (r : FCmp) (f : Fields) (s : State) : Res :=
  .next (s.aluPred (Instr.dcmp r f).shape f (.flt .f64) (fcmpFn .f64 r f.mod))

/-! ## Packed pairs and dot products (R281 to R284) -/

def execPkadd (f16 : Bool) (f : Fields) (s : State) : Res :=
  .next (s.pack2 (.pkadd f16 f) f f16 (fsum f.mod))
def execPkmul (f16 : Bool) (f : Fields) (s : State) : Res :=
  .next (s.pack2 (.pkmul f16 f) f f16 Value.mul)
def execPkfma (f16 : Bool) (f : Fields) (s : State) : Res :=
  .next (s.aluLane (Instr.pkfma f16 f).shape f (.pair (pairFmt f16))
    (packed fun a b c => felem3 (pairFmt f16) f.mod a b c))
def execPkmm (f16 max : Bool) (f : Fields) (s : State) : Res :=
  .next (s.pack2 (.pkmm f16 max f) f f16 (if max then maxNum else minNum))

/-- The exact sum of terms (R106): −0 when every term is −0, and +0 for any other zero. -/
def sumTerms : List Value → Value
  | [] => .fin false 0 1
  | x :: t => t.foldl (Value.add false) x

/-- Byte i of a word. -/
def byteOf (a i : Nat) : Nat := a / 256 ^ i % 256

/-- The format of QDOT4's elements. -/
def qFmt (e5 : Bool) : EFmt := if e5 then .e5m2 else .e4m3

def qdot4Fn (ae5 be5 : Bool) (m : BitVec 5) (x : LaneIn) : Nat :=
  let terms := (List.range 4).map fun i =>
    (elemValue (qFmt ae5) (byteOf x.a i)).mul (elemValue (qFmt be5) (byteOf x.b i))
  fround .f32 m ((elemValue .f32 x.c).add (isRd m) (sumTerms terms))

def execQdot4 (ae5 be5 : Bool) (f : Fields) (s : State) : Res :=
  .next (s.alu (Instr.qdot4 ae5 be5 f).shape f .int .int (.flt .f32) fun _ _ x =>
    LaneOut.of (qdot4Fn ae5 be5 f.mod x))

def idot4Fn (an bn : Bool) (m : BitVec 5) (x : LaneIn) : Nat :=
  let uns := m.getLsbD 0
  let sum := (List.range 4).foldl
    (fun acc i => acc + elemInt an 8 (byteOf x.a i) * elemInt bn 8 (byteOf x.b i)) (0 : Int)
  narrow uns (m.getLsbD 2) 32 (elemInt uns 32 x.c + sum)

def execIdot4 (an bn : Bool) (f : Fields) (s : State) : Res :=
  .next (s.aluLane (Instr.idot4 an bn f).shape f .int (idot4Fn an bn f.mod))

end Sys2Proof.Machine
end

