-- ==== Sys2Proof/Machine/Integer.lean ====
section
/-! DEFINITION. Integer, predicate and group instructions (R233 to R261): the functions of each rule and
one meaning per instruction. -/

namespace Sys2Proof.Machine

/-! ## The integer mould (R235) -/

/-- One element of the integer mould: F takes the width and the values of a, b and c. -/
def mouldElem (m : BitVec 5) (w : Nat) (F : Nat → Int → Int → Int → Int) (a b c : Nat) : Nat :=
  let uns := m.getLsbD 0
  narrow uns (m.getLsbD 2) w (F w (elemInt uns w a) (elemInt uns w b) (elemInt uns w c))

/-- The integer mould of R235 on 32-bit operands: one element, or two halves apart. -/
def mould (m : BitVec 5) (F : Nat → Int → Int → Int → Int) (i : LaneIn) : Nat :=
  if m.getLsbD 1 then
    mouldElem m 16 F i.a i.b i.c +
      65536 * mouldElem m 16 F (i.a / 65536) (i.b / 65536) (i.c / 65536)
  else mouldElem m 32 F i.a i.b i.c

/-- How an immediate stands in an integer operand (R58). -/
def intImm (m : BitVec 5) : ImmKind := if m.getLsbD 1 then .half else .int

/-- An instruction of the integer mould. -/
def State.intOp (s : State) (i : Instr) (f : Fields) (F : Nat → Int → Int → Int → Int) : State :=
  s.aluLane i.shape f (intImm f.mod) (mould f.mod F)

/-- A 64-bit sum or product, narrowed (R237). -/
def wide64 (m : BitVec 5) (F : Int → Int → Int → Int) (wa wb : Nat) (i : LaneIn) : Nat :=
  let uns := m.getLsbD 0
  narrow uns (m.getLsbD 2) 64 (F (elemInt uns wa i.a) (elemInt uns wb i.b) (elemInt uns 64 i.c))

/-- Bit by bit on 32-bit words (R238). -/
def State.logicOp (s : State) (i : Instr) (f : Fields) (F : Word → Word → Word) : State :=
  s.aluLane i.shape f .int fun x => (F (BitVec.ofNat 32 x.a) (BitVec.ofNat 32 x.b)).toNat

/-! ## Functions of the rules -/

/-- SHL, SHRL and SHRA of one element (R240). -/
def shlElem (w a n : Nat) : Nat := if w ≤ n then 0 else a * 2 ^ n % 2 ^ w
def shrlElem (w a n : Nat) : Nat := if w ≤ n then 0 else a % 2 ^ w / 2 ^ n
def shraElem (w a n : Nat) : Nat :=
  if w ≤ n then (if toInt w a < 0 then 2 ^ w - 1 else 0) else intBits w (toInt w a / 2 ^ n)

/-- A shift on the whole operand, or on each half by the matching half of the count (R240). -/
def shiftBy (m : BitVec 5) (F : Nat → Nat → Nat → Nat) (i : LaneIn) : Nat :=
  if m.getLsbD 1 then
    F 16 (i.a % 65536) (i.b % 65536) + 65536 * F 16 (i.a / 65536) (i.b / 65536)
  else F 32 i.a i.b

/-- LOGIC3 (R239): bit i is tt[4a + 2b + c]. -/
def logic3 (tt : BitVec 8) (a b c : Nat) : Nat :=
  (List.range 32).foldl
    (fun acc k => acc + (truthBit tt (a.testBit k) (b.testBit k) (c.testBit k)).toNat * 2 ^ k) 0

/-- FSHL (R241). -/
def fshlFn (hi lo n : Nat) : Nat := (hi * 2 ^ 32 + lo) * 2 ^ min n 32 / 2 ^ 32 % 2 ^ 32

/-- The fields of a BFX or BFI control word (R242). -/
def ctrlPos (b : Nat) : Nat := b % 256
def ctrlLen (b : Nat) : Nat := min (b / 256 % 256) 32

/-- BFX (R242). -/
def bfxFn (uns : Bool) (a ctrl : Nat) : Nat :=
  let x := elemInt uns 32 a
  let len := ctrlLen ctrl
  let f := x / 2 ^ ctrlPos ctrl % 2 ^ len
  intBits 32 (if !uns && 0 < len && 2 ^ (len - 1) ≤ f then f - 2 ^ len else f)

/-- BFI (R242): bits pos to pos + len − 1 of base, up to bit 31, come from ins. -/
def bfiFn (ins ctrl base : Nat) : Nat :=
  (List.range 32).foldl (fun acc i =>
    let bit := if ctrlPos ctrl ≤ i ∧ i < ctrlPos ctrl + ctrlLen ctrl
      then ins.testBit (i - ctrlPos ctrl) else base.testBit i
    acc + bit.toNat * 2 ^ i) 0

/-- POPC, CLZ, CTZ and BREV (R243). -/
def popcFn (a : Nat) : Nat := ((List.range 32).filter a.testBit).length
def clzFn (a : Nat) : Nat := if a = 0 then 32 else 31 - a.log2
def ctzFn (a : Nat) : Nat := ((List.range 32).find? a.testBit).getD 32
def brevFn (a : Nat) : Nat :=
  (List.range 32).foldl (fun acc i => acc + (a.testBit (31 - i)).toNat * 2 ^ i) 0

/-- BPERM (R244). -/
def bpermFn (a b sel : Nat) : Nat :=
  (List.range 4).foldl (fun acc i =>
    let s := sel / 16 ^ i % 16
    let byte := (a + 2 ^ 32 * b) / 256 ^ (s % 8) % 256
    let v := if s < 8 then byte else if 128 ≤ byte then 255 else 0
    acc + v * 256 ^ i) 0

/-- ICVT (R250). -/
def icvtFn (into frm : IFmt) (wrap : Bool) (a : Nat) : Nat :=
  let x := elemInt (fmtUns frm) (fmtBits frm) a
  fmtWrite into (if wrap then x else fmtClamp into x)

/-- W(l) of R252: P0 to P6 in bits 6 to 0, and bit 7 set. -/
def predWord (p : BitVec 7) : Nat := p.toNat + 128

/-- Bit i of a ballot or a match (R258, R261): lane 32h + i. -/
def laneBits (hi : Bool) (p : Nat → Bool) : Nat :=
  (List.range 32).foldl (fun acc i => acc + (p (32 * hi.toNat + i)).toNat * 2 ^ i) 0

/-- The input of a lane, if it is active. -/
def laneOf (ins : List LaneIn) (l : Nat) : Option LaneIn := ins.find? fun i => i.lane == l

/-- The source lane of a SHFL (R259). -/
def shflSource (m : ShflMode) (lane b : Nat) : Int :=
  match m with
  | .idx => (b % 64 : Nat)
  | .up => (lane : Int) - toInt 32 b
  | .down => (lane : Int) + toInt 32 b
  | .xor => (lane ^^^ (b % 64) : Nat)

/-- SHFL (R259). -/
def shflFn (m : ShflMode) (width : Nat) (ins : List LaneIn) (i : LaneIn) : Nat :=
  let s := shflSource m i.lane i.b
  if 0 ≤ s ∧ s < width then ((laneOf ins s.toNat).map (·.a)).getD i.a else i.a

/-- REDUX (R260). -/
def reduxFn (o : ReduxOp) (m : BitVec 5) (ins : List LaneIn) : Nat :=
  let uns := m.getLsbD 0
  let xs := ins.map fun i => elemInt uns 32 i.a
  let z := fun (F : Int → Int → Int) => match xs with | [] => 0 | x :: t => t.foldl F x
  let n := fun (F : Nat → Nat → Nat) =>
    match ins with | [] => 0 | x :: t => (t.map (·.a)).foldl F x.a
  match o with
  | .add => narrow uns (m.getLsbD 2) 32 (z (· + ·))
  | .min => intBits 32 (z min)
  | .max => intBits 32 (z max)
  | .and => n (· &&& ·)
  | .or => n (· ||| ·)
  | .xor => n (· ^^^ ·)

/-- MATCH (R261). -/
def matchFn (all hi : Bool) (ins : List LaneIn) (i : LaneIn) : Nat :=
  if all then
    if ins.all fun j => j.a == i.a then laneBits hi fun l => (laneOf ins l).isSome else 0
  else laneBits hi fun l => (laneOf ins l).any fun j => j.a == i.a

/-! ## Special registers (R253 to R256) -/

/-- A position from a linear index (R131). -/
def posX (i nx : Nat) : Nat := i % nx
def posY (i nx ny : Nat) : Nat := i / nx % ny
def posZ (i nx ny : Nat) : Nat := i / (nx * ny)

/-- The value of a special register for a thread (R254). -/
def State.special (s : State) (x : Ctx) (lane : Nat) (t : Thread) (r : SReg) : Nat :=
  let c := s.core x.core
  let sd := c.sideD
  let l := s.launch sd.launch
  let e := l.env
  match r with
  | .tidX => if t.spawned then t.index else posX t.index e.tx
  | .tidY => if t.spawned then 0 else posY t.index e.tx e.ty
  | .tidZ => if t.spawned then 0 else posZ t.index e.tx e.ty
  | .ntidX => e.tx
  | .ntidY => e.ty
  | .ntidZ => e.tz
  | .teamX => posX sd.team e.gx
  | .teamY => posY sd.team e.gx e.gy
  | .teamZ => posZ sd.team e.gx e.gy
  | .nteamX => e.gx
  | .nteamY => e.gy
  | .nteamZ => e.gz
  | .lane => lane
  | .group => x.slot
  | .gwidth => (c.group x.slot).width
  | .core => x.core % 64
  | .pairside => x.core % 2
  | .cluster => clusterOf x.core
  | .die => dieOf x.core
  | .part => l.part
  | .clk => (x.e - c.clk0) % 2 ^ 64
  | .sib => if e.sibN = 0 then 0 else sd.team
  | .nsib => e.sibN
  | .trapcause => t.trapcause.toNat
  | .trapaddr => t.trapaddr.toNat
  | .trappc => t.trappc.toNat
  | .seed => t.seed.toNat
  | .leaseid => sd.launch

/-! ## Integer arithmetic (R235 to R237) -/

def execIaddW16 (x : Short16) (s : State) : Res :=
  .next (s.intOp (.iaddW16 x) x.fields fun _ a b _ => a + b)
def execIaddW32 (x : Short) (s : State) : Res :=
  .next (s.intOp (.iaddW32 x) x.fields fun _ a b _ => a + b)
def execIadd (f : Fields) (s : State) : Res := .next (s.intOp (.iadd f) f fun _ a b _ => a + b)
def execIsubW16 (x : Short16) (s : State) : Res :=
  .next (s.intOp (.isubW16 x) x.fields fun _ a b _ => a - b)
def execIsub (f : Fields) (s : State) : Res := .next (s.intOp (.isub f) f fun _ a b _ => a - b)

/-- The carry chain (R236): the sum or difference with the carry in, and the carry out written back
to the predicate that srcC names, in its sense. -/
def carryOut (f : Fields) (v : Nat) (co : Bool) : LaneOut :=
  match f.c with
  | .p n neg =>
    if n = 7 then LaneOut.of v
    else
      let m := BitVec.twoPow 7 n.toNat
      { LaneOut.of v with pmask := m, pval := if co != neg then m else 0 }
  | _ => LaneOut.of v

/-- IADDC (R236). -/
def execIaddc (f : Fields) (s : State) : Res :=
  .next (s.alu (Instr.iaddc f).shape f .int .int .int fun _ _ i =>
    let y := i.a + i.b + i.c
    carryOut f (y % 2 ^ 32) (2 ^ 32 ≤ y))
/-- ISUBB (R236). -/
def execIsubb (f : Fields) (s : State) : Res :=
  .next (s.alu (Instr.isubb f).shape f .int .int .int fun _ _ i =>
    let y := (i.a : Int) - i.b - i.c
    carryOut f (intBits 32 y) (y < 0))
def execIadd64 (f : Fields) (s : State) : Res :=
  .next (s.aluLane (Instr.iadd64 f).shape f .int (wide64 f.mod (fun a b _ => a + b) 64 64))
def execIsub64 (f : Fields) (s : State) : Res :=
  .next (s.aluLane (Instr.isub64 f).shape f .int (wide64 f.mod (fun a b _ => a - b) 64 64))
def execIneg (f : Fields) (s : State) : Res := .next (s.intOp (.ineg f) f fun _ a _ _ => -a)
def execIabs (f : Fields) (s : State) : Res := .next (s.intOp (.iabs f) f fun _ a _ _ => (a.natAbs : Int))
def execImulW16 (x : Short16) (s : State) : Res :=
  .next (s.intOp (.imulW16 x) x.fields fun _ a b _ => a * b)
def execImulW32 (x : Short) (s : State) : Res :=
  .next (s.intOp (.imulW32 x) x.fields fun _ a b _ => a * b)
def execImul (f : Fields) (s : State) : Res := .next (s.intOp (.imul f) f fun _ a b _ => a * b)
def execImulh (f : Fields) (s : State) : Res :=
  .next (s.intOp (.imulh f) f fun w a b _ => a * b / 2 ^ w)
def execImad (f : Fields) (s : State) : Res := .next (s.intOp (.imad f) f fun _ a b c => a * b + c)
def execImad64 (f : Fields) (s : State) : Res :=
  .next (s.aluLane (Instr.imad64 f).shape f .int (wide64 f.mod (fun a b c => a * b + c) 32 32))
def execIminW16 (x : Short16) (s : State) : Res :=
  .next (s.intOp (.iminW16 x) x.fields fun _ a b _ => min a b)
def execIminW32 (x : Short) (s : State) : Res :=
  .next (s.intOp (.iminW32 x) x.fields fun _ a b _ => min a b)
def execImin (f : Fields) (s : State) : Res := .next (s.intOp (.imin f) f fun _ a b _ => min a b)
def execImaxW16 (x : Short16) (s : State) : Res :=
  .next (s.intOp (.imaxW16 x) x.fields fun _ a b _ => max a b)
def execImax (f : Fields) (s : State) : Res := .next (s.intOp (.imax f) f fun _ a b _ => max a b)
def execIdiff (f : Fields) (s : State) : Res := .next (s.intOp (.idiff f) f fun _ a b _ => ((a - b).natAbs : Int))
def execIsad (f : Fields) (s : State) : Res :=
  .next (s.intOp (.isad f) f fun _ a b c => ((a - b).natAbs : Int) + c)

/-! ## Logic, shifts and fields (R238 to R244) -/

def execAndW16 (x : Short16) (s : State) : Res :=
  .next (s.logicOp (.andW16 x) x.fields fun a b => a &&& b)
def execAndW32 (x : Short) (s : State) : Res :=
  .next (s.logicOp (.andW32 x) x.fields fun a b => a &&& b)
def execAnd (f : Fields) (s : State) : Res := .next (s.logicOp (.and f) f fun a b => a &&& b)
def execOrW16 (x : Short16) (s : State) : Res :=
  .next (s.logicOp (.orW16 x) x.fields fun a b => a ||| b)
def execOr (f : Fields) (s : State) : Res := .next (s.logicOp (.or f) f fun a b => a ||| b)
def execXorW16 (x : Short16) (s : State) : Res :=
  .next (s.logicOp (.xorW16 x) x.fields fun a b => a ^^^ b)
def execXor (f : Fields) (s : State) : Res := .next (s.logicOp (.xor f) f fun a b => a ^^^ b)
def execAndn (f : Fields) (s : State) : Res := .next (s.logicOp (.andn f) f fun a b => a &&& ~~~b)
/-- A reading of the model: log 16, DEDUCED. -/
def execNot (f : Fields) (s : State) : Res := .next (s.logicOp (.not f) f fun a _ => ~~~a)
def execLogic3 (tt : BitVec 8) (f : Fields) (s : State) : Res :=
  .next (s.aluLane (Instr.logic3 tt f).shape f .int fun i => logic3 tt i.a i.b i.c)
def execShlW16 (x : Short16) (s : State) : Res :=
  .next (s.aluLane (Instr.shlW16 x).shape x.fields .int (shiftBy 0 shlElem))
def execShlW32 (x : Short) (s : State) : Res :=
  .next (s.aluLane (Instr.shlW32 x).shape x.fields .int (shiftBy 0 shlElem))
def execShl (f : Fields) (s : State) : Res :=
  .next (s.aluLane (Instr.shl f).shape f (intImm f.mod) (shiftBy f.mod shlElem))
def execShrlW16 (x : Short16) (s : State) : Res :=
  .next (s.aluLane (Instr.shrlW16 x).shape x.fields .int (shiftBy 0 shrlElem))
def execShrl (f : Fields) (s : State) : Res :=
  .next (s.aluLane (Instr.shrl f).shape f (intImm f.mod) (shiftBy f.mod shrlElem))
def execShraW16 (x : Short16) (s : State) : Res :=
  .next (s.aluLane (Instr.shraW16 x).shape x.fields .int (shiftBy 0 shraElem))
def execShra (f : Fields) (s : State) : Res :=
  .next (s.aluLane (Instr.shra f).shape f (intImm f.mod) (shiftBy f.mod shraElem))
def execRotl (f : Fields) (s : State) : Res :=
  .next (s.aluLane (Instr.rotl f).shape f .int fun i =>
    ((BitVec.ofNat 32 i.a).rotateLeft (i.b % 32)).toNat)
def execFshl (f : Fields) (s : State) : Res :=
  .next (s.aluLane (Instr.fshl f).shape f .int fun i => fshlFn i.a i.b i.c)
def execBfx (f : Fields) (s : State) : Res :=
  .next (s.aluLane (Instr.bfx f).shape f .int fun i => bfxFn (f.mod.getLsbD 0) i.a i.b)
def execBfi (f : Fields) (s : State) : Res :=
  .next (s.aluLane (Instr.bfi f).shape f .int fun i => bfiFn i.a i.b i.c)
def execPopc (f : Fields) (s : State) : Res :=
  .next (s.aluLane (Instr.popc f).shape f .int fun i => popcFn i.a)
def execClz (f : Fields) (s : State) : Res :=
  .next (s.aluLane (Instr.clz f).shape f .int fun i => clzFn i.a)
def execCtz (f : Fields) (s : State) : Res :=
  .next (s.aluLane (Instr.ctz f).shape f .int fun i => ctzFn i.a)
def execBrev (f : Fields) (s : State) : Res :=
  .next (s.aluLane (Instr.brev f).shape f .int fun i => brevFn i.a)
def execBperm (f : Fields) (s : State) : Res :=
  .next (s.aluLane (Instr.bperm f).shape f .int fun i => bpermFn i.a i.b i.c)

/-! ## Comparison, selection, moves and conversion (R245 to R250) -/

def execIcmp (r : Cmp) (f : Fields) (s : State) : Res :=
  .next (s.aluPred (Instr.icmp r f).shape f .int fun i =>
    let uns := f.mod.getLsbD 0
    cmpInt r (elemInt uns 32 i.a) (elemInt uns 32 i.b))
def execIsel (f : Fields) (s : State) : Res :=
  .next (s.aluLane (Instr.isel f).shape f .int fun i => if i.c = 1 then i.a else i.b)
def execMovW16 (x : Short16) (s : State) : Res :=
  .next (s.aluLane (Instr.movW16 x).shape x.movFields .int fun i => i.a)
def execMovW32 (x : Short) (s : State) : Res :=
  .next (s.aluLane (Instr.movW32 x).shape x.fields .int fun i => i.a)
def execMov (f : Fields) (s : State) : Res :=
  .next (s.aluLane (Instr.mov f).shape f .int fun i => i.a)
def execMovi (w : Wide) (s : State) : Res :=
  .next (s.aluLane (Instr.movi w).shape w.fields .int fun _ => w.imm.toNat)

/-- What MOVHI puts in flight (R248): the high register of the run alone is written; the push is the whole
run as it stands after the instruction, which for a G run holds for the inactive lanes too. -/
def Ctx.movhiLandings (x : Ctx) (w : Wide) : List Landing :=
  let hi : DWord := w.imm.setWidth 64 <<< 32
  let mask : DWord := BitVec.allOnes 64 <<< 32
  let gl : List Landing :=
    match w.dst, x.actives with
    | .g r, _ :: _ => [x.landing (x.e + 3) 0 (.g (r.toNat + 1) w.imm)]
    | _, _ => []
  let base : Option (Nat × Nat) := match w.dst with
    | .v r _ => some (r.toNat, 2)
    | .g r => some (256 + r.toNat, 2)
    | _ => none
  let push := fun l =>
    [x.landing x.e l (.push (x.thread l).lv.ctx (BitVec.ofNat 64 (x.prior l)) (some x.tag)),
     x.landing (x.e + 3) l (.latch x.tag (x.thread l).lv.ctx mask hi base)]
  let lane := fun l =>
    (match w.dst with
     | .v r _ => [x.landing (x.e + 4) l (.v (r.toNat + 1) (BitVec.allOnes 32) w.imm)]
     | _ => []) ++ push l
  let idle := fun l => match w.dst, x.actives with
    | .g _, _ :: _ => push l
    | _, _ => [x.idlePush l (x.prior l)]
  gl ++ x.actives.flatMap lane ++ (x.lanes.filter fun l => !x.active l).flatMap idle

def State.movhi (s : State) (w : Wide) : State :=
  let (x, s) := s.begin (Instr.movhi w).shape w.fields
  s.finish x [] (x.movhiLandings w)

def execMovhi (w : Wide) (s : State) : Res := .next (s.movhi w)

/-- LEA (R249). -/
def leaFn (n a b : Nat) : Nat := (a + b * 2 ^ n) % 2 ^ 32

def execLeaW32 (x : Short) (s : State) : Res :=
  .next (s.aluLane (Instr.leaW32 x).shape x.fields .int fun i => leaFn 0 i.a i.b)
def execLea (f : Fields) (s : State) : Res :=
  .next (s.aluLane (Instr.lea f).shape f .int fun i => leaFn (f.mod.toNat % 8) i.a i.b)
def execLea64 (f : Fields) (s : State) : Res :=
  .next (s.aluLane (Instr.lea64 f).shape f .int fun i =>
    intBits 64 (i.a + elemInt (f.mod.getLsbD 3) 32 i.b * 2 ^ (f.mod.toNat % 8)))
def execIcvt (into frm : IFmt) (f : Fields) (s : State) : Res :=
  .next (s.aluLane (Instr.icvt into frm f).shape f .int fun i =>
    icvtFn into frm (f.mod.getLsbD 0) i.a)

/-! ## Predicates and special registers (R251 to R256) -/

def execPlop (tt : BitVec 8) (f : Fields) (s : State) : Res :=
  .next (s.aluPred (Instr.plop tt f).shape f .int fun i =>
    truthBit tt (i.a == 1) (i.b == 1) (i.c == 1))
def execPmovPv (f : Fields) (s : State) : Res :=
  .next (s.aluLane (Instr.pmovPv f).shape f .int fun i => predWord i.th.p)
/-- PMOV.vp (R252): the predicates the mask names, and W(l) after the writes to L0. -/
def execPmovVp (f : Fields) (s : State) : Res :=
  .next (s.alu (Instr.pmovVp f).shape f .int .int .int
    (fun _ _ i =>
      let mask := BitVec.ofNat 7 i.b
      let val := BitVec.ofNat 7 i.a
      { LaneOut.of (predWord (mergeMask i.th.p mask val)) with pmask := mask, pval := val })
    (idle := fun x l => predWord (x.thread l).p))
def execSread (r : SReg) (f : Fields) (s : State) : Res :=
  .next (s.alu (Instr.sread r f).shape f .int .int .int fun x _ i =>
    LaneOut.of (s.special x i.lane i.th r))
/-- SWRITE (R256, R100): TRAPPC or SEED of the active lane; the value written is pushed. -/
def execSwrite (r : SReg) (f : Fields) (s : State) : Res :=
  .next (s.alu (Instr.swrite r f).shape f .int .int .int fun _ _ i =>
    match r with
    | .seed => { LaneOut.of i.d with seed := some (seedOf (BitVec.ofNat 32 i.d)) }
    | .trappc => { LaneOut.of i.d with trappc := some (BitVec.ofNat 64 i.d) }
    | _ => LaneOut.of i.d)

/-! ## Across the lanes of a group (R257 to R261) -/

def execVoteAll (f : Fields) (s : State) : Res :=
  .next (s.alu (Instr.voteAll f).shape f .int .int .int fun _ ins _ =>
    LaneOut.bit f.dst (ins.all fun i => i.a == 1))
def execVoteAny (f : Fields) (s : State) : Res :=
  .next (s.alu (Instr.voteAny f).shape f .int .int .int fun _ ins _ =>
    LaneOut.bit f.dst (ins.any fun i => i.a == 1))
def execVoteBallot (f : Fields) (s : State) : Res :=
  .next (s.alu (Instr.voteBallot f).shape f .int .int .int fun _ ins _ =>
    LaneOut.of (laneBits (f.mod.getLsbD 0) fun l => (laneOf ins l).any fun i => i.a == 1))
def execVoteUni (f : Fields) (s : State) : Res :=
  .next (s.alu (Instr.voteUni f).shape f .int .int .int fun _ ins i =>
    LaneOut.bit f.dst (ins.all fun j => j.a == i.a))
def execShfl (m : ShflMode) (f : Fields) (s : State) : Res :=
  .next (s.alu (Instr.shfl m f).shape f .int .int .int fun x ins i =>
    LaneOut.of (shflFn m (x.raw.group x.slot).width ins i))
def execRedux (o : ReduxOp) (f : Fields) (s : State) : Res :=
  .next (s.alu (Instr.redux o f).shape f .int .int .int fun _ ins _ =>
    LaneOut.of (reduxFn o f.mod ins))
def execMatchv (all : Bool) (f : Fields) (s : State) : Res :=
  .next (s.alu (Instr.matchv all f).shape f .int .int .int fun _ ins i =>
    LaneOut.of (matchFn all (f.mod.getLsbD 0) ins i))

end Sys2Proof.Machine
end

