-- ==== Sys2Proof/Machine/Aes.lean ====
section
/-! DEFINITION. Memory encryption (R16, R180): AES-256 and its XTS mode on a line of memory. (Log 85, PRESUMED.) -/

namespace Sys2Proof.Machine

/-! ## The field of a byte -/

def xtime (a : Byte) : Byte := (a <<< 1) ^^^ (if a.msb then 0x1B else 0)

/-- The product of two bytes, bit by bit of the second. -/
def fieldMul : Nat → Byte → Byte → Byte
  | 0, _, _ => 0
  | k + 1, a, b => (if b.getLsbD 0 then a else 0) ^^^ fieldMul k (xtime a) (b >>> 1)

def byteMul (a b : Byte) : Byte := fieldMul 8 a b

/-- The product of a ^ 2, a ^ 4, … over k squarings: a ^ 254, the inverse, for 7. -/
def fieldInv : Nat → Byte → Byte
  | 0, _ => 1
  | k + 1, a => byteMul (byteMul a a) (fieldInv k (byteMul a a))

def sbox (a : Byte) : Byte :=
  let b := fieldInv 7 a
  b ^^^ b.rotateLeft 1 ^^^ b.rotateLeft 2 ^^^ b.rotateLeft 3 ^^^ b.rotateLeft 4 ^^^ 0x63

def sboxInv (a : Byte) : Byte :=
  fieldInv 7 (a.rotateLeft 1 ^^^ a.rotateLeft 3 ^^^ a.rotateLeft 6 ^^^ 0x05)

/-! ## AES-256 -/

def xorBytes (a b : List Byte) : List Byte := List.zipWith (· ^^^ ·) a b

/-- Byte i of a block comes from byte i + k (i mod 4) of it. -/
def shiftRows (k : Nat) (b : List Byte) : List Byte := (List.range 16).map fun i => b.getD ((i + k * (i % 4)) % 16) 0

/-- Each column is multiplied by a circulant whose first row is m. -/
def mixColumns (m : List Byte) (b : List Byte) : List Byte :=
  (List.range 16).map fun i =>
    (List.range 4).foldl (fun x k => x ^^^ byteMul (m.getD k 0) (b.getD (i / 4 * 4 + (i + k) % 4) 0)) 0

/-- The words of the key schedule, the newest first: n more from word i on. -/
def keyWords : Nat → Nat → Byte → List (List Byte) → List (List Byte)
  | 0, _, _, ws => ws
  | n + 1, i, rcon, ws =>
    let last := ws.getD 0 []
    let t :=
      if i % 8 = 0 then xorBytes ((last.rotateLeft 1).map sbox) [rcon, 0, 0, 0]
      else if i % 8 = 4 then last.map sbox
      else last
    keyWords n (i + 1) (if i % 8 = 0 then xtime rcon else rcon) (xorBytes (ws.getD 7 []) t :: ws)

/-- The fifteen round keys of a 32-byte key. -/
def roundKeys (key : List Byte) : List (List Byte) :=
  let first := ((List.range 8).map fun i => (key.drop (4 * i)).take 4).reverse
  let ws := (keyWords 52 8 1 first).reverse
  (List.range 15).map fun r => ((ws.drop (4 * r)).take 4).flatten

def aesEncrypt (key block : List Byte) : List Byte :=
  let ks := roundKeys key
  let b := xorBytes block (ks.getD 0 [])
  let b := ((ks.drop 1).take 13).foldl (fun b k =>
    xorBytes (mixColumns [2, 3, 1, 1] (shiftRows 4 (b.map sbox))) k) b
  xorBytes (shiftRows 4 (b.map sbox)) (ks.getD 14 [])

def aesDecrypt (key block : List Byte) : List Byte :=
  let ks := roundKeys key
  let b := (shiftRows 12 (xorBytes block (ks.getD 14 []))).map sboxInv
  let b := ((ks.drop 1).take 13).reverse.foldl (fun b k =>
    (shiftRows 12 (mixColumns [14, 11, 13, 9] (xorBytes b k))).map sboxInv) b
  xorBytes b (ks.getD 0 [])

/-! ## XTS on a line (R180) -/

/-- The tweak of the next block. -/
def nextTweak (t : List Byte) : List Byte :=
  let n := leNat t
  leBytes 16 ((2 * n % 2 ^ 128) ^^^ (if 2 ^ 127 ≤ n then 0x87 else 0))

/-- Blocks under their tweaks. -/
def xtsBlocks (cipher : List Byte → List Byte) : Nat → List Byte → List Byte → List Byte
  | 0, _, _ => []
  | k + 1, t, bs =>
    xorBytes (cipher (xorBytes (bs.take 16) t)) t ++ xtsBlocks cipher k (nextTweak t) (bs.drop 16)

/-- The tweak of a line: its physical address, under the second key of the pair. -/
def lineTweak (key : List Byte) (pa : Nat) : List Byte := aesEncrypt (key.drop 32) (leBytes 16 pa)

/-- A line of 128 bytes as memory holds it under a key pair. -/
def encryptLine (key : List Byte) (pa : Nat) (bs : List Byte) : List Byte :=
  xtsBlocks (aesEncrypt (key.take 32)) 8 (lineTweak key pa) bs

def decryptLine (key : List Byte) (pa : Nat) (bs : List Byte) : List Byte :=
  xtsBlocks (aesDecrypt (key.take 32)) 8 (lineTweak key pa) bs

end Sys2Proof.Machine
end

