-- ==== Sys2Proof/Machine/Crypto.lean ====
section
/-! DEFINITION. What bring-up and attestation compute with (R512 to R514): SHA-512 and the verification
of an Ed25519 signature under RFC 8032. -/

namespace Sys2Proof.Machine

/-! ## SHA-512 -/

/-- The largest r below 2^k above lo with r ^ e at most n, bit by bit. -/
def rootBits (e n : Nat) : Nat → Nat → Nat
  | 0, lo => lo
  | k + 1, lo => rootBits e n k (if (lo + 2 ^ k) ^ e ≤ n then lo + 2 ^ k else lo)

def isPrime (n : Nat) : Bool := decide (2 ≤ n) && (List.range' 2 (n - 2)).all fun d => n % d != 0

/-- The first 80 primes. -/
def shaPrimes : List Nat := (List.range 410).filter isPrime

/-- First 64 bits of the fraction of a prime's cube root: a round constant. -/
def shaK : List DWord := shaPrimes.map fun p => BitVec.ofNat 64 (rootBits 3 (p * 2 ^ 192) 68 0)

/-- First 64 bits of the fraction of a prime's square root: the initial digest. -/
def shaInit : List DWord :=
  (shaPrimes.take 8).map fun p => BitVec.ofNat 64 (rootBits 2 (p * 2 ^ 128) 68 0)

def beNat (bs : List Byte) : Nat := bs.foldl (fun n b => 256 * n + b.toNat) 0
def beBytes (n v : Nat) : List Byte := (leBytes n v).reverse

def rotr (x : DWord) (n : Nat) : DWord := x.rotateRight n

/-- The message schedule, its newest word first. -/
def shaSchedule : Nat → List DWord → List DWord
  | 0, w => w
  | k + 1, w =>
    let at_ := fun i => w.getD i (0 : DWord)
    let s0 := rotr (at_ 14) 1 ^^^ rotr (at_ 14) 8 ^^^ (at_ 14 >>> 7)
    let s1 := rotr (at_ 1) 19 ^^^ rotr (at_ 1) 61 ^^^ (at_ 1 >>> 6)
    shaSchedule k ((at_ 15 + s0 + at_ 6 + s1) :: w)

/-- One round, on the eight working words. -/
def shaRound (h : List DWord) (kw : DWord) : List DWord :=
  match h with
  | [a, b, c, d, e, f, g, x] =>
    let s1 := rotr e 14 ^^^ rotr e 18 ^^^ rotr e 41
    let ch := (e &&& f) ^^^ (~~~e &&& g)
    let t1 := x + s1 + ch + kw
    let s0 := rotr a 28 ^^^ rotr a 34 ^^^ rotr a 39
    let maj := (a &&& b) ^^^ (a &&& c) ^^^ (b &&& c)
    [t1 + s0 + maj, a, b, c, d + t1, e, f, g]
  | h => h

/-- The words of a 128-byte block. -/
def shaWords (bs : List Byte) : List DWord :=
  (List.range 16).map fun i => BitVec.ofNat 64 (beNat ((bs.drop (8 * i)).take 8))

def shaBlock (h : List DWord) (bs : List Byte) : List DWord :=
  let w := (shaSchedule 64 (shaWords bs).reverse).reverse
  let r := (List.zipWith (· + ·) shaK w).foldl shaRound h
  List.zipWith (· + ·) h r

/-- The padded message. -/
def shaPad (bs : List Byte) : List Byte :=
  let z := (128 - (bs.length + 17) % 128) % 128
  bs ++ [0x80] ++ List.replicate z 0 ++ beBytes 16 (8 * bs.length)

def shaBlocks : Nat → List Byte → List DWord → List DWord
  | 0, _, h => h
  | k + 1, bs, h => shaBlocks k (bs.drop 128) (shaBlock h (bs.take 128))

/-- SHA-512. -/
def sha512 (bs : List Byte) : List Byte :=
  let p := shaPad bs
  (shaBlocks (p.length / 128) p shaInit).flatMap fun w => beBytes 8 w.toNat

/-! ## Ed25519 (RFC 8032) -/

def edP : Nat := 2 ^ 255 - 19
/-- Order of the base point's group. -/
def edL : Nat := 2 ^ 252 + 27742317777372353535851937790883648493

/-- b ^ e modulo edP by the low k bits of e. -/
def edPow (b e : Nat) : Nat → Nat
  | 0 => 1
  | k + 1 => if e % 2 = 1 then b * edPow (b * b % edP) (e / 2) k % edP else edPow (b * b % edP) (e / 2) k

def edInv (x : Nat) : Nat := edPow (x % edP) (edP - 2) 255
def edSub (a b : Nat) : Nat := (a + edP - b % edP) % edP

/-- The curve's constant d, −121665 / 121666. -/
def edD : Nat := edSub 0 (121665 * edInv 121666 % edP)

/-- A point in extended coordinates. -/
structure EdPoint where
  x : Nat
  y : Nat
  z : Nat
  t : Nat
  deriving DecidableEq, Repr

def edZero : EdPoint := ⟨0, 1, 1, 0⟩

def edAdd (p q : EdPoint) : EdPoint :=
  let a := edSub p.y p.x * edSub q.y q.x % edP
  let b := (p.y + p.x) * (q.y + q.x) % edP
  let c := p.t * 2 * edD % edP * q.t % edP
  let d := p.z * 2 * q.z % edP
  let e := edSub b a
  let f := edSub d c
  let g := (d + c) % edP
  let h := (b + a) % edP
  ⟨e * f % edP, g * h % edP, f * g % edP, e * h % edP⟩

/-- n times a point, by the low k bits of n. -/
def edMul (p : EdPoint) (n : Nat) : Nat → EdPoint
  | 0 => edZero
  | k + 1 =>
    let q := edMul (edAdd p p) (n / 2) k
    if n % 2 = 1 then edAdd p q else q

/-- The x coordinate for y with a sign. -/
def edX (y sign : Nat) : Option Nat :=
  if edP ≤ y then none
  else
    let x2 := edSub (y * y) 1 * edInv (edD * (y * y) + 1) % edP
    if x2 = 0 then (if sign = 1 then none else some 0)
    else
      let x := edPow x2 ((edP + 3) / 8) 255
      let x := if x * x % edP = x2 then x else x * edPow 2 ((edP - 1) / 4) 255 % edP
      if x * x % edP ≠ x2 then none
      else if x % 2 = sign then some x else some (edP - x)

def edDecode (bs : List Byte) : Option EdPoint :=
  let n := leNat bs
  let y := n % 2 ^ 255
  (edX y (n / 2 ^ 255 % 2)).map fun x => ⟨x, y, 1, x * y % edP⟩

/-- The base point: y is 4/5 and x is even. -/
def edBase : EdPoint :=
  let y := 4 * edInv 5 % edP
  let x := (edX y 0).getD 0
  ⟨x, y, 1, x * y % edP⟩

def edSame (p q : EdPoint) : Bool :=
  p.x * q.z % edP == q.x * p.z % edP && p.y * q.z % edP == q.y * p.z % edP

/-- The signature of 64 bytes verifies over a message under a key of 32 bytes: the equation with the
cofactor. -/
def edVerify (key msg sig : List Byte) : Bool :=
  let s := leNat (sig.drop 32)
  match edDecode key, edDecode (sig.take 32) with
  | some a, some r =>
    decide (s < edL) &&
      (let k := leNat (sha512 (sig.take 32 ++ key ++ msg)) % edL
       edSame (edMul (edMul edBase s 253) 8 4) (edMul (edAdd r (edMul a k 253)) 8 4))
  | _, _ => false

end Sys2Proof.Machine
end

