-- ==== Sys2Proof/Machine/Registers.lean ====
section
/-! DEFINITION. The register windows of the hubs (R517 to R519): reading and writing each register, the
configuration record of a partition (R515), key rotation (R516), attestation (R514), and the placement
map as Tiroskyo reads and writes it (R169). -/

namespace Sys2Proof.Machine

/-! ## Reading (R517, R519) -/

/-- Hub and offset of an address in a register window (R517). -/
def regWindow (pa : Nat) : Option (Nat × Nat) :=
  let b := 0x28000000000
  if b ≤ pa ∧ pa < b + 3 * 0x40000000 then some ((pa - b) / 0x40000000, (pa - b) % 0x40000000) else none

def Quota.word (q : Quota) : Nat := q.used % 2 ^ 32 * 2 ^ 32 + q.limit % 2 ^ 32
/-- CBKT and FBKT (R354, R431). -/
def Bucket.rateWord (b : Bucket) : Nat := b.depth * 2 ^ 32 + b.rate
/-- CBSTAT and FBSTAT. -/
def Bucket.statWord (b : Bucket) : Nat := b.debt * 2 ^ 32 + b.tokens

/-- RINGCTL (R451). -/
def Ring.ctl (r : Ring) : Nat :=
  r.lost.toNat * 2 ^ 48 + r.head.toNat * 2 ^ 32 + r.posted.toNat % 2 ^ 16 * 2 ^ 16 + r.log2n % 16

def PeerEntry.none : PeerEntry := ⟨false, false, false, 0⟩
/-- An entry of PEERTAB (R424). -/
def PeerEntry.word (e : PeerEntry) : Nat :=
  e.valid.toNat * 2 ^ 63 + e.w.toNat * 2 ^ 7 + e.r.toNat * 2 ^ 6 + e.rpart % 64
def PeerEntry.ofWord (v : DWord) : PeerEntry :=
  ⟨v.getLsbD 63, v.getLsbD 7, v.getLsbD 6, v.toNat % 64⟩

/-- POOLCFG (R435). -/
def Part.poolCfg (p : Part) : Nat :=
  p.poolLimit % 2 ^ 31 * 2 ^ 31 + p.poolBase % 2 ^ 30 * 2 + p.poolValid.toNat

/-- The registers of the view of a partition through a hub's window, by offset, PEERTAB apart; write-only
ones read as zero. -/
def State.viewRegs (s : State) (hub part : Nat) : Tab Nat :=
  let p := s.part part
  let c := fun k => p.cbkt.get Bucket.zero (2 * hub + k)
  let f := p.fbkt.get Bucket.zero hub
  [(0x0000, p.datp.toNat), (0x0018, p.ivasid.toNat), (0x0020, p.ivDone.toNat * 2 ^ 32 + p.ivIssued.toNat),
   (0x0040, p.psceil.toNat), (0x0048, p.ceil.toNat), (0x0050, p.demoted.toNat), (0x0058, p.earlypub.toNat),
   (0x0080, p.qhbm.word), (0x0088, p.qlp.word), (0x0090, p.qpool.word), (0x0098, p.qpin.word),
   (0x00A0, p.bquota.word), (0x0100, (c 0).rateWord), (0x0108, (c 0).statWord), (0x0110, (c 1).rateWord),
   (0x0118, (c 1).statWord), (0x0120, f.rateWord), (0x0128, f.statWord), (0x0140, p.poolCfg),
   (0x0148, s.poolMember.toNat * 2 ^ 33 + s.poolPresent.toNat)] ++
  [(0x0160, p.xoq.toNat), (0x0168, p.xotag.toNat), (0x0170, p.svcq.toNat),
   (0x0200, p.ring0.base.toNat), (0x0208, p.ring0.ctl), (0x0210, p.ring1.base.toNat), (0x0218, p.ring1.ctl),
   (0x0240, p.rpwgt), (0x8000, p.hintdrop.toNat), (0x8008, p.xdrop.toNat), (0x8010, p.fabshort.toNat),
   (0x8018, p.errcnt.toNat), (0x8020, p.throtcyc.toNat), (0x8040, p.cxcyc.toNat), (0x8048, p.cxbytes.toNat),
   (0x8050, p.cxpool.toNat), (0x8058, p.cxteams.toNat)]

/-- The four registers that only PARTCFG shows. -/
def Part.aliasRegs (p : Part) : Tab Nat :=
  [(0xC000, p.clmask.toNat), (0xC008, p.pcstat.toNat), (0xC010, p.ctxbase.toNat), (0xC018, p.ctxn)]

/-- A register of the view. -/
def State.viewReg (s : State) (hub part o : Nat) : Nat :=
  if 0x1000 ≤ o ∧ o < 0x3000 then
    (((s.part part).peertab.get PeerEntry.none ((o - 0x1000) / 8))).word
  else (s.viewRegs hub part).get 0 o

/-- A register of PARTCFG. -/
def State.aliasReg (s : State) (hub part o : Nat) : Nat :=
  if 0xC000 ≤ o then (s.part part).aliasRegs.get 0 o else s.viewReg hub part o

/-- Global page. -/
def State.globalReg (s : State) (hub o : Nat) : Nat :=
  Tab.get [(0x000, s.pkgid.toNat), (0x008, s.leader.toNat), (0x010, (s.hub hub).hbeat.toNat),
    (0x018, s.ready.toNat), (0x020, s.cfgseq.toNat), (0x028, s.mapbase.toNat), (0x030, s.throt.toNat),
    (0x040, s.devid.toNat % 2 ^ 64), (0x048, s.devid.toNat / 2 ^ 64 % 2 ^ 64),
    (0x050, s.devid.toNat / 2 ^ 128 % 2 ^ 64), (0x058, s.devid.toNat / 2 ^ 192 % 2 ^ 64),
    (0x080, s.replace.toNat % 2 ^ 64), (0x088, s.replace.toNat / 2 ^ 64)] 0 o

/-- Tiroskyo's page: KEYROT's start and SYSDONE are write only. -/
def State.tiroskyoReg (s : State) (hub o : Nat) : Nat :=
  if o < 0x80 then (if o = 0x48 then 0 else (s.keyrot.get 0 (o / 8)).toNat)
  else if o < 0xC0 then (s.attreq.get 0 ((o - 0x80) / 8)).toNat
  else if o = 0x100 then (s.hub hub).migpol.toNat
  else if o = 0x110 then s.scrubq.toNat
  else if o = 0x118 then s.errlogBase.toNat
  else if 0x200 ≤ o ∧ o < 0x230 then (s.svcslot.get 0 ((o - 0x200) / 8)).toNat
  else if 0x400 ≤ o ∧ o < 0x600 then ((s.hub hub).hostq.get 0 ((o - 0x400) / 8)).toNat
  else 0

/-- The register at an offset of a hub's window, aligned on 8 bytes (R517). -/
def State.regRead (s : State) (hub off : Nat) : Nat :=
  let page := off / 65536
  let o := off % 65536
  if page = 0 then s.globalReg hub o
  else if page = 1 then s.tiroskyoReg hub o
  else if 0x10 ≤ page ∧ page < 0x40 then s.viewReg hub (page - 0x10) o
  else if 0x100 ≤ page ∧ page < 0x130 then s.aliasReg hub (page - 0x100) o
  else 0

/-! ## The configuration record (R515) -/

/-- A new depth and rate of a bucket, which holds no more tokens than its depth. -/
def Bucket.config (b : Bucket) (v : DWord) : Bucket :=
  let d := v.toNat / 2 ^ 32
  { b with depth := d, rate := v.toNat % 2 ^ 32, tokens := min b.tokens d }

/-- The fields that Tiroskyo writes, at their offsets through a hub's window (R519). -/
def Part.config (p : Part) (hub o : Nat) (v : DWord) : Option Part :=
  let lim := v.toNat % 2 ^ 32
  let c := fun (k : Nat) => p.cbkt.put (2 * hub + k) ((p.cbkt.get Bucket.zero (2 * hub + k)).config v)
  if o = 0x40 then some { p with psceil := BitVec.ofNat 32 (v.toNat % 2 ^ 24) }
  else if o = 0x48 then some { p with ceil := v.setWidth 3 }
  else if o = 0x80 then some { p with qhbm := { p.qhbm with limit := lim } }
  else if o = 0x88 then some { p with qlp := { p.qlp with limit := lim } }
  else if o = 0x90 then some { p with qpool := { p.qpool with limit := lim } }
  else if o = 0x98 then some { p with qpin := { p.qpin with limit := lim } }
  else if o = 0xA0 then some { p with bquota := { p.bquota with limit := lim } }
  else if o = 0x100 then some { p with cbkt := c 0 }
  else if o = 0x110 then some { p with cbkt := c 1 }
  else if o = 0x120 then
    some { p with fbkt := p.fbkt.put hub ((p.fbkt.get Bucket.zero hub).config v) }
  else if o = 0x140 then
    some { p with poolValid := v.getLsbD 0, poolBase := v.toNat / 2 % 2 ^ 30, poolLimit := v.toNat / 2 ^ 31 % 2 ^ 31 }
  else if o = 0x160 then some { p with xoq := v }
  else if o = 0x168 then some { p with xotag := v.setWidth 32 }
  else if o = 0x170 then some { p with svcq := v }
  else if o = 0x200 then some { p with ring0 := { p.ring0 with base := v } }
  else if o = 0x210 then some { p with ring1 := { p.ring1 with base := v } }
  else if o = 0x208 then some { p with ring0 := { p.ring0 with log2n := v.toNat % 16 } }
  else if o = 0x218 then some { p with ring1 := { p.ring1 with log2n := v.toNat % 16 } }
  else if o = 0x240 then some { p with rpwgt := v.toNat % 16 }
  else if o = 0xC010 then some { p with ctxbase := v }
  else if o = 0xC018 then some { p with ctxn := v.toNat }
  else if 0x1000 ≤ o ∧ o < 0x3000 then
    some { p with peertab := p.peertab.put ((o - 0x1000) / 8) (PeerEntry.ofWord v) }
  else none

/-- The fields that the partition itself writes: DATP, IVASID and HEAD (R157, R163, R451). -/
def Part.own (p : Part) (o : Nat) (v : DWord) : Option Part :=
  if o = 0x00 then some { p with datp := v }
  else if o = 0x18 then some { p with ivasid := v.setWidth 16 }
  else if o = 0x208 then some { p with ring0 := { p.ring0 with head := BitVec.ofNat 16 (v.toNat / 2 ^ 32) } }
  else if o = 0x218 then some { p with ring1 := { p.ring1 with head := BitVec.ofNat 16 (v.toNat / 2 ^ 32) } }
  else none

/-- Records that waited for room in their ring may go when a ring register has been written (R451, R453). -/
def State.wakeRings (s : State) : State :=
  [0, 1, 2].foldl (fun s h =>
    if (s.hub h).records.isEmpty then s else s.scheduleOnce (portSlot s.now) (.ringRecordPost h)) s

/-- The partition holds a lease, or a resident or saved team (R515). -/
def State.partHolds (s : State) (part : Nat) : Bool :=
  s.launches.any fun (_, l) => l.part == part

/-- A write that the record takes: CFGSEQ rises by one. -/
def State.acceptCfg (s : State) (part : Nat) : State :=
  let s := s.modPart part fun p => { p with pcstat := status stOk 0 }
  { s with cfgseq := s.cfgseq + 1 }

/-- PARTCFG_WRITE (R515, R519), through the window of a hub; one to an offset without a writable field is
ignored. -/
def State.partcfg (s : State) (hub part o : Nat) (v : DWord) : State :=
  if o = 0xC000 then
    if s.partHolds part then s.modPart part fun p => { p with pcstat := status stDenied 0 }
    else (s.modPart part fun p => { p with clmask := v.setWidth 48 }).acceptCfg part
  else if o = 0x10 then (s.invRequest part v true none).acceptCfg part
  else
    let p := s.part part
    let own := p.own o v
    match (own.getD p).config hub o v, own with
    | some p, _ => ((s.modPart part fun _ => p).acceptCfg part).wakeRings
    | none, some p => ((s.modPart part fun _ => p).acceptCfg part).wakeRings
    | none, none => s.modPart part fun p => { p with pcstat := status stOk 0 }

/-! ## Keys and attestation (R514, R516) -/

/-- The partition holds an enabled queue (R516). -/
def State.queueEnabled (s : State) (part : Nat) : Bool :=
  (s.part part).queues.any fun q => (s.qdesc .merged q).ok

/-- KEYROT's status word, with DONE (R519). -/
def State.keyStatus (s : State) (code : Nat) : State :=
  { s with keyrot := s.keyrot.put 10 ((status code 0).setWidth 64) }

/-- The key pair of a slot, 64 bytes (R180); a slot that holds none has zeros. -/
def State.slotKey (s : State) (slot : Nat) : List Byte :=
  let k := s.keys.get [] slot
  k ++ leBytes (64 - k.length) 0

/-- The new key pair that KEYROT holds (R519). -/
def State.newKey (s : State) : List Byte := (List.range 8).flatMap fun i => leBytes 8 (s.keyrot.get 0 i).toNat

/-- Cycles in which a frame is rewritten under its new key (log 9, DESIGN CHOICE). -/
def keyFrameTime : Nat := 512 * lineCopyTime

/-- A frame that a rotation has still to rewrite: a frame that has left the partition is not, and one that moves is
written to its new place under the new key. -/
def State.rotates (s : State) (part frame : Nat) : Bool :=
  let p := s.place frame
  p.assigned && p.key.toNat == part && !p.migr

/-- Go on with a rotation: the next frame is rewritten with SCRUB set; after the last one the spare slot is cleared
and DONE is set (R516). -/
def State.rotateNext (s : State) (part spare : Nat) (frames : List Nat) : State :=
  let others := s.rotations.filter fun r => r.2.1 != spare
  match frames.filter (s.rotates part) with
  | [] => { s with rotations := others, keys := s.keys.without spare }.keyStatus stOk
  | f :: fs =>
    ({ s with rotations := others ++ [(part, spare, f :: fs)] }.setPlace f { s.place f with scrub := true }).schedule
      (s.now + keyFrameTime) (.keyFrame spare)

/-- A frame has been read under the spare slot and written under the partition's; memory stands here as it is
read, so its bytes stay (log 73). -/
def State.keyFrame (s : State) (spare : Nat) : State :=
  match s.rotations.find? fun r => r.2.1 == spare with
  | some (part, _, f :: fs) =>
    let s := if s.rotates part f then s.setPlace f { s.place f with scrub := false } else s
    s.rotateNext part spare fs
  | _ => s

/-- KEY_ROTATION (R516): the old key moves to the spare slot, the new one is loaded, and the partition's frames are
rewritten one by one. -/
def State.keyRotation (s : State) (part spare : Nat) : State :=
  if decide (47 < part) || s.partHolds part || s.queueEnabled part || decide (spare < 56) || decide (62 < spare) ||
      s.rotations.any fun r => r.2.1 == spare then s.keyStatus stDenied
  else
    let frames := (s.places.filter fun (_, p) => p.assigned && p.key.toNat == part).map (·.1)
    { s with keys := (s.keys.put spare (s.slotKey part)).put part s.newKey
             keyrot := s.keyrot.put 10 0 }.rotateNext part spare frames

/-- The attestation report without its signature (R514). -/
def State.report (s : State) (nonce : List Byte) (part : Byte) : List Byte :=
  let image := fun (d : Nat) =>
    if (s.pairs.get Pair.reset d).fenced then leBytes 64 0 else s.images.get (leBytes 64 0) d
  let record := fun (p : Nat) => s.viewRegs 0 p ++ (s.part p).aliasRegs
  let cfg := if part = 0xFF then (List.range 48).flatMap record else record part.toNat
  nonce.take 32 ++ leBytes (32 - nonce.length) 0 ++ leBytes 8 s.pkgid.toNat ++ [part] ++ leBytes 7 0 ++
    (List.range 12).flatMap image ++ s.images.get (leBytes 64 0) 12 ++ sha512 (Config.recordBytes cfg) ++
    leBytes 8 s.cfgseq.toNat

/-- ATTESTATION_REQUEST (R514): hub 0 writes the report and sets DONE. -/
def State.attest (s : State) (nonce : List Byte) (part : Byte) (addr : Nat) : State :=
  let r := s.report nonce part
  let s := if (tierOf addr).isSome then s.agentWrite addr (r ++ Config.identitySign r) else s
  { s with attreq := s.attreq.put 6 1 }

/-- The nonce in ATTREQ. -/
def State.attNonce (s : State) : List Byte :=
  (List.range 4).flatMap fun i => leBytes 8 (s.attreq.get 0 i).toNat

/-! ## Writing (R7, R519) -/

/-- Global page: HBEAT, READY and MAPBASE are stored; LEADER changes by a compare alone (R470). -/
def State.writeGlobal (s : State) (hub o : Nat) (v : DWord) : State :=
  if o = 0x10 then s.modHub hub fun h => { h with hbeat := v }
  else if o = 0x18 then { s with ready := v &&& 1 }
  else if o = 0x28 then { s with mapbase := v }
  else s

/-- KEYROT: the write of start begins the rotation (R516). -/
def State.writeKeyrot (s : State) (o : Nat) (v : DWord) : State :=
  if o = 0x48 then
    let w := (s.keyrot.get 0 8).toNat
    s.keyRotation (w % 256) (w / 256 % 256)
  else if o < 0x40 then { s with keyrot := s.keyrot.put (o / 8) v }
  else if o = 0x40 then { s with keyrot := s.keyrot.put 8 (v &&& 0xFFFF) }
  else s

/-- ATTREQ: the write of the partition begins the request (log 14, DEDUCED). -/
def State.writeAttreq (s : State) (o : Nat) (v : DWord) : State :=
  if o = 0x20 then
    let s := { s with attreq := (s.attreq.put 4 (v &&& 0xFF)).put 6 0 }
    s.attest s.attNonce (v.setWidth 8) (s.attreq.get 0 5).toNat
  else if o < 0x30 then { s with attreq := s.attreq.put (o / 8) v }
  else s

def State.writeTiroskyo (s : State) (hub o : Nat) (v : DWord) : State :=
  if o < 0x80 then s.writeKeyrot o v
  else if o < 0xC0 then s.writeAttreq (o - 0x80) v
  else if o = 0x100 then
    (s.modHub hub fun h => { h with migpol := v.setWidth 32 }).scheduleOnce s.now (.migrationStart hub)
  else if o = 0x108 then s.sysdone (v.setWidth 32)
  else if o = 0x110 then { s with scrubq := v }
  else if o = 0x118 then { s with errlogBase := v }
  else if 0x200 ≤ o ∧ o < 0x230 then { s with svcslot := s.svcslot.put ((o - 0x200) / 8) v }
  else if 0x400 ≤ o ∧ o < 0x600 then s.modHub hub fun h => { h with hostq := h.hostq.put ((o - 0x400) / 8) v }
  else s

/-- The view of a partition. -/
def State.writeView (s : State) (part o : Nat) (v : DWord) : State :=
  if o = 0x10 then s.invRequest part v false none
  else
    match (s.part part).own o v with
    | some p => (s.modPart part fun _ => p).wakeRings
    | none => s

/-- REGISTER_WRITE: the register at an offset of a hub's window. -/
def State.regWrite (s : State) (hub off : Nat) (v : DWord) : State :=
  let page := off / 65536
  let o := off % 65536 / 8 * 8
  if page = 0 then s.writeGlobal hub o v
  else if page = 1 then s.writeTiroskyo hub o v
  else if 0x10 ≤ page ∧ page < 0x40 then s.writeView (page - 0x10) o v
  else if 0x100 ≤ page ∧ page < 0x130 then s.partcfg hub (page - 0x100) o v
  else s

/-! ## The placement map (R169, R170, R181 to R183) -/

/-- The frame of an entry of the map: those of HBM, of the LP tier and of the pool, in the order of their
addresses (log 15, DEDUCED). -/
def mapFrame (i : Nat) : Option Nat :=
  if i < 3 * 2 ^ 22 then some i
  else if i < 3 * 2 ^ 22 + 3 * 2 ^ 23 then some (2 ^ 24 + (i - 3 * 2 ^ 22))
  else if i < 3 * 2 ^ 22 + 3 * 2 ^ 23 + 2 ^ 30 then some (poolFrame (i - 3 * 2 ^ 22 - 3 * 2 ^ 23))
  else none

/-- The frame whose entry an address lies in. -/
def State.mapAt (s : State) (pa : Nat) : Option Nat :=
  let b := s.mapbase.toNat
  if b ≠ 0 ∧ b ≤ pa then mapFrame ((pa - b) / 16) else none

/-- The two words of an entry (R169). -/
def Place.low (p : Place) : Nat :=
  p.heat.toNat * 2 ^ 48 + p.key.toNat * 2 ^ 42 + p.ptier.toNat * 2 ^ 40 + p.phub.toNat * 2 ^ 38 +
    p.pin.toNat * 2 ^ 37 + p.smpl.toNat * 2 ^ 36 + p.migr.toNat * 2 ^ 35 + p.scrub.toNat * 2 ^ 34 +
    p.retired.toNat * 2 ^ 33 + p.assigned.toNat * 2 ^ 32
def Place.high (p : Place) : Nat := p.ptepa.toNat

/-- A line of a fresh frame as its partition reads it (R182): zeros encrypted under slot 63, decrypted under the
partition's slot. -/
def State.freshLine (s : State) (part line : Nat) : List Byte :=
  let pa := 128 * line
  decryptLine (s.slotKey part) pa (encryptLine (s.slotKey 63) pa (leBytes 128 0))

/-- A fresh frame reads as its keys and its address give it (R182). -/
def State.freshen (s : State) (part frame : Nat) : State :=
  let s := s.wipe frame
  { s with mem := memPut ((List.range' (512 * frame) 512).flatMap (s.freshLine part)) (frame * 65536) s.mem }

/-- The frame joins a partition. -/
def State.assign (s : State) (part frame : Nat) : State :=
  let s := { s with taken := insertNat frame s.taken }
  let s := match frameTier frame with | some (t, _) => s.countIn part t 1 | none => s
  s.freshen part frame

/-- The frame leaves a partition and is scrubbed (R181). -/
def State.unassign (s : State) (part frame : Nat) : State :=
  let s := match frameTier frame with | some (t, _) => s.countOut part t 1 | none => s
  (s.setPlace frame { s.place frame with scrub := true }).schedule s.now (.frameScrub frame)

/-- The entry counts as a pinned frame of its partition (R183). -/
def Place.counted (p : Place) : Bool := p.pin && p.assigned

/-- Count a change of an entry in QPIN. -/
def State.countPin (s : State) (p q : Place) : State :=
  let s := if p.counted then s.modPart p.part fun x => { x with qpin := { x.qpin with used := x.qpin.used - 1 } } else s
  if q.counted then s.modPart q.part fun x => { x with qpin := { x.qpin with used := x.qpin.used + 1 } } else s

/-- The entry after a write of its low word. A frame that is scrubbed or retired is not assigned (R181); a change of
KEY takes an assigned frame from its partition, which scrubs it, so that ASSIGNED reads 0; its pin goes with it
(R187). A pin that would take QPIN above its limit is not set (R183). (Log 87, DEDUCED.) -/
def State.placeWritten (s : State) (p : Place) (v : DWord) : Place :=
  let n := v.toNat
  let key := BitVec.ofNat 6 (n / 2 ^ 42)
  let leaves := p.assigned && (!v.getLsbD 32 || key != p.key)
  let stays := p.assigned && !leaves
  let joins := !p.assigned && v.getLsbD 32 && !(p.scrub || p.retired)
  let q : Place := { p with key := key, ptier := BitVec.ofNat 2 (n / 2 ^ 40), phub := BitVec.ofNat 2 (n / 2 ^ 38)
                            pin := v.getLsbD 37 && !leaves, smpl := v.getLsbD 36, assigned := stays || joins
                            passed := false }
  let x := (s.part q.part).qpin
  if q.counted && !p.counted && decide (x.limit ≤ x.used) then { q with pin := false } else q

/-- Tiroskyo writes the low word of an entry: its RW fields (R169). -/
def State.writePlaceLow (s : State) (frame : Nat) (v : DWord) : State :=
  let p := s.place frame
  let q := s.placeWritten p v
  let s := ((s.setPlace frame q).countPin p q).scheduleOnce s.now (.migrationStart (heatHub frame))
  match p.assigned, q.assigned with
  | false, true => s.assign q.part frame
  | true, false => s.unassign p.part frame
  | _, _ => s

/-- Tiroskyo writes the high word: PTEPA. -/
def State.writePlaceHigh (s : State) (frame : Nat) (v : DWord) : State :=
  let p := s.place frame
  if p.scrub then s else s.setPlace frame { p with ptepa := v.setWidth 52 }

end Sys2Proof.Machine
end

