-- ==== Sys2Proof/Machine/Package.lean ====
section
/-! DEFINITION. The part around the work: bring-up (R511 to R513), power and temperature (R522, R523), the
management port (R521), accesses of hosts and harts (R122, R394, R395), and the events that end a
publication, an L1 line and a write-combining entry (R379, R383, R391). -/

namespace Sys2Proof.Machine

/-! ## Bring-up (R511 to R513) -/

/-- Events that come from outside: they are not the part's own. -/
def fromOutside : Event → Bool
  | .hostDoorbell _ _ | .hostSlotWrite _ _ _ _ | .poolMemberLeave _ _ | .poolMemberJoin _ => true
  | .peerWindowAccess _ | .peerLeaseMessage _ _ _ _ _ _ _ _ | .registeredReceive _ _ _ _ => true
  | .laneFailure _ | .stationDown _ | .scaleOutReceive _ | .scaleOutStatus _ _ => true
  | .frameRetire _ | .writebackPoison _ | .coreFence _ | .lockstepMismatch _ | .cxlPortDown _ => true
  | .packageReset | .attestationRequest _ _ _ | .keyRotation _ _ | .partcfgWrite _ _ _ | .sysdoneWrite _ => true
  | .powerMeasurement _ _ | .thermalTrip _ | .firmwareUpdate _ _ | .registerWrite _ _ _ => true
  | .hostMemoryAccess _ _ _ _ | .hartMemoryAccess _ _ | .hartInterrupt _ _ => true
  | _ => false

/-- The outside's pending events, with the package's count begun again. -/
def State.keptEvents (s : State) : List (Nat × Event) :=
  (s.agenda.filter fun e => fromOutside e.2).map fun (d, e) => (d - s.now, e)

/-- The package as a reset leaves it: the flash and the fuses stay, and so do what has left the package
and the model's own counters. -/
def State.afterReset (s : State) : State :=
  { State.reset with
    agenda := s.keptEvents, flash := s.flash, fuses := s.fuses, outbox := s.outbox, sends := s.sends
    outs := s.outs, freeCount := s.freeCount, order := s.order }

/-- A slice of an image. -/
def slice (bs : List Byte) (a n : Nat) : List Byte := (bs.drop a).take n

/-- Key hash i in fuses. -/
def State.fuseHash (s : State) (i : Nat) : List Byte :=
  (List.range' (4 * i) 4).flatMap fun k => leBytes 8 (s.fuses.get 0 k).toNat

/-- A signer's key is one of the four in fuses whose revocation fuse is not blown. -/
def State.knownKey (s : State) (key : List Byte) : Bool :=
  let h := (sha512 key).take 32
  [0, 1, 2, 3].any fun i => !((s.fuses.get 0 16).getLsbD i) && s.fuseHash i == h

/-- The fixed fields of a header hold allowed values (R512). -/
def headerOk (bs : List Byte) (type : Nat) : Bool :=
  let n := leNat (slice bs 0x0C 4)
  leNat (slice bs 0 4) == 0x4C4E4657 && leNat (slice bs 4 2) == type && leNat (slice bs 6 2) == 0 &&
    n % 64 == 0 && decide (n ≤ 2 ^ 26) && decide (256 + n ≤ bs.length) && leNat (slice bs 0xB0 80) == 0

/-- An image with its header, as long as the header says. -/
def imageOf (bs : List Byte) : List Byte := bs.take (256 + leNat (slice bs 0x0C 4))

/-- An image is accepted (R513). -/
def State.imageOk (s : State) (bs : List Byte) (type : Nat) : Bool :=
  headerOk bs type && s.knownKey (slice bs 0x50 32) &&
    edVerify (slice bs 0x50 32) (slice bs 0 0x70) (slice bs 0x70 64) &&
    sha512 ((imageOf bs).drop 256) == slice bs 0x10 64 &&
    decide ((s.fuses.get 0 17).toNat ≤ leNat (slice bs 8 4))

/-- Steps 1 and 2 for one die. -/
def State.bringPair (s : State) (die : Nat) : State :=
  let (k, s) := s.free
  let bs := s.flash.get [] die
  if Config.selfTest k && s.imageOk bs 1 then
    { s with pairs := s.pairs.put die { Pair.reset with inReset := false }
             images := s.images.put die (sha512 (imageOf bs)) }
  else s.fencePair die

/-- The dies whose pairs have passed. -/
def State.passed (s : State) : List Nat :=
  (List.range pairCount).filter fun d => !(s.pairs.get Pair.reset d).inReset

/-- The slots that hold a key after bring-up: the partitions', those of Tiroskyo's own memory, and the scrub key
in slot 63 (R20). -/
def keySlots : List Nat := List.range 56 ++ [63]

/-- Load the slots' key pairs: hub 0 takes the scrub key from its random source (R20). -/
def State.loadKeys (s : State) : State :=
  { s with keys := keySlots.map fun k => (k, (List.range 64).map fun i => Config.keyByte (s.freeCount + 64 * k + i))
           freeCount := s.freeCount + 64 * 64 }

/-- Steps 5 and 6: every frame has been scrubbed, and the clocks of the hubs and pairs run. -/
def State.ready6 (s : State) : State :=
  let s := { s with ready := 1 }
  let s := [0, 1, 2].foldl (fun s h =>
    (s.schedule (s.now + 64) (.tokenRefill h)).schedule (s.now + 64) (.fabricTokenRefill h)) s
  let s := (s.schedule (s.now + 65536) .heartbeat).schedule (s.now + 2000) .serviceQuantum
  s.passed.foldl (fun s d => s.schedule (s.now + 65536) (.heartbeatCheck d)) s

/-- Steps 4 to 6. -/
def State.loadTiroskyo (s : State) : State :=
  let bs := s.flash.get [] 12
  if s.imageOk bs 2 then
    { s with pkgid := Config.portPkgid.setWidth 64
             images := s.images.put 12 (sha512 (imageOf bs)) }.loadKeys.ready6
  else s

/-- PACKAGE_RESET (R511). With no pair passing, the package stays in reset. (Log 63, DEDUCED.) -/
def State.bringUp (s : State) : State :=
  let s : State := { s.afterReset with devid := Config.identityPublic }
  let s := (List.range pairCount).foldl (fun s d => s.bringPair d) s
  match s.passed with
  | [] => s
  | d :: _ => { s with leader := BitVec.ofNat 64 d }.loadTiroskyo

/-! ## Power and temperature (R522, R523) -/

/-- A consumer's budget in mW (R23): dies 0 to 11, the HBM controllers of the hubs (12 to 14), and their
LP controllers (15 to 17). (Log 64, DEDUCED.) -/
def budget (k : Nat) : Nat :=
  if k < 6 then 850000 else if k < 9 then 300000 else if k < 12 then 200000
  else if k < 15 then 160000 else 33333

/-- The clock after 16 measurements. -/
def Power.step (p : Power) (sum b : Nat) : Power :=
  if 16 * b < sum then
    if 12 < p.clock then { p with clock := p.clock - 1, low := 0 } else { p with low := p.low + 16 }
  else if 100 * sum < 95 * (16 * b) then { p with clock := min 21 (p.clock + 1), low := 0 }
  else { p with low := 0 }

/-- The bit of a die in THROT. -/
def State.setThrot (s : State) (k : Nat) (slow : Bool) : State :=
  if k < 12 then
    { s with throt := if slow then s.throt ||| BitVec.twoPow 12 k else s.throt &&& ~~~(BitVec.twoPow 12 k) }
  else s

/-- POWER_MEASUREMENT (R522): one step per 16 measurements. -/
def State.measure (s : State) (k mw : Nat) : State :=
  let p := s.power.get Power.reset k
  let w := p.window ++ [mw]
  if w.length < 16 then { s with power := s.power.put k { p with window := w } }
  else
    let q := { p with window := [] }.step w.sum (budget k)
    let s := s.setThrot k (decide (q.clock < 21))
    if 64 ≤ q.low then
      { s with power := s.power.put k { q with low := 0 }, outs := s.outs ++ [Out.notice k] }
    else { s with power := s.power.put k q }

/-- THERMAL_TRIP (R523): the package holds itself in reset. -/
def State.trip (s : State) (die : Nat) : State :=
  let p := s.power.get Power.reset die
  { s.afterReset with
    replace := s.replace ||| BitVec.twoPow 128 81
    power := s.power.put die { p with tripped := true } }

/-- Clusters of a mask on a GPU die. -/
def clustersOn (mask : BitVec 48) (die : Nat) : Nat :=
  ((List.range' (8 * die) 8).filter fun k => mask.getLsbD k).length

/-- Time passes: the cores of a partition on a die with a reduced clock count it in THROTCYC (R518). -/
def State.advance (s : State) (t : Nat) : State :=
  let d := t - s.now
  let slow := (List.range Config.gpuDies).filter fun g => s.throt.getLsbD g
  let s := if slow.isEmpty then s
    else { s with parts := s.parts.map fun (k, p) =>
      (k, { p with throtcyc := p.throtcyc + BitVec.ofNat 64 (d * (8 * (slow.map (clustersOn p.clmask)).sum)) }) }
  { s with now := max s.now t }

/-! ## Hosts (R394) -/

def isHostAccess : Event → Bool
  | .hostMemoryAccess _ _ _ _ => true
  | _ => false

/-- A host access waits, with those behind it, so that their order stays. -/
def State.deferHost (s : State) (due : Nat) (e : Event) : State :=
  let behind := s.agenda.filter fun x => isHostAccess x.2 && decide (x.1 ≤ due)
  let s := { s with agenda := s.agenda.filter fun x => !(isHostAccess x.2 && decide (x.1 ≤ due)) }
  behind.foldl (fun s x => s.schedule due x.2) (s.schedule due e)

/-- HOST_MEMORY_ACCESS (R394): a write is published at PACKAGE; a read returns the line as merged. -/
def State.hostAccess (s : State) (write : Bool) (addr : Nat) (data : List Byte) (n : Nat) : State :=
  if s.ready = 0 ∨ (tierOf addr).isNone then s
  else if s.needsHandover addr then
    (s.askHandover addr).deferHost (s.now + 512) (.hostMemoryAccess write addr data n)
  else if write then (if s.dropsStore addr data then s else s.agentWrite addr data)
  else { s with outs := s.outs ++ [Out.host addr (s.view .merged addr n)] }

/-! ## Harts (R122, R395) -/

/-- The low n bytes of a word from its byte k. -/
def wordPart (w k n : Nat) : Nat := w / 2 ^ (8 * (k % 8)) % 2 ^ (8 * n)

/-- The word with bytes from k replaced. -/
def wordSet (w k n v : Nat) : Nat :=
  let sh := 2 ^ (8 * (k % 8))
  w - wordPart w k n * sh + v % 2 ^ (8 * n) * sh

/-- A hart's read. -/
def State.hartRead (s : State) (h pa n : Nat) : Nat :=
  match regWindow pa with
  | some (hub, off) => wordPart (s.regRead hub (off / 8 * 8)) off n
  | none =>
    match s.mapAt pa with
    | some f =>
      let p := s.place f
      wordPart (if (pa - s.mapbase.toNat) % 16 < 8 then p.low else p.high) pa n
    | none => leNat (s.view (s.reqViewer (.hart h)) pa n)

/-- A hart's write: published at PACKAGE. -/
def State.hartWrite (s : State) (pa n v : Nat) : State :=
  match regWindow pa with
  | some (hub, off) => s.regWrite hub off (BitVec.ofNat 64 (wordSet (s.regRead hub (off / 8 * 8)) off n v))
  | none =>
    match s.mapAt pa with
    | some f =>
      let p := s.place f
      if (pa - s.mapbase.toNat) % 16 < 8 then s.writePlaceLow f (BitVec.ofNat 64 (wordSet p.low pa n v))
      else s.writePlaceHigh f (BitVec.ofNat 64 (wordSet p.high pa n v))
    | none => if s.dropsStore pa (leBytes n v) then s else s.agentWrite pa (leBytes n v)

/-- An access of a hart reaches nothing: a page fault, a guest-page fault or an access fault of its type; a
service pair in reset has an access fault (R470). (Log 65, DEDUCED.) -/
def State.hartFails (s : State) (h : Nat) (write : Bool) (va : DWord) : State :=
  s.modHart h fun x => x.trap (s.hartCause h va.toNat (if write then 2 else 1)) va

/-- A hart's access at an address: it waits while the page of the pool is not this package's. -/
def State.hartAt (s : State) (h : Nat) (op : HartOp) (va : DWord) (write : Bool) (n : Nat)
    (go : Nat → State) : State :=
  match s.hartWalk h va.toNat (if write then 2 else 1) with
  | none => s.hartFails h write va
  | some pa =>
    if (regWindow pa).isNone && (tierOf pa).isNone then s.hartFails h write va
    else if s.needsHandover pa then (s.askHandover pa).schedule (s.now + 512) (.hartMemoryAccess h op)
    else if s.poisoned pa n && (!write || n < 128) && (regWindow pa).isNone then
      s.modHart h fun x => x.trap hartPoison va
    else go pa

/-- The scope of a hart's publication or acquire: PARTITION, under the ceiling (R395, R370). -/
def State.hartSync (s : State) (h : Nat) (on : Bool) : State :=
  if on && (pairAgent h).isNone then (s.demotePart (s.reqPart (.hart h)) 4).2 else s

def amoSize (ty : AType) : Nat := match ty with | .i32 | .n32 => 4 | .i64 | .n64 => 8

/-- The sign-extended result of an AMO. -/
def amoResult (n old : Nat) : DWord := if n = 4 then (BitVec.ofNat 32 old).signExtend 64 else BitVec.ofNat 64 old

/-- HART_MEMORY_ACCESS (R395). -/
def State.hartAccess (s : State) (h : Nat) (op : HartOp) : State :=
  if s.ready = 0 then s
  else
    match op with
    | .load va n rd => s.hartAt h op va false n fun pa =>
        s.modHart h fun x => x.put rd.toNat (BitVec.ofNat 64 (s.hartRead h pa n))
    | .store va n v => s.hartAt h op va true n fun pa => s.hartWrite pa n v.toNat
    | .fence p a => (s.hartSync h p).hartSync h a
    | .amo va ty o v rd aq rl =>
      let n := amoSize ty
      if va.toNat % n ≠ 0 then s.modHart h fun x => x.trap 6 va
      else s.hartAt h op va true n fun pa =>
        let s := s.hartSync h rl
        let old := s.hartRead h pa n
        let s := s.hartWrite pa n (atomApply o ty old (v.toNat % 2 ^ (8 * n)))
        (s.modHart h fun x => x.put rd.toNat (amoResult n old)).hartSync h aq

/-- Where a hart's interrupt handler starts: tvec's mode 1 is vectored. -/
def Hart.vector (h : Hart) (cause : Nat) : DWord :=
  let base := h.tvec &&& ~~~3
  if h.tvec &&& 3 = 1 then base + BitVec.ofNat 64 (4 * cause) else base

/-- HART_INTERRUPT (R122): a parked operation is withdrawn, and the exception pc points at it. -/
def State.interruptHart (s : State) (h cause : Nat) : State :=
  let s := { s with queueWaits := s.queueWaits.filter fun w => w.who != Requester.hart h }
  s.modHart h fun x =>
    { x with epc := x.pc, cause := BitVec.ofNat 64 (2 ^ 63 + cause), tval := 0, pc := x.vector cause, parked := false }

/-! ## Publications, lines and entries that come to their end -/

/-- A thread's publication has completed. -/
def Group.published (g : Group) (id : Nat) : Group :=
  g.modAll fun t => { t with pubs := t.pubs.filter fun i => i != id }

/-- PUBLICATION_COMPLETE (R379). -/
def State.pubComplete (s : State) (core id : Nat) : State :=
  s.modCore core fun c =>
    { c with groups := c.groups.map fun (k, g) => (k, g.published id)
             side := c.side.map fun d => { d with pressed := d.pressed.map fun g => g.published id } }

/-- L1_LINE_EXPIRY (R383). -/
def State.expireLine (s : State) (core line filled : Nat) : State :=
  s.modCore core fun c => { c with l1 := c.l1.filter fun x => !(x.line == line && x.filled == filled) }

/-! ## Meanings -/

/-- PUBLICATION_COMPLETE (R379). -/
def execPublicationComplete (s : State) : Res :=
  match s.event with
  | .publicationComplete core id => .next (s.pubComplete core id)
  | .stagingRetry core id => .next (s.stagingRetry core id)
  | _ => .next s

/-- L1_LINE_EXPIRY (R383). -/
def execL1LineExpiry (s : State) : Res :=
  match s.event with
  | .l1LineExpiry core line filled => .next (s.expireLine core line filled)
  | _ => .next s

/-- WC_DRAIN_TIMEOUT (R391). -/
def execWcDrainTimeout (s : State) : Res :=
  match s.event with
  | .wcDrainTimeout core id => .next (s.drainWc core fun e => e.id == id)
  | _ => .next s

/-- PACKAGE_RESET (R511). -/
def execPackageReset (s : State) : Res :=
  match s.event with
  | .packageReset => .next s.bringUp
  | _ => .next s

/-- ATTESTATION_REQUEST (R514). -/
def execAttestationRequest (s : State) : Res :=
  match s.event with
  | .attestationRequest nonce part addr => .next (s.attest nonce part addr)
  | _ => .next s

/-- KEY_ROTATION (R516). -/
def execKeyRotation (s : State) : Res :=
  match s.event with
  | .keyRotation part spare => .next (s.keyRotation part spare)
  | .keyFrame spare => .next (s.keyFrame spare)
  | _ => .next s

/-- PARTCFG_WRITE (R515). -/
def execPartcfgWrite (s : State) : Res :=
  match s.event with
  | .partcfgWrite part o v => .next (s.partcfg 0 part o v)
  | _ => .next s

/-- POWER_MEASUREMENT (R522). -/
def execPowerMeasurement (s : State) : Res :=
  match s.event with
  | .powerMeasurement k mw => .next (s.measure k mw)
  | _ => .next s

/-- THERMAL_TRIP (R523). -/
def execThermalTrip (s : State) : Res :=
  match s.event with
  | .thermalTrip die => .next (s.trip die)
  | _ => .next s

/-- FIRMWARE_UPDATE (R521): the image takes effect at the next reset. -/
def execFirmwareUpdate (s : State) : Res :=
  match s.event with
  | .firmwareUpdate die image => .next { s with flash := s.flash.put die image }
  | _ => .next s

/-- REGISTER_WRITE (R7, R519). -/
def execRegisterWrite (s : State) : Res :=
  match s.event with
  | .registerWrite hub off v => .next (s.regWrite hub off v)
  | _ => .next s

/-- HOST_MEMORY_ACCESS (R394). -/
def execHostMemoryAccess (s : State) : Res :=
  match s.event with
  | .hostMemoryAccess w a bs n => .next (s.hostAccess w a bs n)
  | _ => .next s

/-- HART_MEMORY_ACCESS (R395). -/
def execHartMemoryAccess (s : State) : Res :=
  match s.event with
  | .hartMemoryAccess h op => .next (s.hartAccess h op)
  | _ => .next s

/-- HART_INTERRUPT (R122). -/
def execHartInterrupt (s : State) : Res :=
  match s.event with
  | .hartInterrupt h cause => .next (s.interruptHart h cause)
  | _ => .next s

end Sys2Proof.Machine
end

