-- ==== Sys2Proof/Machine/Dispatch.lean ====
section
/-! DEFINITION. One arm per constructor of Instr: a direct call of its meaning. -/

namespace Sys2Proof.Machine

def exec (i : Instr) (s : State) : Host.Outcome State Fault Refusal :=
  match i with
  | .nop f => Sys2Proof.Machine.execNop f s
  | .braW32 stall off => Sys2Proof.Machine.execBraW32 stall off s
  | .bra w => Sys2Proof.Machine.execBra w s
  | .brx f => Sys2Proof.Machine.execBrx f s
  | .call w => Sys2Proof.Machine.execCall w s
  | .callx f => Sys2Proof.Machine.execCallx f s
  | .ret f => Sys2Proof.Machine.execRet f s
  | .exit f => Sys2Proof.Machine.execExit f s
  | .yield f => Sys2Proof.Machine.execYield f s
  | .trap code f => Sys2Proof.Machine.execTrap code f s
  | .tret f => Sys2Proof.Machine.execTret f s
  | .syscall f => Sys2Proof.Machine.execSyscall f s
  | .bkpt code f => Sys2Proof.Machine.execBkpt code f s
  | .spawn f => Sys2Proof.Machine.execSpawn f s
  | .cdecl f => Sys2Proof.Machine.execCdecl f s
  | .csign f => Sys2Proof.Machine.execCsign f s
  | .brdecW32 stall ctr off => Sys2Proof.Machine.execBrdecW32 stall ctr off s
  | .brdec off f => Sys2Proof.Machine.execBrdec off f s
  | .iaddW16 x => Sys2Proof.Machine.execIaddW16 x s
  | .iaddW32 x => Sys2Proof.Machine.execIaddW32 x s
  | .iadd f => Sys2Proof.Machine.execIadd f s
  | .isubW16 x => Sys2Proof.Machine.execIsubW16 x s
  | .isub f => Sys2Proof.Machine.execIsub f s
  | .iaddc f => Sys2Proof.Machine.execIaddc f s
  | .isubb f => Sys2Proof.Machine.execIsubb f s
  | .iadd64 f => Sys2Proof.Machine.execIadd64 f s
  | .isub64 f => Sys2Proof.Machine.execIsub64 f s
  | .ineg f => Sys2Proof.Machine.execIneg f s
  | .iabs f => Sys2Proof.Machine.execIabs f s
  | .imulW16 x => Sys2Proof.Machine.execImulW16 x s
  | .imulW32 x => Sys2Proof.Machine.execImulW32 x s
  | .imul f => Sys2Proof.Machine.execImul f s
  | .imulh f => Sys2Proof.Machine.execImulh f s
  | .imad f => Sys2Proof.Machine.execImad f s
  | .imad64 f => Sys2Proof.Machine.execImad64 f s
  | .iminW16 x => Sys2Proof.Machine.execIminW16 x s
  | .iminW32 x => Sys2Proof.Machine.execIminW32 x s
  | .imin f => Sys2Proof.Machine.execImin f s
  | .imaxW16 x => Sys2Proof.Machine.execImaxW16 x s
  | .imax f => Sys2Proof.Machine.execImax f s
  | .idiff f => Sys2Proof.Machine.execIdiff f s
  | .isad f => Sys2Proof.Machine.execIsad f s
  | .andW16 x => Sys2Proof.Machine.execAndW16 x s
  | .andW32 x => Sys2Proof.Machine.execAndW32 x s
  | .and f => Sys2Proof.Machine.execAnd f s
  | .orW16 x => Sys2Proof.Machine.execOrW16 x s
  | .or f => Sys2Proof.Machine.execOr f s
  | .xorW16 x => Sys2Proof.Machine.execXorW16 x s
  | .xor f => Sys2Proof.Machine.execXor f s
  | .andn f => Sys2Proof.Machine.execAndn f s
  | .not f => Sys2Proof.Machine.execNot f s
  | .logic3 tt f => Sys2Proof.Machine.execLogic3 tt f s
  | .shlW16 x => Sys2Proof.Machine.execShlW16 x s
  | .shlW32 x => Sys2Proof.Machine.execShlW32 x s
  | .shl f => Sys2Proof.Machine.execShl f s
  | .shrlW16 x => Sys2Proof.Machine.execShrlW16 x s
  | .shrl f => Sys2Proof.Machine.execShrl f s
  | .shraW16 x => Sys2Proof.Machine.execShraW16 x s
  | .shra f => Sys2Proof.Machine.execShra f s
  | .rotl f => Sys2Proof.Machine.execRotl f s
  | .fshl f => Sys2Proof.Machine.execFshl f s
  | .bfx f => Sys2Proof.Machine.execBfx f s
  | .bfi f => Sys2Proof.Machine.execBfi f s
  | .popc f => Sys2Proof.Machine.execPopc f s
  | .clz f => Sys2Proof.Machine.execClz f s
  | .ctz f => Sys2Proof.Machine.execCtz f s
  | .brev f => Sys2Proof.Machine.execBrev f s
  | .bperm f => Sys2Proof.Machine.execBperm f s
  | .icmp r f => Sys2Proof.Machine.execIcmp r f s
  | .isel f => Sys2Proof.Machine.execIsel f s
  | .movW16 x => Sys2Proof.Machine.execMovW16 x s
  | .movW32 x => Sys2Proof.Machine.execMovW32 x s
  | .mov f => Sys2Proof.Machine.execMov f s
  | .movi w => Sys2Proof.Machine.execMovi w s
  | .movhi w => Sys2Proof.Machine.execMovhi w s
  | .leaW32 x => Sys2Proof.Machine.execLeaW32 x s
  | .lea f => Sys2Proof.Machine.execLea f s
  | .lea64 f => Sys2Proof.Machine.execLea64 f s
  | .icvt into frm f => Sys2Proof.Machine.execIcvt into frm f s
  | .plop tt f => Sys2Proof.Machine.execPlop tt f s
  | .pmovPv f => Sys2Proof.Machine.execPmovPv f s
  | .pmovVp f => Sys2Proof.Machine.execPmovVp f s
  | .sread r f => Sys2Proof.Machine.execSread r f s
  | .swrite r f => Sys2Proof.Machine.execSwrite r f s
  | .voteAll f => Sys2Proof.Machine.execVoteAll f s
  | .voteAny f => Sys2Proof.Machine.execVoteAny f s
  | .voteBallot f => Sys2Proof.Machine.execVoteBallot f s
  | .voteUni f => Sys2Proof.Machine.execVoteUni f s
  | .shfl m f => Sys2Proof.Machine.execShfl m f s
  | .redux o f => Sys2Proof.Machine.execRedux o f s
  | .matchv all f => Sys2Proof.Machine.execMatchv all f s
  | .faddW16 x => Sys2Proof.Machine.execFaddW16 x s
  | .faddW32 x => Sys2Proof.Machine.execFaddW32 x s
  | .fadd f => Sys2Proof.Machine.execFadd f s
  | .fsub f => Sys2Proof.Machine.execFsub f s
  | .fmulW16 x => Sys2Proof.Machine.execFmulW16 x s
  | .fmulW32 x => Sys2Proof.Machine.execFmulW32 x s
  | .fmul f => Sys2Proof.Machine.execFmul f s
  | .ffma f => Sys2Proof.Machine.execFfma f s
  | .fminW16 x => Sys2Proof.Machine.execFminW16 x s
  | .fminW32 x => Sys2Proof.Machine.execFminW32 x s
  | .fmin f => Sys2Proof.Machine.execFmin f s
  | .fmaxW16 x => Sys2Proof.Machine.execFmaxW16 x s
  | .fmax f => Sys2Proof.Machine.execFmax f s
  | .fcmp r f => Sys2Proof.Machine.execFcmp r f s
  | .fclass f => Sys2Proof.Machine.execFclass f s
  | .frcp f => Sys2Proof.Machine.execFrcp f s
  | .frsq f => Sys2Proof.Machine.execFrsq f s
  | .fsqrt f => Sys2Proof.Machine.execFsqrt f s
  | .fdiv f => Sys2Proof.Machine.execFdiv f s
  | .fexp2 f => Sys2Proof.Machine.execFexp2 f s
  | .flog2 f => Sys2Proof.Machine.execFlog2 f s
  | .fsin f => Sys2Proof.Machine.execFsin f s
  | .fcos f => Sys2Proof.Machine.execFcos f s
  | .ftanh f => Sys2Proof.Machine.execFtanh f s
  | .fscale f => Sys2Proof.Machine.execFscale f s
  | .frnd f => Sys2Proof.Machine.execFrnd f s
  | .f2i into frm hi f => Sys2Proof.Machine.execF2i into frm hi f s
  | .i2f into frm hi f => Sys2Proof.Machine.execI2f into frm hi f s
  | .fcvt into frm dn sn sr satf f => Sys2Proof.Machine.execFcvt into frm dn sn sr satf f s
  | .dadd f => Sys2Proof.Machine.execDadd f s
  | .dsub f => Sys2Proof.Machine.execDsub f s
  | .dmul f => Sys2Proof.Machine.execDmul f s
  | .dfma f => Sys2Proof.Machine.execDfma f s
  | .dcmp r f => Sys2Proof.Machine.execDcmp r f s
  | .pkadd f16 f => Sys2Proof.Machine.execPkadd f16 f s
  | .pkmul f16 f => Sys2Proof.Machine.execPkmul f16 f s
  | .pkfma f16 f => Sys2Proof.Machine.execPkfma f16 f s
  | .pkmm f16 max f => Sys2Proof.Machine.execPkmm f16 max f s
  | .qdot4 ae5 be5 f => Sys2Proof.Machine.execQdot4 ae5 be5 f s
  | .idot4 an bn f => Sys2Proof.Machine.execIdot4 an bn f s
  | .ldW32 x => Sys2Proof.Machine.execLdW32 x s
  | .ld f => Sys2Proof.Machine.execLd f s
  | .stW32 x => Sys2Proof.Machine.execStW32 x s
  | .st f => Sys2Proof.Machine.execSt f s
  | .ldsW32 x => Sys2Proof.Machine.execLdsW32 x s
  | .lds f => Sys2Proof.Machine.execLds f s
  | .stsW32 x => Sys2Proof.Machine.execStsW32 x s
  | .sts f => Sys2Proof.Machine.execSts f s
  | .ldx f => Sys2Proof.Machine.execLdx f s
  | .stx f => Sys2Proof.Machine.execStx f s
  | .pref f => Sys2Proof.Machine.execPref f s
  | .cctlWb f => Sys2Proof.Machine.execCctlWb f s
  | .cctlInv f => Sys2Proof.Machine.execCctlInv f s
  | .cctlWbinv f => Sys2Proof.Machine.execCctlWbinv f s
  | .icinv f => Sys2Proof.Machine.execIcinv f s
  | .ifence f => Sys2Proof.Machine.execIfence f s
  | .pin f => Sys2Proof.Machine.execPin f s
  | .unpin f => Sys2Proof.Machine.execUnpin f s
  | .hint f => Sys2Proof.Machine.execHint f s
  | .plq f => Sys2Proof.Machine.execPlq f s
  | .atom o ty f => Sys2Proof.Machine.execAtom o ty f s
  | .acas ty f => Sys2Proof.Machine.execAcas ty f s
  | .atoms o ty f => Sys2Proof.Machine.execAtoms o ty f s
  | .atomx o ty f => Sys2Proof.Machine.execAtomx o ty f s
  | .red o ty f => Sys2Proof.Machine.execRed o ty f s
  | .waitc r u w64 f => Sys2Proof.Machine.execWaitc r u w64 f s
  | .phasePub f => Sys2Proof.Machine.execPhasePub f s
  | .phaseSnap f => Sys2Proof.Machine.execPhaseSnap f s
  | .phaseFull f => Sys2Proof.Machine.execPhaseFull f s
  | .barArrive f => Sys2Proof.Machine.execBarArrive f s
  | .barWait f => Sys2Proof.Machine.execBarWait f s
  | .barSync f => Sys2Proof.Machine.execBarSync f s
  | .last f => Sys2Proof.Machine.execLast f s
  | .enq f => Sys2Proof.Machine.execEnq f s
  | .deq f => Sys2Proof.Machine.execDeq f s
  | .lnlEnq scope wait rs2 rs1 rd => Sys2Proof.Machine.execLnlEnq scope wait rs2 rs1 rd s
  | .lnlDeq scope wait rs2 rs1 rd => Sys2Proof.Machine.execLnlDeq scope wait rs2 rs1 rd s
  | .xcopy f => Sys2Proof.Machine.execXcopy f s
  | .xfill f => Sys2Proof.Machine.execXfill f s
  | .xgath f => Sys2Proof.Machine.execXgath f s
  | .xappk f => Sys2Proof.Machine.execXappk f s
  | .xseal f => Sys2Proof.Machine.execXseal f s
  | .xptr f => Sys2Proof.Machine.execXptr f s
  | .btapp f => Sys2Proof.Machine.execBtapp f s
  | .btrel f => Sys2Proof.Machine.execBtrel f s
  | .xpoolFill f => Sys2Proof.Machine.execXpoolFill f s
  | .xpoolCopy f => Sys2Proof.Machine.execXpoolCopy f s
  | .xpoolCmp f => Sys2Proof.Machine.execXpoolCmp f s
  | .xpoolReduce f => Sys2Proof.Machine.execXpoolReduce f s
  | .sbpost f => Sys2Proof.Machine.execSbpost f s
  | .sbpoll f => Sys2Proof.Machine.execSbpoll f s
  | .sbread f => Sys2Proof.Machine.execSbread f s
  | .mzero f => Sys2Proof.Machine.execMzero f s
  | .mma f => Sys2Proof.Machine.execMma f s
  | .mmasp f => Sys2Proof.Machine.execMmasp f s
  | .mldacc f => Sys2Proof.Machine.execMldacc f s
  | .mstacc f => Sys2Proof.Machine.execMstacc f s
  | .mpack f => Sys2Proof.Machine.execMpack f s
  | .mread f => Sys2Proof.Machine.execMread f s
  | .mwrite f => Sys2Proof.Machine.execMwrite f s
  | .mrowMax f => Sys2Proof.Machine.execMrowMax f s
  | .mrowSum f => Sys2Proof.Machine.execMrowSum f s
  | .mexp f => Sys2Proof.Machine.execMexp f s
  | .issueSelection => Sys2Proof.Machine.execIssueSelection s
  | .soloIssue => Sys2Proof.Machine.execSoloIssue s
  | .loopBufferRefill => Sys2Proof.Machine.execLoopBufferRefill s
  | .icacheFill => Sys2Proof.Machine.execIcacheFill s
  | .resultLanding => Sys2Proof.Machine.execResultLanding s
  | .fillBufferWrite => Sys2Proof.Machine.execFillBufferWrite s
  | .terminalFaultArrival => Sys2Proof.Machine.execTerminalFaultArrival s
  | .launchStopArrival => Sys2Proof.Machine.execLaunchStopArrival s
  | .migWindowReplay => Sys2Proof.Machine.execMigWindowReplay s
  | .handoverReplay => Sys2Proof.Machine.execHandoverReplay s
  | .ringRecordPost => Sys2Proof.Machine.execRingRecordPost s
  | .hostDoorbell => Sys2Proof.Machine.execHostDoorbell s
  | .hostSlotWrite => Sys2Proof.Machine.execHostSlotWrite s
  | .hostSlotTimeout => Sys2Proof.Machine.execHostSlotTimeout s
  | .hostDeferredExamine => Sys2Proof.Machine.execHostDeferredExamine s
  | .completionReservation => Sys2Proof.Machine.execCompletionReservation s
  | .launchAdmission => Sys2Proof.Machine.execLaunchAdmission s
  | .leaseGrant => Sys2Proof.Machine.execLeaseGrant s
  | .clusterHandout => Sys2Proof.Machine.execClusterHandout s
  | .stealWithinDie => Sys2Proof.Machine.execStealWithinDie s
  | .stealAcrossDies => Sys2Proof.Machine.execStealAcrossDies s
  | .poolRedivide => Sys2Proof.Machine.execPoolRedivide s
  | .teamStart => Sys2Proof.Machine.execTeamStart s
  | .groupsReady => Sys2Proof.Machine.execGroupsReady s
  | .activeSetEntry => Sys2Proof.Machine.execActiveSetEntry s
  | .preemptStarvation => Sys2Proof.Machine.execPreemptStarvation s
  | .preemptionRequest => Sys2Proof.Machine.execPreemptionRequest s
  | .deferralEnd => Sys2Proof.Machine.execDeferralEnd s
  | .forcedSave => Sys2Proof.Machine.execForcedSave s
  | .teamSave => Sys2Proof.Machine.execTeamSave s
  | .pressureRestore => Sys2Proof.Machine.execPressureRestore s
  | .teamRestore => Sys2Proof.Machine.execTeamRestore s
  | .pigeonholeTimerExpiry => Sys2Proof.Machine.execPigeonholeTimerExpiry s
  | .pigeonholeLaunch => Sys2Proof.Machine.execPigeonholeLaunch s
  | .spawnBlockRetry => Sys2Proof.Machine.execSpawnBlockRetry s
  | .invalidationRequest => Sys2Proof.Machine.execInvalidationRequest s
  | .invalidationComplete => Sys2Proof.Machine.execInvalidationComplete s
  | .migrationStart => Sys2Proof.Machine.execMigrationStart s
  | .migrationLineCopy => Sys2Proof.Machine.execMigrationLineCopy s
  | .migrationComplete => Sys2Proof.Machine.execMigrationComplete s
  | .heatHalving => Sys2Proof.Machine.execHeatHalving s
  | .frameScrub => Sys2Proof.Machine.execFrameScrub s
  | .poolHandover => Sys2Proof.Machine.execPoolHandover s
  | .poolMemberLeave => Sys2Proof.Machine.execPoolMemberLeave s
  | .publicationComplete => Sys2Proof.Machine.execPublicationComplete s
  | .l1LineExpiry => Sys2Proof.Machine.execL1LineExpiry s
  | .wcDrainTimeout => Sys2Proof.Machine.execWcDrainTimeout s
  | .monitorReevaluate => Sys2Proof.Machine.execMonitorReevaluate s
  | .monitorPoll => Sys2Proof.Machine.execMonitorPoll s
  | .waitcTimeout => Sys2Proof.Machine.execWaitcTimeout s
  | .queueWaiterServe => Sys2Proof.Machine.execQueueWaiterServe s
  | .queuePoll => Sys2Proof.Machine.execQueuePoll s
  | .barrierArrival => Sys2Proof.Machine.execBarrierArrival s
  | .barrierWake => Sys2Proof.Machine.execBarrierWake s
  | .cdeclEffect => Sys2Proof.Machine.execCdeclEffect s
  | .signatureArrival => Sys2Proof.Machine.execSignatureArrival s
  | .matrixChunk => Sys2Proof.Machine.execMatrixChunk s
  | .matrixEventComplete => Sys2Proof.Machine.execMatrixEventComplete s
  | .matrixStatusWrite => Sys2Proof.Machine.execMatrixStatusWrite s
  | .mreadPerform => Sys2Proof.Machine.execMreadPerform s
  | .tileFetch => Sys2Proof.Machine.execTileFetch s
  | .courierJobStart => Sys2Proof.Machine.execCourierJobStart s
  | .courierWrite => Sys2Proof.Machine.execCourierWrite s
  | .courierJobComplete => Sys2Proof.Machine.execCourierJobComplete s
  | .tokenRefill => Sys2Proof.Machine.execTokenRefill s
  | .fabricTokenRefill => Sys2Proof.Machine.execFabricTokenRefill s
  | .deferredBlockFree => Sys2Proof.Machine.execDeferredBlockFree s
  | .trackerEntryDrain => Sys2Proof.Machine.execTrackerEntryDrain s
  | .teamSideComplete => Sys2Proof.Machine.execTeamSideComplete s
  | .launchCompletion => Sys2Proof.Machine.execLaunchCompletion s
  | .cancelOrderArrival => Sys2Proof.Machine.execCancelOrderArrival s
  | .siblingRetire => Sys2Proof.Machine.execSiblingRetire s
  | .poolModuleOp => Sys2Proof.Machine.execPoolModuleOp s
  | .reductionComplete => Sys2Proof.Machine.execReductionComplete s
  | .reductionTimeout => Sys2Proof.Machine.execReductionTimeout s
  | .peerWindowAccess => Sys2Proof.Machine.execPeerWindowAccess s
  | .peerLeaseMessage => Sys2Proof.Machine.execPeerLeaseMessage s
  | .registeredReceive => Sys2Proof.Machine.execRegisteredReceive s
  | .registeredResend => Sys2Proof.Machine.execRegisteredResend s
  | .laneFailure => Sys2Proof.Machine.execLaneFailure s
  | .retrainEnd => Sys2Proof.Machine.execRetrainEnd s
  | .stationDown => Sys2Proof.Machine.execStationDown s
  | .scaleOutSend => Sys2Proof.Machine.execScaleOutSend s
  | .scaleOutReceive => Sys2Proof.Machine.execScaleOutReceive s
  | .waitroomRetry => Sys2Proof.Machine.execWaitroomRetry s
  | .scaleOutStatus => Sys2Proof.Machine.execScaleOutStatus s
  | .serviceQuantum => Sys2Proof.Machine.execServiceQuantum s
  | .sysdoneWrite => Sys2Proof.Machine.execSysdoneWrite s
  | .heartbeat => Sys2Proof.Machine.execHeartbeat s
  | .heartbeatCheck => Sys2Proof.Machine.execHeartbeatCheck s
  | .leaderTakeover => Sys2Proof.Machine.execLeaderTakeover s
  | .frameRetire => Sys2Proof.Machine.execFrameRetire s
  | .writebackPoison => Sys2Proof.Machine.execWritebackPoison s
  | .coreFence => Sys2Proof.Machine.execCoreFence s
  | .packageReset => Sys2Proof.Machine.execPackageReset s
  | .attestationRequest => Sys2Proof.Machine.execAttestationRequest s
  | .keyRotation => Sys2Proof.Machine.execKeyRotation s
  | .partcfgWrite => Sys2Proof.Machine.execPartcfgWrite s
  | .powerMeasurement => Sys2Proof.Machine.execPowerMeasurement s
  | .thermalTrip => Sys2Proof.Machine.execThermalTrip s
  | .firmwareUpdate => Sys2Proof.Machine.execFirmwareUpdate s
  | .registerWrite => Sys2Proof.Machine.execRegisterWrite s
  | .hostMemoryAccess => Sys2Proof.Machine.execHostMemoryAccess s
  | .hartMemoryAccess => Sys2Proof.Machine.execHartMemoryAccess s
  | .hartInterrupt => Sys2Proof.Machine.execHartInterrupt s
  | .cxlPortDown => Sys2Proof.Machine.execCxlPortDown s
  | .lockstepMismatch => Sys2Proof.Machine.execLockstepMismatch s
  | .poolMemberJoin => Sys2Proof.Machine.execPoolMemberJoin s

end Sys2Proof.Machine
end

