-- ==== Sys2Proof/Machine/Turn.lean ====
section
/-! DEFINITION. What stands around exec in a step: the fetch of a hart (R122), and the next pending event
of the part. -/

namespace Sys2Proof.Machine

/-- What a hart's turn comes to. -/
inductive HartTurn where
  /-- The hart waits in a parked operation, or has taken an exception: the step is over. -/
  | past (s : State)
  | insn (i : Instr) (s : State)
  /-- A word outside the custom-0 space. -/
  | other

/-- Fetch and decode a hart's word: a failed translation is an instruction page fault, an illegal word of
the custom-0 space the illegal-instruction exception (R122). -/
def State.hartFetch (s : State) (h : Nat) : HartTurn :=
  let x := s.hart h
  if x.parked then .past { s with turn := .idle }
  else
    match (s.hartWalk h x.pc.toNat 3).filter fun pa => (tierOf pa).isSome with
    | none => .past ({ s with turn := .idle }.modHart h fun x => x.trap (s.hartCause h x.pc.toNat 3) x.pc)
    | some pa =>
      let w := leNat (s.view (s.reqViewer (.hart h)) pa 4)
      match decodeHart w with
      | some i => .insn i s
      | none =>
        if w % 128 = 0x0B then .past ({ s with turn := .idle }.modHart h fun x => x.trap 2 (BitVec.ofNat 64 w))
        else .other

/-- The next pending event comes due: time passes up to it. -/
def State.take (s : State) (due : Nat) (e : Event) (rest : List (Nat × Event)) : State :=
  { (s.advance due) with event := e, agenda := rest }

/-! ## Placing an instruction where the next step fetches it (log 5) -/

/-- Write bytes to memory in its canonical form. -/
def State.poke (s : State) (pa : Nat) (bs : List Byte) : State := { s with mem := memPut bs pa s.mem }

/-- A root table whose first entry is a leaf that maps the low 2^48 addresses to themselves, with every
permission. -/
def State.rootAt (s : State) (pa : Nat) : State := s.poke pa [0xDF]

/-- Where the placed instruction stands, the roots of the two tables, and the registers that name them. -/
def placePc : Nat := 0x30000
def placeG : Nat := 0x10000
def placeOne : Nat := 0x20000
def placeDatp : DWord := BitVec.ofNat 64 (10 * 2 ^ 60 + placeOne / 2 ^ 12)

/-- Both stages of partition 0's translation map low addresses to themselves. -/
def State.placeTables (s : State) : State :=
  ((s.rootAt placeG).rootAt placeOne).modPart 0 fun p =>
    { p with datp := placeDatp, groot := BitVec.ofNat 64 (placeG / 2 ^ 12) }

/-- A launch of partition 0 whose one lease covers the page of the instruction. -/
def placeLaunch : Launch :=
  { Launch.zero with
    env := { Envelope.zero with regs := 128, pword := 0x00410410 }
    datp := placeDatp, leases := [⟨placePc / 65536, 1, .rw⟩], frames := [⟨placePc / 65536, placePc / 65536, 1⟩] }

/-- A group of 16 threads, active, at the instruction. -/
def placeGroup : Group :=
  { Group.fresh with
    st := .active
    threads := (List.range 16).map fun l =>
      (l, { Thread.fresh with index := l, pc := BitVec.ofNat 64 placePc }) }

def placeSide : Side :=
  { launch := 0, team := 0, side := 0, placed := 0, consumed := 0, started := true, returning := false, holes := [], pressed := []
    stopAt := none }

def placeTeam : Team :=
  { launch := 0, index := 0, cores := [0], barriers := [], convs := [], spawncount := 0, doneSides := []
    preempt := none, stopping := false, forced := false, cancel := false, forLaunch := none, exitDemoted := false }

/-- Core 0 holds the team, and its instruction cache the line of the instruction. -/
def placeCore (bs : List Byte) : Core :=
  { Core.reset with
    side := some placeSide, pword := some 0x00410410, owner := some 0, groups := [(0, placeGroup)]
    icache := [⟨placePc / 128, 0, 0, bs ++ List.replicate (128 - bs.length) 0⟩] }

/-- An L9 instruction as the next issue: group 0 of core 0, at placePc. -/
def State.placeInsn (s : State) (bs : List Byte) : State :=
  let s := (s.placeTables.poke placePc bs).setCore 0 (placeCore bs)
  { s with
    launches := s.launches.put 0 placeLaunch
    teams := placeTeam :: s.teams.filter fun t => !(t.launch == 0 && t.index == 0)
    turn := .thread
    cur := Issue.of 0 0 (List.range 16) (BitVec.ofNat 64 placePc) false }

/-- A hart's word as the next turn: hart 0, at placePc. -/
def State.placeHart (s : State) (bs : List Byte) : State :=
  let s := (s.placeTables.poke placePc bs).modHart 0 fun x =>
    { x with pc := BitVec.ofNat 64 placePc, satp := 0, parked := false }
  { s with turn := .hart 0 }

/-- The instruction whose bits are w, of nbits. -/
def State.placeWord (s : State) (nbits w : Nat) : State :=
  let bs := leBytes 8 (w % 2 ^ nbits)
  if isHartWord nbits w then s.placeHart bs else s.placeInsn bs

end Sys2Proof.Machine
end

