-- ==== Sys2Proof/Machine/Step.lean ====
section
/-! DEFINITION. One step of the package: a thread group's issue, a hart's turn, or the next pending event of
the part (log 3). -/

namespace Sys2Proof.Machine

def step (s : State) : Host.Outcome State Fault Refusal :=
  match s.turn with
  | .thread =>
    if 384 ≤ s.cur.core then .fault .noSuchAgent
    else
      match s.fetch with
      | (t, none) => .next t
      | (t, some i) => exec i t
  | .hart h =>
    if 300 ≤ h then .fault .noSuchAgent
    else
      match s.hartFetch h with
      | .past t => .next t
      | .insn i t => exec i t
      | .other => .refused .hartInstruction
  | .idle =>
    match s.agenda with
    | [] => .next (s.advance (s.now + 1))
    | (due, e) :: rest =>
      match e.row with
      | some i => exec i (s.take due e rest)
      | none => .next (s.take due e rest)

/-- The state whose next step fetches and runs the instruction whose bits are w, as the opcode table
numbers them. (Log 5, DESIGN CHOICE.) -/
def State.withFetchWord (s : State) (nbits w : Nat) : State := s.placeWord nbits w

end Sys2Proof.Machine
end

