-- ==== Sys2Proof/Laws/Encode.lean ====
section
/-! SUPPORT. Decoding what the encoder writes: each field of each word comes back (R48 to R56). -/

namespace Sys2Proof

/-! ## Bytes and fields -/

theorem leNat_leBytes_append (n w : Nat) (rest : List Byte) (h : w < 256 ^ n) :
    leNat ((leBytes n w ++ rest).take n) = w := by
  induction n generalizing w with
  | zero => simp [leBytes, leNat] at *; omega
  | succ n ih =>
    have h' : w / 256 < 256 ^ n := by
      rw [Nat.pow_succ] at h; exact Nat.div_lt_of_lt_mul (by omega)
    simp only [leBytes, List.cons_append, List.take_succ_cons, leNat, ih _ h', BitVec.toNat_ofNat]
    omega

@[simp] theorem length_leBytes (n w : Nat) : (leBytes n w).length = n := by
  induction n generalizing w with
  | zero => rfl
  | succ n ih => simp [leBytes, ih]

theorem leNat_leBytes (n w : Nat) (h : w < 256 ^ n) : leNat (leBytes n w) = w := by
  have := leNat_leBytes_append n w [] h
  rwa [List.append_nil, List.take_of_length_le (by simp)] at this

/-- The bytes of a word of two, four or eight bytes decode by its low bits (R48). -/
theorem decode_leBytes {n w : Nat} (rest : List Byte) (h : w < 256 ^ n)
    (hn : n = 2 ∧ w % 2 = 0 ∨ n = 4 ∧ w % 4 = 1 ∨ n = 8 ∧ w % 4 = 3) :
    decode (leBytes n w ++ rest) = .ofExcept n
      (if n = 2 then decode16 w else if n = 4 then decode32 w else decode64 w) := by
  have hl := leNat_leBytes_append n w rest h
  obtain ⟨rfl, hm⟩ | ⟨rfl, hm⟩ | ⟨rfl, hm⟩ := hn
  · simp only [leBytes, List.cons_append] at hl ⊢
    unfold decode
    have hi : insnLength (BitVec.ofNat 8 w) = 2 := by
      unfold insnLength
      rw [BitVec.toNat_ofNat]
      first
        | rw [if_pos (by omega)]
        | rw [if_neg (by omega), if_pos (by omega)]
        | rw [if_neg (by omega), if_neg (by omega)]
    simp only [hi, hl]
    rw [if_neg (by simp)]
    try rfl
  · simp only [leBytes, List.cons_append] at hl ⊢
    unfold decode
    have hi : insnLength (BitVec.ofNat 8 w) = 4 := by
      unfold insnLength
      rw [BitVec.toNat_ofNat]
      first
        | rw [if_pos (by omega)]
        | rw [if_neg (by omega), if_pos (by omega)]
        | rw [if_neg (by omega), if_neg (by omega)]
    simp only [hi, hl]
    rw [if_neg (by simp)]
    try rfl
  · simp only [leBytes, List.cons_append] at hl ⊢
    unfold decode
    have hi : insnLength (BitVec.ofNat 8 w) = 8 := by
      unfold insnLength
      rw [BitVec.toNat_ofNat]
      first
        | rw [if_pos (by omega)]
        | rw [if_neg (by omega), if_pos (by omega)]
        | rw [if_neg (by omega), if_neg (by omega)]
    simp only [hi, hl]
    rw [if_neg (by simp)]
    try rfl

/-! ## Operand codes -/

theorem Opnd.ofCode_code (o : Opnd) (h : (Role.src 1).ok o = true ∨ ∃ n d, o = .v n d) :
    Opnd.ofCode o.code o.dead = some o := by
  cases o with
  | v n d =>
    have : n.toNat < 128 := n.isLt
    simp [Opnd.code, Opnd.dead, Opnd.ofCode, this]
  | c n => clear h; revert n; decide
  | l n => clear h; revert n; decide
  | zero => decide
  | g n => clear h; revert n; decide
  | imm j => clear h; revert j; decide
  | p n b => simp [Role.ok] at h
  | k n => simp [Role.ok] at h
  | bar n => simp [Role.ok] at h
  | imm18 i => simp [Role.ok] at h

/-- Operands that ordinary codes name. -/
def Opnd.plain : Opnd → Bool
  | .v _ _ | .c _ | .l _ | .zero | .g _ | .imm _ => true
  | _ => false

theorem Opnd.ofCode_plain {o : Opnd} (h : o.plain = true) : Opnd.ofCode o.code o.dead = some o := by
  apply Opnd.ofCode_code
  cases o <;> simp_all [Opnd.plain, Role.ok, aligned, Nat.mod_one]

theorem Role.ordinary_ok {r : Role} {o : Opnd} (h : r.ok o = true) (hp : o.plain = true) :
    r.ordinary o.code o.dead = .ok o := by
  simp [Role.ordinary, Opnd.ofCode_plain hp, h]

/-- A source field that fits its role is read back; an own field holds any code. -/
theorem Role.parse_code {r : Role} {o : Opnd} (h : r.ok o = true) (hr : r ≠ .own) :
    r.parse o.code o.dead = .ok o := by
  cases r with
  | none => cases o <;> simp [Role.ok] at h; rfl
  | own => exact absurd rfl hr
  | pred =>
    cases o <;> simp [Role.ok] at h
    rename_i n neg
    revert n neg
    decide
  | conv =>
    cases o <;> simp [Role.ok] at h
    rename_i n
    revert n
    decide
  | bar =>
    cases o <;> simp [Role.ok] at h
    rename_i n
    revert n
    decide
  | nonzero =>
    have hp : o.plain = true := by cases o <;> simp_all [Role.ok, Opnd.plain]
    have hk : o.code ≠ 0x8B := by
      cases o with
      | v n d => have := n.isLt; simp [Opnd.code]; omega
      | l n => have := n.isLt; simp [Opnd.code]; omega
      | g n => simp [Opnd.code]; omega
      | imm n => simp [Opnd.code]; omega
      | c n => simp [Role.ok] at h
      | zero => simp [Role.ok] at h
      | p n b => simp [Role.ok] at h
      | k n => simp [Role.ok] at h
      | bar n => simp [Role.ok] at h
      | imm18 n => simp [Role.ok] at h
    simp only [Role.parse, if_neg hk]
    exact Role.ordinary_ok h hp
  | src n =>
    have hp : o.plain = true := by cases o <;> simp_all [Role.ok, Opnd.plain]
    exact Role.ordinary_ok h hp
  | run n =>
    have hp : o.plain = true := by cases o <;> simp_all [Role.ok, Opnd.plain]
    exact Role.ordinary_ok h hp
  | grun =>
    have hp : o.plain = true := by cases o <;> simp_all [Role.ok, Opnd.plain]
    exact Role.ordinary_ok h hp
  | target =>
    have hp : o.plain = true := by cases o <;> simp_all [Role.ok, Opnd.plain]
    exact Role.ordinary_ok h hp
  | line =>
    have hp : o.plain = true := by cases o <;> simp_all [Role.ok, Opnd.plain]
    exact Role.ordinary_ok h hp

/-- A destination field that fits its role is read back, and carries no dead mark. -/
theorem DstRole.parse_code {r : DstRole} {o : Opnd} (h : r.ok o = true) : r.parse o.code = .ok o := by
  have ord : ∀ (hd : o.dead = false) (_ : o.plain = true),
      (match Opnd.ofCode o.code false with
        | some o => if r.ok o then Except.ok o else Except.error Ill.opnd
        | Option.none => Except.error Ill.opnd) = .ok o := by
    intro hd hp
    have := Opnd.ofCode_plain hp
    rw [hd] at this
    simp [this, h]
  cases r with
  | none => cases o <;> simp [DstRole.ok] at h; rfl
  | pred =>
    cases o <;> simp [DstRole.ok] at h
    rename_i n neg
    subst h
    revert n
    decide
  | val n c g => exact ord (by cases o <;> simp_all [DstRole.ok, Opnd.dead]) (by cases o <;> simp_all [DstRole.ok, Opnd.plain])
  | link => exact ord (by cases o <;> simp_all [DstRole.ok, Opnd.dead]) (by cases o <;> simp_all [DstRole.ok, Opnd.plain])
  | counter => exact ord (by cases o <;> simp_all [DstRole.ok, Opnd.dead]) (by cases o <;> simp_all [DstRole.ok, Opnd.plain])
  | data n => exact ord (by cases o <;> simp_all [DstRole.ok, Opnd.dead]) (by cases o <;> simp_all [DstRole.ok, Opnd.plain])

theorem Opnd.code_lt (o : Opnd) : o.code < 256 := by
  cases o with
  | v n d => have := n.isLt; simp [Opnd.code]; omega
  | c n => have := n.isLt; simp [Opnd.code]; omega
  | l n => have := n.isLt; simp [Opnd.code]; omega
  | zero => decide
  | g n => have := n.isLt; simp [Opnd.code]; omega
  | imm n => have := n.isLt; simp [Opnd.code]; omega
  | p n b => have := n.isLt; cases b <;> simp [Opnd.code] <;> omega
  | k n => have := n.isLt; simp [Opnd.code]; omega
  | bar n => have := n.isLt; simp [Opnd.code]; omega
  | imm18 n => exact Nat.lt_of_lt_of_le (by decide : 0x8B < 256) (Nat.le_refl _)

/-- A co-write that may stand is read back (R65). -/
theorem Shape.parseCw_code {h : Shape} {cw : Option (BitVec 3)} (hc : cw.isNone || h.cwOk) :
    h.parseCw (if cw.isSome then 1 else 0) ((cw.getD 0).toNat) = .ok cw := by
  cases cw with
  | none => rfl
  | some s => simp at hc; simp [Shape.parseCw, hc]

/-! ## The words of W64 -/

/-- The low word of a W64 instruction of form 0 or 1. -/
def headWord (major minor form : Nat) (stall pred : BitVec 3) (neg : Bool) (cw : Option (BitVec 3))
    (dst : Opnd) : Nat :=
  3 + 2 ^ 2 * stall.toNat + 2 ^ 5 * major + 2 ^ 12 * minor + 2 ^ 15 * pred.toNat
    + 2 ^ 18 * neg.toNat + 2 ^ 19 * dst.code
    + 2 ^ 27 * (cw.getD 0).toNat + 2 ^ 30 * (if cw.isSome then 1 else 0) + 2 ^ 31 * form

theorem headWord_lt {major minor form : Nat} (hM : major < 128) (hm : minor < 8) (hf : form < 2)
    (stall pred : BitVec 3) (neg : Bool) (cw : Option (BitVec 3)) (dst : Opnd) :
    headWord major minor form stall pred neg cw dst < 2 ^ 32 := by
  have h1 := stall.isLt
  have h2 := pred.isLt
  have h3 := neg.toNat_lt
  have h4 := dst.code_lt
  have h5 := (cw.getD 0).isLt
  have h6 : (if cw.isSome then 1 else 0) < 2 := by split <;> omega
  unfold headWord
  omega

/-- The header fields come back (R50). -/
theorem Header.ofWord_head {major minor form : Nat} (hM : major < 128) (hm : minor < 8) (hf : form < 2)
    (stall pred : BitVec 3) (neg : Bool) (cw : Option (BitVec 3)) (dst : Opnd) (hi : Nat) :
    Header.ofWord (headWord major minor form stall pred neg cw dst + 2 ^ 32 * hi) =
      ⟨stall.toNat, major, minor, pred.toNat, neg.toNat, dst.code, (cw.getD 0).toNat,
        if cw.isSome then 1 else 0, form⟩ := by
  have h1 := stall.isLt
  have h2 := pred.isLt
  have h3 := neg.toNat_lt
  have h4 := dst.code_lt
  have h5 := (cw.getD 0).isLt
  have h6 : (if cw.isSome then 1 else 0) < 2 := by split <;> omega
  unfold Header.ofWord headWord bits
  generalize stall.toNat = a at *
  generalize pred.toNat = b at *
  generalize neg.toNat = c at *
  generalize dst.code = d at *
  generalize (cw.getD 0).toNat = e at *
  generalize (if cw.isSome then 1 else 0) = g at *
  simp only [Header.mk.injEq]
  refine ⟨?_, ?_, ?_, ?_, ?_, ?_, ?_, ?_, ?_⟩ <;> omega

theorem headWord_mod (major minor form : Nat) (stall pred : BitVec 3) (neg : Bool)
    (cw : Option (BitVec 3)) (dst : Opnd) (hi : Nat) :
    (headWord major minor form stall pred neg cw dst + 2 ^ 32 * hi) % 4 = 3 := by
  unfold headWord; omega

theorem bits_hi {h hi : Nat} (hh : h < 2 ^ 32) (hl : hi < 2 ^ 32) :
    bits (h + 2 ^ 32 * hi) 32 32 = hi := by
  unfold bits; omega

/-- The high word of form 0 (R51). -/
def highWord0 (a b c : Nat) (da db dc : Bool) (mod : Nat) : Nat :=
  a + 2 ^ 8 * b + 2 ^ 16 * c + 2 ^ 24 * da.toNat + 2 ^ 25 * db.toNat + 2 ^ 26 * dc.toNat + 2 ^ 27 * mod

theorem highWord0_bits {a b c mod : Nat} {da db dc : Bool} (ha : a < 256) (hb : b < 256) (hc : c < 256)
    (hm : mod < 32) :
    let w := highWord0 a b c da db dc mod
    w < 2 ^ 32 ∧ bits w 0 8 = a ∧ bits w 8 8 = b ∧ bits w 16 8 = c ∧
      (bits w 24 1 == 1) = da ∧ (bits w 25 1 == 1) = db ∧ (bits w 26 1 == 1) = dc ∧
      bits w 27 5 = mod := by
  have e : ∀ (x : Nat) (d : Bool), x = d.toNat → (x == 1) = d := by
    intro x d h; subst h; cases d <;> rfl
  have h1 := da.toNat_lt
  have h2 := db.toNat_lt
  have h3 := dc.toNat_lt
  simp only []
  unfold highWord0 bits
  refine ⟨?_, ?_, ?_, ?_, e _ _ ?_, e _ _ ?_, e _ _ ?_, ?_⟩ <;> omega

/-- The high word of form 1 (R52). -/
def highWord1 (a : Nat) (da : Bool) (mod imm : Nat) : Nat :=
  a + 2 ^ 8 * da.toNat + 2 ^ 9 * mod + 2 ^ 14 * imm

theorem highWord1_bits {a mod imm : Nat} {da : Bool} (ha : a < 256) (hm : mod < 32) (hi : imm < 2 ^ 18) :
    let w := highWord1 a da mod imm
    w < 2 ^ 32 ∧ bits w 0 8 = a ∧ (bits w 8 1 == 1) = da ∧ bits w 9 5 = mod ∧ bits w 14 18 = imm := by
  have e : ∀ (x : Nat) (d : Bool), x = d.toNat → (x == 1) = d := by
    intro x d h; subst h; cases d <;> rfl
  have h1 := da.toNat_lt
  simp only []
  unfold highWord1 bits
  refine ⟨?_, ?_, e _ _ ?_, ?_, ?_⟩ <;> omega

theorem beq_one_toNat (b : Bool) : (b.toNat == 1) = b := by cases b <;> rfl

/-- The fields an instruction has once its modifier is m: what the decoder asks its shape with. -/
def blankFields (b : Opnd) (m : BitVec 5) : Fields := ⟨0, 7, false, none, .zero, .zero, b, .zero, m⟩

theorem decode64_wide {w : Nat} {mk : Wide → Instr}
    (h1 : skelWide (Header.ofWord w).major (Header.ofWord w).minor = some mk) :
    decode64 w = decodeWide (Header.ofWord w) (bits w 32 32) mk := by
  simp only [decode64, h1]

theorem decode64_form0 {w : Nat} (h1 : skelWide (Header.ofWord w).major (Header.ofWord w).minor = none)
    (h2 : (Header.ofWord w).form = 0) : decode64 w = decodeForm0 (Header.ofWord w) (bits w 32 32) := by
  simp only [decode64, h1, h2, if_true]

theorem decode64_form1 {w : Nat} (h1 : skelWide (Header.ofWord w).major (Header.ofWord w).minor = none)
    (h2 : (Header.ofWord w).form = 1) : decode64 w = decodeForm1 (Header.ofWord w) (bits w 32 32) := by
  simp only [decode64, h1, h2, Nat.one_ne_zero, if_false]

/-- Form 0 comes back (R51): the fields fit, apart from a srcC code that the instruction interprets. -/
theorem decode_form0 {major minor : Nat} {f : Fields} {o : Own} {mk : Fields → Instr} (rest : List Byte)
    (hM : major < 128) (hm : minor < 8) (hw : skelWide major minor = none)
    (hc : o.cc.getD f.c.code < 256) (ho : o.mod < 32)
    (hs : skel major minor o.mod 0 (o.cc.getD f.c.code) = some mk)
    (sh : Shape) (hsh : (mk (blankFields .zero (BitVec.ofNat 5 o.mod))).shape = sh)
    (hf : sh.form = .zero ∨ sh.form = .both) (hmod : sh.modOk = true) (hd : sh.dst.ok f.dst = true)
    (ha : sh.a.ok f.a = true) (hb : sh.b.ok f.b = true)
    (hcc : if sh.c = .own then f.c = .zero else sh.c.ok f.c = true ∧ o.cc = none)
    (hna : sh.a ≠ .own) (hnb : sh.b ≠ .own) (hcw : (f.cw.isNone || sh.cwOk) = true) :
    decode (leBytes 8 (packFields major minor 0 f o) ++ rest) =
      .ok (mk { f with mod := BitVec.ofNat 5 o.mod }) 8 := by
  have e : packFields major minor 0 f o =
      headWord major minor 0 f.stall f.pred f.neg f.cw f.dst +
        2 ^ 32 * highWord0 f.a.code f.b.code (o.cc.getD f.c.code) f.a.dead f.b.dead f.c.dead o.mod := by
    unfold packFields headWord highWord0
    rw [if_pos rfl]
    cases f.cw <;> simp only [Option.getD, Option.isSome, show (0 : BitVec 3).toNat = 0 from rfl,
      Bool.false_eq_true, if_true, if_false] <;> omega
  obtain ⟨g0, g1, g2, g3, g4, g5, g6, g7⟩ :=
    highWord0_bits (da := f.a.dead) (db := f.b.dead) (dc := f.c.dead) f.a.code_lt f.b.code_lt hc ho
  have hl := headWord_lt hM hm (by decide : 0 < 2) f.stall f.pred f.neg f.cw f.dst
  rw [e, decode_leBytes rest (n := 8) (by omega) (by right; right; exact ⟨rfl, headWord_mod ..⟩)]
  rw [if_neg (by decide), if_neg (by decide)]
  have ho := Header.ofWord_head hM hm (by decide : 0 < 2) f.stall f.pred f.neg f.cw f.dst
    (highWord0 f.a.code f.b.code (o.cc.getD f.c.code) f.a.dead f.b.dead f.c.dead o.mod)
  rw [decode64_form0 (by rw [ho]; exact hw) (by rw [ho]), ho, bits_hi hl g0]
  unfold decodeForm0
  simp only [g1, g2, g3, g4, g5, g6, g7, hs]
  change Decoded.ofExcept 8 (if (mk (blankFields .zero (BitVec.ofNat 5 o.mod))).shape.modOk && _ then _ else _) = _
  have hsh' : (mk ⟨0, 7, false, none, .zero, .zero, .zero, .zero, BitVec.ofNat 5 o.mod⟩).shape = sh := hsh
  simp only [hsh', hsh, hmod, Bool.true_and]
  have hal : sh.form.allows 0 = true := by rcases hf with h | h <;> rw [h] <;> rfl
  simp only [hal, if_true]
  have hcp : sh.c.parse (o.cc.getD f.c.code) f.c.dead = .ok f.c := by
    split at hcc
    · rename_i h; rw [h, hcc]; rfl
    · rw [hcc.2]; exact Role.parse_code hcc.1 ‹_›
  rw [Role.parse_code ha hna, Role.parse_code hb hnb, hcp, DstRole.parse_code hd, Shape.parseCw_code hcw]
  simp only [joinFields, isInsn, Decoded.ofExcept, BitVec.ofNat_toNat, BitVec.setWidth_eq, beq_one_toNat]
  rfl

/-- Form 1 comes back (R52): the immediate stands in the place of srcB, or belongs to the instruction. -/
theorem decode_form1 {major minor : Nat} {f : Fields} {o : Own} {mk : Fields → Instr} (rest : List Byte)
    (hM : major < 128) (hm : minor < 8) (hw : skelWide major minor = none)
    (ho : o.mod < 32) (hi : o.imm < 2 ^ 18)
    (hs : skel major minor o.mod o.imm 0x8B = some mk)
    (sh : Shape)
    (hsh : (mk (blankFields (.imm18 (BitVec.ofNat 18 o.imm)) (BitVec.ofNat 5 o.mod))).shape = sh)
    (hf : sh.form = .one ∧ f.b = .zero ∨ sh.form = .both ∧ f.b = .imm18 (BitVec.ofNat 18 o.imm))
    (hmod : sh.modOk = true) (hd : sh.dst.ok f.dst = true)
    (ha : sh.a.ok f.a = true) (hc : f.c = .zero)
    (hna : sh.a ≠ .own) (hcw : (f.cw.isNone || sh.cwOk) = true) :
    decode (leBytes 8 (packFields major minor 1 f o) ++ rest) =
      .ok (mk { f with mod := BitVec.ofNat 5 o.mod }) 8 := by
  have e : packFields major minor 1 f o =
      headWord major minor 1 f.stall f.pred f.neg f.cw f.dst +
        2 ^ 32 * highWord1 f.a.code f.a.dead o.mod o.imm := by
    unfold packFields headWord highWord1
    rw [if_neg (by decide)]
    cases f.cw <;> simp only [Option.getD, Option.isSome, show (0 : BitVec 3).toNat = 0 from rfl,
      Bool.false_eq_true, if_true, if_false] <;> omega
  obtain ⟨g0, g1, g2, g3, g4⟩ := highWord1_bits (da := f.a.dead) f.a.code_lt ho hi
  have hl := headWord_lt hM hm (by decide : 1 < 2) f.stall f.pred f.neg f.cw f.dst
  rw [e, decode_leBytes rest (n := 8) (by omega) (by right; right; exact ⟨rfl, headWord_mod ..⟩)]
  rw [if_neg (by decide), if_neg (by decide)]
  have ho := Header.ofWord_head hM hm (by decide : 1 < 2) f.stall f.pred f.neg f.cw f.dst
    (highWord1 f.a.code f.a.dead o.mod o.imm)
  rw [decode64_form1 (by rw [ho]; exact hw) (by rw [ho]), ho, bits_hi hl g0]
  unfold decodeForm1
  simp only [g1, g2, g3, g4, hs]
  have hsh' : (mk ⟨0, 7, false, none, .zero, .zero, .imm18 (BitVec.ofNat 18 o.imm), .zero,
    BitVec.ofNat 5 o.mod⟩).shape = sh := hsh
  simp only [hsh', hmod, Bool.true_and]
  have hal : sh.form.allows 1 = true := by rcases hf with h | h <;> rw [h.1] <;> rfl
  simp only [hal, if_true]
  have hb : (if sh.form = .both then Opnd.imm18 (BitVec.ofNat 18 o.imm) else .zero) = f.b := by
    rcases hf with h | h
    · rw [h.1, h.2]; rfl
    · rw [h.1, h.2]; rfl
  rw [Role.parse_code ha hna, hb, DstRole.parse_code hd, Shape.parseCw_code hcw]
  simp only [joinFields, isInsn, Decoded.ofExcept, BitVec.ofNat_toNat, BitVec.setWidth_eq, beq_one_toNat, ← hc]
  rfl

/-- A wide immediate comes back (R53). -/
theorem decode_wideWord {major minor : Nat} {w : Wide} {mk : Wide → Instr} (rest : List Byte)
    (hM : major < 128) (hm : minor < 8) (hs : skelWide major minor = some mk)
    (sh : Shape) (hsh : (mk ⟨0, 7, false, none, .zero, 0⟩).shape = sh)
    (hd : sh.dst.ok w.dst = true) (hcw : (w.cw.isNone || sh.cwOk) = true) :
    decode (leBytes 8 (packWide major minor w) ++ rest) = .ok (mk w) 8 := by
  have e : packWide major minor w =
      headWord major minor 1 w.stall w.pred w.neg w.cw w.dst + 2 ^ 32 * w.imm.toNat := by
    unfold packWide headWord
    cases w.cw <;> simp only [Option.getD, Option.isSome, show (0 : BitVec 3).toNat = 0 from rfl,
      Bool.false_eq_true, if_true, if_false] <;> omega
  have hi := w.imm.isLt
  have hl := headWord_lt hM hm (by decide : 1 < 2) w.stall w.pred w.neg w.cw w.dst
  have ho := Header.ofWord_head hM hm (by decide : 1 < 2) w.stall w.pred w.neg w.cw w.dst w.imm.toNat
  rw [e, decode_leBytes rest (n := 8) (by omega) (by right; right; exact ⟨rfl, headWord_mod ..⟩)]
  rw [if_neg (by decide), if_neg (by decide)]
  rw [decode64_wide (mk := mk) (by rw [ho]; exact hs), ho, bits_hi hl hi]
  unfold decodeWide
  simp only [hsh, Shape.parseCw_code hcw, DstRole.parse_code hd, isInsn, BitVec.ofNat_toNat,
    BitVec.setWidth_eq, beq_one_toNat, or_false, ne_eq, not_true, decide_false, Bool.or_false,
    Bool.false_eq_true, if_false, Decoded.ofExcept]

/-! ## The short operand codes (R54, R55) -/

theorem shortDst_dstShort120 {o : Opnd} (h : d7Ok o = true) :
    shortDst 120 (dstShort 120 o) = o ∧ dstShort 120 o < 128 := by
  cases o <;> simp [d7Ok] at h
  · rename_i n d
    obtain ⟨h1, rfl⟩ := h
    exact ⟨by simp only [dstShort, shortDst, if_pos h1, BitVec.ofNat_toNat, BitVec.setWidth_eq],
      by simp only [dstShort]; omega⟩
  · rename_i n; revert n; decide

theorem shortDst_dstShort48 {o : Opnd} (h : d6Ok o = true) :
    shortDst 48 (dstShort 48 o) = o ∧ dstShort 48 o < 56 := by
  cases o <;> simp [d6Ok] at h
  · rename_i n d
    obtain ⟨h1, rfl⟩ := h
    exact ⟨by simp only [dstShort, shortDst, if_pos h1, BitVec.ofNat_toNat, BitVec.setWidth_eq],
      by simp only [dstShort]; omega⟩
  · rename_i n; revert n; decide

theorem shortSrc_srcShort96 {o : Opnd} (h : a7Ok o = true) :
    shortSrc 96 (srcShort 96 o) = o ∧ srcShort 96 o < 128 := by
  cases o with
  | v n d =>
    simp [a7Ok] at h
    obtain ⟨h1, rfl⟩ := h
    exact ⟨by simp only [srcShort, shortSrc, if_pos h1, BitVec.ofNat_toNat, BitVec.setWidth_eq],
      by simp only [srcShort]; omega⟩
  | c n => clear h; revert n; decide
  | l n => clear h; revert n; decide
  | zero => decide
  | imm k => revert k; decide
  | g n => simp [a7Ok] at h
  | p n b => simp [a7Ok] at h
  | k n => simp [a7Ok] at h
  | bar n => simp [a7Ok] at h
  | imm18 n => simp [a7Ok] at h

theorem shortSrc_srcShort32 {o : Opnd} (h : b6Ok o = true) :
    shortSrc 32 (srcShort 32 o) = o ∧ srcShort 32 o < 64 := by
  cases o with
  | v n d =>
    simp [b6Ok] at h
    obtain ⟨h1, rfl⟩ := h
    exact ⟨by simp only [srcShort, shortSrc, if_pos h1, BitVec.ofNat_toNat, BitVec.setWidth_eq],
      by simp only [srcShort]; omega⟩
  | c n => clear h; revert n; decide
  | l n => clear h; revert n; decide
  | zero => decide
  | imm k => revert k; decide
  | g n => simp [b6Ok] at h
  | p n b => simp [b6Ok] at h
  | k n => simp [b6Ok] at h
  | bar n => simp [b6Ok] at h
  | imm18 n => simp [b6Ok] at h

theorem src5_code5 {o : Opnd} (h : s5Ok o = true) : src5 (code5 o) = o ∧ code5 o < 32 := by
  cases o with
  | v n d =>
    simp [s5Ok] at h
    obtain ⟨h1, rfl⟩ := h
    refine ⟨?_, by simp only [code5, srcShort]; omega⟩
    change (if n.toNat < 28 then (if n.toNat < 16 then Opnd.v (BitVec.ofNat 7 n.toNat) false else _)
      else _) = _
    rw [if_pos (by omega), if_pos h1, BitVec.ofNat_toNat, BitVec.setWidth_eq]
  | c n => clear h; revert n; decide
  | l n => clear h; revert n; decide
  | zero => decide
  | imm k => revert k; decide
  | g n => simp [s5Ok] at h
  | p n b => simp [s5Ok] at h
  | k n => simp [s5Ok] at h
  | bar n => simp [s5Ok] at h
  | imm18 n => simp [s5Ok] at h

/-- A W32 word with short operands comes back (R54, R77). -/
theorem decode_short {major : Nat} {x : Short} {mk : Short → Instr} (rest : List Byte)
    (hM : major < 128) (h1 : major ≠ 0x01) (h2 : major ≠ 0x0F) (hs : skelShort major = some mk)
    (hmov : major = 0x23 → x.b = .zero)
    (h : (mk x).shape.fitsShort x = true) :
    decode ((Layout.w32 major x).bytes ++ rest) = .ok (mk x) 4 := by
  simp only [Shape.fitsShort, Bool.and_eq_true] at h
  obtain ⟨⟨⟨hd, ha⟩, hb⟩, hf⟩ := h
  obtain ⟨d1, d2⟩ := shortDst_dstShort120 hd
  obtain ⟨a1, a2⟩ := shortSrc_srcShort96 ha
  obtain ⟨b1, b2⟩ := shortSrc_srcShort32 hb
  have ht := x.stall.isLt
  have hz : major = 0x23 → srcShort 32 x.b = 43 := by intro h; rw [hmov h]; rfl
  simp only [Layout.bytes]
  rw [decode_leBytes rest (n := 4) (by omega) (by right; left; exact ⟨rfl, by omega⟩)]
  rw [if_neg (by decide), if_pos rfl]
  unfold decode32
  have e1 : bits (1 + 2 ^ 2 * x.stall.toNat + 2 ^ 5 * major + 2 ^ 12 * dstShort 120 x.dst
      + 2 ^ 19 * srcShort 96 x.a + 2 ^ 26 * srcShort 32 x.b) 5 7 = major := by unfold bits; omega
  have e2 : bits (1 + 2 ^ 2 * x.stall.toNat + 2 ^ 5 * major + 2 ^ 12 * dstShort 120 x.dst
      + 2 ^ 19 * srcShort 96 x.a + 2 ^ 26 * srcShort 32 x.b) 2 3 = x.stall.toNat := by unfold bits; omega
  have e3 : bits (1 + 2 ^ 2 * x.stall.toNat + 2 ^ 5 * major + 2 ^ 12 * dstShort 120 x.dst
      + 2 ^ 19 * srcShort 96 x.a + 2 ^ 26 * srcShort 32 x.b) 12 7 = dstShort 120 x.dst := by
    unfold bits; omega
  have e4 : bits (1 + 2 ^ 2 * x.stall.toNat + 2 ^ 5 * major + 2 ^ 12 * dstShort 120 x.dst
      + 2 ^ 19 * srcShort 96 x.a + 2 ^ 26 * srcShort 32 x.b) 19 7 = srcShort 96 x.a := by
    unfold bits; omega
  have e5 : bits (1 + 2 ^ 2 * x.stall.toNat + 2 ^ 5 * major + 2 ^ 12 * dstShort 120 x.dst
      + 2 ^ 19 * srcShort 96 x.a + 2 ^ 26 * srcShort 32 x.b) 26 6 = srcShort 32 x.b := by
    unfold bits; omega
  simp only [e1, e2, e3, e4, e5, h1, h2, hs, d1, a1, b1, if_false, BitVec.ofNat_toNat, BitVec.setWidth_eq]
  have h3 : (decide (major = 0x23) && decide (srcShort 32 x.b ≠ 43)) = false := by
    by_cases h : major = 0x23
    · simp [hz h]
    · simp [h]
  rw [if_neg (by rw [h3]; decide)]
  simp only [checkShort, hf, if_true, Decoded.ofExcept]

/-- A W16 word comes back (R55, R78). -/
theorem decode_short16 {op : Nat} {x : Short16} {i : Instr} {f : Fields} (rest : List Byte)
    (hop : op < 16)
    (hi : (match skelCompact op with
      | some mk => checkShort (mk x) x.fields
      | none => checkShort (.movW16 x) x.movFields) = checkShort i f)
    (hd : d6Ok x.d = true) (hs : s5Ok x.s = true) (hf : i.shape.fits f = true) :
    decode ((Layout.w16 op x).bytes ++ rest) = .ok i 2 := by
  obtain ⟨d1, d2⟩ := shortDst_dstShort48 hd
  obtain ⟨s1, s2⟩ := src5_code5 hs
  simp only [Layout.bytes]
  rw [decode_leBytes rest (n := 2) (by omega) (by left; exact ⟨rfl, by omega⟩)]
  rw [if_pos rfl]
  unfold decode16
  have e1 : bits (2 * op + 2 ^ 5 * dstShort 48 x.d + 2 ^ 11 * code5 x.s) 5 6 = dstShort 48 x.d := by
    unfold bits; omega
  have e2 : bits (2 * op + 2 ^ 5 * dstShort 48 x.d + 2 ^ 11 * code5 x.s) 11 5 = code5 x.s := by
    unfold bits; omega
  have e3 : bits (2 * op + 2 ^ 5 * dstShort 48 x.d + 2 ^ 11 * code5 x.s) 1 4 = op := by
    unfold bits; omega
  simp only [e1, e2, e3, d1, s1]
  rw [if_neg (by omega)]
  refine (congrArg (Decoded.ofExcept 2) hi).trans ?_
  simp only [checkShort, hf, if_true, Decoded.ofExcept]

/-- The W32 BRA comes back (R203). -/
theorem decode_braW32 (stall : BitVec 3) (off : BitVec 20) (rest : List Byte) :
    decode (leBytes 4 (1 + 2 ^ 2 * stall.toNat + 2 ^ 5 * 0x01 + 2 ^ 12 * off.toNat) ++ rest) =
      .ok (.braW32 stall off) 4 := by
  have h1 := stall.isLt
  have h2 := off.isLt
  rw [decode_leBytes rest (n := 4) (by omega) (by right; left; exact ⟨rfl, by omega⟩)]
  rw [if_neg (by decide), if_pos rfl]
  unfold decode32
  have e1 : bits (1 + 2 ^ 2 * stall.toNat + 2 ^ 5 * 0x01 + 2 ^ 12 * off.toNat) 5 7 = 1 := by
    unfold bits; omega
  have e2 : bits (1 + 2 ^ 2 * stall.toNat + 2 ^ 5 * 0x01 + 2 ^ 12 * off.toNat) 2 3 = stall.toNat := by
    unfold bits; omega
  have e3 : bits (1 + 2 ^ 2 * stall.toNat + 2 ^ 5 * 0x01 + 2 ^ 12 * off.toNat) 12 20 = off.toNat := by
    unfold bits; omega
  simp only [e1, e2, e3, if_true, BitVec.ofNat_toNat, BitVec.setWidth_eq, Decoded.ofExcept]

/-- The W32 BRDEC comes back (R204). -/
theorem decode_brdecW32 (stall : BitVec 3) (ctr : Opnd) (off : BitVec 13) (rest : List Byte)
    (h : d7Ok ctr = true) :
    decode (leBytes 4 (1 + 2 ^ 2 * stall.toNat + 2 ^ 5 * 0x0F + 2 ^ 12 * dstShort 120 ctr
      + 2 ^ 19 * off.toNat) ++ rest) = .ok (.brdecW32 stall ctr off) 4 := by
  obtain ⟨d1, d2⟩ := shortDst_dstShort120 h
  have h1 := stall.isLt
  have h2 := off.isLt
  rw [decode_leBytes rest (n := 4) (by omega) (by right; left; exact ⟨rfl, by omega⟩)]
  rw [if_neg (by decide), if_pos rfl]
  unfold decode32
  have e1 : bits (1 + 2 ^ 2 * stall.toNat + 2 ^ 5 * 0x0F + 2 ^ 12 * dstShort 120 ctr
      + 2 ^ 19 * off.toNat) 5 7 = 15 := by unfold bits; omega
  have e2 : bits (1 + 2 ^ 2 * stall.toNat + 2 ^ 5 * 0x0F + 2 ^ 12 * dstShort 120 ctr
      + 2 ^ 19 * off.toNat) 2 3 = stall.toNat := by unfold bits; omega
  have e3 : bits (1 + 2 ^ 2 * stall.toNat + 2 ^ 5 * 0x0F + 2 ^ 12 * dstShort 120 ctr
      + 2 ^ 19 * off.toNat) 12 7 = dstShort 120 ctr := by unfold bits; omega
  have e4 : bits (1 + 2 ^ 2 * stall.toNat + 2 ^ 5 * 0x0F + 2 ^ 12 * dstShort 120 ctr
      + 2 ^ 19 * off.toNat) 19 13 = off.toNat := by unfold bits; omega
  simp only [e1, e2, e3, e4, d1, BitVec.ofNat_toNat, BitVec.setWidth_eq]
  rw [if_neg (by decide), if_pos trivial]
  rfl

/-- A hart's word comes back (R122). -/
theorem decodeHart_packHart (scope : BitVec 3) (wait : Bool) (rs2 rs1 rd : BitVec 5) :
    decodeHart (packHart 0 scope wait rs2 rs1 rd) = some (.lnlEnq scope wait rs2 rs1 rd) ∧
      decodeHart (packHart 1 scope wait rs2 rs1 rd) = some (.lnlDeq scope wait rs2 rs1 rd) := by
  have h1 := scope.isLt
  have h2 := wait.toNat_lt
  have h3 := rs2.isLt
  have h4 := rs1.isLt
  have h5 := rd.isLt
  have key : ∀ k : Nat, k < 8 → let w := packHart k scope wait rs2 rs1 rd
      bits w 0 7 = 0x0B ∧ bits w 25 3 = 0 ∧ bits w 29 3 = scope.toNat ∧ bits w 28 1 = wait.toNat ∧
      bits w 20 5 = rs2.toNat ∧ bits w 15 5 = rs1.toNat ∧ bits w 7 5 = rd.toNat ∧ bits w 12 3 = k := by
    intro k hk
    simp only []
    unfold packHart bits
    refine ⟨?_, ?_, ?_, ?_, ?_, ?_, ?_, ?_⟩ <;> omega
  constructor
  · obtain ⟨k1, k2, k3, k4, k5, k6, k7, k8⟩ := key 0 (by decide)
    simp only [decodeHart, k1, k2, k3, k4, k5, k6, k7, k8, BitVec.ofNat_toNat, BitVec.setWidth_eq,
      beq_one_toNat]
    rfl
  · obtain ⟨k1, k2, k3, k4, k5, k6, k7, k8⟩ := key 1 (by decide)
    simp only [decodeHart, k1, k2, k3, k4, k5, k6, k7, k8, BitVec.ofNat_toNat, BitVec.setWidth_eq,
      beq_one_toNat]
    rfl

/-! ## The round trip by layout -/

/-- A shape whose fields all hold operands, with form 0 or both forms. -/
def Shape.isStd (h : Shape) : Bool :=
  h.a != .own && h.b != .own && h.c != .own && (h.form == .zero || h.form == .both)

/-- A shape of form 1 alone. -/
def Shape.isOwn1 (h : Shape) : Bool :=
  h.a != .own && h.b == .none && h.c == .none && h.form == .one

/-- A shape whose srcC field is its own. -/
def Shape.isOwn0 (h : Shape) : Bool :=
  h.a != .own && h.b != .own && h.c == .own && h.form == .zero

@[simp] theorem blankFields_form1 (f : Fields) :
    (blankFields (if f.form1 then .imm18 0 else .zero) f.mod).form1 = f.form1 := by
  cases h : f.form1 <;> rfl

@[simp] theorem blankFields_mod (b : Opnd) (m : BitVec 5) : (blankFields b m).mod = m := rfl

/-- A standard W64 instruction comes back. -/
theorem decode_std {major minor : Nat} (mk : Fields → Instr) (hM : major < 128) (hm : minor < 8)
    (hw : skelWide major minor = none)
    (hs : ∀ mod imm cc, skel major minor mod imm cc = some mk)
    (hshape : ∀ f, (mk f).shape = (mk (blankFields (if f.form1 then .imm18 0 else .zero) f.mod)).shape)
    (hr : ∀ f, (mk f).shape.isStd = true)
    (f : Fields) (rest : List Byte) (h : (mk f).shape.fits f = true) :
    decode ((Layout.std major minor f).bytes ++ rest) = .ok (mk f) (Layout.std major minor f).bytes.length := by
  have hsh : ∀ b m, (mk (blankFields b m)).shape =
      (mk (blankFields (if (blankFields b m).form1 then .imm18 0 else .zero) m)).shape :=
    fun b m => hshape (blankFields b m)
  have hr := hr f
  simp only [Shape.isStd, Bool.and_eq_true, Bool.or_eq_true, bne_iff_ne, beq_iff_eq] at hr
  obtain ⟨⟨⟨ra, rb⟩, rc⟩, rf⟩ := hr
  simp only [Shape.fits, Bool.and_eq_true] at h
  obtain ⟨⟨⟨⟨⟨h1, h2⟩, h3⟩, h4⟩, h5⟩, h6⟩ := h
  have hm5 : BitVec.ofNat 5 f.mod.toNat = f.mod := by simp
  cases hb : f.b
  case imm18 i =>
    have hf1 : f.form1 = true := by simp [Fields.form1, hb]
    have e : (Layout.std major minor f).bytes =
        leBytes 8 (packFields major minor 1 f ⟨f.mod.toNat, i.toNat, none⟩) := by
      simp only [Layout.std, hb, Layout.bytes]
    have hs' := hshape f
    rw [hf1, if_pos rfl] at hs'
    have hi18 : BitVec.ofNat 18 i.toNat = i := by simp
    rw [e, decode_form1 (mk := mk) rest hM hm hw f.mod.isLt i.isLt (hs _ _ _) (mk f).shape ?_ ?_ h1 h2 h3 ?_ ra h6,
      length_leBytes]
    · simp only [hm5]
    · rw [hsh, hm5, hs']
      simp [blankFields, Fields.form1]
    · right
      rw [hb] at h4
      simp only [Shape.bOk, beq_iff_eq] at h4
      simp only [hi18]
      exact ⟨h4, hb⟩
    · simpa [Shape.cOk, hf1] using h5
  all_goals
    have hf1 : f.form1 = false := by simp [Fields.form1, hb]
    have e : (Layout.std major minor f).bytes =
        leBytes 8 (packFields major minor 0 f ⟨f.mod.toNat, 0, none⟩) := by
      simp only [Layout.std, hb, Layout.bytes]
    have hs' := hshape f
    rw [hf1, if_neg (by decide)] at hs'
    rw [e, decode_form0 (f := f) (o := ⟨f.mod.toNat, 0, none⟩) (mk := mk) rest hM hm hw f.c.code_lt f.mod.isLt (hs _ _ _) (mk f).shape
      (by rw [hm5, hs']) rf h1 h2 h3 (by simpa [Shape.bOk, hb] using h4)
      (by rw [if_neg rc]; exact ⟨by simpa [Shape.cOk, hf1] using h5, rfl⟩) ra rb h6, length_leBytes]
    simp only [hm5]

/-- An instruction of form 1 alone comes back: the immediate is its own. -/
theorem decode_own1 {major imm : Nat} (mk : Fields → Instr) (hM : major < 128)
    (hw : skelWide major 0 = none) (hi : imm < 2 ^ 18)
    (hs : ∀ mod, skel major 0 mod imm 0x8B = some mk)
    (hshape : ∀ f, (mk f).shape = (mk (blankFields (.imm18 (BitVec.ofNat 18 imm)) f.mod)).shape)
    (hr : ∀ f, (mk f).shape.isOwn1 = true)
    (f : Fields) (rest : List Byte) (h : (mk f).shape.fits f = true) :
    decode ((Layout.own1 major imm f).bytes ++ rest) = .ok (mk f) (Layout.own1 major imm f).bytes.length := by
  have hr := hr f
  simp only [Shape.isOwn1, Bool.and_eq_true, bne_iff_ne, beq_iff_eq] at hr
  obtain ⟨⟨⟨ra, rb⟩, rc⟩, rf⟩ := hr
  simp only [Shape.fits, Bool.and_eq_true] at h
  obtain ⟨⟨⟨⟨⟨h1, h2⟩, h3⟩, h4⟩, h5⟩, h6⟩ := h
  have hm5 : BitVec.ofNat 5 f.mod.toNat = f.mod := by simp
  have hb : f.b = .zero := by
    cases hb : f.b <;> simp [Shape.bOk, hb, rb, rf, Role.ok] at h4 ⊢
  have hf1 : f.form1 = false := by simp [Fields.form1, hb]
  have hc : f.c = .zero := by
    rw [Shape.cOk, hf1, if_neg (by decide), rc] at h5
    cases hc : f.c <;> simp [hc, Role.ok] at h5 ⊢
  simp only [Layout.own1, Layout.bytes]
  rw [decode_form1 (mk := mk) rest hM (by decide) hw f.mod.isLt hi (hs _) (mk f).shape
    (by rw [hm5, hshape f]) (.inl ⟨rf, hb⟩) h1 h2 h3 hc ra h6, length_leBytes]
  simp only [hm5]

/-- An instruction of form 0 whose srcC code is its own comes back. -/
theorem decode_own0 {major minor cc : Nat} (mk : Fields → Instr) (hM : major < 128) (hm : minor < 8)
    (hw : skelWide major minor = none) (hi : cc < 256)
    (hs : ∀ mod, skel major minor mod 0 cc = some mk)
    (hshape : ∀ f, (mk f).shape = (mk (blankFields .zero f.mod)).shape)
    (hr : ∀ f, (mk f).shape.isOwn0 = true)
    (f : Fields) (rest : List Byte) (h : (mk f).shape.fits f = true) :
    decode ((Layout.own0 major minor cc f).bytes ++ rest) =
      .ok (mk f) (Layout.own0 major minor cc f).bytes.length := by
  have hr := hr f
  simp only [Shape.isOwn0, Bool.and_eq_true, bne_iff_ne, beq_iff_eq] at hr
  obtain ⟨⟨⟨ra, rb⟩, rc⟩, rf⟩ := hr
  simp only [Shape.fits, Bool.and_eq_true] at h
  obtain ⟨⟨⟨⟨⟨h1, h2⟩, h3⟩, h4⟩, h5⟩, h6⟩ := h
  have hm5 : BitVec.ofNat 5 f.mod.toNat = f.mod := by simp
  have hf1 : f.form1 = false := by
    cases hb : f.b <;> simp [Shape.bOk, Fields.form1, hb, rf] at h4 ⊢
  have hb4 : (mk f).shape.b.ok f.b = true := by
    cases hb : f.b <;> simp [Shape.bOk, hb, rf] at h4 ⊢ <;> exact h4
  have hc : f.c = .zero := by
    rw [Shape.cOk, hf1, if_neg (by decide), rc] at h5
    cases hc : f.c <;> simp [hc, Role.ok] at h5 ⊢
  simp only [Layout.own0, Layout.bytes]
  rw [decode_form0 (f := f) (o := ⟨f.mod.toNat, 0, some cc⟩) (mk := mk) rest hM hm hw (by simpa using hi) f.mod.isLt (hs _) (mk f).shape
    (by rw [hm5, hshape f]) (.inl rf) h1 h2 h3 hb4
    (by rw [if_pos rc]; exact hc) ra rb h6, length_leBytes]
  simp only [hm5]

/-- An instruction with a truth table comes back (R71). -/
theorem decode_truth {major : Nat} (mk : BitVec 8 → Fields → Instr) (hM : major < 128)
    (hw : ∀ m, skelWide major m = none)
    (hs : ∀ minor mod imm cc, minor < 8 → skel major minor mod imm cc = skelTruth minor mod mk)
    (hshape : ∀ t f, (mk t f).shape = (mk t (blankFields .zero f.mod)).shape)
    (hr : ∀ t f, (mk t f).shape.a ≠ .own ∧ (mk t f).shape.b ≠ .own ∧ (mk t f).shape.c ≠ .own ∧
      (mk t f).shape.form = .zero ∧ ((mk t f).shape.modOk = true → f.mod = 0))
    (t : BitVec 8) (f : Fields) (rest : List Byte) (h : (mk t f).shape.fits f = true) :
    decode ((Layout.truth major t f).bytes ++ rest) = .ok (mk t f) (Layout.truth major t f).bytes.length := by
  obtain ⟨ra, rb, rc, rf, rm⟩ := hr t f
  simp only [Shape.fits, Bool.and_eq_true] at h
  obtain ⟨⟨⟨⟨⟨h1, h2⟩, h3⟩, h4⟩, h5⟩, h6⟩ := h
  have hz := rm h1
  have ht := t.isLt
  have hf1 : f.form1 = false := by
    cases hb : f.b <;> simp [Shape.bOk, Fields.form1, hb, rf] at h4 ⊢
  have hb4 : (mk t f).shape.b.ok f.b = true := by
    cases hb : f.b <;> simp [Shape.bOk, hb, rf] at h4 ⊢ <;> exact h4
  have hc4 : (mk t f).shape.c.ok f.c = true := by simpa [Shape.cOk, hf1] using h5
  have htt : BitVec.ofNat 8 (8 * (t.toNat / 8) + t.toNat % 8) = t := by
    rw [Nat.div_add_mod]; simp
  simp only [Layout.truth, Layout.bytes]
  rw [decode_form0 (f := f) (o := ⟨t.toNat / 8, 0, none⟩) (mk := fun f => mk t { f with mod := 0 }) rest hM (Nat.mod_lt _ (by decide)) (hw _)
    f.c.code_lt (by simp only []; omega) (by rw [hs _ _ _ _ (Nat.mod_lt _ (by decide))]; simp only [skelTruth, htt])
    (mk t f).shape (by rw [hshape t f, hz]; rfl) (.inl rf) h1 h2 h3 hb4
    (by rw [if_neg rc]; exact ⟨hc4, rfl⟩) ra rb h6, length_leBytes]
  rw [← hz]

/-- A wide instruction comes back. -/
theorem decode_wide {major minor : Nat} (mk : Wide → Instr) (hM : major < 128) (hm : minor < 8)
    (hs : skelWide major minor = some mk)
    (hshape : ∀ w, (mk w).shape = (mk ⟨0, 7, false, none, .zero, 0⟩).shape)
    (w : Wide) (rest : List Byte) (h : (mk w).shape.fitsWide w = true) :
    decode ((Layout.wide major minor w).bytes ++ rest) = .ok (mk w) (Layout.wide major minor w).bytes.length := by
  simp only [Shape.fitsWide, Bool.and_eq_true] at h
  simp only [Layout.bytes]
  rw [decode_wideWord rest hM hm hs (mk w).shape (hshape w).symm h.1 h.2, length_leBytes]

end Sys2Proof
end

