-- ==== Sys2Proof/Laws/PerInstr.lean ====
section
/-! SUPPORT. The families of statements that are made for each instruction: the round trip of the encoding. -/

namespace Sys2Proof

theorem card_std (f : Fields) : (Shape.card f).isStd = true := by
  unfold Shape.card Shape.var Shape.isStd; split <;> rfl
theorem enq_std (m : BitVec 5) :
    (Shape.var 1 (.run 2) (if m.getLsbD 4 then .line else .run 2) .none true).isStd = true := by
  unfold Shape.var Shape.isStd; split <;> rfl
theorem xappk_std (m : BitVec 5) :
    (Shape.var 1 (.run 2) (if m.getLsbD 4 then .src 1 else .run 2) .none
      (!m.getLsbD 2 && !m.getLsbD 3)).isStd = true := by
  unfold Shape.var Shape.isStd; split <;> rfl
theorem spawn_std (m : BitVec 5) :
    (Shape.var 1 (.src 1) (if m = 0 then .none else .run m.toNat) .none
      (m == 0 || m == 1 || m == 2 || m == 4)).isStd = true := by
  unfold Shape.var Shape.isStd; split <;> rfl
theorem cdecl_std (m : BitVec 5) :
    (Shape.mk .none .conv (if m.toNat % 4 = 0 then .src 2 else .none) .none (m.toNat < 3) .none
      .zero).isStd = true := by
  unfold Shape.isStd; split <;> rfl
theorem mov_std (m : BitVec 5) :
    (if m = 1 then (⟨.val 2 false true, .src 2, .none, .none, true, .f1, .zero⟩ : Shape)
      else .int true .none .none (m == 0) .f1 .zero).isStd = true := by
  split <;> rfl
theorem icinv_std (m : BitVec 5) :
    (Shape.mk .none (if m.getLsbD 3 then .none else .nonzero) .none .none (m.toNat < 16) .none
      .zero).isStd = true := by
  unfold Shape.isStd; split <;> rfl

theorem EFmt.ofCode_code (e : EFmt) : EFmt.ofCode e.code = some e ∧ e.code < 32 := by
  cases e <;> exact ⟨rfl, by decide⟩
theorem IFmt.ofCode_code (e : IFmt) : IFmt.ofCode e.code = some e ∧ e.code < 16 := by
  cases e <;> exact ⟨rfl, by decide⟩

theorem skelF2i_code (into : IFmt) (frm : EFmt) (hi : Bool) :
    skelF2i (into.code + 2 ^ 4 * frm.code + 2 ^ 9 * hi.toNat) = some (.f2i into frm hi) ∧
      into.code + 2 ^ 4 * frm.code + 2 ^ 9 * hi.toNat < 2 ^ 18 := by
  obtain ⟨a1, a2⟩ := into.ofCode_code
  obtain ⟨b1, b2⟩ := frm.ofCode_code
  have hb := hi.toNat_lt
  refine ⟨?_, by omega⟩
  have e1 : bits (into.code + 2 ^ 4 * frm.code + 2 ^ 9 * hi.toNat) 0 4 = into.code := by unfold bits; omega
  have e2 : bits (into.code + 2 ^ 4 * frm.code + 2 ^ 9 * hi.toNat) 4 5 = frm.code := by unfold bits; omega
  have e3 : bits (into.code + 2 ^ 4 * frm.code + 2 ^ 9 * hi.toNat) 9 1 = hi.toNat := by unfold bits; omega
  unfold skelF2i
  rw [if_pos (by omega), e1, e2, e3, a1, b1, beq_one_toNat]
  rfl

theorem skelI2f_code (into : EFmt) (frm : IFmt) (hi : Bool) :
    skelI2f (into.code + 2 ^ 5 * frm.code + 2 ^ 9 * hi.toNat) = some (.i2f into frm hi) ∧
      into.code + 2 ^ 5 * frm.code + 2 ^ 9 * hi.toNat < 2 ^ 18 := by
  obtain ⟨a1, a2⟩ := into.ofCode_code
  obtain ⟨b1, b2⟩ := frm.ofCode_code
  have hb := hi.toNat_lt
  refine ⟨?_, by omega⟩
  have e1 : bits (into.code + 2 ^ 5 * frm.code + 2 ^ 9 * hi.toNat) 0 5 = into.code := by unfold bits; omega
  have e2 : bits (into.code + 2 ^ 5 * frm.code + 2 ^ 9 * hi.toNat) 5 4 = frm.code := by unfold bits; omega
  have e3 : bits (into.code + 2 ^ 5 * frm.code + 2 ^ 9 * hi.toNat) 9 1 = hi.toNat := by unfold bits; omega
  unfold skelI2f
  rw [if_pos (by omega), e1, e2, e3, a1, b1, beq_one_toNat]
  rfl

theorem skelFcvt_code (into frm : EFmt) (dn sn : BitVec 3) (sr satf : Bool) :
    skelFcvt (into.code + 2 ^ 5 * frm.code + 2 ^ 10 * dn.toNat + 2 ^ 13 * sn.toNat
        + 2 ^ 16 * sr.toNat + 2 ^ 17 * satf.toNat) = some (.fcvt into frm dn sn sr satf) ∧
      into.code + 2 ^ 5 * frm.code + 2 ^ 10 * dn.toNat + 2 ^ 13 * sn.toNat
        + 2 ^ 16 * sr.toNat + 2 ^ 17 * satf.toNat < 2 ^ 18 := by
  obtain ⟨a1, a2⟩ := into.ofCode_code
  obtain ⟨b1, b2⟩ := frm.ofCode_code
  have h1 := dn.isLt
  have h2 := sn.isLt
  have h3 := sr.toNat_lt
  have h4 := satf.toNat_lt
  generalize hw : into.code + 2 ^ 5 * frm.code + 2 ^ 10 * dn.toNat + 2 ^ 13 * sn.toNat
    + 2 ^ 16 * sr.toNat + 2 ^ 17 * satf.toNat = w
  refine ⟨?_, by omega⟩
  have e1 : bits w 0 5 = into.code := by unfold bits; omega
  have e2 : bits w 5 5 = frm.code := by unfold bits; omega
  have e3 : bits w 10 3 = dn.toNat := by unfold bits; omega
  have e4 : bits w 13 3 = sn.toNat := by unfold bits; omega
  have e5 : bits w 16 1 = sr.toNat := by unfold bits; omega
  have e6 : bits w 17 1 = satf.toNat := by unfold bits; omega
  unfold skelFcvt
  rw [e1, e2, e3, e4, e5, e6, a1, b1, beq_one_toNat, beq_one_toNat]
  change some (Instr.fcvt into frm (BitVec.ofNat 3 dn.toNat) (BitVec.ofNat 3 sn.toNat) sr satf) = _
  rw [BitVec.ofNat_toNat, BitVec.setWidth_eq, BitVec.ofNat_toNat, BitVec.setWidth_eq]

namespace Laws.RoundTrip

/-- What the encoder writes decodes to the instruction, whatever bytes follow it. -/
def Statement (i : Instr) : Prop :=
  i.wf = true → ∀ rest : List Byte,
    (i.ofHart = true → decodeHart (leNat (encode i)) = some i) ∧
    (i.coded = true → decode (encode i ++ rest) = .ok i (encode i).length)

theorem of_decode {i : Instr} (h : i.ofHart = false)
    (hd : i.wf = true → ∀ rest, decode (encode i ++ rest) = .ok i (encode i).length) : Statement i :=
  fun hw rest => ⟨(by rw [h]; intro h; cases h), fun _ => hd hw rest⟩

theorem of_event {i : Instr} (h : i.ofHart = false) (hl : i.layout = .nothing) : Statement i :=
  fun _ _ => ⟨(by rw [h]; intro h; cases h), by simp [Instr.coded, hl]⟩

theorem nop (f : Fields) : Statement (.nop f) :=
  of_decode rfl fun h rest => decode_std .nop (by decide) (by decide) rfl (fun _ _ _ => rfl)
    (fun _ => rfl) (fun _ => rfl) f rest h
theorem braW32 (stall : BitVec 3) (off : BitVec 20) : Statement (.braW32 stall off) :=
  of_decode rfl fun _ rest => decode_braW32 stall off rest
theorem bra (w : Wide) : Statement (.bra w) :=
  of_decode rfl fun h rest => decode_wide .bra (by decide) (by decide) rfl (fun _ => rfl) w rest h
theorem brx (f : Fields) : Statement (.brx f) :=
  of_decode rfl fun h rest => decode_std .brx (by decide) (by decide) rfl (fun _ _ _ => rfl)
    (fun _ => rfl) (fun _ => rfl) f rest h
theorem call (w : Wide) : Statement (.call w) :=
  of_decode rfl fun h rest => decode_wide .call (by decide) (by decide) rfl (fun _ => rfl) w rest h
theorem callx (f : Fields) : Statement (.callx f) :=
  of_decode rfl fun h rest => decode_std .callx (by decide) (by decide) rfl (fun _ _ _ => rfl)
    (fun _ => rfl) (fun _ => rfl) f rest h
theorem ret (f : Fields) : Statement (.ret f) :=
  of_decode rfl fun h rest => decode_std .ret (by decide) (by decide) rfl (fun _ _ _ => rfl)
    (fun _ => rfl) (fun _ => rfl) f rest h
theorem exit (f : Fields) : Statement (.exit f) :=
  of_decode rfl fun h rest => decode_std .exit (by decide) (by decide) rfl (fun _ _ _ => rfl)
    (fun _ => rfl) (fun _ => rfl) f rest h
theorem yield (f : Fields) : Statement (.yield f) :=
  of_decode rfl fun h rest => decode_std .yield (by decide) (by decide) rfl (fun _ _ _ => rfl)
    (fun _ => rfl) (fun _ => rfl) f rest h
theorem trap (code : BitVec 18) (f : Fields) : Statement (.trap code f) :=
  of_decode rfl fun h rest => decode_own1 (.trap code) (by decide) rfl code.isLt
    (fun _ => by
      change some (Instr.trap (BitVec.ofNat 18 _)) = _
      rw [BitVec.ofNat_toNat, BitVec.setWidth_eq]) (fun _ => rfl) (fun _ => rfl) f rest h
theorem tret (f : Fields) : Statement (.tret f) :=
  of_decode rfl fun h rest => decode_std .tret (by decide) (by decide) rfl (fun _ _ _ => rfl)
    (fun _ => rfl) (fun _ => rfl) f rest h
theorem syscall (f : Fields) : Statement (.syscall f) :=
  of_decode rfl fun h rest => decode_std .syscall (by decide) (by decide) rfl (fun _ _ _ => rfl)
    (fun _ => rfl) (fun _ => rfl) f rest h
theorem bkpt (code : BitVec 18) (f : Fields) : Statement (.bkpt code f) :=
  of_decode rfl fun h rest => decode_own1 (.bkpt code) (by decide) rfl code.isLt
    (fun _ => by
      change some (Instr.bkpt (BitVec.ofNat 18 _)) = _
      rw [BitVec.ofNat_toNat, BitVec.setWidth_eq]) (fun _ => rfl) (fun _ => rfl) f rest h
theorem spawn (f : Fields) : Statement (.spawn f) :=
  of_decode rfl fun h rest => decode_std .spawn (by decide) (by decide) rfl (fun _ _ _ => rfl)
    (fun _ => rfl) (fun f => spawn_std f.mod) f rest h
theorem cdecl (f : Fields) : Statement (.cdecl f) :=
  of_decode rfl fun h rest => decode_std .cdecl (by decide) (by decide) rfl (fun _ _ _ => rfl)
    (fun _ => rfl) (fun f => cdecl_std f.mod) f rest h
theorem csign (f : Fields) : Statement (.csign f) :=
  of_decode rfl fun h rest => decode_std .csign (by decide) (by decide) rfl (fun _ _ _ => rfl)
    (fun _ => rfl) (fun _ => rfl) f rest h
theorem brdecW32 (stall : BitVec 3) (ctr : Opnd) (off : BitVec 13) : Statement (.brdecW32 stall ctr off) :=
  of_decode rfl fun h rest => decode_brdecW32 stall ctr off rest h
theorem brdec (off : BitVec 18) (f : Fields) : Statement (.brdec off f) :=
  of_decode rfl fun h rest => decode_own1 (.brdec off) (by decide) rfl off.isLt
    (fun _ => by
      change some (Instr.brdec (BitVec.ofNat 18 _)) = _
      rw [BitVec.ofNat_toNat, BitVec.setWidth_eq]) (fun _ => rfl) (fun _ => rfl) f rest h
theorem iaddW16 (x : Short16) : Statement (.iaddW16 x) := by
  refine of_decode rfl fun h rest => ?_
  have h : (Instr.iaddW16 x).shape.fitsShort16 x = true := h
  simp only [Shape.fitsShort16, Bool.and_eq_true] at h
  exact decode_short16 rest (by decide) rfl h.1.1 h.1.2 h.2
theorem iaddW32 (x : Short) : Statement (.iaddW32 x) :=
  of_decode rfl fun h rest => decode_short rest (by decide) (by decide) (by decide) rfl (fun h => absurd h (by decide)) h
theorem iadd (f : Fields) : Statement (.iadd f) :=
  of_decode rfl fun h rest => decode_std .iadd (by decide) (by decide) rfl (fun _ _ _ => rfl)
    (fun f => by cases f with | mk st p n cw d a b c m => cases b <;> rfl) (fun _ => rfl) f rest h
theorem isubW16 (x : Short16) : Statement (.isubW16 x) := by
  refine of_decode rfl fun h rest => ?_
  have h : (Instr.isubW16 x).shape.fitsShort16 x = true := h
  simp only [Shape.fitsShort16, Bool.and_eq_true] at h
  exact decode_short16 rest (by decide) rfl h.1.1 h.1.2 h.2
theorem isub (f : Fields) : Statement (.isub f) :=
  of_decode rfl fun h rest => decode_std .isub (by decide) (by decide) rfl (fun _ _ _ => rfl)
    (fun f => by cases f with | mk st p n cw d a b c m => cases b <;> rfl) (fun _ => rfl) f rest h
theorem iaddc (f : Fields) : Statement (.iaddc f) :=
  of_decode rfl fun h rest => decode_std .iaddc (by decide) (by decide) rfl (fun _ _ _ => rfl)
    (fun _ => rfl) (fun _ => rfl) f rest h
theorem isubb (f : Fields) : Statement (.isubb f) :=
  of_decode rfl fun h rest => decode_std .isubb (by decide) (by decide) rfl (fun _ _ _ => rfl)
    (fun _ => rfl) (fun _ => rfl) f rest h
theorem iadd64 (f : Fields) : Statement (.iadd64 f) :=
  of_decode rfl fun h rest => decode_std .iadd64 (by decide) (by decide) rfl (fun _ _ _ => rfl)
    (fun f => by cases f with | mk st p n cw d a b c m => cases b <;> rfl) (fun _ => rfl) f rest h
theorem isub64 (f : Fields) : Statement (.isub64 f) :=
  of_decode rfl fun h rest => decode_std .isub64 (by decide) (by decide) rfl (fun _ _ _ => rfl)
    (fun f => by cases f with | mk st p n cw d a b c m => cases b <;> rfl) (fun _ => rfl) f rest h
theorem ineg (f : Fields) : Statement (.ineg f) :=
  of_decode rfl fun h rest => decode_std .ineg (by decide) (by decide) rfl (fun _ _ _ => rfl)
    (fun _ => rfl) (fun _ => rfl) f rest h
theorem iabs (f : Fields) : Statement (.iabs f) :=
  of_decode rfl fun h rest => decode_std .iabs (by decide) (by decide) rfl (fun _ _ _ => rfl)
    (fun _ => rfl) (fun _ => rfl) f rest h
theorem imulW16 (x : Short16) : Statement (.imulW16 x) := by
  refine of_decode rfl fun h rest => ?_
  have h : (Instr.imulW16 x).shape.fitsShort16 x = true := h
  simp only [Shape.fitsShort16, Bool.and_eq_true] at h
  exact decode_short16 rest (by decide) rfl h.1.1 h.1.2 h.2
theorem imulW32 (x : Short) : Statement (.imulW32 x) :=
  of_decode rfl fun h rest => decode_short rest (by decide) (by decide) (by decide) rfl (fun h => absurd h (by decide)) h
theorem imul (f : Fields) : Statement (.imul f) :=
  of_decode rfl fun h rest => decode_std .imul (by decide) (by decide) rfl (fun _ _ _ => rfl)
    (fun f => by cases f with | mk st p n cw d a b c m => cases b <;> rfl) (fun _ => rfl) f rest h
theorem imulh (f : Fields) : Statement (.imulh f) :=
  of_decode rfl fun h rest => decode_std .imulh (by decide) (by decide) rfl (fun _ _ _ => rfl)
    (fun f => by cases f with | mk st p n cw d a b c m => cases b <;> rfl) (fun _ => rfl) f rest h
theorem imad (f : Fields) : Statement (.imad f) :=
  of_decode rfl fun h rest => decode_std .imad (by decide) (by decide) rfl (fun _ _ _ => rfl)
    (fun _ => rfl) (fun _ => rfl) f rest h
theorem imad64 (f : Fields) : Statement (.imad64 f) :=
  of_decode rfl fun h rest => decode_std .imad64 (by decide) (by decide) rfl (fun _ _ _ => rfl)
    (fun _ => rfl) (fun _ => rfl) f rest h
theorem iminW16 (x : Short16) : Statement (.iminW16 x) := by
  refine of_decode rfl fun h rest => ?_
  have h : (Instr.iminW16 x).shape.fitsShort16 x = true := h
  simp only [Shape.fitsShort16, Bool.and_eq_true] at h
  exact decode_short16 rest (by decide) rfl h.1.1 h.1.2 h.2
theorem iminW32 (x : Short) : Statement (.iminW32 x) :=
  of_decode rfl fun h rest => decode_short rest (by decide) (by decide) (by decide) rfl (fun h => absurd h (by decide)) h
theorem imin (f : Fields) : Statement (.imin f) :=
  of_decode rfl fun h rest => decode_std .imin (by decide) (by decide) rfl (fun _ _ _ => rfl)
    (fun f => by cases f with | mk st p n cw d a b c m => cases b <;> rfl) (fun _ => rfl) f rest h
theorem imaxW16 (x : Short16) : Statement (.imaxW16 x) := by
  refine of_decode rfl fun h rest => ?_
  have h : (Instr.imaxW16 x).shape.fitsShort16 x = true := h
  simp only [Shape.fitsShort16, Bool.and_eq_true] at h
  exact decode_short16 rest (by decide) rfl h.1.1 h.1.2 h.2
theorem imax (f : Fields) : Statement (.imax f) :=
  of_decode rfl fun h rest => decode_std .imax (by decide) (by decide) rfl (fun _ _ _ => rfl)
    (fun f => by cases f with | mk st p n cw d a b c m => cases b <;> rfl) (fun _ => rfl) f rest h
theorem idiff (f : Fields) : Statement (.idiff f) :=
  of_decode rfl fun h rest => decode_std .idiff (by decide) (by decide) rfl (fun _ _ _ => rfl)
    (fun _ => rfl) (fun _ => rfl) f rest h
theorem isad (f : Fields) : Statement (.isad f) :=
  of_decode rfl fun h rest => decode_std .isad (by decide) (by decide) rfl (fun _ _ _ => rfl)
    (fun _ => rfl) (fun _ => rfl) f rest h
theorem andW16 (x : Short16) : Statement (.andW16 x) := by
  refine of_decode rfl fun h rest => ?_
  have h : (Instr.andW16 x).shape.fitsShort16 x = true := h
  simp only [Shape.fitsShort16, Bool.and_eq_true] at h
  exact decode_short16 rest (by decide) rfl h.1.1 h.1.2 h.2
theorem andW32 (x : Short) : Statement (.andW32 x) :=
  of_decode rfl fun h rest => decode_short rest (by decide) (by decide) (by decide) rfl (fun h => absurd h (by decide)) h
theorem and (f : Fields) : Statement (.and f) :=
  of_decode rfl fun h rest => decode_std .and (by decide) (by decide) rfl (fun _ _ _ => rfl)
    (fun _ => rfl) (fun _ => rfl) f rest h
theorem orW16 (x : Short16) : Statement (.orW16 x) := by
  refine of_decode rfl fun h rest => ?_
  have h : (Instr.orW16 x).shape.fitsShort16 x = true := h
  simp only [Shape.fitsShort16, Bool.and_eq_true] at h
  exact decode_short16 rest (by decide) rfl h.1.1 h.1.2 h.2
theorem or (f : Fields) : Statement (.or f) :=
  of_decode rfl fun h rest => decode_std .or (by decide) (by decide) rfl (fun _ _ _ => rfl)
    (fun _ => rfl) (fun _ => rfl) f rest h
theorem xorW16 (x : Short16) : Statement (.xorW16 x) := by
  refine of_decode rfl fun h rest => ?_
  have h : (Instr.xorW16 x).shape.fitsShort16 x = true := h
  simp only [Shape.fitsShort16, Bool.and_eq_true] at h
  exact decode_short16 rest (by decide) rfl h.1.1 h.1.2 h.2
theorem xor (f : Fields) : Statement (.xor f) :=
  of_decode rfl fun h rest => decode_std .xor (by decide) (by decide) rfl (fun _ _ _ => rfl)
    (fun _ => rfl) (fun _ => rfl) f rest h
theorem andn (f : Fields) : Statement (.andn f) :=
  of_decode rfl fun h rest => decode_std .andn (by decide) (by decide) rfl (fun _ _ _ => rfl)
    (fun _ => rfl) (fun _ => rfl) f rest h
theorem not (f : Fields) : Statement (.not f) :=
  of_decode rfl fun h rest => decode_std .not (by decide) (by decide) rfl (fun _ _ _ => rfl)
    (fun _ => rfl) (fun _ => rfl) f rest h
theorem logic3 (tt : BitVec 8) (f : Fields) : Statement (.logic3 tt f) :=
  of_decode rfl fun h rest => decode_truth .logic3 (by decide) (fun _ => rfl)
    (fun minor _ _ _ _ => rfl) (fun _ _ => rfl)
    (fun _ _ => ⟨nofun, nofun, nofun, rfl, fun h => eq_of_beq h⟩) tt f rest h
theorem shlW16 (x : Short16) : Statement (.shlW16 x) := by
  refine of_decode rfl fun h rest => ?_
  have h : (Instr.shlW16 x).shape.fitsShort16 x = true := h
  simp only [Shape.fitsShort16, Bool.and_eq_true] at h
  exact decode_short16 rest (by decide) rfl h.1.1 h.1.2 h.2
theorem shlW32 (x : Short) : Statement (.shlW32 x) :=
  of_decode rfl fun h rest => decode_short rest (by decide) (by decide) (by decide) rfl (fun h => absurd h (by decide)) h
theorem shl (f : Fields) : Statement (.shl f) :=
  of_decode rfl fun h rest => decode_std .shl (by decide) (by decide) rfl (fun _ _ _ => rfl)
    (fun f => by cases f with | mk st p n cw d a b c m => cases b <;> rfl) (fun _ => rfl) f rest h
theorem shrlW16 (x : Short16) : Statement (.shrlW16 x) := by
  refine of_decode rfl fun h rest => ?_
  have h : (Instr.shrlW16 x).shape.fitsShort16 x = true := h
  simp only [Shape.fitsShort16, Bool.and_eq_true] at h
  exact decode_short16 rest (by decide) rfl h.1.1 h.1.2 h.2
theorem shrl (f : Fields) : Statement (.shrl f) :=
  of_decode rfl fun h rest => decode_std .shrl (by decide) (by decide) rfl (fun _ _ _ => rfl)
    (fun f => by cases f with | mk st p n cw d a b c m => cases b <;> rfl) (fun _ => rfl) f rest h
theorem shraW16 (x : Short16) : Statement (.shraW16 x) := by
  refine of_decode rfl fun h rest => ?_
  have h : (Instr.shraW16 x).shape.fitsShort16 x = true := h
  simp only [Shape.fitsShort16, Bool.and_eq_true] at h
  exact decode_short16 rest (by decide) rfl h.1.1 h.1.2 h.2
theorem shra (f : Fields) : Statement (.shra f) :=
  of_decode rfl fun h rest => decode_std .shra (by decide) (by decide) rfl (fun _ _ _ => rfl)
    (fun f => by cases f with | mk st p n cw d a b c m => cases b <;> rfl) (fun _ => rfl) f rest h
theorem rotl (f : Fields) : Statement (.rotl f) :=
  of_decode rfl fun h rest => decode_std .rotl (by decide) (by decide) rfl (fun _ _ _ => rfl)
    (fun _ => rfl) (fun _ => rfl) f rest h
theorem fshl (f : Fields) : Statement (.fshl f) :=
  of_decode rfl fun h rest => decode_std .fshl (by decide) (by decide) rfl (fun _ _ _ => rfl)
    (fun _ => rfl) (fun _ => rfl) f rest h
theorem bfx (f : Fields) : Statement (.bfx f) :=
  of_decode rfl fun h rest => decode_std .bfx (by decide) (by decide) rfl (fun _ _ _ => rfl)
    (fun f => by cases f with | mk st p n cw d a b c m => cases b <;> rfl) (fun _ => rfl) f rest h
theorem bfi (f : Fields) : Statement (.bfi f) :=
  of_decode rfl fun h rest => decode_std .bfi (by decide) (by decide) rfl (fun _ _ _ => rfl)
    (fun _ => rfl) (fun _ => rfl) f rest h
theorem popc (f : Fields) : Statement (.popc f) :=
  of_decode rfl fun h rest => decode_std .popc (by decide) (by decide) rfl (fun _ _ _ => rfl)
    (fun _ => rfl) (fun _ => rfl) f rest h
theorem clz (f : Fields) : Statement (.clz f) :=
  of_decode rfl fun h rest => decode_std .clz (by decide) (by decide) rfl (fun _ _ _ => rfl)
    (fun _ => rfl) (fun _ => rfl) f rest h
theorem ctz (f : Fields) : Statement (.ctz f) :=
  of_decode rfl fun h rest => decode_std .ctz (by decide) (by decide) rfl (fun _ _ _ => rfl)
    (fun _ => rfl) (fun _ => rfl) f rest h
theorem brev (f : Fields) : Statement (.brev f) :=
  of_decode rfl fun h rest => decode_std .brev (by decide) (by decide) rfl (fun _ _ _ => rfl)
    (fun _ => rfl) (fun _ => rfl) f rest h
theorem bperm (f : Fields) : Statement (.bperm f) :=
  of_decode rfl fun h rest => decode_std .bperm (by decide) (by decide) rfl (fun _ _ _ => rfl)
    (fun _ => rfl) (fun _ => rfl) f rest h
theorem icmp (r : Cmp) (f : Fields) : Statement (.icmp r f) := by
  cases r <;>
  exact of_decode rfl fun h rest => decode_std (.icmp _) (by decide) (by decide) rfl (fun _ _ _ => rfl)
    (fun f => by cases f with | mk st p n cw d a b c m => cases b <;> rfl) (fun _ => rfl) f rest h
theorem isel (f : Fields) : Statement (.isel f) :=
  of_decode rfl fun h rest => decode_std .isel (by decide) (by decide) rfl (fun _ _ _ => rfl)
    (fun _ => rfl) (fun _ => rfl) f rest h
theorem movW16 (x : Short16) : Statement (.movW16 x) := by
  refine of_decode rfl fun h rest => ?_
  have h : (d6Ok x.d && s5Ok x.s && (Instr.movW16 x).shape.fits x.movFields) = true := h
  simp only [Bool.and_eq_true] at h
  exact decode_short16 rest (by decide) rfl h.1.1 h.1.2 h.2
theorem movW32 (x : Short) : Statement (.movW32 x) := by
  refine of_decode rfl fun h rest => ?_
  refine decode_short rest (by decide) (by decide) (by decide) rfl (fun _ => by
    have h : (Instr.movW32 x).shape.fitsShort x = true := h
    simp only [Shape.fitsShort, Shape.fits, Bool.and_eq_true] at h
    have h : Shape.bOk (.int true .none .none true .f1 .zero) x.b = true := h.2.1.1.2
    cases hb : x.b <;> simp [Shape.int, Shape.bOk, Role.ok, hb] at h ⊢) h
theorem mov (f : Fields) : Statement (.mov f) :=
  of_decode rfl fun h rest => decode_std .mov (by decide) (by decide) rfl (fun _ _ _ => rfl)
    (fun _ => rfl) (fun f => mov_std f.mod) f rest h
theorem movi (w : Wide) : Statement (.movi w) :=
  of_decode rfl fun h rest => decode_wide .movi (by decide) (by decide) rfl (fun _ => rfl) w rest h
theorem movhi (w : Wide) : Statement (.movhi w) :=
  of_decode rfl fun h rest => decode_wide .movhi (by decide) (by decide) rfl (fun _ => rfl) w rest h
theorem leaW32 (x : Short) : Statement (.leaW32 x) :=
  of_decode rfl fun h rest => decode_short rest (by decide) (by decide) (by decide) rfl (fun h => absurd h (by decide)) h
theorem lea (f : Fields) : Statement (.lea f) :=
  of_decode rfl fun h rest => decode_std .lea (by decide) (by decide) rfl (fun _ _ _ => rfl)
    (fun _ => rfl) (fun _ => rfl) f rest h
theorem lea64 (f : Fields) : Statement (.lea64 f) :=
  of_decode rfl fun h rest => decode_std .lea64 (by decide) (by decide) rfl (fun _ _ _ => rfl)
    (fun _ => rfl) (fun _ => rfl) f rest h
theorem icvt (into frm : IFmt) (f : Fields) : Statement (.icvt into frm f) := by
  cases into <;> cases frm <;>
  exact of_decode rfl fun h rest => decode_own1 (.icvt _ _) (by decide) rfl (by decide)
    (fun _ => rfl) (fun _ => rfl) (fun _ => rfl) f rest h
theorem plop (tt : BitVec 8) (f : Fields) : Statement (.plop tt f) :=
  of_decode rfl fun h rest => decode_truth .plop (by decide) (fun _ => rfl)
    (fun minor _ _ _ _ => rfl) (fun _ _ => rfl)
    (fun _ _ => ⟨nofun, nofun, nofun, rfl, fun h => eq_of_beq h⟩) tt f rest h
theorem pmovPv (f : Fields) : Statement (.pmovPv f) :=
  of_decode rfl fun h rest => decode_std .pmovPv (by decide) (by decide) rfl (fun _ _ _ => rfl)
    (fun _ => rfl) (fun _ => rfl) f rest h
theorem pmovVp (f : Fields) : Statement (.pmovVp f) :=
  of_decode rfl fun h rest => decode_std .pmovVp (by decide) (by decide) rfl (fun _ _ _ => rfl)
    (fun _ => rfl) (fun _ => rfl) f rest h
theorem sread (r : SReg) (f : Fields) : Statement (.sread r f) := by
  cases r <;>
  exact of_decode rfl fun h rest => decode_own1 (.sread _) (by decide) rfl (by decide)
    (fun _ => rfl) (fun _ => rfl) (fun _ => rfl) f rest h
theorem swrite (r : SReg) (f : Fields) : Statement (.swrite r f) := by
  cases r <;>
  exact of_decode rfl fun h rest => decode_own1 (.swrite _) (by decide) rfl (by decide)
    (fun _ => rfl) (fun _ => rfl) (fun _ => rfl) f rest h
theorem voteAll (f : Fields) : Statement (.voteAll f) :=
  of_decode rfl fun h rest => decode_std .voteAll (by decide) (by decide) rfl (fun _ _ _ => rfl)
    (fun _ => rfl) (fun _ => rfl) f rest h
theorem voteAny (f : Fields) : Statement (.voteAny f) :=
  of_decode rfl fun h rest => decode_std .voteAny (by decide) (by decide) rfl (fun _ _ _ => rfl)
    (fun _ => rfl) (fun _ => rfl) f rest h
theorem voteBallot (f : Fields) : Statement (.voteBallot f) :=
  of_decode rfl fun h rest => decode_std .voteBallot (by decide) (by decide) rfl (fun _ _ _ => rfl)
    (fun _ => rfl) (fun _ => rfl) f rest h
theorem voteUni (f : Fields) : Statement (.voteUni f) :=
  of_decode rfl fun h rest => decode_std .voteUni (by decide) (by decide) rfl (fun _ _ _ => rfl)
    (fun _ => rfl) (fun _ => rfl) f rest h
theorem shfl (m : ShflMode) (f : Fields) : Statement (.shfl m f) := by
  cases m <;>
  exact of_decode rfl fun h rest => decode_std (.shfl _) (by decide) (by decide) rfl (fun _ _ _ => rfl)
    (fun _ => rfl) (fun _ => rfl) f rest h
theorem redux (o : ReduxOp) (f : Fields) : Statement (.redux o f) := by
  cases o <;>
  exact of_decode rfl fun h rest => decode_std (.redux _) (by decide) (by decide) rfl (fun _ _ _ => rfl)
    (fun _ => rfl) (fun _ => rfl) f rest h
theorem matchv (all : Bool) (f : Fields) : Statement (.matchv all f) := by
  cases all <;>
  exact of_decode rfl fun h rest => decode_std (.matchv _) (by decide) (by decide) rfl (fun _ _ _ => rfl)
    (fun _ => rfl) (fun _ => rfl) f rest h
theorem faddW16 (x : Short16) : Statement (.faddW16 x) := by
  refine of_decode rfl fun h rest => ?_
  have h : (Instr.faddW16 x).shape.fitsShort16 x = true := h
  simp only [Shape.fitsShort16, Bool.and_eq_true] at h
  exact decode_short16 rest (by decide) rfl h.1.1 h.1.2 h.2
theorem faddW32 (x : Short) : Statement (.faddW32 x) :=
  of_decode rfl fun h rest => decode_short rest (by decide) (by decide) (by decide) rfl (fun h => absurd h (by decide)) h
theorem fadd (f : Fields) : Statement (.fadd f) :=
  of_decode rfl fun h rest => decode_std .fadd (by decide) (by decide) rfl (fun _ _ _ => rfl)
    (fun _ => rfl) (fun _ => rfl) f rest h
theorem fsub (f : Fields) : Statement (.fsub f) :=
  of_decode rfl fun h rest => decode_std .fsub (by decide) (by decide) rfl (fun _ _ _ => rfl)
    (fun _ => rfl) (fun _ => rfl) f rest h
theorem fmulW16 (x : Short16) : Statement (.fmulW16 x) := by
  refine of_decode rfl fun h rest => ?_
  have h : (Instr.fmulW16 x).shape.fitsShort16 x = true := h
  simp only [Shape.fitsShort16, Bool.and_eq_true] at h
  exact decode_short16 rest (by decide) rfl h.1.1 h.1.2 h.2
theorem fmulW32 (x : Short) : Statement (.fmulW32 x) :=
  of_decode rfl fun h rest => decode_short rest (by decide) (by decide) (by decide) rfl (fun h => absurd h (by decide)) h
theorem fmul (f : Fields) : Statement (.fmul f) :=
  of_decode rfl fun h rest => decode_std .fmul (by decide) (by decide) rfl (fun _ _ _ => rfl)
    (fun _ => rfl) (fun _ => rfl) f rest h
theorem ffma (f : Fields) : Statement (.ffma f) :=
  of_decode rfl fun h rest => decode_std .ffma (by decide) (by decide) rfl (fun _ _ _ => rfl)
    (fun _ => rfl) (fun _ => rfl) f rest h
theorem fminW16 (x : Short16) : Statement (.fminW16 x) := by
  refine of_decode rfl fun h rest => ?_
  have h : (Instr.fminW16 x).shape.fitsShort16 x = true := h
  simp only [Shape.fitsShort16, Bool.and_eq_true] at h
  exact decode_short16 rest (by decide) rfl h.1.1 h.1.2 h.2
theorem fminW32 (x : Short) : Statement (.fminW32 x) :=
  of_decode rfl fun h rest => decode_short rest (by decide) (by decide) (by decide) rfl (fun h => absurd h (by decide)) h
theorem fmin (f : Fields) : Statement (.fmin f) :=
  of_decode rfl fun h rest => decode_std .fmin (by decide) (by decide) rfl (fun _ _ _ => rfl)
    (fun _ => rfl) (fun _ => rfl) f rest h
theorem fmaxW16 (x : Short16) : Statement (.fmaxW16 x) := by
  refine of_decode rfl fun h rest => ?_
  have h : (Instr.fmaxW16 x).shape.fitsShort16 x = true := h
  simp only [Shape.fitsShort16, Bool.and_eq_true] at h
  exact decode_short16 rest (by decide) rfl h.1.1 h.1.2 h.2
theorem fmax (f : Fields) : Statement (.fmax f) :=
  of_decode rfl fun h rest => decode_std .fmax (by decide) (by decide) rfl (fun _ _ _ => rfl)
    (fun _ => rfl) (fun _ => rfl) f rest h
theorem fcmp (r : FCmp) (f : Fields) : Statement (.fcmp r f) := by
  cases r <;>
  exact of_decode rfl fun h rest => decode_std (.fcmp _) (by decide) (by decide) rfl (fun _ _ _ => rfl)
    (fun _ => rfl) (fun _ => rfl) f rest h
theorem fclass (f : Fields) : Statement (.fclass f) :=
  of_decode rfl fun h rest => decode_std .fclass (by decide) (by decide) rfl (fun _ _ _ => rfl)
    (fun _ => rfl) (fun _ => rfl) f rest h
theorem frcp (f : Fields) : Statement (.frcp f) :=
  of_decode rfl fun h rest => decode_std .frcp (by decide) (by decide) rfl (fun _ _ _ => rfl)
    (fun _ => rfl) (fun _ => rfl) f rest h
theorem frsq (f : Fields) : Statement (.frsq f) :=
  of_decode rfl fun h rest => decode_std .frsq (by decide) (by decide) rfl (fun _ _ _ => rfl)
    (fun _ => rfl) (fun _ => rfl) f rest h
theorem fsqrt (f : Fields) : Statement (.fsqrt f) :=
  of_decode rfl fun h rest => decode_std .fsqrt (by decide) (by decide) rfl (fun _ _ _ => rfl)
    (fun _ => rfl) (fun _ => rfl) f rest h
theorem fdiv (f : Fields) : Statement (.fdiv f) :=
  of_decode rfl fun h rest => decode_std .fdiv (by decide) (by decide) rfl (fun _ _ _ => rfl)
    (fun _ => rfl) (fun _ => rfl) f rest h
theorem fexp2 (f : Fields) : Statement (.fexp2 f) :=
  of_decode rfl fun h rest => decode_std .fexp2 (by decide) (by decide) rfl (fun _ _ _ => rfl)
    (fun _ => rfl) (fun _ => rfl) f rest h
theorem flog2 (f : Fields) : Statement (.flog2 f) :=
  of_decode rfl fun h rest => decode_std .flog2 (by decide) (by decide) rfl (fun _ _ _ => rfl)
    (fun _ => rfl) (fun _ => rfl) f rest h
theorem fsin (f : Fields) : Statement (.fsin f) :=
  of_decode rfl fun h rest => decode_std .fsin (by decide) (by decide) rfl (fun _ _ _ => rfl)
    (fun _ => rfl) (fun _ => rfl) f rest h
theorem fcos (f : Fields) : Statement (.fcos f) :=
  of_decode rfl fun h rest => decode_std .fcos (by decide) (by decide) rfl (fun _ _ _ => rfl)
    (fun _ => rfl) (fun _ => rfl) f rest h
theorem ftanh (f : Fields) : Statement (.ftanh f) :=
  of_decode rfl fun h rest => decode_std .ftanh (by decide) (by decide) rfl (fun _ _ _ => rfl)
    (fun _ => rfl) (fun _ => rfl) f rest h
theorem fscale (f : Fields) : Statement (.fscale f) :=
  of_decode rfl fun h rest => decode_std .fscale (by decide) (by decide) rfl (fun _ _ _ => rfl)
    (fun _ => rfl) (fun _ => rfl) f rest h
theorem frnd (f : Fields) : Statement (.frnd f) :=
  of_decode rfl fun h rest => decode_std .frnd (by decide) (by decide) rfl (fun _ _ _ => rfl)
    (fun _ => rfl) (fun _ => rfl) f rest h
theorem f2i (into : IFmt) (frm : EFmt) (hi : Bool) (f : Fields) : Statement (.f2i into frm hi f) :=
  of_decode rfl fun h rest => decode_own1 (major := 0x3B) (.f2i into frm hi) (by decide) rfl (skelF2i_code into frm hi).2
    (fun _ => (skelF2i_code into frm hi).1) (fun _ => rfl) (fun _ => rfl) f rest h
theorem i2f (into : EFmt) (frm : IFmt) (hi : Bool) (f : Fields) : Statement (.i2f into frm hi f) :=
  of_decode rfl fun h rest => decode_own1 (major := 0x3C) (.i2f into frm hi) (by decide) rfl (skelI2f_code into frm hi).2
    (fun _ => (skelI2f_code into frm hi).1) (fun _ => rfl) (fun _ => rfl) f rest h
theorem fcvt (into frm : EFmt) (dn sn : BitVec 3) (sr satf : Bool) (f : Fields) :
    Statement (.fcvt into frm dn sn sr satf f) :=
  of_decode rfl fun h rest => decode_own1 (major := 0x3D) (.fcvt into frm dn sn sr satf) (by decide) rfl
    (skelFcvt_code into frm dn sn sr satf).2 (fun _ => (skelFcvt_code into frm dn sn sr satf).1)
    (fun _ => rfl) (fun _ => rfl) f rest h
theorem dadd (f : Fields) : Statement (.dadd f) :=
  of_decode rfl fun h rest => decode_std .dadd (by decide) (by decide) rfl (fun _ _ _ => rfl)
    (fun _ => rfl) (fun _ => rfl) f rest h
theorem dsub (f : Fields) : Statement (.dsub f) :=
  of_decode rfl fun h rest => decode_std .dsub (by decide) (by decide) rfl (fun _ _ _ => rfl)
    (fun _ => rfl) (fun _ => rfl) f rest h
theorem dmul (f : Fields) : Statement (.dmul f) :=
  of_decode rfl fun h rest => decode_std .dmul (by decide) (by decide) rfl (fun _ _ _ => rfl)
    (fun _ => rfl) (fun _ => rfl) f rest h
theorem dfma (f : Fields) : Statement (.dfma f) :=
  of_decode rfl fun h rest => decode_std .dfma (by decide) (by decide) rfl (fun _ _ _ => rfl)
    (fun _ => rfl) (fun _ => rfl) f rest h
theorem dcmp (r : FCmp) (f : Fields) : Statement (.dcmp r f) := by
  cases r <;>
  exact of_decode rfl fun h rest => decode_std (.dcmp _) (by decide) (by decide) rfl (fun _ _ _ => rfl)
    (fun _ => rfl) (fun _ => rfl) f rest h
theorem pkadd (f16 : Bool) (f : Fields) : Statement (.pkadd f16 f) := by
  cases f16 <;>
  exact of_decode rfl fun h rest => decode_std (.pkadd _) (by decide) (by decide) rfl (fun _ _ _ => rfl)
    (fun _ => rfl) (fun _ => rfl) f rest h
theorem pkmul (f16 : Bool) (f : Fields) : Statement (.pkmul f16 f) := by
  cases f16 <;>
  exact of_decode rfl fun h rest => decode_std (.pkmul _) (by decide) (by decide) rfl (fun _ _ _ => rfl)
    (fun _ => rfl) (fun _ => rfl) f rest h
theorem pkfma (f16 : Bool) (f : Fields) : Statement (.pkfma f16 f) := by
  cases f16 <;>
  exact of_decode rfl fun h rest => decode_std (.pkfma _) (by decide) (by decide) rfl (fun _ _ _ => rfl)
    (fun _ => rfl) (fun _ => rfl) f rest h
theorem pkmm (f16 max : Bool) (f : Fields) : Statement (.pkmm f16 max f) := by
  cases f16 <;> cases max <;>
  exact of_decode rfl fun h rest => decode_std (.pkmm _ _) (by decide) (by decide) rfl (fun _ _ _ => rfl)
    (fun _ => rfl) (fun _ => rfl) f rest h
theorem qdot4 (ae5 be5 : Bool) (f : Fields) : Statement (.qdot4 ae5 be5 f) := by
  cases ae5 <;> cases be5 <;>
  exact of_decode rfl fun h rest => decode_std (.qdot4 _ _) (by decide) (by decide) rfl (fun _ _ _ => rfl)
    (fun _ => rfl) (fun _ => rfl) f rest h
theorem idot4 (an bn : Bool) (f : Fields) : Statement (.idot4 an bn f) := by
  cases an <;> cases bn <;>
  exact of_decode rfl fun h rest => decode_std (.idot4 _ _) (by decide) (by decide) rfl (fun _ _ _ => rfl)
    (fun _ => rfl) (fun _ => rfl) f rest h
theorem ldW32 (x : Short) : Statement (.ldW32 x) :=
  of_decode rfl fun h rest => decode_short rest (by decide) (by decide) (by decide) rfl (fun h => absurd h (by decide)) h
theorem ld (f : Fields) : Statement (.ld f) :=
  of_decode rfl fun h rest => decode_std .ld (by decide) (by decide) rfl (fun _ _ _ => rfl)
    (fun _ => rfl) (fun _ => rfl) f rest h
theorem stW32 (x : Short) : Statement (.stW32 x) :=
  of_decode rfl fun h rest => decode_short rest (by decide) (by decide) (by decide) rfl (fun h => absurd h (by decide)) h
theorem st (f : Fields) : Statement (.st f) :=
  of_decode rfl fun h rest => decode_std .st (by decide) (by decide) rfl (fun _ _ _ => rfl)
    (fun _ => rfl) (fun _ => rfl) f rest h
theorem ldsW32 (x : Short) : Statement (.ldsW32 x) :=
  of_decode rfl fun h rest => decode_short rest (by decide) (by decide) (by decide) rfl (fun h => absurd h (by decide)) h
theorem lds (f : Fields) : Statement (.lds f) :=
  of_decode rfl fun h rest => decode_std .lds (by decide) (by decide) rfl (fun _ _ _ => rfl)
    (fun _ => rfl) (fun _ => rfl) f rest h
theorem stsW32 (x : Short) : Statement (.stsW32 x) :=
  of_decode rfl fun h rest => decode_short rest (by decide) (by decide) (by decide) rfl (fun h => absurd h (by decide)) h
theorem sts (f : Fields) : Statement (.sts f) :=
  of_decode rfl fun h rest => decode_std .sts (by decide) (by decide) rfl (fun _ _ _ => rfl)
    (fun _ => rfl) (fun _ => rfl) f rest h
theorem ldx (f : Fields) : Statement (.ldx f) :=
  of_decode rfl fun h rest => decode_std .ldx (by decide) (by decide) rfl (fun _ _ _ => rfl)
    (fun _ => rfl) (fun _ => rfl) f rest h
theorem stx (f : Fields) : Statement (.stx f) :=
  of_decode rfl fun h rest => decode_std .stx (by decide) (by decide) rfl (fun _ _ _ => rfl)
    (fun _ => rfl) (fun _ => rfl) f rest h
theorem pref (f : Fields) : Statement (.pref f) :=
  of_decode rfl fun h rest => decode_std .pref (by decide) (by decide) rfl (fun _ _ _ => rfl)
    (fun _ => rfl) (fun _ => rfl) f rest h
theorem cctlWb (f : Fields) : Statement (.cctlWb f) :=
  of_decode rfl fun h rest => decode_std .cctlWb (by decide) (by decide) rfl (fun _ _ _ => rfl)
    (fun _ => rfl) (fun _ => rfl) f rest h
theorem cctlInv (f : Fields) : Statement (.cctlInv f) :=
  of_decode rfl fun h rest => decode_std .cctlInv (by decide) (by decide) rfl (fun _ _ _ => rfl)
    (fun _ => rfl) (fun _ => rfl) f rest h
theorem cctlWbinv (f : Fields) : Statement (.cctlWbinv f) :=
  of_decode rfl fun h rest => decode_std .cctlWbinv (by decide) (by decide) rfl (fun _ _ _ => rfl)
    (fun _ => rfl) (fun _ => rfl) f rest h
theorem icinv (f : Fields) : Statement (.icinv f) :=
  of_decode rfl fun h rest => decode_std .icinv (by decide) (by decide) rfl (fun _ _ _ => rfl)
    (fun _ => rfl) (fun f => icinv_std f.mod) f rest h
theorem ifence (f : Fields) : Statement (.ifence f) :=
  of_decode rfl fun h rest => decode_std .ifence (by decide) (by decide) rfl (fun _ _ _ => rfl)
    (fun _ => rfl) (fun _ => rfl) f rest h
theorem pin (f : Fields) : Statement (.pin f) :=
  of_decode rfl fun h rest => decode_std .pin (by decide) (by decide) rfl (fun _ _ _ => rfl)
    (fun _ => rfl) (fun _ => rfl) f rest h
theorem unpin (f : Fields) : Statement (.unpin f) :=
  of_decode rfl fun h rest => decode_std .unpin (by decide) (by decide) rfl (fun _ _ _ => rfl)
    (fun _ => rfl) (fun _ => rfl) f rest h
theorem hint (f : Fields) : Statement (.hint f) :=
  of_decode rfl fun h rest => decode_std .hint (by decide) (by decide) rfl (fun _ _ _ => rfl)
    (fun _ => rfl) (fun _ => rfl) f rest h
theorem plq (f : Fields) : Statement (.plq f) :=
  of_decode rfl fun h rest => decode_std .plq (by decide) (by decide) rfl (fun _ _ _ => rfl)
    (fun _ => rfl) (fun _ => rfl) f rest h
theorem atom (o : AtomOp) (ty : AType) (f : Fields) : Statement (.atom o ty f) := by
  cases o <;> cases ty <;>
  exact of_decode rfl fun h rest => decode_own0 (.atom _ _) (by decide) (by decide) rfl (by decide)
    (fun _ => rfl) (fun _ => rfl) (fun _ => rfl) f rest h
theorem acas (ty : AType) (f : Fields) : Statement (.acas ty f) := by
  cases ty <;>
  exact of_decode rfl fun h rest => decode_own0 (.acas _) (by decide) (by decide) rfl (by decide)
    (fun _ => rfl) (fun _ => rfl) (fun _ => rfl) f rest h
theorem atoms (o : AtomOp) (ty : AType) (f : Fields) : Statement (.atoms o ty f) := by
  cases o <;> cases ty <;>
  exact of_decode rfl fun h rest => decode_own0 (.atoms _ _) (by decide) (by decide) rfl (by decide)
    (fun _ => rfl) (fun _ => rfl) (fun _ => rfl) f rest h
theorem atomx (o : AtomOp) (ty : AType) (f : Fields) : Statement (.atomx o ty f) := by
  cases o <;> cases ty <;>
  exact of_decode rfl fun h rest => decode_own0 (.atomx _ _) (by decide) (by decide) rfl (by decide)
    (fun _ => rfl) (fun _ => rfl) (fun _ => rfl) f rest h
theorem red (o : AtomOp) (ty : AType) (f : Fields) : Statement (.red o ty f) := by
  cases o <;> cases ty <;>
  exact of_decode rfl fun h rest => decode_own0 (.red _ _) (by decide) (by decide) rfl (by decide)
    (fun _ => rfl) (fun _ => rfl) (fun _ => rfl) f rest h
theorem waitc (r : WRel) (u w64 : Bool) (f : Fields) : Statement (.waitc r u w64 f) := by
  cases r <;> cases u <;> cases w64 <;>
  exact of_decode rfl fun h rest => decode_own0 (.waitc _ _ _) (by decide) (by decide) rfl (by decide)
    (fun _ => rfl) (fun _ => rfl) (fun _ => rfl) f rest h
theorem phasePub (f : Fields) : Statement (.phasePub f) :=
  of_decode rfl fun h rest => decode_std .phasePub (by decide) (by decide) rfl (fun _ _ _ => rfl)
    (fun _ => rfl) (fun _ => rfl) f rest h
theorem phaseSnap (f : Fields) : Statement (.phaseSnap f) :=
  of_decode rfl fun h rest => decode_std .phaseSnap (by decide) (by decide) rfl (fun _ _ _ => rfl)
    (fun _ => rfl) (fun _ => rfl) f rest h
theorem phaseFull (f : Fields) : Statement (.phaseFull f) :=
  of_decode rfl fun h rest => decode_std .phaseFull (by decide) (by decide) rfl (fun _ _ _ => rfl)
    (fun _ => rfl) (fun _ => rfl) f rest h
theorem barArrive (f : Fields) : Statement (.barArrive f) :=
  of_decode rfl fun h rest => decode_std .barArrive (by decide) (by decide) rfl (fun _ _ _ => rfl)
    (fun _ => rfl) (fun _ => rfl) f rest h
theorem barWait (f : Fields) : Statement (.barWait f) :=
  of_decode rfl fun h rest => decode_std .barWait (by decide) (by decide) rfl (fun _ _ _ => rfl)
    (fun _ => rfl) (fun _ => rfl) f rest h
theorem barSync (f : Fields) : Statement (.barSync f) :=
  of_decode rfl fun h rest => decode_std .barSync (by decide) (by decide) rfl (fun _ _ _ => rfl)
    (fun _ => rfl) (fun _ => rfl) f rest h
theorem last (f : Fields) : Statement (.last f) :=
  of_decode rfl fun h rest => decode_std .last (by decide) (by decide) rfl (fun _ _ _ => rfl)
    (fun _ => rfl) (fun _ => rfl) f rest h
theorem enq (f : Fields) : Statement (.enq f) :=
  of_decode rfl fun h rest => decode_std .enq (by decide) (by decide) rfl (fun _ _ _ => rfl)
    (fun _ => rfl) (fun f => enq_std f.mod) f rest h
theorem deq (f : Fields) : Statement (.deq f) :=
  of_decode rfl fun h rest => decode_std .deq (by decide) (by decide) rfl (fun _ _ _ => rfl)
    (fun _ => rfl) (fun f => enq_std f.mod) f rest h
theorem lnlEnq (scope : BitVec 3) (wait : Bool) (rs2 rs1 rd : BitVec 5) :
    Statement (.lnlEnq scope wait rs2 rs1 rd) := by
  intro _ _
  refine ⟨fun _ => ?_, fun h => by simp [Instr.coded, Instr.ofHart] at h⟩
  change decodeHart (leNat (leBytes 4 (packHart 0 scope wait rs2 rs1 rd))) = _
  rw [leNat_leBytes]
  · exact (decodeHart_packHart scope wait rs2 rs1 rd).1
  · have h1 := scope.isLt
    have h2 := wait.toNat_lt
    have h3 := rs2.isLt
    have h4 := rs1.isLt
    have h5 := rd.isLt
    unfold packHart
    omega
theorem lnlDeq (scope : BitVec 3) (wait : Bool) (rs2 rs1 rd : BitVec 5) :
    Statement (.lnlDeq scope wait rs2 rs1 rd) := by
  intro _ _
  refine ⟨fun _ => ?_, fun h => by simp [Instr.coded, Instr.ofHart] at h⟩
  change decodeHart (leNat (leBytes 4 (packHart 1 scope wait rs2 rs1 rd))) = _
  rw [leNat_leBytes]
  · exact (decodeHart_packHart scope wait rs2 rs1 rd).2
  · have h1 := scope.isLt
    have h2 := wait.toNat_lt
    have h3 := rs2.isLt
    have h4 := rs1.isLt
    have h5 := rd.isLt
    unfold packHart
    omega
theorem xcopy (f : Fields) : Statement (.xcopy f) :=
  of_decode rfl fun h rest => decode_std .xcopy (by decide) (by decide) rfl (fun _ _ _ => rfl)
    (fun _ => rfl) (fun f => card_std f) f rest h
theorem xfill (f : Fields) : Statement (.xfill f) :=
  of_decode rfl fun h rest => decode_std .xfill (by decide) (by decide) rfl (fun _ _ _ => rfl)
    (fun _ => rfl) (fun f => card_std f) f rest h
theorem xgath (f : Fields) : Statement (.xgath f) :=
  of_decode rfl fun h rest => decode_std .xgath (by decide) (by decide) rfl (fun _ _ _ => rfl)
    (fun _ => rfl) (fun f => card_std f) f rest h
theorem xappk (f : Fields) : Statement (.xappk f) :=
  of_decode rfl fun h rest => decode_std .xappk (by decide) (by decide) rfl (fun _ _ _ => rfl)
    (fun _ => rfl) (fun f => xappk_std f.mod) f rest h
theorem xseal (f : Fields) : Statement (.xseal f) :=
  of_decode rfl fun h rest => decode_std .xseal (by decide) (by decide) rfl (fun _ _ _ => rfl)
    (fun _ => rfl) (fun _ => rfl) f rest h
theorem xptr (f : Fields) : Statement (.xptr f) :=
  of_decode rfl fun h rest => decode_std .xptr (by decide) (by decide) rfl (fun _ _ _ => rfl)
    (fun _ => rfl) (fun _ => rfl) f rest h
theorem btapp (f : Fields) : Statement (.btapp f) :=
  of_decode rfl fun h rest => decode_std .btapp (by decide) (by decide) rfl (fun _ _ _ => rfl)
    (fun _ => rfl) (fun _ => rfl) f rest h
theorem btrel (f : Fields) : Statement (.btrel f) :=
  of_decode rfl fun h rest => decode_std .btrel (by decide) (by decide) rfl (fun _ _ _ => rfl)
    (fun _ => rfl) (fun _ => rfl) f rest h
theorem xpoolFill (f : Fields) : Statement (.xpoolFill f) :=
  of_decode rfl fun h rest => decode_std .xpoolFill (by decide) (by decide) rfl (fun _ _ _ => rfl)
    (fun _ => rfl) (fun f => card_std f) f rest h
theorem xpoolCopy (f : Fields) : Statement (.xpoolCopy f) :=
  of_decode rfl fun h rest => decode_std .xpoolCopy (by decide) (by decide) rfl (fun _ _ _ => rfl)
    (fun _ => rfl) (fun f => card_std f) f rest h
theorem xpoolCmp (f : Fields) : Statement (.xpoolCmp f) :=
  of_decode rfl fun h rest => decode_std .xpoolCmp (by decide) (by decide) rfl (fun _ _ _ => rfl)
    (fun _ => rfl) (fun f => card_std f) f rest h
theorem xpoolReduce (f : Fields) : Statement (.xpoolReduce f) :=
  of_decode rfl fun h rest => decode_std .xpoolReduce (by decide) (by decide) rfl (fun _ _ _ => rfl)
    (fun _ => rfl) (fun f => card_std f) f rest h
theorem sbpost (f : Fields) : Statement (.sbpost f) :=
  of_decode rfl fun h rest => decode_std .sbpost (by decide) (by decide) rfl (fun _ _ _ => rfl)
    (fun _ => rfl) (fun _ => rfl) f rest h
theorem sbpoll (f : Fields) : Statement (.sbpoll f) :=
  of_decode rfl fun h rest => decode_std .sbpoll (by decide) (by decide) rfl (fun _ _ _ => rfl)
    (fun _ => rfl) (fun _ => rfl) f rest h
theorem sbread (f : Fields) : Statement (.sbread f) :=
  of_decode rfl fun h rest => decode_std .sbread (by decide) (by decide) rfl (fun _ _ _ => rfl)
    (fun _ => rfl) (fun _ => rfl) f rest h
theorem mzero (f : Fields) : Statement (.mzero f) :=
  of_decode rfl fun h rest => decode_std .mzero (by decide) (by decide) rfl (fun _ _ _ => rfl)
    (fun _ => rfl) (fun _ => rfl) f rest h
theorem mma (f : Fields) : Statement (.mma f) :=
  of_decode rfl fun h rest => decode_std .mma (by decide) (by decide) rfl (fun _ _ _ => rfl)
    (fun _ => rfl) (fun _ => rfl) f rest h
theorem mmasp (f : Fields) : Statement (.mmasp f) :=
  of_decode rfl fun h rest => decode_std .mmasp (by decide) (by decide) rfl (fun _ _ _ => rfl)
    (fun _ => rfl) (fun _ => rfl) f rest h
theorem mldacc (f : Fields) : Statement (.mldacc f) :=
  of_decode rfl fun h rest => decode_std .mldacc (by decide) (by decide) rfl (fun _ _ _ => rfl)
    (fun _ => rfl) (fun _ => rfl) f rest h
theorem mstacc (f : Fields) : Statement (.mstacc f) :=
  of_decode rfl fun h rest => decode_std .mstacc (by decide) (by decide) rfl (fun _ _ _ => rfl)
    (fun _ => rfl) (fun _ => rfl) f rest h
theorem mpack (f : Fields) : Statement (.mpack f) :=
  of_decode rfl fun h rest => decode_std .mpack (by decide) (by decide) rfl (fun _ _ _ => rfl)
    (fun _ => rfl) (fun _ => rfl) f rest h
theorem mread (f : Fields) : Statement (.mread f) :=
  of_decode rfl fun h rest => decode_std .mread (by decide) (by decide) rfl (fun _ _ _ => rfl)
    (fun _ => rfl) (fun _ => rfl) f rest h
theorem mwrite (f : Fields) : Statement (.mwrite f) :=
  of_decode rfl fun h rest => decode_std .mwrite (by decide) (by decide) rfl (fun _ _ _ => rfl)
    (fun _ => rfl) (fun _ => rfl) f rest h
theorem mrowMax (f : Fields) : Statement (.mrowMax f) :=
  of_decode rfl fun h rest => decode_std .mrowMax (by decide) (by decide) rfl (fun _ _ _ => rfl)
    (fun _ => rfl) (fun _ => rfl) f rest h
theorem mrowSum (f : Fields) : Statement (.mrowSum f) :=
  of_decode rfl fun h rest => decode_std .mrowSum (by decide) (by decide) rfl (fun _ _ _ => rfl)
    (fun _ => rfl) (fun _ => rfl) f rest h
theorem mexp (f : Fields) : Statement (.mexp f) :=
  of_decode rfl fun h rest => decode_std .mexp (by decide) (by decide) rfl (fun _ _ _ => rfl)
    (fun _ => rfl) (fun _ => rfl) f rest h
theorem issueSelection : Statement .issueSelection := of_event rfl rfl
theorem soloIssue : Statement .soloIssue := of_event rfl rfl
theorem loopBufferRefill : Statement .loopBufferRefill := of_event rfl rfl
theorem icacheFill : Statement .icacheFill := of_event rfl rfl
theorem resultLanding : Statement .resultLanding := of_event rfl rfl
theorem fillBufferWrite : Statement .fillBufferWrite := of_event rfl rfl
theorem terminalFaultArrival : Statement .terminalFaultArrival := of_event rfl rfl
theorem launchStopArrival : Statement .launchStopArrival := of_event rfl rfl
theorem migWindowReplay : Statement .migWindowReplay := of_event rfl rfl
theorem handoverReplay : Statement .handoverReplay := of_event rfl rfl
theorem ringRecordPost : Statement .ringRecordPost := of_event rfl rfl
theorem hostDoorbell : Statement .hostDoorbell := of_event rfl rfl
theorem hostSlotWrite : Statement .hostSlotWrite := of_event rfl rfl
theorem hostSlotTimeout : Statement .hostSlotTimeout := of_event rfl rfl
theorem hostDeferredExamine : Statement .hostDeferredExamine := of_event rfl rfl
theorem completionReservation : Statement .completionReservation := of_event rfl rfl
theorem launchAdmission : Statement .launchAdmission := of_event rfl rfl
theorem leaseGrant : Statement .leaseGrant := of_event rfl rfl
theorem clusterHandout : Statement .clusterHandout := of_event rfl rfl
theorem stealWithinDie : Statement .stealWithinDie := of_event rfl rfl
theorem stealAcrossDies : Statement .stealAcrossDies := of_event rfl rfl
theorem poolRedivide : Statement .poolRedivide := of_event rfl rfl
theorem teamStart : Statement .teamStart := of_event rfl rfl
theorem groupsReady : Statement .groupsReady := of_event rfl rfl
theorem activeSetEntry : Statement .activeSetEntry := of_event rfl rfl
theorem preemptStarvation : Statement .preemptStarvation := of_event rfl rfl
theorem preemptionRequest : Statement .preemptionRequest := of_event rfl rfl
theorem deferralEnd : Statement .deferralEnd := of_event rfl rfl
theorem forcedSave : Statement .forcedSave := of_event rfl rfl
theorem teamSave : Statement .teamSave := of_event rfl rfl
theorem pressureRestore : Statement .pressureRestore := of_event rfl rfl
theorem teamRestore : Statement .teamRestore := of_event rfl rfl
theorem pigeonholeTimerExpiry : Statement .pigeonholeTimerExpiry := of_event rfl rfl
theorem pigeonholeLaunch : Statement .pigeonholeLaunch := of_event rfl rfl
theorem spawnBlockRetry : Statement .spawnBlockRetry := of_event rfl rfl
theorem invalidationRequest : Statement .invalidationRequest := of_event rfl rfl
theorem invalidationComplete : Statement .invalidationComplete := of_event rfl rfl
theorem migrationStart : Statement .migrationStart := of_event rfl rfl
theorem migrationLineCopy : Statement .migrationLineCopy := of_event rfl rfl
theorem migrationComplete : Statement .migrationComplete := of_event rfl rfl
theorem heatHalving : Statement .heatHalving := of_event rfl rfl
theorem frameScrub : Statement .frameScrub := of_event rfl rfl
theorem poolHandover : Statement .poolHandover := of_event rfl rfl
theorem poolMemberLeave : Statement .poolMemberLeave := of_event rfl rfl
theorem publicationComplete : Statement .publicationComplete := of_event rfl rfl
theorem l1LineExpiry : Statement .l1LineExpiry := of_event rfl rfl
theorem wcDrainTimeout : Statement .wcDrainTimeout := of_event rfl rfl
theorem monitorReevaluate : Statement .monitorReevaluate := of_event rfl rfl
theorem monitorPoll : Statement .monitorPoll := of_event rfl rfl
theorem waitcTimeout : Statement .waitcTimeout := of_event rfl rfl
theorem queueWaiterServe : Statement .queueWaiterServe := of_event rfl rfl
theorem queuePoll : Statement .queuePoll := of_event rfl rfl
theorem barrierArrival : Statement .barrierArrival := of_event rfl rfl
theorem barrierWake : Statement .barrierWake := of_event rfl rfl
theorem cdeclEffect : Statement .cdeclEffect := of_event rfl rfl
theorem signatureArrival : Statement .signatureArrival := of_event rfl rfl
theorem matrixChunk : Statement .matrixChunk := of_event rfl rfl
theorem matrixEventComplete : Statement .matrixEventComplete := of_event rfl rfl
theorem matrixStatusWrite : Statement .matrixStatusWrite := of_event rfl rfl
theorem mreadPerform : Statement .mreadPerform := of_event rfl rfl
theorem tileFetch : Statement .tileFetch := of_event rfl rfl
theorem courierJobStart : Statement .courierJobStart := of_event rfl rfl
theorem courierWrite : Statement .courierWrite := of_event rfl rfl
theorem courierJobComplete : Statement .courierJobComplete := of_event rfl rfl
theorem tokenRefill : Statement .tokenRefill := of_event rfl rfl
theorem fabricTokenRefill : Statement .fabricTokenRefill := of_event rfl rfl
theorem deferredBlockFree : Statement .deferredBlockFree := of_event rfl rfl
theorem trackerEntryDrain : Statement .trackerEntryDrain := of_event rfl rfl
theorem teamSideComplete : Statement .teamSideComplete := of_event rfl rfl
theorem launchCompletion : Statement .launchCompletion := of_event rfl rfl
theorem cancelOrderArrival : Statement .cancelOrderArrival := of_event rfl rfl
theorem siblingRetire : Statement .siblingRetire := of_event rfl rfl
theorem poolModuleOp : Statement .poolModuleOp := of_event rfl rfl
theorem reductionComplete : Statement .reductionComplete := of_event rfl rfl
theorem reductionTimeout : Statement .reductionTimeout := of_event rfl rfl
theorem peerWindowAccess : Statement .peerWindowAccess := of_event rfl rfl
theorem peerLeaseMessage : Statement .peerLeaseMessage := of_event rfl rfl
theorem registeredReceive : Statement .registeredReceive := of_event rfl rfl
theorem registeredResend : Statement .registeredResend := of_event rfl rfl
theorem laneFailure : Statement .laneFailure := of_event rfl rfl
theorem retrainEnd : Statement .retrainEnd := of_event rfl rfl
theorem stationDown : Statement .stationDown := of_event rfl rfl
theorem scaleOutSend : Statement .scaleOutSend := of_event rfl rfl
theorem scaleOutReceive : Statement .scaleOutReceive := of_event rfl rfl
theorem waitroomRetry : Statement .waitroomRetry := of_event rfl rfl
theorem scaleOutStatus : Statement .scaleOutStatus := of_event rfl rfl
theorem serviceQuantum : Statement .serviceQuantum := of_event rfl rfl
theorem sysdoneWrite : Statement .sysdoneWrite := of_event rfl rfl
theorem heartbeat : Statement .heartbeat := of_event rfl rfl
theorem heartbeatCheck : Statement .heartbeatCheck := of_event rfl rfl
theorem leaderTakeover : Statement .leaderTakeover := of_event rfl rfl
theorem frameRetire : Statement .frameRetire := of_event rfl rfl
theorem writebackPoison : Statement .writebackPoison := of_event rfl rfl
theorem coreFence : Statement .coreFence := of_event rfl rfl
theorem packageReset : Statement .packageReset := of_event rfl rfl
theorem attestationRequest : Statement .attestationRequest := of_event rfl rfl
theorem keyRotation : Statement .keyRotation := of_event rfl rfl
theorem partcfgWrite : Statement .partcfgWrite := of_event rfl rfl
theorem powerMeasurement : Statement .powerMeasurement := of_event rfl rfl
theorem thermalTrip : Statement .thermalTrip := of_event rfl rfl
theorem firmwareUpdate : Statement .firmwareUpdate := of_event rfl rfl
theorem registerWrite : Statement .registerWrite := of_event rfl rfl
theorem hostMemoryAccess : Statement .hostMemoryAccess := of_event rfl rfl
theorem hartMemoryAccess : Statement .hartMemoryAccess := of_event rfl rfl
theorem hartInterrupt : Statement .hartInterrupt := of_event rfl rfl
theorem cxlPortDown : Statement .cxlPortDown := of_event rfl rfl
theorem lockstepMismatch : Statement .lockstepMismatch := of_event rfl rfl
theorem poolMemberJoin : Statement .poolMemberJoin := of_event rfl rfl

end Laws.RoundTrip

end Sys2Proof
end

