-- ==== Sys2Proof/Safety.lean ====
section
/-! DEFINITION. The terms that statements use: what a safe step is, the invariants of the state, and what it
means that an issue delivers a result, passes, or leaves something alone. -/

namespace Sys2Proof.Machine

/-- A step that the machine completes: neither a fault nor a refusal. -/
def safeStep (s : State) : Bool :=
  match step s with
  | .next _ => true
  | _ => false

/-- Merged memory stands in its canonical form (log 1). -/
def State.memOk (s : State) : Bool := Memory.wf s.mem

/-- The thread tables of a team side's groups rise: those of the groups saved under pressure. -/
def Side.tablesOk (d : Side) : Bool := d.pressed.all fun g => g.threads.sorted

/-- The tables that are read by key have their keys rising: partitions, placement entries, launches, cores,
groups and threads, and the siblings of ballot records. -/
def State.tablesOk (s : State) : Bool :=
  s.parts.sorted && s.places.sorted && s.cores.sorted && s.launches.sorted && (s.ballots.all fun b => b.sibs.sorted) &&
  (s.cores.all fun c => c.2.groups.sorted && (c.2.groups.all fun g => g.2.threads.sorted) && c.2.side.all Side.tablesOk) &&
  s.saved.all fun v => v.sides.all fun d =>
    d.groups.sorted && (d.groups.all fun g => g.2.threads.sorted) && d.side.tablesOk

/-! ## Threads, and everything but the cores -/

/-- A thread of a core, where there is one. -/
def Core.threadAt (c : Core) (k l : Nat) : Option Thread := (c.groups.find k).bind fun g => g.threads.find l
def State.threadAt (s : State) (c k l : Nat) : Option Thread := (s.core c).threadAt k l

/-- The state without its cores, agenda and order numbers. -/
def State.rest (s : State) : State := { s with cores := [], agenda := [], order := 0 }

/-! ## The issue of an instruction -/

/-- The issue that exec of an instruction makes of the one in cur. -/
def State.issueOf (s : State) (i : Instr) : Ctx := (s.begin i.shape i.fields).1

/-- The active lanes whose sources (and the operands in held) raise no level trap (R224). -/
def Ctx.okLanes (x : Ctx) (held : List Opnd) : List Nat :=
  x.actives.filter fun l => (x.levelFault l (readFields x.sh x.f) held).isNone

/-- What those lanes read. -/
def Ctx.inputs (x : Ctx) (ka kb kc : ImmKind) (held : List Opnd) : List LaneIn :=
  (x.okLanes held).map (x.laneIn ka kb kc)

/-- Cycle in which a result is due in a latch, C slot, G register or predicate (R213). -/
def Ctx.shortTime (x : Ctx) : Nat := x.e + (latTimes x.sh.lat).1
/-- Cycle in which a result is due in the V file (R213). -/
def Ctx.fileTime (x : Ctx) : Nat := x.e + (latTimes x.sh.lat).2

/-- A write of the issue is in flight: the cycle it is due, its lane, and what it writes. -/
def State.writes (t : State) (x : Ctx) (due lane : Nat) (op : MicroOp) : Prop :=
  ∃ l ∈ (t.core x.core).landings,
    l.slot = x.slot ∧ l.lane = lane ∧ l.due = due ∧ l.eff = x.e ∧ l.tag = x.tag ∧ l.op = op

/-- The destination of a result; store data and a source in the destination field are none (R59, R62). -/
def Ctx.dest (x : Ctx) : Opnd := match x.sh.dst with | .val _ _ _ => x.f.dst | _ => .zero

/-- The number of C slot or V register whose other bits a partial write keeps: V registers below 128, C
slots from 128 (R278). -/
def Ctx.keeps (x : Ctx) : Option Nat :=
  match x.f.dst with
  | .v r _ => some r.toNat
  | .c r => some (128 + r.toNat)
  | _ => none

/-- A lane delivers a value, or the bits of mask of it, to all its destinations: the V registers, the
C slot or the co-write's C slot that the instruction names, and L0, where the push stands from e with the
old value and the result lands later (R65, R82, R213, R221, R278). -/
def State.delivers (t : State) (x : Ctx) (lane v : Nat) (mask : Word := BitVec.allOnes 32) : Prop :=
  let ctx := (x.thread lane).lv.ctx
  let whole := mask = BitVec.allOnes 32
  let base := if whole then none else x.keeps
  (∀ r d, x.dest = .v r d → ∀ j < dstRegs x.sh.dst,
    t.writes x x.fileTime lane (.v (r.toNat + j) mask (resultWord v j))) ∧
  (∀ r, x.dest = .c r → t.writes x x.shortTime lane (.c r.toNat ctx mask (resultWord v 0) base)) ∧
  (∀ r, x.f.cw = some r → x.f.dst ≠ .c r →
    t.writes x x.shortTime lane (.c r.toNat ctx mask (resultWord v 0) base)) ∧
  t.writes x x.e lane (.push ctx (BitVec.ofNat 64 (x.prior lane)) (some x.tag)) ∧
  t.writes x x.shortTime lane
    (.latch x.tag ctx (if whole then BitVec.allOnes 64 else mask.setWidth 64) (BitVec.ofNat 64 v)
      (base.map fun n => (n, 1)))

/-- The G run that the instruction names is written once, with a value (R75). -/
def State.deliversG (t : State) (x : Ctx) (v : Nat) : Prop :=
  ∀ r, x.dest = .g r → ∀ j < dstRegs x.sh.dst, t.writes x x.shortTime 0 (.g (r.toNat + j) (resultWord v j))

/-- A predicate write of a lane is in flight; a write of no predicate (P7) is none (R60). -/
def State.setsPreds (t : State) (x : Ctx) (lane : Nat) (mask val : BitVec 7) : Prop :=
  mask ≠ 0 → t.writes x x.shortTime lane (.p mask val)

/-- The mask of a single predicate destination; P7 discards (R60). -/
def predMask (o : Opnd) : BitVec 7 :=
  match o with
  | .p n _ => if n = 7 then 0 else BitVec.twoPow 7 n.toNat
  | _ => 0

/-- The lane whose result a lane delivers: itself, or with a G destination the lowest (R75). -/
def Ctx.sole (x : Ctx) (ins : List LaneIn) (a : LaneIn) : LaneIn :=
  match x.dest with
  | .g _ => ins.headD a
  | _ => a

/-- exec answers a next state in which every active lane without a level trap has delivered what fn
gives for it: a value or part of one, predicate bits, and a new SEED. -/
def Yields (s : State) (i : Instr) (ka kb kc : ImmKind) (held : List Opnd)
    (fn : Ctx → List LaneIn → LaneIn → LaneOut) : Prop :=
  ∃ t, exec i s = .next t ∧
    let x := s.issueOf i
    let ins := x.inputs ka kb kc held
    ∀ a ∈ ins,
      let o := fn x ins a
      let v := (fn x ins (x.sole ins a)).val
      t.delivers x a.lane v o.mask ∧ t.deliversG x v ∧ t.setsPreds x a.lane o.pmask o.pval ∧
      ∀ u, t.threadAt x.core x.slot a.lane = some u →
        (∀ w, o.seed = some w → u.seed = w) ∧ ∀ w, o.trappc = some w → u.trappc = w

/-- exec answers a next state in which every active lane without a level trap has delivered what v
gives for it. With a G destination that is the value of the lowest such lane (R75). -/
def Computes (s : State) (i : Instr) (ka kb kc : ImmKind) (v : Ctx → List LaneIn → LaneIn → Nat) : Prop :=
  ∃ t, exec i s = .next t ∧
    let x := s.issueOf i
    let ins := x.inputs ka kb kc []
    ∀ a ∈ ins, t.delivers x a.lane (v x ins (x.sole ins a)) ∧ t.deliversG x (v x ins (x.sole ins a))

/-- exec answers a next state in which every active lane without a level trap has delivered its bit, to
the predicate that the instruction names and to L0 (R60). -/
def Decides (s : State) (i : Instr) (k : ImmKind) (b : Ctx → List LaneIn → LaneIn → Bool) : Prop :=
  ∃ t, exec i s = .next t ∧
    let x := s.issueOf i
    let ins := x.inputs k k k []
    ∀ a ∈ ins, t.delivers x a.lane (b x ins a).toNat ∧
      t.setsPreds x a.lane (predMask x.f.dst) (if b x ins a then predMask x.f.dst else 0)

/-! ## What an issue leaves alone -/

end Sys2Proof.Machine

namespace Sys2Proof

open Machine

/-- The register instructions of fixed latency (R72, R213). -/
def Instr.registerOnly (i : Instr) : Bool :=
  match i with
  | .iaddW16 _ | .iaddW32 _ | .iadd _ | .isubW16 _ | .isub _ | .iaddc _ | .isubb _ | .iadd64 _ | .isub64 _
  | .ineg _ | .iabs _ | .imulW16 _ | .imulW32 _ | .imul _ | .imulh _ | .imad _ | .imad64 _ | .iminW16 _
  | .iminW32 _ | .imin _ | .imaxW16 _ | .imax _ | .idiff _ | .isad _ | .andW16 _ | .andW32 _ | .and _
  | .orW16 _ | .or _ | .xorW16 _ | .xor _ | .andn _ | .not _ | .logic3 _ _ | .shlW16 _ | .shlW32 _ | .shl _
  | .shrlW16 _ | .shrl _ | .shraW16 _ | .shra _ | .rotl _ | .fshl _ | .bfx _ | .bfi _ | .popc _ | .clz _
  | .ctz _ | .brev _ | .bperm _ | .icmp _ _ | .isel _ | .movW16 _ | .movW32 _ | .mov _ | .movi _ | .movhi _
  | .leaW32 _ | .lea _ | .lea64 _ | .icvt _ _ _ | .plop _ _ | .pmovPv _ | .pmovVp _ | .sread _ _
  | .swrite _ _ | .voteAll _ | .voteAny _ | .voteBallot _ | .voteUni _ | .shfl _ _ | .redux _ _ | .matchv _ _
  | .faddW16 _ | .faddW32 _ | .fadd _ | .fsub _ | .fmulW16 _ | .fmulW32 _ | .fmul _ | .ffma _ | .fminW16 _
  | .fminW32 _ | .fmin _ | .fmaxW16 _ | .fmax _ | .fcmp _ _ | .fclass _ | .frcp _ | .frsq _ | .fsqrt _
  | .fdiv _ | .fexp2 _ | .flog2 _ | .fsin _ | .fcos _ | .ftanh _ | .fscale _ | .frnd _ | .f2i _ _ _ _
  | .i2f _ _ _ _ | .fcvt _ _ _ _ _ _ _ | .dadd _ | .dsub _ | .dmul _ | .dfma _ | .dcmp _ _ | .pkadd _ _
  | .pkmul _ _ | .pkfma _ _ | .pkmm _ _ _ | .qdot4 _ _ _ | .idot4 _ _ _ => true
  | _ => false

/-- The operands that an instruction needs valid besides its sources: the destination of a partial
write (R278). -/
def Instr.held (i : Instr) : List Opnd :=
  match i with
  | .i2f into _ _ f => if elemWidth into < 32 then [f.dst] else []
  | .fcvt into _ _ _ _ _ f => if elemWidth into < 32 then [f.dst] else []
  | _ => []

/-- The instruction writes SEED or TRAPPC of its lanes (R256, R279). -/
def Instr.writesSpecial (i : Instr) : Bool :=
  match i with
  | .swrite _ _ => true
  | .fcvt _ _ _ _ sr _ _ => sr
  | _ => false

/-- The predicates that an instruction can write: its destination (R60), a carry's srcC (R236), and any
for PMOV.vp (R252). -/
def Instr.predsOf (i : Instr) : BitVec 7 :=
  match i with
  | .iaddc f | .isubb f => predMask f.c
  | .pmovVp _ => BitVec.allOnes 7
  | i => predMask i.fields.dst

end Sys2Proof

namespace Sys2Proof.Machine

/-- The same write in flight, whichever cycle it lands (R217). -/
def Landing.key (l : Landing) : Landing := { l with land := 0 }

/-- A write that an instruction of an issue may put in flight for a lane: of its destination, its co-write
slot, its predicate, the latches and the registers its dead marks vacate. -/
def Ctx.mayWrite (x : Ctx) (i : Instr) : MicroOp → Prop
  | .v n _ _ => ∃ r d, x.dest = .v r d ∧ r.toNat ≤ n ∧ n < r.toNat + dstRegs x.sh.dst
  | .c n _ _ _ _ => ∃ r : BitVec 3, n = r.toNat ∧ (x.dest = .c r ∨ x.f.cw = some r)
  | .g n _ => ∃ r, x.dest = .g r ∧ r.toNat ≤ n ∧ n < r.toNat + dstRegs x.sh.dst
  | .p mask _ => mask &&& ~~~i.predsOf = 0
  | .latch _ _ _ _ _ => True
  | .push _ _ _ => True
  | .vacate regs => regs = deadRegs x.sh x.f ++ x.vac
  | .clear _ => False
  | .group _ => False

/-- A core without its groups, writes in flight and read ports. -/
def Core.rest (c : Core) : Core := { c with groups := [], landings := [], ports := [] }

/-- A group without its threads. -/
def Group.rest (g : Group) : Group := { g with threads := [] }

/-- The thread of a lane as an issue finds it. -/
def State.before (s : State) (x : Ctx) (d j m : Nat) : Option Thread :=
  if d = x.core then x.raw.threadAt j m else s.threadAt d j m

/-- An issue leaves alone all that is not its own: everything outside its core, its core but for groups,
writes in flight and ports, its group's common fields, every thread but those of its lanes, and of these
all but the address, the cycle of the next issue and, where special is set, SEED and TRAPPC. The
writes in flight after it are those before and what the instruction may write. Lanes listed in raised have
taken a trap. -/
def State.keepsFrame (s t : State) (i : Instr) (x : Ctx) (raised : Nat → Prop) (special : Bool) : Prop :=
  t.rest = s.rest ∧
  (∀ d, d ≠ x.core → t.core d = s.core d) ∧
  (t.core x.core).rest = (s.core x.core).rest ∧
  (∀ j, ((t.core x.core).groups.find j).map Group.rest = (x.raw.groups.find j).map Group.rest) ∧
  (∀ d j m, ¬(d = x.core ∧ j = x.slot ∧ raised m) →
    if d = x.core ∧ j = x.slot ∧ m ∈ x.lanes then
      ∀ u, s.before x d j m = some u → ∃ seed pc, t.threadAt d j m =
        some { u with pc := x.nextPc, next := x.nextIssue, seed := seed, trappc := pc } ∧
        (special = false → seed = u.seed ∧ pc = u.trappc)
    else t.threadAt d j m = s.before x d j m) ∧
  ∀ l ∈ (t.core x.core).landings,
    (∃ k ∈ x.raw.landings, k.key = l.key) ∨
    (l.slot = x.slot ∧ l.eff = x.e ∧ l.tag = x.tag ∧ x.mayWrite i l.op)

/-- A lane of an issue has raised a precise cause (R443 to R446, R449), between the state before the issue
and the state after it: it has entered the launch's handler, its levels shadowed and new ones empty, its
first issue 8 cycles after the redirect; or, where there is no handler or the thread is within it, the cause
is on its way to the sorting office as a terminal fault and the lane has stopped. -/
def State.raises (s t : State) (x : Ctx) (lane cause : Nat) (addr pc : DWord) : Prop :=
  ∀ u, x.raw.threadAt x.slot lane = some u →
    (∀ p, (s.launch (s.core x.core).sideD.launch).handler = some p → u.handler = false →
      ∃ ctx, t.threadAt x.core x.slot lane = some
        { u with trapcause := BitVec.ofNat 32 cause, trapaddr := addr, trappc := pc, shadow := u.lv
                 lv := Level.empty ctx, handler := true, pc := p, next := x.e + 1 + x.stall + 8
                 wait := .none }) ∧
    ((s.launch (s.core x.core).sideD.launch).handler = none ∨ u.handler = true →
      t.threadAt x.core x.slot lane = some { u with stopped := true } ∧
      (s.now + officeTime x.core, .terminalFaultArrival (s.core x.core).sideD.launch
        { cause := BitVec.ofNat 8 cause, flags := 1, addr := addr, pc := x.pc, core := BitVec.ofNat 16 x.core
          slot := BitVec.ofNat 8 x.slot, lane := BitVec.ofNat 8 lane }) ∈ t.agenda)

/-! ## The rules' arithmetic in plain terms -/

/-- The w-bit number that a pattern stands for, unsigned or in two's complement. -/
def asInt (uns : Bool) (w n : Nat) : Int :=
  if uns then ((BitVec.ofNat w n).toNat : Int) else (BitVec.ofNat w n).toInt

/-- Narrow of R234. -/
def narrowed (uns sat : Bool) (w : Nat) (y : Int) : Nat :=
  let lo : Int := if uns then 0 else -2 ^ (w - 1)
  let hi : Int := if uns then 2 ^ w - 1 else 2 ^ (w - 1) - 1
  (BitVec.ofInt w (if sat then max lo (min hi y) else y)).toNat

/-- The mould of R235: the type code is m[1:0] and .sat is m[2] (R68). -/
def rule235 (m : BitVec 5) (F : Nat → Int → Int → Int → Int) (a : LaneIn) : Nat :=
  let uns := m.getLsbD 0
  let r := fun w k =>
    let el := fun n => asInt uns w (n / 2 ^ (w * k))
    narrowed uns (m.getLsbD 2) w (F w (el a.a) (el a.b) (el a.c))
  if m.getLsbD 1 then r 16 0 + 2 ^ 16 * r 16 1 else r 32 0

/-- The 64-bit arithmetic of R237: a and b of wa bits. -/
def rule237 (m : BitVec 5) (wa : Nat) (F : Int → Int → Int → Int) (a : LaneIn) : Nat :=
  let uns := m.getLsbD 0
  narrowed uns (m.getLsbD 2) 64 (F (asInt uns wa a.a) (asInt uns wa a.b) (asInt uns 64 a.c))

/-- A shift of R240 on the whole operand, or on each half by its half of the count. -/
def rule240 (m : BitVec 5) (F : (w : Nat) → BitVec w → Nat → BitVec w) (a : LaneIn) : Nat :=
  if m.getLsbD 1 then
    (F 16 (BitVec.ofNat 16 a.a) (a.b % 2 ^ 16)).toNat +
      2 ^ 16 * (F 16 (BitVec.ofNat 16 (a.a / 2 ^ 16)) (a.b / 2 ^ 16)).toNat
  else (F 32 (BitVec.ofNat 32 a.a) a.b).toNat

/-- A word's worth of an operand. -/
def word (n : Nat) : Word := BitVec.ofNat 32 n

/-- The predicate that a carry is written to (R236): none for P7. -/
def carryPred (o : Opnd) (co : Bool) : BitVec 7 × BitVec 7 :=
  match o with
  | .p n neg => if n = 7 then (0, 0) else (BitVec.twoPow 7 n.toNat, if co != neg then BitVec.twoPow 7 n.toNat else 0)
  | _ => (0, 0)

/-! ## Floats in plain terms -/

/-- The rational number that a finite value is. -/
def Value.rat : Value → Option ℚ
  | .fin neg n d => some ((if neg then -1 else 1) * n / d)
  | _ => none

/-- A finite value's fraction has a denominator. -/
def Value.wf : Value → Prop
  | .fin _ _ d => 0 < d
  | _ => True

/-- The mould of R264: the exact value of a function of the operands, rounded once, then .sat. -/
def rule264 (t : EFmt) (m : BitVec 5) (F : Value → Value → Value → Value) (a b c : Nat) : Nat :=
  fround t m (F (elemValue t a) (elemValue t b) (elemValue t c))

/-- The bit of a float comparison (R268). -/
def rule268 (r : FCmp) (a b : Value) : Bool :=
  let num := a ≠ .nan ∧ b ≠ .nan
  match r with
  | .eq => decide (num ∧ a.cmp b = .eq)
  | .ne => decide ¬(num ∧ a.cmp b = .eq)
  | .lt => decide (num ∧ a.cmp b = .lt)
  | .le => decide (num ∧ a.cmp b ≠ .gt)
  | .gt => decide (num ∧ a.cmp b = .gt)
  | .ge => decide (num ∧ a.cmp b ≠ .lt)
  | .num => decide num
  | .nan => decide ¬num

/-- The bit that FCLASS sets for an encoding (R269). -/
def rule269 (f : FloatFmt) (code : Nat) : Nat :=
  let m := code % 2 ^ f.mbits
  let e := code / 2 ^ f.mbits % 2 ^ f.ebits
  let neg := code.testBit (f.mbits + f.ebits)
  if e = 2 ^ f.ebits - 1 ∧ m ≠ 0 then (if m.testBit (f.mbits - 1) then 9 else 8)
  else if neg then (if e = 2 ^ f.ebits - 1 then 0 else if e ≠ 0 then 1 else if m ≠ 0 then 2 else 3)
  else if e = 2 ^ f.ebits - 1 then 7 else if e ≠ 0 then 6 else if m ≠ 0 then 5 else 4

/-- k units of u are what Pick (R96, R100) takes for a magnitude x of a sign, where it lies between
multiples of u. -/
def picks (rm : Rm) (neg : Bool) (x u : ℝ) (k : Nat) : Prop :=
  let lo := ⌊x / u⌋₊
  let past := x - lo * u
  if past = 0 then k = lo
  else
    match rm with
    | .rne => (past < u / 2 → k = lo) ∧ (u / 2 < past → k = lo + 1) ∧
        (past = u / 2 → (k = lo ∨ k = lo + 1) ∧ k % 2 = 0)
    | .rz => k = lo
    | .ru => k = if neg then lo else lo + 1
    | .rd => k = if neg then lo + 1 else lo
    | .sr seed => k = if seed.toNat < ⌊past / u * 2 ^ 32⌋₊ then lo + 1 else lo

/-- What a finite result beyond the largest becomes (R97): some infinity, NaN or the largest value. -/
def rule97 (f : FloatFmt) (satf : Bool) (rm : Rm) (neg : Bool) : Value → Prop := fun y =>
  let largest := f.value (2 ^ (f.ebits + f.mbits) * neg.toNat + f.maxCode)
  let toMax : Bool := match rm with | .rne => false | .sr _ => false | .rz => true | .ru => neg | .rd => !neg
  if satf ∨ (f.hasInf = false ∧ f.hasNan = false) ∨ toMax then y = largest
  else if f.hasInf then y = .inf neg else y = .nan

/-- code is what Round (R96) makes of a positive real x with a sign. -/
def Rounds (f : FloatFmt) (satf : Bool) (rm : Rm) (neg : Bool) (x : ℝ) (code : Nat) : Prop :=
  ∃ (n : ℤ) (k : ℕ), (2 : ℝ) ^ n ≤ x ∧ x < (2 : ℝ) ^ (n + 1) ∧
    let u : ℝ := (2 : ℝ) ^ (max n (1 - (f.bias : ℤ)) - (f.mbits : ℤ))
    let sign : ℝ := if neg then -1 else 1
    picks rm neg x u k ∧ code < 2 ^ (1 + f.ebits + f.mbits) ∧
    if (∃ q, (f.value f.maxCode).rat = some q ∧ (q : ℝ) < k * u) then rule97 f satf rm neg (f.value code)
    else (f.value code).isNeg = neg ∧ ∃ q, (f.value code).rat = some q ∧ (q : ℝ) = sign * (k * u)

/-! ## Issues that are no register instructions -/

/-- A thread of an issue goes on at an address, may issue again from a cycle, and is otherwise as it was. -/
def State.goesTo (t : State) (x : Ctx) (lane : Nat) (pc : DWord) (next : Nat) : Prop :=
  ∀ u, x.raw.threadAt x.slot lane = some u →
    t.threadAt x.core x.slot lane = some { u with pc := pc, next := next }

/-- A thread of an issue goes on at the next instruction. -/
def State.passes (t : State) (x : Ctx) (lane : Nat) : Prop := t.goesTo x lane x.nextPc x.nextIssue

/-- A write that a transfer may put in flight: its link or counter, and the registers that its dead marks
vacate. -/
def Ctx.linkWrite (x : Ctx) : MicroOp → Prop
  | .v n _ _ => ∃ r d, x.f.dst = .v r d ∧ r.toNat ≤ n ∧ n < r.toNat + dstRegs x.sh.dst
  | .g n _ => ∃ r, x.f.dst = .g r ∧ r.toNat ≤ n ∧ n < r.toNat + dstRegs x.sh.dst
  | .c n _ _ _ _ => ∃ r : BitVec 3, n = r.toNat ∧ x.f.dst = .c r
  | .vacate regs => regs = deadRegs x.sh x.f ++ x.vac
  | _ => False

/-- An issue changes nothing but its own lanes' threads, its writes in flight (those of allowed), and the read
ports of its core. -/
def State.keepsOthers (s t : State) (x : Ctx) (allowed : MicroOp → Prop) : Prop :=
  t.rest = s.rest ∧
  (∀ d, d ≠ x.core → t.core d = s.core d) ∧
  (t.core x.core).rest = (s.core x.core).rest ∧
  (∀ j, ((t.core x.core).groups.find j).map Group.rest = (x.raw.groups.find j).map Group.rest) ∧
  (∀ d j m, ¬(d = x.core ∧ j = x.slot ∧ m ∈ x.lanes) → t.threadAt d j m = s.before x d j m) ∧
  ∀ l ∈ (t.core x.core).landings,
    (∃ k ∈ x.raw.landings, k.key = l.key) ∨ (l.slot = x.slot ∧ l.eff = x.e ∧ l.tag = x.tag ∧ allowed l.op)

/-- What a control transfer does (R200 to R202): an inactive lane passes; a lane with a level trap raises it;
a lane that falls through passes; an odd target raises MISALIGN; else the lane goes to its target, b cycles
later than it would pass. -/
def State.transfers (s t : State) (x : Ctx) (b : Nat) (target : Nat → Option DWord) : Prop :=
  x.lanes.Nodup → ∀ l ∈ x.lanes,
    if x.active l = false then t.passes x l
    else
      match x.levelFault l (readFields x.sh x.f) with
      | some (cause, code) => s.raises t x l cause (BitVec.ofNat 64 code) x.pc
      | none =>
        match target l with
        | none => t.passes x l
        | some a => if a.getLsbD 0 then s.raises t x l 5 a x.pc else t.goesTo x l a (x.nextIssue + b)

/-- The lanes of a transfer that complete: active, without a level trap, and not to an odd target. -/
def Ctx.completes (x : Ctx) (target : Nat → Option DWord) (l : Nat) : Prop :=
  l ∈ x.actives ∧ x.levelFault l (readFields x.sh x.f) = none ∧ ∀ a, target l = some a → a.getLsbD 0 = false

/-! ## Memory accesses -/

/-- One lane of an issue is active, and it raises no level trap. -/
def Ctx.alone (x : Ctx) (l : Nat) : Prop :=
  x.actives = [l] ∧ x.levelFault l (readFields x.sh x.f) = none

/-- Whatever agent reads them, the bytes are the same, but for those whose place is in past. -/
def State.sameBytes (s t : State) (past : Nat → Prop := fun _ => False) : Prop :=
  ∀ v a, ¬past (s.routeRead a) → t.viewByte v a = s.viewByte v a

/-- What is no register in a thread: where it stands and what it waits for. -/
def Thread.regs (u : Thread) : Thread :=
  { u with pc := 0, next := 0, wait := .none, await := none, sig := none, stopped := false, l1since := 0
           acqNext := none, loadsDone := 0, storesDone := 0, pubDone := 0, pubs := [], workDone := 0 }

/-- No register of any thread or group changes, and no write is put in flight. -/
def State.keepsRegs (s t : State) : Prop :=
  ∀ d, (t.core d).landings = (s.core d).landings ∧ ∀ j,
    ((t.core d).groups.find j).map (·.g) = ((s.core d).groups.find j).map (·.g) ∧
    ∀ m, (t.threadAt d j m).map Thread.regs = (s.threadAt d j m).map Thread.regs

/-- A lane has raised a terminal fault of its own (R449): it has stopped, and the fault is on its way to
the sorting office. -/
def State.terminates (s t : State) (x : Ctx) (lane cause : Nat) (addr : DWord) : Prop :=
  (∀ u, t.threadAt x.core x.slot lane = some u → u.stopped = true) ∧
  (s.now + officeTime x.core, Event.terminalFaultArrival (s.core x.core).sideD.launch
    { cause := BitVec.ofNat 8 cause, flags := 0, addr := addr, pc := x.pc, core := BitVec.ofNat 16 x.core
      slot := BitVec.ofNat 8 x.slot, lane := BitVec.ofNat 8 lane }) ∈ t.agenda

/-- The words that a lane's destination receives of an operation that has been performed are known; they
are in flight to the V file (R218). -/
def State.returns (t : State) (x : Ctx) (lane regs v : Nat) : Prop :=
  ∀ r d, x.f.dst = .v r d → ∃ w ∈ (t.core x.core).vres,
    w.slot = x.slot ∧ w.lane = lane ∧ w.tag = x.tag ∧ w.reg = r.toNat ∧ w.n = regs ∧
      w.vals = natWords regs v ∧ w.due.isSome

/-- A global access of one lane (R323, R325, R334). A misaligned address raises MISALIGN. Else the issue
passes, changing nothing but its lanes, and gives a state s1; the address is checked and translated, which
gives a state s2 and a target, or stops the lane with the fault of the check; P says what follows. s0
is s, with the demotion of its scope counted. -/
def Accesses (s s0 : State) (i : Instr) (n : Nat) (need : Need) (addr : Ctx → Nat → DWord)
    (P : Ctx → Nat → State → Target → State → Prop) : Prop :=
  let x := s.issueOf i
  s.memOk = true → ∀ l, x.alone l → ∃ t, exec i s = .next t ∧
    if (addr x l).toNat % n ≠ 0 then s.raises t x l 5 (addr x l) x.pc
    else ∃ s1, s0.keepsOthers s1 x x.linkWrite ∧ (∀ m ∈ x.lanes, s1.passes x m) ∧ s1.keepsRegs t ∧
      match s1.resolveLane x.core x.slot l (addr x l).toNat need with
      | .error c => s1.terminates t x l c (addr x l) ∧ s1.sameBytes t
      | .ok (tgt, s2) => P x l s2 tgt t

/-- Nothing keeps a core's access to a physical address back: no handover of its page, and no earlier access
to its line is held (R178, R333, R450). -/
def State.lets (s : State) (core pa : Nat) : Prop :=
  s.needsHandover pa = false ∧ ∀ h ∈ s.held, h.core = core → h.pa / 128 ≠ pa / 128

/-- The core's staging memory takes a store to a place without an early publication (R386). -/
def State.takesStore (s : State) (core q : Nat) : Prop :=
  s.hasStagingLine core q = true ∨ s.stagingLines core < 4096

/-- A reader is a core that holds the same team side as a core (R372). -/
def State.sameSide (s : State) (core : Nat) (v : Viewer) : Prop :=
  ∃ c, v = .core c ∧ (s.core c).side.isSome ∧ (s.core c).sideD.launch = (s.core core).sideD.launch ∧
    (s.core c).sideD.team = (s.core core).sideD.team ∧ (s.core c).sideD.side = (s.core core).sideD.side

/-- The granules of a core and their tags stand in canonical form. -/
def Core.sramOk (c : Core) : Bool := c.sram.canon 0 && c.tags.canon 0

/-- So do those of every core and every saved side. -/
def State.sramOk (s : State) : Bool :=
  s.cores.all (fun c => c.2.sramOk) &&
    s.saved.all fun v => v.sides.all fun d => d.sram.canon 0 && d.tags.canon 0

/-- A byte of a core's granules. -/
def State.sramByte (s : State) (core a : Nat) : Byte := (s.core core).sram.get 0 a

/-- The cores of the team whose side a core holds, side 0 first. -/
def State.teamOf (s : State) (core : Nat) : List Nat :=
  match s.coreTeam core with
  | some t => t.cores
  | none => [core]

/-- The core and the offset that a scratchpad offset names, or a cluster word (R323, R324). -/
def State.scratchAt (s : State) (core : Nat) (cluster : Bool) (o : Nat) : Nat × Nat :=
  if cluster then (core / 8 * 8 + o / 2 ^ 24 % 8, o % 2 ^ 20)
  else if o < (s.core core).spBytes then ((s.teamOf core).headD core, o)
  else ((s.teamOf core).getD 1 core, o - (s.core core).spBytes)

/-- An access of n bytes lies within the team's scratchpad, or within the target's granules with the word's
zero fields clear (R323, R324). -/
def State.scratchFits (s : State) (core : Nat) (cluster : Bool) (o n : Nat) : Bool :=
  if cluster then o / 2 ^ 27 = 0 ∧ o / 2 ^ 20 % 16 = 0 ∧ o % 2 ^ 20 + n ≤ (s.core core).spBytes
  else o + n ≤ (s.teamOf core).length * (s.core core).spBytes

/-- A scratchpad access of one lane (R323 to R325): a misaligned offset raises MISALIGN, one out of range
SCRATCH_RANGE. Else the issue passes, and P says of the target core, the offset on it and the state
after what follows. -/
def Scratches (s s0 : State) (i : Instr) (n : Nat) (cluster : Bool) (addr : Ctx → Nat → Nat)
    (P : Ctx → Nat → Nat → Nat → State → Prop) : Prop :=
  let x := s.issueOf i
  ∀ l, x.alone l → ∃ t, exec i s = .next t ∧
    if addr x l % n ≠ 0 then s.raises t x l 5 (BitVec.ofNat 64 (addr x l)) x.pc
    else if s.scratchFits x.core cluster (addr x l) n = false then
      s.raises t x l 9 (BitVec.ofNat 64 (addr x l)) x.pc
    else
      let place := s.scratchAt x.core cluster (addr x l)
      ∃ s1, s0.keepsOthers s1 x x.linkWrite ∧ (∀ m ∈ x.lanes, s1.passes x m) ∧ s1.keepsRegs t ∧
        P x l place.1 place.2 t

/-- Every byte of every core's granules and every granule's tag is the same, but for the bytes bs stored at
an offset of a core's scratchpad, whose granule has the tag 0. -/
def State.storesScratch (s t : State) (core off : Nat) (bs : List Byte) : Prop :=
  let a := (s.core core).spBase + off
  ∀ d k,
    t.sramByte d k = (if d = core ∧ a ≤ k ∧ k < a + bs.length then bs.getD (k - a) 0 else s.sramByte d k) ∧
    (t.core d).tags.get 0 k = (if d = core ∧ bs ≠ [] ∧ k = a / 16384 then 0 else (s.core d).tags.get 0 k)

/-- No granule changes. -/
def State.keepsScratch (s t : State) : Prop :=
  ∀ d k, t.sramByte d k = s.sramByte d k ∧ (t.core d).tags.get 0 k = (s.core d).tags.get 0 k

/-- An access that found no team of the launch on its target is counted (R335). -/
def State.countsDrop (s t : State) (core : Nat) : Prop :=
  (t.part (s.corePart core)).xdrop = (s.part (s.corePart core)).xdrop + 1

/-- The scope of an instruction as it executes under its partition's ceiling, and the state with a demotion
counted (R370). -/
def State.scoped (s : State) (i : Instr) : Nat × State := s.demote s.cur.core (i.fields.mod.toNat % 8)

/-- One lane of an issue is active. Exec answers a next state; on the way to it the issue passes, changing
nothing but its lanes, which gives a state s1; after it no register changes. P says what else holds of
s1 and the next state. s0 is s, with the demotion of its scope counted. -/
def Proceeds (s s0 : State) (i : Instr) (P : Ctx → Nat → State → State → Prop) : Prop :=
  let x := s.issueOf i
  ∀ l, x.alone l → ∃ t, exec i s = .next t ∧
    ∃ s1, s0.keepsOthers s1 x x.linkWrite ∧ (∀ m ∈ x.lanes, s1.passes x m) ∧ s1.keepsRegs t ∧ P x l s1 t

/-- The cores that an ICINV of a scope reaches (R339). -/
def State.scopeHas (s : State) (core scope d : Nat) : Bool :=
  match scope with
  | 0 => d = core
  | 1 => d / 2 = core / 2
  | 2 => d / 8 = core / 8
  | 3 => d / 64 = core / 64
  | _ => decide (d < 384) && (s.part (s.corePart core)).clmask.getLsbD (d / 8)

/-- A thread of an issue comes to wait: at the instruction, or for the answer to a check with the next
address in its PC (R191, R225, R527). -/
def State.waitsAt (t : State) (x : Ctx) (lane : Nat) (w : Wait) (block : Bool) : Prop :=
  ∀ u, x.raw.threadAt x.slot lane = some u → ∃ a : Await,
    a.e = x.e ∧ a.stall = x.stall ∧ a.pc = x.pc ∧ a.npc = x.nextPc ∧ a.block = block ∧
    t.threadAt x.core x.slot lane = some { u with
      wait := w, await := some a, next := x.nextIssue
      pc := if w = .answer ∧ block = false then x.nextPc else x.pc }

/-- The group of an issue is Blocked, and every thread's C slots and latches are invalid (R146, R225). -/
def State.blocks (t : State) (x : Ctx) : Prop :=
  ∀ g, (t.core x.core).groups.find x.slot = some g →
    (g.st = .blocked ∨ (x.raw.group x.slot).st = .saved ∨ (x.raw.group x.slot).st = .retired) ∧
    ∀ l u, g.threads.find l = some u → u.lv = Level.empty x.tag

/-- A blocking instruction takes effect on its group at e (R146, R225, R228): the group is Blocked, every
thread's C slots and latches become invalid and the waiting lanes' dead registers are vacated; nothing else
changes. -/
def State.blocksTo (s t : State) (x : Ctx) : Prop :=
  t.rest = s.rest ∧ (∀ e ∈ s.agenda, e ∈ t.agenda) ∧ (∀ d, d ≠ x.core → t.core d = s.core d) ∧
  (t.core x.core).rest = (s.core x.core).rest ∧
  (∀ j, j ≠ x.slot → (t.core x.core).groups.find j = (s.core x.core).groups.find j) ∧
  (∀ g, (s.core x.core).groups.find x.slot = some g → ∃ h, (t.core x.core).groups.find x.slot = some h ∧
    h.g = g.g ∧ h.width = g.width ∧
    (g.st ≠ .saved → g.st ≠ .retired → h.st = .blocked ∧ h.since = x.e) ∧
    ∀ l u, g.threads.find l = some u → ∃ regs,
      (regs = [] ∨ regs = deadRegs x.sh x.f ++ x.vac) ∧
      (l ∈ x.okLanes [] → regs = deadRegs x.sh x.f ++ x.vac) ∧
      h.threads.find l = some { u.vacate regs with lv := Level.empty x.tag }) ∧
  ∀ l ∈ (t.core x.core).landings, l ∈ (s.core x.core).landings

/-- An issue in which every active lane without a level trap comes to wait (R527); a blocking one with an active
lane then takes effect on its group (R225). -/
def State.awaits (s t : State) (x : Ctx) (w : Wait) (block : Bool) : Prop :=
  ∃ s1, s.keepsOthers s1 x x.linkWrite ∧
  (x.lanes.Nodup → ∀ l ∈ x.lanes,
    if x.active l = false then s1.passes x l
    else
      match x.levelFault l (readFields x.sh x.f) with
      | some (cause, code) => s.raises s1 x l cause (BitVec.ofNat 64 code) x.pc
      | none => s1.waitsAt x l w block) ∧
  if block = true ∧ x.actives ≠ [] then s1.blocksTo t x else t = s1

/-- A check at the side 0 core has failed (R443, R527): the lane raises a precise cause at its instruction, and
the registers of its dead marks hold their values again. -/
def State.trapsLate (s t : State) (core slot lane cause : Nat) (addr : DWord) : Prop :=
  let l := (s.core core).sideD.launch
  ∀ u a, s.threadAt core slot lane = some u → u.await = some a →
    (∀ p, (s.launch l).handler = some p → u.handler = false → ∃ ctx next,
      a.e + 1 + a.stall + 8 ≤ next ∧ t.threadAt core slot lane = some
        { u.unvacate a.dead with
          trapcause := BitVec.ofNat 32 cause, trapaddr := addr, trappc := a.pc, shadow := u.lv
          lv := Level.empty ctx, handler := true, pc := p, next := next, wait := .none, await := none }) ∧
    ((s.launch l).handler = none ∨ u.handler = true →
      (∀ v, t.threadAt core slot lane = some v → v.stopped = true) ∧
      (s.now + officeTime core, .terminalFaultArrival l
        { cause := BitVec.ofNat 8 cause, flags := 1, addr := addr, pc := a.pc, core := BitVec.ofNat 16 core
          slot := BitVec.ofNat 8 slot, lane := BitVec.ofNat 8 lane }) ∈ t.agenda)

/-- The cause is CONV_MISUSE. -/
def State.misused (s t : State) (core slot lane : Nat) (code : Nat) : Prop :=
  s.trapsLate t core slot lane 8 (BitVec.ofNat 64 code)

/-- A lane's wait is over: it stands at the next address and may issue from a cycle (R413). -/
def State.goesOn (s t : State) (core slot lane at_ : Nat) : Prop :=
  ∀ u a, s.threadAt core slot lane = some u → u.await = some a →
    t.threadAt core slot lane = some
      { u with pc := a.npc, wait := .none, await := none, next := max u.next at_ }

/-- A lane that waits for the destination of an instruction has it: the words are in flight to the V file
(R218). -/
def State.answers (t : State) (core slot lane tag : Nat) (vals : List Word) : Prop :=
  ∀ w ∈ (t.core core).vres, w.slot = slot → w.lane = lane → w.tag = tag → w.vals = vals ∧ w.due.isSome

/-- The event of a row comes due: exec of that row answers a next state of which P holds. -/
def State.onEvent (s : State) (i : Instr) (e : Event) (P : State → Prop) : Prop :=
  s.event = e → ∃ t, exec i s = .next t ∧ P t

/-- The barrier after an arrival (R413). -/
def Barrier.after (x : Barrier) (index : Nat) (count : BitVec 24) (live : Nat) : Barrier :=
  let n := if x.arr = 0 then count else x.n
  let pend := x.pend.put index x.gen
  if (if n = 0 then live else n.toNat) ≤ (x.arr + 1).toNat then
    { gen := x.gen + 1, arr := 0, n := n, pend := pend.filter fun p => p.2 != x.gen }
  else { gen := x.gen, arr := x.arr + 1, n := n, pend := pend }

/-- The relation of WAITC (R404) on words of its width. -/
def rule404 (r : WRel) (uns : Bool) (x y : BitVec w) : Bool :=
  match r with
  | .eq => x = y
  | .ne => x ≠ y
  | .lt => if uns then x < y else x.slt y
  | .le => if uns then x ≤ y else x.sle y
  | .gt => if uns then y < x else y.slt x
  | .ge => if uns then y ≤ x else y.sle x
  | .any => x &&& y ≠ 0
  | .none => x &&& y = 0

/-- The condition of a lane as it stands at the home slice: read as the lane's thread sees it there. -/
def State.condMet (s : State) (c : CondWait) : Bool :=
  let v := leNat (s.view (.core c.core) (s.routeRead c.pa) (if c.w64 then 8 else 4))
  if c.w64 then rule404 c.rel c.uns (BitVec.ofNat 64 v) c.value
  else rule404 c.rel c.uns (BitVec.ofNat 32 v) (c.value.setWidth 32)

/-- What an evaluation of a parked condition of this package's memory comes to (R405, R406): met, the lane has
its status and goes on; unmet, it stays parked; at poison the lane stops. -/
def State.evaluates (s t : State) (c : CondWait) : Prop :=
  let n := if c.w64 then 8 else 4
  if s.needsHandover c.pa then c ∈ t.conds
  else if s.poisoned (s.routeRead c.pa) n then
    (∀ d ∈ t.conds, d.stamp ≠ c.stamp) ∧ ∀ u, t.threadAt c.core c.slot c.lane = some u → u.stopped = true
  else if s.condMet c then
    (∀ d ∈ t.conds, d.stamp ≠ c.stamp) ∧ t.answers c.core c.slot c.lane c.tag [0x100] ∧
      ∀ u, t.threadAt c.core c.slot c.lane = some u → u.wait = .none ∧ u.acqNext = some c.scope
  else c ∈ t.conds

/-! ## Queues (R110 to R122, R130) -/

/-- A field of n bytes of a queue's descriptor, as an agent reads it (R110). -/
def State.qfield (s : State) (v : Viewer) (qpa off n : Nat) : Nat := leNat (s.view v (qpa + off) n)

/-- An address lies in a line that holds a leaf entry of a translation: of the page in both stages, or of the first
stage's tables (R159). -/
def State.tableLine (s : State) (part : Nat) (z : Xlat) (a : Nat) : Prop :=
  let leaf := fun (p : Nat) => a / 128 = s.routeRead p / 128
  leaf z.onePa ∨ leaf z.two.pteAddr ∨ ∃ g ∈ z.path, ∃ p, s.walkG part g z.small = .ok p ∧ leaf p.pteAddr

/-- No move copies the line of an address next (R174). -/
def State.clears (s : State) (pa : Nat) : Prop := ∀ hub, s.routeWrite pa ≠ .stall hub

/-- What R116 says becomes of an operation: denied; full or empty; kept back, in a state that differs in some bytes;
its slot has no translation that allows it; or it moves a record, at a count, by way of the slot's virtual address and
translation. -/
inductive QueueRule where
  | denied
  | blocked
  | later (past : Nat → Prop)
  | unmapped (va : Nat)
  | moves (count va : Nat) (z : Xlat)

/-- The partition that an operation is made for: a service pair works for the queue's own (R112). -/
def State.worksFor (s : State) (who : Requester) (own : Nat) : Nat :=
  match who with
  | .hart h => if 288 ≤ h then own else s.reqPart who
  | .lane _ _ _ => s.reqPart who

/-- The root of the ring slot's translation. -/
def State.worksThrough (s : State) (who : Requester) (part : Nat) : DWord :=
  match who with
  | .hart _ => (s.part part).datp
  | .lane _ _ _ => s.reqDatp who

/-- An access of the requester's own core keeps its operation back: one to the line is held, or a record for the line
finds no staging line (R333, R386). -/
def State.ownHeld (s : State) (w : QueueWait) : Bool :=
  match w.who with
  | .lane core _ _ => !w.sp && ((s.held.any fun h =>
      h.core == core && h.pa / 128 == w.linePa / 128 && decide (h.id ≤ s.order)) || (!w.enq && s.stagingFull core w.linePa))
  | .hart _ => false

/-- R110 to R112, R116, R121, R178: what becomes of an operation at its descriptor's home slice. -/
def State.rule116 (s : State) (w : QueueWait) : QueueRule :=
  let q := s.qfield (s.reqViewer w.who) w.qpa
  let flags := q 11 1
  let kind := q 9 1
  let part := s.worksFor w.who (q 13 1)
  let pair := match w.who with | .hart h => decide (288 ≤ h) | .lane _ _ _ => false
  if (s.needsHandover w.qpa = true ∨ (w.sp = false ∧ s.needsHandover w.linePa = true)) ∨ s.ownHeld w = true then
    .later fun _ => False
  else if flags % 2 = 0 ∨ 4 ≤ flags ∨ 4 ≤ kind ∨ 16 < q 8 1 ∨ q 0 8 % 128 ≠ 0 ∨ (flags = 3 ∧ kind ≠ 1) ∨
      q 13 1 ≠ part ∨ (if w.enq then 2 ≤ kind else kind = 1 ∨ (kind = 2 ∧ pair = false)) then .denied
  else if (q 24 8 + 2 ^ 64 - q 16 8) % 2 ^ 64 = (if w.enq then 2 ^ q 8 1 else 0) then .blocked
  else
    let count := q (if w.enq then 24 else 16) 8
    let va := (q 0 8 + 128 * (count % 2 ^ q 8 1)) % 2 ^ 64
    match s.xlate part (s.worksThrough w.who part) va with
    | .error _ => .unmapped va
    | .ok z =>
      if (if w.enq then z.w else z.r) = true ∧ tierOf z.pa ≠ none ∧ s.poolOk part z.pa = true then
        if s.needsHandover z.pa then .later (s.tableLine part z) else .moves count va z
      else .unmapped va

/-- What an agent reads after a queue has written a count to its descriptor's field and, where the record
is inserted, the record to its slot. -/
def State.moved (s t : State) (field count slot : Nat) (rec : List Byte) (past : Nat → Prop) : Prop :=
  let r := s.routeRead
  ∀ v a, ¬past (r a) → t.viewByte v a =
    if r field ≤ r a ∧ r a < r field + 8 then (leBytes 8 count).getD (r a - r field) 0
    else if r slot ≤ r a ∧ r a < r slot + rec.length then rec.getD (r a - r slot) 0
    else s.viewByte v a

/-- The 128 bytes of the line of an ENQ, as its requester sees them; none where they hold an uncorrectable
error. -/
def State.record (s : State) (w : QueueWait) : Option (List Byte) :=
  match w.who, w.sp with
  | .lane core _ _, true =>
    let place := fun k => s.scratchAt core false (w.line.toNat + k)
    if (List.range 128).any fun k => (s.core (place k).1).spPoisoned (place k).2 1 then none
    else some ((List.range 128).map fun k => s.sramByte (place k).1 ((s.core (place k).1).spBase + (place k).2))
  | _, _ =>
    let p := s.routeRead w.linePa
    if s.poisoned p 128 then none else some (s.view (s.reqViewer w.who) p 128)

/-- A record has been taken to the line of a DEQ: an ordinary store of a thread or of a hart, or a store to
the scratchpad. Every reader for whom the store is performed reads it. -/
def State.takes (s t : State) (w : QueueWait) (bytes : List Byte) : Prop :=
  match w.who with
  | .lane core _ _ =>
    if w.sp then
      s.sramOk = true → w.line.toNat + 128 ≤ (s.teamOf core).length * (s.core core).spBytes → ∀ k < 128,
        let p := s.scratchAt core false (w.line.toNat + k)
        t.sramByte p.1 ((s.core p.1).spBase + p.2) = bytes.getD k 0
    else (s.core core).side.isSome = true → s.takesStore core (s.routeRead w.linePa) →
      ∀ v, s.sameSide core v → ∀ a, ∀ k < 128, s.routeRead a = s.routeRead w.linePa + k →
        t.viewByte v a = bytes.getD k 0
  | .hart _ => ∀ v a, ∀ k < 128, s.routeRead a = s.routeRead w.linePa + k → t.viewByte v a = bytes.getD k 0

/-- Nothing stands in the way of a record's move: no copy of a line is under way for the lines it touches (R174), none
of these holds an entry of the tables that lead to the slot, and no access of the core to the line is held. -/
def State.mayMove (s : State) (w : QueueWait) (z : Xlat) : Prop :=
  (∀ a, a = w.qpa ∨ a = z.pa ∨ (w.sp = false ∧ a = w.linePa) →
    s.clears a ∧ ¬s.tableLine z.part z (s.routeRead a)) ∧
  ∀ core slot lane, w.who = .lane core slot lane → ∀ h ∈ s.held, h.core = core → h.pa / 128 ≠ w.linePa / 128

/-- A record moves (R116, R117, R121): the slot and TAIL, or HEAD and the requester's line, are written. A line that is
a descriptor's own takes no store (R111). -/
def State.movesRecord (s t : State) (w : QueueWait) (count : Nat) (z : Xlat) : Prop :=
  let tab := s.tableLine z.part z
  if w.enq then ∀ bytes, s.record w = some bytes → s.moved t (w.qpa + 24) (count + 1) z.pa bytes tab
  else
    let bytes := s.view .merged z.pa 128
    let line := s.routeRead w.linePa
    if w.sp then s.moved t (w.qpa + 16) (count + 1) z.pa [] tab ∧ s.takes t w bytes
    else if (s.knowQueue z.part w.qpa).dropsStore w.linePa bytes then s.moved t (w.qpa + 16) (count + 1) z.pa [] tab
    else s.takes t w bytes ∧ ((∀ core k l, w.who = .lane core k l → s.takesStore core line) →
      s.moved t (w.qpa + 16) (count + 1) z.pa [] (fun a => tab a ∨ (line ≤ a ∧ a < line + 128)))

/-- DONE with OK and the count's low bits (R116). -/
def okCount (count : Nat) : Word := BitVec.ofNat 32 (0x100 + 512 * (count % 2 ^ 23))

/-- What a queue operation does: its requester has its status, has a fault, waits for the queue, or is kept back; the
queue changes only where a record moves (R116, R117, R121, R178). -/
def State.queues (s t : State) (w : QueueWait) (answered : Word → Prop) (fault : Nat → DWord → Prop)
    (waits kept : Prop) : Prop :=
  match s.rule116 w with
  | .denied => s.sameBytes t ∧ answered 0x109
  | .blocked => s.sameBytes t ∧ waits
  | .later past => s.sameBytes t past ∧ kept
  | .unmapped va => s.sameBytes t ∧ fault 0x11 (BitVec.ofNat 64 va)
  | .moves count va z =>
    s.mayMove w z →
      if w.enq ∧ s.record w = none then s.sameBytes t ∧ fault 0x12 w.line
      else if w.enq = false ∧ s.poisoned z.pa 128 = true then s.sameBytes t ∧ fault 0x12 (BitVec.ofNat 64 va)
      else answered (okCount count) ∧ s.movesRecord t w count z

/-- A hart has the status of its queue operation in a register and goes on (R122). -/
def State.hartGets (s t : State) (h rd : Nat) (st : Word) : Prop :=
  t.hart h = { s.hart h with
    x := if rd = 0 then (s.hart h).x else (s.hart h).x.put rd (st.setWidth 64), pc := (s.hart h).pc + 4, parked := false }

/-- A hart takes an exception (R122). -/
def State.hartTraps (s t : State) (h cause : Nat) (tval : DWord) : Prop :=
  t.hart h = { s.hart h with
    epc := (s.hart h).pc, cause := BitVec.ofNat 64 cause, tval := tval, pc := (s.hart h).tvec &&& ~~~3, parked := false }

/-- A parked operation has been tried again (R119). -/
def State.retries (s t : State) (w : QueueWait) : Prop :=
  let gone := ∀ d ∈ t.queueWaits, d.id ≠ w.id
  let has := fun (st : Word) => gone ∧ match w.who with
    | .lane core slot lane => t.answers core slot lane w.tag [st] ∧ ∀ u, t.threadAt core slot lane = some u →
        (w.wait = true → u.wait = .none) ∧ (w.enq = false → ∀ c, u.wait ≠ .held c)
    | .hart h => s.hartGets t h w.tag st
  let stays := (∀ d, d ∈ t.queueWaits ↔ d ∈ s.queueWaits) ∧ ∀ core, (t.core core).vres = (s.core core).vres
  s.queues t w has
    (fun cause addr => gone ∧ match w.who with
      | .lane core slot lane => ∀ u, t.threadAt core slot lane = some u → u.stopped = true
      | .hart h => s.hartTraps t h (if cause = 0x12 then 19 else if w.enq then 15 else 13) addr)
    (if w.wait then stays else has (if w.enq then 0x101 else 0x102)) stays

/-! ## Placement (R162 to R190) -/

/-- The frame whose entry describes the data that a page of a launch reaches (R170); none where the page is not leased
or has no translation that R157 and R158 accept (R187). -/
def State.frameAt (s : State) (launch a : Nat) : Option Nat :=
  let l := s.launch launch
  if canonical a = false ∨ isWindow a = true ∨ l.leased (a / 65536) Need.any = false then none
  else match s.xlate l.part l.datp a with
    | .ok z => if tierOf z.pa = none then none else some (s.entryFrame (z.pa / 65536))
    | .error _ => none

/-- What R187 says of PIN or UNPIN: it ends with a status and changes nothing; it waits; it unpins; it pins
frames, of which some move. -/
inductive PinRule where
  | ends (st : Nat)
  | waits
  | unpins (frames : List Nat)
  | pins (frames moves : List Nat)

/-- R186, R187. -/
def State.rule187 (s : State) (launch va n target : Nat) (unpin : Bool) : PinRule :=
  let part := (s.launch launch).part
  let tier := target % 4
  let hub := target / 4 % 4
  let malformed := 64 ≤ target ∨ target / 16 % 4 ≠ 0 ∨ (tier = 3 ∧ hub ≠ 3)
  if va % 65536 ≠ 0 ∨ n = 0 ∨ 4096 < n ∨ (unpin = false ∧ malformed) then .ends 0x10A
  else
    let pages := (List.range n).map fun k => s.frameAt launch (va + 65536 * k)
    if none ∈ pages then .ends 0x109
    else
      let frames := (pages.filterMap id).eraseDups
      if ∃ f ∈ frames, (s.place f).migr = true then .waits
      else if unpin then .unpins frames
      else
        let want := match tier with | 1 => some Tier.hbm | 2 => some .lp | 3 => some .pool | _ => none
        match want with
        | none =>
          let q := (s.part part).qpin
          if q.limit < q.used + (frames.filter fun f => !(s.place f).pin).length then .ends 0x903 else .pins frames []
        | some u =>
          let own := fun (f : Nat) => ((frameTier f).map (·.2)).getD 0
          let h := fun (f : Nat) => if hub = 3 then own f else hub
          let there := fun (f : Nat) => (frameTier f).map (·.1) = some u ∧ (u = .pool ∨ own f = h f)
          let d := frames.filter fun f => ¬there f ∧ (s.place f).ptepa ≠ 0
          let q := (s.part part).qpin
          let room := (s.part part).quota u
          if q.limit < q.used + (frames.filter fun f => !(s.place f).pin).length then .ends 0x903
          else if room.limit < room.used + (d.filter fun f => (frameTier f).map (·.1) ≠ some u).length then
            .ends (0x103 + 512 * tier)
          else
            let lacks := fun (k : Nat) =>
              decide (s.freeFrames (s.tierRange part u k) < (d.filter fun f => u = .pool ∨ h f = k).length)
            if u = .pool then if lacks 0 then .ends 0x701 else .pins frames d
            else match [0, 1, 2].find? lacks with
              | some k => .ends (0x101 + 512 * k)
              | none => .pins frames d

/-- A frame is on its way to a free frame (R173): MIGR is set, and a forwarding entry stands or waits for
one of the hub's eight. -/
def State.moving (t : State) (f : Nat) : Prop :=
  (t.place f).migr = true ∧ ∃ n ∈ t.taken,
    (∃ e ∈ (t.hub (heatHub f)).forwards, e.frm = f ∧ e.into = n) ∨ ∃ a, (f, n, a) ∈ (t.hub (heatHub f)).moves

/-- The pages that a request to withdraw translations names (R163). -/
def InvReq.names (r : InvReq) (page : Nat) : Prop :=
  let span := (r.req.extractLsb' 17 6).toNat
  r.req.getLsbD 15 = true ∨ 41 < span ∨ page % 2 ^ 41 / 2 ^ span = (r.req.extractLsb' 23 41).toNat / 2 ^ span

/-- The translations that a request covers (R163). -/
def InvReq.reaches (r : InvReq) (x : LastPage) : Prop :=
  r.names (if r.req.getLsbD 16 then x.gpage else x.vpage) ∧
    (r.req.getLsbD 16 = true ∨ r.req.getLsbD 14 = true ∨ x.asid = r.asid.toNat)

/-- No lane of a partition holds a page that a request covers (R162). -/
def State.swept (t : State) (part : Nat) (r : InvReq) : Prop :=
  ∀ c x, (c, x) ∈ t.cores → ∀ k p, (k, p) ∈ x.lastPage → p.part = part → ¬r.reaches p

/-- A record is on its way to a partition's ring, or the ring has none, or the hub's 64 places are taken and
the record is counted as lost (R452). -/
def State.posted (s t : State) (hub part ring : Nat) (bs : List Byte) : Prop :=
  ((s.part part).ring ring).base = 0 ∨ (part, ring, bs) ∈ (t.hub hub).records ∨
    64 ≤ ((s.hub hub).records.filter fun r => r.1 == part && r.2.1 == ring).length

/-- Something keeps a held access back: a handover, an earlier held access of its core to the line, a move that copies
its line next, or the want of a staging line (R175, R178, R386, R450). -/
def State.keeps (s : State) (h : Held) : Prop :=
  (h.op.moves = true ∧ s.needsHandover h.pa = true) ∨
    (∃ g ∈ s.held, g.core = h.core ∧ g.pa / 128 = h.pa / 128 ∧ g.id < h.id) ∨
    (h.op.writes = true ∧ ((∃ k, s.routeWrite h.pa = .stall k) ∨
      ((∃ bs stream, h.op = .store bs stream) ∧ s.stagingFull h.core h.pa = true)))

/-- A held access has been tried again (R450): one that something still keeps back stays held and is tried
again, any other is performed; the 64th replay and every 1,024th after it is reported. A wait for a staging line is no
replay (R386). -/
def State.replayed (s t : State) (hub : Nat) (h : Held) : Prop :=
  let n := if h.cause = 0 then h.replays else h.replays + 1
  let kept := s.keeps h
  (h.cause ≠ 0 → 64 ≤ n → (n - 64) % 1024 = 0 → s.posted t hub (s.launch h.launch).part 0
    (ringRecord 1 (BitVec.ofNat 8 h.cause) 0 h.launch h.va h.pc h.core h.slot h.lane)) ∧
  (kept → s.sameBytes t ∧ ∃ g ∈ t.held, g.id = h.id ∧ g.replays = n ∧
    (g.win.isSome ∨ (∃ k, (s.now + 32, Event.migWindowReplay k h.id) ∈ t.agenda) ∨
      (∃ k, (s.now + 512, Event.handoverReplay k h.id) ∈ t.agenda) ∨
      (s.now + 1, Event.stagingRetry h.core h.id) ∈ t.agenda)) ∧
  (¬kept → (∀ g ∈ t.held, g.id ≠ h.id) ∧
    ∀ u, t.threadAt h.core h.slot h.lane = some u → ∀ c, u.wait ≠ .held c)

/-! ## Couriers and block tables (R342 to R366) -/

/-- R345: a condition that is charged to an offset of a card holds; z is the team's scratchpad, words the
footprint block. -/
def rule345 (c : Card) (k : JobKind) (z : Nat) (words : List Nat) (o : Nat) : Prop :=
  let e := c.e
  let copy := k = .copy
  let any := (o = 0x00 ∧ c.kind ≠ (match k with | .copy => 0 | .fill => 1 | _ => 2)) ∨
    (o = 0x01 ∧ 128 ≤ c.ctl % 256) ∨
    (o = 0x03 ∧ (4 ≤ c.swz ∨ (c.swz ≠ 0 ∧ c.spDst = false))) ∨
    (o = 0x0C ∧ copy ∧ c.spSrc = true ∧ 2 ^ 20 ≤ c.src) ∨ (o = 0x14 ∧ c.spDst = true ∧ 2 ^ 20 ≤ c.dst) ∨
    (o = 0x34 ∧ (c.fpa % 32 ≠ 0 ∨ ∃ w ∈ words, regionBad w = true))
  any ∨
  if k = .gather then
    (o = 0x02 ∧ c.esz ≠ 0) ∨ (o = 0x08 ∧ c.nb = 0) ∨ (o = 0x20 ∧ c.sStr 2 ≠ 0) ∨ (o = 0x24 ∧ c.sStr 3 ≠ 0) ∨
    (o = 0x2C ∧ c.tStr 2 ≠ 0) ∨ (o = 0x30 ∧ c.tStr 3 ≠ 0) ∨ (o = 0x34 ∧ c.fpa = 0)
  else
    (o = 0x02 ∧ 4 < c.esz) ∨ (∃ i < 4, o = 4 + 2 * i ∧ c.dim i = 0) ∨ (o = 0x04 ∧ 2 ^ 31 < c.count * e) ∨
    (o = 0x0C ∧ copy ∧ c.src % e ≠ 0) ∨ (o = 0x14 ∧ c.dst % e ≠ 0) ∨
    (∃ i, 1 ≤ i ∧ i ≤ 3 ∧ o = 0x18 + 4 * i ∧ c.sStr i % (e : Int) ≠ 0) ∨
    (∃ i, 1 ≤ i ∧ i ≤ 3 ∧ o = 0x24 + 4 * i ∧
      (c.tStr i % (e : Int) ≠ 0 ∨ (1 < c.dim i ∧ c.tStr i < c.spanBelow i))) ∨
    (c.count ≠ 0 ∧
      ((o = 0x0C ∧ copy ∧ c.spSrc = true ∧ (c.srcSpan.1 < 0 ∨ (z : Int) ≤ c.srcSpan.2)) ∨
       (o = 0x14 ∧ c.spDst = true ∧ (z : Int) ≤ c.dstSpan.2) ∨
       (o = 0x0C ∧ copy ∧ c.spSrc = c.spDst ∧ c.srcSpan.1 ≤ c.dstSpan.2 ∧ c.dstSpan.1 ≤ c.srcSpan.2)))

/-- The staged writes of a core to the lines of global regions are published at a scope (R349). -/
def State.readsPublished (s t : State) (core scope : Nat) (rs : List Region) : Prop :=
  ∀ r ∈ rs, r.sp = false → ∀ i < r.len / 128,
    match s.resolve (s.core core).sideD.launch (r.base + 128 * i) Need.any with
    | .ok (.mem pa, _) => ∀ w ∈ t.staged, w.core = core → w.hidden = false →
        w.addr / 128 = s.routeRead pa / 128 → ∃ sc a, w.pub = some (sc, a) ∧ scope ≤ sc
    | _ => True

/-- A thread of an issue stands at an address and waits for nothing new; none of its registers has changed. (Registers that
were not vacated are given back unvacated.) -/
def State.standsAt (t : State) (x : Ctx) (l : Nat) (pc : DWord) : Prop :=
  ∀ u, x.raw.threadAt x.slot l = some u → ∀ v, t.threadAt x.core x.slot l = some v →
    (∃ regs, v.regs = (u.unvacate regs).regs ∧ ∀ r ∈ regs, (u.v.get VReg.empty r).vac = false) ∧
    v.pc = pc ∧ (v.wait = .none ∨ v.wait = u.wait)

/-- A job has entered the window as the newest, and its channel is looked at in the next cycle (R347, R348). -/
def State.entersWindow (s t : State) (core : Nat) (j : Job) : Prop :=
  ∃ id, (t.core core).jobs = (s.core core).jobs ++ [{ j with id := id }] ∧
    ((s.now + 1, Event.courierJobStart core j.chan) ∈ t.agenda)

/-- A job as it enters the window. -/
def Job.fresh : Job :=
  { id := 0, kind := .copy, chan := 0, thread := 0, dst := none, tag := 0, card := [], table := 0, src := 0
    sp := false, reads := [], writes := [], scope := 0, started := none, pos := 0, next := 0, wants := false
    hpa := 0, pool := 0, heads := 0, dh := 0, base := 0, log2b := 0, stage := 0, ents := [], record := []
    token := none, status := none, slot := 0, lane := 0, pc := 0 }

/-- A register of a destination. -/
def Opnd.vreg : Opnd → Option Nat
  | .v r _ => some r.toNat
  | _ => none

/-- Two jobs of a core, one accepted later, have an edge: their regions share a byte of one space, and not
both only read it (R348). -/
def Job.edge (j i : Job) : Prop :=
  let meet := fun (as bs : List Region) => ∃ a ∈ as, ∃ b ∈ bs, a.sp = b.sp ∧
    a.base < b.base + b.len ∧ b.base < a.base + a.len
  meet j.reads i.writes ∨ meet j.writes i.reads ∨ meet j.writes i.writes

/-- A byte of a team's scratchpad. -/
def State.teamByte (s : State) (core o : Nat) : Byte :=
  let p := s.scratchAt core false o
  s.sramByte p.1 ((s.core p.1).spBase + p.2)

/-! ## The pool (R438 to R440) -/

/-- R438: a condition that is charged to an offset of a pool card holds. -/
def rule438 (bs : List Byte) (op member o : Nat) : Prop :=
  let n := lineNat bs
  let len := n 4 4
  let dst := n 8 8
  let src := n 0x10 8
  (o = 0x00 ∧ n 0 1 ≠ op) ∨ (o = 0x01 ∧ 8 ≤ n 1 1) ∨ (o = 0x02 ∧ n 2 2 ≠ 0) ∨
  (o = 0x04 ∧ (len % 128 ≠ 0 ∨ len < 128 ∨
    if op = 3 then 65536 < len ∨ 65536 < dst % 65536 + len else 2 ^ 30 < len)) ∨
  (o = 0x08 ∧ dst % 128 ≠ 0) ∨
  (o = 0x10 ∧ op ≠ 0 ∧ (src % 128 ≠ 0 ∨ (op ≠ 3 ∧ src < dst + len ∧ dst < src + len))) ∨
  (o = 0x18 ∧ op ≠ 3 ∧ n 0x18 8 ≠ 0) ∨
  (o = 0x20 ∧ if op = 3 then (n 0x20 4).testBit member = false else n 0x20 4 ≠ 0) ∨
  (o = 0x24 ∧ if op = 3 then 2 ≤ n 0x24 1 else n 0x24 1 ≠ 0) ∨ (o = 0x25 ∧ n 0x25 27 ≠ 0)

/-- What every agent reads after bytes have been written at a physical address. -/
def State.storesLine (s t : State) (pa : Nat) (bs : List Byte) : Prop :=
  let r := s.routeRead
  ∀ v a, t.viewByte v a = if r pa ≤ r a ∧ r a < r pa + bs.length then bs.getD (r a - r pa) 0 else s.viewByte v a

/-- An operation of the pool has ended with a status, which is on its way to its thread. -/
def State.poolEnds (s t : State) (o : PoolOp) (st : Word) : Prop :=
  (∀ p ∈ t.poolOps, p.id ≠ o.id) ∧
  ∀ r core slot lane u, o.dst = some r → (s.core core).side.isSome = true →
    (s.core core).sideD.launch = o.launch → (s.core core).sideD.team = o.team →
    s.threadAt core slot lane = some u → u.index = o.thread → t.answers core slot lane o.tag [st]

/-- Every post of this package that waits for a record has a status, and the record is gone. -/
def State.closes (s t : State) (r : Reduction) (st : Word) : Prop :=
  (∀ q ∈ t.reductions, ¬(q.key = r.key ∧ q.dst = r.dst)) ∧
  ∀ id ∈ r.waiters, ∀ o, s.poolOps.find? (fun o => o.id == id) = some o → s.poolEnds t o st

/-- A post has been counted in a record, which completes with the last of MASK (R440). -/
def State.counts (s t : State) (r : Reduction) (member : Nat) (elems : List Byte) (id : Nat) : Prop :=
  (∃ q ∈ t.reductions, q.key = r.key ∧ q.dst = r.dst ∧ q.len = r.len ∧ q.mask = r.mask ∧ q.start = r.start ∧
    q.elems.get [] member = elems ∧ (∀ k, k ≠ member → q.elems.find k = r.elems.find k) ∧
    q.waiters = r.waiters ++ [id]) ∧
  (∀ o ∈ s.poolOps, o.id = id → ({ o with posted := true } : PoolOp) ∈ t.poolOps) ∧
  ((∀ i < 32, r.mask.testBit i = true → i = member ∨ (r.elems.find i).isSome = true) →
    (s.now + 1, Event.reductionComplete r.key r.dst) ∈ t.agenda)

/-- R440: element j of DST from the contributions and its old value. -/
def rule440 (r : Reduction) (old j : Nat) : Nat :=
  ((List.range 32).filter fun i => r.mask.testBit i).foldl (fun acc i =>
    fround .f32 0 ((elemValue .f32 acc).add false (elemValue .bf16 (leNat (((r.elems.get [] i).drop (2 * j)).take 2)))))
    (if r.start then 0 else old)

/-! ## Ballots (R483 to R494) -/

/-- A sibling's post is the one that carries a slot's FIRST. -/
def Ballot.posterOf (b : Ballot) (i : Nat) (z : BallotSlot) : Prop := (b.sib i).posted = true ∧ (b.sib i).seq = z.first

/-- R483, R484: the record c that a counted post or a completion makes of b. win is the slot that has just
reached Q. -/
def Ballot.closes (b c : Ballot) (win : Option Nat) : Prop :=
  let all := ∀ i y, (i, y) ∈ b.sibs → y.posted = true ∨ y.sstate = 3
  match win with
  | some k => c.st = 1 ∧ c.tiebrk = false ∧ ∀ z, c.slots[k]? = some z → c.posterOf c.keeper z
  | none =>
    (¬all → c.st = 0) ∧ (all → b.posts = b.past → c.st = 3) ∧
    (all → b.past < b.posts → b.slots ≠ [] → c.st = 2 ∧ ∃ (k : Nat) (z : BallotSlot), c.slots[k]? = some z ∧ c.posterOf c.keeper z ∧
      (∀ (j : Nat) (y : BallotSlot), c.slots[j]? = some y → y.count ≤ z.count ∧ (y.count = z.count → z.first ≤ y.first)) ∧
      (c.tiebrk = true ↔ ∃ (j : Nat) (y : BallotSlot), j ≠ k ∧ c.slots[j]? = some y ∧ y.count = z.count))

/-- What SBREAD reads of a record (R494): the 64-bit value and the word. -/
def rule494 (b : Ballot) (sel : Nat) : Option (Nat × Nat) :=
  let won := b.st = 1 ∨ b.st = 2
  let bit := fun (p : Bool) (k : Nat) => if p then 2 ^ k else 0
  if sel = 0 then
    some (if won then (((b.slots[(b.sib b.keeper).slot]?).map BallotSlot.hash).getD 0).toNat else 0,
      b.st + bit b.tiebrk 2 + 2 ^ 4 * b.keeper + 2 ^ 10 * b.posts + 2 ^ 17 * b.past + 2 ^ 24 * b.n)
  else if sel ≤ b.n then
    let y := b.sib (sel - 1)
    some (y.cyc % 2 ^ 64, y.sstate + bit y.posted 3 + bit (decide (won ∧ b.keeper = sel - 1)) 4 + 2 ^ 5 * y.seq +
      2 ^ 11 * y.slot + bit y.overpost 14 + bit y.kvskip 15)
  else if 0x41 ≤ sel ∧ sel ≤ 0x48 then
    match b.slots[sel - 0x41]? with
    | some z => some (z.hash.toNat, z.count + 2 ^ 7 * z.first + 2 ^ 13)
    | none => some (0, 0)
  else none

/-- The service envelope (R465). -/
def rule465 (log2w number lanes argbase pc lease core slot part tag : Nat) : List Byte :=
  [5, BitVec.ofNat 8 log2w, 0, 0] ++ leBytes 4 number ++ leBytes 8 lanes ++ leBytes 8 argbase ++ leBytes 8 pc ++
    leBytes 4 lease ++ leBytes 2 core ++ leBytes 1 slot ++ leBytes 1 part ++ leBytes 4 tag ++ List.replicate 84 0

/-! ## Launches (R126 to R128) -/

/-- R126: a field's limit is broken at an offset of a launch envelope; the dependences and the lease list apart. -/
def rule126 (bs : List Byte) (priomax o : Nat) : Prop :=
  let n := lineNat bs
  let paired := (n 1 1).testBit 0
  let sib := (n 1 1).testBit 2
  let w := n 4 4
  let threads := n 28 2 * n 30 2 * n 32 2
  let side := if paired then (threads + 1) / 2 else threads
  let teams := n 36 4 * n 40 4 * n 44 4
  (o = 0x00 ∧ n 0 1 ≠ 1) ∨ (o = 0x01 ∧ 8 ≤ n 1 1) ∨ (o = 0x02 ∧ (3 < n 2 1 ∨ priomax < n 2 1)) ∨
  (o = 0x03 ∧ (n 3 1 < 4 ∨ 6 < n 3 1)) ∨
  (o = 0x04 ∧ (w % 64 + w / 2 ^ 6 % 64 + w / 2 ^ 12 % 64 + w / 2 ^ 18 % 64 ≠ 64 ∨ 2 ^ 24 ≤ w)) ∨
  (o = 0x08 ∧ n 8 8 % 128 ≠ 0) ∨ (o = 0x10 ∧ n 16 8 % 128 ≠ 0) ∨ (o = 0x18 ∧ (n 24 2 % 4 ≠ 0 ∨ 128 < n 24 2)) ∨
  (o = 0x1A ∧ (n 26 1 % 8 ≠ 0 ∨ n 26 1 < 8 ∨ 128 < n 26 1)) ∨ (o = 0x1B ∧ 16 < n 27 1) ∨
  (o = 0x1C ∧ ((∃ k < 3, n (28 + 2 * k) 2 = 0 ∨ 4096 < n (28 + 2 * k) 2) ∨ (if paired then 4096 else 2048) < threads ∨
    64 * 2 ^ n 3 1 < side ∨ min 2048 (w % 64 * 16384 / (max (n 26 1) 1 * 4)) < side)) ∨
  (o = 0x22 ∧ n 34 2 < 64) ∨ (o = 0x24 ∧ (teams = 0 ∨ 2 ^ 32 ≤ teams ∨ (sib = true ∧ teams ≠ n 60 1))) ∨
  (o = 0x30 ∧ n 48 8 % 8 ≠ 0) ∨ (o = 0x38 ∧ n 56 4 = 0) ∨
  (o = 0x3C ∧ if sib then n 60 1 < 2 ∨ 64 < n 60 1 else n 60 1 ≠ 0) ∨
  (o = 0x3D ∧ if sib then n 60 1 < n 61 1 else n 61 1 ≠ 0) ∨ (o = 0x3E ∧ 7 < n 62 1) ∨ (o = 0x3F ∧ n 63 1 ≠ 0) ∨
  (o = 0x68 ∧ (n 104 4 < 2 ∨ 2 ^ 24 < n 104 4)) ∨ (o = 0x6C ∧ n 108 12 ≠ 0)

/-- A launch's completion record has been inserted in the completion queue of its launch queue, and CWORD is
the number of the queue's first launches that have all ended (R127, R128). -/
def State.completes (s t : State) (part q seq st tag cycles done cancelled : Nat) : Prop :=
  let old := (s.part part).ended.get [] q
  let ended := fun (k : Nat) => k = seq ∨ k ∈ old
  let line := [4, 0, 0, 0] ++ leBytes 4 st ++ leBytes 8 seq ++ leBytes 8 tag ++ leBytes 8 cycles ++ leBytes 4 done ++
    leBytes 4 cancelled ++ List.replicate 88 0
  ∃ u,
    (match s.completionQueue part q with
    | none => s.sameBytes u
    | some c =>
      let k := s.qdesc .merged c
      match s.agentUse part (s.part part).datp (k.slotVa k.tail) Need.any true with
      | some (pa, v) => v.moved u (c + 24) (k.tail + 1) pa line (fun _ => False)
      | none => s.moved u (c + 24) (k.tail + 1) 0 [] (fun _ => False)) ∧
    let w := (u.qdesc .merged q).cword
    ∃ n, w ≤ n ∧ (∀ k, w ≤ k → k < n → ended k) ∧ ¬ended n ∧ (n = w → u.sameBytes t) ∧
      (n ≠ w → u.moved t (q + 40) n 0 [] (fun _ => False))

/-- What R140 hands down to a cluster of the indices from 0 to n − 1. -/
def rule140 (clusters : BitVec 48) (n c : Nat) : Nat × Nat :=
  let count := fun (p : Nat → Bool) => ((List.range 48).filter fun k => clusters.getLsbD k && p k).length
  let all := count fun _ => true
  let below := count fun k => decide (k / 8 < c / 8)
  let mine := count fun k => k / 8 == c / 8
  let j := count fun k => k / 8 == c / 8 && decide (k < c)
  let lo := n * below / all
  let m := n * (below + mine) / all - lo
  (lo + m * j / mine, lo + m * (j + 1) / mine)

/-! ## The fabric (R354, R355, R425 to R434) -/

/-- What an agent reads after a status word has been written where a partition is to be told (R433, R434), where no
move copies that line next; nothing is written where the address is 0, is not aligned, is not leased or has no translation. -/
def State.tells (s t : State) (part va st : Nat) : Prop :=
  let leased := ∃ k l, (k, l) ∈ s.launches ∧ l.part = part ∧ l.leased (va / 65536) Need.write = true
  let place := s.agentUse part (s.part part).datp va Need.write true
  (va ≠ 0 → va % 4 = 0 → leased → ∀ pa u, place = some (pa, u) → u.clears pa → u.storesLine t pa (leBytes 4 st)) ∧
  ((va = 0 ∨ va % 4 ≠ 0 ∨ ¬leased ∨ place = none) → s.sameBytes t)

/-- R433: a condition that is charged to an offset of a remote envelope holds. -/
def State.rule433 (s : State) (part : Nat) (bs : List Byte) (o : Nat) : Prop :=
  let n := lineNat bs
  let va := n 0x10 8
  (o = 0x00 ∧ n 0 1 ≠ 2) ∨ (o = 0x01 ∧ 2 ≤ n 1 1) ∨ (o = 0x02 ∧ n 2 2 ≠ 0) ∨
  (o = 0x04 ∧ (2 ^ 21 ≤ n 4 4 ∨ n 4 4 = s.pkgid.toNat / 1024 % 2 ^ 21)) ∨ (o = 0x08 ∧ 4096 ≤ n 8 2) ∨
  (o = 0x0A ∧ n 0x0A 6 ≠ 0) ∨
  (o = 0x10 ∧ va ≠ 0 ∧ (va % 4 ≠ 0 ∨ ∀ k l, (k, l) ∈ s.launches → l.part = part → l.leased (va / 65536) Need.write = false)) ∨
  (o = 0x78 ∧ n 0x78 8 ≠ 0)

/-- The line that R434 inserts for an envelope. -/
def rule434 (e : RemoteEnv) : List Byte :=
  [3, 0, 0, 0] ++ leBytes 4 e.soid.toNat ++ leBytes 2 e.srcQnum.toNat ++ List.replicate 6 0 ++
    leBytes 8 e.count.toNat ++ e.payload ++ List.replicate 8 0

/-- An envelope meets its queue (R434): it is denied, or has no room, or is inserted. -/
def State.inserts (s : State) (R : (State → Prop) → Prop) (e : RemoteEnv) (full : State → Prop) : Prop :=
  let answered := fun (t : State) (st : Word) => t.outs = s.outs ++ [.status e.soid.toNat e.srcQnum.toNat st]
  match s.targetQueue e with
  | none => R fun t => answered t 0x109 ∧ s.sameBytes t
  | some (p, q, d) =>
    (d.held = d.slots → R full) ∧
    (d.held ≠ d.slots →
      match s.agentUse p (s.part p).datp (d.slotVa d.tail) Need.any true with
      | none => R fun t => answered t 0x109 ∧ s.sameBytes t
      | some (pa, u) => R fun t => answered t 0x100 ∧
          (u.clears pa → u.clears (q + 24) → u.moved t (q + 24) (d.tail + 1) pa (rule434 e) (fun _ => False)))

/-- A refill of R355 without a share of the spare. -/
def Bucket.refilled (b : Bucket) : Bucket :=
  let k := min (b.rate / 2) b.debt
  { b with debt := b.debt - k, tokens := min (b.tokens + b.rate - k) b.depth }

/-! ## The matrix engine (R285 to R321) -/

/-- An accumulator descriptor meets R291, but for the set that PAIR names. -/
def rule291 (w : Word) (acc : Nat) : Prop :=
  let n := w.toNat
  let rows := 16 * (n / 2 ^ 6 % 16 + 1)
  let cols := 16 * (n / 2 ^ 10 % 32 + 1)
  let pair := n.testBit 17
  let bytes := rows * (if pair then cols / 2 else cols) * (if n / 2 ^ 15 % 4 = 1 then 8 else 4)
  n < 2 ^ 18 ∧ n / 2 ^ 15 % 4 ≠ 3 ∧ (if pair then cols ≤ 384 ∧ cols % 32 = 0 else cols ≤ 192) ∧
    n % 64 + (bytes + 16383) / 16384 ≤ acc

/-- The exact sum of an element's terms in the present chunk (R105, R106, R108, R299); j counts from the side's
first column. -/
def EngEvent.rule105 (v : EngEvent) (side i j : Nat) : Value :=
  let b := v.oprB side
  let r := v.acc.col0 side + j
  let term := fun (k p q : Nat) =>
    (v.oprA.value v.la (elemValue .f32 (v.ctl 2).toNat) i k (v.descA.bitOff i p)).mul
      (b.value v.lb (elemValue .f32 (v.ctl 3).toNat) r k (v.descB.bitOff r q))
  if v.kind = .mmasp then
    let ma := v.oprA.bitmap v.la i v.chunk
    let mb := b.bitmap v.lb r v.chunk
    exactSum (((List.range 32).filter fun n => ma.testBit n && mb.testBit n).map fun n =>
      term (32 * v.chunk + n) (v.oprA.before v.la i v.chunk + popBelow ma n) (b.before v.lb r v.chunk + popBelow mb n))
  else exactSum ((List.range' (v.kc * v.chunk) v.kc).map fun k => term k k k)

/-- Accumulate (R105). -/
def rule105Acc (afmt : Nat) (rm : Rm) (sat : Bool) (old : Nat) (x : Value) : Nat :=
  if afmt = 2 then
    let z := (BitVec.ofNat 32 old).toInt + x.toInt
    (BitVec.ofInt 32 (if sat then max (-2 ^ 31) (min (2 ^ 31 - 1) z) else z)).toNat
  else if afmt = 1 then roundTo .f64 false rm ((elemValue .f64 old).add (rm == .rd) x)
  else roundTo .f32 false rm ((elemValue .f32 old).add (rm == .rd) x)

/-- What MROW.max may give for a row (R318). -/
def rule318 (row : List Nat) (w : Nat) : Prop :=
  (w = 0x7FC00000 ∧ ∀ x ∈ row, elemValue .f32 x = .nan) ∨
  (w ∈ row ∧ elemValue .f32 w ≠ .nan ∧
    ∀ x ∈ row, elemValue .f32 x ≠ .nan → numLess (elemValue .f32 w) (elemValue .f32 x) = false)

/-- What MEXP makes of an element with a lane's maximum (R319). -/
def rule319 (mulForm : Bool) (m : Word) (v : Nat) : Nat :=
  let x := elemValue .f32 v
  let y := elemValue .f32 m.toNat
  if mulForm then fround .f32 0 (x.mul (elemValue .f32 (fexp2 y.neg (m ^^^ 0x80000000))))
  else
    let z := fround .f32 0 (x.add false y.neg)
    fexp2 (elemValue .f32 z) (BitVec.ofNat 32 z)

/-- An event of the engine has been placed behind those it follows (R320). -/
def State.placed (s t : State) (core : Nat) (v : EngEvent) : Prop :=
  ∃ pre post, (s.core core).engine = pre ++ post ∧ (t.core core).engine = pre ++ v :: post ∧
    (∀ u ∈ pre, u.placed < v.placed ∨ (u.placed = v.placed ∧ u.dom ≤ v.dom)) ∧
    ∀ u, post.head? = some u → v.placed < u.placed ∨ (u.placed = v.placed ∧ v.dom < u.dom)

/-- R401 on words of the type's width. -/
def rule401 (o : AtomOp) (uns : Bool) (old v : BitVec w) : BitVec w :=
  let lt := fun (a b : BitVec w) => if uns then a.ult b else a.slt b
  match o with
  | .add => old + v
  | .min => if lt v old then v else old
  | .max => if lt old v then v else old
  | .and => old &&& v
  | .or => old ||| v
  | .xor => old ^^^ v
  | .exch => v

end Sys2Proof.Machine
end

