-- ==== Sys2Proof/Certificates/Slice0/Obligations.lean ====
section
/-! DEFINITION. The statements for the provers. Each quantifies over every state, also those no run reaches. -/

open Sys2Proof Sys2Proof.Machine

/-! ## Integer instructions -/

/-- R235: every instruction of the integer mould completes and delivers, element by element, the narrowed
function of its operands. -/
def Obligations.IntegerMould : Prop :=
  ∀ (s : State) (f : Fields) (x : Short16) (y : Short),
    let R := fun (i : Instr) (m : BitVec 5) (F : Nat → Int → Int → Int → Int) =>
      let k := if m.getLsbD 1 then ImmKind.half else ImmKind.int
      Computes s i k k k fun _ _ a => rule235 m F a
    (R (.iadd f) f.mod fun _ a b _ => a + b) ∧ (R (.iaddW16 x) 0 fun _ a b _ => a + b) ∧
    (R (.iaddW32 y) 0 fun _ a b _ => a + b) ∧
    (R (.isub f) f.mod fun _ a b _ => a - b) ∧ (R (.isubW16 x) 0 fun _ a b _ => a - b) ∧
    (R (.ineg f) f.mod fun _ a _ _ => -a) ∧
    (R (.iabs f) f.mod fun _ a _ _ => |a|) ∧
    (R (.imul f) f.mod fun _ a b _ => a * b) ∧ (R (.imulW16 x) 0 fun _ a b _ => a * b) ∧
    (R (.imulW32 y) 0 fun _ a b _ => a * b) ∧
    (R (.imulh f) f.mod fun w a b _ => a * b / 2 ^ w) ∧
    (R (.imad f) f.mod fun _ a b c => a * b + c) ∧
    (R (.imin f) f.mod fun _ a b _ => if a ≤ b then a else b) ∧
    (R (.iminW16 x) 0 fun _ a b _ => if a ≤ b then a else b) ∧
    (R (.iminW32 y) 0 fun _ a b _ => if a ≤ b then a else b) ∧
    (R (.imax f) f.mod fun _ a b _ => if a ≤ b then b else a) ∧
    (R (.imaxW16 x) 0 fun _ a b _ => if a ≤ b then b else a) ∧
    (R (.idiff f) f.mod fun _ a b _ => |a - b|) ∧
    (R (.isad f) f.mod fun _ a b c => |a - b| + c)

/-- R236, R237: IADD64, ISUB64 and IMAD64; IADDC and ISUBB deliver the low word and write the carry or borrow, in its
sense, to the predicate that srcC names, which P7 discards. -/
def Obligations.WideArithmetic : Prop :=
  (∀ (s : State) (f : Fields),
    (Computes s (.iadd64 f) .int .int .int fun _ _ a => rule237 f.mod 64 (fun a b _ => a + b) a) ∧
    (Computes s (.isub64 f) .int .int .int fun _ _ a => rule237 f.mod 64 (fun a b _ => a - b) a) ∧
    (Computes s (.imad64 f) .int .int .int fun _ _ a => rule237 f.mod 32 (fun a b c => a * b + c) a)) ∧
  (∀ (s : State) (f : Fields),
    let R := fun (i : Instr) (v : Nat → Nat → Nat → Word) (co : Nat → Nat → Nat → Bool) =>
      ∃ t, exec i s = .next t ∧
        let x := s.issueOf i
        let ins := x.inputs .int .int .int []
        ∀ a ∈ ins, let l := x.sole ins a
          t.delivers x a.lane (v l.a l.b l.c).toNat ∧ t.deliversG x (v l.a l.b l.c).toNat ∧
          t.setsPreds x a.lane (carryPred f.c (co a.a a.b a.c)).1 (carryPred f.c (co a.a a.b a.c)).2
    (R (.iaddc f) (fun a b c => word a + word b + word c) fun a b c => 2 ^ 32 ≤ a + b + c) ∧
    (R (.isubb f) (fun a b c => word a - word b - word c) fun a b c => a < b + c))

/-- R238 to R241: the logic instructions, bit by bit on 32-bit words; the shifts, ROTL and FSHL. -/
def Obligations.LogicAndShifts : Prop :=
  (∀ (s : State) (f : Fields) (x : Short16) (y : Short) (tt : BitVec 8),
    let R := fun (i : Instr) (F : Word → Word → Word) =>
      Computes s i .int .int .int fun _ _ a => (F (word a.a) (word a.b)).toNat
    R (.and f) (· &&& ·) ∧ R (.andW16 x) (· &&& ·) ∧ R (.andW32 y) (· &&& ·) ∧
    R (.or f) (· ||| ·) ∧ R (.orW16 x) (· ||| ·) ∧ R (.xor f) (· ^^^ ·) ∧ R (.xorW16 x) (· ^^^ ·) ∧
    R (.andn f) (fun a b => a &&& ~~~b) ∧ R (.not f) (fun a _ => ~~~a) ∧
    (Computes s (.logic3 tt f) .int .int .int fun _ _ a => logic3 tt a.a a.b a.c) ∧
    ∀ a b c : Nat, logic3 tt a b c < 2 ^ 32 ∧ ∀ i < 32, (logic3 tt a b c).testBit i =
      tt.getLsbD (4 * (a.testBit i).toNat + 2 * (b.testBit i).toNat + (c.testBit i).toNat)) ∧
  (∀ (s : State) (f : Fields) (x : Short16) (y : Short),
    let R := fun (i : Instr) (m : BitVec 5) (F : (w : Nat) → BitVec w → Nat → BitVec w) =>
      let k := if m.getLsbD 1 then ImmKind.half else ImmKind.int
      Computes s i k k k fun _ _ a => rule240 m F a
    (R (.shl f) f.mod fun _ a n => a <<< n) ∧ (R (.shlW16 x) 0 fun _ a n => a <<< n) ∧
    (R (.shlW32 y) 0 fun _ a n => a <<< n) ∧
    (R (.shrl f) f.mod fun _ a n => a >>> n) ∧ (R (.shrlW16 x) 0 fun _ a n => a >>> n) ∧
    (R (.shra f) f.mod fun _ a n => a.sshiftRight n) ∧ (R (.shraW16 x) 0 fun _ a n => a.sshiftRight n) ∧
    (Computes s (.rotl f) .int .int .int fun _ _ a => ((word a.a).rotateLeft (a.b % 32)).toNat) ∧
    (Computes s (.fshl f) .int .int .int fun _ _ a =>
      ((BitVec.ofNat 64 (a.a * 2 ^ 32 + a.b) <<< min a.c 32) >>> 32).toNat))

/-- R242, R243, R244: bit fields, counts and permutations. -/
def Obligations.FieldsAndBytes : Prop :=
  (∀ (s : State) (f : Fields),
    let C := fun (i : Instr) (v : LaneIn → Nat) => Computes s i .int .int .int fun _ _ a => v a
    C (.bfx f) (fun a =>
      let x := asInt (f.mod.getLsbD 0) 32 a.a
      let len := min (a.b / 256 % 256) 32
      let y := x / 2 ^ (a.b % 256) % 2 ^ len
      (BitVec.ofInt 32 (if f.mod.getLsbD 0 = false ∧ 0 < len ∧ 2 ^ (len - 1) ≤ y then y - 2 ^ len else y)).toNat) ∧
    C (.bfi f) (fun a => bfiFn a.a a.b a.c) ∧ C (.popc f) (fun a => popcFn a.a) ∧ C (.clz f) (fun a => clzFn a.a) ∧
    C (.ctz f) (fun a => ctzFn a.a) ∧ C (.brev f) (fun a => brevFn a.a) ∧
    C (.bperm f) fun a => bpermFn a.a a.b a.c) ∧
  (∀ ins ctrl base i : Nat, i < 32 → (bfiFn ins ctrl base).testBit i =
    if ctrl % 256 ≤ i ∧ i < ctrl % 256 + min (ctrl / 256 % 256) 32 then ins.testBit (i - ctrl % 256)
    else base.testBit i) ∧
  (∀ a : Nat, popcFn a = ((List.range 32).countP a.testBit)) ∧
  (∀ a : Nat, a < 2 ^ 32 → if a = 0 then clzFn a = 32 else 2 ^ (31 - clzFn a) ≤ a ∧ a < 2 ^ (32 - clzFn a)) ∧
  (∀ a : Nat, a < 2 ^ 32 → if a = 0 then ctzFn a = 32 else a.testBit (ctzFn a) ∧ ∀ j < ctzFn a, !a.testBit j) ∧
  (∀ a i : Nat, i < 32 → (brevFn a).testBit i = a.testBit (31 - i)) ∧
  ∀ a b sel i : Nat, a < 2 ^ 32 → i < 4 →
    let n := sel / 16 ^ i % 16
    let byte := (a + 2 ^ 32 * b) / 256 ^ (n % 8) % 256
    bpermFn a b sel / 256 ^ i % 256 =
      if n < 8 then byte else if byte.testBit 7 then 255 else 0

/-- R245 to R250: comparison, selection, copies, addresses and widths. MOVHI writes the high register alone; its push is
the whole run: of a G run, as it stands when the write lands, in every lane. -/
def Obligations.CompareAndMove : Prop :=
  (∀ (s : State) (f : Fields) (x : Short16) (y : Short) (w : Wide) (into frm : IFmt),
    let C := fun (i : Instr) (v : LaneIn → Nat) => Computes s i .int .int .int fun _ _ a => v a
    let D := fun (r : Cmp) (p : Int → Int → Bool) => Decides s (.icmp r f) .int fun _ _ a =>
      p (asInt (f.mod.getLsbD 0) 32 a.a) (asInt (f.mod.getLsbD 0) 32 a.b)
    D .eq (fun a b => decide (a = b)) ∧ D .ne (fun a b => decide (a ≠ b)) ∧ D .lt (fun a b => decide (a < b)) ∧
    D .le (fun a b => decide (a ≤ b)) ∧ D .gt (fun a b => decide (a > b)) ∧ D .ge (fun a b => decide (a ≥ b)) ∧
    C (.isel f) (fun a => if a.c = 1 then a.a else a.b) ∧
    C (.mov f) (fun a => a.a) ∧ C (.movW16 x) (fun a => a.a) ∧ C (.movW32 y) (fun a => a.a) ∧
    C (.movi w) (fun _ => w.imm.toNat) ∧
    C (.lea f) (fun a => (word a.a + word a.b <<< (f.mod.toNat % 8)).toNat) ∧
    C (.leaW32 y) (fun a => (word a.a + word a.b).toNat) ∧
    C (.lea64 f) (fun a =>
      let i : DWord := if f.mod.getLsbD 3 then (word a.b).setWidth 64 else (word a.b).signExtend 64
      (BitVec.ofNat 64 a.a + i <<< (f.mod.toNat % 8)).toNat) ∧
    C (.icvt into frm f) fun a =>
      let y := asInt (fmtUns frm) (fmtBits frm) a.a
      let v := BitVec.ofNat (fmtBits into) (narrowed (fmtUns into) (!f.mod.getLsbD 0) (fmtBits into) y)
      (if fmtUns into then v.setWidth (32 * into.regs) else v.signExtend (32 * into.regs)).toNat) ∧
  (∀ (s : State) (w : Wide), ∃ t, exec (.movhi w) s = .next t ∧
    let x := s.issueOf (.movhi w)
    (∀ l ∈ x.actives,
      let ctx := (x.thread l).lv.ctx
      t.writes x x.e l (.push ctx (BitVec.ofNat 64 (x.prior l)) (some x.tag)) ∧
      (∀ r d, w.dst = .v r d →
        t.writes x (x.e + 4) l (.v (r.toNat + 1) (BitVec.allOnes 32) w.imm) ∧
        t.writes x (x.e + 3) l (.latch x.tag ctx (BitVec.allOnes 64 <<< 32) (w.imm.setWidth 64 <<< 32)
          (some (r.toNat, 2)))) ∧
      ∀ r, w.dst = .g r →
        t.writes x (x.e + 3) 0 (.g (r.toNat + 1) w.imm) ∧
        t.writes x (x.e + 3) l (.latch x.tag ctx (BitVec.allOnes 64 <<< 32) (w.imm.setWidth 64 <<< 32)
          (some (256 + r.toNat, 2)))) ∧
    (∀ l ∈ x.lanes, x.active l = false →
      let ctx := (x.thread l).lv.ctx
      let written : Bool := match w.dst with | .g _ => !x.actives.isEmpty | _ => false
      t.writes x x.e l (.push ctx (BitVec.ofNat 64 (x.prior l)) (if written then some x.tag else none)) ∧
      ∀ r, w.dst = .g r → written = true →
        t.writes x (x.e + 3) l (.latch x.tag ctx (BitVec.allOnes 64 <<< 32) (w.imm.setWidth 64 <<< 32)
          (some (256 + r.toNat, 2)))) ∧
    ((∀ l ∈ x.raw.landings, l.tag ≠ x.tag) → ∀ l ∈ (t.core x.core).landings, l.tag = x.tag →
      match l.op, w.dst with
      | .v n _ _, .v r _ => n = r.toNat + 1
      | .g n _, .g r => n = r.toNat + 1
      | .v _ _ _, _ => False
      | .g _ _, _ => False
      | .c _ _ _ _ _, _ => False
      | .p _ _, _ => False
      | _, _ => True))

/-- R251, R252, R254, R256: the value that a special register reads as for a thread of an issue; predicate logic,
predicates to and from a register, and SWRITE. The interlock of PMOV is the model's reading (log 71). -/
def Obligations.SpecialsAndPredicates : Prop :=
  (∀ (s : State) (r : SReg) (f : Fields),
    Computes s (.sread r f) .int .int .int fun x _ a =>
      let c := s.core x.core
      let env := (s.launch c.sideD.launch).env
      let team := c.sideD.team
      let u := a.th
      match r with
      | .tidX => if u.spawned then u.index else u.index % env.tx
      | .tidY => if u.spawned then 0 else u.index / env.tx % env.ty
      | .tidZ => if u.spawned then 0 else u.index / (env.tx * env.ty)
      | .ntidX => env.tx | .ntidY => env.ty | .ntidZ => env.tz
      | .teamX => team % env.gx
      | .teamY => team / env.gx % env.gy
      | .teamZ => team / (env.gx * env.gy)
      | .nteamX => env.gx | .nteamY => env.gy | .nteamZ => env.gz
      | .lane => a.lane
      | .group => x.slot
      | .gwidth => (c.group x.slot).width
      | .core => x.core % 64
      | .pairside => x.core % 2
      | .cluster => x.core % 64 / 8
      | .die => x.core / 64
      | .part => (s.launch c.sideD.launch).part
      | .clk => (x.e - c.clk0) % 2 ^ 64
      | .sib => if env.sibN = 0 then 0 else team
      | .nsib => env.sibN
      | .trapcause => u.trapcause.toNat
      | .trapaddr => u.trapaddr.toNat
      | .trappc => u.trappc.toNat
      | .seed => u.seed.toNat
      | .leaseid => c.sideD.launch) ∧
  (∀ (s : State) (tt : BitVec 8) (f : Fields),
    (Decides s (.plop tt f) .int fun _ _ a =>
      tt.getLsbD (4 * (a.a == 1).toNat + 2 * (a.b == 1).toNat + (a.c == 1).toNat)) ∧
    (Computes s (.pmovPv f) .int .int .int fun _ _ a => (0x80#32 ||| a.th.p.setWidth 32).toNat) ∧
    (Yields s (.pmovVp f) .int .int .int [] fun _ _ a =>
      let mask := BitVec.ofNat 7 a.b
      let val := BitVec.ofNat 7 a.a
      { LaneOut.of (0x80#32 ||| ((a.th.p &&& ~~~mask) ||| (val &&& mask)).setWidth 32).toNat with
        pmask := mask, pval := val }) ∧
    (∃ t, exec (.pmovVp f) s = .next t ∧
      let x := s.issueOf (.pmovVp f)
      ∀ l ∈ x.lanes, x.active l = false →
        t.writes x x.e l (.push (x.thread l).lv.ctx (0x80#64 ||| (x.thread l).p.setWidth 64) none)) ∧
    (Yields s (.swrite .seed f) .int .int .int [] fun _ _ a =>
      { LaneOut.of a.d with seed := some (if word a.d = 0 then 0x5EED0001 else word a.d) }) ∧
    Yields s (.swrite .trappc f) .int .int .int [] fun _ _ a =>
      { LaneOut.of a.d with trappc := some (BitVec.ofNat 64 a.d) })

/-- R257 to R261: votes, shuffles, reductions and matches over the active lanes. -/
def Obligations.AcrossLanes : Prop :=
  (∀ (s : State) (f : Fields) (m : ShflMode) (o : ReduxOp),
    (Decides s (.voteAll f) .int fun _ ins _ => decide (∀ i ∈ ins, i.a = 1)) ∧
    (Decides s (.voteAny f) .int fun _ ins _ => decide (∃ i ∈ ins, i.a = 1)) ∧
    (Decides s (.voteUni f) .int fun _ ins _ => decide (∀ i ∈ ins, ∀ j ∈ ins, i.a = j.a)) ∧
    (Computes s (.voteBallot f) .int .int .int fun _ ins _ =>
      laneBits (f.mod.getLsbD 0) fun l => decide (∃ i ∈ ins, i.lane = l ∧ i.a = 1)) ∧
    (Computes s (.matchv false f) .int .int .int fun _ ins a =>
      laneBits (f.mod.getLsbD 0) fun l => decide (∃ i ∈ ins, i.lane = l ∧ i.a = a.a)) ∧
    (Computes s (.matchv true f) .int .int .int fun _ ins a =>
      if ∀ i ∈ ins, i.a = a.a then
        laneBits (f.mod.getLsbD 0) fun l => decide (∃ i ∈ ins, i.lane = l) else 0) ∧
    (Computes s (.shfl m f) .int .int .int fun x ins a =>
      let b := asInt false 32 a.b
      let src : Int := match m with
        | .idx => (a.b % 64 : Nat) | .up => a.lane - b | .down => a.lane + b | .xor => (a.lane ^^^ (a.b % 64) : Nat)
      match ins.find? fun i => decide ((i.lane : Int) = src ∧ src < (x.raw.group x.slot).width) with
      | some i => i.a
      | none => a.a) ∧
    (Computes s (.redux o f) .int .int .int fun _ ins _ =>
      let uns := f.mod.getLsbD 0
      let xs := ins.map fun i => asInt uns 32 i.a
      let ns := ins.map fun i => i.a
      match o with
      | .add => narrowed uns (f.mod.getLsbD 2) 32 xs.sum
      | .min => (BitVec.ofInt 32 (xs.tail.foldl min (xs.headD 0))).toNat
      | .max => (BitVec.ofInt 32 (xs.tail.foldl max (xs.headD 0))).toNat
      | .and => ns.tail.foldl (· &&& ·) (ns.headD 0)
      | .or => ns.foldl (· ||| ·) 0
      | .xor => ns.foldl (· ^^^ ·) 0)) ∧
  ∀ (hi : Bool) (p : Nat → Bool), laneBits hi p < 2 ^ 32 ∧
    ∀ i < 32, (laneBits hi p).testBit i = p (32 * hi.toNat + i)

/-! ## Float instructions -/

/-- R264 to R270, R273, R274: the F32 arithmetic. Each instruction forms the exact value of its rule from the
operands, .absa and .nega applied to srcA and .negc to srcC, and rounds it once; .sat clamps after that. The float comparisons and
classes. -/
def Obligations.FloatArithmetic : Prop :=
  (∀ (s : State) (f : Fields) (x : Short16) (y : Short),
    let R := fun (i : Instr) (m : BitVec 5) (F : Value → Value → Value → Value) =>
      Computes s i (.flt .f32) (.flt .f32) (.flt .f32) fun _ _ a => rule264 .f32 m F a.a a.b a.c
    let S := fun (i : Instr) (F : Value → Value) => R i f.mod fun a _ _ => F (signA (f.mod.getLsbD 4) (f.mod.getLsbD 3) a)
    let B := fun (i : Instr) (F : Value → Value → Value) =>
      R i f.mod fun a b _ => F (signA (f.mod.getLsbD 4) (f.mod.getLsbD 3) a) b
    let rd := isRd f.mod
    (B (.fadd f) fun a b => a.add rd b) ∧ (R (.faddW16 x) 0 fun a b _ => a.add false b) ∧
    (R (.faddW32 y) 0 fun a b _ => a.add false b) ∧ (B (.fsub f) fun a b => a.add rd b.neg) ∧
    (B (.fmul f) Value.mul) ∧ (R (.fmulW16 x) 0 fun a b _ => a.mul b) ∧ (R (.fmulW32 y) 0 fun a b _ => a.mul b) ∧
    (R (.ffma f) f.mod fun a b c => ((if f.mod.getLsbD 3 then a.neg else a).mul b).add rd
      (if f.mod.getLsbD 4 then c.neg else c)) ∧
    (B (.fmin f) minNum) ∧ (R (.fminW16 x) 0 fun a b _ => minNum a b) ∧
    (R (.fminW32 y) 0 fun a b _ => minNum a b) ∧
    (B (.fmax f) maxNum) ∧ (R (.fmaxW16 x) 0 fun a b _ => maxNum a b) ∧
    (S (.frcp f) fun a => (Value.ofInt 1).div a) ∧ (S (.frsq f) Value.rsqrt) ∧ (S (.fsqrt f) Value.sqrt) ∧
    (B (.fdiv f) Value.div) ∧
    (S (.frnd f) fun a => match a with
      | .fin neg n d => .fin neg (roundInt (rmOf f.mod) neg n d).natAbs 1
      | a => a) ∧
    Computes s (.fscale f) (.flt .f32) .int .int fun _ _ a => fround .f32 f.mod
      ((signA (f.mod.getLsbD 4) (f.mod.getLsbD 3) (elemValue .f32 a.a)).scale (asInt false 32 a.b))) ∧
  ((∀ (s : State) (f : Fields),
    let D := fun (t : EFmt) (i : Instr) (r : FCmp) => Decides s i (.flt t) fun _ _ a =>
      rule268 r (signA (f.mod.getLsbD 4) (f.mod.getLsbD 3) (elemValue t a.a)) (elemValue t a.b)
    (∀ r, D .f32 (.fcmp r f) r ∧ D .f64 (.dcmp r f) r) ∧
    let t : EFmt := match f.mod.toNat % 4 with | 0 => .f32 | 1 => .f64 | 2 => .bf16 | _ => .f16
    Computes s (.fclass f) (.flt t) (.flt t) (.flt t) fun _ _ a => match fltOf t with
      | some g => 2 ^ rule269 g a.a
      | none => 0) ∧
  ∀ t g c, fltOf t = some g → (t = .f32 ∨ t = .f64 ∨ t = .bf16 ∨ t = .f16) →
    (g.value c = .nan ↔ rule269 g c = 8 ∨ rule269 g c = 9) ∧
    (∀ neg, g.value c = .inf neg ↔ rule269 g c = if neg then 0 else 7) ∧
    (∀ neg, (∃ d, g.value c = .fin neg 0 d) ↔ rule269 g c = if neg then 3 else 4))

/-- R280 to R284: F64 arithmetic, packed pairs and the dot products. R275 to R279: conversions between integers and floats,
partial writes, and SEED under .sr. -/
def Obligations.WideAndPacked : Prop :=
  (∀ (s : State) (f : Fields) (f16 ae be : Bool),
    let neg := f.mod.getLsbD 3
    let opt := f.mod.getLsbD 4
    let rd := isRd f.mod
    let sA := fun a : Value => signA opt neg a
    let nA := fun a : Value => if neg then a.neg else a
    let nC := fun c : Value => if opt then c.neg else c
    let D := fun (i : Instr) (F : Value → Value → Value → Value) =>
      Computes s i (.flt .f64) (.flt .f64) (.flt .f64) fun _ _ a => rule264 .f64 f.mod F a.a a.b a.c
    let t : EFmt := if f16 then .f16 else .bf16
    let P := fun (i : Instr) (F : Value → Value → Value → Value) =>
      Computes s i (.pair t) (.pair t) (.pair t) fun _ _ a =>
        rule264 t f.mod F (a.a % 2 ^ 16) (a.b % 2 ^ 16) (a.c % 2 ^ 16) +
          2 ^ 16 * rule264 t f.mod F (a.a / 2 ^ 16) (a.b / 2 ^ 16) (a.c / 2 ^ 16)
    (D (.dadd f) fun a b _ => (sA a).add rd b) ∧ (D (.dsub f) fun a b _ => (sA a).add rd b.neg) ∧
    (D (.dmul f) fun a b _ => (sA a).mul b) ∧ (D (.dfma f) fun a b c => ((nA a).mul b).add rd (nC c)) ∧
    (P (.pkadd f16 f) fun a b _ => (sA a).add rd b) ∧ (P (.pkmul f16 f) fun a b _ => (sA a).mul b) ∧
    (P (.pkfma f16 f) fun a b c => ((nA a).mul b).add rd (nC c)) ∧
    (P (.pkmm f16 false f) fun a b _ => minNum (sA a) b) ∧ (P (.pkmm f16 true f) fun a b _ => maxNum (sA a) b) ∧
    (Computes s (.qdot4 ae be f) .int .int (.flt .f32) fun _ _ a =>
      let ta : EFmt := if ae then .e5m2 else .e4m3
      let tb : EFmt := if be then .e5m2 else .e4m3
      let p := fun i => (elemValue ta (a.a / 256 ^ i % 256)).mul (elemValue tb (a.b / 256 ^ i % 256))
      fround .f32 f.mod ((elemValue .f32 a.c).add rd ((((p 0).add false (p 1)).add false (p 2)).add false (p 3)))) ∧
    Computes s (.idot4 ae be f) .int .int .int fun _ _ a =>
      let p := fun i => asInt ae 8 (a.a / 256 ^ i) * asInt be 8 (a.b / 256 ^ i)
      narrowed (f.mod.getLsbD 0) (f.mod.getLsbD 2) 32
        (asInt (f.mod.getLsbD 0) 32 a.c + (p 0 + p 1 + p 2 + p 3))) ∧
  (∀ (s : State) (f : Fields) (ti : IFmt) (t frm : EFmt) (hi sr satf : Bool) (dn sn : BitVec 3),
    let sA := fun a : Value => signA (f.mod.getLsbD 4) (f.mod.getLsbD 3) a
    let half : EFmt → Nat → Nat := fun t a =>
      if t = .bf16 ∨ t = .f16 then (if hi then a / 2 ^ 16 else a) % 2 ^ 16 else a
    -- an element of a register: all of it, or the bits of element n (R278)
    let out := fun (n v : Nat) => if 32 ≤ elemWidth t then LaneOut.of v else
      { LaneOut.of (v * 2 ^ (elemWidth t * n)) with
        mask := BitVec.ofNat 32 ((2 ^ elemWidth t - 1) * 2 ^ (elemWidth t * n)) }
    (Computes s (.f2i ti frm hi f) (cvtImm frm) (cvtImm frm) (cvtImm frm) fun _ _ a =>
      let lo : Int := if fmtUns ti then 0 else -2 ^ (fmtBits ti - 1)
      let top : Int := if fmtUns ti then 2 ^ fmtBits ti - 1 else 2 ^ (fmtBits ti - 1) - 1
      let z : Int := match sA (elemValue frm (half frm a.a)) with
        | .nan => 0
        | .inf neg => if neg then lo else top
        | .fin neg n d => max lo (min top (roundInt (rmOf f.mod) neg n d))
      (BitVec.ofInt (32 * ti.regs) z).toNat) ∧
    (Yields s (.i2f t ti hi f) .int .int .int (Instr.i2f t ti hi f).held fun _ _ a =>
      out hi.toNat (fround t f.mod (.ofInt (asInt (fmtUns ti) (fmtBits ti) a.a)))) ∧
    Yields s (.fcvt t frm dn sn sr satf f) .int .int .int (Instr.fcvt t frm dn sn sr satf f).held fun _ _ a =>
      let v := match f.a with
        | .imm k => Value.ofInt (k.val - 16)
        | _ => elemValue frm (a.a / 2 ^ (elemWidth frm * sn.toNat) % 2 ^ elemWidth frm)
      let rm := if sr then .sr (xorStep a.th.seed) else rmOf f.mod
      { out dn.toNat (roundTo t satf rm (sA v)) with seed := if sr then some (xorStep a.th.seed) else none })

/-- R271: the bounded functions complete, and .absa, .nega and .sat act as everywhere; their exact points. FSIN and
FCOS take half-turns. Away from those points the value is free (log 24). -/
def Obligations.BoundedFunctions : Prop :=
  (∀ (s : State) (f : Fields),
    let R := fun (i : Instr) (G : Value → Word → Nat) =>
      Computes s i (.flt .f32) (.flt .f32) (.flt .f32) fun _ _ a =>
        let x := signA (f.mod.getLsbD 4) (f.mod.getLsbD 3) (elemValue .f32 a.a)
        let v := G x (BitVec.ofNat 32 (roundTo .f32 false .rne x))
        if f.mod.getLsbD 2 then clamp01 .f32 v else v
    R (.fexp2 f) fexp2 ∧ R (.flog2 f) flog2 ∧ R (.fsin f) fsin ∧ R (.fcos f) fcos ∧ R (.ftanh f) ftanh) ∧
  (∀ (x : Value) (q : ℚ) (op : Word), x.wf → x.rat = some q →
    let one := fun (neg : Bool) => if neg then 0xBF800000 else 0x3F800000
    (∀ n : ℤ, q = n → -149 ≤ n → n ≤ 127 → (elemValue .f32 (fexp2 x op)).rat = some (2 ^ n)) ∧
    (128 ≤ q → fexp2 x op = 0x7F800000) ∧ (q < -150 → fexp2 x op = 0) ∧
    (∀ n : ℤ, q = 2 ^ n → -149 ≤ n → n ≤ 127 → (elemValue .f32 (flog2 x op)).rat = some (n : ℚ)) ∧
    (q = 0 → flog2 x op = 0xFF800000) ∧ (q < 0 → flog2 x op = 0x7FC00000) ∧
    (∀ n : ℤ, q = n → fsin x op = if x.isNeg then 0x80000000 else 0) ∧
    (∀ n : ℤ, q = n + 1 / 2 → fsin x op = one (n % 2 = 1)) ∧
    (∀ n : ℤ, q = n → fcos x op = one (n % 2 = 1)) ∧ (∀ n : ℤ, q = n + 1 / 2 → fcos x op = 0) ∧
    (q = 0 → ftanh x op = if x.isNeg then 0x80000000 else 0) ∧ (9 ≤ |q| → ftanh x op = one x.isNeg) ∧
    (fexp2 .nan op = 0x7FC00000 ∧ flog2 .nan op = 0x7FC00000 ∧ fsin .nan op = 0x7FC00000 ∧
      fcos .nan op = 0x7FC00000 ∧ ftanh .nan op = 0x7FC00000) ∧
    ∀ neg, fexp2 (.inf neg) op = (if neg then 0 else 0x7F800000) ∧
      flog2 (.inf neg) op = (if neg then 0x7FC00000 else 0x7F800000) ∧ fsin (.inf neg) op = 0x7FC00000 ∧
      fcos (.inf neg) op = 0x7FC00000 ∧ ftanh (.inf neg) op = one neg)

/-- R87: the value of every code of a float format, by the table's layouts and biases (R86). -/
def Obligations.FloatValues : Prop :=
  ∀ e ∈ ([(.f64, 11, 52, 1023, 0), (.f32, 8, 23, 127, 0), (.f19, 8, 10, 127, 13), (.bf16, 8, 7, 127, 0), (.f16, 5, 10, 15, 0),
      (.e4m3, 4, 3, 7, 0), (.e5m2, 5, 2, 15, 0), (.e3m4, 3, 4, 3, 0), (.e3m2, 3, 2, 3, 0), (.e2m3, 2, 3, 1, 0), (.e2m1, 2, 1, 1, 0)] :
      List (EFmt × ℕ × ℕ × ℕ × ℕ)),
    let (t, E, M, bias, low) := e
    ∀ c < 2 ^ (1 + E + M + low),
      let v := elemValue t c
      let x := c / 2 ^ low
      let m : ℕ := x % 2 ^ M
      let k : ℕ := x / 2 ^ M % 2 ^ E
      let sign : ℚ := if x.testBit (E + M) then -1 else 1
      let special := v = .nan ∨ ∃ neg, v = .inf neg
      (k ≠ 0 → ¬special → v.rat = some (sign * 2 ^ ((k : ℤ) - bias) * (1 + m / 2 ^ M))) ∧
      (k = 0 → v.rat = some (sign * 2 ^ (1 - (bias : ℤ)) * (m / 2 ^ M))) ∧
      (special → k = 2 ^ E - 1) ∧
      ((t = .e4m3 ∨ t = .e3m4) → k = 2 ^ E - 1 → (special ↔ m = 2 ^ M - 1))

/-- R96 to R98, R100, R102: Round is right for every float format, rounding mode and rational, and for zeros, infinities
and NaN. R264, R267, R270, R273: sums, products, quotients, orders and scalings of values are exact, with the signs and special
cases of the table. R270: the roots are correctly rounded in F32, in every mode. -/
def Obligations.Rounding : Prop :=
  (∀ (t : EFmt) (f : FloatFmt) (satf : Bool) (rm : Rm), fltOf t = some f →
    (∀ neg n d, 0 < n → 0 < d → Rounds f satf rm neg ((n : ℕ) / (d : ℕ) : ℝ) (f.round satf rm (.fin neg n d))) ∧
    (∀ neg d, f.round satf rm (.fin neg 0 d) = 2 ^ (f.ebits + f.mbits) * neg.toNat) ∧
    (∀ neg, f.value (f.round satf rm (.inf neg)) =
      if !satf && f.hasInf then .inf neg else if !satf && f.hasNan then .nan
      else f.value (2 ^ (f.ebits + f.mbits) * neg.toNat + f.maxCode)) ∧
    f.round satf rm .nan * (if t = .f19 then 2 ^ 13 else 1) = match t with
      | .f64 => 0x7FF8000000000000 | .f32 => 0x7FC00000 | .f19 => 0x7FC00000 | .bf16 => 0x7FC0 | .f16 => 0x7E00
      | .e4m3 => 0x7F | .e3m4 => 0x7F | .e5m2 => 0x7E | _ => 0) ∧
  ((∀ (rd : Bool) (a b : Value) (x y : ℚ), a.wf → b.wf → a.rat = some x → b.rat = some y →
    (a.add rd b).rat = some (x + y) ∧
    (x + y = 0 → (a.add rd b).isNeg = if x = 0 ∧ a.isNeg = b.isNeg then a.isNeg else rd) ∧
    (a.mul b).rat = some (x * y) ∧ (a.mul b).isNeg = (a.isNeg != b.isNeg) ∧
    (y ≠ 0 → (a.div b).rat = some (x / y) ∧ (a.div b).isNeg = (a.isNeg != b.isNeg)) ∧
    (y = 0 → a.div b = if x = 0 then .nan else .inf (a.isNeg != b.isNeg)) ∧
    a.cmp b = compare x y ∧
    (minNum a b = if x < y ∨ (x = y ∧ (a.isNeg ∨ b.isNeg = false)) then a else b) ∧
    (maxNum a b = if x < y ∨ (x = y ∧ (a.isNeg ∨ b.isNeg = false)) then b else a) ∧
    ∀ n : ℤ, (a.scale n).rat = some (x * 2 ^ n) ∧ (a.scale n).isNeg = a.isNeg) ∧
  (∀ (rd : Bool) (a : Value), a.add rd .nan = .nan ∧ Value.add rd .nan a = .nan ∧ a.mul .nan = .nan ∧
    Value.mul .nan a = .nan ∧ a.div .nan = .nan ∧ Value.div .nan a = .nan ∧
    minNum a .nan = a ∧ minNum .nan a = a ∧ maxNum a .nan = a ∧ maxNum .nan a = a) ∧
  ∀ (rd p q : Bool) (a : Value) (x : ℚ), a.wf → a.rat = some x →
    Value.add rd (.inf p) (.inf q) = (if p = q then .inf p else .nan) ∧ Value.add rd (.inf p) a = .inf p ∧
    a.add rd (.inf p) = .inf p ∧ Value.mul (.inf p) (.inf q) = .inf (p != q) ∧
    a.mul (.inf p) = (if x = 0 then .nan else .inf (a.isNeg != p)) ∧
    Value.mul (.inf p) a = (if x = 0 then .nan else .inf (p != a.isNeg)) ∧
    Value.div (.inf p) (.inf q) = .nan ∧ Value.div (.inf p) a = .inf (p != a.isNeg) ∧
    (a.div (.inf p)).rat = some 0 ∧ (a.div (.inf p)).isNeg = (a.isNeg != p)) ∧
  (∀ (f : FloatFmt) (rm : Rm), fltOf .f32 = some f →
    (∀ n d : Nat, 0 < n → 0 < d →
      Rounds f false rm false √(n / d : ℝ) (f.round false rm (Value.sqrt (.fin false n d))) ∧
      Rounds f false rm false (1 / √(n / d : ℝ)) (f.round false rm (Value.rsqrt (.fin false n d)))) ∧
    ∀ neg d n, 0 < n → Value.sqrt (.fin neg 0 d) = .fin neg 0 1 ∧ Value.rsqrt (.fin neg 0 d) = .inf neg ∧
      Value.sqrt (.fin true n d) = .nan ∧ Value.rsqrt (.fin true n d) = .nan ∧
      Value.sqrt (.inf neg) = (if neg then .nan else .inf false) ∧
      Value.rsqrt (.inf neg) = (if neg then .nan else .fin false 0 1))

/-! ## What a register instruction leaves alone, inactive lanes, level traps -/

/-- The frame of every register instruction of fixed latency. -/
def Obligations.RegisterFrame : Prop :=
  ∀ (i : Instr) (s : State), i.registerOnly = true → ∃ t, exec i s = .next t ∧
    let x := s.issueOf i
    s.keepsFrame t i x
      (fun m => m ∈ x.actives ∧ (x.levelFault m (readFields x.sh x.f) i.held).isSome = true) i.writesSpecial

/-- R9, R221: a subscribed lane that is not active pushes the prior value, not pending; PMOV.vp's pushes its
predicate word (Obligations.SpecialsAndPredicates). R222, R224, R443 to R446: an active lane that reads an invalid C
slot or latch, or under stall checking makes a short read, raises OPND_LEVEL or STALL_SHORT: it enters the launch's
handler; without a handler, or within it, the cause travels to the sorting office as a terminal fault and the lane
stops. That every active lane is checked, whatever the destination, is the model's reading (log 82). -/
def Obligations.LevelTraps : Prop :=
  (∀ (i : Instr) (s : State), i.registerOnly = true → (∀ f, i ≠ .pmovVp f) →
    (∀ f r, i = .movhi f → f.dst ≠ .g r) → ∃ t, exec i s = .next t ∧
    let x := s.issueOf i
    ∀ l ∈ x.lanes, x.active l = false →
      t.writes x x.e l (.push (x.thread l).lv.ctx (BitVec.ofNat 64 (x.prior l)) none)) ∧
  (∀ (i : Instr) (s : State), i.registerOnly = true → ∃ t, exec i s = .next t ∧
    let x := s.issueOf i
    x.lanes.Nodup → ∀ l ∈ x.actives, ∀ cause code,
      x.levelFault l (readFields x.sh x.f) i.held = some (cause, code) →
      (cause = 3 ∨ cause = 4) ∧ s.raises t x l cause (BitVec.ofNat 64 code) x.pc)

/-! ## Control -/

/-- R200 to R204, R206 to R208, R210: branches, calls, returns and counted loops. R205, R443, R447, R448: NOP passes; TRAP and
BKPT raise their causes in every active lane, TRAPPC after TRAP and at BKPT; TRET brings the shadowed levels back and goes to
TRAPPC. R146, R209, R225: YIELD with an active lane sends its group to Ready and clears every thread's C slots and latches at
e; the place is free from the next cycle. Without one it passes. -/
def Obligations.Transfers : Prop :=
  (∀ (s : State) (f : Fields) (w : Wide) (stall : BitVec 3) (o13 : BitVec 13) (o18 : BitVec 18) (o20 : BitVec 20)
    (ctr : Opnd),
    let R := fun (i : Instr) (b : Nat) (target : Ctx → Nat → Option DWord) (P : State → Ctx → Prop) =>
      ∃ t, exec i s = .next t ∧
        let x := s.issueOf i
        s.keepsOthers t x x.linkWrite ∧ s.transfers t x b (target x) ∧ P t x
    let rel := fun (off : DWord) (x : Ctx) (_ : Nat) => some (x.pc + off * 2)
    let reg := fun (x : Ctx) (l : Nat) => some (BitVec.ofNat 64 (x.value l x.f.a 2 .int))
    let less := fun (x : Ctx) (l : Nat) => word (x.value l x.f.dst 1 .int) - 1
    let loop := fun (off : DWord) (x : Ctx) (l : Nat) => if less x l = 0 then none else some (x.pc + off * 2)
    -- the link of every lane that completes, and the counter of every such lane
    let link := fun (target : Ctx → Nat → Option DWord) (t : State) (x : Ctx) =>
      ∀ l, x.completes (target x) l →
        (∀ r d, x.f.dst = .v r d → ∀ j < 2, t.writes x (x.e + 4) l
          (.v (r.toNat + j) (BitVec.allOnes 32) (resultWord x.nextPc.toNat j))) ∧
        ∀ r, x.f.dst = .g r → ∀ j < 2, t.writes x (x.e + 3) 0 (.g (r.toNat + j) (resultWord x.nextPc.toNat j))
    let count := fun (off : DWord) (t : State) (x : Ctx) =>
      ∀ l, x.completes (loop off x) l →
        (∀ r d, x.f.dst = .v r d → t.writes x (x.e + 4) l (.v r.toNat (BitVec.allOnes 32) (less x l))) ∧
        ∀ r, x.f.dst = .c r → t.writes x (x.e + 3) l
          (.c r.toNat (x.thread l).lv.ctx (BitVec.allOnes 32) (less x l) none)
    let none := fun (_ : State) (_ : Ctx) => True
    R (.braW32 stall o20) 2 (rel (o20.signExtend 64)) none ∧ R (.bra w) 2 (rel (w.imm.signExtend 64)) none ∧
    R (.brx f) 4 reg none ∧ R (.ret f) 4 reg none ∧
    R (.call w) 2 (rel (w.imm.signExtend 64)) (link (rel (w.imm.signExtend 64))) ∧ R (.callx f) 4 reg (link reg) ∧
    R (.brdecW32 stall ctr o13) 2 (loop (o13.signExtend 64)) (count (o13.signExtend 64)) ∧
    R (.brdec o18 f) 2 (loop (o18.signExtend 64)) (count (o18.signExtend 64))) ∧
  ((∀ (s : State) (f : Fields) (code : BitVec 18),
    let R := fun (i : Instr) (P : State → Ctx → Nat → Prop) => ∃ t, exec i s = .next t ∧
      let x := s.issueOf i
      s.keepsOthers t x x.linkWrite ∧
      (x.lanes.Nodup → ∀ l ∈ x.lanes, if x.active l then P t x l else t.passes x l)
    R (.nop f) (fun t x l => t.passes x l) ∧
    R (.trap code f) (fun t x l => s.raises t x l 11 (code.setWidth 64) x.nextPc) ∧
    R (.bkpt code f) (fun t x l => s.raises t x l 10 (code.setWidth 64) x.pc) ∧
    R (.tret f) fun t x l =>
      if (x.thread l).handler = false then s.raises t x l 1 x.pc x.pc
      else if (x.thread l).trappc.getLsbD 0 then s.raises t x l 5 (x.thread l).trappc x.pc
      else ∀ u, x.raw.threadAt x.slot l = some u → t.threadAt x.core x.slot l =
        some { u with lv := u.shadow, handler := false, pc := u.trappc, next := x.nextIssue + 4 }) ∧
  (∀ (s : State) (f : Fields), ∃ t, exec (.yield f) s = .next t ∧
    let x := s.issueOf (.yield f)
    (∀ l ∈ x.lanes, t.passes x l) ∧
    if x.actives = [] then s.keepsOthers t x x.linkWrite
    else
      t.writes x x.e 0 (.group .ready) ∧
      (∀ l u, x.raw.threadAt x.slot l = some u → t.writes x x.e l (.clear x.tag)) ∧
      ∃ d, d ≤ max (x.e + 1) s.now ∧ ∃ dom, (d, Event.activeSetEntry x.core dom) ∈ t.agenda))

/-! ## Memory -/

/-- R323, R325, R332 to R334, R372: LD and its short form. A load changes no byte and no register but its
destination, which receives the line of the core's L1 that serves it under the page's key slot (a queue's line is
not cached, R111), or the bytes that the core sees at the home slice; poison stops the lane. The line's encryption
does not show in its bytes (log 73), and times are the rows of R21 (log 9). -/
def Obligations.GlobalLoads : Prop :=
  ∀ (s : State) (f : Fields) (y : Short),
    let R := fun (i : Instr) (m : BitVec 5) =>
      let n := memSize m
      Accesses s s i n Need.read (fun x l => BitVec.ofNat 64 (x.value l x.f.a 2 .int) +
          (word (x.value l x.f.b 1 .int)).signExtend 64) fun x l s2 tgt t =>
        s2.sameBytes t ∧ ∀ pa, tgt = .mem pa → s2.lets x.core pa →
          let q := s2.routeRead pa
          let loaded := fun (bs : List Byte) => t.returns x l (sizeRegs m)
            (if n < 4 ∧ m.getLsbD 3 then (BitVec.ofInt 32 (asInt false (8 * n) (leNat bs))).toNat else leNat bs)
          match if s2.isQueueLine (q / 128 * 128) then none
            else (s2.core x.core).l1Hit (s2.keyOf q) (s2.thread x.core x.slot l).l1since q with
          | some c => loaded ((c.bytes.drop (q % 128)).take n)
          | none =>
            if s2.poisoned pa n then s2.terminates t x l 0x12 ((BitVec.ofNat 64 (x.value l x.f.a 2 .int) +
              (word (x.value l x.f.b 1 .int)).signExtend 64))
            else loaded (s2.view (.core x.core) q n)
    R (.ld f) f.mod ∧ R (.ldW32 y) 0

/-- R323, R325, R332 to R334, R372, R374: ST and its short form. The bytes stored are what the core reads there from
now on; they are tentative, so no other team side sees them; nothing else changes. A store to an enabled descriptor
that leaves ENABLE set is dropped (R111). Which lines the part knows for descriptors is the model's reading (log 6).
-/
def Obligations.GlobalStores : Prop :=
  ∀ (s : State) (f : Fields) (y : Short),
    let R := fun (i : Instr) (m : BitVec 5) =>
      let n := memSize m
      Accesses s s i n Need.write (fun x l => BitVec.ofNat 64 (x.value l x.f.a 2 .int) +
          (word (x.value l x.f.b 1 .int)).signExtend 64) fun x l s2 tgt t =>
        match tgt with
        | .peer _ _ => s2.sameBytes t
        | .mem pa =>
          let q := s2.routeRead pa
          let bs := leBytes n (x.value l x.f.dst (sizeRegs m) .int)
          s2.lets x.core pa → s2.routeWrite pa = .at_ q → s2.stagingFull x.core pa = false →
            if s2.dropsStore q bs then s2.sameBytes t
            else
              let p := s2.routeRead q
              ((s2.core x.core).side.isSome →
                ∀ a, ∀ k < n, s2.routeRead a = p + k → t.viewByte (.core x.core) a = bs.getD k 0) ∧
              (s2.takesStore x.core p → s2.sameBytes t (fun a => p ≤ a ∧ a < p + n) ∧
                ∀ v a, ¬s2.sameSide x.core v → t.viewByte v a = s2.viewByte v a)
    R (.st f) f.mod ∧ R (.stW32 y) 0

/-- R370, R375, R397, R400 to R403, R410: ATOM, ACAS, RED and LAST. After a release's publication and that
of the core's own bytes, the location is read and written in one step, for every agent at once; ATOM and
ACAS return the old value, LAST 1 for the arrival that completes the count; an acquire is due before the
thread's next issue. -/
def Obligations.GlobalAtomics : Prop :=
  (∀ (s : State) (o : AtomOp) (ty : AType) (f : Fields),
    let R := fun (i : Instr) (n regs : Nat) (rel : Bool) (new ret : Ctx → Nat → Nat → Nat) (acq : Nat → Bool) =>
      let x := s.issueOf i
      let dem := s.demote x.core (f.mod.toNat % 8)
      Accesses s dem.2 i n Need.both (fun x l => BitVec.ofNat 64 (x.value l x.f.a 2 .int)) fun x l s2 tgt t =>
        match tgt with
        | .peer _ _ => (if rel then s2.publishPhase x.core x.slot l dem.1 else s2).sameBytes t
        | .mem pa =>
          let q := s2.routeRead pa
          s2.lets x.core pa → s2.routeWrite pa = .at_ q →
            let s3 := if rel then s2.publishPhase x.core x.slot l dem.1 else s2
            if s3.poisoned q n then s3.sameBytes t ∧ s3.terminates t x l 0x12 (BitVec.ofNat 64 (x.value l x.f.a 2 .int))
            else
              let s4 := s3.publishWhere dem.1 x.core fun w =>
                w.core == x.core && !w.hidden && w.pub.isNone && w.touches q n
              let p := s2.routeRead q
              let old := leNat (s4.view (.core x.core) q n)
              s4.sameBytes t (fun a => p ≤ a ∧ a < p + n) ∧
              (∀ v a, ∀ k < n, s2.routeRead a = p + k → t.viewByte v a = (leBytes n (new x l old)).getD k 0) ∧
              t.returns x l regs (ret x l old) ∧
              (acq (ret x l old) = true → ∀ u, t.threadAt x.core x.slot l = some u →
                ∃ sc, u.acqNext = some sc ∧ dem.1 ≤ sc)
    let b := fun (x : Ctx) (l n : Nat) => x.value l x.f.b n .int
    let w := 32 * ty.regs
    let F := fun (x : Ctx) (l old : Nat) =>
      (rule401 o (ty = .n32 ∨ ty = .n64) (BitVec.ofNat w old) (BitVec.ofNat w (b x l ty.regs))).toNat
    let rel := f.mod.getLsbD 4
    let acq := fun (_ : Nat) => f.mod.getLsbD 3
    R (.atom o ty f) (4 * ty.regs) ty.regs rel F (fun _ _ old => old) acq ∧
    R (.red o ty f) (4 * ty.regs) 0 rel F (fun _ _ old => old) (fun _ => false) ∧
    R (.acas ty f) (4 * ty.regs) ty.regs rel
      (fun x l old => if old = b x l (2 * ty.regs) % 2 ^ w then b x l (2 * ty.regs) / 2 ^ w % 2 ^ w else old)
      (fun _ _ old => old) acq ∧
    R (.last f) 4 1 true (fun x l old => if (old + 1) % 2 ^ 32 = b x l 1 % 2 ^ 32 then 0 else (old + 1) % 2 ^ 32)
      (fun x l old => if (old + 1) % 2 ^ 32 = b x l 1 % 2 ^ 32 then 1 else 0) (fun r => r == 1))

/-- R123, R157 to R161, R323, R334, R423: the checks of a lane's access, in their order. A translation that passes
is kept in the lane's last-page register; it changes no register of a thread and no byte outside the lines of the
leaf entries it has gone through: those of the page in both stages, and those of the first stage's tables. The
layout of a page-table entry is the family's (log 25). -/
def Obligations.AccessChecks : Prop :=
  ∀ (s : State) (core slot lane : Nat) (va : DWord) (need : Need), s.memOk = true →
    let l := s.launch (s.core core).sideD.launch
    let r := s.resolveLane core slot lane va.toNat need
    let page := va.toNat / 65536
    let covers := fun (x : Lease) => x.page ≤ page ∧ page < x.page + x.count
    let leased := (∃ x ∈ l.leases, covers x) ∧
      ((need.r = true ∨ need.x = true) → ∃ x ∈ l.leases, covers x ∧ x.kind ≠ .wo) ∧
      (need.w = true → ∃ x ∈ l.leases, covers x ∧ x.kind ≠ .ro)
    let allows := fun (r w x : Bool) =>
      (need.r = true → r = true) ∧ (need.w = true → w = true) ∧ (need.x = true → x = true)
    let kept := fun (e : LastPage) => (s.core core).lastPage.find (laneKey slot lane) = some e ∧ e.vpage = page ∧
      e.part = l.part ∧ (need.w = true → e.dirty = true)
    if va.extractLsb' 57 7 ≠ (if va.getLsbD 56 then 127 else 0) then r = .error 0x11
    else if ¬leased then r = .error 0x10
    else if va.extractLsb' 56 8 = 255 then
      let pod := va.toNat / 2 ^ 46 % 1024
      if s.peerOk l.part pod need then r = .ok (.peer pod (va.toNat % 2 ^ 46), s) else r = .error 0x11
    else
      (∀ e, kept e → if allows e.r e.w e.x then r = .ok (.mem (e.frame * 65536 + va.toNat % 65536), s)
        else r = .error 0x11) ∧
      ((∀ e, ¬kept e) →
        match s.xlate l.part l.datp va.toNat with
        | .error _ => r = .error 0x11
        | .ok z =>
          if ¬allows z.r z.w z.x ∨ tierOf z.pa = none ∨ s.poolOk l.part z.pa = false then r = .error 0x11
          else if ∀ f ∈ l.frames, ¬(f.frame ≤ z.pa / 65536 ∧ z.pa / 65536 < f.frame + f.count) ∧
              ¬(f.gpage ≤ z.gpa / 65536 ∧ z.gpa / 65536 < f.gpage + f.count) then r = .error 0x10
          else
            let leaf := fun (a p : Nat) => a / 128 = s.routeRead p / 128
            ∃ t e, r = .ok (.mem z.pa, t) ∧ s.keepsRegs t ∧
              s.sameBytes t (fun a => leaf a z.onePa ∨ leaf a z.two.pteAddr ∨
                ∃ g ∈ z.path, ∃ p, s.walkG l.part g z.small = .ok p ∧ leaf a p.pteAddr) ∧
              (t.core core).lastPage.find (laneKey slot lane) = some e ∧ e.vpage = page ∧
              e.frame = z.pa / 65536 ∧ e.r = z.r ∧ e.w = z.w ∧ e.x = z.x ∧ e.part = l.part)

/-- R174, R175, R178, R333, R386, R450: what keeps an access back, and that holding it changes no byte and no
register: a page under handover, an earlier access of the core to the line, a store that finds no line of the core's
staging share, a write to the line that is being copied. -/
def Obligations.HeldAccesses : Prop :=
  ∀ (s : State) (h : Held) (leave row : Nat),
    let t := s.tryAccess h leave row
    let holds := fun (cause : Nat) (win : Option Nat) =>
      s.sameBytes t ∧ s.keepsRegs t ∧
      (∃ id, t.held = s.held ++ [{ h with id := id, cause := cause, win := win, first := true, miss := false }] ∧
        (win = none → if cause = 0x20 then ∃ hub, (s.now + 32, Event.migWindowReplay hub id) ∈ t.agenda
          else if cause = 0x21 then ∃ page, (s.now + 512, Event.handoverReplay page id) ∈ t.agenda
          else (s.now + 1, Event.stagingRetry h.core id) ∈ t.agenda)) ∧
      (h.acq = true → ∀ u, t.threadAt h.core h.slot h.lane = some u → u.wait = .held (BitVec.ofNat 8 cause))
    let mine := s.held.filter fun g => h.core = g.core ∧ g.pa / 128 = h.pa / 128 ∧ g.id ≤ s.order
    if h.op.moves = true ∧ s.needsHandover h.pa then holds 0x21 none
    else if mine ≠ [] then ∀ g, mine.head? = some g → holds g.cause none
    else h.op.writes = true →
      (∀ q bs stream, s.routeWrite h.pa = .at_ q → h.op = .store bs stream → s.stagingFull h.core h.pa = true →
        holds 0 none) ∧
      ∀ hub, s.routeWrite h.pa = .stall hub →
        let window := s.held.filter fun g => g.win = some hub
        if window.length < 32 ∧ (window.filter fun g => (s.launch g.launch).part = (s.launch h.launch).part).length < 8
        then holds 0x20 (some hub)
        else holds 0x20 none

/-- R294, R323 to R325, R332, R335: LDS, STS, LDX, STX and their short forms. A load brings the bytes of the
target's granules and changes none; a store changes its own bytes and clears their granule's tag; a cluster access
that meets no team of its launch brings 0 or drops, and is counted. R294, R396, R401, R402: ATOMS and ATOMX. The
word is read and written at its bank in one step; the lane receives the old value; with .rel the thread's phase is
published first, with .acq an acquire is due before the thread's next issue. That a cluster access meets the team
that is there at its issue is the model's reading (log 23). -/
def Obligations.ScratchAccesses : Prop :=
  (∀ (s : State) (f : Fields) (y : Short),
    let addr := fun (x : Ctx) (l : Nat) => (x.value l x.f.a 1 .int + x.value l x.f.b 1 .int) % 2 ^ 32
    let L := fun (i : Instr) (m : BitVec 5) (cluster : Bool) =>
      let n := memSize m
      Scratches s s i n cluster addr fun x l c o t =>
        s.keepsScratch t ∧ s.sameBytes t ∧
        if cluster ∧ s.reaches x.core c = false then t.returns x l (sizeRegs m) 0 ∧ s.countsDrop t x.core
        else if (s.core c).spPoisoned o n then s.terminates t x l 0x12 (BitVec.ofNat 64 (addr x l))
        else
          let bs := (List.range' ((s.core c).spBase + o) n).map (s.sramByte c)
          t.returns x l (sizeRegs m)
            (if n < 4 ∧ m.getLsbD 3 then (BitVec.ofInt 32 (asInt false (8 * n) (leNat bs))).toNat else leNat bs)
    let S := fun (i : Instr) (m : BitVec 5) (cluster : Bool) =>
      let n := memSize m
      Scratches s s i n cluster addr fun x l c o t =>
        s.sameBytes t ∧
        if cluster ∧ s.reaches x.core c = false then s.keepsScratch t ∧ s.countsDrop t x.core
        else (s.core c).sramOk = true →
          s.storesScratch t c o (leBytes n (x.value l x.f.dst (sizeRegs m) .int))
    L (.lds f) f.mod false ∧ L (.ldsW32 y) 0 false ∧ L (.ldx f) f.mod true ∧
    S (.sts f) f.mod false ∧ S (.stsW32 y) 0 false ∧ S (.stx f) f.mod true) ∧
  (∀ (s : State) (o : AtomOp) (ty : AType) (f : Fields),
    let n := 4 * ty.regs
    let R := fun (i : Instr) (cluster : Bool) =>
      let x := s.issueOf i
      let dem := if f.mod.getLsbD 4 || f.mod.getLsbD 3 then s.demote x.core (f.mod.toNat % 8)
        else (f.mod.toNat % 8, s)
      Scratches s dem.2 i n cluster (fun x l => x.value l x.f.a 1 .int) fun x l c off t =>
        (f.mod.getLsbD 4 = false → s.sameBytes t) ∧
        (f.mod.getLsbD 3 = true → ∀ u, t.threadAt x.core x.slot l = some u →
          ∃ sc, u.acqNext = some sc ∧ dem.1 ≤ sc) ∧
        if cluster ∧ s.reaches x.core c = false then
          s.keepsScratch t ∧ t.returns x l ty.regs 0 ∧ dem.2.countsDrop t x.core
        else if (s.core c).spPoisoned off n then
          s.keepsScratch t ∧ s.terminates t x l 0x12 (BitVec.ofNat 64 (x.value l x.f.a 1 .int))
        else
          let old := leNat ((List.range' ((s.core c).spBase + off) n).map (s.sramByte c))
          let new := (rule401 o (ty = .n32 ∨ ty = .n64) (BitVec.ofNat (8 * n) old)
            (BitVec.ofNat (8 * n) (x.value l x.f.b ty.regs .int))).toNat
          t.returns x l ty.regs old ∧ ((s.core c).sramOk = true → s.storesScratch t c off (leBytes n new))
    R (.atoms o ty f) false ∧ R (.atomx o ty f) true)

/-- R336, R337, R339, R340: PREF, CCTL, ICINV and IFENCE. PREF brings the line into the L1, faults nothing and
changes no byte; CCTL.wb publishes the core's staged stores to the line, .inv drops it from the L1, and either waits
while an earlier access of the core to the line is held; ICINV empties the caches that a scope names on the
partition's cores; IFENCE empties the lane's loop buffer. What of it holds a thread is the model's reading (log 33).
-/
def Obligations.CacheControl : Prop :=
  ∀ (s : State) (f : Fields),
    let line := fun (x : Ctx) (l : Nat) =>
      (BitVec.ofNat 64 (x.value l x.f.a 2 .int) + (word (x.value l x.f.b 1 .int)).signExtend 64) &&& ~~~127#64
    let C := fun (i : Instr) (wb inv : Bool) =>
      let dem := if wb then s.scoped i else (0, s)
      Proceeds s dem.2 i fun x l s1 t =>
        match s1.resolveLane x.core x.slot l (line x l).toNat Need.any with
        | .error c => s1.terminates t x l c (line x l) ∧ s1.sameBytes t
        | .ok (.peer _ _, s2) => s2.sameBytes t
        | .ok (.mem pa, s2) =>
          let k := s2.routeRead pa / 128
          let mine := fun (w : Staged) => w.core == x.core && !w.hidden && w.addr / 128 == k
          if ∃ h ∈ s2.held, h.core = x.core ∧ h.pa / 128 = pa / 128 ∧ h.id ≤ s2.order then
            -- an earlier access of the core to the line is held (R333)
            s2.sameBytes t ∧ (∀ d, (t.core d).l1 = (s2.core d).l1) ∧ ∃ h ∈ t.held, h.core = x.core ∧ h.slot = x.slot ∧
              h.lane = l ∧ h.pa = pa ∧ h.op = .cctl wb inv
          else
          (if wb then
            (s2.publishWhere dem.1 x.core mine).sameBytes t ∧
            ∀ w ∈ t.staged, mine w = true → ∃ sc a, w.pub = some (sc, a) ∧ dem.1 ≤ sc
          else s2.sameBytes t) ∧
          ∀ d, (t.core d).l1 =
            if inv ∧ d = x.core then (s2.core d).l1.filter (fun e => e.line ≠ k) else (s2.core d).l1
    (Proceeds s s (.pref f) fun x l s1 t =>
      (∀ d j m, t.threadAt d j m = s1.threadAt d j m) ∧
      match s1.resolveLane x.core x.slot l (line x l).toNat Need.read with
      | .ok (.mem pa, s2) => s2.sameBytes t ∧
        let q := s2.routeRead pa
        (s1.poisoned pa 128 = false → f.mod.getLsbD 0 = false → (s2.core x.core).l1Granules ≠ 0 →
          (∀ h ∈ s2.held, h.core = x.core → h.pa / 128 ≠ pa / 128) →
          (∀ a, a = pa ∨ a = q → s2.poisoned (a / 128 * 128) 128 = false ∧ s2.needsHandover a = false) →
          ∃ e ∈ (t.core x.core).l1, e.line = q / 128 ∧
            e.bytes = s2.view (.core x.core) (e.line * 128) 128)
      | _ => s1.sameBytes t) ∧
    C (.cctlWb f) true false ∧ C (.cctlInv f) false true ∧ C (.cctlWbinv f) true true ∧
    (Proceeds s s (.icinv f) fun x l s1 t =>
      let acts := fun (s2 : State) (line : Option Nat) => ∀ d,
        if s.scopeHas x.core (f.mod.toNat % 8) d = true ∧ (s.core d).owner = some (s.corePart x.core) then
          (t.core d).loops = [] ∧ (t.core d).icache =
            match line with
            | some k => (s.core d).icache.filter fun e => e.line ≠ k
            | none => []
        else (t.core d).loops = (s2.core d).loops ∧ (t.core d).icache = (s2.core d).icache
      if f.mod.getLsbD 3 then acts s1 none ∧ s1.sameBytes t
      else
        let a := BitVec.ofNat 64 (x.value l x.f.a 2 .int) &&& ~~~127#64
        match s1.resolveLane x.core x.slot l a.toNat Need.any with
        | .error c => s1.terminates t x l c a ∧ s1.sameBytes t
        | .ok (.peer _ _, s2) => s2.sameBytes t
        | .ok (.mem pa, s2) => acts s2 (some (s2.routeRead pa / 128)) ∧ s2.sameBytes t) ∧
    Proceeds s s (.ifence f) fun x l s1 t =>
      (t.core x.core).loops.get [] l = [] ∧ s1.sameBytes t ∧
      ∀ u, s1.threadAt x.core x.slot l = some u →
        t.threadAt x.core x.slot l = some { u with next := max u.next (x.e + 5) }

/-- R376 to R380, R384, R408: PHASE. .pub publishes every write of the thread's open phase at the scope; .snap
makes the lines that the core's L1 holds by now unreadable for the thread; .full acquires once its
publication is complete. -/
def Obligations.Phases : Prop :=
  ∀ (s : State) (f : Fields),
    let R := fun (i : Instr) (pub snap : Bool) =>
      let dem := s.scoped i
      Proceeds s dem.2 i fun x l s1 t =>
        let d := (s1.core x.core).sideD
        let u0 := s1.thread x.core x.slot l
        (if pub then
          (s1.publishPhase x.core x.slot l dem.1).sameBytes t ∧
          ∀ w ∈ t.staged, w.inPhase d.launch d.team u0.index = true → ∃ sc a, w.pub = some (sc, a) ∧ dem.1 ≤ sc
        else s1.sameBytes t) ∧
        ∀ u, t.threadAt x.core x.slot l = some u →
          (pub = true → s1.now < u.pubDone) ∧
          (snap = true → pub = false → 1 ≤ dem.1 → s1.order < u.l1since) ∧
          (snap = true → pub = true → u.pubDone ≤ u.next ∧ ∃ sc, u.acqNext = some sc ∧ dem.1 ≤ sc)
    R (.phasePub f) true false ∧ R (.phaseSnap f) false true ∧ R (.phaseFull f) true true

/-- R411 to R413, R527: BAR sends an arrival of every active lane to the side 0 core; there a thread
that is pending raises CONV_MISUSE, and any other arrival counts, fixes N as the phase's first, and completes
the phase as the last; the waits of a completed phase end. -/
def Obligations.Barriers : Prop :=
  ∀ (s : State) (f : Fields),
    let side := fun (c : Nat) => (s.core c).sideD.side
    let R := fun (i : Instr) (kind : BarKind) => ∃ t, exec i s = .next t ∧
      let x := s.issueOf i
      s.awaits t x .answer (kind != .arrive) ∧
      ∀ b, x.f.a = .bar b → ∀ l ∈ x.okLanes [],
        (x.e + (if side x.core = 0 then 2 else 16),
          Event.barrierArrival x.core x.slot l b (BitVec.ofNat 24 (x.value l x.f.b 1 .int)) kind) ∈ t.agenda
    R (.barArrive f) .arrive ∧ R (.barWait f) .wait ∧ R (.barSync f) .sync ∧
    (∀ core slot lane b count kind T u a, s.coreTeam core = some T → s.threadAt core slot lane = some u →
      u.await = some a →
      let x := T.barriers.get Barrier.zero b.toNat
      let y := x.after u.index count (s.teamLive T).length
      let waits := fun (t : State) => t.threadAt core slot lane = some { u with wait := .barrier b x.gen }
      let R := s.onEvent .barrierArrival (.barrierArrival core slot lane b count kind)
      (kind = .wait → R fun t => t.teams = s.teams ∧ waits t) ∧
      (kind ≠ .wait → (x.pend.find u.index).isSome = true →
        R fun t => t.teams = s.teams ∧ s.misused t core slot lane (0xE0 + b.toNat)) ∧
      (kind ≠ .wait → x.pend.find u.index = none → R fun t =>
          (∃ T', t.findTeam T.launch T.index = some T' ∧
            ∀ c : BitVec 3, T'.barriers.get Barrier.zero c.toNat =
              if c = b then y else T.barriers.get Barrier.zero c.toNat) ∧
          (if kind = .sync then waits t else s.goesOn t core slot lane (a.e + (if side core = 0 then 2 else 32))) ∧
          (y.gen ≠ x.gen → ∀ c ∈ s.sidesOf T,
            (s.now + (if side c = 0 then 2 else 16), Event.barrierWake c b) ∈ t.agenda))) ∧
    ∀ core b T slot lane u, s.coreTeam core = some T → s.threadAt core slot lane = some u →
      let gen := (T.barriers.get Barrier.zero b.toNat).gen
      (∀ n, u.wait = .barrier b n → n ≠ gen →
        s.onEvent .barrierWake (.barrierWake core b) fun t => s.goesOn t core slot lane s.now) ∧
      ((∀ n, u.wait = .barrier b n → n = gen) →
        s.onEvent .barrierWake (.barrierWake core b) fun t => t.threadAt core slot lane = some u)

/-- R415 to R418, R527: CDECL and CSIGN, and their effects at the side 0 core. A declaration replaces the set
unless the round is partly signed; a signature counts once for each declared member, and the one that
makes SIGNED equal to SET completes the round. -/
def Obligations.Convergence : Prop :=
  ∀ (s : State) (f : Fields),
    let side := fun (c : Nat) => (s.core c).sideD.side
    let arrive := fun (x : Ctx) => x.e + (if side x.core = 0 then 2 else 16)
    (∃ t, exec (.cdecl f) s = .next t ∧
      let x := s.issueOf (.cdecl f)
      let kind := f.mod.toNat % 4
      ∀ k, x.f.a = .k k →
        if kind = 2 ∧ (s.teamOf x.core).length < 2 then
          s.keepsOthers t x x.linkWrite ∧
          (x.lanes.Nodup → ∀ l ∈ x.okLanes [], s.raises t x l 8 (BitVec.ofNat 64 (0xE0 + k.toNat)) x.pc)
        else
          s.awaits t x .answer false ∧
          ∀ l, (x.okLanes []).head? = some l → ∃ set,
            (arrive x, Event.cdeclEffect x.core x.slot k set (x.okLanes [])) ∈ t.agenda ∧
            match kind with
            | 0 => ∀ n ∈ set, ∃ m u, (m, u) ∈ (x.raw.group x.slot).threads ∧ u.exited = false ∧ u.index = n ∧
                (x.value l x.f.b 2 .int).testBit m = true
            | 1 => set = t.sideLive x.core
            | _ => ∀ T, s.coreTeam x.core = some T → set = t.teamLive T) ∧
    (∃ t, exec (.csign f) s = .next t ∧
      let x := s.issueOf (.csign f)
      s.awaits t x .answer true ∧ ∀ k, x.f.a = .k k → ∀ l ∈ x.okLanes [],
        (arrive x, Event.signatureArrival x.core x.slot l k false) ∈ t.agenda) ∧
    (∀ core slot k set lanes T, s.coreTeam core = some T → lanes.Nodup →
      let c := T.convs.get Conv.zero k.toNat
      (c.signed = [] → s.onEvent .cdeclEffect (.cdeclEffect core slot k set lanes) fun t =>
          (∃ T', t.findTeam T.launch T.index = some T' ∧
            let d := T'.convs.get Conv.zero k.toNat
            d.decl ≠ .none ∧ d.use = .none ∧ d.signed = [] ∧ d.round = c.round ∧
            d.set = set.filter (s.teamLive T).contains) ∧
          ∀ l ∈ lanes, ∃ n, s.goesOn t core slot l n) ∧
      (c.signed ≠ [] → s.onEvent .cdeclEffect (.cdeclEffect core slot k set lanes) fun t =>
        t.teams = s.teams ∧ ∀ l ∈ lanes, s.misused t core slot l (0xE0 + k.toNat))) ∧
    ∀ core slot lane k T u a, s.coreTeam core = some T → s.threadAt core slot lane = some u → u.await = some a →
      let R := s.onEvent .signatureArrival (.signatureArrival core slot lane k false)
      let c := T.convs.get Conv.zero k.toNat
      let bad := c.decl = .none ∨ u.index ∉ c.set ∨ u.index ∈ c.signed ∨ (c.use ≠ .none ∧ c.use ≠ .csign)
      (bad → R fun t => t.teams = s.teams ∧ s.misused t core slot lane (0xE0 + k.toNat)) ∧
      (¬bad → R fun t => ∃ T', t.findTeam T.launch T.index = some T' ∧
          let d := T'.convs.get Conv.zero k.toNat
          d.decl = c.decl ∧ d.set = c.set ∧
          if ∀ n ∈ c.set, n = u.index ∨ n ∈ c.signed then
            d.use = .none ∧ d.signed = [] ∧ d.round = c.round + 1 ∧
            ∀ core' ∈ s.sidesOf T, ∀ j m v, s.threadAt core' j m = some v → ¬(core' = core ∧ j = slot ∧ m = lane) →
              v.wait = .sign k c.round → ∃ n, s.goesOn t core' j m n
          else
            d.use = .csign ∧ d.round = c.round ∧ (∀ n, n ∈ d.signed ↔ n = u.index ∨ n ∈ c.signed) ∧
            t.threadAt core slot lane = some { u with wait := .sign k c.round })

/-- R372, R404 to R406: WAITC. A lane whose condition holds at its first evaluation has its status and goes on; any
other parks and blocks its group. A write to the line, a poll or the timeout takes the evaluation up again. That a
poll and a re-evaluation meet the state of their own cycle is the model's reading (log 23). -/
def Obligations.Waits : Prop :=
  ∀ (s : State), s.memOk = true →
    (∀ (r : WRel) (uns w64 : Bool) (f : Fields),
      let i := Instr.waitc r uns w64 f
      let dem := s.scoped i
      let x := s.issueOf i
      let n := if w64 then 8 else 4
      ∀ l, x.alone l →
        (∀ d ∈ s.conds, d.stamp ≤ s.order ∧ ¬(d.core = x.core ∧ d.slot = x.slot ∧ d.tag = x.tag)) →
        let a := BitVec.ofNat 64 (x.value l x.f.a 2 .int)
        let cond := fun (pa : Nat) => ({
          core := x.core, slot := x.slot, lane := l, va := a, pa := pa, rel := r, uns := uns, w64 := w64
          value := BitVec.ofNat 64 (x.value l x.f.b (if w64 then 2 else 1) .int), tag := x.tag
          scope := dem.1, peer := false, mon := false, stamp := 0 } : CondWait)
        (∃ t, exec i s = .next t ∧ t.blocks x ∧
          if a.toNat % n ≠ 0 then ∃ s1, s.raises s1 x l 5 a x.pc ∧ s1.blocksTo t x
          else ∃ s1, dem.2.keepsOthers s1 x x.linkWrite ∧ s1.waitsAt x l .cond true ∧
            match s1.resolveLane x.core x.slot l a.toNat Need.read with
            | .error c => s1.terminates t x l c a ∧ s1.sameBytes t
            | .ok (.peer _ _, s2) => s2.sameBytes t
            | .ok (.mem pa, s2) => s2.sameBytes t ∧
              ∃ mon stamp, s2.evaluates t { cond pa with mon := mon, stamp := stamp }) ∧
        -- R405: a condition that holds at the first evaluation
        ∀ pa s2, a.toNat % n = 0 → s.resolveLane x.core x.slot l a.toNat Need.read = .ok (.mem pa, s2) →
          s2.needsHandover pa = false → s2.poisoned (s2.routeRead pa) n = false → s2.condMet (cond pa) = true →
          ∃ t, exec i s = .next t ∧ t.returns x l 1 0x100 ∧
            ∀ u, t.threadAt x.core x.slot l = some u →
              u.pc = x.nextPc ∧ u.wait = .none ∧ u.acqNext = some dem.1) ∧
    -- a condition of the package's own memory that holds: its lane has OK and goes on
    let met := fun (c : CondWait) => s.needsHandover c.pa = false ∧
      s.poisoned (s.routeRead c.pa) (if c.w64 then 8 else 4) = false ∧ s.condMet c = true
    let ended := fun (c : CondWait) (t : State) => s.sameBytes t ∧ (∀ d ∈ t.conds, d.stamp ≠ c.stamp) ∧
      t.answers c.core c.slot c.lane c.tag [0x100] ∧
      ∀ u, t.threadAt c.core c.slot c.lane = some u → u.wait = .none ∧ u.acqNext = some c.scope
    (∀ line c, s.conds.filter (fun c => c.mon && c.pa / 128 == line) = [c] → c.peer = false →
      (met c → s.onEvent .monitorReevaluate (.monitorReevaluate line) (ended c)) ∧
      s.onEvent .monitorReevaluate (.monitorReevaluate line) fun t => s.sameBytes t ∧ s.evaluates t c) ∧
    (∀ core slot c, s.conds.filter (fun c => c.core == core && c.slot == slot && !c.mon) = [c] → c.peer = false →
      (met c → s.onEvent .monitorPoll (.monitorPoll core slot) (ended c)) ∧
      s.onEvent .monitorPoll (.monitorPoll core slot) fun t => s.sameBytes t ∧ s.evaluates t c ∧
        (c ∈ t.conds → (s.now + 512, Event.monitorPoll core slot) ∈ t.agenda)) ∧
    ∀ core slot stamp c, s.conds.find? (fun c => c.stamp == stamp) = some c → c.core = core → c.slot = slot →
      s.onEvent .waitcTimeout (.waitcTimeout core slot stamp) fun t =>
        s.sameBytes t ∧ (∀ d ∈ t.conds, d.stamp ≠ stamp) ∧ t.answers c.core c.slot c.lane c.tag [0x108] ∧
        ∀ u, t.threadAt c.core c.slot c.lane = some u → u.wait = .none ∧ u.acqNext = some c.scope

/-- R110 to R112, R116 to R121, R178: ENQ and DEQ of one lane, and a waiting operation when its queue is served or
it polls. Which lines are known for queues, the order of the checks, and when a queue is full are the model's
readings (logs 6, 34 and 35). -/
def Obligations.Queues : Prop :=
  ∀ (s : State), s.memOk = true →
    (∀ (enq : Bool) (f : Fields),
      let i := if enq then Instr.enq f else Instr.deq f
      let wait := f.mod.getLsbD 3
      let sp := f.mod.getLsbD 4
      let dem := s.scoped i
      let x := s.issueOf i
      let la := s.launch (s.core x.core).sideD.launch
      let need := if enq then Need.read else Need.write
      ∀ l, x.alone l →
        let q := BitVec.ofNat 64 (x.value l x.f.a 2 .int)
        let a := BitVec.ofNat 64 (x.value l x.f.b (if sp then 1 else 2) .int)
        let op := fun (qpa pa : Nat) => ({
          id := 0, who := .lane x.core x.slot l, enq := enq, q := q, qpa := qpa, line := a, linePa := pa
          sp := sp, scope := dem.1, tag := x.tag, wait := wait, mon := false } : QueueWait)
        -- R117: an insertion publishes the thread's phase first
        let ready := fun (u : State) => if enq then u.publishPhase x.core x.slot l dem.1 else u
        let has := fun (t : State) (st : Word) => t.returns x l 1 st.toNat ∧
          ∀ u, t.threadAt x.core x.slot l = some u →
            u.pc = x.nextPc ∧ (wait = true → u.wait = .none) ∧
            (enq = false → ∃ sc, u.acqNext = some sc ∧ dem.1 ≤ sc)
        let formed := canonical q.toNat = true ∧ (sp = true ∨ canonical a.toNat = true)
        (∃ t, exec i s = .next t ∧
          let raises := fun (c : Nat) (b : DWord) =>
            if wait then ∃ s1, s.raises s1 x l c b x.pc ∧ s1.blocksTo t x else s.raises t x l c b x.pc
          if q.toNat % 128 ≠ 0 then raises 5 q
          else if sp = false ∧ a.toNat % 128 ≠ 0 then raises 5 a
          else if sp = true ∧ s.scratchFits x.core false a.toNat 128 = false then raises 9 a
          else ∃ s1, dem.2.keepsOthers s1 x x.linkWrite ∧
            (if wait then s1.waitsAt x l .queue true ∧ t.blocks x
              else (∀ m ∈ x.lanes, s1.passes x m) ∧ s1.keepsRegs t) ∧
            let stops := fun (c : Nat) (b : DWord) => s1.terminates t x l c b ∧ s1.sameBytes t
            let goes := fun (s2 : State) (qpa pa : Nat) =>
              let s3 := ready s2
              let w := op qpa pa
              (∀ d ∈ s2.queueWaits, d.mon = true → d.qpa ≠ qpa) →
              s3.queues t w (has t) (fun c b => s3.terminates t x l c b)
                (if wait then (∃ d ∈ t.queueWaits, d = { w with id := d.id, mon := d.mon }) ∧
                  ∀ u, t.threadAt x.core x.slot l = some u → u.wait = .queue
                else has t (if enq then 0x101 else 0x102))
                ((∃ d ∈ t.queueWaits, d = { w with id := d.id }) ∧
                  ∀ u, t.threadAt x.core x.slot l = some u →
                    (wait = true → u.wait = .queue) ∧ (wait = false → enq = false → u.wait = .held 0x21))
            if canonical q.toNat = false then stops 0x11 q
            else if sp = false ∧ canonical a.toNat = false then stops 0x11 a
            else if la.leased (q.toNat / 65536) Need.both = false then stops 0x10 q
            else if sp = false ∧ la.leased (a.toNat / 65536) need = false then stops 0x10 a
            else
              match s1.resolveLane x.core x.slot l q.toNat Need.both with
              | .error c => stops c q
              | .ok (.peer _ _, _) => stops 0x11 q
              | .ok (.mem qpa, s2) =>
                if sp then goes s2 qpa 0
                else
                  match s2.resolveLane x.core x.slot l a.toNat need with
                  | .error c => stops c a
                  | .ok (.peer _ _, _) => stops 0x11 a
                  | .ok (.mem pa, s3) => goes s3 qpa pa) ∧
        -- R116: a record moves
        ∀ qpa pa s2 s3 count va z, formed → q.toNat % 128 = 0 → (sp = false → a.toNat % 128 = 0) →
          (sp = true → s.scratchFits x.core false a.toNat 128 = true) →
          la.leased (q.toNat / 65536) Need.both = true → (sp = true ∨ la.leased (a.toNat / 65536) need = true) →
          s.resolveLane x.core x.slot l q.toNat Need.both = .ok (.mem qpa, s2) →
          (if sp then pa = 0 ∧ s3 = s2 else s2.resolveLane x.core x.slot l a.toNat need = .ok (.mem pa, s3)) →
          (∀ d ∈ s.queueWaits, d.mon = true → d.qpa ≠ qpa) →
          let s4 := ready s3
          let w := op qpa pa
          s4.rule116 w = .moves count va z → s4.mayMove w z →
          (if enq then s4.record w ≠ none else s4.poisoned z.pa 128 = false) →
          ∃ t, exec i s = .next t ∧ has t (okCount count) ∧ s4.movesRecord t w count z) ∧
    -- a waiting operation whose queue has room, or a record: it is done, and the record has moved
    let passes := fun (w : QueueWait) (count va : Nat) (z : Xlat) => s.rule116 w = .moves count va z ∧ s.mayMove w z ∧
      if w.enq then s.record w ≠ none else s.poisoned z.pa 128 = false
    let gone := fun (w : QueueWait) (count : Nat) (z : Xlat) (t : State) => (∀ d ∈ t.queueWaits, d.id ≠ w.id) ∧
      s.movesRecord t w count z ∧ (∀ core slot lane, w.who = .lane core slot lane →
        t.answers core slot lane w.tag [okCount count]) ∧ ∀ h, w.who = .hart h → s.hartGets t h w.tag (okCount count)
    (∀ qpa w, s.queueWaits.filter (fun w => w.mon && w.qpa == qpa) = [w] → qpa % 128 = 0 → w.linePa % 128 = 0 →
      (∀ count va z, passes w count va z → s.onEvent .queueWaiterServe (.queueWaiterServe qpa) (gone w count z)) ∧
      s.onEvent .queueWaiterServe (.queueWaiterServe qpa) fun t => s.retries t w) ∧
    ∀ id w, s.queueWaits.find? (fun w => w.id == id) = some w → w.qpa % 128 = 0 → w.linePa % 128 = 0 →
      (∀ d ∈ s.queueWaits, d.id ≠ id → d.mon = true → d.qpa ≠ w.qpa) →
      (∀ count va z, passes w count va z → s.onEvent .queuePoll (.queuePoll id) (gone w count z)) ∧
      s.onEvent .queuePoll (.queuePoll id) fun t => s.retries t w ∧
        (w ∈ t.queueWaits → ∃ n ∈ [1, 512], (s.now + n, Event.queuePoll id) ∈ t.agenda)

/-- R122: lnl.enq and lnl.deq. The effect is that of ENQ or DEQ for one lane; a misaligned address, a failed
translation and poison are exceptions of the hart. R129, R130: the host windows. A doorbell examines slot HSEQ, or
at a full ring is kept; a slot whose sequence and CRC are right is accepted and the next examined; any other is
pending, and consumed as invalid once its time has ended and its record's slot is reserved. The causes of a hart's
exceptions, the agents that are service pairs, and the zeros in the record of an invalid slot are the model's
choices (logs 7, 74 and 76). -/
def Obligations.HartsAndHosts : Prop :=
  (∀ (s : State) (h : Nat) (scope : BitVec 3) (wait enq : Bool) (rs2 rs1 rd : BitVec 5), s.memOk = true →
    s.turn = .hart h →
    ∃ t, exec (if enq then .lnlEnq scope wait rs2 rs1 rd else .lnlDeq scope wait rs2 rs1 rd) s = .next t ∧
      let reg := fun (r : BitVec 5) => if r = 0 then 0 else (s.hart h).x.get 0 r.toNat
      let q := reg rs1
      let a := reg rs2
      let traps := fun (c : Nat) (b : DWord) => s.hartTraps t h c b ∧ s.sameBytes t
      t.turn = .idle ∧
      if q.toNat % 128 ≠ 0 then traps 6 q
      else if a.toNat % 128 ≠ 0 then traps (if enq then 4 else 6) a
      else
        match s.hartPa h q.toNat true, s.hartPa h a.toNat (!enq) with
        | none, _ => traps 7 q ∨ traps 15 q ∨ traps 23 q
        | _, none => if enq then traps 5 a ∨ traps 13 a ∨ traps 21 a else traps 7 a ∨ traps 15 a ∨ traps 23 a
        | some qpa, some pa =>
          let w : QueueWait :=
            { id := 0, who := .hart h, enq := enq, q := q, qpa := qpa, line := a, linePa := pa
              sp := false, scope := scope.toNat, tag := rd.toNat, wait := wait, mon := false }
          let parks := t.hart h = { s.hart h with parked := true } ∧
            ∃ d ∈ t.queueWaits, d.who = w.who ∧ d.enq = enq ∧ d.qpa = qpa ∧ d.linePa = pa ∧ d.tag = rd.toNat
          (∀ d ∈ s.queueWaits, d.mon = true → d.qpa ≠ qpa) →
          s.queues t w (s.hartGets t h rd.toNat)
            (fun c b => s.hartTraps t h (if c = 0x12 then 19 else if enq then 15 else 13) b)
            (if wait then parks else s.hartGets t h rd.toNat (if enq then 0x101 else 0x102)) parks) ∧
  (∀ (s : State) (hub queue qpa : Nat) (d : QDesc), s.memOk = true → s.hostDesc hub queue = some (qpa, d) →
    (∀ h, (s.hub h).forwards = []) →
    let examined := fun (u t : State) => t = u.hostExamine hub queue (d.slots + 1)
    let rings := fun (u t : State) =>
      if d.held = d.slots then queue ∈ (t.hub hub).deferred ∧ u.sameBytes t else examined u t
    -- the hub passes on to the next slot
    let passes := fun (u t : State) => (t.hub hub).pendingSlot.find queue = none ∧ ∃ u1,
      u.moved u1 (qpa + 24) (d.tail + 1) 0 [] (fun _ => False) ∧
      ∀ v a, t.viewByte v a =
        if u.routeRead (qpa + 48) ≤ u.routeRead a ∧ u.routeRead a < u.routeRead (qpa + 48) + 4 then
          (leBytes 4 (d.hseq + 1)).getD (u.routeRead a - u.routeRead (qpa + 48)) 0
        else u1.viewByte v a
    let lands := fun (u : State) (o : Nat) (b : Byte) (t : State) =>
      if d.slots ≤ o / 128 ∨ ∃ j < d.held, j < d.slots ∧ (d.head + j) % d.slots = o / 128 then t = u
      else match u.agentUse d.part (u.part d.part).datp (d.slotVa (o / 128)) Need.any true with
        | some (pa, z) => ∀ v a, t.viewByte v a = if u.routeRead a = u.routeRead (pa + o % 128) then b else z.viewByte v a
        | none => t = u
    (∀ k, let t := s.hostExamine hub queue (k + 1)
      if d.held = d.slots then t = s
      else match s.slotBytes d d.hseq with
        | none => t = s
        | some (_, bs) =>
          if leNat ((bs.drop 120).take 4) = d.hseq ∧ leNat ((bs.drop 124).take 4) = crc32c (bs.take 120) then
            ∃ u, passes s u ∧ t = u.hostExamine hub queue k
          else s.sameBytes t ∧
            match (s.hub hub).pendingSlot.find queue with
            | some _ => t = s
            | none => (t.hub hub).pendingSlot.find queue = some (s.now + 4096) ∧
              (s.now + 4096, Event.hostSlotTimeout hub queue d.hseq) ∈ t.agenda) ∧
    (d.held ≠ d.slots → s.onEvent .hostDoorbell (.hostDoorbell hub queue) (examined s)) ∧
    (d.held = d.slots → s.onEvent .hostDoorbell (.hostDoorbell hub queue) (rings s)) ∧
    (d.held ≠ d.slots → s.onEvent .hostDeferredExamine (.hostDeferredExamine hub queue) fun t =>
      ∃ u, s.sameBytes u ∧ queue ∉ (u.hub hub).deferred ∧ examined u t) ∧
    (d.held = d.slots → s.onEvent .hostDeferredExamine (.hostDeferredExamine hub queue) (rings s)) ∧
    (∀ offset data,
      let again := (∃ k < data.length, (offset + k) / 128 = d.hseq % d.slots) ∧ (s.hub hub).pendingSlot.find queue ≠ none
      let written := fun (u : State) => ∃ run : Nat → State, run 0 = s ∧
        (∀ k b, data[k]? = some b → lands (run k) (offset + k) b (run (k + 1))) ∧ u = run data.length
      let R := s.onEvent .hostSlotWrite (.hostSlotWrite hub queue offset data)
      (again → R fun t => ∃ u u1, written u ∧ examined u u1 ∧ t = u1.hostConsume hub queue) ∧ (¬again → R written)) ∧
    (s.onEvent .hostSlotTimeout (.hostSlotTimeout hub queue d.hseq) fun t => t = s.hostConsume hub queue) ∧
    (∀ seq, d.hseq ≠ seq → s.onEvent .hostSlotTimeout (.hostSlotTimeout hub queue seq) fun t => t = s) ∧
    ∀ at_, (s.hub hub).pendingSlot.find queue = some at_ →
      let t := s.hostConsume hub queue
      if s.now < at_ then t = s
      else match s.reserve d.part qpa with
        | none => t = s
        | some s1 => ∃ u, passes s1 u ∧ examined (u.complete d.part qpa d.tail 0xF10A 0 0 0 0) t)

/-- R186 to R189: PIN, UNPIN, HINT and PLQ. PIN pins and places every frame of its range or changes nothing; HINT
sets the preferences of unpinned frames, or is dropped and counted; any of these three stands behind an operation
that its hub has not ended. PLQ reads an entry. The order of a hub's operations, a pin on a frame without a leaf,
and the frame that is taken are the model's choices (logs 11, 60 and 84). -/
def Obligations.PlacementRequests : Prop :=
  ∀ (s : State) (f : Fields),
    let launch := fun (x : Ctx) => (s.core x.core).sideD.launch
    let va := fun (x : Ctx) (l : Nat) => x.value l x.f.a 2 .int
    let count := fun (x : Ctx) (l : Nat) => x.value l x.f.b 1 .int
    let P := fun (i : Instr) (unpin : Bool) => Proceeds s s i fun x l _ t =>
      let part := (s.launch (launch x)).part
      (s.core x.core).side.isSome = true → (x.raw.threadAt x.slot l).isSome = true →
        let same := t.places = s.places ∧ t.parts = s.parts ∧ t.hubs = s.hubs
        (∀ o, s.pinOps.find? (fun o => o.hub == hubOfCore x.core) = some o → o.left ≠ none → o.kind ≠ .hint →
          same ∧ ∃ o ∈ t.pinOps, o.va = va x l ∧ o.count = count x l ∧ o.left = none ∧ o.tag = x.tag) ∧
        ((∀ o ∈ s.pinOps, o.hub ≠ hubOfCore x.core) → match s.rule187 (launch x) (va x l) (count x l) (if unpin then 0 else x.value l x.f.c 1 .int) unpin with
        | .ends st => t.returns x l 1 st ∧ same
        | .waits => same ∧ ∃ o ∈ t.pinOps, o.va = va x l ∧ o.count = count x l ∧ o.left = none ∧ o.tag = x.tag
        | .unpins fs =>
          let n := (fs.filter fun f => (s.place f).pin).length
          t.returns x l 1 (0x100 + 512 * n) ∧ (t.part part).qpin.used = (s.part part).qpin.used - n ∧
          ∀ f, t.place f = if f ∈ fs then { s.place f with pin := false } else s.place f
        | .pins fs d =>
          (∀ f ∈ fs, (t.place f).pin = true ∧ (t.place f).ptier = BitVec.ofNat 2 (x.value l x.f.c 1 .int) ∧
            (t.place f).phub = BitVec.ofNat 2 (x.value l x.f.c 1 .int / 4)) ∧
          (∀ f, f ∉ fs → t.place f = s.place f) ∧
          (t.part part).qpin.used = (s.part part).qpin.used + (fs.filter fun f => !(s.place f).pin).length ∧
          if d = [] then t.returns x l 1 0x100
          else (∃ o ∈ t.pinOps, o.tag = x.tag ∧ o.left = some d ∧ o.moved = d.length) ∧ ∀ f ∈ d, t.moving f)
    P (.pin f) false ∧ P (.unpin f) true ∧
    (Proceeds s s (.hint f) fun x l _ t =>
      let target := x.value l x.f.c 1 .int
      let pages := (List.range (count x l)).map fun k => s.frameAt (launch x) (va x l + 65536 * k)
      (∀ o, s.pinOps.find? (fun o => o.hub == hubOfCore x.core) = some o → o.left ≠ none → o.kind ≠ .hint →
        t.places = s.places ∧ ∃ o ∈ t.pinOps, o.kind = .hint ∧ o.va = va x l ∧ o.count = count x l ∧ o.target = target) ∧
      ((∀ o ∈ s.pinOps, o.hub ≠ hubOfCore x.core) →
      if va x l % 65536 ≠ 0 ∨ count x l = 0 ∨ 4096 < count x l ∨ 64 ≤ target ∨
          (target % 4 = 3 ∧ target / 4 % 4 ≠ 3) ∨ none ∈ pages then
        t.places = s.places ∧
          (t.part (s.corePart x.core)).hintdrop = (s.part (s.corePart x.core)).hintdrop + 1
      else ∀ f, t.place f =
        if some f ∈ pages then
          { s.place f with
            passed := false
            ptier := if (s.place f).pin then (s.place f).ptier else BitVec.ofNat 2 target
            phub := if (s.place f).pin then (s.place f).phub else BitVec.ofNat 2 (target / 4)
            smpl := if target.testBit 5 then target.testBit 4 else (s.place f).smpl }
        else s.place f)) ∧
    Proceeds s s (.plq f) fun x l _ t =>
      let a := va x l
      let la := s.launch (launch x)
      t.places = s.places ∧ t.returns x l 2
        (if canonical a = false ∨ isWindow a = true ∨ la.leased (a / 65536) Need.any = false then 0x109
        else match s.xlate la.part la.datp a with
          | .error .invalid => 0x104
          | .error .refused => 0x109
          | .ok z =>
            -- between steps 4 and 5 of a move the old frame's entry describes the data (R170)
            let fr := s.entryFrame (z.pa / 65536)
            let p := s.place fr
            let at_ := match frameTier fr with
              | some (.hbm, h) => (1, h)
              | some (.lp, h) => (2, h)
              | some (.pool, _) => (3, 3)
              | none => (0, 0)
            let w : Word := p.heat ++ BitVec.ofNat 2 at_.1 ++ BitVec.ofNat 2 at_.2 ++ p.ptier ++ p.phub ++
              BitVec.ofBool p.pin ++ BitVec.ofBool p.smpl ++ BitVec.ofBool p.migr ++ (0 : BitVec 5)
            0x100 + 2 ^ 32 * w.toNat)

/-- R163, R164, R171 to R177: requests that withdraw translations, and the moves of frames. Every reader of a moving
frame sees the same bytes before and after a line's copy. The times, the lowest free frame, the early copy before
another agent's write, and the engine's request ahead of others are the model's choices (logs 9, 11, 32 and 83). -/
def Obligations.Moves : Prop :=
  ∀ (s : State),
    (∀ part req, req.getLsbD 16 = true →
      s.onEvent .invalidationRequest (.invalidationRequest part req false) fun t => t = s) ∧
    (∀ part req alias_, (req.getLsbD 16 = false ∨ alias_ = true) →
      s.onEvent .invalidationRequest (.invalidationRequest part req alias_) fun t => ∃ r, (t.part part).ivq = (s.part part).ivq ++ [r] ∧ r.req = req ∧ r.asid = (s.part part).ivasid ∧
        r.number = (s.part part).ivIssued.toNat ∧ (t.part part).ivIssued = (s.part part).ivIssued + 1 ∧
        (t.part part).ivDone = (s.part part).ivDone ∧ ∃ n, (n, Event.invalidationComplete part) ∈ t.agenda) ∧
    (∀ part r rest, (s.part part).ivq = r :: rest → r.acted = false → (∀ q ∈ r :: rest, q.move = none) →
      let done := fun (t : State) => (t.part part).ivDone = (s.part part).ivDone + 1 ∧ (t.part part).ivq = rest ∧ t.swept part r
      ((∀ h ∈ s.held, (s.launch h.launch).part ≠ part) → (∀ f p, (f, p) ∈ s.places → p.migr = false) →
        (s.part part).deferred = [] → (∀ k c, (k, c) ∈ s.cores → ∀ j ∈ c.jobs, j.started = none ∨ j.hpa = 0) →
        s.onEvent .invalidationComplete (.invalidationComplete part) done) ∧
      s.onEvent .invalidationComplete (.invalidationComplete part) fun t =>
        let waits := (t.part part).ivDone = (s.part part).ivDone ∧ (t.part part).ivq = r :: rest ∧
          (s.now + 1, Event.invalidationComplete part) ∈ t.agenda
        waits ∨ (done t ∧ ∀ h ∈ s.held, (s.launch h.launch).part = part →
          r.req.getLsbD 16 = false ∧ ¬r.names (h.va.toNat / 65536))) ∧
    (∀ hub, (∀ f ∈ (s.hub hub).late, heatHub f = hub) → s.onEvent .heatHalving (.heatHalving hub) fun t =>
      ∀ f, let k := (s.hub hub).late.count f
        t.place f = if heatHub f = hub then
            { s.place f with
              heat := BitVec.ofNat 16 (min 65535 ((s.place f).heat.toNat / 2 + k))
              passed := (s.place f).passed && k == 0 }
          else s.place f) ∧
    (∀ hub, s.places.sorted = true → s.onEvent .migrationStart (.migrationStart hub) fun t =>
      ∀ f, (s.place f).migr = false → (t.place f).migr = true →
        (s.place f).pin = false ∧ (s.place f).assigned = true ∧ (s.place f).ptepa ≠ 0 ∧ t.moving f) ∧
    (∀ hub f p tier h n, s.places = [(f, p)] → p.assigned = true → p.ptepa ≠ 0 → p.pin = false → p.migr = false →
        p.scrub = false → p.passed = false → frameTier f = some (tier, h) → heatHub f = hub → (s.hub hub).forwards.length < 8 →
        let want : Tier := if p.ptier = 1 then .hbm else if p.ptier = 2 then .lp else if p.ptier = 3 then .pool else tier
        let near := if p.phub = 3 then h else p.phub.toNat
        (want ≠ tier ∨ (tier ≠ .pool ∧ near ≠ h)) → s.freeFrame (s.tierRange p.part want near) = some n →
        (want = tier ∨ s.quotaRoom p.part want 1 = true) →
        s.onEvent .migrationStart (.migrationStart hub) fun t => ∃ e ∈ (t.hub hub).forwards, e.frm = f ∧ e.into = n ∧ e.progress = 0 ∧ n ∈ t.taken ∧
            (s.now + 20, Event.migrationLineCopy hub e.id) ∈ t.agenda) ∧
    (∀ hub id e, s.forwardOf e.frm = some (hub, e) → e.id = id → e.progress < 512 → e.into ≠ e.frm →
      (∀ g ∈ (s.hub hub).forwards, g.id = id → g = e) → s.forwardOf e.into = none →
      (∀ w ∈ s.staged, w.addr / 65536 ≠ e.into ∧ w.addr % 128 + w.bytes.length ≤ 128) →
      (s.place e.frm).ptepa.toNat / 65536 ≠ e.into → (s.place e.frm).ptepa.toNat % 8 = 0 →
      (∀ k, s.routeWrite (s.place e.frm).ptepa.toNat = .stall k → (s.place e.frm).ptepa.toNat / 65536 = e.frm) →
      (s.held.filter fun h => h.win == some hub && h.pa / 65536 == e.frm && h.pa % 65536 / 128 == e.progress) = [] →
      s.memOk = true →
      s.onEvent .migrationLineCopy (.migrationLineCopy hub id) fun t =>
        ({ e with progress := e.progress + 1 } : Forward) ∈ (t.hub hub).forwards ∧
        (∀ v a, a / 65536 = e.frm ∨ (s.routeRead a / 65536 ≠ e.into ∧ s.routeRead a / 65536 ≠ e.frm) →
          (e.progress = 511 → s.routeRead a / 128 ≠ s.routeRead (s.place e.frm).ptepa.toNat / 128) →
          t.viewByte v a = s.viewByte v a) ∧
        if e.progress < 511 then (s.now + 20, Event.migrationLineCopy hub id) ∈ t.agenda
        else (t.part e.part).ivIssued = (s.part e.part).ivIssued + 1) ∧
    ∀ hub id e, (s.hub hub).forwards.find? (fun g => g.id == id) = some e → s.pinOps = [] → (s.hub hub).moves = [] →
      e.into ≠ e.frm →
      s.onEvent .migrationComplete (.migrationComplete hub id) fun t =>
        (∀ g ∈ (t.hub hub).forwards, g.id ≠ id) ∧
        t.place e.into = (if (s.place e.frm).assigned then
            { s.place e.frm with migr := false, retired := (s.place e.into).retired, passed := false }
          else { Place.zero with scrub := true, retired := (s.place e.into).retired }) ∧
        t.place e.frm = { Place.zero with scrub := true, retired := (s.place e.frm).retired } ∧
        (s.now, Event.frameScrub e.frm) ∈ t.agenda

/-- R175, R178, R181, R393, R472 to R475: scrubs, handovers of pool pages, the replay of held accesses, retired
frames, poisoned write-backs and fenced cores. The line of a scrub notice, the times and the refuge of a retired
frame are the model's choices (logs 9, 12 and 60). -/
def Obligations.Frames : Prop :=
  ∀ (s : State),
    (∀ frame, s.memOk = true → s.routeRead s.scrubq.toNat / 65536 ≠ frame →
      let q := s.scrubq.toNat
      let d := s.qdesc .merged q
      let writes := q ≠ 0 ∧ d.ok = true
      s.routeRead (d.slotVa d.tail) / 65536 ≠ frame → s.clears q → s.clears (d.slotVa d.tail) →
      let wiped := fun (t : State) => (∀ v a, s.routeRead a / 65536 = frame → t.viewByte v a = 0) ∧
        ∀ n, n / 512 = frame → n ∉ t.poison
      let full := writes ∧ d.held = d.slots
      (full → s.onEvent .frameScrub (.frameScrub frame) fun t => wiped t ∧
        (t.place frame).scrub = true ∧ (s.now + 512, Event.frameScrub frame) ∈ t.agenda) ∧
      (¬full → s.onEvent .frameScrub (.frameScrub frame) fun t => wiped t ∧ (t.place frame).scrub = false ∧ (frame ∈ t.taken ↔ frame ∈ s.taken ∧ (s.place frame).retired = true) ∧
          (writes → s.moved t (q + 24) (d.tail + 1) (d.slotVa d.tail) (leBytes 8 frame ++ leBytes 120 0)
            (fun a => a / 65536 = frame)))) ∧
    (∀ page owner,
      let free := if (s.owners.find page).isSome then s.ownerSince.get 0 page + 8192 else 0
      let used := ∃ w ∈ s.staged, w.addr / 65536 = 2 ^ 35 + page
      let R := s.onEvent .poolHandover (.poolHandover page owner)
      (s.now < free → R fun t =>
        t.owners = s.owners ∧ t.handovers = s.handovers ∧ (free, Event.poolHandover page owner) ∈ t.agenda) ∧
      (free ≤ s.now → used → R fun t =>
        t.owners = s.owners ∧ (∃ h ∈ t.handovers, h.1 = page) ∧ (s.now + 1, Event.poolHandover page owner) ∈ t.agenda) ∧
      (free ≤ s.now → ¬used → R fun t =>
        (∀ p, t.owners.find p = if p = page then some owner else s.owners.find p) ∧
        t.ownerSince.get 0 page = s.now ∧ (∀ h ∈ t.handovers, h.1 ≠ page) ∧
        ∀ c x, (c, x) ∈ t.cores → ∀ y ∈ x.l1, y.line / 512 ≠ 2 ^ 35 + page)) ∧
    (∀ hub h, s.held.find? (fun g => g.id == h.id) = some h → h.win = none →
        let window := s.held.filter fun g => g.win = some hub
        let waits := (∃ k, s.routeWrite h.pa = .stall k) ∧ ¬(window.length < 32 ∧
          (window.filter fun g => (s.launch g.launch).part = (s.launch h.launch).part).length < 8)
        let R := s.onEvent .migWindowReplay (.migWindowReplay hub h.id)
        (waits → R fun t => t.held = s.held ∧ s.sameBytes t ∧ (s.now + 1, Event.migWindowReplay hub h.id) ∈ t.agenda) ∧
        (¬waits → s.keeps h → R fun t => s.replayed t hub h) ∧
        (¬waits → ¬s.keeps h → R fun t => (∀ g ∈ t.held, g.id ≠ h.id) ∧ s.replayed t hub h)) ∧
    (∀ page h, s.held.find? (fun g => g.id == h.id) = some h → h.win = none →
      (¬s.keeps h → s.onEvent .handoverReplay (.handoverReplay page h.id) fun t => ∀ g ∈ t.held, g.id ≠ h.id) ∧
      s.onEvent .handoverReplay (.handoverReplay page h.id) fun t => s.replayed t (page % 3) h) ∧
    (∀ frame, s.onEvent .frameRetire (.frameRetire frame) fun t =>
      (t.place frame).retired = true ∧ frame ∈ t.taken ∧
      let p := s.place frame
      (p.assigned = true → p.ptepa ≠ 0 → p.migr = false →
        t.moving frame ∨ (t.place frame = { p with retired := true } ∧
          (s.now + 4096, Event.frameRetire frame) ∈ t.agenda))) ∧
    (∀ line, s.onEvent .writebackPoison (.writebackPoison line) fun t =>
      line ∈ t.poison ∧ s.posted t (homeHub (line * 128)) (s.place (line / 512)).key.toNat 1
        (ringRecord 3 0x12 4 0 (BitVec.ofNat 64 (line * 128)) 0 0xFFFF 0xFF 0xFF)) ∧
    ∀ core, s.onEvent .coreFence (.coreFence core) fun t =>
      (t.core core).fenced = true ∧ (t.core core).landings = [] ∧
      (∀ slot lane u, t.threadAt core slot lane = some u → u.stopped = true ∧ u.wait = .none) ∧
      (∀ c ∈ t.conds, c.core ≠ core) ∧ (∀ h ∈ t.held, h.core ≠ core) ∧
      (∀ d, d ≠ core → t.core d = s.core d) ∧
      ((s.core core).side.isSome = true → (s.now + officeTime core, Event.terminalFaultArrival (s.core core).sideD.launch
        { cause := 0x12, flags := 8, addr := 0, pc := 0, core := BitVec.ofNat 16 core, slot := 0xFF
          lane := 0xFF }) ∈ t.agenda)

/-- R342 to R349, R351, R365: XCOPY, XFILL, XGATH, XAPPK and XSEAL of one lane, as far as the window, and XPTR. The
condition on strides of dimensions with one element, and the details of a poisoned card, are the model's readings
(logs 49 and 53). -/
def Obligations.CourierJobs : Prop :=
  ∀ (s : State) (f : Fields),
    let z := fun (x : Ctx) => (s.teamOf x.core).length * (s.core x.core).spBytes
    let full := fun (x : Ctx) => 32 ≤ (s.core x.core).jobs.length
    -- the window is full, or a read waits: the lane stands at its instruction
    let stays := fun (u t : State) (x : Ctx) (l : Nat) =>
      t.standsAt x l x.pc ∧ u.sameBytes t ∧ (t.core x.core).jobs = (s.core x.core).jobs
    let refused := fun (t : State) (x : Ctx) (l st : Nat) =>
      t.standsAt x l x.nextPc ∧ t.returns x l 1 st ∧ (t.core x.core).jobs = (s.core x.core).jobs
    let accepted := fun (u t : State) (x : Ctx) (l scope : Nat) (j : Job) =>
      t.standsAt x l x.nextPc ∧ u.readsPublished t x.core scope j.reads ∧
      s.entersWindow t x.core { j with
        thread := (x.thread l).index, slot := x.slot, lane := l, pc := x.pc, dst := Opnd.vreg x.f.dst, tag := x.tag
        scope := scope }
    let fails := fun (t : State) (x : Ctx) (l c : Nat) (a : DWord) =>
      s.terminates t x l c a ∧ (t.core x.core).jobs = (s.core x.core).jobs
    let C := fun (i : Instr) (k : JobKind) =>
      let x := s.issueOf i
      ∀ l, x.alone l → ∃ t, exec i s = .next t ∧
        let sp := f.mod.getLsbD 4
        let a := BitVec.ofNat 64 (x.value l x.f.a (if sp then 1 else 2) .int)
        if a.toNat % 64 ≠ 0 then s.raises t x l 5 a x.pc
        else if sp = true ∧ s.scratchFits x.core false a.toNat 64 = false then s.raises t x l 9 a x.pc
        else if full x then stays s t x l
        else match s.courierReadAll x.core sp [(a.toNat, 64)] with
          | .poison => refused t x l 0x106
          | .fault c _ => fails t x l c a
          | .wait _ u => stays u t x l
          | .ok bs s1 =>
            let c := Card.ofBytes bs
            let go := fun (u : State) (words : List Nat) =>
              match c.examine k (z x) words with
              | .error st => t.standsAt x l x.nextPc ∧ t.returns x l 1 st.toNat ∧
                  (t.core x.core).jobs = (s.core x.core).jobs
              | .ok (rd, wr) =>
                accepted u t x l (s.demote x.core (c.ctl % 8)).1 { Job.fresh with
                  kind := k, chan := c.ctl / 8 % 4, card := bs, table := BitVec.ofNat 64 c.src, reads := rd, writes := wr }
            if c.fpa = 0 then go s1 []
            else if sp = true ∧ z x < c.fpa + 32 then ∃ w, regionBad w = true ∧ go s1 [w]
            else match s1.courierReadAll x.core sp (linePieces c.fpa 32) with
              | .poison => refused t x l 0x106
              | .fault e _ => fails t x l e (BitVec.ofNat 64 c.fpa)
              | .wait _ u => stays u t x l
              | .ok fs s2 => go s2 [lineNat fs 0 8, lineNat fs 8 8, lineNat fs 16 8, lineNat fs 24 8]
    let T := fun (i : Instr) (k : JobKind) =>
      let x := s.issueOf i
      ∀ l, x.alone l → ∃ t, exec i s = .next t ∧
        let sp := f.mod.getLsbD 4
        let a := BitVec.ofNat 64 (x.value l x.f.a 2 .int)
        let b := BitVec.ofNat 64 (x.value l x.f.b (if sp then 1 else 2) .int)
        let header := fun (u : State) => (u.headerOf x.core a.toNat).getD (THdr.ofBytes [])
        let record := fun (h : THdr) => if h.shaped then 4 * h.heads * 2 ^ h.hd else 0
        let lines := fun (sp : Bool) (a n : Nat) =>
          if n = 0 then [] else [(⟨sp, a / 128 * 128, ((a + n - 1) / 128 + 1 - a / 128) * 128⟩ : Region)]
        if a.toNat % 128 ≠ 0 then s.raises t x l 5 a x.pc
        else if k = .appk ∧ b.toNat % 16 ≠ 0 then s.raises t x l 5 b x.pc
        else if k = .appk ∧ sp = true ∧ z x < b.toNat + record (header s) then s.raises t x l 9 b x.pc
        else if full x then stays s t x l
        else match s.tabPa (s.tabWho x.core) a.toNat Need.both with
          | .error (c, va) => if c = 0 ∨ c = 0x21 then stays s t x l else fails t x l c (BitVec.ofNat 64 va)
          | .ok (_, u) =>
            let h := header u
            let staging := if h.shaped then 64 * h.heads * 2 ^ h.hd + 8 * h.heads else 0
            b.toNat + record h < 2 ^ 64 → h.stage + staging < 2 ^ 64 →
            accepted u t x l (s.demote x.core (min h.tscope 7)).1 { Job.fresh with
              kind := k, chan := f.mod.toNat % 4, table := a, src := if k = .appk then b else 0, sp := sp
              reads := if k = .appk then lines sp b.toNat (record h) else lines false h.stage staging
              writes := if k = .appk then lines false h.stage staging else [] }
    (∀ c k z words o, o < 128 →
      (Card.examine c k z words = .error (BitVec.ofNat 32 (0x10A + 512 * o)) ↔
        rule345 c k z words o ∧ ∀ p < o, ¬rule345 c k z words p)) ∧
    C (.xcopy f) .copy ∧ C (.xfill f) .fill ∧ C (.xgath f) .gather ∧ T (.xappk f) .appk ∧ T (.xseal f) .seal ∧
    Proceeds s s (.xptr f) fun x l _ t => s.sameBytes t ∧
      let chan := f.mod.toNat % 4
      let mine := (s.core x.core).jobs.filter fun j =>
        j.chan = chan ∧ j.card ≠ [] ∧ lineNat j.card 0x3C 4 = x.value l x.f.a 1 .int
      t.returns x l 1
        (match mine.head? with
        | none => 0xFFFFFFFF
        | some j =>
          if j.started = none then 0
          else if j.kind = .gather then j.deliveredOff
          else
            let c := Card.ofBytes j.card
            (c.yAt (min (128 / c.e * j.pos) (c.count - 1))).toNat % 2 ^ 32)

/-- R348 to R350, R352, R354, R355, R362: a job starts when it is the oldest of its channel and nothing it depends
on is incomplete; a transfer waits for its tokens and writes 128 bytes at most; a job's end publishes its writes and
delivers its status. The split in transfers and their times are the model's readings (logs 9 and 50). -/
def Obligations.CourierSteps : Prop :=
  ∀ (s : State),
    (∀ core chan before j, (s.core core).oldestOf chan = some (before, j) →
      let held := j.started.isSome ∨ j.status.isSome ∨ s.saving core = true ∨ ∃ i ∈ before, j.edge i
      let R := s.onEvent .courierJobStart (.courierJobStart core chan)
      (held → R fun t => t = s) ∧ (¬held → R fun t => match j.kind with
          | .copy | .fill => ∃ at_, s.now < at_ ∧
              (t.core core).jobs = (s.core core).jobs.map (fun i => if i.id = j.id then { i with started := some s.now, next := at_ } else i) ∧
              (at_, Event.courierWrite core chan) ∈ t.agenda
          | _ => ∀ k ∈ (t.core core).jobs, k.id = j.id → (∀ i ∈ (s.core core).jobs, i.id = j.id → i = j) →
              k.status.isSome ∨ k.started = some s.now ∨
                (k = j ∧ (j.kind = .seal ∨ ∃ n, (s.now + n, Event.courierJobStart core chan) ∈ t.agenda)))) ∧
    (∀ core chan before j, (s.core core).oldestOf chan = some (before, j) → j.kind = .copy ∨ j.kind = .fill →
      let c := Card.ofBytes j.card
      let x := j.strided
      let b := (s.part (s.corePart core)).cbkt.get Bucket.zero (core / 64)
      let R := s.onEvent .courierWrite (.courierWrite core chan)
      let idle := j.started = none ∨ j.status.isSome ∨ s.now < j.next
      let copies := ¬idle ∧ j.kind = .copy
      -- what the transfer brings
      let brings := fun (bs : List Byte) => ¬idle ∧ if j.kind = .fill then
          bs = (List.range (x.dsts.length / c.e)).flatMap fun _ => (leBytes 8 c.src ++ leBytes 8 c.src).take c.e
        else ∃ v, s.courierReadAll core x.srcSp x.pieces = .ok bs v
      let goesOn := fun (t : State) => ∃ k ∈ (t.core core).jobs, k.id = j.id ∧ k.pos = j.pos + 1 ∧
        (c.count ≤ 128 / c.e * (j.pos + 1) → k.status = some 0x100)
      (idle → R fun t => t = s) ∧
      (∀ bs, brings bs → b.tokens < x.bytes → R fun t => s.keepsScratch t ∧ ∃ k ∈ (t.core core).jobs, k.id = j.id ∧ k.wants = true) ∧
      (∀ bs, brings bs → x.bytes ≤ b.tokens → c.spDst = true → (s.teamOf core).Nodup →
        (∀ a ∈ x.dsts, a < (s.teamOf core).length * (s.core core).spBytes) → s.sramOk = true → R fun t => goesOn t ∧
          ((t.part (s.corePart core)).cbkt.get Bucket.zero (core / 64)).tokens = b.tokens - x.bytes ∧
          ∀ a < (s.teamOf core).length * (s.core core).spBytes, t.teamByte core a =
            (((x.dsts.zip bs).reverse.find? fun p => p.1 == a).map (·.2)).getD (s.teamByte core a)) ∧
      (∀ bs, brings bs → x.bytes ≤ b.tokens → c.spDst = true → R goesOn) ∧
      -- a held store, a handover or the want of a staging line keeps a transfer to memory back
      (∀ bs, brings bs → x.bytes ≤ b.tokens → c.spDst = false → R fun t => goesOn t ∨
        (∀ k ∈ (t.core core).jobs, k.id ≠ j.id) ∨ ∃ n, (s.now + n, Event.courierWrite core chan) ∈ t.agenda) ∧
      (copies → s.courierReadAll core x.srcSp x.pieces = .poison → R fun t => s.keepsScratch t ∧ ∃ k ∈ (t.core core).jobs,
        k.id = j.id ∧
        k.status = some (BitVec.ofNat 32 (0x106 + 512 * ((c.yAt (min (128 / c.e * j.pos) (c.count - 1))).toNat / 16 % 2 ^ 23)))) ∧
      (copies → ∀ cause a, s.courierReadAll core x.srcSp x.pieces = .fault cause a →
        R fun t => s.keepsScratch t ∧ ∀ k ∈ (t.core core).jobs, k.id ≠ j.id) ∧
      (copies → ∀ n v, s.courierReadAll core x.srcSp x.pieces = .wait n v →
        R fun t => s.keepsScratch t ∧ (s.now + n, Event.courierWrite core chan) ∈ t.agenda)) ∧
    (∀ core chan before j, (s.core core).oldestOf chan = some (before, j) →
      (j.status = none → s.onEvent .courierJobComplete (.courierJobComplete core chan) fun t => t = s) ∧
      ∀ st, j.status = some st → s.onEvent .courierJobComplete (.courierJobComplete core chan) fun t =>
          (∀ k ∈ (t.core core).jobs, k.id ≠ j.id) ∧
          (∀ w ∈ t.staged, w.job = j.id → j.kind ≠ .appk → ∃ sc a, w.pub = some (sc, a) ∧ j.scope ≤ sc) ∧
          (∀ c < 4, ∃ n, (n, Event.courierJobStart core c) ∈ t.agenda) ∧
          ∀ r slot lane u, j.dst = some r → j.kind ≠ .appk → (s.core core).side.isSome = true →
            s.threadAt core slot lane = some u → u.index = j.thread → t.answers core slot lane j.tag [st]) ∧
    (∀ hub, s.onEvent .tokenRefill (.tokenRefill hub) fun t =>
      (s.now + 64, Event.tokenRefill hub) ∈ t.agenda ∧
      ∀ die, die / 2 = hub → ∀ p < 48,
        let b := (s.part p).cbkt.get Bucket.zero die
        let b' := (t.part p).cbkt.get Bucket.zero die
        let idle := b.tokens = b.depth ∧ ∀ core, core / 64 = die → s.corePart core = p → (s.core core).jobs = []
        b'.rate = b.rate ∧ b'.depth = b.depth ∧
        (¬idle → b.tokens ≤ b.depth → min (b.tokens + (b.rate - min (b.rate / 2) b.debt)) b.depth ≤ b'.tokens) ∧
        (b.tokens ≤ b.depth → b'.tokens ≤ b.depth) ∧ (b.debt ≤ b.depth → b'.debt ≤ b.depth)) ∧
    ∀ part d, (s.part part).deferred = [d] →
      let nfree := leNat (s.tblRead .merged (d.pool + 28) 4)
      let gathers := s.gathers part d.pool d.block = true
      let place := s.agentUse part (s.part part).datp (d.freest + 4 * nfree) Need.write true
      let R := s.onEvent .deferredBlockFree (.deferredBlockFree part)
      ((gathers ∨ place = none) → R fun t => (t.part part).deferred = [d] ∧ s.sameBytes t) ∧
      (¬gathers → ∀ pa u, place = some (pa, u) → R fun t => (t.part part).deferred = [] ∧
            (s.memOk = true → (∀ h, (s.hub h).forwards = []) → u.moved t (d.pool + 28) (nfree + 1) pa (leBytes 4 d.block)
                (fun a => s.routeRead (d.pool + 28) + 4 ≤ a ∧ a < s.routeRead (d.pool + 28) + 8)))

/-- R356 to R361: BTAPP and BTREL of one lane, at the table's home slice. A check that fails stops the lane and
leaves the table as it was; a refusal gives its status; else the block, the entry, the counts and the header change
together. What a poisoned header or entry does is the model's reading (logs 51 and 52). -/
def Obligations.BlockTables : Prop :=
  ∀ (s : State) (f : Fields) (rel : Bool),
    let i := if rel then Instr.btrel f else .btapp f
    let x := s.issueOf i
    let part := s.corePart x.core
    ∀ l, x.alone l → ∃ t, exec i s = .next t ∧
      let a := BitVec.ofNat 64 (x.value l x.f.a 2 .int)
      let b := x.value l x.f.b 1 .int % 2 ^ 32
      if a.toNat % 128 ≠ 0 then s.raises t x l 5 a x.pc
      else ∃ s1, s.keepsOthers s1 x x.linkWrite ∧ (∀ m ∈ x.lanes, m ≠ l → s1.passes x m) ∧ s1.keepsRegs t ∧
        let w := s1.tabWho x.core
        let still := ∀ h, (s.hub h).forwards = []
        -- a check fails; or a handover, a held store or the want of a staging line keeps the lane at its instruction
        let fails := fun (e : Nat × Nat) => s1.sameBytes t ∧ (t.part part).bquota = (s.part part).bquota ∧
          if e.1 = 0 ∨ e.1 = 0x21 then t.standsAt x l x.pc
          else t.standsAt x l x.nextPc ∧ s1.terminates t x l e.1 (BitVec.ofNat 64 e.2)
        let gives := fun (st : Nat) => t.standsAt x l x.nextPc ∧ t.returns x l 1 st
        let used := (s.part part).bquota.used
        match s1.openTable w a.toNat Need.both with
        | .error e => fails e
        | .ok (o, s2) =>
          let h := o.h
          let p := o.pool
          let field := fun (off : Nat) => leNat (t.tblRead w.v (o.hpa + off) 4)
          let bad := o.p = none ∨ h.flags % 2 = 0 ∨ p.part ≠ part ∨ 2 ^ p.log2b < 32 * h.heads * 2 ^ h.hd + 8 * h.heads
          let same := (t.part part).bquota.used = used
          if rel then
            let k := if b = 0 then h.nlog else min b h.nlog
            if bad then gives 0x109 ∧ same
            else if h.nlog = 0 then gives 0x102 ∧ same
            else if s2.appending o.hpa = true then
              same ∧ t.standsAt x l x.nextPc ∧ ({
                core := x.core, launch := w.launch, team := (s.core x.core).sideD.team, thread := (x.thread l).index
                dst := Opnd.vreg x.f.dst, tag := x.tag, table := a, hpa := o.hpa, count := k, slot := x.slot, lane := l
                pc := x.pc } : TableWait) ∈ t.tableWaits
            else
              match s2.releaseEntries w o k (h.nlog - 1) with
              | .error e => fails e
              | .ok (_, s3) => gives (0x100 + 512 * (k % 2 ^ 23)) ∧
                (still → field 28 = (h.nlog - k) % 2 ^ 32 ∧ field 32 = min h.nseal (h.nlog - k) % 2 ^ 32 ∧
                  field 36 = (h.gen + 1) % 2 ^ 32) ∧ (t.part part).bquota.used = (s3.part part).bquota.used ∧
                (k = 1 → h.nlog - 1 ≠ h.nseal →
                  ∀ bs s4 r s5, s2.tabRead w (h.entries + 4 * (h.nlog - 1)) 4 = .ok (bs, s4) →
                    leNat bs % 2 ^ 24 < p.nblk → s4.refCount w o (leNat bs % 2 ^ 24) = .ok (r, s5) →
                    (t.part part).bquota.used = if r = 1 then used - 1 else used)
          else if bad ∨ p.flags % 2 = 0 ∨ p.malformed = true then gives 0x109 ∧ same
          else if h.nseal < h.nlog then gives 0x309 ∧ same
          else if h.nlog = h.cap then gives 0x301 ∧ same
          else
            let appended := fun (u : State) (e : Nat) (nseal : Nat) =>
              match u.tabPa w (h.entries + 4 * h.nlog) Need.write with
              | .error e => fails e
              | .ok (epa, _) => gives (0x100 + 512 * (h.nlog % 2 ^ 23)) ∧
                (still → field 28 = (h.nlog + 1) % 2 ^ 32 ∧ (nseal ≠ h.nseal → field 32 = nseal % 2 ^ 32) ∧
                  (epa / 128 ≠ o.hpa / 128 → u.memOk = true → epa % 4 = 0 → leNat (t.tblRead w.v epa 4) = e))
            if b = 2 ^ 32 - 1 then
              if used = (s.part part).bquota.limit then gives 0x103 ∧ same
              else if p.nfree = 0 then gives 0x101 ∧ same
              else match s2.tabRead w (p.freest + 4 * (p.nfree - 1)) 4 with
                | .error e => fails e
                | .ok (bs, s3) => match s3.refCount w o (leNat bs) with
                  | .error e => fails e
                  | .ok (_, s4) => match s4.tabWrite w (s4.tabScope w o) (p.refs + 2 * leNat bs) (leBytes 2 1) with
                    | .error e => fails e
                    | .ok (_, s5) => ((∀ e, s5.tabPa w (h.entries + 4 * h.nlog) Need.write ≠ .error e) →
                        (t.part part).bquota.used = used + 1) ∧
                      ∃ s6, s5.keepsRegs s6 ∧ appended s6 (leNat bs % 2 ^ 24) h.nseal
            else if 2 ^ 29 ≤ b ∨ 16 < b / 2 ^ 24 % 32 ∨ p.nblk ≤ b % 2 ^ 24 then gives 0x10A ∧ same
            else match s2.refCount w o (b % 2 ^ 24) with
              | .error e => fails e
              | .ok (r, s3) =>
                if r = 0 then gives 0x10A ∧ same
                else if r = 0xFFFF then gives 0x501 ∧ same
                else match s3.tabWrite w (s3.tabScope w o) (p.refs + 2 * (b % 2 ^ 24)) (leBytes 2 (r + 1)) with
                  | .error e => fails e
                  | .ok (_, s4) => same ∧ appended s4 b (h.nseal + 1)

/-- R437 to R439: XPOOL of one lane, as far as the modules. A card that is read, whole and leased, with its pages in
the pool tier, becomes an operation there; any other gives its status or a fault; a page in handover or a held store
keeps the lane at its instruction. The detail of a poisoned card is the model's reading (log 61). -/
def Obligations.PoolRequests : Prop :=
  ∀ (s : State) (f : Fields),
    let P := fun (i : Instr) (op : Nat) =>
      let x := s.issueOf i
      let launch := (s.core x.core).sideD.launch
      ∀ l, x.alone l → ∃ t, exec i s = .next t ∧
        let sp := f.mod.getLsbD 4
        let a := BitVec.ofNat 64 (x.value l x.f.a (if sp then 1 else 2) .int)
        if a.toNat % 64 ≠ 0 then s.raises t x l 5 a x.pc
        else if sp = true ∧ s.scratchFits x.core false a.toNat 64 = false then s.raises t x l 9 a x.pc
        else ∃ s1, s.keepsOthers s1 x x.linkWrite ∧ (∀ m ∈ x.lanes, s1.passes x m) ∧
          let ends := fun (st : Nat) => t.returns x l 1 st ∧ t.poolOps = s.poolOps
          let fails := fun (c b : Nat) => s.terminates t x l c (BitVec.ofNat 64 b) ∧ t.poolOps = s.poolOps
          let kept := t.standsAt x l x.pc ∧ t.poolOps = s.poolOps
          match s1.courierReadAll x.core sp (linePieces a.toNat 64) with
          | .poison => ends 0x106
          | .fault c _ => fails c a.toNat
          | .wait _ _ => kept
          | .ok bs s2 =>
            let c := PoolCard.ofBytes bs
            let dem := s2.demote x.core c.scope
            let s3 := dem.2.publishPhase x.core x.slot l dem.1
            let outside := fun (fs : List (Option Nat)) (i : Nat) =>
              ∃ g, fs[i]? = some g ∧ ∀ n, g = some n → (frameTier n).map (·.1) ≠ some .pool
            let first := fun (fs : List (Option Nat)) (i : Nat) => outside fs i ∧ ∀ j < i, ¬outside fs j
            match c.refusal bs op s.memberOf with
            | some o => ends (0x10A + 512 * o)
            | none =>
              match s3.poolPages launch c.dst c.len
                  (if op = 2 then Need.read else if op = 3 ∧ c.mode = 0 then Need.both else Need.write) with
              | .error e => fails e.1 e.2
              | .ok (ds, s4) =>
                match (if op = 1 ∨ op = 2 then s4.poolPages launch c.src c.len Need.read else .ok ([], s4)) with
                | .error e => fails e.1 e.2
                | .ok (ss, s5) =>
                  let sent := fun (es : List Byte) => ∃ o,
                    t.poolOps = s.poolOps ++ [o] ∧ (x.e + 1, Event.poolModuleOp o.id) ∈ t.agenda ∧
                    o.launch = launch ∧ o.team = (s.core x.core).sideD.team ∧ o.thread = (x.thread l).index ∧
                    o.dst = Opnd.vreg x.f.dst ∧ o.tag = x.tag ∧ o.op = op ∧ o.scope = dem.1 ∧ o.len = c.len ∧
                    o.dstFrames = ds.filterMap id ∧ o.dstOff = c.dst % 65536 ∧ o.srcFrames = ss.filterMap id ∧
                    o.srcOff = c.src % 65536 ∧ o.word = (if op = 0 then BitVec.ofNat 64 c.src else c.key) ∧
                    o.mask = c.mask ∧ (o.start = true ↔ c.mode = 1) ∧ o.elems = es ∧ o.pos = 0
                  (∀ i, first ds i → ends (0x109 + 512 * (i % 2 ^ 14))) ∧
                  ((∀ i, ¬outside ds i) → ∀ i, first ss i → ends (0x109 + 512 * (i % 2 ^ 14 + 2 ^ 22))) ∧
                  ((∀ i, ¬outside ds i) → (∀ i, ¬outside ss i) →
                    if op ≠ 3 then sent []
                    else match s5.courierReadAll x.core false (linePieces c.src (c.len / 2)) with
                      | .poison => ends 0x106
                      | .fault k va => fails k va
                      | .wait _ _ => kept
                      | .ok es _ => sent es)
    (∀ bs op member o, op < 4 → ((PoolCard.ofBytes bs).refusal bs op member = some o ↔
      rule438 bs op member o ∧ ∀ p < o, ¬rule438 bs op member p)) ∧
    (∀ launch va n need,
      let page := fun (k : Nat) => max va ((va / 65536 + k) * 65536)
      ∃ st : Nat → State, st 0 = s ∧
      match s.poolPages launch va n need with
      | .ok (fs, t) => fs.length = (va + n - 1) / 65536 + 1 - va / 65536 ∧ st fs.length = t ∧ ∀ k < fs.length,
          match (st k).resolve launch (page k) need with
          | .ok (.mem pa, u) => fs[k]? = some (some (pa / 65536)) ∧ st (k + 1) = u
          | .ok (.peer _ _, u) => fs[k]? = some none ∧ st (k + 1) = u
          | .error _ => False
      | .error e => ∃ k, page k = e.2 ∧ (st k).resolve launch e.2 need = .error e.1 ∧
          ∀ j < k, ∃ z, (st j).resolve launch (page j) need = .ok (z, st (j + 1))) ∧
    P (.xpoolFill f) 0 ∧ P (.xpoolCopy f) 1 ∧ P (.xpoolCmp f) 2 ∧ P (.xpoolReduce f) 3

/-- R435, R436, R439, R440: the modules perform an operation line by line; a reduction gathers the posts of its
members, and completes, closes at the absence of one, or times out; members leave and join. The detail of a status
for which R440 states none is open. The rate of the modules is the model's choice (log 61). -/
def Obligations.PoolModules : Prop :=
  ∀ (s : State),
    (∀ id o, s.poolOps.find? (fun o => o.id == id) = some o → o.op < 4 → s.memOk = true →
      let line := fun (fs : List Nat) (off : Nat) =>
        fs.getD ((off + 128 * o.pos) / 65536) 0 * 65536 + (off + 128 * o.pos) % 65536
      let d := line o.dstFrames o.dstOff
      let b := line o.srcFrames o.srcOff
      d % 128 = 0 → s.clears d →
      let R := s.onEvent .poolModuleOp (.poolModuleOp id)
      let next := fun (t : State) => if o.len ≤ 128 * (o.pos + 1) then s.poolEnds t o 0x100
        else ({ o with pos := o.pos + 1 } : PoolOp) ∈ t.poolOps ∧ (s.now + 1, Event.poolModuleOp id) ∈ t.agenda
      let poison := (o.op = 1 ∨ o.op = 2) ∧ (s.poisoned b 128 = true ∨ (o.op = 2 ∧ s.poisoned d 128 = true))
      let same := s.view .merged b 128 = s.view .merged d 128
      (o.op = 0 → R fun t => s.storesLine t d ((List.replicate 16 (leBytes 8 o.word.toNat)).flatten) ∧ next t) ∧
      (poison → R fun t => s.sameBytes t ∧ s.poolEnds t o (BitVec.ofNat 32 (0x106 + 512 * (o.pos % 2 ^ 23)))) ∧
      (o.op = 1 → ¬poison → R fun t => s.storesLine t d (s.view .merged b 128) ∧ next t) ∧
      (o.op = 2 → ¬poison → same → R fun t => s.sameBytes t ∧ next t) ∧
      (o.op = 2 → ¬poison → ¬same → R fun t => s.sameBytes t ∧ s.poolEnds t o (BitVec.ofNat 32 (0x10B + 512 * (o.pos % 2 ^ 23)))) ∧
      (o.op = 3 → R fun t => s.sameBytes t ∧
          let ends := fun (st : Nat) => s.poolEnds t o (BitVec.ofNat 32 st)
          let dst := o.dstFrames.getD (o.dstOff / 65536) 0 * 65536 + o.dstOff % 65536
          let me := s.poolMember.toNat
          match s.reductions.find? fun r => r.key == o.word && r.dst == dst with
          | some r =>
            if r.len ≠ o.len ∨ r.mask ≠ o.mask ∨ r.start ≠ o.start ∨ (r.elems.find me).isSome = true then
              t.reductions = s.reductions ∧ ∃ n, ends (0x10A + 512 * n)
            else s.counts t r me o.elems id
          | none =>
            let module := fun (a : Nat) => (a - 2 ^ 51) / 65536 / 2 ^ 24 % 64
            if 256 ≤ (s.reductions.filter fun r => module r.dst == module dst).length then
              t.reductions = s.reductions ∧ ∃ n, ends (0x101 + 512 * n)
            else
              match (List.range 32).find? fun i => o.mask.testBit i && !s.poolPresent.getLsbD i with
              | some i => t.reductions = s.reductions ∧ ends (0x104 + 512 * i)
              | none => ∃ stamp, (s.now + 2 ^ 26, Event.reductionTimeout o.word dst stamp) ∈ t.agenda ∧
                  s.counts t { key := o.word, dst := dst, len := o.len, mask := o.mask, start := o.start, elems := []
                               waiters := [], stamp := stamp } me o.elems id)) ∧
    (∀ key dst r, s.reductions.find? (fun r => r.key == key && r.dst == dst) = some r →
      let n := r.len / 128
      let line := fun (i : Nat) => s.routeRead (r.dst + 128 * i)
      dst % 128 = 0 → s.memOk = true → (∀ i < n, s.clears (r.dst + 128 * i)) → (∀ i < n, ∀ j < n, line i = line j → i = j) →
        let bad := fun (i : Nat) => r.start = false ∧ s.poisoned (r.dst + 128 * i) 128 = true
        let R := s.onEvent .reductionComplete (.reductionComplete key dst)
        let does := fun (t : State) (k : Nat) =>
          (∀ i < k, ∀ j < 32, t.view .merged (r.dst + 128 * i + 4 * j) 4 =
            leBytes 4 (rule440 r (leNat (s.merged (r.dst + 128 * i + 4 * j) 4)) (32 * i + j))) ∧
          ∀ v a, (∀ i < k, s.routeRead a / 128 ≠ line i / 128) → t.viewByte v a = s.viewByte v a
        (∀ i < n, bad i → (∀ j < i, ¬bad j) →
          R fun t => does t i ∧ s.closes t r (BitVec.ofNat 32 (0x106 + 512 * (i % 2 ^ 23)))) ∧
        ((∀ i < n, ¬bad i) → R fun t => does t n ∧ s.closes t r
          (BitVec.ofNat 32 (0x100 + 512 * ((List.range 32).filter fun i => r.mask.testBit i).length)))) ∧
    (∀ key dst stamp r, s.reductions.find? (fun r => r.key == key && r.dst == dst && r.stamp == stamp) = some r →
      s.onEvent .reductionTimeout (.reductionTimeout key dst stamp) fun t =>
        s.sameBytes t ∧ ∃ n, s.closes t r (BitVec.ofNat 32 (0x108 + 512 * n))) ∧
    (∀ member dirty, s.onEvent .poolMemberLeave (.poolMemberLeave member dirty) fun t =>
      t.poolPresent = s.poolPresent &&& ~~~(BitVec.twoPow 32 member) ∧ s.sameBytes t ∧
      (∀ o, o ∈ t.owners ↔ o ∈ s.owners ∧ o.2 ≠ member) ∧ (∀ l ∈ dirty, l ∈ t.poison) ∧ (∀ l ∈ s.poison, l ∈ t.poison) ∧
      ∀ r, s.reductions = [r] →
        match (List.range 32).find? fun i => r.mask.testBit i && !t.poolPresent.getLsbD i with
        | some i => s.closes t r (BitVec.ofNat 32 (0x104 + 512 * i))
        | none => t.reductions = [r]) ∧
    ∀ member, s.onEvent .poolMemberJoin (.poolMemberJoin member) fun t =>
      t = { s with poolPresent := s.poolPresent ||| BitVec.twoPow 32 member }

/-- R483 to R485, R492 to R495: SBPOST counts one post of a team in its launch's record, which a quorum or the last
sibling closes; SBPOLL gives the record's state, and a cancelled team's threads stop at it; SBREAD reads a record
of this package, or asks a peer. -/
def Obligations.Ballots : Prop :=
  ∀ (s : State) (f : Fields),
    (let x := s.issueOf (.sbpost f)
     ∃ t, exec (.sbpost f) s = .next t ∧
      let d := (s.core x.core).sideD
      let gives := fun (st : Nat) => ∀ l ∈ x.okLanes [], t.returns x l 1 st
      match x.okLanes [] with
      | [] => t.ballots = s.ballots
      | l :: _ =>
        let h := BitVec.ofNat 64 (x.value l x.f.a 2 .int)
        match s.ballotOf d.launch with
        | none => gives 0x109 ∧ t.ballots = s.ballots
        | some b =>
          if (b.sib d.team).posted = true then gives (b.sib d.team).st.toNat ∧ t.ballots = s.ballots
          else if b.st ≠ 0 then gives 0x107 ∧ t.ballots = s.ballots
          else
            b.sibs.sorted = true → (b.sibs.find d.team).isSome = true → b.posts < 64 →
            (∀ z ∈ b.slots, z.count < b.q ∧ ∃ i, b.posterOf i z) →
            ∃ c k, t.ballotOf d.launch = some c ∧ c.posts = b.posts + 1 ∧
              let y := c.sib d.team
              let win := (c.slots[k]?).any fun z => decide (b.q ≤ z.count)
              (∀ i z, b.slots[i]? = some z → z.hash = h → (∀ j < i, ∀ w, b.slots[j]? = some w → w.hash ≠ h) →
                k = i ∧ y.overpost = false ∧ c.past = b.past ∧ c.slots = b.slots.set i { z with count := z.count + 1 }) ∧
              ((∀ z ∈ b.slots, z.hash ≠ h) → b.slots.length < 8 →
                k = b.slots.length ∧ y.overpost = false ∧ c.past = b.past ∧ c.slots = b.slots ++ [⟨h, 1, b.posts⟩]) ∧
              ((∀ z ∈ b.slots, z.hash ≠ h) → 8 ≤ b.slots.length →
                k = 0 ∧ y.overpost = true ∧ c.past = b.past + 1 ∧ c.slots = b.slots) ∧
              y.posted = true ∧ y.seq = b.posts ∧ y.slot = k ∧
              ({ b with
                posts := b.posts + 1, past := c.past, slots := c.slots
                sibs := b.sibs.put d.team { b.sib d.team with posted := true, seq := b.posts } } : Ballot).closes c
                (if win = true ∧ y.overpost = false then some k else none) ∧
              (∀ i y, b.sibs.find i = some y → (c.sib i).sstate =
                if (c.st = 1 ∨ c.st = 2) ∧ i ≠ c.keeper ∧ y.sstate ≠ 3 then 4 else y.sstate) ∧
              let keeper := decide ((c.st = 1 ∨ c.st = 2) ∧ c.keeper = d.team)
              let st := 0x100 + 512 * (b.posts + 2 ^ 6 * k + 2 ^ 9 * y.overpost.toNat + 2 ^ 10 * (decide (c.st ≠ 0)).toNat +
                2 ^ 11 * keeper.toNat)
              gives st ∧ y.st = BitVec.ofNat 32 st) ∧
    (let x := s.issueOf (.sbpoll f)
     ∃ t, exec (.sbpoll f) s = .next t ∧ t.ballots = s.ballots ∧
      let d := (s.core x.core).sideD
      let gives := fun (st : Nat) => ∀ l ∈ x.actives, t.returns x l 1 st ∧
        ∀ u, t.threadAt x.core x.slot l = some u → x.lanes.Nodup → u.pc = x.nextPc ∧
          ∀ w ∈ (t.core x.core).vres, w.slot = x.slot → w.lane = l → w.tag = x.tag → ∀ n, w.due = some n → n ≤ u.next
      match s.ballotOf d.launch with
      | none => gives 0x109
      | some b =>
        if (b.sib d.team).sstate = 4 then
          (t.core x.core).vres = (s.core x.core).vres ∧
          ∀ l ∈ x.actives, ∀ u, t.threadAt x.core x.slot l = some u → u.stopped = true
        else gives (0x100 + 512 * (b.st + 2 ^ 2 * (b.sib d.team).posted.toNat +
          2 ^ 3 * (decide ((b.st = 1 ∨ b.st = 2) ∧ b.keeper = d.team)).toNat + 2 ^ 4 * b.tiebrk.toNat +
          2 ^ 5 * (if b.st = 0 then 0 else b.keeper)))) ∧
    let x := s.issueOf (.sbread f)
    ∃ t, exec (.sbread f) s = .next t ∧ t.ballots = s.ballots ∧
      let d := (s.core x.core).sideD
      let gives := fun (st v w : Nat) => ∀ l ∈ x.okLanes [], t.returns x l 4 (st + 2 ^ 32 * v + 2 ^ 96 * w)
      let reads := fun (b : Ballot) (sel : Nat) =>
        match rule494 b sel with
        | some (v, w) => gives 0x100 v w
        | none => gives 0x30A 0 0
      match x.okLanes [] with
      | [] => t.outbox = s.outbox
      | l :: _ =>
        let key := BitVec.ofNat 64 (x.value l x.f.a 2 .int)
        let w := x.value l x.f.b 1 .int
        let sel := w % 256
        let part := s.corePart x.core
        let pod := w / 512 % 1024
        if 2 ^ 19 ≤ w then gives 0x30A 0 0
        else if w.testBit 8 = false then
          match (if key = 0 then s.ballotOf d.launch else s.ballots.find? fun b => b.part == part && b.key == key) with
          | some b => reads b sel
          | none => if key = 0 then gives 0x109 0 0 else gives 0x104 0 0
        else if key = 0 ∨ pod = s.pkgid.toNat % 1024 then gives 0x30A 0 0
        else match (s.part part).peer pod with
          | none => gives 0x109 0 0
          | some e =>
            if e.r = false then gives 0x109 0 0
            else ∃ c, t.ballotCalls = s.ballotCalls ++ [c] ∧ c.core = x.core ∧ c.slot = x.slot ∧ c.lanes = x.okLanes [] ∧
              c.tag = x.tag ∧
              t.outbox = s.outbox ++ [(pod, .ballotRead (s.pkgid.toNat % 1024) part e.rpart key sel c.id)]

/-- R425, R426: a peer's window access is performed only when the partitions are paired, its offset is translated
and its launch has leased the page; a peer's lease request is answered, and recorded where it is granted. -/
def Obligations.PeerAccesses : Prop :=
  ∀ (s : State), s.memOk = true →
    let paired := fun (rpart podid frm : Nat) => ∃ e, (s.part rpart).peer podid = some e ∧ e.rpart = frm
    let walks := fun (rpart w : Nat) (n : Need) (z : Xlat) =>
      w < 2 ^ 46 ∧ s.xlate rpart (s.part rpart).datp w = .ok z ∧ s.checkXlat rpart n z = true
    (∀ r,
      let R := s.onEvent .peerWindowAccess (.peerWindowAccess r)
      let replies := fun (t : State) (c : Nat) (bs : List Byte) => t.outs = s.outs ++ [.peer r.podid c bs]
      let w := r.w.toNat
      let need := match r.op with | .load _ => Need.read | .store _ => Need.write | _ => Need.both
      let size := match r.op with
        | .load n => n
        | .store bs => bs.length
        | .atom _ ty _ | .cas ty _ _ => 4 * ty.regs
        | .last _ => 4
      let leased := ∃ l ∈ s.peerLeases, l.podid = r.podid ∧ l.frm = r.frm ∧ l.rpart = r.rpart ∧ l.launch = r.lease ∧
        l.lease.page ≤ w / 65536 ∧ w / 65536 < l.lease.page + l.lease.count
      (¬paired r.rpart r.podid r.frm → R fun t => replies t 0x11 [] ∧ s.sameBytes t) ∧
      (paired r.rpart r.podid r.frm → (∀ z, ¬walks r.rpart w need z) → R fun t => replies t 0x11 [] ∧ s.sameBytes t ∧
        s.posted t 0 r.rpart 1 (ringRecord 2 0x11 0 0 r.w 0 0xFFFF 0xFF 0xFF)) ∧
      (paired r.rpart r.podid r.frm → ∀ z, walks r.rpart w need z → ¬leased → R fun t => replies t 0x10 [] ∧ s.sameBytes t) ∧
      (paired r.rpart r.podid r.frm → ∀ z, walks r.rpart w need z → leased → s.needsHandover z.pa = true → R fun t =>
        t.outs = s.outs ∧ s.sameBytes t ∧ (s.now + 512, Event.peerWindowAccess r) ∈ t.agenda) ∧
      (paired r.rpart r.podid r.frm → ∀ z, walks r.rpart w need z → leased → s.needsHandover z.pa = false →
        z.pa % 128 + size ≤ 128 → (s.setAD z need.w).clears z.pa →
        let u := s.setAD z need.w
        let n := fun (w : Nat) => leNat (u.view .merged z.pa (w / 8))
        let plain := match r.op with | .store _ => True | _ => False
        (u.poisoned z.pa size = true → ¬plain → R fun t => replies t 0x12 [] ∧ u.sameBytes t) ∧
        (u.poisoned z.pa size = false ∨ plain → R fun t =>
          match r.op with
          | .load n => replies t 0 (u.view .merged z.pa n) ∧ u.sameBytes t
          | .store bs => replies t 0 [] ∧ if u.dropsStore z.pa bs = true then u.sameBytes t else u.storesLine t z.pa bs
          | .atom o ty v =>
            let b := 32 * ty.regs
            replies t 0 (leBytes size (n b)) ∧ u.storesLine t z.pa (leBytes size
              (rule401 o (ty == .n32 || ty == .n64) (BitVec.ofNat b (n b)) (BitVec.ofNat b v)).toNat)
          | .cas ty c v =>
            let b := 32 * ty.regs
            replies t 0 (leBytes size (n b)) ∧
              u.storesLine t z.pa (leBytes size (if n b = c % 2 ^ b then v % 2 ^ b else n b))
          | .last k =>
            let c := BitVec.ofNat 32 (n 32 + 1)
            replies t 0 (leBytes 4 (if c = k then 1 else 0)) ∧ u.storesLine t z.pa (leBytes 4 (if c = k then 0 else c.toNat))))) ∧
    ∀ podid frm rpart launch range base len kind,
      let R := s.onEvent .peerLeaseMessage (.peerLeaseMessage podid frm rpart launch range base len kind)
        let need := if kind = 0 then Need.read else if kind = 1 then Need.both else Need.write
        let lo := base.toNat % 2 ^ 46 / 65536
        let n := (base.toNat % 2 ^ 46 + len - 1) / 65536 + 1 - lo
        let ok := fun (p : Nat) => ∃ z, walks rpart (p * 65536) need z
        let answers := fun (t : State) (st : Nat) =>
          t.outbox = s.outbox ++ [(podid, .leaseAnswer launch range (BitVec.ofNat 32 st))] ∧ s.sameBytes t
        let denied := 0x109 + 512 * ((range + 32 * 0x11) % 2 ^ 23)
        (¬paired rpart podid frm → R fun t => answers t denied ∧ t.peerLeases = s.peerLeases) ∧
        (paired rpart podid frm → base.toNat % 2 ^ 46 + len ≤ 2 ^ 46 →
          (∀ k < n, ¬ok (lo + k) → (∀ j < k, ok (lo + j)) → R fun t => t.peerLeases = s.peerLeases ∧
            match s.xlate rpart (s.part rpart).datp ((lo + k) * 65536) with
            | .error .invalid => answers t (0x104 + 512 * (range % 2 ^ 23))
            | _ => answers t denied) ∧
          ((∀ k < n, ok (lo + k)) → ∀ zs : List Xlat, zs.length = n →
            (∀ k z, zs[k]? = some z → walks rpart ((lo + k) * 65536) need z) →
            match s.reside rpart zs with
            | none => R fun t => answers t 0x103 ∧ t.peerLeases = s.peerLeases
            | some u =>
            match (u.hub (s.homeUnit rpart)).freeRecord with
            | none => R fun t => t.peerLeases = s.peerLeases ∧ t.outbox = s.outbox ∧
                (s.now + 4096, Event.peerLeaseMessage podid frm rpart launch range base len kind) ∈ t.agenda
            | some k => R fun t => answers t 0x100 ∧ k ∈ (t.hub (s.homeUnit rpart)).leasesUsed ∧ ∃ l, t.peerLeases = s.peerLeases ++ [l] ∧
                l.podid = podid ∧ l.frm = frm ∧ l.rpart = rpart ∧ l.launch = launch ∧ l.lease.page = lo ∧
                l.lease.count = n ∧ l.lease.kind.need = need))

/-- R168, R427 to R431, R475: registered messages are performed once and sent again while nothing answers; stations narrow
and go down; the fabric's buckets are refilled; a pool port goes down. The number of resends is the model's
choice (log 13). -/
def Obligations.Messages : Prop :=
  ∀ (s : State),
    (∀ podid seq ok m,
      let R := s.onEvent .registeredReceive (.registeredReceive podid seq ok m)
      let old := s.recvSeq.get [] podid
      (ok = false ∨ seq.toNat ∈ old → R fun t => t = s) ∧
      (ok = true → seq.toNat ∉ old → R fun t =>
        let all := old ++ [seq.toNat]
        t.recvSeq.get [] podid = all.drop (all.length - 4096) ∧
        match m with
        | .poolPost member key dst len mask start elems =>
          ∀ r, s.reductions.find? (fun r => r.key == key && r.dst == dst) = some r →
            if r.len ≠ len ∨ r.mask ≠ mask ∨ r.start ≠ start ∨ (r.elems.find member).isSome = true then
              t.reductions = s.reductions
            else ∃ q ∈ t.reductions, q.key = key ∧ q.dst = dst ∧ q.elems.get [] member = elems ∧
              ∀ k, k ≠ member → q.elems.find k = r.elems.find k
        | .ballotRead pod frm rpart key sel tag =>
          let answers := fun (st : Word) (v w : Nat) =>
            t.outbox = s.outbox ++ [(pod, .ballotAnswer tag st (BitVec.ofNat 64 v) (BitVec.ofNat 32 w))]
          let ok := ∃ e, (s.part rpart).peer pod = some e ∧ e.rpart = frm ∧ e.r = true
          (¬ok → answers 0x109 0 0) ∧
          (ok → match s.ballots.find? fun b => b.part == rpart && b.key == key with
            | none => answers 0x104 0 0
            | some b => match rule494 b sel with
              | some (v, w) => answers 0x100 v w
              | none => answers 0x30A 0 0)
        | .ballotAnswer tag st v w => ∀ c, s.ballotCalls.find? (fun c => c.id == tag) = some c →
            (∀ b ∈ t.ballotCalls, b.id ≠ tag) ∧
            ∀ l ∈ c.lanes, t.answers c.core c.slot l c.tag [st, v.setWidth 32, (v >>> 32).setWidth 32, w]
        | .lease pod frm rpart launch range base len kind =>
          (s.now, Event.peerLeaseMessage pod frm rpart launch range base len kind) ∈ t.agenda
        | .leaseRelease pod frm rpart launch => ∀ l, l ∈ t.peerLeases ↔
            l ∈ s.peerLeases ∧ ¬(l.podid = pod ∧ l.frm = frm ∧ l.rpart = rpart ∧ l.launch = launch)
        | .leaseAnswer queue range st => ∀ p x g, s.parts = [(p, x)] → x.grants = [g] → g.queue = queue → range ∈ g.asked →
            (t.part p).grants = [{ g with answers := g.answers.put range st }] ∧
            (s.now + 1, Event.leaseGrant p queue) ∈ t.agenda)) ∧
    (∀ podid seq,
      let R := s.onEvent .registeredResend (.registeredResend podid seq)
      match s.unacked.find? fun u => u.pod == podid && u.seq == seq with
      | none => R fun t => t = s
      | some u =>
        (u.tries < 4 → R fun t =>
          t.outbox = s.outbox ++ [(podid, u.msg)] ∧ ({ u with tries := u.tries + 1 } : Unacked) ∈ t.unacked ∧
          (s.now + 65536, Event.registeredResend podid seq) ∈ t.agenda) ∧
        (¬u.tries < 4 → R fun t => (∀ v ∈ t.unacked, ¬(v.pod = podid ∧ v.seq = seq)) ∧
          match u.msg with
          | .ballotRead _ _ _ _ _ tag => ∀ c, s.ballotCalls.find? (fun c => c.id == tag) = some c →
              ∀ l ∈ c.lanes, t.answers c.core c.slot l c.tag [0x108, 0, 0, 0]
          | .lease _ _ _ queue range _ _ _ => ∀ p x g, s.parts = [(p, x)] → x.grants = [g] → g.queue = queue →
              range ∈ g.asked → ∃ h ∈ (t.part p).grants,
                h.answers.get 0 range = BitVec.ofNat 32 (0x109 + 512 * ((range + 32 * 0x11) % 2 ^ 23))
          | _ => True)) ∧
    (∀ k, s.onEvent .laneFailure (.laneFailure k) fun t =>
      let n := (s.stations.get Station.reset k).width / 2
      (∀ j, t.stations.get Station.reset j = if j = k then ⟨n, s.now + 2048⟩ else s.stations.get Station.reset j) ∧
      t.replace = s.replace ||| BitVec.twoPow 128 (24 + k) ∧
      (if n = 0 then (s.now, Event.stationDown k) ∈ t.agenda else (s.now + 2048, Event.retrainEnd k) ∈ t.agenda)) ∧
    (∀ k,
      let R := s.onEvent .retrainEnd (.retrainEnd k)
      let x := s.stations.get Station.reset k
      (s.now < x.retrainEnd → R fun t => t = s) ∧
      (x.retrainEnd ≤ s.now → R fun t => t = { s with stations := s.stations.put k { x with retrainEnd := 0 } })) ∧
    (∀ k, s.onEvent .stationDown (.stationDown k) fun t =>
      t = { s with stations := s.stations.put k ⟨0, 0⟩, replace := s.replace ||| BitVec.twoPow 128 (24 + k) }) ∧
    (∀ hub, s.onEvent .fabricTokenRefill (.fabricTokenRefill hub) fun t =>
      let b := fun (p : Nat) => (s.part p).fbkt.get Bucket.zero hub
      let lanes := ((List.range 16).map fun i =>
        let x := s.stations.get Station.reset (16 * hub + i)
        if s.now < x.retrainEnd then 0 else x.width).sum
      let cap := 8192 * lanes / 12 + 36571
      let sum := ((List.range 48).map fun p => (b p).rate).sum
      (s.now + 64, Event.fabricTokenRefill hub) ∈ t.agenda ∧
      ∀ p < 48,
        let short := cap < sum ∧ (b p).rate ≠ 0
        (t.part p).fabshort = (if short then (s.part p).fabshort + 1 else (s.part p).fabshort) ∧
        ((∀ e ∈ s.agenda, ∀ q, e.2 ≠ Event.scaleOutSend q) → (t.part p).fbkt.get Bucket.zero hub =
          if (b p).tokens = (b p).depth then b p
          else { ({ b p with rate := if short then (b p).rate * cap / sum else (b p).rate } : Bucket).refilled with
            rate := (b p).rate })) ∧
    ∀ port, s.onEvent .cxlPortDown (.cxlPortDown port) fun t =>
      (∀ j, t.ports.get false j = if j = port then true else s.ports.get false j) ∧
      t.replace = s.replace ||| BitVec.twoPow 128 (72 + port) ∧ s.sameBytes t

/-- R432 to R434: scale-out envelopes leave a partition's egress queue one at a time and in order, and are inserted
in the queue they name or wait for it; the sender's status is written when the target has answered. That no count
includes the envelope itself is the model's reading (log 62). -/
def Obligations.ScaleOut : Prop :=
  ∀ (s : State), s.memOk = true →
    (∀ part q d pa u, (s.part part).scaleBusy = none → s.egressQueue part = some (q, d) → d.held ≠ 0 → q % 128 = 0 →
      s.agentUse part (s.part part).datp (d.slotVa d.head) Need.any false = some (pa, u) → u.clears (q + 16) →
      let R := s.onEvent .scaleOutSend (.scaleOutSend part)
        let bs := u.view .merged pa 128
        let bad := s.rule433 part bs
        let taken := fun (v : State) => u.moved v (q + 16) (d.head + 1) 0 [] (fun _ => False)
        let h := s.homeUnit part
        let b := fun (s : State) => (s.part part).fbkt.get Bucket.zero h
        (∀ o, bad o → (∀ p < o, ¬bad p) → R fun t =>
          (∃ v, taken v ∧ v.tells t part (lineNat bs 0x10 8) (0x10A + 512 * o)) ∧ t.outs = s.outs ∧
          (s.now + 1, Event.scaleOutSend part) ∈ t.agenda) ∧
        ((∀ o, ¬bad o) →
          ((b s).tokens < 128 → R fun t =>
            u.sameBytes t ∧ t.outs = s.outs ∧ (s.now + 1, Event.scaleOutSend part) ∈ t.agenda) ∧
          (128 ≤ (b s).tokens → R fun t =>
            taken t ∧ (b t).tokens = (b s).tokens - 128 ∧
            (t.part part).scaleBusy = some (lineNat bs 0x10 8, lineNat bs 4 4, lineNat bs 8 2) ∧
            ∃ e, t.outs = s.outs ++ [.env (lineNat bs 4 4) e] ∧ e.soid.toNat = s.pkgid.toNat / 1024 % 2 ^ 21 ∧
              e.srcQnum = BitVec.ofNat 12 d.qnum ∧ e.tag = (s.part part).xotag ∧ e.qnum.toNat = lineNat bs 8 2 ∧
              e.count = s.deliveredTo part (lineNat bs 4 4) (lineNat bs 8 2) ∧
              (e.waitroom = true ↔ lineNat bs 1 1 = 1) ∧ e.payload = (bs.drop 0x18).take 96))) ∧
    (∀ e : RemoteEnv,
      let fits := fun (p q : Nat) => (s.part p).xotag = e.tag ∧
        let d := s.qdesc .merged q
        d.ok = true ∧ d.kind = 0 ∧ d.part = p ∧ d.qnum = e.qnum.toNat
      s.parts.sorted = true →
      match s.targetQueue e with
      | some (p, q, d) => fits p q ∧ d = s.qdesc .merged q ∧ q ∈ (s.part p).queues
      | none => ∀ p x, (p, x) ∈ s.parts → ∀ q ∈ x.queues, ¬fits p q) ∧
    (∀ e, e.payload.length = 96 → (∀ p q d, s.targetQueue e = some (p, q, d) → q % 128 = 0) →
      s.inserts (s.onEvent .scaleOutReceive (.scaleOutReceive e)) e fun t => s.sameBytes t ∧ (
          if e.waitroom then t.outs = s.outs ∧ ∃ id, t.waitroom = s.waitroom ++ [(id, s.now + 65536, e)] ∧
            (s.now + 4096, Event.waitroomRetry id) ∈ t.agenda
          else t.outs = s.outs ++ [.status e.soid.toNat e.srcQnum.toNat 0x101])) ∧
    (∀ id n e, s.waitroom.find? (fun w => w.1 == id) = some (id, n, e) → e.payload.length = 96 →
      (∀ p q d, s.targetQueue e = some (p, q, d) → q % 128 = 0) →
      let R := s.onEvent .waitroomRetry (.waitroomRetry id)
      let out := fun (t : State) => ∀ w ∈ t.waitroom, w.1 ≠ id
      let full := ∃ p q d, s.targetQueue e = some (p, q, d) ∧ d.held = d.slots
      (¬full → R out) ∧
        s.inserts R e fun t => s.sameBytes t ∧ (
          if n ≤ s.now then out t ∧ t.outs = s.outs ++ [.status e.soid.toNat e.srcQnum.toNat 0x108]
          else t.waitroom = s.waitroom ∧ t.outs = s.outs ∧ (s.now + 4096, Event.waitroomRetry id) ∈ t.agenda)) ∧
    ∀ part st,
      let R := s.onEvent .scaleOutStatus (.scaleOutStatus part st)
      match (s.part part).scaleBusy with
      | none => R fun t => t = s
      | some (va, soid, qnum) => R fun t => s.tells t part va st.toNat ∧ (t.part part).scaleBusy = none ∧
          t.deliveredTo part soid qnum = (if st.toNat % 256 = 0 then s.deliveredTo part soid qnum + 1
            else s.deliveredTo part soid qnum) ∧ (s.now + 1, Event.scaleOutSend part) ∈ t.agenda

/-- R285, R286, R302, R305, R306, R316 to R319, R417: a signed matrix instruction sends the signature of every
active lane to the side 0 core; there it is refused, counted, or completes the round, and the completing one is
checked and placed on the engines. A per-lane instruction is checked and placed, and on an engine with nothing else
to do it is performed. The details and times of refused operations, and the retries at a full queue, are the model's
readings (logs 41, 42 and 46). -/
def Obligations.MatrixRequests : Prop :=
  ∀ (s : State) (f : Fields),
    let side := fun (c : Nat) => (s.core c).sideD.side
    let holders := fun (core : Nat) (w : Word) => if (AccDesc.ofWord w).pair then s.teamOf core else [core]
    let S := fun (i : Instr) (op : Nat) =>
      let x := s.issueOf i
      let k : BitVec 4 := f.mod.setWidth 4
      let mma := op = 1 ∨ op = 2
      let sig := fun (l : Nat) =>
        let b := natWords 4 (x.value l x.f.b 4 .int)
        let c := natWords 4 (x.value l x.f.c 4 .int)
        ({ op := op
           accd := if mma then c.headD 0 else BitVec.ofNat 32 (x.value l x.f.a 1 .int)
           ops := if mma then natWords 4 (x.value l x.f.a 4 .int) ++ b ++ c else b ++ natWords 2 (x.value l x.f.c 2 .int)
           dst := Opnd.vreg x.f.dst, tag := x.tag, trap := x.levelFault l (readFields x.sh x.f) } : Sig)
      (∃ t, exec i s = .next t ∧ s.keepsOthers t x x.linkWrite ∧
        (x.lanes.Nodup → ∀ l ∈ x.lanes,
          if x.active l = false then t.passes x l
          else
            (x.e + (if side x.core = 0 then 2 else 16), Event.signatureArrival x.core x.slot l k true) ∈ t.agenda ∧
            ∀ u, x.raw.threadAt x.slot l = some u → ∃ a,
              a.e = x.e ∧ a.stall = x.stall ∧ a.pc = x.pc ∧ a.npc = x.nextPc ∧ a.block = false ∧
              t.threadAt x.core x.slot l = some { u with
                wait := .answer, await := some a, next := x.nextIssue, pc := x.nextPc, sig := some (sig l) })) ∧
      -- R305, R306: a signer that completes a valid round; its signature arrives two cycles later, and the operation issues
      ∀ l T u, x.alone l → s.coreTeam x.core = some T → side x.core = 0 → x.raw.threadAt x.slot l = some u →
        let c := T.convs.get Conv.zero k.toNat
        let v := (sig l).event (domainOf (x.raw.group x.slot).width x.slot) x.slot u.index x.e u.seed
        let both := 1 < ((s.sidesOf T).filter fun d =>
          (s.sideLive d).any fun n => n == u.index || c.signed.contains n).length
        c.decl ≠ .none → u.index ∈ c.set → u.index ∉ c.signed → (c.use = .none ∨ c.use = .matrix) →
        (∀ n ∈ c.set, n = u.index ∨ n ∈ c.signed) →
        (∀ d ∈ holders x.core v.accd, ((s.core d).engine.filter fun v => v.kind.isSigned && v.ended.isNone).length < 5) →
        v.malformed (s.core x.core).accGranules both = 0 → v.paired = true →
        s.rangeMiss x.core v = none → s.tagMiss x.core v = none →
        ∃ t, exec i s = .next t ∧ ∃ w,
          exec .signatureArrival
            { t with now := x.e + 2, event := .signatureArrival x.core x.slot l k true } = .next w ∧
          (∀ y, w.threadAt x.core x.slot l = some y → y.pc = x.nextPc ∧ y.wait = .none ∧ y.sig = none) ∧
          ∀ d ∈ holders x.core v.accd, ∃ z ∈ (w.core d).engine, z.kind = v.kind ∧ z.accd = v.accd ∧ z.ops = v.ops
    let L := fun (i : Instr) (kind : EngKind) (elem : Option Bool) (data : Ctx → Nat → DWord) (regs : Nat)
        (does : Ctx → Nat → AccDesc → Nat → Nat → State → Prop) =>
      let x := s.issueOf i
      ∀ l, x.alone l →
        let w := BitVec.ofNat 32 (x.value l x.f.a 1 .int)
        let n := BitVec.ofNat 32 (x.value l x.f.b 1 .int)
        let a := AccDesc.ofWord w
        let row := n.toNat / 2 ^ 16 % 256
        let col := n.toNat % 512
        let bad := ¬rule291 w (s.core x.core).accGranules ∨ (a.pair = true ∧ (s.teamOf x.core).length < 2) ∨
          2 ^ 24 ≤ n.toNat ∨ n.toNat / 2 ^ 9 % 2 ^ 7 ≠ 0 ∨ a.m ≤ row ∨
          (elem.isSome = true ∧ (col < a.col0 (side x.core) ∨ a.col0 (side x.core) + a.ns ≤ col))
        let other := match elem with
          | some b => (b = true ↔ a.afmt ≠ 1)
          | none => a.afmt ≠ 0
        let event := if elem.isSome then Event.mreadPerform x.core else .matrixChunk x.core
        (∃ t, exec i s = .next t ∧
          (bad → s.raises t x l 9 (w ++ n) x.pc) ∧
          (¬bad → other → s.raises t x l 7 (BitVec.ofNat 64 (2 ^ 10 * a.afmt)) x.pc) ∧
          (¬bad → ¬other → (∀ m ∈ x.lanes, t.passes x m) ∧ s.keepsScratch t ∧
            (∀ r d, x.f.dst = .v r d → regs ≠ 0 → ∃ q ∈ (t.core x.core).vres,
              q.slot = x.slot ∧ q.lane = l ∧ q.tag = x.tag ∧ q.reg = r.toNat ∧ q.n = regs ∧ q.due = none) ∧
            ∃ v at_, s.placed t x.core v ∧ v.kind = kind ∧ v.placed = x.e + 1 ∧
              v.lanes = [⟨l, w, n, data x l⟩] ∧ v.accd = w ∧ v.slot = x.slot ∧ v.thread = (x.thread l).index ∧
              v.tag = x.tag ∧ v.fetched = true ∧ v.past = false ∧ v.ended = none ∧ (at_, event) ∈ t.agenda)) ∧
        -- R316 to R320: nothing else stands in the engine's order
        (s.sramOk = true → ¬bad → ¬other → (s.core x.core).engine = [] → ∀ at_, x.e + 18 ≤ at_ → (s.core x.core).engineFree ≤ at_ →
          ∃ t, exec i s = .next t ∧ ∃ u,
            exec (if elem.isSome then .mreadPerform else .matrixChunk) { t with now := at_, event := event } = .next u ∧
            does x l a row (col - a.col0 (side x.core)) u)
    let b64 := f.mod.getLsbD 0
    let old := fun (x : Ctx) (a : AccDesc) (row j : Nat) => (s.core x.core).accGet a row j
    let has := fun (x : Ctx) (a : AccDesc) (row : Nat) => (List.range a.ns).map (old x a row)
    let gets := fun (x : Ctx) (l : Nat) (u : State) (vals : List Word) =>
      ∀ r d, x.f.dst = .v r d → ∃ q ∈ (u.core x.core).vres,
        q.slot = x.slot ∧ q.lane = l ∧ q.tag = x.tag ∧ q.reg = r.toNat ∧ q.vals = vals ∧ q.due.isSome = true
    S (.mzero f) 0 ∧ S (.mma f) 1 ∧ S (.mmasp f) 2 ∧ S (.mldacc f) 3 ∧ S (.mstacc f) 4 ∧ S (.mpack f) 5 ∧
    L (.mread f) .mread (some b64) (fun _ _ => 0) (if b64 then 2 else 1)
      (fun x l a row j u => gets x l u (natWords (a.size / 4) (old x a row j))) ∧
    L (.mwrite f) .mwrite (some b64) (fun x l => BitVec.ofNat 64 (x.value l x.f.dst (if b64 then 2 else 1) .int)) 0
      (fun x l a row j u => (u.core x.core).accGet a row j =
        x.value l x.f.dst (if b64 then 2 else 1) .int % 2 ^ (8 * a.size)) ∧
    L (.mrowMax f) .mrowMax none (fun _ _ => 0) 1
      (fun x l a row _ u => ∃ w, rule318 (has x a row) w ∧ gets x l u [BitVec.ofNat 32 w]) ∧
    L (.mrowSum f) .mrowSum none (fun _ _ => 0) 1
      (fun x l a row _ u => gets x l u [BitVec.ofNat 32 (fround .f32 0 (exactSum ((has x a row).map (elemValue .f32))))]) ∧
    L (.mexp f) .mexp none
      (fun x l => BitVec.ofNat 64 (x.value l x.f.c 1 (.flt .f32) + (if b64 then 2 ^ 32 else 0))) 0
      (fun x l a row _ u => ∀ j < a.ns, (u.core x.core).accGet a row j =
        rule319 b64 (BitVec.ofNat 32 (x.value l x.f.c 1 (.flt .f32))) (old x a row j)) ∧
    ∀ core slot lane k T u a g, s.coreTeam core = some T → s.threadAt core slot lane = some u → u.await = some a →
      u.sig = some g →
      let R := s.onEvent .signatureArrival (.signatureArrival core slot lane k true)
        let c := T.convs.get Conv.zero k.toNat
        let at_ := max s.now (a.e + (if side core = 0 then 2 else 32))
        let goes := fun (t : State) (n : Nat) => (s.modThread core slot lane fun u =>
          { u with sig := none, seed := stepSeed n u.seed }).goesOn t core slot lane at_
        let refused := fun (t : State) (cause : Nat) (b : DWord) => t.teams = s.teams ∧
          (∀ c, (t.core c).engine = (s.core c).engine) ∧
          (s.modThread core slot lane fun u => { u with sig := none }).trapsLate t core slot lane cause b
        let own : List SignDst := match g.dst with
          | some r => [⟨u.index, r, g.tag⟩]
          | none => []
        if c.decl = .none ∨ u.index ∉ c.set ∨ u.index ∈ c.signed ∨ (c.use ≠ .none ∧ c.use ≠ .matrix) then
          R fun t => refused t 8 (BitVec.ofNat 64 (0xE0 + k.toNat))
        else if ∃ n ∈ c.set, n ≠ u.index ∧ n ∉ c.signed then
          R fun t => goes t 0 ∧ (∀ c, (t.core c).engine = (s.core c).engine) ∧ ∃ T', t.findTeam T.launch T.index = some T' ∧
            let d := T'.convs.get Conv.zero k.toNat
            d.decl = c.decl ∧ d.set = c.set ∧ d.use = .matrix ∧ d.round = c.round ∧ d.dsts = c.dsts ++ own ∧
            ∀ n, n ∈ d.signed ↔ n = u.index ∨ n ∈ c.signed
        else if ∃ d ∈ holders core g.accd, 5 ≤ ((s.core d).engine.filter fun v => v.kind.isSigned && v.ended.isNone).length then
          R fun t => t.teams = s.teams ∧ t.threadAt core slot lane = some { u with wait := .engine } ∧
          (s.now + 1, Event.signatureArrival core slot lane k true) ∈ t.agenda
        else
          let v := g.event (domainOf ((s.core core).group slot).width slot) slot u.index a.e u.seed
          let both := 1 < ((s.sidesOf T).filter fun d =>
            (s.sideLive d).any fun n => n == u.index || c.signed.contains n).length
          let detail := v.malformed (s.core core).accGranules both
          let closed := fun (t : State) => ∃ T', t.findTeam T.launch T.index = some T' ∧
            T'.convs.get Conv.zero k.toNat = { c with use := .none, signed := [], round := c.round + 1, dsts := [] }
          match g.trap with
          | some (cause, code) => R fun t => refused t cause (BitVec.ofNat 64 code)
          | none =>
            if detail ≠ 0 then
              R fun t => goes t 0 ∧ closed t ∧ (∀ c, (t.core c).engine = (s.core c).engine) ∧
              (∀ d ∈ c.dsts ++ own, ∀ core' j m w, (s.core core').side.isSome = true →
                (s.core core').sideD.launch = T.launch → (s.core core').sideD.team = T.index →
                s.threadAt core' j m = some w → w.index = d.index →
                t.answers core' j m d.tag [BitVec.ofNat 32 (0x10A + 512 * detail)])
            else if v.paired = false then R fun t => refused t 7 v.formats
            else match s.rangeMiss core v, s.tagMiss core v with
              | some o, _ => R fun t => refused t 9 (BitVec.ofNat 64 o)
              | none, some o => R fun t => refused t 6 (BitVec.ofNat 64 o)
              | none, none =>
                R fun t => goes t (if v.kind = .mstacc ∧ (v.ctl 0).getLsbD 3 = true then v.acc.m * v.acc.n else 0) ∧ closed t ∧
                ∀ d ∈ holders core g.accd, ∃ w ∈ (t.core d).engine,
                  w.kind = v.kind ∧ w.accd = v.accd ∧ w.ops = v.ops ∧ w.thread = v.thread ∧ w.seed = v.seed ∧
                  w.placed = a.e + (if d = core then 0 else 14) ∧ w.chunk = 0 ∧ w.past = false ∧ w.ended = none ∧
                  (w.fetched = true ↔ v.kind ≠ .mma ∧ v.kind ≠ .mmasp ∧ v.kind ≠ .mldacc) ∧
                  (w.maps = true ↔ v.kind ≠ .mmasp)

/-- R289, R291, R295, R298 to R301, R307 to R321: the engine of a core fetches operands, runs its events one at a
time in their order, accumulates chunk by chunk, and writes the statuses. When the lines of a chunk take their
value, when an event starts and the order of the draws with TRANS are the model's readings (logs 44, 46 and 81). -/
def Obligations.MatrixEngine : Prop :=
  ∀ (s : State) (core : Nat), s.sramOk = true →
    let c := s.core core
    let side := c.sideD.side
    let lag := if (s.teamOf core).length < 2 then 3 else 17
    let kept := fun (t : State) (a : AccDesc) => ∀ k,
      (k < c.accBase + a.base * 16384 ∨ c.accBase + a.base * 16384 + a.m * a.ns * a.size ≤ k) →
        t.sramByte core k = s.sramByte core k
    let ends := fun (t : State) (v : EngEvent) (st : Word) (last : Nat) =>
      (∃ w ∈ (t.core core).engine, w.id = v.id ∧ w.past = true ∧ w.status = st ∧ w.next = last + 1) ∧
      (max last s.now, Event.matrixEventComplete core) ∈ t.agenda
    let told := fun (t : State) (v : EngEvent) => ∀ d ∈ v.dsts, ∀ core' j m w, (s.core core').side.isSome = true →
      (s.core core').sideD.launch = c.sideD.launch → (s.core core').sideD.team = c.sideD.team →
      s.threadAt core' j m = some w → w.index = d.index →
      t.answers core' j m d.tag [v.status]
    -- an engine's fault ends the launch and the event
    let ends0 := fun (t : State) (v : EngEvent) (cause a : Nat) =>
      (∀ w ∈ (t.core core).engine, w.id ≠ v.id) ∧
      (s.now + officeTime core, Event.terminalFaultArrival c.sideD.launch
        { cause := BitVec.ofNat 8 cause, flags := 0, addr := BitVec.ofNat 64 a, pc := 0
          core := BitVec.ofNat 16 core, slot := 0xFF, lane := 0xFF }) ∈ t.agenda
    (∀ w acc, (AccDesc.ofWord w).ok acc = true ↔ rule291 w acc) ∧
    (∀ v, c.engine.filter (fun v => !v.fetched) = [v] → (∀ w ∈ c.engine, w.id = v.id → w = v) → v.arrives ≤ s.now →
      v.placed + lag ≤ s.now →
      let R := s.onEvent .tileFetch (.tileFetch core)
        let read := fun (a : Nat) => s.resolve c.sideD.launch a Need.read
        let place := fun (pa : Nat) => s.routeRead pa / 128 * 128
        -- the lines asked for: the bitmaps of a sparse operation, then those of the chunks to come
        let lines := if v.maps then (List.range' v.chunk (v.chunks - v.chunk)).flatMap (v.chunkLines side) else v.mapLines side
        let had := fun (b : Bool) (a : Nat) => (if b then v.lb else v.la).find (a / 128)
        -- nothing keeps a line back: no handover, no held store, and pins for all
        let plain := s.pinnedLines.length + lines.length ≤ 1024 ∧ ∀ b sp a, (b, sp, a) ∈ lines → sp = true ∨
          ∃ pa, read a = .ok (.mem pa, s) ∧ s.needsHandover (place pa) = false ∧
            ∀ h ∈ s.held, h.core = core → h.pa / 128 ≠ place pa / 128
        let late := max (v.placed + lag) v.arrives < s.now ∧ v.hasLines side = false
        (R fun t => (s.now, Event.matrixChunk core) ∈ t.agenda) ∧
        (plain → R fun t => ∃ w ∈ (t.core core).engine,
          (if v.maps then w = { v with fetched := true, la := w.la, lb := w.lb, next := if late then max v.next s.now else v.next }
            else w = { v with maps := true, la := w.la, lb := w.lb, arrives := w.arrives } ∧
              (max w.arrives s.now, Event.tileFetch core) ∈ t.agenda) ∧
          ∀ b sp a, (b, sp, a) ∈ lines →
            let l := if b then w.lb else w.la
            match had b a with
            | some old => l.find (a / 128) = some old
            | none =>
              if sp then fetched l a = s.teamByte core a
              else ∀ pa, read a = .ok (.mem pa, s) → fetched l a = s.viewByte (.core core) (place pa + a % 128) ∧
                (fetchedBad l a = true ↔ s.poisoned (place pa) 128 = true)) ∧
        ∀ b a cause, lines.head? = some (b, false, a) → had b a = none → read a = .error cause → R fun t => ends0 t v cause a) ∧
    (∀ v, c.engHead = some v →
      let R := s.onEvent .matrixChunk (.matrixChunk core)
        let a := v.acc
        let at_ := max (max (v.placed + 1) v.next) (max c.engineFree v.arrives)
        let ready := max at_ (v.placed + lag)
        let held := v.hasLines side = false ∨ v.past = true ∨
          ∃ w ∈ c.engBefore v.id, w.kind = .mwrite ∧ w.touches v side = true
        let elem := fun (u : State) (i j : Nat) => (u.core core).accGet a i j
        (held → R fun t => t = s) ∧
        (¬held → v.todo = none → s.now < ready → R fun t => s.keepsScratch t ∧ (ready, Event.matrixChunk core) ∈ t.agenda) ∧
        (¬held → v.todo = none → ready ≤ s.now → R fun t =>
          match v.kind with
          | .mma | .mmasp =>
            if v.chunkBad side || (s.otherHalf core v).any fun p => p.1.chunkBad p.2 then
              s.keepsScratch t ∧ ends t v (BitVec.ofNat 32 (0x106 + 512 * (v.chunk % 2 ^ 23))) (at_ - 1)
            else
              kept t a ∧ (∀ i < a.m, ∀ j < a.ns, elem t i j =
                rule105Acc a.afmt (rmBits ((v.ctl 1).toNat / 16)) ((v.ctl 1).getLsbD 6) (elem s i j) (v.rule105 side i j)) ∧
              ∃ cost,
                (v.kind = .mma →
                  let rate := min (fmtRate v.descA.fmt) (fmtRate v.descB.fmt)
                  cost = (a.m * a.ns * v.kc + rate - 1) / rate) ∧
                let last := at_ + cost - 1
                if (v.chunk + 1) * v.kc = v.k then ends t v 0x100 last
                else (∃ w ∈ (t.core core).engine, w.id = v.id ∧ w.chunk = v.chunk + 1 ∧ w.next = last + 1) ∧
                  (max (last + 1) s.now, Event.matrixChunk core) ∈ t.agenda
          | .mzero => kept t a ∧ (∀ i < a.m, ∀ j < a.ns, elem t i j = 0) ∧
              ends t v 0x100 (at_ + (a.m * a.ns * a.size + 2047) / 2048 - 1)
          | .mldacc => v.descA.width = 8 * a.size → kept t a ∧
              (∀ i < a.m, ∀ j < a.ns, elem t i j =
                if i < (s.rowFails core v).getD a.m then v.descA.code v.la (v.descA.bitOff i (a.col0 side + j)) else elem s i j) ∧
              ∃ last, ends t v (match s.rowFails core v with
                | some i => BitVec.ofNat 32 (0x106 + 512 * (i % 2 ^ 23))
                | none => 0x100) last
          | .mstacc | .mpack =>
            let m := if v.kind = .mpack then c.packBytes v side else c.storeBytes v side
            (v.descA.sp = true → (s.teamOf core).Nodup → (∀ p ∈ m, p.1 < (s.teamOf core).length * c.spBytes) →
              ∀ o < (s.teamOf core).length * c.spBytes, t.teamByte core o = (m.find o).getD (s.teamByte core o)) ∧
            (v.descA.sp = true → ∃ last, ends t v 0x100 last) ∧
            (v.descA.sp = false → ∀ a bs rest cause, byteRuns m = (a, bs) :: rest →
              s.resolve c.sideD.launch a Need.write = .error cause → ends0 t v cause a)
          | .mrowMax | .mrowSum => s.keepsScratch t ∧ (∃ last, ends t v 0x100 last) ∧ ∀ o, v.lanes = [o] →
              let d := AccDesc.ofWord o.accd
              let row := (List.range d.ns).map (c.accGet d (o.idx.toNat / 2 ^ 16 % 256))
              ∃ w, t.answers core v.slot o.lane v.tag [BitVec.ofNat 32 w] ∧
                if v.kind = .mrowMax then rule318 row w
                else w = fround .f32 0 (exactSum (row.map (elemValue .f32)))
          | .mexp => (∃ last, ends t v 0x100 last) ∧ ∀ o, v.lanes = [o] →
              let d := AccDesc.ofWord o.accd
              let i := o.idx.toNat / 2 ^ 16 % 256
              kept t d ∧ ∀ j < d.ns, (t.core core).accGet d i j =
                rule319 (o.data.getLsbD 32) (o.data.setWidth 32) (c.accGet d i j)
          | _ => True)) ∧
    (∀ v, c.engHead = some v →
      let R := s.onEvent .matrixEventComplete (.matrixEventComplete core)
      (v.past = false → R fun t => t = s) ∧
      (v.past = true → R fun t =>
        s.keepsScratch t ∧ (t.core core).engineFree = v.next ∧
        (max v.next s.now, Event.matrixChunk core) ∈ t.agenda ∧ (max v.next s.now, Event.mreadPerform core) ∈ t.agenda ∧
        if v.kind.isSigned = true ∧ (v.kind ≠ .mzero ∨ v.dsts ≠ []) then
          (max (v.next + 15) s.now, Event.matrixStatusWrite core v.id) ∈ t.agenda ∧
          ∃ w ∈ (t.core core).engine, w.id = v.id ∧ w.ended = some (v.next - 1)
        else ∀ w ∈ (t.core core).engine, w.id ≠ v.id)) ∧
    (∀ id v, c.engine.find? (fun v => v.id == id) = some v →
      s.onEvent .matrixStatusWrite (.matrixStatusWrite core id) fun t =>
        s.keepsScratch t ∧ (∀ w ∈ (t.core core).engine, w.id ≠ id) ∧ told t v) ∧
    ∀ v o, c.engine.filter (fun v => v.kind == .mread || v.kind == .mwrite) = [v] → v.lanes = [o] →
      (∀ w ∈ c.engine, w.id = v.id → w = v) →
      let row := o.idx.toNat / 2 ^ 16 % 256
      let j := o.idx.toNat % 512 - v.acc.col0 side
      row < v.acc.m → j < v.acc.ns →
      let R := s.onEvent .mreadPerform (.mreadPerform core)
        let waits := s.now < v.placed + lag ∨ ∃ w ∈ c.engBefore v.id,
          w.ended = none ∧ w.touches v side = true ∧ (v.kind = .mread → w.kind.changes = true)
        (waits → R fun t => t = s) ∧
        (¬waits → R fun t => (∀ w ∈ (t.core core).engine, w.id ≠ v.id) ∧
          if v.kind = .mwrite then
            kept t v.acc ∧ (t.core core).accGet v.acc row j = o.data.toNat % 2 ^ (8 * v.acc.size)
          else s.keepsScratch t ∧
            t.answers core v.slot o.lane v.tag (natWords (v.acc.size / 4) (c.accGet v.acc row j)))

/-- R413, R419, R476 to R480: EXIT ends the active threads; the retirement tracker holds what they leave until it
has drained; a side that holds nothing any more is complete, and with its last side a team. What an exited thread
keeps is the model's reading (log 69). -/
def Obligations.Exits : Prop :=
  ∀ (s : State) (f : Fields), s.tablesOk = true →
    let x := s.issueOf (.exit f)
    (∃ t, exec (.exit f) s = .next t ∧
      (x.actives = [] → s.keepsOthers t x x.linkWrite ∧ (x.lanes.Nodup → ∀ l ∈ x.lanes, t.passes x l)) ∧
      (x.actives ≠ [] →
        let all := ∀ l u, x.raw.threadAt x.slot l = some u → u.exited = true ∨ l ∈ x.actives
        (∀ w ∈ (t.core x.core).vres, ¬(w.slot = x.slot ∧ w.lane ∈ x.actives)) ∧
        (all → (t.core x.core).groups.find x.slot = none ∧ (s.now, Event.teamSideComplete x.core) ∈ t.agenda) ∧
        (¬all → ∀ l u, x.raw.threadAt x.slot l = some u →
          t.writes x x.e l (.clear x.tag) ∧
          (l ∈ x.actives → ∃ v ctx, t.threadAt x.core x.slot l = some v ∧ v.exited = true ∧ v.p = 0 ∧
            (∀ n, v.vread n = 0) ∧ v.lv = Level.empty ctx))) ∧
      ∀ l u T, x.actives = [l] → x.raw.threadAt x.slot l = some u → s.coreTeam x.core = some T →
        let scope := min (s.launch T.launch).env.exitScope (s.launch T.launch).ceil
        let work := max u.storesDone (max u.pubDone u.workDone)
        (∀ w ∈ t.staged, w.inPhase T.launch T.index u.index = true → ∃ sc a, w.pub = some (sc, a) ∧ scope ≤ sc) ∧
        (s.now < work → ∃ e ∈ (t.core x.core).tracker, e.slot = x.slot ∧ u.index ∈ e.threads ∧ work ≤ e.done ∧
          ((∀ e ∈ (s.core x.core).tracker, e.slot ≠ x.slot) → (s.now + 1, Event.trackerEntryDrain x.core e.id) ∈ t.agenda)) ∧
        ∃ T', t.findTeam T.launch T.index = some T' ∧ ∀ k < 16,
          let c := T.convs.get Conv.zero k
          let d := T'.convs.get Conv.zero k
          let signed := c.signed.filter (· != u.index)
          let set := c.set.filter (· != u.index)
          let done := signed ≠ [] ∧ ∀ n ∈ set, n ∈ signed
          d.decl = c.decl ∧ d.set = set ∧ (¬done → d.signed = signed ∧ d.use = c.use ∧ d.round = c.round) ∧
          (done → u.index ∈ c.set → d.signed = [] ∧ d.use = .none ∧ d.round = c.round + 1)) ∧
    (∀ core id e, (s.core core).tracker.find? (fun e => e.id == id) = some e →
      let R := s.onEvent .trackerEntryDrain (.trackerEntryDrain core id)
        let c := s.core core
        let own := fun (l m n : Nat) => l = c.sideD.launch ∧ m = c.sideD.team ∧ n ∈ e.threads
        let busy := s.now < e.done ∨
          (∃ h ∈ s.held, h.core = core ∧ h.slot = e.slot ∧ h.thread ∈ e.threads ∧ h.op.isLoad = false) ∨
          (∃ j ∈ c.jobs, j.thread ∈ e.threads) ∨ (∃ w ∈ c.wc, w.id ∈ e.wc) ∨
          (∃ k, (k = core ∨ k = pairOf core) ∧ (s.core k).sideD.launch = c.sideD.launch ∧ (s.core k).sideD.team = c.sideD.team ∧
            ∃ v ∈ (s.core k).engine, v.thread ∈ e.threads ∧ (v.kind = .mstacc ∨ v.kind = .mpack) ∧ v.ended = none) ∨
          (∃ w ∈ s.tableWaits, w.core = core ∧ w.thread ∈ e.threads) ∨
          (∃ o ∈ s.pinOps, o.kind ≠ .hint ∧ o.left = none ∧ own o.launch o.team o.thread) ∨
          ∃ o ∈ s.poolOps, o.posted = false ∧ own o.launch o.team o.thread
        (busy → R fun t => t.cores = s.cores ∧ (max (s.now + 1) e.done, Event.trackerEntryDrain core id) ∈ t.agenda) ∧
        (¬busy → R fun t => (∀ y, y ∈ (t.core core).tracker ↔ y ∈ c.tracker ∧ y.id ≠ id) ∧
          (s.now, if c.side.isSome then Event.teamSideComplete core else .clusterHandout (core / 8)) ∈ t.agenda)) ∧
    ∀ core T, s.coreTeam core = some T →
      let R := s.onEvent .teamSideComplete (.teamSideComplete core)
        let c := s.core core
        let d := c.sideD
        let done := c.side.isSome = true ∧ c.groups = [] ∧ d.pressed = [] ∧ (∀ k h, (k, h) ∈ d.holes → h.recs = []) ∧
          c.tracker = [] ∧ s.starting core = false
        let lost := ∃ b, s.ballotOf T.launch = some b ∧ (b.sib T.index).sstate = 4
        let l := s.launch T.launch
        (¬done → R fun t => t = s) ∧
        (done → R fun t =>
          let m := t.launch T.launch
          (t.core core).side = none ∧ m.cycles = l.cycles + (d.stopAt.getD s.now - d.placed) ∧
          (∀ w ∈ t.staged, w.launch = T.launch → w.team = T.index → w.side = d.side → w.hidden = false →
            ∃ sc a, w.pub = some (sc, a) ∧ 5 ≤ sc) ∧
          if T.doneSides.length + 1 < T.cores.length then
            ∃ T', t.findTeam T.launch T.index = some T' ∧ d.side ∈ T'.doneSides
          else
            t.findTeam T.launch T.index = none ∧ (lost → m.completed = l.completed) ∧
            (¬lost → m.completed = l.completed + 1 ∧
              ∀ b, s.ballotOf T.launch = some b → (b.sibs.find T.index).isSome = true →
                ∃ b', t.ballotOf T.launch = some b' ∧ (b'.sib T.index).sstate = 3))

/-- R148, R150 to R156: SPAWN of one lane sets out for the cycle after e (log 78), in which its record is inserted in a
pigeonhole or the lane waits for one; a pigeonhole that is full or past its time becomes a group when there is room;
groups saved for room come back. -/
def Obligations.Spawns : Prop :=
  ∀ (s : State) (f : Fields), s.tablesOk = true →
    let hole := fun (s : State) (core k : Nat) => (s.core core).sideD.holes.get Hole.free k
    let env := fun (core : Nat) => (s.launch (s.core core).sideD.launch).env
    let count := fun (g : Group) => (g.threads.filter fun p => !p.2.exited).length
    let room := fun (core n : Nat) =>
      (∃ j < 64, (s.core core).groups.find j = none) ∧
      (((s.core core).groups.filter fun g => g.2.st != .saved && g.2.st != .retired).map fun g => count g.2).sum + n ≤
        min 2048 ((env core).pword.toNat % 64 * 16384 / (max (env core).regs 1 * 4))
    let lowest := fun (core j : Nat) =>
      (s.core core).groups.find j = none ∧ ∀ i < j, (s.core core).groups.find i ≠ none
    let filling := fun (core e j : Nat) => j < 16 ∧ (hole s core j).st = .filling ∧ (hole s core j).key = e
    let free := fun (core j : Nat) => j < 16 ∧ (hole s core j).st = .free
    -- the pigeonhole that an insertion takes (R151)
    let takes := fun (core e j : Nat) => (filling core e j ∧ ∀ i < j, ¬filling core e i) ∨
      ((∀ i, ¬filling core e i) ∧ free core j ∧ ∀ i < j, ¬free core i)
    let record := fun (t : State) (core e j : Nat) (r : SpawnRec) =>
      let h := hole s core j
      let o := hole t core j
      o.recs = (if h.st = .free then [] else h.recs) ++ [r] ∧ o.key = (if h.st = .free then e else h.key) ∧
        (∀ i, i ≠ j → hole t core i = hole s core i) ∧ ((env core).width ≤ o.recs.length → o.st = .due) ∧
        (o.recs.length < (env core).width → o.st = .filling)
    (let x := s.issueOf (.spawn f)
     let e := fun (l : Nat) => x.value l x.f.a 1 .int
     let args := fun (l : Nat) => natWords x.f.mod.toNat (x.value l x.f.b x.f.mod.toNat .int)
     let event := fun (l : Nat) => Event.spawnInsert x.core x.slot x.tag [(l, e l, args l, xorStep (x.thread l).seed)]
     ∀ l, x.alone l →
      (∃ t, exec (.spawn f) s = .next t ∧ t.teams = s.teams ∧ (∀ k, hole t x.core k = hole s x.core k) ∧
        t.waitsAt x l .answer false ∧ (∀ m ∈ x.lanes, m ≠ l → t.passes x m) ∧ (x.e + 1, event l) ∈ t.agenda) ∧
      -- R151: a record that finds its pigeonhole
      ∀ T u j, s.coreTeam x.core = some T → (s.core x.core).side.isSome = true → x.raw.threadAt x.slot l = some u →
        u.stopped = false → e l % 2 = 0 → e l < (env x.core).text → T.spawncount < 2 ^ 23 → takes x.core (e l) j →
        ∃ t, exec (.spawn f) s = .next t ∧ ∃ v, exec .spawnBlockRetry { t with now := x.e + 1, event := event l } = .next v ∧
          v.returns x l 1 (0x100 + 512 * T.spawncount) ∧
          record v x.core (e l) j ⟨args l, T.spawncount, xorStep (x.thread l).seed⟩ ∧
          ∀ y, v.threadAt x.core x.slot l = some y → y.pc = x.nextPc ∧ y.wait = .none) ∧
    (∀ core slot tag l e args seed T u a, s.coreTeam core = some T → (s.core core).side.isSome = true →
      s.threadAt core slot l = some u → u.wait = .answer → u.stopped = false → u.await = some a →
      let R := s.onEvent .spawnBlockRetry (.spawnInsert core slot tag [(l, e, args, seed)])
        let k := env core
        let has := fun (t : State) (st : Nat) => t.answers core slot l tag [BitVec.ofNat 32 st] ∧ s.goesOn t core slot l s.now
        if e % 2 = 1 then R fun t => s.trapsLate t core slot l 5 (BitVec.ofNat 64 e)
        else if k.text ≤ e then R fun t =>
          (∀ v, t.threadAt core slot l = some v → v.stopped = true) ∧
          (s.now + officeTime core, Event.terminalFaultArrival (s.core core).sideD.launch
            { cause := 0x10, flags := 0, addr := k.entry + BitVec.ofNat 64 e, pc := a.pc, core := BitVec.ofNat 16 core
              slot := BitVec.ofNat 8 slot, lane := BitVec.ofNat 8 l }) ∈ t.agenda
        else if T.spawncount = 2 ^ 23 then R fun t => has t 0x103 ∧ t.teams = s.teams
        else
          (∀ j, takes core e j → R fun t => has t (0x100 + 512 * (T.spawncount % 2 ^ 23)) ∧
            (∃ T', t.findTeam T.launch T.index = some T' ∧ T'.spawncount = T.spawncount + 1) ∧
            record t core e j ⟨args, T.spawncount, seed⟩ ∧
            let o := hole t core j
            (o.st = .due → (s.now, Event.pigeonholeLaunch core) ∈ t.agenda) ∧
            (o.st ≠ .due → (hole s core j).st = .free →
              (s.now + k.timer, Event.pigeonholeTimerExpiry core j o.stamp) ∈ t.agenda)) ∧
          ((∀ j, ¬takes core e j) → R fun t => t.teams = s.teams ∧ (∀ j, hole t core j = hole s core j) ∧
            (∀ w ∈ (t.core core).vres, ¬(w.slot = slot ∧ w.tag = tag ∧ w.lane = l)) ∧
            ∃ g ctx, (t.core core).groups.find slot = some g ∧ g.st = .blocked ∧ g.since = s.now ∧
              (∀ m v, g.threads.find m = some v → v.lv = Level.empty ctx) ∧
              g.threads.find l = some { u.unvacate a.dead with
                pc := a.pc, wait := .spawn, await := none, lv := Level.empty ctx })) ∧
    (∀ core k stamp, (s.core core).side.isSome = true →
      let R := s.onEvent .pigeonholeTimerExpiry (.pigeonholeTimerExpiry core k stamp)
      let h := hole s core k
      let runs := h.st = .filling ∧ h.stamp = stamp
      (runs → R fun t => hole t core k = { h with st := .due } ∧ (s.now, Event.pigeonholeLaunch core) ∈ t.agenda) ∧
      (¬runs → R fun t => t = s)) ∧
    (∀ core k, (s.core core).side.isSome = true → k < 16 → (hole s core k).st = .due → (∀ i < k, (hole s core i).st ≠ .due) →
      let R := s.onEvent .pigeonholeLaunch (.pigeonholeLaunch core)
        let e := env core
        let d := (s.core core).sideD
        let able := fun (u : Thread) => u.wait = .cond ∨ u.wait = .queue
        let pressable := (s.core core).groups.filter fun g =>
          g.2.st == .blocked && g.2.threads.any (fun p => decide (able p.2)) &&
            g.2.threads.all fun p => !p.2.blocks || decide (able p.2)
        let fits := fun (j : Nat) => j < 16 ∧ (hole s core j).st = .due ∧ room core (hole s core j).recs.length
        (d.returning = true → R fun t => t = s) ∧
        (d.returning = false → (fits k ∨ pressable = []) →
          (∀ j, fits j → (∀ i < j, ¬fits i) → ∀ z, lowest core z → R fun t =>
            (hole t core j).st = .free ∧ (s.now + 1, Event.pigeonholeLaunch core) ∈ t.agenda ∧
            ∃ g, (t.core core).groups.find z = some g ∧ g.width = e.width ∧ g.st = .ready ∧ g.earliest = s.now + 12 ∧
              (s.now, Event.activeSetEntry core (z % (64 / e.width))) ∈ t.agenda ∧
              (∀ r < e.argSize / 4, (g.g.get GReg.empty r).val =
                word (lineNat (s.officeRead (s.corePart core) (s.launch d.launch).datp e.args.toNat e.argSize) (4 * r) 4)) ∧
              (∀ r, e.argSize / 4 ≤ r → (g.g.get GReg.empty r).val = 0) ∧
              ∀ i, match (hole s core j).recs[i]? with
                | none => g.threads.find i = none
                | some c => ∃ u, g.threads.find i = some u ∧ u.index = c.index ∧ u.seed = c.seed ∧
                    u.pc = e.entry + BitVec.ofNat 64 (hole s core j).key ∧ u.p = 0 ∧
                    ∀ m, u.vread m = c.args.getD m 0 ∧ (c.args.length ≤ m → (u.v.get VReg.empty m).vac = true)) ∧
          ((∀ j, ¬fits j) → R fun t => t.cores = s.cores)) ∧
        (d.returning = false → ¬fits k → ∀ z g, pressable = [(z, g)] →
          let landed := (∀ l ∈ (s.core core).landings, l.slot = z → l.land ≤ s.now) ∧
            ∀ u ∈ (s.core core).reading, u.slot ≠ z
          (¬landed → R fun t => (s.now + 1, Event.pigeonholeLaunch core) ∈ t.agenda) ∧
          (landed → R fun t => (∀ c ∈ t.conds, ¬(c.core = core ∧ c.slot = z)) ∧
            (∀ w ∈ t.queueWaits, w.wait = true → ∀ m, w.who ≠ .lane core z m) ∧
            ∃ g', (t.core core).sideD.pressed = d.pressed ++ [g'] ∧ g'.st = .saved ∧ g'.width = g.width ∧
              ∀ m u a, g.threads.find m = some u → able u → u.await = some a →
                ∃ v, g'.threads.find m = some v ∧ v.pc = a.pc ∧ v.wait = .none))) ∧
    (∀ core slot, s.onEvent .spawnBlockRetry (.spawnBlockRetry core slot) fun t =>
      (∀ m u, s.threadAt core slot m = some u → t.threadAt core slot m = some
        (if u.wait = .spawn then match u.await with
          | some a => { u.unvacate a.dead with pc := a.pc, wait := .none, await := none }
          | none => { u with wait := .none }
         else u)) ∧
      ∀ g, (s.core core).groups.find slot = some g → g.st = .blocked →
        (∀ m u, g.threads.find m = some u → u.exited = false ∧ (u.wait = .none ∨ u.wait = .spawn)) →
        (s.now, Event.activeSetEntry core (slot % (64 / g.width))) ∈ t.agenda ∧
        ∃ g', (t.core core).groups.find slot = some g' ∧ (g.earliest ≤ s.now → (g'.rouse s.now).st = .ready)) ∧
    ∀ core g gs, (s.core core).side.isSome = true → (s.core core).sideD.pressed = g :: gs →
      let R := s.onEvent .pressureRestore (.pressureRestore core)
        let may := (s.core core).sideD.returning = false ∧ room core (count g)
        (¬may → R fun t => t = s) ∧
        (may → ∀ j, lowest core j → R fun t =>
          (t.core core).sideD.pressed = gs ∧ (s.now, Event.activeSetEntry core (j % (64 / g.width))) ∈ t.agenda ∧
          ∃ g', (t.core core).groups.find j = some g' ∧ g'.st = .ready ∧ g'.width = g.width ∧
            ∀ m u, g.threads.find m = some u → u.pendv = [] → g'.threads.find m = some u)

/-- R463 to R470, R475: SYSCALL makes one call for its active lanes; the reply ends their wait; the service takes a
call from a partition's queue in its quanta; a deputy takes over from a leader whose heartbeat has lapsed. The
length of a quantum and the tag of a call are the model's choices (logs 10 and 59). -/
def Obligations.Calls : Prop :=
  ∀ (s : State) (f : Fields), s.tablesOk = true →
    (let x := s.issueOf (.syscall f)
     let d := (s.core x.core).sideD
     let part := s.corePart x.core
     let w := (x.raw.group x.slot).width
     let tag := (s.part part).nextCall * 256 + BitVec.ofNat 32 part
     let a := fun (l : Nat) => BitVec.ofNat 64 (x.value l x.f.a 2 .int)
     let leased := fun (l : Nat) => ∀ p, (a l).toNat / 65536 ≤ p → p ≤ ((a l).toNat + 64 * w - 1) / 65536 →
       ∃ z ∈ (s.launch d.launch).leases, z.kind = .rw ∧ z.page ≤ p ∧ p < z.page + z.count
     let phase := fun (w : Staged) => ∃ m ∈ x.okLanes [], w.inPhase d.launch d.team (x.thread m).index = true
     let env := fun (l : Nat) => rule465 w.log2 (x.value l x.f.b 1 .int) ((x.okLanes []).map fun m => 2 ^ m).sum (a l).toNat
       x.pc.toNat d.launch x.core x.slot part tag.toNat
     let inserts := fun (l q : Nat) (t : State) =>
       let k := s.qdesc .merged q
       ∀ pa u, s.agentUse part (s.part part).datp (k.slotVa k.tail) Need.any true = some (pa, u) → q % 128 = 0 →
         s.memOk = true → u.clears pa → u.clears (q + 24) → u.moved t (q + 24) (k.tail + 1) pa (env l) (fun _ => False)
     (∃ t, exec (.syscall f) s = .next t ∧
      ∀ l, (x.okLanes []).head? = some l → x.lanes.Nodup →
        if (a l).toNat % 128 ≠ 0 then ∀ m ∈ x.okLanes [], s.raises t x m 5 (a l) x.pc
        else
          (¬leased l → ∀ m ∈ x.okLanes [], s.terminates t x m 0x10 (a l)) ∧
          (leased l → 0 < w → (∀ c ∈ (s.part part).calls, c.tag ≠ tag) →
            (∀ w ∈ t.staged, phase w → ∃ sc a, w.pub = some (sc, a) ∧ min 4 (s.launch d.launch).ceil ≤ sc) ∧
            ∃ (c : SysCall), (t.part part).calls = (s.part part).calls ++ [c] ∧ c.tag = tag ∧ c.argbase = a l ∧
              c.launch = d.launch ∧ c.team = d.team ∧ c.tagNo = x.tag ∧ c.dst = Opnd.vreg x.f.dst ∧
              c.lanes = (x.okLanes []).map (fun m => (m, (x.thread m).index)) ∧ c.env = env l ∧
              (∀ m ∈ x.okLanes [], ∀ v, t.threadAt x.core x.slot m = some v → v.wait = .call tag ∧ v.pc = x.pc) ∧
              (if ∀ p ∈ (x.raw.group x.slot).threads, p.2.exited = true ∨ p.1 ∈ x.okLanes [] then t.blocks x
               else ∀ m u, x.raw.threadAt x.slot m = some u → t.writes x x.e m (.clear x.tag)) ∧
              ((∀ w ∈ s.staged, ¬phase w) →
                match s.serviceQueue part with
                | none => c.denied = true ∧ (s.now, Event.sysdoneWrite tag) ∈ t.agenda ∧ s.sameBytes t
                | some q => if (s.qdesc .merged q).held = (s.qdesc .merged q).slots then s.sameBytes t else inserts l q t))) ∧
     -- R464, R466: a call that finds room; its reply
     ∀ l q u, x.alone l → (s.core x.core).side.isSome = true → x.raw.threadAt x.slot l = some u → (a l).toNat % 128 = 0 →
       leased l → 0 < w → (∀ p y, (p, y) ∈ s.parts → ∀ c ∈ y.calls, c.tag ≠ tag) → (∀ w ∈ s.staged, ¬phase w) →
       s.serviceQueue part = some q → (s.qdesc .merged q).held ≠ (s.qdesc .merged q).slots →
       ∃ t, exec (.syscall f) s = .next t ∧ inserts l q t ∧
         (∀ v, t.threadAt x.core x.slot l = some v → v.wait = .call tag) ∧
         ∃ t', exec .sysdoneWrite { t with event := .sysdoneWrite tag } = .next t' ∧
           ∀ v, t'.threadAt x.core x.slot l = some v → v.pc = x.nextPc ∧ v.wait = .none) ∧
    (∀ part, match s.serviceQueue part with
      | none => True
      | some q => (s.part part).svcq ≠ 0 ∧ (s.part part).svcq.toNat % 128 = 0 ∧
          s.agentPa part (s.part part).datp (s.part part).svcq.toNat Need.any = some q ∧
          let k := s.qdesc .merged q
          k.ok = true ∧ k.kind = 2 ∧ k.part = part) ∧
    (∀ tag,
      let R := s.onEvent .sysdoneWrite (.sysdoneWrite tag)
      ((∀ p y, (p, y) ∈ s.parts → ∀ c ∈ y.calls, c.tag ≠ tag) → R fun t => t = s) ∧
      ∀ part y c l i, (part, y) ∈ s.parts → y.calls.filter (fun c => c.tag == tag) = [c] → c.lanes = [(l, i)] →
        (∀ p z, (p, z) ∈ s.parts → p ≠ part → ∀ c ∈ z.calls, c.tag ≠ tag) → R fun t =>
        (∀ c' ∈ (t.part part).calls, c'.tag ≠ tag) ∧
        ∀ core slot u a, (s.core core).side.isSome = true → (s.core core).sideD.launch = c.launch →
          (s.core core).sideD.team = c.team → s.threadAt core slot l = some u → u.index = i →
          u.wait = .call tag → u.await = some a →
          t.threadAt core slot l = some { u with
            pc := a.npc, wait := .none, await := none, next := max u.next (s.now + 1)
            acqNext := some (max 4 (u.acqNext.getD 0)) } ∧
          (c.dst ≠ none → t.answers core slot l c.tagNo [if c.denied then 0x109
            else match s.agentPa part (s.launch c.launch).datp (c.argbase.toNat + 64 * l + 0x3C) Need.any with
              | some pa => BitVec.ofNat 32 (leNat (s.view (.part part) pa 4))
              | none => 0])) ∧
    (let R := s.onEvent .serviceQuantum .serviceQuantum
      let owner := fun (i : Nat) => (s.svcslot.get 0 (i % 48 / 8)).toNat / 2 ^ (8 * (i % 48 % 8)) % 256
      let calls := fun (p : Nat) => (s.part p).calls ≠ []
      let runs := (s.pairs.get Pair.reset s.leader.toNat).inReset = false
      (R fun t => t.svcQuantum = (s.svcQuantum + 1) % 48 ∧ (s.now + 2000, Event.serviceQuantum) ∈ t.agenda) ∧
      ((¬runs ∨ ∀ i < 48, ¬calls (owner (s.svcQuantum + i))) → R s.sameBytes) ∧
      (runs → s.memOk = true → ∀ i < 48, calls (owner (s.svcQuantum + i)) → (∀ j < i, ¬calls (owner (s.svcQuantum + j))) →
        let p := owner (s.svcQuantum + i)
        match s.serviceQueue p with
        | none => R s.sameBytes
        | some q =>
          let k := s.qdesc .merged q
          (k.held = 0 → R s.sameBytes) ∧
          (k.held ≠ 0 → R fun t =>
            (∀ pa, s.agentPa p (s.part p).datp (k.slotVa k.head) Need.any = some pa →
              leNat (s.view .merged (pa + 0x28) 4) ∈ t.svcRemoved) ∧
            (q % 128 = 0 → s.clears (q + 16) → (∀ c ∈ (s.part p).calls, c.waiting = false) →
              s.moved t (q + 16) (k.head + 1) 0 [] (fun _ => False))))) ∧
    let beats := fun (t : State) => ∀ h < 3, (t.hub h).hbeat = (s.hub h).hbeat + 1
    let runs := fun (die : Nat) => (s.pairs.get Pair.reset die).inReset = false
    let fenced := fun (t : State) (die : Nat) =>
      (∀ k, t.pairs.get Pair.reset k =
        if k = die then { s.pairs.get Pair.reset k with inReset := true, fenced := true } else s.pairs.get Pair.reset k) ∧
      t.replace = s.replace ||| BitVec.twoPow 128 die ∧ ∃ r ∈ t.errlog, r.code = 1 ∧ r.where_ = die
    (runs s.leader.toNat → s.onEvent .heartbeat .heartbeat fun t => beats t ∧ (s.now + 65536, Event.heartbeat) ∈ t.agenda) ∧
    (¬runs s.leader.toNat → s.onEvent .heartbeat .heartbeat fun t => t = s) ∧
    (∀ die,
      let R := s.onEvent .heartbeatCheck (.heartbeatCheck die)
      let p := s.pairs.get Pair.reset die
      let beat := (s.hub (hubOfDie die)).hbeat
      let n := if p.lastBeat = beat then p.unchanged + 1 else 0
      let rank := (die + 12 - s.leader.toNat % 12) % 12
      (¬runs die → R fun t => t = s) ∧
      (runs die → R fun t => t.pairs.get Pair.reset die = { p with lastBeat := beat, unchanged := n } ∧
        (s.now + 65536, Event.heartbeatCheck die) ∈ t.agenda ∧
        (die ≠ s.leader.toNat → 16 + rank ≤ n → (s.now, Event.leaderTakeover die) ∈ t.agenda))) ∧
    (∀ die, die < 2 ^ 64 →
      let R := s.onEvent .leaderTakeover (.leaderTakeover die)
      let rank := (die + 12 - s.leader.toNat % 12) % 12
      let holds := runs die ∧ die ≠ s.leader.toNat ∧ 16 + rank ≤ (s.pairs.get Pair.reset die).unchanged
      (¬holds → R fun t => t = s) ∧
      (holds → R fun t => t.leader.toNat = die ∧ fenced t s.leader.toNat ∧ beats t ∧
        (s.now + 65536, Event.heartbeat) ∈ t.agenda)) ∧
    ∀ die, s.onEvent .lockstepMismatch (.lockstepMismatch die) fun t => fenced t die ∧ t.leader = s.leader

/-- R124, R126 to R128, R140, R143, R444, R481, R482: the head of a launch queue has a slot of its completion queue
reserved by a write of the launch queue's own line or of its completion queue's, and at no other time; it is
examined, and fails with the status of the first thing that is wrong, waits, or asks for its leases; the grant makes
its frames resident within the quotas and admits the launch under a free lease record. What is written is read back
where no move of a page is under way. The order of two causes at offset 4, the moment at which the safe points and
CEIL are taken, what residence does, and a record without a slot are the model's choices (logs 35, 75, 77, 79, 80
and 86). -/
def Obligations.Admission : Prop :=
  ∀ (s : State) (part q : Nat), s.tablesOk = true → s.memOk = true → q % 128 = 0 →
    let p := s.part part
    let d := s.qdesc .merged q
    let bs := s.headBytes part d
    let e := Envelope.ofBytes bs
    let quiet := ∀ h, (s.hub h).forwards = []
    let pops := fun (t : State) => quiet → s.moved t (q + 16) (d.head + 1) 0 [] (fun _ => False)
    let mode := p.datp.toNat / 2 ^ 60 = 10
    let fails := fun (t : State) (st : Nat) => q ∉ (t.part part).heads ∧ (∀ g ∈ (t.part part).grants, g.queue ≠ q) ∧
      (quiet → ∃ u, s.moved u (q + 16) (d.head + 1) 0 [] (fun _ => False) ∧ (∀ h, (u.hub h).forwards = []) ∧
        u.completes t part q d.head st e.ctag.toNat 0 0 0)
    let fresh := fun (xs : List Xlat) (n : Tier) => ((xs.map fun z => z.pa / 65536).eraseDups.filter fun f =>
      !(s.place f).assigned && (frameTier f).map (·.1) == some n).length
    (match s.completionQueue part q with
    | none => True
    | some c => s.agentPa part p.datp d.cq Need.any = some c ∧ d.cq % 128 = 0 ∧
        let k := s.qdesc .merged c
        k.ok = true ∧ k.kind = 3 ∧ k.part = part) ∧
    (∀ a, p.queues.filter (fun z => z == a || s.completionQueue part z == some a) = [q] →
      (∀ c ∈ p.calls, c.waiting = false) → (∀ h x, (h, x) ∈ s.hubs → x.pendingSlot = []) →
        let R := s.onEvent .completionReservation (.completionReservation part a)
        let ready := d.ok = true ∧ d.kind = 1 ∧ d.part = part ∧ d.held ≠ 0 ∧ q ∉ p.heads
        let still := fun (t : State) => (t.part part).heads = p.heads
        (¬ready → R fun t => s.sameBytes t ∧ still t) ∧
        (ready → d.head ∈ p.ended.get [] q → R fun t => pops t ∧ q ∉ (t.part part).heads) ∧
        (ready → d.head ∉ p.ended.get [] q →
          match s.completionQueue part q with
          | none => R fun t => s.sameBytes t ∧ still t
          | some c =>
            let k := s.qdesc .merged c
            (¬k.held + p.reserved.get 0 c < 2 ^ k.log2n → R fun t => s.sameBytes t ∧ still t) ∧
            (k.held + p.reserved.get 0 c < 2 ^ k.log2n → R fun t => s.sameBytes t ∧
              (∀ z, z ∈ (t.part part).heads ↔ z ∈ p.heads ∨ z = q) ∧ (t.part part).reserved.get 0 c = p.reserved.get 0 c + 1 ∧
              (s.now, Event.launchAdmission part) ∈ t.agenda))) ∧
    (∀ a, p.queues.filter (fun z => z == a || s.completionQueue part z == some a) = [] →
      (∀ c ∈ p.calls, c.waiting = false) →
      s.onEvent .completionReservation (.completionReservation part a) fun t => s.sameBytes t ∧ (t.part part).heads = p.heads) ∧
    (p.heads = [q] → p.grants = [] →
      let R := s.onEvent .launchAdmission (.launchAdmission part)
      let named := fun (n z : Nat) => (z ∈ p.queues ∨ ∃ c ∈ s.mem, z = c.1 / 128 * 128) ∧
        let k := s.qdesc .merged z
        k.ok = true ∧ k.kind = 1 ∧ k.part = part ∧ k.qnum = n
      let num := fun (w : DWord) => w.toNat / 2 ^ 48 % 4096
      let valid := fun (w : DWord) => w.getLsbD 63 = true
      let depBad := fun (w : DWord) => w.toNat / 2 ^ 60 % 8 ≠ 0 ∨ (valid w ∧ ∀ z, ¬named (num w) z)
      let unmet := fun (w : DWord) => valid w ∧ ∃ z, named (num w) z ∧ (∀ y, named (num w) y → y = z) ∧
        (s.qdesc .merged z).cword < w.toNat % 2 ^ 48
      let met := fun (w : DWord) => valid w → ∃ z, named (num w) z ∧ (∀ y, named (num w) y → y = z) ∧
        w.toNat % 2 ^ 48 ≤ (s.qdesc .merged z).cword
      let bad := fun (o : Nat) => rule126 bs d.priomax o ∨ (o = 0x48 ∧ depBad e.dep0) ∨ (o = 0x50 ∧ depBad e.dep1)
      let past := ∃ k < 4, p.psceil.toNat / 2 ^ (6 * k) % 64 < e.pword.toNat / 2 ^ (6 * k) % 64
      let sib := e.flags.getLsbD 2 = true
      let key := sib ∧ e.sibKey ≠ 0 ∧ ∃ b ∈ s.ballots, b.part = part ∧ b.key = e.sibKey
      let list := if p.datp.toNat / 2 ^ 60 = 10 then s.checkList part p.datp e else none
      let room := s.ballots.length < 256 ∧ (s.ballots.filter fun b => b.part == part).length < 16
      (s.ready = 0 → R fun t => t = s) ∧
      (s.ready ≠ 0 →
        (∀ o, bad o → (∀ j < o, ¬bad j) → (4 < o → ¬past) → (0x40 < o → ¬key) → (0x58 < o → list = none) →
          R fun t => fails t (0x10A + 512 * o)) ∧
        (past → (∀ o ≤ 4, ¬bad o) → R fun t => fails t 0x909) ∧
        (key → ¬past → (∀ o < 0x40, ¬bad o) → R fun t => fails t 0x8109) ∧
        (∀ w, list = some w → ¬past → ¬key → (∀ o < 0x58, ¬bad o) → R fun t => fails t w.toNat) ∧
        (mode → e.leaseList.toNat % 16 ≠ 0 → list = some 0xB10A) ∧
        (¬past → ¬key → list = none → (∀ o, ¬bad o) →
          (unmet e.dep0 ∨ unmet e.dep1 ∨ (sib ∧ ¬room) → R fun t => t = s) ∧
          (met e.dep0 → met e.dep1 → (sib → room) → R fun t => s.sameBytes t ∧ (s.now + 1, Event.leaseGrant part q) ∈ t.agenda ∧
            ∃ g, (t.part part).grants = [g] ∧ g.queue = q ∧ g.asked = [])))) ∧
    (∀ xs u, s.reside part xs = some u → u.mem = s.mem ∧ (∀ f, u.place f =
        if (∃ z ∈ xs, z.pa / 65536 = f) ∧ (s.place f).assigned = false ∧ frameTier f ≠ none then
          { s.place f with assigned := true, key := BitVec.ofNat 6 part, ptepa := (u.place f).ptepa }
        else s.place f) ∧
      ∀ n, (u.part part).quota n = { p.quota n with used := (p.quota n).used + fresh xs n }) ∧
    (∀ xs, s.reside part xs = none ↔ ∃ n, 0 < fresh xs n ∧ (p.quota n).limit < (p.quota n).used + fresh xs n) ∧
    ∀ g, p.grants = [g] → g.queue = q → g.asked = [] →
      let ranges := e.implicit ++ s.leaseList part p.datp e
      (∀ r ∈ ranges, isWindow r.base = false) →
      let R := s.onEvent .leaseGrant (.leaseGrant part q)
        let absent := fun (r : LeaseRange) => r.pages.any fun k =>
          match s.xlate part p.datp (k * 65536) with | .error .invalid => true | _ => false
        let refused := fun (r : LeaseRange) => r.pages.any fun k =>
          match s.xlate part p.datp (k * 65536) with
          | .error .invalid => false
          | .error .refused => true
          | .ok z => !s.checkXlat part r.kind.need z
        let unit := s.homeUnit part
        let used := (s.hub unit).leasesUsed
        let still := fun (t : State) => s.sameBytes t ∧ t.launches = s.launches ∧ (t.part part).grants = [g]
        (¬mode → R fun t => fails t 0x109) ∧
        (mode → match ranges.find? absent with
          | some r => R fun t => fails t (0x104 + 512 * r.idx)
          | none => match ranges.find? refused with
            | some r => R fun t => fails t (0x109 + 512 * (r.idx + 32 * 0x11))
            | none => match s.reside part (s.rangeXlats part p.datp ranges) with
              | none => R fun t => fails t 0x103
              | some u =>
              ((∀ k < 1024, k ∈ used) → R fun t => still t ∧ t.places = u.places) ∧
              ∀ k < 1024, k ∉ used → (∀ j < k, j ∈ used) →
                (∀ p' y h, (p', y) ∈ s.parts → h ∈ y.grants → g.order ≤ h.order) →
                let id := 1024 * unit + k
                R fun t => pops t ∧ (quiet → t.places = u.places) ∧ k ∈ (t.hub unit).leasesUsed ∧ (t.part part).grants = [] ∧
                (s.now + 2048, Event.preemptStarvation id) ∈ t.agenda ∧
                (∀ c < 48, p.clmask.getLsbD c = true → (s.now, Event.clusterHandout c) ∈ t.agenda) ∧
                (e.flags.getLsbD 2 = false → t.ballots = s.ballots) ∧
                (e.flags.getLsbD 2 = true → ∃ b, t.ballots = s.ballots ++ [b] ∧ b.launch = id ∧ b.part = part ∧ b.n = e.sibN ∧
                  b.q = (if e.sibQ = 0 then e.sibN / 2 + 1 else e.sibQ) ∧ b.key = e.sibKey ∧ b.st = 0 ∧ b.posts = 0 ∧
                  b.past = 0 ∧ b.slots = [] ∧ ∀ i, b.sibs.find i = if i < e.sibN then some { Sib.zero with team := i } else none) ∧
                ∃ l, t.launches.find id = some l ∧ l.part = part ∧ l.env = e ∧ l.queue = q ∧ l.seq = d.head ∧
                  l.datp = p.datp ∧ l.fault = none ∧ l.completed = 0 ∧ l.cancelled = 0 ∧ l.cycles = 0 ∧ l.ceil = p.ceil.toNat ∧
                  l.leases = ranges.map (fun r => ⟨r.base / 65536,
                    if r.len = 0 then 0 else (r.base + r.len - 1) / 65536 + 1 - r.base / 65536, r.kind⟩) ∧
                  (∀ c < 48, p.clmask.getLsbD c = true → l.ranges.get (0, 0) c = rule140 p.clmask (e.gx * e.gy * e.gz) c) ∧
                  l.safepoints = ((List.range e.spcount).map fun i =>
                    let b := u.officeRead part p.datp (e.spaddr.toNat + 32 * i) 32
                    (lineNat b 0 4, b)) ∧
                  l.handler = match decode (u.officeRead part p.datp e.entry.toNat 8) with
                    | .ok (.bra w) _ => if w.pred = 7 ∧ w.neg = true then some (e.entry + w.imm.signExtend 64 * 2) else none
                    | _ => none)

/-- R132 to R136, R139 to R145, R294, R528: a cluster distributor hands the next index, or a saved team, of the
launch that comes first to a free core; distributors steal; a core divides its pool, starts a team and makes its
groups Ready; a launch that has waited asks for a pre-emption. When a starving launch is compared is the model's
reading (log 38). -/
def Obligations.Placing : Prop :=
  ∀ (s : State), s.tablesOk = true →
    let owner := fun (part cluster : Nat) => (s.part part).clmask.getLsbD cluster = true ∧
      ∀ p x, (p, x) ∈ s.parts → p ≠ part → x.clmask.getLsbD cluster = false
    let free := fun (c : Nat) => (s.core c).side = none ∧ (s.core c).fenced = false ∧ (s.core c).tracker = []
    let places := fun (t : State) (c id team : Nat) (e : Envelope) (part : Nat) (next : Event) =>
      ((t.core c).side.map fun d => (d.launch, d.team, d.side, d.placed)) = some (id, team, 0, s.now) ∧
      ((s.core c).owner = some part → (t.core c).sram = (s.core c).sram ∧ (t.core c).tags = (s.core c).tags) ∧
      ((s.core c).owner ≠ some part → (t.core c).sram = [] ∧ (t.core c).tags = []) ∧
      if (s.core c).pword = some e.pword then (s.now, next) ∈ t.agenda
      else (s.now, Event.poolRedivide c e.pword) ∈ t.agenda ∧ (s.now + 512, next) ∈ t.agenda
    (∀ cluster part c, owner part cluster → c / 8 = cluster → free c → (∀ d, d / 8 = cluster → free d → d = c) →
      (∀ id l, (id, l) ∈ s.launches → l.env.flags.getLsbD 0 = false) →
      let R := s.onEvent .clusterHandout (.clusterHandout cluster)
        let waiting := fun (id : Nat) (v : Saved) => v ∈ s.saved ∧ v.launch = id ∧
          ∀ T, s.findTeam id v.team = some T → T.cancel = false ∧ T.cores = []
        let range := fun (l : Launch) => l.ranges.get (0, 0) cluster
        let wants := fun (id : Nat) (l : Launch) => l.part = part ∧ l.fault = none ∧ ((∃ v, waiting id v) ∨
          ((range l).1 < (range l).2 ∧ s.slotsUsed part + 1 ≤ (s.part part).ctxn))
        let left := fun (l : Launch) (k : Nat) => (l.ranges.get (0, 0) k).2 - (l.ranges.get (0, 0) k).1
        let has := fun (k : Nat) => (s.part part).clmask.getLsbD k = true ∧ k < 48
        let near := fun (l : Launch) => ∃ k, has k ∧ k / 8 = cluster / 8 ∧ k ≠ cluster ∧ 2 ≤ left l k
        let far := fun (l : Launch) => (∀ k, has k → k / 8 = cluster / 8 → left l k = 0) ∧
          ∃ k, has k ∧ k / 8 ≠ cluster / 8 ∧ 2 ≤ left l k
        let steals := fun (id : Nat) (l : Launch) => l.part = part ∧ l.fault = none ∧ (∀ v, ¬waiting id v) ∧
          left l cluster = 0 ∧ s.slotsUsed part + 1 ≤ (s.part part).ctxn ∧ (near l ∨ far l)
        let comesFirst := fun (id : Nat) (l : Launch) => ∀ j m, (j, m) ∈ s.launches → (wants j m ∨ steals j m) → j ≠ id →
          m.env.prio < l.env.prio ∨ (m.env.prio = l.env.prio ∧ l.admitted < m.admitted)
        ((∀ id l, (id, l) ∈ s.launches → ¬wants id l) → R fun t => t.teams = s.teams ∧ t.cores = s.cores) ∧
        (∀ id l, (id, l) ∈ s.launches → steals id l → comesFirst id l → R fun t => t.teams = s.teams ∧ t.cores = s.cores ∧
          (near l → (s.now, Event.stealWithinDie cluster) ∈ t.agenda) ∧
          (¬near l → (s.now, Event.stealAcrossDies (cluster / 8) part) ∈ t.agenda)) ∧
        ∀ id l, (id, l) ∈ s.launches → wants id l → comesFirst id l →
          ((∀ v, ¬waiting id v) → R fun t =>
            (t.launch id).ranges.get (0, 0) cluster = ((range l).1 + 1, (range l).2) ∧
            places t c id (range l).1 l.env part (.teamStart c) ∧
            ∃ T, t.teams = s.teams ++ [T] ∧ T.launch = id ∧ T.index = (range l).1 ∧ T.cores = [c] ∧
              T.spawncount = l.env.tx * l.env.ty * l.env.tz ∧ T.doneSides = [] ∧ T.cancel = false ∧ T.stopping = false ∧
              (∀ b, T.barriers.get Barrier.zero b = Barrier.zero) ∧ ∀ k, T.convs.get Conv.zero k = Conv.zero) ∧
          ∀ v, waiting id v → (∀ w, waiting id w → w = v) → (s.findTeam id v.team).isSome = true → R fun t =>
            (∃ T, t.findTeam id v.team = some T ∧ T.cores = [c]) ∧
            ∀ d, v.sides = [d] → d.side.launch = id → d.side.team = v.team → d.side.side = 0 →
              places t c id v.team l.env part (.teamRestore id v.team c)) ∧
    (∀ cluster part id l c, owner part cluster → s.launches = [(id, l)] → l.part = part → l.fault = none →
      l.env.flags.getLsbD 0 = false → (∃ d, d / 8 = cluster ∧ free d) →
      let range := fun (l : Launch) (k : Nat) => l.ranges.get (0, 0) k
      let left := fun (k : Nat) => (range l k).2 - (range l k).1
      let giver := fun (k : Nat) => (s.part part).clmask.getLsbD k = true ∧ k < 48 ∧ k / 8 = cluster / 8 ∧ k ≠ cluster ∧ 2 ≤ left k
      left cluster = 0 → giver c → (∀ k < c, ¬giver k) →
      s.onEvent .stealWithinDie (.stealWithinDie cluster) fun t =>
        let n := (range l c).2 - left c / 2
        range (t.launch id) c = ((range l c).1, n) ∧ range (t.launch id) cluster = (n, (range l c).2) ∧
        (s.now, Event.clusterHandout cluster) ∈ t.agenda) ∧
    (∀ die part id l c, s.launches = [(id, l)] → l.part = part → l.fault = none →
      let range := fun (l : Launch) (k : Nat) => l.ranges.get (0, 0) k
      let left := fun (k : Nat) => (range l k).2 - (range l k).1
      let has := fun (k : Nat) => (s.part part).clmask.getLsbD k = true ∧ k < 48
      let giver := fun (k : Nat) => has k ∧ k / 8 ≠ die ∧ 2 ≤ left k
      (∀ k, has k → k / 8 = die → left k = 0) → giver c → (∀ k, giver k → left k < left c ∨ (left k = left c ∧ c ≤ k)) →
      s.onEvent .stealAcrossDies (.stealAcrossDies die part) fun t =>
        let n := (range l c).2 - left c / 2
        let mine := (List.range 48).filter fun k => (s.part part).clmask.getLsbD k && k / 8 == die
        range (t.launch id) c = ((range l c).1, n) ∧
        ∀ i k, mine[i]? = some k →
          range (t.launch id) k = (n + left c / 2 * i / mine.length, n + left c / 2 * (i + 1) / mine.length) ∧
          (s.now, Event.clusterHandout k) ∈ t.agenda) ∧
    (∀ core word, s.onEvent .poolRedivide (.poolRedivide core word) fun t =>
      (t.core core).pword = some word ∧ (t.core core).l1 = [] ∧ (∀ k, (t.core core).tags.get 0 k = 0) ∧
      (t.core core).sram = (s.core core).sram) ∧
    (∀ core d, (s.core core).side = some d → s.onEvent .teamStart (.teamStart core) fun t =>
      (t.core core).side = some { d with started := true, placed := s.now } ∧ (t.core core).groups = [] ∧
      (t.core core).sram = (s.core core).sram ∧ (s.now + 32, Event.groupsReady core) ∈ t.agenda ∧
      (∀ l, s.launches.find d.launch = some l → (t.launch d.launch).starve = s.now ∧
        (s.now + 2048, Event.preemptStarvation d.launch) ∈ t.agenda) ∧
      ∀ b, s.ballotOf d.launch = some b → (b.sibs.find d.team).isSome = true →
        ∃ b', t.ballotOf d.launch = some b' ∧ (b'.sib d.team).sstate = 1) ∧
    (∀ core d, (s.core core).side = some d →
      let R := s.onEvent .groupsReady (.groupsReady core)
      let l := s.launch d.launch
      let e := l.env
      let w := 2 ^ e.log2w
      let all := e.tx * e.ty * e.tz
      let paired := e.flags.getLsbD 0
      let n := if paired = false then all else if d.side = 0 then (all + 1) / 2 else all / 2
      let first := if d.side = 0 then 0 else (all + 1) / 2
      let enters := fun (t : State) => ∀ k < 64 / w, (s.now, Event.activeSetEntry core k) ∈ t.agenda
      (d.returning = false → R fun t =>
        (n = 0 → (s.now, Event.teamSideComplete core) ∈ t.agenda) ∧ (n ≠ 0 → enters t) ∧
        (∀ k l, w ≤ l ∨ n ≤ k * w + l → t.threadAt core k l = none) ∧
        (∀ k l, l < w → k * w + l < n → ∃ u, t.threadAt core k l = some u ∧ u.index = first + k * w + l ∧
          u.pc = e.entry ∧ u.p = 0 ∧ (∀ r, (u.v.get VReg.empty r).vac = true) ∧ (∃ ctx, u.lv = Level.empty ctx) ∧
          u.spawned = false ∧ u.handler = false ∧ u.wait = .none ∧
          let seed := (0x5EED#16 ^^^ BitVec.ofNat 16 d.team) ++ (0x0001#16 ^^^ BitVec.ofNat 16 u.index)
          u.seed = if seed = 0 then 0x5EED0001 else seed) ∧
        ∀ k g, (t.core core).groups.find k = some g → g.st = .ready ∧ g.width = w ∧
          ∀ r, (g.g.get GReg.empty r).val = if r < e.argSize / 4 then
            word (lineNat (s.officeRead l.part l.datp e.args.toNat e.argSize) (4 * r) 4) else 0) ∧
      (d.returning = true → R fun t => enters t ∧ (t.core core).side = some { d with returning := false } ∧
        (d.pressed ≠ [] → (s.now, Event.pressureRestore core) ∈ t.agenda) ∧
        ((∃ h ∈ d.holes, h.2.st = .due) → (s.now, Event.pigeonholeLaunch core) ∈ t.agenda) ∧
        ∀ k, ((t.core core).groups.find k).map (fun g => (g.st, g.threads)) =
          ((s.core core).groups.find k).map fun g => (if g.st = .saved then .ready else g.st, g.threads))) ∧
    ∀ id l, (id, l) ∈ s.launches →
      let R := s.onEvent .preemptStarvation (.preemptStarvation id)
      let waits := (∃ r ∈ l.ranges, r.2.1 < r.2.2) ∨ ∃ v ∈ s.saved, v.launch = id ∧
        ∀ T, s.findTeam id v.team = some T → T.cancel = false ∧ T.cores = []
      let asks := l.preempting = false ∧ l.starve + 2048 ≤ s.now ∧ waits ∧ l.fault = none
      let runs := fun (T : Team) => T ∈ s.teams ∧ T.cores ≠ [] ∧ T.preempt = none ∧ T.forLaunch = none
      let low := fun (j : Nat) (m : Launch) => (j, m) ∈ s.launches ∧ m.part = l.part ∧ m.env.prio < l.env.prio ∧ m.fault = none ∧
        ∃ T, runs T ∧ T.launch = j
      let at_ := fun (T : Team) => (s.core (T.cores.headD 0)).sideD.placed
      (¬asks ∨ (∀ j m, ¬low j m) → R fun t => t = s) ∧
      (asks → ∀ j m T, low j m → (∀ i k, low i k → i ≠ j → m.env.prio < k.env.prio ∨
          (m.env.prio = k.env.prio ∧ k.admitted < m.admitted)) →
        runs T → T.launch = j → s.findTeam j T.index = some T → (∀ U, runs U → U.launch = j → U ≠ T → at_ U < at_ T ∨ (at_ U = at_ T ∧ U.index < T.index)) → R fun t =>
        (t.launch id).preempting = true ∧ (t.findTeam j T.index).map (·.forLaunch) = some (some id) ∧
        (s.now + officeTime (T.cores.headD 0), Event.preemptionRequest j T.index) ∈ t.agenda)

/-- R127, R128, R387, R446, R449, R451 to R453, R480, R486 to R488, R491: a launch's end writes its record; the
first terminal fault ends a launch and stops its cores; a cancelled side's threads stop, and the team retires once
it is quiet; a reporting port posts ring records in its turn. What becomes of a record whose slot has no
translation, and when an order reaches the cores, are the model's choices (logs 22 and 75). -/
def Obligations.Retiring : Prop :=
  ∀ (s : State), s.tablesOk = true →
    let stops := fun (t : State) (core : Nat) (all : Bool) => ∀ k g m u, (s.core core).groups.find k = some g →
      g.threads.find m = some u → u.exited = false →
      (all = true ∨ (u.stopped = false ∧ (g.st = .ready ∨ g.st = .blocked ∨ u.blocks = true ∨ u.calls = true))) →
      ∃ v, t.threadAt core k m = some v ∧ v.stopped = true ∧ v.exited = false ∧
        v.pc = (match u.await with | some a => a.pc | none => u.pc)
    let ends := fun (t : State) (launch team core : Nat) (all : Bool) => stops t core all ∧
      (∃ T, t.findTeam launch team = some T ∧ T.cancel = true) ∧ (t.core core).engine = [] ∧ (t.core core).wc = [] ∧
      (∀ j, j ∈ (t.core core).jobs ↔ j ∈ (s.core core).jobs ∧ j.started ≠ none) ∧
      (t.core core).sideD.holes = [] ∧ (t.core core).sideD.pressed = [] ∧
      (∀ p x c, (p, x) ∈ t.parts → c ∈ x.calls → c.launch = launch → c.team = team → c.lanes = []) ∧
      (s.now, Event.siblingRetire launch team) ∈ t.agenda
    (∀ launch l, s.launches.find launch = some l → l.queue % 128 = 0 → s.memOk = true →
      let R := s.onEvent .launchCompletion (.launchCompletion launch)
        let past := (∀ T ∈ s.teams, T.launch ≠ launch) ∧ (∀ v ∈ s.saved, v.launch ≠ launch) ∧ ∀ r ∈ l.ranges, r.2.2 ≤ r.2.1
        let st := match l.fault with
          | none => 0x100
          | some f =>
            let c := f.cause.toNat
            (if c = 0x12 then 0x106 else if c = 0x13 then 0x105 else 0x109) + 512 * c
        (¬past → R fun t => t = s) ∧
        (past → R fun t =>
          ((∀ h, (s.hub h).forwards = []) → s.completes t l.part l.queue l.seq st l.env.ctag.toNat l.cycles l.completed (l.env.gx * l.env.gy * l.env.gz - l.completed)) ∧
          t.launches.find launch = none ∧ (∀ b, b ∈ t.ballots ↔ b ∈ s.ballots ∧ b.launch ≠ launch) ∧
          launch % 1024 ∉ (t.hub (launch / 1024)).leasesUsed ∧ (s.now + 1, Event.launchAdmission l.part) ∈ t.agenda)) ∧
    (∀ launch r,
      let R := s.onEvent .terminalFaultArrival (.terminalFaultArrival launch r)
      match s.launches.find launch with
      | none => R fun t => t = s
      | some l =>
        (l.fault.isSome = true → R fun t => t = s) ∧
        (l.fault = none → R fun t =>
          (t.launch launch).fault = some r ∧ (t.launch launch).ranges = [] ∧
          s.posted t 0 l.part 1 (ringRecord 2 r.cause r.flags.toNat launch r.addr r.pc r.core.toNat r.slot.toNat r.lane.toNat) ∧
          (∀ b, s.ballotOf launch = some b → ∃ b', t.ballotOf launch = some b' ∧ b'.st = if b.st = 0 then 3 else b.st) ∧
          ∀ T ∈ s.teams, T.launch = launch →
            if T.cores = [] then
              (∀ b, s.ballotOf launch = some b → (b.sib T.index).sstate ≠ 4 ∨ (b.sib T.index).tables = []) →
                t.findTeam launch T.index = none
            else ∀ c ∈ s.sidesOf T, (s.now + officeTime c, Event.launchStopArrival launch c) ∈ t.agenda)) ∧
    (∀ launch core,
      let R := s.onEvent .launchStopArrival (.launchStopArrival launch core)
      match (s.core core).side with
      | none => R fun t => t = s
      | some d =>
        (d.launch ≠ launch → R fun t => t = s) ∧
        (d.launch = launch → s.starting core = true → R fun t =>
          t.cores = s.cores ∧ (s.now + 1, Event.launchStopArrival launch core) ∈ t.agenda) ∧
        (d.launch = launch → s.starting core = false → (s.findTeam launch d.team).isSome = true →
          R fun t => ends t launch d.team core true)) ∧
    (∀ launch team core,
      let R := s.onEvent .cancelOrderArrival (.cancelOrderArrival launch team core)
      match s.findTeam launch team with
      | none => R fun t => t = s
      | some T =>
        (T.cores ≠ [] → core ∉ s.sidesOf T → R fun t => t = s) ∧
        (core ∈ s.sidesOf T → s.starting core = true ∨ T.stopping = true → R fun t =>
          t.cores = s.cores ∧ (s.now + 1, Event.cancelOrderArrival launch team core) ∈ t.agenda) ∧
        (core ∈ s.sidesOf T → s.starting core = false → T.stopping = false → R fun t => ends t launch team core false)) ∧
    (∀ launch team T core, s.findTeam launch team = some T → s.sidesOf T = [core] →
      let R := s.onEvent .siblingRetire (.siblingRetire launch team)
        let c := s.core core
        let stopped := ∀ k g m u, (k, g) ∈ c.groups → (m, u) ∈ g.threads →
          (u.stopped = true ∨ u.exited = true) ∧ (u.wait = .poll → u.next ≤ s.now)
        let d := c.sideD
        -- the cycles up to the stop, charged once
        let n := if d.stopAt = none then s.now - d.placed else 0
        ((T.cancel = false ∨ ¬stopped) → R fun t => t = s) ∧
        (T.cancel = true → stopped → s.sideQuiet core = false → R fun t => t.teams = s.teams ∧
          (t.launch launch).cycles = (s.launch launch).cycles + n ∧ (t.core core).sideD.stopAt ≠ none ∧
          (s.now + 1, Event.siblingRetire launch team) ∈ t.agenda) ∧
        (T.cancel = true → stopped → s.sideQuiet core = true →
          (∀ b, s.ballotOf launch = some b → (b.sib team).sstate ≠ 4 ∨ (b.sib team).tables = []) → R fun t =>
          t.findTeam launch team = none ∧ (t.core core).side = none ∧
          (t.launch launch).cancelled = (s.launch launch).cancelled + 1 ∧ (t.launch launch).cycles = (s.launch launch).cycles + n ∧
          (∀ w ∈ t.staged, w.launch = launch → w.team = team → ∃ sc a, w.pub = some (sc, a) ∧ 5 ≤ sc) ∧
          ∀ b y, s.ballotOf launch = some b → b.sibs.find team = some y → y.sstate = 4 →
            let p := s.part b.part
            let q := t.part b.part
            q.cxteams = p.cxteams + 1 ∧ q.cxcyc = p.cxcyc + BitVec.ofNat 64 (y.cyc + n) ∧
            q.cxbytes = p.cxbytes + BitVec.ofNat 64 y.bytes ∧ q.cxpool = p.cxpool + BitVec.ofNat 64 y.pools)) ∧
    ∀ hub,
      let R := s.onEvent .ringRecordPost (.ringRecordPost hub)
      let h := s.hub hub
      let ring := fun (r : Nat × Nat × List Byte) => if r.2.1 = 0 then (s.part r.1).ring0 else (s.part r.1).ring1
      let ok := fun (r : Nat × Nat × List Byte) => r ∈ h.records ∧
        (((ring r).posted.setWidth 16 : BitVec 16) - (ring r).head).toNat < 2 ^ (ring r).log2n
      let has := fun (p : Nat) => ∃ r, ok r ∧ r.1 = p
      let stays := has h.portPart ∧ h.portCount < (s.part h.portPart).rpwgt
      let serves := fun (p : Nat) => (stays → p = h.portPart) ∧ (¬stays → has p ∧
        ((h.portPart < p ∧ ∀ q, has q → h.portPart < q → p ≤ q) ∨
          ((∀ q, has q → q ≤ h.portPart) ∧ ∀ q, has q → p ≤ q)))
      ((∀ r, ¬ok r) → R fun t => t = s) ∧
      ∀ p, serves p → R fun t => ∃ r pre post, ok r ∧ r.1 = p ∧ (r.2.1 ≠ 1 → ∀ q, ok q → q.1 = p → q.2.1 ≠ 1) ∧
        h.records = pre ++ r :: post ∧ (t.hub hub).records = pre ++ post ∧
        (pre ++ post ≠ [] → ((s.now + 3) / 4 * 4 + 4, Event.ringRecordPost hub) ∈ t.agenda) ∧
        let g := ring r
        let g' := if r.2.1 = 0 then (t.part p).ring0 else (t.part p).ring1
        match s.guestPa p (g.base.toNat + 32 * (g.posted.toNat % 2 ^ g.log2n)) with
        | none => s.sameBytes t ∧ g' = { g with lost := if g.lost = 0xFFFF then g.lost else g.lost + 1 }
        | some (pa, u) => g' = { g with posted := g.posted + 1 } ∧
            (s.memOk = true → pa % 32 = 0 → r.2.2.length = 28 → u.clears pa →
              u.storesLine t pa (r.2.2 ++ leBytes 4 g.posted.toNat))

/-- R229, R389, R455 to R462, R528: a pre-emption request is deferred while a barrier is partly arrived, for 65,536
cycles at most; threads that stand still stop, and a team whose threads have all stopped is saved; a restore gives
every kept field back. Where OFFSET is counted from, which masks a save joins, and that its bytes stand as data are
the model's choices (logs 30, 31, 37 and 70). -/
def Obligations.Saving : Prop :=
  ∀ (s : State) (launch team : Nat) (T : Team), s.tablesOk = true → s.findTeam launch team = some T →
    let partly := ∃ b x, (b, x) ∈ T.barriers ∧ x.arr ≠ 0
    let proceeds := fun (t : State) (forced : Bool) => (s.now, Event.teamSave launch team) ∈ t.agenda ∧
      t.cores = s.cores ∧ ∃ U, t.findTeam launch team = some U ∧ U.stopping = true ∧ U.forced = forced
    (let R := s.onEvent .preemptionRequest (.preemptionRequest launch team)
     let still := T.cores = [] ∨ T.preempt.isSome = true ∨ T.cancel = true
     (still → R fun t => t = s) ∧
        (¬still → R fun t => ∃ U, t.findTeam launch team = some U ∧ U.preempt = some s.now) ∧
        (¬still → ¬partly → R fun t => proceeds t false) ∧
        (¬still → partly → R fun t => t.cores = s.cores ∧ (s.now + 1, Event.deferralEnd launch team) ∈ t.agenda ∧
          (s.now + 65536, Event.forcedSave launch team) ∈ t.agenda ∧
          ∃ U, t.findTeam launch team = some U ∧ U.stopping = T.stopping)) ∧
    (let R := s.onEvent .deferralEnd (.deferralEnd launch team)
     let still := T.preempt = none ∨ T.stopping = true ∨ T.cancel = true
     (still → R fun t => t = s) ∧ (¬still → ¬partly → R fun t => proceeds t false) ∧
        (¬still → partly → R fun t => t.teams = s.teams ∧ t.cores = s.cores ∧ (s.now + 1, Event.deferralEnd launch team) ∈ t.agenda)) ∧
    (let R := s.onEvent .forcedSave (.forcedSave launch team)
     match T.preempt with
      | none => R fun t => t = s
      | some at_ => let still := T.stopping = true ∨ T.cancel = true ∨ s.now < at_ + 65536
        (still → R fun t => t = s) ∧ (¬still → R fun t => proceeds t true)) ∧
    (∀ core, s.sidesOf T = [core] → T.stopping = true → T.cancel = false → s.starting core = false →
      let R := s.onEvent .teamSave (.teamSave launch team)
        let c := s.core core
        let d := c.sideD
        let l := s.launch launch
        let stopped := ∀ k g m u, (k, g) ∈ c.groups → (m, u) ∈ g.threads → u.stopped = true ∨ u.exited = true
        let stands := fun (g : Group) (u : Thread) => u.exited = false ∧ u.stopped = false ∧ u.savable = true ∧
          (T.forced = true ∨ g.st = .ready ∨ g.st = .blocked ∨ u.blocks = true ∨ u.calls = true)
        (∀ k m u, s.threadAt core k m = some u → u.wait = .answer → R fun t =>
          t.saved = s.saved ∧ (s.now + 1, Event.teamSave launch team) ∈ t.agenda ∧
          ∀ j g n w, c.groups.find j = some g → g.threads.find n = some w → stands g w → T.forced = false →
            ∃ v, t.threadAt core j n = some v ∧ v.stopped = true ∧ v.pc = (if w.wait = .cond ∨ w.wait = .queue ∨ w.wait = .spawn
              then (match w.await with | some a => a.pc | none => w.pc) else w.pc) ∧
              ∀ e, l.safePoint v.pc = some e → d.launch = launch →
                (∀ r < l.env.regs, (spVlive e).getLsbD r = false → v.vread r = 0) ∧ v.plive = spPlive e ∧
                ∃ h, (t.core core).groups.find j = some h ∧ spGlive e ||| h.glive = h.glive) ∧
        (stopped → s.savedUp core = true → c.landings = [] → c.vres = [] → l.fault = none →
          (∀ b, s.ballotOf launch = some b → (b.sib team).sstate ≠ 4) → R fun t =>
          (t.core core).side = none ∧ (t.launch launch).cycles = l.cycles + (d.stopAt.getD s.now - d.placed) ∧
          (∀ j m, T.forLaunch = some j → s.launches.find j = some m →
            (t.launch j).preempting = false ∧ (t.launch j).starve = s.now) ∧
          (∃ U, t.findTeam launch team = some U ∧ U.cores = [] ∧ U.preempt = none ∧ U.forLaunch = none ∧ U.barriers = T.barriers ∧
            U.convs = T.convs ∧ U.spawncount = T.spawncount) ∧
          (∀ w ∈ t.staged, w.launch = d.launch → w.team = d.team → w.side = d.side → w.hidden = true) ∧
          ∃ v k, t.saved = s.saved ++ [v] ∧ v.launch = launch ∧ v.team = team ∧ v.sides = [k] ∧
            k.sram = c.sram ∧ k.tags = c.tags ∧ k.jobs = c.jobs ∧
            (∀ j, (k.groups.find j).map (fun g => (g.st, g.width)) = (c.groups.find j).map fun g => (g.st, g.width)) ∧
            (∀ j g, c.groups.find j = some g → ∃ h, k.groups.find j = some h ∧
              (∀ r, h.g.get GReg.empty r = if g.glive.getLsbD r then g.g.get GReg.empty r else GReg.empty) ∧
              ∀ m, h.threads.find m = (g.threads.find m).map fun u => { u with p := u.p &&& u.plive, plive := BitVec.allOnes 7 }) ∧
            k.side.pressed = d.pressed ∧
            k.side.holes = d.holes.map fun h => (h.1, { h.2 with expires := h.2.expires - s.now }))) ∧
    ∀ core v k d, (s.core core).side = some d → s.saved.find? (fun v => v.launch == launch && v.team == team) = some v →
      v.sides.find? (fun k => k.side.side == d.side) = some k → k.side.launch = launch → k.side.team = team →
      s.onEvent .teamRestore (.teamRestore launch team core) fun t =>
        let c := t.core core
        c.sram = k.sram ∧ c.tags = k.tags ∧ c.jobs = k.jobs ∧ (s.now + 32, Event.groupsReady core) ∈ t.agenda ∧
        (∀ l, s.launches.find launch = some l → (t.launch launch).starve = s.now ∧
          (s.now + 2048, Event.preemptStarvation launch) ∈ t.agenda) ∧
        (∃ e, c.side = some e ∧ e.launch = launch ∧ e.team = team ∧ e.side = d.side ∧ e.returning = true ∧ e.pressed = k.side.pressed ∧
          e.holes = k.side.holes.map fun h => (h.1, { h.2 with expires := h.2.expires + s.now })) ∧
        (∀ j h, (j, h) ∈ k.side.holes → h.st = .filling →
          (s.now + h.expires, Event.pigeonholeTimerExpiry core j h.stamp) ∈ t.agenda) ∧
        (∀ j, (c.groups.find j).map (fun g => (g.st, g.width, g.g)) = (k.groups.find j).map fun g => (.saved, g.width, g.g)) ∧
        (∀ j g m u, k.groups.find j = some g → g.threads.find m = some u → u.pendv = [] → ∃ w,
          t.threadAt core j m = some w ∧ w.regs = u.regs ∧ w.pc = u.pc ∧ w.wait = u.wait ∧ w.await = u.await ∧
          w.stopped = false) ∧
        (∀ w ∈ t.staged, w.launch = launch → w.team = team → w.side = d.side → w.hidden = false) ∧
        ∀ x ∈ t.saved, x.launch = launch → x.team = team → ∀ e ∈ x.sides, e.side.side ≠ d.side

/-! ## Fetch and issue -/

/-- R147, R191 to R194, R196 to R198, R217 to R226, R231, R232: when a path is ready; which group and path a domain
issues for, and how the counters age; solo issues and loop buffers; the instruction cache; landings, the fill
buffer, and the way into the active set. That a stopped thread belongs to no path, and when a place of the active
set is free, are the model's readings (logs 28, 30 and 72). -/
def Obligations.Issuing : Prop :=
  ∀ (s : State) (core : Nat), s.tablesOk = true →
    let c := s.core core
    let path := fun (k pc : Nat) =>
      ((c.group k).threads.filter fun (_, u) => !u.exited && !u.stopped && u.pc.toNat == pc).map (·.1)
    let ready := fun (k pc : Nat) => path k pc ≠ [] ∧
      ∀ l ∈ path k pc, s.threadReady core k l (s.peek core (BitVec.ofNat 64 pc)) = true
    (∀ k pc ls, (s.readyPaths core k).find pc = some ls ↔ ready k pc ∧ ls = path k pc) ∧
    (∀ k l u insn, s.threadAt core k l = some u → s.threadReady core k l insn = true →
      u.exited = false ∧ u.stopped = false ∧ u.wait = .none ∧ u.next ≤ s.now ∧
      (∀ w ∈ c.fetching, w.2.slot = k → l ∉ w.2.lanes) ∧
      (∀ i, insn = some i → i.fields.pred ≠ 7 → ∀ w ∈ c.landings, w.slot = k → w.lane = l → ∀ mask val, w.op = .p mask val →
        mask.getLsbD i.fields.pred.toNat = false) ∧
      ∀ i, insn = some i → ∀ r ∈ readRegs i.shape i.fields, ∀ v ∈ c.vres, v.slot = k → v.lane = l → r < v.reg ∨ v.reg + v.n ≤ r) ∧
    (∀ dom,
      let R := s.onEvent .issueSelection (.issueSelection core dom)
      let active := fun (k : Nat) (g : Group) => c.groups.find k = some g ∧ g.st = .active ∧ domainOf g.width k = dom
      let may := fun (k : Nat) (g : Group) => active k g ∧ g.earliest ≤ s.now ∧ ∃ pc, ready k pc
      let beats := fun (j : Nat) (x : Group) (k : Nat) (y : Group) =>
        let first := x.entered < y.entered ∨ (x.entered = y.entered ∧ (x.since < y.since ∨ (x.since = y.since ∧ j < k)))
        if x.age.count = 256 then
          y.age.count = 256 → x.age.full < y.age.full ∨ (x.age.full = y.age.full ∧ first)
        else y.age.count ≠ 256 ∧ first
      let above := fun (g : Group) (k p q : Nat) =>
        let x := g.paths.get Age.zero p
        let y := g.paths.get Age.zero q
        let m := (path k p).length
        let n := (path k q).length
        if x.count = 256 then y.count = 256 → x.full < y.full ∨ (x.full = y.full ∧ p < q)
        else y.count ≠ 256 ∧ (n < m ∨ (m = n ∧ (y.count < x.count ∨ (x.count = y.count ∧ p < q))))
      ((∃ k g, active k g) → R fun t => (s.now + 1, Event.issueSelection core dom) ∈ t.agenda) ∧
      -- an issue whose line has come goes first; else there is a choice
      let filled := fun (w : Nat × Issue) => w ∈ c.fetching ∧ w.1 ≤ s.now ∧ ∃ g, active w.2.slot g
      (∀ w, filled w → (∀ v, filled v → v = w) →
        let here := w.2.lanes.filter fun l => ((c.group w.2.slot).threads.find l).any fun u =>
          !u.exited && !u.stopped && u.wait == .none && u.pc == w.2.pc
        (∀ l ∈ w.2.lanes, ((c.group w.2.slot).threads.find l).isSome = true) → R fun t =>
        (∀ j h, may j h → ((t.core core).group j).age = h.age.up s.now) ∧
        (here ≠ [] → t.turn = .thread ∧ t.cur = { w.2 with lanes := here }) ∧
        (here = [] → t.turn = s.turn ∧ t.cur = s.cur)) ∧
      ((∀ w, ¬filled w) → (∀ k g, ¬may k g) → R fun t => t.turn = s.turn ∧ t.cur = s.cur ∧ (t.core core).groups = c.groups) ∧
      ∀ k g, (∀ w, ¬filled w) → may k g → (∀ j h, may j h → j ≠ k → beats k g j h) →
        (R fun t => ∀ j h, may j h → ((t.core core).group j).age = if j = k then Age.zero else h.age.up s.now) ∧
        ∀ pc, ready k pc → (∀ q, ready k q → q ≠ pc → above g k pc q) → R fun t =>
          t.turn = .thread ∧
          t.cur = Issue.of core k (path k pc) (BitVec.ofNat 64 pc) false ∧
          ((t.core core).group k).paths.get Age.zero pc = Age.zero ∧
          ∀ q, q ≠ pc → path k q ≠ [] →
            (ready k q → ((t.core core).group k).paths.get Age.zero q = (g.paths.get Age.zero q).up s.now) ∧
            (¬ready k q → ((t.core core).group k).paths.get Age.zero q = g.paths.get Age.zero q)) ∧
    (∀ tag u, c.reading.find? (fun u => u.tag == tag) = some u → s.onEvent .issueSelection (.readPhase core tag) fun t =>
      t.turn = .thread ∧ t.cur = u ∧ (t.core core).reading = c.reading.erase u) ∧
    (∀ lane,
      let R := s.onEvent .soloIssue (.soloIssue core lane)
      let able := fun (k : Nat) (u : Thread) => ∃ g, c.groups.find k = some g ∧ g.st = .active ∧ g.threads.find lane = some u ∧
        (∃ a b x y, g.threads.find a = some x ∧ g.threads.find b = some y ∧ x.exited = false ∧ y.exited = false ∧ x.stopped = false ∧
          y.stopped = false ∧ x.pc ≠ y.pc) ∧
        ∃ i bs, c.loopDecode lane u.pc = some (i, bs) ∧ soloOk i = true ∧ (u.lastSolo = 0 ∨ u.lastSolo + 3 ≤ s.now) ∧
          s.threadReady core k lane (some i) = true
      (∀ k g u, c.groups.find k = some g → g.st = .active → g.threads.find lane = some u → 2 ≤ g.pathsOf.length →
        u.next ≤ s.now → u.exited = false → u.stopped = false → u.wait = .none → c.loopInsn lane u.pc = none → R fun t =>
        (lane, u.pc) ∈ (t.core core).loopReq ∧ (s.now, Event.loopBufferServe core) ∈ t.agenda) ∧
      ((∀ k u, ¬able k u) → R fun t => t.turn = s.turn ∧ t.cur = s.cur) ∧
      ∀ k u, able k u → (∀ j < k, ∀ w, ¬able j w) → R fun t =>
        t.turn = .thread ∧
        t.cur = Issue.of core k [lane] u.pc true ∧
        t.threadAt core k lane = some { u with lastSolo := s.now + 1 }) ∧
    (∀ lane pc, s.onEvent .loopBufferRefill (.loopBufferRefill core lane pc) fun t =>
      let old := c.loops.get [] lane
      ∃ run : List LoopEntry, run.length ≤ 8 ∧ (∀ bs, s.seenAt core pc = some bs → run.head? = some ⟨pc, bs⟩) ∧
        (∀ e, run.getLast? = some e → run.length < 8 → s.seenAt core (e.addr + BitVec.ofNat 64 e.bytes.length) = none) ∧
        (∀ (i : Nat) (e f : LoopEntry), run[i]? = some e → run[i + 1]? = some f →
          f.addr = e.addr + BitVec.ofNat 64 e.bytes.length) ∧
        (∀ e ∈ run, s.seenAt core e.addr = some e.bytes) ∧
        let new := old ++ run.filter fun e => decide (∀ o ∈ old, o.addr ≠ e.addr)
        (t.core core).loops.get [] lane = new.drop (new.length - 48) ∧
        ∀ m, m ≠ lane → (t.core core).loops.get [] m = c.loops.get [] m) ∧
    (∀ pc bs, s.fetchAt core pc = .ok bs → s.seenAt core pc = some bs) ∧
    (∀ lane pc, (lane, pc) ∈ c.loopReq → (∀ q ∈ c.loopReq, q ≠ (lane, pc) →
        (lane + 63 - c.loopLast) % 64 < (q.1 + 63 - c.loopLast) % 64) →
      s.onEvent .loopBufferRefill (.loopBufferServe core) fun t =>
        (t.core core).loopReq = c.loopReq.filter (· != (lane, pc)) ∧ (t.core core).loopLast = lane ∧
        ((∃ q ∈ c.loopReq, q ≠ (lane, pc)) → (s.now + 1, Event.loopBufferServe core) ∈ t.agenda) ∧
        ∀ bs, s.seenAt core pc = some bs → ∃ d, s.now + 8 ≤ d ∧ (d, Event.loopBufferRefill core lane pc) ∈ t.agenda) ∧
    (∀ line, (∀ f ∈ c.icache, f.used ≤ s.order) → s.onEvent .icacheFill (.icacheFill core line) fun t =>
      let set := c.icache.filter fun f => f.line != line && f.line % 128 == line % 128
      (∃ e ∈ (t.core core).icache, e.line = line ∧ e.key = s.keyOf (line * 128) ∧ e.bytes = s.fetchView core (line * 128) 128 ∧
        ∀ f ∈ (t.core core).icache, f.line = line → f = e) ∧
      ∀ f ∈ c.icache, f.line ≠ line →
        (f ∈ (t.core core).icache ↔ f.line % 128 ≠ line % 128 ∨ set.length < 4 ∨ ∃ h ∈ set, h.used < f.used)) ∧
    (∀ l u, c.landings = [l] → s.threadAt core l.slot l.lane = some u →
      let R := s.onEvent .resultLanding (.resultLanding core)
      (s.now < l.land → R fun t => t.core core = c) ∧
        (l.land ≤ s.now → R fun t => (t.core core).landings = [] ∧ ∃ w, t.threadAt core l.slot l.lane = some w ∧
          match l.op with
          | .v n mask val => ∀ r, w.v.get VReg.empty r =
              if r = n ∧ (u.v.get VReg.empty n).tag < l.tag then ⟨(u.vread n &&& ~~~mask) ||| (val &&& mask), false, l.tag⟩
              else u.v.get VReg.empty r
          | .c n ctx mask val none => (ctx ≠ u.lv.ctx → w.lv = u.lv) ∧ (ctx = u.lv.ctx → ∀ r, w.lv.slot r =
              if r = n ∧ (u.lv.slot n).tag < l.tag then ⟨val &&& mask, true, l.tag⟩ else u.lv.slot r)
          | .c n ctx mask val (some b) => (ctx ≠ u.lv.ctx → w.lv = u.lv) ∧ (ctx = u.lv.ctx → ∀ r, w.lv.slot r =
              if r = n ∧ (u.lv.slot n).tag < l.tag then
                ⟨((if b < 128 then u.vread b else (u.lv.slot (b - 128)).val) &&& ~~~mask) ||| (val &&& mask), true, l.tag⟩
              else u.lv.slot r)
          | .g n val => ∀ g, c.groups.find l.slot = some g → ∀ r, ((t.core core).group l.slot).g.get GReg.empty r =
              if r = n ∧ (g.g.get GReg.empty n).tag < l.tag then ⟨val, l.tag⟩ else g.g.get GReg.empty r
          | .p mask val => ∀ n < 7, w.p.getLsbD n =
              if mask.getLsbD n = true ∧ u.ptags.get 0 n < l.tag then val.getLsbD n else u.p.getLsbD n
          | .latch push ctx mask val none => (ctx ≠ u.lv.ctx → w.lv = u.lv) ∧ (ctx = u.lv.ctx →
              ∀ n < 3, w.lv.latch n = if (u.lv.latch n).pend = some push then
                { u.lv.latch n with val := val &&& mask, pend := none } else u.lv.latch n)
          | .latch _ ctx _ _ (some _) => ctx ≠ u.lv.ctx → w.lv = u.lv
          | .push ctx val pend => (ctx ≠ u.lv.ctx → w.lv = u.lv) ∧ (ctx = u.lv.ctx →
              w.lv.latch 0 = ⟨val, true, pend⟩ ∧ w.lv.latch 1 = u.lv.latch 0 ∧ w.lv.latch 2 = u.lv.latch 1)
          | .vacate regs => ∀ r, w.v.get VReg.empty r = if r ∈ regs then { u.v.get VReg.empty r with vac := true }
              else u.v.get VReg.empty r
          | .clear _ => (∀ n, (w.lv.slot n).valid = false) ∧ ∀ n < 3, (w.lv.latch n).valid = false
          | .group st => ∀ g, c.groups.find l.slot = some g → g.st = .active → st = .retired →
              ((t.core core).group l.slot).st = .retired)) ∧
    (∀ dom w, c.landings = [] → (∀ k g, c.groups.find k = some g → g.width = w) →
      let R := s.onEvent .activeSetEntry (.activeSetEntry core dom)
        -- a group that nothing holds any more is Ready from the cycle it was to wake in
        let woken := fun (g : Group) => if g.st = .blocked ∧ g.isHeld = false ∧ g.earliest ≤ s.now then
          { g with st := .ready, since := s.now } else g
        let groups : Tab Group := c.groups.map fun (k, g) => (k, woken g)
        let waits := fun (k : Nat) (g : Group) => g.st == .ready && domainOf g.width k == dom && decide (g.since ≤ s.now)
        let places := 4 * (w / 16) - (c.groups.filter fun (k, g) => g.st == .active && domainOf g.width k == dom).length
        let enters := fun (k : Nat) (g : Group) => waits k g = true ∧
          (groups.filter fun (j, h) => waits j h && (decide (h.since < g.since) || (h.since == g.since && decide (j < k)))).length <
            places
        w ≤ 256 → ∀ k g, groups.find k = some g →
          (enters k g → R fun t => (t.core core).groups.find k =
              some { g with st := .active, entered := s.now, earliest := max g.earliest (s.now + 1), age := Age.zero } ∧
            (s.now + 1, Event.issueSelection core dom) ∈ t.agenda) ∧
          (¬enters k g → R fun t => (t.core core).groups.find k = some g)) ∧
    ∀ v, c.vres = [v] →
      let R := s.onEvent .fillBufferWrite (.fillBufferWrite core)
      let due := ∃ d, v.due = some d ∧ d ≤ s.now
      (¬due → R fun t => (t.core core).vres = [v] ∧ (t.core core).groups = c.groups) ∧
      (due → c.fills = [] → ∀ u, s.threadAt core v.slot v.lane = some u →
        (∀ j < v.vals.length, (u.v.get VReg.empty (v.reg + j)).tag < v.tag) → R fun t =>
        (t.core core).vres = [] ∧ ∃ w, t.threadAt core v.slot v.lane = some w ∧
          (∀ (j : Nat) (x : Word), v.vals[j]? = some x → w.v.get VReg.empty (v.reg + j) = ⟨x, false, v.tag⟩) ∧
          ∀ r, (r < v.reg ∨ v.reg + v.vals.length ≤ r) → w.v.get VReg.empty r = u.v.get VReg.empty r) ∧
      (due → c.fills.length = 4 → (∀ f ∈ c.fills, f.slot = v.slot ∧ f.pair = v.lane / 2 ∧ f.banks ≠ [] ∧
          ∀ b ∈ f.banks, ∃ p ∈ c.ports, p.slot = f.slot ∧ p.pair = f.pair ∧ p.bank = b ∧ p.cycle = s.now) → R fun t =>
        (t.core core).vres = [v] ∧ (t.core core).fills = c.fills ∧ (s.now + 1, Event.fillBufferWrite core) ∈ t.agenda)

/-! ## The part around the work -/

/-- R379, R383, R391, R394, R395, R511 to R514, R521 to R523: what ends of itself; bring-up and the images it accepts; power
and temperature; accesses of hosts and harts. The self-test's outcome, PKGID's source, the layout of hart exceptions and
what an access meets outside memory are the model's choices (logs 2, 7 and 8). -/
def Obligations.Package : Prop :=
  ∀ (s : State), s.memOk = true →
    let image := fun (bs : List Byte) (type : Nat) =>
      let n := fun (o k : Nat) => leNat ((bs.drop o).take k)
      let key := (bs.drop 0x50).take 32
      n 0 4 = 0x4C4E4657 ∧ n 4 2 = type ∧ n 6 2 = 0 ∧ n 0x0C 4 % 64 = 0 ∧ n 0x0C 4 ≤ 2 ^ 26 ∧ 256 + n 0x0C 4 ≤ bs.length ∧
        n 0xB0 80 = 0 ∧
        (∃ i < 4, (s.fuses.get 0 16).getLsbD i = false ∧
          (sha512 key).take 32 = (List.range' (4 * i) 4).flatMap fun k => leBytes 8 (s.fuses.get 0 k).toNat) ∧
        edVerify key (bs.take 0x70) ((bs.drop 0x70).take 64) = true ∧
        sha512 ((bs.drop 256).take (n 0x0C 4)) = (bs.drop 0x10).take 64 ∧ (s.fuses.get 0 17).toNat ≤ n 8 4
    let page := fun (pa : Nat) => (pa - poolStart) / 65536
    (∀ core id, s.onEvent .publicationComplete (.publicationComplete core id) fun t => ∀ k l u, s.threadAt core k l = some u →
      t.threadAt core k l = some { u with pubs := u.pubs.filter (· != id) }) ∧
    (∀ core h, s.held.find? (fun g => g.id == h.id) = some h → h.win = none →
      s.onEvent .publicationComplete (.stagingRetry core h.id) fun t => s.replayed t (hubOfCore core) h) ∧
    (∀ core line filled, s.onEvent .l1LineExpiry (.l1LineExpiry core line filled) fun t => ∀ x,
      x ∈ (t.core core).l1 ↔ x ∈ (s.core core).l1 ∧ ¬(x.line = line ∧ x.filled = filled)) ∧
    (∀ core id, s.onEvent .wcDrainTimeout (.wcDrainTimeout core id) fun t =>
      (∀ e, e ∈ (t.core core).wc ↔ e ∈ (s.core core).wc ∧ e.id ≠ id) ∧
      ∀ e, (s.core core).wc.filter (fun e => e.id == id) = [e] →
        t.sends = s.sends ++ e.bytes.map fun (i, b) => (e.line * 128 + i, [b])) ∧
    (s.onEvent .packageReset .packageReset fun t =>
      let pass := fun (d : Nat) => Config.selfTest (s.freeCount + d) = true ∧ image (s.flash.get [] d) 1
      (∀ d < 12, (pass d → (t.pairs.get Pair.reset d).inReset = false) ∧
        (¬pass d → (t.pairs.get Pair.reset d).inReset = true ∧ (t.pairs.get Pair.reset d).fenced = true ∧ t.replace.getLsbD d = true)) ∧
      ((∀ d < 12, ¬pass d) → t.ready = 0 ∧ t.pkgid = 0) ∧
      (∀ d < 12, pass d → (∀ e < d, ¬pass e) → t.leader = BitVec.ofNat 64 d ∧
        (image (s.flash.get [] 12) 2 → t.ready = 1 ∧ t.pkgid = Config.portPkgid.setWidth 64 ∧
          (∀ p, (t.keys.find p).isSome = true ↔ p < 56 ∨ p = 63) ∧ (∀ p k, t.keys.find p = some k → k.length = 64) ∧ (65536, Event.heartbeat) ∈ t.agenda ∧ (2000, Event.serviceQuantum) ∈ t.agenda) ∧
        (¬image (s.flash.get [] 12) 2 → t.ready = 0 ∧ t.pkgid = 0)) ∧
      t.flash = s.flash ∧ t.fuses = s.fuses ∧ t.devid = Config.identityPublic ∧ t.mem = [] ∧ t.cores = [] ∧ t.launches = [] ∧
      t.teams = [] ∧ t.saved = [] ∧ t.parts = [] ∧ t.places = []) ∧
    (∀ nonce part addr, nonce.length = 32 → (tierOf addr).isSome = true → (∀ h, (s.hub h).forwards = []) →
      s.onEvent .attestationRequest (.attestationRequest nonce part addr) fun t =>
        let of := fun (d : Nat) => if (s.pairs.get Pair.reset d).fenced = true then List.replicate 64 0
          else s.images.get (List.replicate 64 0) d
        ∃ record, let r := nonce ++ leBytes 8 s.pkgid.toNat ++ [part] ++ List.replicate 7 0 ++ (List.range 12).flatMap of ++
            s.images.get (List.replicate 64 0) 12 ++ sha512 record ++ leBytes 8 s.cfgseq.toNat
          s.storesLine t addr (r ++ Config.identitySign r) ∧ t.attreq.get 0 6 = 1 ∧ t.cfgseq = s.cfgseq) ∧
    (∀ k mw,
      let R := s.onEvent .powerMeasurement (.powerMeasurement k mw)
      let p := s.power.get Power.reset k
      let w := p.window ++ [mw]
      let b := if k < 6 then 850000 else if k < 9 then 300000 else if k < 12 then 200000 else if k < 15 then 160000 else 33333
      (w.length < 16 → R fun t => t.power.get Power.reset k = { p with window := w } ∧ t.throt = s.throt ∧ t.outs = s.outs) ∧
      (16 ≤ w.length → R fun t =>
        let q := t.power.get Power.reset k
        q.window = [] ∧
        (16 * b < w.sum → 12 < p.clock → q.clock = p.clock - 1) ∧ (16 * b < w.sum → p.clock ≤ 12 → q.clock = p.clock) ∧
        (w.sum ≤ 16 * b → 100 * w.sum < 95 * (16 * b) → q.clock = min 21 (p.clock + 1)) ∧
        (w.sum ≤ 16 * b → 95 * (16 * b) ≤ 100 * w.sum → q.clock = p.clock) ∧
        (∀ d < 12, t.throt.getLsbD d = if d = k then decide (q.clock < 21) else s.throt.getLsbD d) ∧
        ((∃ n, t.outs = s.outs ++ [Out.notice n]) ↔ 16 * b < w.sum ∧ p.clock ≤ 12 ∧ 64 ≤ p.low + 16))) ∧
    (∀ die, s.onEvent .thermalTrip (.thermalTrip die) fun t =>
      t.replace.getLsbD 81 = true ∧ (∀ k < 81, t.replace.getLsbD k = s.replace.getLsbD k) ∧
      (t.power.get Power.reset die).tripped = true ∧ t.ready = 0 ∧ (∀ c, (t.core c).side = none) ∧ t.launches = [] ∧
      (Event.packageReset ∉ s.agenda.map (·.2) → Event.packageReset ∉ t.agenda.map (·.2))) ∧
    (∀ die bs, s.onEvent .firmwareUpdate (.firmwareUpdate die bs) fun t =>
      t = { s with flash := t.flash } ∧ ∀ d, t.flash.get [] d = if d = die then bs else s.flash.get [] d) ∧
    (∀ a bs n,
      let R := s.onEvent .hostMemoryAccess (.hostMemoryAccess true a bs n)
      ((s.ready = 0 ∨ tierOf a = none) → R fun t => t = s) ∧
      (s.ready ≠ 0 → (tierOf a).isSome = true → s.needsHandover a = false → s.dropsStore a bs = true → R fun t => t = s) ∧
      (s.ready ≠ 0 → (tierOf a).isSome = true → s.needsHandover a = false → s.dropsStore a bs = false →
        (∀ k < bs.length, s.clears (a + k)) → bs ≠ [] → R fun t => s.storesLine t a bs) ∧
      (s.ready ≠ 0 → s.needsHandover a = true → (tierOf a).isSome = true → R fun t => s.sameBytes t ∧
        (s.now + 512, Event.hostMemoryAccess true a bs n) ∈ t.agenda ∧ ∃ h ∈ t.handovers, h.1 = page a)) ∧
    (∀ a bs n,
      let R := s.onEvent .hostMemoryAccess (.hostMemoryAccess false a bs n)
      ((s.ready = 0 ∨ tierOf a = none) → R fun t => t = s) ∧
      (s.ready ≠ 0 → (tierOf a).isSome = true → s.needsHandover a = false → R fun t =>
        t = { s with outs := s.outs ++ [Out.host a ((List.range' a n).map (s.viewByte .merged))] })) ∧
    ∀ h < 300,
      let x := s.hart h
      let part := s.reqPart (.hart h)
      -- a service pair reads and writes by physical addresses, and is no thread of a partition
      let pair := 288 ≤ h
      let plain := fun (pa n : Nat) => regWindow pa = none ∧ s.mapAt pa = none ∧ (tierOf pa).isSome = true ∧
        s.needsHandover pa = false ∧ s.poisoned pa n = false
      let void := fun (pa : Nat) => regWindow pa = none ∧ tierOf pa = none
      let takes := fun (pa : Nat) (bs : List Byte) => s.dropsStore pa bs = false ∧ bs ≠ [] ∧ ∀ k < bs.length, s.clears (pa + k)
      let old := fun (pa n : Nat) => leNat ((List.range' pa n).map (s.viewByte (s.reqViewer (.hart h))))
      let gets := fun (t : State) (rd : BitVec 5) (v : DWord) =>
        t.hart h = { x with x := if rd = 0 then x.x else x.x.put rd.toNat v }
      let traps := fun (t : State) (causes : List Nat) (va : DWord) => s.sameBytes t ∧ ∃ c ∈ causes, s.hartTraps t h c va
      s.ready ≠ 0 →
      (∀ va n rd,
        let R := s.onEvent .hartMemoryAccess (.hartMemoryAccess h (.load va n rd))
        match s.hartWalk h va.toNat 1 with
        | none => R fun t => traps t (if pair then [5] else [13, 21]) va
        | some pa => (void pa → R fun t => traps t [5] va) ∧
          (plain pa n → R fun t => gets t rd (BitVec.ofNat 64 (old pa n)) ∧ s.sameBytes t) ∧
          (regWindow pa = none → (tierOf pa).isSome = true → s.needsHandover pa = false → s.poisoned pa n = true → R fun t => traps t [19] va) ∧
          ∀ hub off, regWindow pa = some (hub, off) → off % 8 + n ≤ 8 →
            R fun t => gets t rd (BitVec.ofNat 64 (s.regRead hub (off - off % 8) / 2 ^ (8 * (off % 8)) % 2 ^ (8 * n))) ∧ s.sameBytes t) ∧
      (∀ va n v,
        let R := s.onEvent .hartMemoryAccess (.hartMemoryAccess h (.store va n v))
        match s.hartWalk h va.toNat 2 with
        | none => R fun t => traps t (if pair then [7] else [15, 23]) va
        | some pa => (void pa → R fun t => traps t [7] va) ∧
          (plain pa n → takes pa (leBytes n v.toNat) → R fun t => s.storesLine t pa (leBytes n v.toNat) ∧ t.hart h = x) ∧
          (plain pa n → s.dropsStore pa (leBytes n v.toNat) = true → R fun t => t = s) ∧
          ∀ f, s.mapAt pa = some f → pa % 8 = 0 → (pa - s.mapbase.toNat) % 16 = 0 → n = 8 → (tierOf pa).isSome = true → regWindow pa = none →
            s.needsHandover pa = false → s.poisoned pa n = false →
            let p := s.place f
            let key := v.extractLsb' 42 6
            let leaves := p.assigned = true ∧ (v.getLsbD 32 = false ∨ key ≠ p.key)
            let quota := (s.part p.key.toNat).qpin
            (¬leaves → v.getLsbD 32 = p.assigned →
              (v.getLsbD 37 = true → p.assigned = true → p.pin = false → quota.used < quota.limit) → R fun t => t.place f = { p with
                key := key, ptier := v.extractLsb' 40 2, phub := v.extractLsb' 38 2, pin := v.getLsbD 37, smpl := v.getLsbD 36
                passed := false }) ∧
            (leaves → R fun t => (t.place f).assigned = false ∧ (t.place f).scrub = true ∧ (t.place f).pin = false ∧
              (s.now, Event.frameScrub f) ∈ t.agenda)) ∧
      (∀ pub acq, s.onEvent .hartMemoryAccess (.hartMemoryAccess h (.fence pub acq)) fun t =>
        s.sameBytes t ∧ t.hart h = x ∧ (t.part part).demoted =
          (s.part part).demoted + (if (s.part part).ceil < 4 ∧ ¬pair then BitVec.ofNat 64 (pub.toNat + acq.toNat) else 0)) ∧
      (∀ va ty o v rd aq rl,
        let R := s.onEvent .hartMemoryAccess (.hartMemoryAccess h (.amo va ty o v rd aq rl))
        let n := if ty = .i32 ∨ ty = .n32 then 4 else 8
        if va.toNat % n ≠ 0 then R fun t => traps t [6] va
        else match s.hartWalk h va.toNat 2 with
          | none => R fun t => traps t (if pair then [7] else [15, 23]) va
          | some pa => plain pa n → (∀ bs : List Byte, bs.length = n → takes pa bs) → R fun t =>
            gets t rd (if n = 4 then (BitVec.ofNat 32 (old pa n)).signExtend 64 else BitVec.ofNat 64 (old pa n)) ∧
            s.storesLine t pa (leBytes n
              (rule401 o (ty = .n32 ∨ ty = .n64) (BitVec.ofNat (8 * n) (old pa n)) (BitVec.ofNat (8 * n) v.toNat)).toNat)) ∧
      ∀ cause, s.onEvent .hartInterrupt (.hartInterrupt h cause) fun t =>
        t.hart h = { x with
          epc := x.pc, cause := BitVec.ofNat 64 (2 ^ 63 + cause), tval := 0, parked := false
          pc := if x.tvec &&& 3 = 1 then (x.tvec &&& ~~~3) + BitVec.ofNat 64 (4 * cause) else x.tvec &&& ~~~3 } ∧
        ∀ w, w ∈ t.queueWaits ↔ w ∈ s.queueWaits ∧ w.who ≠ .hart h

/-- R7, R514 to R519: what a write through a hub's window changes and what the window reads afterwards: the fields
of a partition's record and view, the global page, and Tiroskyo's page; key rotation. That a request for attestation
begins with the write of its partition, and that a record's status is OK for a write it ignores, are the model's
choices (logs 4 and 14). So are the times of a rotation, what it leaves in memory, and what a change of KEY or a pin
beyond its limit does (logs 9, 73 and 87). -/
def Obligations.Registers : Prop :=
  ∀ (s : State) (hub part : Nat) (v : DWord), hub < 3 → part < 48 →
    let n := v.toNat
    let al := fun (o : Nat) => 0x1000000 + 65536 * part + o
    let vw := fun (o : Nat) => 0x100000 + 65536 * part + o
    let tk := fun (o : Nat) => 0x10000 + o
    let wr := fun (off : Nat) (P : State → Prop) => s.onEvent .registerWrite (.registerWrite hub off v) P
    let all := fun (t : State) (off w : Nat) => ∀ h < 3, t.regRead h off = w
    let own := fun (t : State) (off w : Nat) => t.regRead hub off = w ∧ ∀ h < 3, h ≠ hub → t.regRead h off = s.regRead h off
    let took := fun (t : State) => t.cfgseq = s.cfgseq + 1 ∧ t.regRead hub (al 0xC008) = 0x100
    (∀ e ∈ [(0x40, 24), (0x48, 3), (0x160, 64), (0x168, 32), (0x170, 64), (0x200, 64), (0x210, 64), (0x240, 4)],
      wr (al e.1) fun t => all t (al e.1) (n % 2 ^ e.2) ∧ all t (vw e.1) (n % 2 ^ e.2) ∧ took t) ∧
    (∀ e ∈ [0xC010, 0xC018], wr (al e) fun t => all t (al e) n ∧ took t) ∧
    (∀ o ∈ [0x80, 0x88, 0x90, 0x98, 0xA0], wr (al o) fun t =>
      all t (al o) (s.regRead hub (al o) / 2 ^ 32 * 2 ^ 32 + n % 2 ^ 32) ∧ took t) ∧
    (∀ o ∈ [0x100, 0x110, 0x120], wr (al o) fun t =>
      own t (al o) n ∧ t.regRead hub (al (o + 8)) % 2 ^ 32 ≤ n / 2 ^ 32 ∧ took t) ∧
    (wr (al 0x140) fun t => all t (al 0x140) (n % 2 ^ 62) ∧ took t) ∧
    (∀ o ∈ [0x208, 0x218], wr (al o) fun t => took t ∧
      let w := t.regRead hub (al o)
      let old := s.regRead hub (al o)
      w % 2 ^ 16 = n % 16 ∧ w / 2 ^ 16 % 2 ^ 16 = old / 2 ^ 16 % 2 ^ 16 ∧ w / 2 ^ 32 % 2 ^ 16 = n / 2 ^ 32 % 2 ^ 16 ∧
        w / 2 ^ 48 = old / 2 ^ 48) ∧
    (∀ k < 1024, wr (al (0x1000 + 8 * k)) fun t => took t ∧ all t (al (0x1000 + 8 * k)) (v &&& 0x80000000000000FF).toNat ∧
      ∀ j < 1024, j ≠ k → t.regRead hub (al (0x1000 + 8 * j)) = s.regRead hub (al (0x1000 + 8 * j))) ∧
    (wr (al 0xC000) fun t =>
      let holds := ∃ k l, (k, l) ∈ s.launches ∧ l.part = part
      (holds → t.regRead hub (al 0xC000) = s.regRead hub (al 0xC000) ∧ t.regRead hub (al 0xC008) = 0x109 ∧ t.cfgseq = s.cfgseq) ∧
      (¬holds → all t (al 0xC000) (n % 2 ^ 48) ∧ took t)) ∧
    (∀ o < 65536, o % 8 = 0 → (o < 0x1000 ∨ 0x3000 ≤ o) →
      o ∉ [0, 0x10, 0x18, 0x40, 0x48, 0x80, 0x88, 0x90, 0x98, 0xA0, 0x100, 0x110, 0x120, 0x140, 0x160, 0x168, 0x170, 0x200, 0x208,
        0x210, 0x218, 0x240, 0xC000, 0xC010, 0xC018] →
      wr (al o) fun t => t.cfgseq = s.cfgseq ∧ ∀ j < 0xC008, t.regRead hub (al j) = s.regRead hub (al j)) ∧
    (∀ o < 65536, o % 8 = 0 → s.onEvent .partcfgWrite (.partcfgWrite part o v) fun t => t = s.regWrite 0 (al o) v) ∧
    (wr (vw 0) fun t => all t (vw 0) n ∧ (t.part part).datp = v) ∧
    (wr (vw 0x18) fun t => all t (vw 0x18) (n % 2 ^ 16)) ∧
    (∀ o ∈ [0x208, 0x218], wr (vw o) fun t =>
      let w := t.regRead hub (vw o)
      let old := s.regRead hub (vw o)
      w % 2 ^ 32 = old % 2 ^ 32 ∧ w / 2 ^ 32 % 2 ^ 16 = n / 2 ^ 32 % 2 ^ 16 ∧ w / 2 ^ 48 = old / 2 ^ 48) ∧
    (∀ o < 65536, o % 8 = 0 → o ∉ [0, 0x10, 0x18, 0x208, 0x218] → wr (vw o) fun t => t = s) ∧
    (v.getLsbD 16 = true → wr (vw 0x10) fun t => t = s) ∧
    (let p := s.part part
     ∀ e ∈ [(0x50, p.demoted), (0x58, p.earlypub), (0x8000, p.hintdrop), (0x8008, p.xdrop), (0x8010, p.fabshort),
        (0x8018, p.errcnt), (0x8020, p.throtcyc), (0x8040, p.cxcyc), (0x8048, p.cxbytes), (0x8050, p.cxpool), (0x8058, p.cxteams)],
       all s (vw e.1) e.2.toNat ∧ all s (al e.1) e.2.toNat) ∧
    (all s 0 s.pkgid.toNat ∧ all s 8 s.leader.toNat ∧ all s 0x20 s.cfgseq.toNat ∧ all s 0x30 s.throt.toNat ∧
      (∀ k < 4, all s (0x40 + 8 * k) (s.devid.toNat / 2 ^ (64 * k) % 2 ^ 64)) ∧
      ∀ k < 2, all s (0x80 + 8 * k) (s.replace.toNat / 2 ^ (64 * k) % 2 ^ 64)) ∧
    (wr 0x10 fun t => own t 0x10 n) ∧ (wr 0x18 fun t => all t 0x18 (n % 2)) ∧ (wr 0x28 fun t => all t 0x28 n) ∧
    (∀ o < 65536, o % 8 = 0 → o ∉ [0x10, 0x18, 0x28] → wr o fun t => t = s) ∧
    (∀ o < 65536, o % 8 = 0 → (o = 0x38 ∨ o ∈ [0x60, 0x68, 0x70, 0x78] ∨ 0x90 ≤ o) → s.regRead hub o = 0) ∧
    (∀ o, o / 65536 ∉ [0, 1] → (o / 65536 < 0x10 ∨ 0x40 ≤ o / 65536) → (o / 65536 < 0x100 ∨ 0x130 ≤ o / 65536) →
      s.regRead hub o = 0 ∧ wr o fun t => t = s) ∧
    (∀ k < 8, wr (tk (8 * k)) fun t => all t (tk (8 * k)) n) ∧ (wr (tk 0x40) fun t => all t (tk 0x40) (n % 2 ^ 16)) ∧
    s.regRead hub (tk 0x48) = 0 ∧ (∀ o ∈ [0x50, 0x58, 0x60, 0x68, 0x70, 0x78, 0xB0, 0xB8], wr (tk o) fun t => t = s) ∧
    (∀ k ∈ [0, 1, 2, 3, 5], wr (tk (0x80 + 8 * k)) fun t => all t (tk (0x80 + 8 * k)) n) ∧
    (wr (tk 0xA0) fun t => all t (tk 0xB0) 1) ∧
    (wr (tk 0x100) fun t => own t (tk 0x100) (n % 2 ^ 32) ∧ (s.now, Event.migrationStart hub) ∈ t.agenda) ∧
    (wr (tk 0x108) fun t => t = s.sysdone (v.setWidth 32)) ∧
    (wr (tk 0x110) fun t => all t (tk 0x110) n) ∧ (wr (tk 0x118) fun t => all t (tk 0x118) n) ∧
    (∀ k < 6, wr (tk (0x200 + 8 * k)) fun t => all t (tk (0x200 + 8 * k)) n) ∧
    (∀ k < 64, wr (tk (0x400 + 8 * k)) fun t => own t (tk (0x400 + 8 * k)) n) ∧
    let mine := fun (f : Nat) => (s.place f).assigned = true ∧ (s.place f).key.toNat = part ∧ (s.place f).migr = false
    (∀ spare, s.keys.sorted = true → s.places.sorted = true →
      let R := s.onEvent .keyRotation (.keyRotation part spare)
      let refused := (∃ k l, (k, l) ∈ s.launches ∧ l.part = part) ∨
        (∃ q ∈ (s.part part).queues, (s.qdesc .merged q).ok = true) ∨ spare < 56 ∨ 62 < spare ∨ ∃ r ∈ s.rotations, r.2.1 = spare
      (refused → R fun t => all t (tk 0x50) 0x109 ∧ t.keys = s.keys) ∧
      (¬refused → R fun t => s.sameBytes t ∧
        t.keys.find part = some ((List.range 8).flatMap fun i => leBytes 8 (s.regRead hub (tk (8 * i)))) ∧
        (∀ j, j ≠ part → j ≠ spare → t.keys.find j = s.keys.find j) ∧
        ((∀ f, ¬mine f) → all t (tk 0x50) 0x100 ∧ t.keys.find spare = none) ∧
        ∀ f, mine f → (∀ g, mine g → f ≤ g) → all t (tk 0x50) 0 ∧
          (∀ k, s.keys.find part = some k → k.length = 64 → t.keys.find spare = some k) ∧
          (t.place f).scrub = true ∧ (s.now + keyFrameTime, Event.keyFrame spare) ∈ t.agenda)) ∧
    ∀ spare f fs, s.rotations.find? (fun r => r.2.1 == spare) = some (part, spare, f :: fs) → f ∉ fs →
      s.onEvent .keyRotation (.keyFrame spare) fun t => s.sameBytes t ∧ (mine f → (t.place f).scrub = false) ∧
        ((∀ g ∈ fs, ¬mine g) → all t (tk 0x50) 0x100 ∧ t.keys.find spare = none) ∧
        ∀ g gs, fs.filter (fun g => decide (mine g)) = g :: gs → all t (tk 0x50) (s.regRead hub (tk 0x50)) ∧ t.keys = s.keys ∧
          (t.place g).scrub = true ∧ (s.now + keyFrameTime, Event.keyFrame spare) ∈ t.agenda

/-! ## Reset, the step, and the encoding -/

/-- R139, R169, R172, R369, R464, R511, R518, R519: the state right after reset; memory that nothing has written reads as 0
(log 1), and the tables stand in their form. -/
def Obligations.ResetState : Prop :=
  let s := State.reset
  s.agenda = [(0, .packageReset)] ∧ s.turn = .idle ∧ s.ready = 0 ∧ s.pkgid = 0 ∧ s.replace = 0 ∧
  (∀ c, (s.core c).side = none ∧ (s.core c).pword = none) ∧
  (∀ p hub, let r := fun (o : Nat) => s.viewReg hub p o
    r 0x48 = 4 ∧ r 0x50 = 0 ∧ r 0x58 = 0 ∧ r 0x170 = 0 ∧ r 0x8000 = 0 ∧ r 0x8008 = 0 ∧ r 0x8010 = 0 ∧ r 0x8018 = 0 ∧ r 0x8020 = 0) ∧
  (∀ h, (s.hub h).migpol = 0xFFFFFFFF) ∧ (∀ f, (s.place f).low = 0 ∧ (s.place f).high = 0) ∧
  (∀ v a, s.viewByte v a = 0) ∧ s.memOk = true ∧ s.sramOk = true ∧ s.tablesOk = true

/-- Every step keeps memory, the cores' granules and their tags, and those of saved teams, in canonical form: addresses rise
and no entry is what an unlisted one reads as (log 1). -/
def Obligations.CanonicalStays : Prop :=
  ∀ (s t : State), s.memOk = true → s.sramOk = true → step s = .next t → t.memOk = true ∧ t.sramOk = true

/-- Every step keeps the tables that are read by key in order: partitions, placement entries, launches, cores, groups,
threads, ballot records' siblings, and the same of saved teams. -/
def Obligations.TablesStaySorted : Prop :=
  ∀ (s t : State), s.tablesOk = true → step s = .next t → t.tablesOk = true

/-- R49, R81, R122, R196, R202, R455: a step. An issue runs the instruction that the bytes at its PC decode to; or
it fetches, faults, traps or stops. A hart runs a word of the custom-0 space. Else the next pending event comes due.
Only a hart's other words and agents that do not exist stop a step. The order of events of one cycle and the one
count of all agents are the model's choices (logs 3 and 88). -/
def Obligations.StepRuns : Prop :=
  ∀ (s : State),
    let u := s.cur
    let s0 := { s with turn := .idle }
    let c := s.core u.core
    let l := s.coreLaunch u.core
    (∀ i x, ∃ t, exec i x = .next t) ∧
    (s.turn = .thread → 384 ≤ u.core → step s = .fault .noSuchAgent) ∧
    -- a cycle of the read phase: each bank that is idle in every lane pair delivers the first register still to be read
    (∀ i, let c' := c.settle s.now
      let idle := fun (b : Nat) => ∀ k ∈ u.lanes, c'.portBusy u.slot (k / 2) b (s.now + 1) = false
      let now := fun (r : Nat) => u.left.find? (fun q => q % 4 == r % 4) = some r ∧ idle (r % 4)
      ((∀ r ∈ u.left, now r) → ∃ t, s.readOn i = (t, some i) ∧ t.cur = { u with insn := none, left := [] } ∧
        (t.core u.core).groups = c'.groups ∧ (t.core u.core).landings = c'.landings ∧ t.mem = s.mem ∧ t.agenda = s.agenda) ∧
      ((∃ r ∈ u.left, ¬now r) → ∃ t v, s.readOn i = (t, none) ∧ v ∈ (t.core u.core).reading ∧ v.tag = u.tag ∧ v.insn = some i ∧
        (∀ r, r ∈ v.left ↔ r ∈ u.left ∧ ¬now r) ∧ (s.now + 1, Event.readPhase u.core u.tag) ∈ t.agenda ∧
        (u.lanes.Nodup → ∀ k ∈ u.lanes, ∀ x, c'.threadAt u.slot k = some x → t.threadAt u.core u.slot k =
          some { x with pc := u.pc + BitVec.ofNat 64 u.len, next := max x.next (s.now + 2) }) ∧
        ∀ k ∈ u.lanes, ∀ r, now r → ∃ w ∈ v.early, w.lane = k ∧ w.reg = r ∧
          w.val = if r ∈ u.vac then 0 else (c'.thread u.slot k).vread r)) ∧
    (s.turn = .thread → u.core < 384 → ∀ i, u.insn = some i →
      step s = match s0.readOn i with | (t, some j) => exec j t | (t, none) => .next t) ∧
    (s.turn = .thread → u.core < 384 → u.insn = none →
      (∀ bs i len, s0.issueBytes = .ok bs → decode bs = .ok i len → topReg i.shape i.fields ≤ l.env.regs →
        (s0.stopPending u.core = false ∨ s0.isStop u.core u.pc i = false) →
        let z := { s0 with order := s.order + 1 }.modGroup u.core u.slot Group.prune
        let t := { z with cur := { u with
          len := len, vac := (match l.safePoint u.pc with | some e => deadAt l.env.regs e | none => [])
          t := s.now, tag := s.order + 1, left := readRegs i.shape i.fields, early := [] } }
        (step s = match (t.payAcquires i).readOn i with | (t, some j) => exec j t | (t, none) => .next t) ∧
        ((∀ k ∈ u.lanes, (s.thread u.core u.slot k).acqNext = none ∧ (s.thread u.core u.slot k).acqs = []) →
          t.payAcquires i = t)) ∧
      (∀ bs i len, s0.issueBytes = .ok bs → decode bs = .ok i len → topReg i.shape i.fields ≤ l.env.regs →
        s0.stopPending u.core = true → s0.isStop u.core u.pc i = true →
        ∃ t, step s = .next t ∧ ∀ k ∈ u.lanes, ∀ x, s.threadAt u.core u.slot k = some x →
          ∃ y, t.threadAt u.core u.slot k = some y ∧ y.stopped = true ∧ y.pc = x.pc) ∧
      (∀ bs cause, s0.issueBytes = .ok bs →
        ((cause = 1 ∧ (decode bs = .illegalInsn ∨ decode bs = .truncated)) ∨
          (cause = 2 ∧ (decode bs = .illegalOpnd ∨ ∃ i len, decode bs = .ok i len ∧ l.env.regs < topReg i.shape i.fields))) →
        u.lanes.Nodup → ∃ t, step s = .next t ∧ ∀ k ∈ u.lanes, ∀ x, s.threadAt u.core u.slot k = some x →
          let stall := if bs.length = 2 then 0 else (bs.headD 0).toNat / 4 % 8
          (∀ p, l.handler = some p → x.handler = false → ∃ ctx, t.threadAt u.core u.slot k = some
            { x with trapcause := BitVec.ofNat 32 cause, trapaddr := u.pc, trappc := u.pc, shadow := x.lv, lv := Level.empty ctx
                     handler := true, pc := p, next := s.now + 1 + stall + 8, wait := .none }) ∧
          (l.handler = none ∨ x.handler = true →
            t.threadAt u.core u.slot k = some { x with stopped := true } ∧
            (s.now + officeTime u.core, Event.terminalFaultArrival c.sideD.launch
              { cause := BitVec.ofNat 8 cause, flags := 1, addr := u.pc, pc := u.pc, core := BitVec.ofNat 16 u.core
                slot := BitVec.ofNat 8 u.slot, lane := BitVec.ofNat 8 k }) ∈ t.agenda)) ∧
      (∀ cause a k, s0.issueBytes = .fault cause a → u.lanes = [k] → ∃ t, step s = .next t ∧
        (∀ x, s.threadAt u.core u.slot k = some x → t.threadAt u.core u.slot k = some { x with stopped := true }) ∧
        (s.now + officeTime u.core, Event.terminalFaultArrival c.sideD.launch
          { cause := BitVec.ofNat 8 cause, flags := 0, addr := a, pc := u.pc, core := BitVec.ofNat 16 u.core
            slot := BitVec.ofNat 8 u.slot, lane := BitVec.ofNat 8 k }) ∈ t.agenda) ∧
      (∀ pa, s0.issueBytes = .miss pa → ∃ t due, step s = .next t ∧ s.now ≤ due ∧
        (due, Event.icacheFill u.core (pa / 128)) ∈ t.agenda ∧ (due, u) ∈ (t.core u.core).fetching ∧
        ∀ k, t.threadAt u.core u.slot k = s.threadAt u.core u.slot k)) ∧
    (∀ pa v f, s.resolve c.sideD.launch u.pc.toNat Need.fetch = .ok (.mem pa, v) →
      let q := s.routeRead pa
      c.icache.find? (fun f => f.line == q / 128 && f.key == s.keyOf q) = some f →
      let bs := f.bytes.drop (q % 128)
      insnLength (bs.headD 0) ≤ bs.length → s.fetchAt u.core u.pc = .ok (bs.take (insnLength (bs.headD 0)))) ∧
    (∀ h, s.turn = .hart h →
      let x := s.hart h
      let past := fun (y : Hart) => ∃ t, step s = .next t ∧ t.turn = .idle ∧ t.hart h = y
      let traps := fun (k : Nat) (tval : DWord) => past { x with
        epc := x.pc, cause := BitVec.ofNat 64 k, tval := tval, pc := x.tvec &&& ~~~3, parked := false }
      (300 ≤ h → step s = .fault .noSuchAgent) ∧
      (h < 300 → x.parked = true → past x) ∧
      (h < 300 → x.parked = false → ∀ pa, s.hartWalk h x.pc.toNat 3 = some pa → (tierOf pa).isSome = true →
        let w := leNat ((List.range' pa 4).map (s.viewByte (s.reqViewer (.hart h))))
        (∀ i, decodeHart w = some i → step s = exec i s) ∧
        (decodeHart w = none → w % 128 = 0x0B → traps 2 (BitVec.ofNat 64 w)) ∧
        (w % 128 ≠ 0x0B → step s = .refused .hartInstruction)) ∧
      (h < 300 → x.parked = false → (s.hartWalk h x.pc.toNat 3).filter (fun pa => (tierOf pa).isSome) = none →
        traps 12 x.pc ∨ traps 20 x.pc ∨ traps 1 x.pc)) ∧
    (s.turn = .idle → (s.agenda = [] → ∃ t, step s = .next t ∧ t.now = s.now + 1) ∧
      ∀ due e rest, s.agenda = (due, e) :: rest →
        (∀ i, e.row = some i → ∃ t, step s = exec i t ∧ t.event = e ∧ t.agenda = rest ∧ t.now = max s.now due ∧
          (s.throt = 0 → t = { s with now := max s.now due, event := e, agenda := rest })) ∧
        (e.row = none → ∃ t, step s = .next t ∧ t.agenda = rest))

/-- R48 to R78, R80, R122: words written out from the encoding tables decode to their instructions, and every
pattern to an instruction or one of two causes. Where the tables leave a form open, the reading is that of logs 16
to 18 and 89. -/
def Obligations.DecodeWords : Prop :=
  let d := fun (bs : List Nat) => decode (bs.map (BitVec.ofNat 8))
  d [0x03, 0x82, 0x3B, 0x00, 0x08, 0x82, 0x8B, 0x30] = .ok (.iadd ⟨0, 7, false, none, .v 7 false, .v 8 false, .c 2, .zero, 6⟩) 8 ∧
  d [0x43, 0x86, 0x0B, 0x00, 0x02, 0x03, 0x88, 0x08] = .ok (.ffma ⟨0, 7, false, none, .v 1 false, .v 2 false, .v 3 false, .l 0, 1⟩) 8 ∧
  d [0x07, 0x06, 0x0D, 0x58, 0x02, 0x03, 0x8B, 0x09] =
    .ok (.fadd ⟨1, 2, true, some 3, .v 1 false, .v 2 true, .v 3 false, .zero, 1⟩) 8 ∧
  d [0x03, 0x8C, 0x33, 0x00, 0x94, 0x07, 0xE0, 0x98] =
    .ok (.atom .add .i32 ⟨0, 7, false, none, .v 6 false, .g 4, .v 7 false, .zero, 0x13⟩) 8 ∧
  d [0x23, 0x8F, 0xA3, 0x00, 0x98, 0x9C, 0xA0, 0x18] = .ok (.mma ⟨0, 7, false, none, .v 20 false, .g 8, .g 12, .g 16, 3⟩) 8 ∧
  d [0x09, 0x42, 0x28, 0x88] = .ok (.iaddW32 ⟨2, .v 4 false, .v 5 false, .c 2⟩) 4 ∧
  d [0x82, 0x28] = .ok (.iaddW16 ⟨.v 4 false, .v 5 false⟩) 2 ∧
  decodeHart 0x90C5850B = some (.lnlEnq 4 true 12 11 10) ∧
  ∀ b bs, insnLength b ≤ (b :: bs).length → decode (b :: bs) ≠ .truncated ∧
    insnLength b = (if b.getLsbD 0 = false then 2 else if b.getLsbD 1 = false then 4 else 8)

/-- R48: the length of an instruction, which fixes where the next one starts; instructions lie on 16-bit boundaries. -/
def Obligations.InstructionLengths : Prop :=
  ∀ (b : Byte) (bs : List Byte),
    let len := if b.getLsbD 0 = false then 2 else if b.getLsbD 1 = false then 4 else 8
    (bs.length + 1 < len ↔ decode (b :: bs) = .truncated) ∧
    (∀ i n, decode (b :: bs) = .ok i n → n = len ∧ n % 2 = 0) ∧
    ∀ (s : State) i n, decode (b :: bs) = .ok i n → s.cur.len = n →
      let next := (s.issueOf i).nextPc
      next = s.cur.pc + BitVec.ofNat 64 len ∧ next.getLsbD 0 = s.cur.pc.getLsbD 0

/-- R79: a W16 word whose d6 lies from 56 to 63 raises ILLEGAL_OPND. -/
def Obligations.ReservedDestination : Prop :=
  ∀ (w : BitVec 16) (rest : List Byte), w.getLsbD 0 = false → 56 ≤ (w.extractLsb' 5 6).toNat →
    decode (leBytes 2 w.toNat ++ rest) = .illegalOpnd

/-- Decode and encode agree, on every instruction and every word: what the encoder writes for a well-formed instruction
decodes to it, whatever follows; and what the decoder reads is well-formed, and its bytes are the ones read. -/
def Obligations.RoundTrip : Prop :=
  (∀ i, Laws.RoundTrip.Statement i) ∧
  (∀ bs i n, decode bs = .ok i n → i.wf = true ∧ i.coded = true ∧ encode i = bs.take n) ∧
  ∀ w < 2 ^ 32, ∀ i, decodeHart w = some i → i.wf = true ∧ i.ofHart = true ∧ leNat (encode i) = w
end

