-- ==== Sys2Proof/Laws/State.lean ====
section
/-! SUPPORT. One lemma per field per named update of State, Core, Group and Thread, so that no proof
unfolds a record update. -/

namespace Sys2Proof.Machine

/-! ### setCore -/

@[simp] theorem State.setCore_now (s : State) (c : Nat) (x : Core) : (s.setCore c x).now = s.now := rfl
@[simp] theorem State.setCore_turn (s : State) (c : Nat) (x : Core) : (s.setCore c x).turn = s.turn := rfl
@[simp] theorem State.setCore_cur (s : State) (c : Nat) (x : Core) : (s.setCore c x).cur = s.cur := rfl
@[simp] theorem State.setCore_event (s : State) (c : Nat) (x : Core) : (s.setCore c x).event = s.event := rfl
@[simp] theorem State.setCore_agenda (s : State) (c : Nat) (x : Core) : (s.setCore c x).agenda = s.agenda := rfl
@[simp] theorem State.setCore_freeCount (s : State) (c : Nat) (x : Core) : (s.setCore c x).freeCount = s.freeCount := rfl
@[simp] theorem State.setCore_order (s : State) (c : Nat) (x : Core) : (s.setCore c x).order = s.order := rfl
@[simp] theorem State.setCore_mem (s : State) (c : Nat) (x : Core) : (s.setCore c x).mem = s.mem := rfl
@[simp] theorem State.setCore_poison (s : State) (c : Nat) (x : Core) : (s.setCore c x).poison = s.poison := rfl
@[simp] theorem State.setCore_staged (s : State) (c : Nat) (x : Core) : (s.setCore c x).staged = s.staged := rfl
@[simp] theorem State.setCore_l2 (s : State) (c : Nat) (x : Core) : (s.setCore c x).l2 = s.l2 := rfl
@[simp] theorem State.setCore_l2Waits (s : State) (c : Nat) (x : Core) : (s.setCore c x).l2Waits = s.l2Waits := rfl
@[simp] theorem State.setCore_rotations (s : State) (c : Nat) (x : Core) : (s.setCore c x).rotations = s.rotations := rfl
@[simp] theorem State.setCore_conds (s : State) (c : Nat) (x : Core) : (s.setCore c x).conds = s.conds := rfl
@[simp] theorem State.setCore_queueWaits (s : State) (c : Nat) (x : Core) : (s.setCore c x).queueWaits = s.queueWaits := rfl
@[simp] theorem State.setCore_tableWaits (s : State) (c : Nat) (x : Core) : (s.setCore c x).tableWaits = s.tableWaits := rfl
@[simp] theorem State.setCore_held (s : State) (c : Nat) (x : Core) : (s.setCore c x).held = s.held := rfl
@[simp] theorem State.setCore_launches (s : State) (c : Nat) (x : Core) : (s.setCore c x).launches = s.launches := rfl
@[simp] theorem State.setCore_teams (s : State) (c : Nat) (x : Core) : (s.setCore c x).teams = s.teams := rfl
@[simp] theorem State.setCore_saved (s : State) (c : Nat) (x : Core) : (s.setCore c x).saved = s.saved := rfl
@[simp] theorem State.setCore_peerLeases (s : State) (c : Nat) (x : Core) : (s.setCore c x).peerLeases = s.peerLeases := rfl
@[simp] theorem State.setCore_parts (s : State) (c : Nat) (x : Core) : (s.setCore c x).parts = s.parts := rfl
@[simp] theorem State.setCore_hubs (s : State) (c : Nat) (x : Core) : (s.setCore c x).hubs = s.hubs := rfl
@[simp] theorem State.setCore_harts (s : State) (c : Nat) (x : Core) : (s.setCore c x).harts = s.harts := rfl
@[simp] theorem State.setCore_places (s : State) (c : Nat) (x : Core) : (s.setCore c x).places = s.places := rfl
@[simp] theorem State.setCore_taken (s : State) (c : Nat) (x : Core) : (s.setCore c x).taken = s.taken := rfl
@[simp] theorem State.setCore_owners (s : State) (c : Nat) (x : Core) : (s.setCore c x).owners = s.owners := rfl
@[simp] theorem State.setCore_ownerSince (s : State) (c : Nat) (x : Core) : (s.setCore c x).ownerSince = s.ownerSince := rfl
@[simp] theorem State.setCore_handovers (s : State) (c : Nat) (x : Core) : (s.setCore c x).handovers = s.handovers := rfl
@[simp] theorem State.setCore_pinOps (s : State) (c : Nat) (x : Core) : (s.setCore c x).pinOps = s.pinOps := rfl
@[simp] theorem State.setCore_reductions (s : State) (c : Nat) (x : Core) : (s.setCore c x).reductions = s.reductions := rfl
@[simp] theorem State.setCore_poolOps (s : State) (c : Nat) (x : Core) : (s.setCore c x).poolOps = s.poolOps := rfl
@[simp] theorem State.setCore_poolMember (s : State) (c : Nat) (x : Core) : (s.setCore c x).poolMember = s.poolMember := rfl
@[simp] theorem State.setCore_poolPresent (s : State) (c : Nat) (x : Core) : (s.setCore c x).poolPresent = s.poolPresent := rfl
@[simp] theorem State.setCore_ballots (s : State) (c : Nat) (x : Core) : (s.setCore c x).ballots = s.ballots := rfl
@[simp] theorem State.setCore_ballotCalls (s : State) (c : Nat) (x : Core) : (s.setCore c x).ballotCalls = s.ballotCalls := rfl
@[simp] theorem State.setCore_stations (s : State) (c : Nat) (x : Core) : (s.setCore c x).stations = s.stations := rfl
@[simp] theorem State.setCore_ports (s : State) (c : Nat) (x : Core) : (s.setCore c x).ports = s.ports := rfl
@[simp] theorem State.setCore_sendSeq (s : State) (c : Nat) (x : Core) : (s.setCore c x).sendSeq = s.sendSeq := rfl
@[simp] theorem State.setCore_recvSeq (s : State) (c : Nat) (x : Core) : (s.setCore c x).recvSeq = s.recvSeq := rfl
@[simp] theorem State.setCore_unacked (s : State) (c : Nat) (x : Core) : (s.setCore c x).unacked = s.unacked := rfl
@[simp] theorem State.setCore_outbox (s : State) (c : Nat) (x : Core) : (s.setCore c x).outbox = s.outbox := rfl
@[simp] theorem State.setCore_sends (s : State) (c : Nat) (x : Core) : (s.setCore c x).sends = s.sends := rfl
@[simp] theorem State.setCore_outs (s : State) (c : Nat) (x : Core) : (s.setCore c x).outs = s.outs := rfl
@[simp] theorem State.setCore_delivered (s : State) (c : Nat) (x : Core) : (s.setCore c x).delivered = s.delivered := rfl
@[simp] theorem State.setCore_waitroom (s : State) (c : Nat) (x : Core) : (s.setCore c x).waitroom = s.waitroom := rfl
@[simp] theorem State.setCore_pkgid (s : State) (c : Nat) (x : Core) : (s.setCore c x).pkgid = s.pkgid := rfl
@[simp] theorem State.setCore_leader (s : State) (c : Nat) (x : Core) : (s.setCore c x).leader = s.leader := rfl
@[simp] theorem State.setCore_ready (s : State) (c : Nat) (x : Core) : (s.setCore c x).ready = s.ready := rfl
@[simp] theorem State.setCore_cfgseq (s : State) (c : Nat) (x : Core) : (s.setCore c x).cfgseq = s.cfgseq := rfl
@[simp] theorem State.setCore_mapbase (s : State) (c : Nat) (x : Core) : (s.setCore c x).mapbase = s.mapbase := rfl
@[simp] theorem State.setCore_throt (s : State) (c : Nat) (x : Core) : (s.setCore c x).throt = s.throt := rfl
@[simp] theorem State.setCore_devid (s : State) (c : Nat) (x : Core) : (s.setCore c x).devid = s.devid := rfl
@[simp] theorem State.setCore_replace (s : State) (c : Nat) (x : Core) : (s.setCore c x).replace = s.replace := rfl
@[simp] theorem State.setCore_keyrot (s : State) (c : Nat) (x : Core) : (s.setCore c x).keyrot = s.keyrot := rfl
@[simp] theorem State.setCore_attreq (s : State) (c : Nat) (x : Core) : (s.setCore c x).attreq = s.attreq := rfl
@[simp] theorem State.setCore_scrubq (s : State) (c : Nat) (x : Core) : (s.setCore c x).scrubq = s.scrubq := rfl
@[simp] theorem State.setCore_errlogBase (s : State) (c : Nat) (x : Core) : (s.setCore c x).errlogBase = s.errlogBase := rfl
@[simp] theorem State.setCore_svcslot (s : State) (c : Nat) (x : Core) : (s.setCore c x).svcslot = s.svcslot := rfl
@[simp] theorem State.setCore_svcQuantum (s : State) (c : Nat) (x : Core) : (s.setCore c x).svcQuantum = s.svcQuantum := rfl
@[simp] theorem State.setCore_svcRemoved (s : State) (c : Nat) (x : Core) : (s.setCore c x).svcRemoved = s.svcRemoved := rfl
@[simp] theorem State.setCore_pairs (s : State) (c : Nat) (x : Core) : (s.setCore c x).pairs = s.pairs := rfl
@[simp] theorem State.setCore_power (s : State) (c : Nat) (x : Core) : (s.setCore c x).power = s.power := rfl
@[simp] theorem State.setCore_flash (s : State) (c : Nat) (x : Core) : (s.setCore c x).flash = s.flash := rfl
@[simp] theorem State.setCore_fuses (s : State) (c : Nat) (x : Core) : (s.setCore c x).fuses = s.fuses := rfl
@[simp] theorem State.setCore_images (s : State) (c : Nat) (x : Core) : (s.setCore c x).images = s.images := rfl
@[simp] theorem State.setCore_errlog (s : State) (c : Nat) (x : Core) : (s.setCore c x).errlog = s.errlog := rfl
@[simp] theorem State.setCore_keys (s : State) (c : Nat) (x : Core) : (s.setCore c x).keys = s.keys := rfl

/-! ### modCore -/

@[simp] theorem State.modCore_now (s : State) (c : Nat) (f : Core → Core) : (s.modCore c f).now = s.now := rfl
@[simp] theorem State.modCore_turn (s : State) (c : Nat) (f : Core → Core) : (s.modCore c f).turn = s.turn := rfl
@[simp] theorem State.modCore_cur (s : State) (c : Nat) (f : Core → Core) : (s.modCore c f).cur = s.cur := rfl
@[simp] theorem State.modCore_event (s : State) (c : Nat) (f : Core → Core) : (s.modCore c f).event = s.event := rfl
@[simp] theorem State.modCore_agenda (s : State) (c : Nat) (f : Core → Core) : (s.modCore c f).agenda = s.agenda := rfl
@[simp] theorem State.modCore_freeCount (s : State) (c : Nat) (f : Core → Core) : (s.modCore c f).freeCount = s.freeCount := rfl
@[simp] theorem State.modCore_order (s : State) (c : Nat) (f : Core → Core) : (s.modCore c f).order = s.order := rfl
@[simp] theorem State.modCore_mem (s : State) (c : Nat) (f : Core → Core) : (s.modCore c f).mem = s.mem := rfl
@[simp] theorem State.modCore_poison (s : State) (c : Nat) (f : Core → Core) : (s.modCore c f).poison = s.poison := rfl
@[simp] theorem State.modCore_staged (s : State) (c : Nat) (f : Core → Core) : (s.modCore c f).staged = s.staged := rfl
@[simp] theorem State.modCore_l2 (s : State) (c : Nat) (f : Core → Core) : (s.modCore c f).l2 = s.l2 := rfl
@[simp] theorem State.modCore_l2Waits (s : State) (c : Nat) (f : Core → Core) : (s.modCore c f).l2Waits = s.l2Waits := rfl
@[simp] theorem State.modCore_rotations (s : State) (c : Nat) (f : Core → Core) : (s.modCore c f).rotations = s.rotations := rfl
@[simp] theorem State.modCore_conds (s : State) (c : Nat) (f : Core → Core) : (s.modCore c f).conds = s.conds := rfl
@[simp] theorem State.modCore_queueWaits (s : State) (c : Nat) (f : Core → Core) : (s.modCore c f).queueWaits = s.queueWaits := rfl
@[simp] theorem State.modCore_tableWaits (s : State) (c : Nat) (f : Core → Core) : (s.modCore c f).tableWaits = s.tableWaits := rfl
@[simp] theorem State.modCore_held (s : State) (c : Nat) (f : Core → Core) : (s.modCore c f).held = s.held := rfl
@[simp] theorem State.modCore_launches (s : State) (c : Nat) (f : Core → Core) : (s.modCore c f).launches = s.launches := rfl
@[simp] theorem State.modCore_teams (s : State) (c : Nat) (f : Core → Core) : (s.modCore c f).teams = s.teams := rfl
@[simp] theorem State.modCore_saved (s : State) (c : Nat) (f : Core → Core) : (s.modCore c f).saved = s.saved := rfl
@[simp] theorem State.modCore_peerLeases (s : State) (c : Nat) (f : Core → Core) : (s.modCore c f).peerLeases = s.peerLeases := rfl
@[simp] theorem State.modCore_parts (s : State) (c : Nat) (f : Core → Core) : (s.modCore c f).parts = s.parts := rfl
@[simp] theorem State.modCore_hubs (s : State) (c : Nat) (f : Core → Core) : (s.modCore c f).hubs = s.hubs := rfl
@[simp] theorem State.modCore_harts (s : State) (c : Nat) (f : Core → Core) : (s.modCore c f).harts = s.harts := rfl
@[simp] theorem State.modCore_places (s : State) (c : Nat) (f : Core → Core) : (s.modCore c f).places = s.places := rfl
@[simp] theorem State.modCore_taken (s : State) (c : Nat) (f : Core → Core) : (s.modCore c f).taken = s.taken := rfl
@[simp] theorem State.modCore_owners (s : State) (c : Nat) (f : Core → Core) : (s.modCore c f).owners = s.owners := rfl
@[simp] theorem State.modCore_ownerSince (s : State) (c : Nat) (f : Core → Core) : (s.modCore c f).ownerSince = s.ownerSince := rfl
@[simp] theorem State.modCore_handovers (s : State) (c : Nat) (f : Core → Core) : (s.modCore c f).handovers = s.handovers := rfl
@[simp] theorem State.modCore_pinOps (s : State) (c : Nat) (f : Core → Core) : (s.modCore c f).pinOps = s.pinOps := rfl
@[simp] theorem State.modCore_reductions (s : State) (c : Nat) (f : Core → Core) : (s.modCore c f).reductions = s.reductions := rfl
@[simp] theorem State.modCore_poolOps (s : State) (c : Nat) (f : Core → Core) : (s.modCore c f).poolOps = s.poolOps := rfl
@[simp] theorem State.modCore_poolMember (s : State) (c : Nat) (f : Core → Core) : (s.modCore c f).poolMember = s.poolMember := rfl
@[simp] theorem State.modCore_poolPresent (s : State) (c : Nat) (f : Core → Core) : (s.modCore c f).poolPresent = s.poolPresent := rfl
@[simp] theorem State.modCore_ballots (s : State) (c : Nat) (f : Core → Core) : (s.modCore c f).ballots = s.ballots := rfl
@[simp] theorem State.modCore_ballotCalls (s : State) (c : Nat) (f : Core → Core) : (s.modCore c f).ballotCalls = s.ballotCalls := rfl
@[simp] theorem State.modCore_stations (s : State) (c : Nat) (f : Core → Core) : (s.modCore c f).stations = s.stations := rfl
@[simp] theorem State.modCore_ports (s : State) (c : Nat) (f : Core → Core) : (s.modCore c f).ports = s.ports := rfl
@[simp] theorem State.modCore_sendSeq (s : State) (c : Nat) (f : Core → Core) : (s.modCore c f).sendSeq = s.sendSeq := rfl
@[simp] theorem State.modCore_recvSeq (s : State) (c : Nat) (f : Core → Core) : (s.modCore c f).recvSeq = s.recvSeq := rfl
@[simp] theorem State.modCore_unacked (s : State) (c : Nat) (f : Core → Core) : (s.modCore c f).unacked = s.unacked := rfl
@[simp] theorem State.modCore_outbox (s : State) (c : Nat) (f : Core → Core) : (s.modCore c f).outbox = s.outbox := rfl
@[simp] theorem State.modCore_sends (s : State) (c : Nat) (f : Core → Core) : (s.modCore c f).sends = s.sends := rfl
@[simp] theorem State.modCore_outs (s : State) (c : Nat) (f : Core → Core) : (s.modCore c f).outs = s.outs := rfl
@[simp] theorem State.modCore_delivered (s : State) (c : Nat) (f : Core → Core) : (s.modCore c f).delivered = s.delivered := rfl
@[simp] theorem State.modCore_waitroom (s : State) (c : Nat) (f : Core → Core) : (s.modCore c f).waitroom = s.waitroom := rfl
@[simp] theorem State.modCore_pkgid (s : State) (c : Nat) (f : Core → Core) : (s.modCore c f).pkgid = s.pkgid := rfl
@[simp] theorem State.modCore_leader (s : State) (c : Nat) (f : Core → Core) : (s.modCore c f).leader = s.leader := rfl
@[simp] theorem State.modCore_ready (s : State) (c : Nat) (f : Core → Core) : (s.modCore c f).ready = s.ready := rfl
@[simp] theorem State.modCore_cfgseq (s : State) (c : Nat) (f : Core → Core) : (s.modCore c f).cfgseq = s.cfgseq := rfl
@[simp] theorem State.modCore_mapbase (s : State) (c : Nat) (f : Core → Core) : (s.modCore c f).mapbase = s.mapbase := rfl
@[simp] theorem State.modCore_throt (s : State) (c : Nat) (f : Core → Core) : (s.modCore c f).throt = s.throt := rfl
@[simp] theorem State.modCore_devid (s : State) (c : Nat) (f : Core → Core) : (s.modCore c f).devid = s.devid := rfl
@[simp] theorem State.modCore_replace (s : State) (c : Nat) (f : Core → Core) : (s.modCore c f).replace = s.replace := rfl
@[simp] theorem State.modCore_keyrot (s : State) (c : Nat) (f : Core → Core) : (s.modCore c f).keyrot = s.keyrot := rfl
@[simp] theorem State.modCore_attreq (s : State) (c : Nat) (f : Core → Core) : (s.modCore c f).attreq = s.attreq := rfl
@[simp] theorem State.modCore_scrubq (s : State) (c : Nat) (f : Core → Core) : (s.modCore c f).scrubq = s.scrubq := rfl
@[simp] theorem State.modCore_errlogBase (s : State) (c : Nat) (f : Core → Core) : (s.modCore c f).errlogBase = s.errlogBase := rfl
@[simp] theorem State.modCore_svcslot (s : State) (c : Nat) (f : Core → Core) : (s.modCore c f).svcslot = s.svcslot := rfl
@[simp] theorem State.modCore_svcQuantum (s : State) (c : Nat) (f : Core → Core) : (s.modCore c f).svcQuantum = s.svcQuantum := rfl
@[simp] theorem State.modCore_svcRemoved (s : State) (c : Nat) (f : Core → Core) : (s.modCore c f).svcRemoved = s.svcRemoved := rfl
@[simp] theorem State.modCore_pairs (s : State) (c : Nat) (f : Core → Core) : (s.modCore c f).pairs = s.pairs := rfl
@[simp] theorem State.modCore_power (s : State) (c : Nat) (f : Core → Core) : (s.modCore c f).power = s.power := rfl
@[simp] theorem State.modCore_flash (s : State) (c : Nat) (f : Core → Core) : (s.modCore c f).flash = s.flash := rfl
@[simp] theorem State.modCore_fuses (s : State) (c : Nat) (f : Core → Core) : (s.modCore c f).fuses = s.fuses := rfl
@[simp] theorem State.modCore_images (s : State) (c : Nat) (f : Core → Core) : (s.modCore c f).images = s.images := rfl
@[simp] theorem State.modCore_errlog (s : State) (c : Nat) (f : Core → Core) : (s.modCore c f).errlog = s.errlog := rfl
@[simp] theorem State.modCore_keys (s : State) (c : Nat) (f : Core → Core) : (s.modCore c f).keys = s.keys := rfl

/-! ### modGroup -/

@[simp] theorem State.modGroup_now (s : State) (c k : Nat) (f : Group → Group) : (s.modGroup c k f).now = s.now := rfl
@[simp] theorem State.modGroup_turn (s : State) (c k : Nat) (f : Group → Group) : (s.modGroup c k f).turn = s.turn := rfl
@[simp] theorem State.modGroup_cur (s : State) (c k : Nat) (f : Group → Group) : (s.modGroup c k f).cur = s.cur := rfl
@[simp] theorem State.modGroup_event (s : State) (c k : Nat) (f : Group → Group) : (s.modGroup c k f).event = s.event := rfl
@[simp] theorem State.modGroup_agenda (s : State) (c k : Nat) (f : Group → Group) : (s.modGroup c k f).agenda = s.agenda := rfl
@[simp] theorem State.modGroup_freeCount (s : State) (c k : Nat) (f : Group → Group) : (s.modGroup c k f).freeCount = s.freeCount := rfl
@[simp] theorem State.modGroup_order (s : State) (c k : Nat) (f : Group → Group) : (s.modGroup c k f).order = s.order := rfl
@[simp] theorem State.modGroup_mem (s : State) (c k : Nat) (f : Group → Group) : (s.modGroup c k f).mem = s.mem := rfl
@[simp] theorem State.modGroup_poison (s : State) (c k : Nat) (f : Group → Group) : (s.modGroup c k f).poison = s.poison := rfl
@[simp] theorem State.modGroup_staged (s : State) (c k : Nat) (f : Group → Group) : (s.modGroup c k f).staged = s.staged := rfl
@[simp] theorem State.modGroup_l2 (s : State) (c k : Nat) (f : Group → Group) : (s.modGroup c k f).l2 = s.l2 := rfl
@[simp] theorem State.modGroup_l2Waits (s : State) (c k : Nat) (f : Group → Group) : (s.modGroup c k f).l2Waits = s.l2Waits := rfl
@[simp] theorem State.modGroup_rotations (s : State) (c k : Nat) (f : Group → Group) : (s.modGroup c k f).rotations = s.rotations := rfl
@[simp] theorem State.modGroup_conds (s : State) (c k : Nat) (f : Group → Group) : (s.modGroup c k f).conds = s.conds := rfl
@[simp] theorem State.modGroup_queueWaits (s : State) (c k : Nat) (f : Group → Group) : (s.modGroup c k f).queueWaits = s.queueWaits := rfl
@[simp] theorem State.modGroup_tableWaits (s : State) (c k : Nat) (f : Group → Group) : (s.modGroup c k f).tableWaits = s.tableWaits := rfl
@[simp] theorem State.modGroup_held (s : State) (c k : Nat) (f : Group → Group) : (s.modGroup c k f).held = s.held := rfl
@[simp] theorem State.modGroup_launches (s : State) (c k : Nat) (f : Group → Group) : (s.modGroup c k f).launches = s.launches := rfl
@[simp] theorem State.modGroup_teams (s : State) (c k : Nat) (f : Group → Group) : (s.modGroup c k f).teams = s.teams := rfl
@[simp] theorem State.modGroup_saved (s : State) (c k : Nat) (f : Group → Group) : (s.modGroup c k f).saved = s.saved := rfl
@[simp] theorem State.modGroup_peerLeases (s : State) (c k : Nat) (f : Group → Group) : (s.modGroup c k f).peerLeases = s.peerLeases := rfl
@[simp] theorem State.modGroup_parts (s : State) (c k : Nat) (f : Group → Group) : (s.modGroup c k f).parts = s.parts := rfl
@[simp] theorem State.modGroup_hubs (s : State) (c k : Nat) (f : Group → Group) : (s.modGroup c k f).hubs = s.hubs := rfl
@[simp] theorem State.modGroup_harts (s : State) (c k : Nat) (f : Group → Group) : (s.modGroup c k f).harts = s.harts := rfl
@[simp] theorem State.modGroup_places (s : State) (c k : Nat) (f : Group → Group) : (s.modGroup c k f).places = s.places := rfl
@[simp] theorem State.modGroup_taken (s : State) (c k : Nat) (f : Group → Group) : (s.modGroup c k f).taken = s.taken := rfl
@[simp] theorem State.modGroup_owners (s : State) (c k : Nat) (f : Group → Group) : (s.modGroup c k f).owners = s.owners := rfl
@[simp] theorem State.modGroup_ownerSince (s : State) (c k : Nat) (f : Group → Group) : (s.modGroup c k f).ownerSince = s.ownerSince := rfl
@[simp] theorem State.modGroup_handovers (s : State) (c k : Nat) (f : Group → Group) : (s.modGroup c k f).handovers = s.handovers := rfl
@[simp] theorem State.modGroup_pinOps (s : State) (c k : Nat) (f : Group → Group) : (s.modGroup c k f).pinOps = s.pinOps := rfl
@[simp] theorem State.modGroup_reductions (s : State) (c k : Nat) (f : Group → Group) : (s.modGroup c k f).reductions = s.reductions := rfl
@[simp] theorem State.modGroup_poolOps (s : State) (c k : Nat) (f : Group → Group) : (s.modGroup c k f).poolOps = s.poolOps := rfl
@[simp] theorem State.modGroup_poolMember (s : State) (c k : Nat) (f : Group → Group) : (s.modGroup c k f).poolMember = s.poolMember := rfl
@[simp] theorem State.modGroup_poolPresent (s : State) (c k : Nat) (f : Group → Group) : (s.modGroup c k f).poolPresent = s.poolPresent := rfl
@[simp] theorem State.modGroup_ballots (s : State) (c k : Nat) (f : Group → Group) : (s.modGroup c k f).ballots = s.ballots := rfl
@[simp] theorem State.modGroup_ballotCalls (s : State) (c k : Nat) (f : Group → Group) : (s.modGroup c k f).ballotCalls = s.ballotCalls := rfl
@[simp] theorem State.modGroup_stations (s : State) (c k : Nat) (f : Group → Group) : (s.modGroup c k f).stations = s.stations := rfl
@[simp] theorem State.modGroup_ports (s : State) (c k : Nat) (f : Group → Group) : (s.modGroup c k f).ports = s.ports := rfl
@[simp] theorem State.modGroup_sendSeq (s : State) (c k : Nat) (f : Group → Group) : (s.modGroup c k f).sendSeq = s.sendSeq := rfl
@[simp] theorem State.modGroup_recvSeq (s : State) (c k : Nat) (f : Group → Group) : (s.modGroup c k f).recvSeq = s.recvSeq := rfl
@[simp] theorem State.modGroup_unacked (s : State) (c k : Nat) (f : Group → Group) : (s.modGroup c k f).unacked = s.unacked := rfl
@[simp] theorem State.modGroup_outbox (s : State) (c k : Nat) (f : Group → Group) : (s.modGroup c k f).outbox = s.outbox := rfl
@[simp] theorem State.modGroup_sends (s : State) (c k : Nat) (f : Group → Group) : (s.modGroup c k f).sends = s.sends := rfl
@[simp] theorem State.modGroup_outs (s : State) (c k : Nat) (f : Group → Group) : (s.modGroup c k f).outs = s.outs := rfl
@[simp] theorem State.modGroup_delivered (s : State) (c k : Nat) (f : Group → Group) : (s.modGroup c k f).delivered = s.delivered := rfl
@[simp] theorem State.modGroup_waitroom (s : State) (c k : Nat) (f : Group → Group) : (s.modGroup c k f).waitroom = s.waitroom := rfl
@[simp] theorem State.modGroup_pkgid (s : State) (c k : Nat) (f : Group → Group) : (s.modGroup c k f).pkgid = s.pkgid := rfl
@[simp] theorem State.modGroup_leader (s : State) (c k : Nat) (f : Group → Group) : (s.modGroup c k f).leader = s.leader := rfl
@[simp] theorem State.modGroup_ready (s : State) (c k : Nat) (f : Group → Group) : (s.modGroup c k f).ready = s.ready := rfl
@[simp] theorem State.modGroup_cfgseq (s : State) (c k : Nat) (f : Group → Group) : (s.modGroup c k f).cfgseq = s.cfgseq := rfl
@[simp] theorem State.modGroup_mapbase (s : State) (c k : Nat) (f : Group → Group) : (s.modGroup c k f).mapbase = s.mapbase := rfl
@[simp] theorem State.modGroup_throt (s : State) (c k : Nat) (f : Group → Group) : (s.modGroup c k f).throt = s.throt := rfl
@[simp] theorem State.modGroup_devid (s : State) (c k : Nat) (f : Group → Group) : (s.modGroup c k f).devid = s.devid := rfl
@[simp] theorem State.modGroup_replace (s : State) (c k : Nat) (f : Group → Group) : (s.modGroup c k f).replace = s.replace := rfl
@[simp] theorem State.modGroup_keyrot (s : State) (c k : Nat) (f : Group → Group) : (s.modGroup c k f).keyrot = s.keyrot := rfl
@[simp] theorem State.modGroup_attreq (s : State) (c k : Nat) (f : Group → Group) : (s.modGroup c k f).attreq = s.attreq := rfl
@[simp] theorem State.modGroup_scrubq (s : State) (c k : Nat) (f : Group → Group) : (s.modGroup c k f).scrubq = s.scrubq := rfl
@[simp] theorem State.modGroup_errlogBase (s : State) (c k : Nat) (f : Group → Group) : (s.modGroup c k f).errlogBase = s.errlogBase := rfl
@[simp] theorem State.modGroup_svcslot (s : State) (c k : Nat) (f : Group → Group) : (s.modGroup c k f).svcslot = s.svcslot := rfl
@[simp] theorem State.modGroup_svcQuantum (s : State) (c k : Nat) (f : Group → Group) : (s.modGroup c k f).svcQuantum = s.svcQuantum := rfl
@[simp] theorem State.modGroup_svcRemoved (s : State) (c k : Nat) (f : Group → Group) : (s.modGroup c k f).svcRemoved = s.svcRemoved := rfl
@[simp] theorem State.modGroup_pairs (s : State) (c k : Nat) (f : Group → Group) : (s.modGroup c k f).pairs = s.pairs := rfl
@[simp] theorem State.modGroup_power (s : State) (c k : Nat) (f : Group → Group) : (s.modGroup c k f).power = s.power := rfl
@[simp] theorem State.modGroup_flash (s : State) (c k : Nat) (f : Group → Group) : (s.modGroup c k f).flash = s.flash := rfl
@[simp] theorem State.modGroup_fuses (s : State) (c k : Nat) (f : Group → Group) : (s.modGroup c k f).fuses = s.fuses := rfl
@[simp] theorem State.modGroup_images (s : State) (c k : Nat) (f : Group → Group) : (s.modGroup c k f).images = s.images := rfl
@[simp] theorem State.modGroup_errlog (s : State) (c k : Nat) (f : Group → Group) : (s.modGroup c k f).errlog = s.errlog := rfl
@[simp] theorem State.modGroup_keys (s : State) (c k : Nat) (f : Group → Group) : (s.modGroup c k f).keys = s.keys := rfl

/-! ### modThread -/

@[simp] theorem State.modThread_now (s : State) (c k l : Nat) (f : Thread → Thread) : (s.modThread c k l f).now = s.now := rfl
@[simp] theorem State.modThread_turn (s : State) (c k l : Nat) (f : Thread → Thread) : (s.modThread c k l f).turn = s.turn := rfl
@[simp] theorem State.modThread_cur (s : State) (c k l : Nat) (f : Thread → Thread) : (s.modThread c k l f).cur = s.cur := rfl
@[simp] theorem State.modThread_event (s : State) (c k l : Nat) (f : Thread → Thread) : (s.modThread c k l f).event = s.event := rfl
@[simp] theorem State.modThread_agenda (s : State) (c k l : Nat) (f : Thread → Thread) : (s.modThread c k l f).agenda = s.agenda := rfl
@[simp] theorem State.modThread_freeCount (s : State) (c k l : Nat) (f : Thread → Thread) : (s.modThread c k l f).freeCount = s.freeCount := rfl
@[simp] theorem State.modThread_order (s : State) (c k l : Nat) (f : Thread → Thread) : (s.modThread c k l f).order = s.order := rfl
@[simp] theorem State.modThread_mem (s : State) (c k l : Nat) (f : Thread → Thread) : (s.modThread c k l f).mem = s.mem := rfl
@[simp] theorem State.modThread_poison (s : State) (c k l : Nat) (f : Thread → Thread) : (s.modThread c k l f).poison = s.poison := rfl
@[simp] theorem State.modThread_staged (s : State) (c k l : Nat) (f : Thread → Thread) : (s.modThread c k l f).staged = s.staged := rfl
@[simp] theorem State.modThread_l2 (s : State) (c k l : Nat) (f : Thread → Thread) : (s.modThread c k l f).l2 = s.l2 := rfl
@[simp] theorem State.modThread_l2Waits (s : State) (c k l : Nat) (f : Thread → Thread) : (s.modThread c k l f).l2Waits = s.l2Waits := rfl
@[simp] theorem State.modThread_rotations (s : State) (c k l : Nat) (f : Thread → Thread) : (s.modThread c k l f).rotations = s.rotations := rfl
@[simp] theorem State.modThread_conds (s : State) (c k l : Nat) (f : Thread → Thread) : (s.modThread c k l f).conds = s.conds := rfl
@[simp] theorem State.modThread_queueWaits (s : State) (c k l : Nat) (f : Thread → Thread) : (s.modThread c k l f).queueWaits = s.queueWaits := rfl
@[simp] theorem State.modThread_tableWaits (s : State) (c k l : Nat) (f : Thread → Thread) : (s.modThread c k l f).tableWaits = s.tableWaits := rfl
@[simp] theorem State.modThread_held (s : State) (c k l : Nat) (f : Thread → Thread) : (s.modThread c k l f).held = s.held := rfl
@[simp] theorem State.modThread_launches (s : State) (c k l : Nat) (f : Thread → Thread) : (s.modThread c k l f).launches = s.launches := rfl
@[simp] theorem State.modThread_teams (s : State) (c k l : Nat) (f : Thread → Thread) : (s.modThread c k l f).teams = s.teams := rfl
@[simp] theorem State.modThread_saved (s : State) (c k l : Nat) (f : Thread → Thread) : (s.modThread c k l f).saved = s.saved := rfl
@[simp] theorem State.modThread_peerLeases (s : State) (c k l : Nat) (f : Thread → Thread) : (s.modThread c k l f).peerLeases = s.peerLeases := rfl
@[simp] theorem State.modThread_parts (s : State) (c k l : Nat) (f : Thread → Thread) : (s.modThread c k l f).parts = s.parts := rfl
@[simp] theorem State.modThread_hubs (s : State) (c k l : Nat) (f : Thread → Thread) : (s.modThread c k l f).hubs = s.hubs := rfl
@[simp] theorem State.modThread_harts (s : State) (c k l : Nat) (f : Thread → Thread) : (s.modThread c k l f).harts = s.harts := rfl
@[simp] theorem State.modThread_places (s : State) (c k l : Nat) (f : Thread → Thread) : (s.modThread c k l f).places = s.places := rfl
@[simp] theorem State.modThread_taken (s : State) (c k l : Nat) (f : Thread → Thread) : (s.modThread c k l f).taken = s.taken := rfl
@[simp] theorem State.modThread_owners (s : State) (c k l : Nat) (f : Thread → Thread) : (s.modThread c k l f).owners = s.owners := rfl
@[simp] theorem State.modThread_ownerSince (s : State) (c k l : Nat) (f : Thread → Thread) : (s.modThread c k l f).ownerSince = s.ownerSince := rfl
@[simp] theorem State.modThread_handovers (s : State) (c k l : Nat) (f : Thread → Thread) : (s.modThread c k l f).handovers = s.handovers := rfl
@[simp] theorem State.modThread_pinOps (s : State) (c k l : Nat) (f : Thread → Thread) : (s.modThread c k l f).pinOps = s.pinOps := rfl
@[simp] theorem State.modThread_reductions (s : State) (c k l : Nat) (f : Thread → Thread) : (s.modThread c k l f).reductions = s.reductions := rfl
@[simp] theorem State.modThread_poolOps (s : State) (c k l : Nat) (f : Thread → Thread) : (s.modThread c k l f).poolOps = s.poolOps := rfl
@[simp] theorem State.modThread_poolMember (s : State) (c k l : Nat) (f : Thread → Thread) : (s.modThread c k l f).poolMember = s.poolMember := rfl
@[simp] theorem State.modThread_poolPresent (s : State) (c k l : Nat) (f : Thread → Thread) : (s.modThread c k l f).poolPresent = s.poolPresent := rfl
@[simp] theorem State.modThread_ballots (s : State) (c k l : Nat) (f : Thread → Thread) : (s.modThread c k l f).ballots = s.ballots := rfl
@[simp] theorem State.modThread_ballotCalls (s : State) (c k l : Nat) (f : Thread → Thread) : (s.modThread c k l f).ballotCalls = s.ballotCalls := rfl
@[simp] theorem State.modThread_stations (s : State) (c k l : Nat) (f : Thread → Thread) : (s.modThread c k l f).stations = s.stations := rfl
@[simp] theorem State.modThread_ports (s : State) (c k l : Nat) (f : Thread → Thread) : (s.modThread c k l f).ports = s.ports := rfl
@[simp] theorem State.modThread_sendSeq (s : State) (c k l : Nat) (f : Thread → Thread) : (s.modThread c k l f).sendSeq = s.sendSeq := rfl
@[simp] theorem State.modThread_recvSeq (s : State) (c k l : Nat) (f : Thread → Thread) : (s.modThread c k l f).recvSeq = s.recvSeq := rfl
@[simp] theorem State.modThread_unacked (s : State) (c k l : Nat) (f : Thread → Thread) : (s.modThread c k l f).unacked = s.unacked := rfl
@[simp] theorem State.modThread_outbox (s : State) (c k l : Nat) (f : Thread → Thread) : (s.modThread c k l f).outbox = s.outbox := rfl
@[simp] theorem State.modThread_sends (s : State) (c k l : Nat) (f : Thread → Thread) : (s.modThread c k l f).sends = s.sends := rfl
@[simp] theorem State.modThread_outs (s : State) (c k l : Nat) (f : Thread → Thread) : (s.modThread c k l f).outs = s.outs := rfl
@[simp] theorem State.modThread_delivered (s : State) (c k l : Nat) (f : Thread → Thread) : (s.modThread c k l f).delivered = s.delivered := rfl
@[simp] theorem State.modThread_waitroom (s : State) (c k l : Nat) (f : Thread → Thread) : (s.modThread c k l f).waitroom = s.waitroom := rfl
@[simp] theorem State.modThread_pkgid (s : State) (c k l : Nat) (f : Thread → Thread) : (s.modThread c k l f).pkgid = s.pkgid := rfl
@[simp] theorem State.modThread_leader (s : State) (c k l : Nat) (f : Thread → Thread) : (s.modThread c k l f).leader = s.leader := rfl
@[simp] theorem State.modThread_ready (s : State) (c k l : Nat) (f : Thread → Thread) : (s.modThread c k l f).ready = s.ready := rfl
@[simp] theorem State.modThread_cfgseq (s : State) (c k l : Nat) (f : Thread → Thread) : (s.modThread c k l f).cfgseq = s.cfgseq := rfl
@[simp] theorem State.modThread_mapbase (s : State) (c k l : Nat) (f : Thread → Thread) : (s.modThread c k l f).mapbase = s.mapbase := rfl
@[simp] theorem State.modThread_throt (s : State) (c k l : Nat) (f : Thread → Thread) : (s.modThread c k l f).throt = s.throt := rfl
@[simp] theorem State.modThread_devid (s : State) (c k l : Nat) (f : Thread → Thread) : (s.modThread c k l f).devid = s.devid := rfl
@[simp] theorem State.modThread_replace (s : State) (c k l : Nat) (f : Thread → Thread) : (s.modThread c k l f).replace = s.replace := rfl
@[simp] theorem State.modThread_keyrot (s : State) (c k l : Nat) (f : Thread → Thread) : (s.modThread c k l f).keyrot = s.keyrot := rfl
@[simp] theorem State.modThread_attreq (s : State) (c k l : Nat) (f : Thread → Thread) : (s.modThread c k l f).attreq = s.attreq := rfl
@[simp] theorem State.modThread_scrubq (s : State) (c k l : Nat) (f : Thread → Thread) : (s.modThread c k l f).scrubq = s.scrubq := rfl
@[simp] theorem State.modThread_errlogBase (s : State) (c k l : Nat) (f : Thread → Thread) : (s.modThread c k l f).errlogBase = s.errlogBase := rfl
@[simp] theorem State.modThread_svcslot (s : State) (c k l : Nat) (f : Thread → Thread) : (s.modThread c k l f).svcslot = s.svcslot := rfl
@[simp] theorem State.modThread_svcQuantum (s : State) (c k l : Nat) (f : Thread → Thread) : (s.modThread c k l f).svcQuantum = s.svcQuantum := rfl
@[simp] theorem State.modThread_svcRemoved (s : State) (c k l : Nat) (f : Thread → Thread) : (s.modThread c k l f).svcRemoved = s.svcRemoved := rfl
@[simp] theorem State.modThread_pairs (s : State) (c k l : Nat) (f : Thread → Thread) : (s.modThread c k l f).pairs = s.pairs := rfl
@[simp] theorem State.modThread_power (s : State) (c k l : Nat) (f : Thread → Thread) : (s.modThread c k l f).power = s.power := rfl
@[simp] theorem State.modThread_flash (s : State) (c k l : Nat) (f : Thread → Thread) : (s.modThread c k l f).flash = s.flash := rfl
@[simp] theorem State.modThread_fuses (s : State) (c k l : Nat) (f : Thread → Thread) : (s.modThread c k l f).fuses = s.fuses := rfl
@[simp] theorem State.modThread_images (s : State) (c k l : Nat) (f : Thread → Thread) : (s.modThread c k l f).images = s.images := rfl
@[simp] theorem State.modThread_errlog (s : State) (c k l : Nat) (f : Thread → Thread) : (s.modThread c k l f).errlog = s.errlog := rfl
@[simp] theorem State.modThread_keys (s : State) (c k l : Nat) (f : Thread → Thread) : (s.modThread c k l f).keys = s.keys := rfl

/-! ### modPart -/

@[simp] theorem State.modPart_now (s : State) (p : Nat) (f : Part → Part) : (s.modPart p f).now = s.now := rfl
@[simp] theorem State.modPart_turn (s : State) (p : Nat) (f : Part → Part) : (s.modPart p f).turn = s.turn := rfl
@[simp] theorem State.modPart_cur (s : State) (p : Nat) (f : Part → Part) : (s.modPart p f).cur = s.cur := rfl
@[simp] theorem State.modPart_event (s : State) (p : Nat) (f : Part → Part) : (s.modPart p f).event = s.event := rfl
@[simp] theorem State.modPart_agenda (s : State) (p : Nat) (f : Part → Part) : (s.modPart p f).agenda = s.agenda := rfl
@[simp] theorem State.modPart_freeCount (s : State) (p : Nat) (f : Part → Part) : (s.modPart p f).freeCount = s.freeCount := rfl
@[simp] theorem State.modPart_order (s : State) (p : Nat) (f : Part → Part) : (s.modPart p f).order = s.order := rfl
@[simp] theorem State.modPart_mem (s : State) (p : Nat) (f : Part → Part) : (s.modPart p f).mem = s.mem := rfl
@[simp] theorem State.modPart_poison (s : State) (p : Nat) (f : Part → Part) : (s.modPart p f).poison = s.poison := rfl
@[simp] theorem State.modPart_staged (s : State) (p : Nat) (f : Part → Part) : (s.modPart p f).staged = s.staged := rfl
@[simp] theorem State.modPart_l2 (s : State) (p : Nat) (f : Part → Part) : (s.modPart p f).l2 = s.l2 := rfl
@[simp] theorem State.modPart_l2Waits (s : State) (p : Nat) (f : Part → Part) : (s.modPart p f).l2Waits = s.l2Waits := rfl
@[simp] theorem State.modPart_rotations (s : State) (p : Nat) (f : Part → Part) : (s.modPart p f).rotations = s.rotations := rfl
@[simp] theorem State.modPart_conds (s : State) (p : Nat) (f : Part → Part) : (s.modPart p f).conds = s.conds := rfl
@[simp] theorem State.modPart_queueWaits (s : State) (p : Nat) (f : Part → Part) : (s.modPart p f).queueWaits = s.queueWaits := rfl
@[simp] theorem State.modPart_tableWaits (s : State) (p : Nat) (f : Part → Part) : (s.modPart p f).tableWaits = s.tableWaits := rfl
@[simp] theorem State.modPart_held (s : State) (p : Nat) (f : Part → Part) : (s.modPart p f).held = s.held := rfl
@[simp] theorem State.modPart_launches (s : State) (p : Nat) (f : Part → Part) : (s.modPart p f).launches = s.launches := rfl
@[simp] theorem State.modPart_teams (s : State) (p : Nat) (f : Part → Part) : (s.modPart p f).teams = s.teams := rfl
@[simp] theorem State.modPart_saved (s : State) (p : Nat) (f : Part → Part) : (s.modPart p f).saved = s.saved := rfl
@[simp] theorem State.modPart_peerLeases (s : State) (p : Nat) (f : Part → Part) : (s.modPart p f).peerLeases = s.peerLeases := rfl
@[simp] theorem State.modPart_cores (s : State) (p : Nat) (f : Part → Part) : (s.modPart p f).cores = s.cores := rfl
@[simp] theorem State.modPart_hubs (s : State) (p : Nat) (f : Part → Part) : (s.modPart p f).hubs = s.hubs := rfl
@[simp] theorem State.modPart_harts (s : State) (p : Nat) (f : Part → Part) : (s.modPart p f).harts = s.harts := rfl
@[simp] theorem State.modPart_places (s : State) (p : Nat) (f : Part → Part) : (s.modPart p f).places = s.places := rfl
@[simp] theorem State.modPart_taken (s : State) (p : Nat) (f : Part → Part) : (s.modPart p f).taken = s.taken := rfl
@[simp] theorem State.modPart_owners (s : State) (p : Nat) (f : Part → Part) : (s.modPart p f).owners = s.owners := rfl
@[simp] theorem State.modPart_ownerSince (s : State) (p : Nat) (f : Part → Part) : (s.modPart p f).ownerSince = s.ownerSince := rfl
@[simp] theorem State.modPart_handovers (s : State) (p : Nat) (f : Part → Part) : (s.modPart p f).handovers = s.handovers := rfl
@[simp] theorem State.modPart_pinOps (s : State) (p : Nat) (f : Part → Part) : (s.modPart p f).pinOps = s.pinOps := rfl
@[simp] theorem State.modPart_reductions (s : State) (p : Nat) (f : Part → Part) : (s.modPart p f).reductions = s.reductions := rfl
@[simp] theorem State.modPart_poolOps (s : State) (p : Nat) (f : Part → Part) : (s.modPart p f).poolOps = s.poolOps := rfl
@[simp] theorem State.modPart_poolMember (s : State) (p : Nat) (f : Part → Part) : (s.modPart p f).poolMember = s.poolMember := rfl
@[simp] theorem State.modPart_poolPresent (s : State) (p : Nat) (f : Part → Part) : (s.modPart p f).poolPresent = s.poolPresent := rfl
@[simp] theorem State.modPart_ballots (s : State) (p : Nat) (f : Part → Part) : (s.modPart p f).ballots = s.ballots := rfl
@[simp] theorem State.modPart_ballotCalls (s : State) (p : Nat) (f : Part → Part) : (s.modPart p f).ballotCalls = s.ballotCalls := rfl
@[simp] theorem State.modPart_stations (s : State) (p : Nat) (f : Part → Part) : (s.modPart p f).stations = s.stations := rfl
@[simp] theorem State.modPart_ports (s : State) (p : Nat) (f : Part → Part) : (s.modPart p f).ports = s.ports := rfl
@[simp] theorem State.modPart_sendSeq (s : State) (p : Nat) (f : Part → Part) : (s.modPart p f).sendSeq = s.sendSeq := rfl
@[simp] theorem State.modPart_recvSeq (s : State) (p : Nat) (f : Part → Part) : (s.modPart p f).recvSeq = s.recvSeq := rfl
@[simp] theorem State.modPart_unacked (s : State) (p : Nat) (f : Part → Part) : (s.modPart p f).unacked = s.unacked := rfl
@[simp] theorem State.modPart_outbox (s : State) (p : Nat) (f : Part → Part) : (s.modPart p f).outbox = s.outbox := rfl
@[simp] theorem State.modPart_sends (s : State) (p : Nat) (f : Part → Part) : (s.modPart p f).sends = s.sends := rfl
@[simp] theorem State.modPart_outs (s : State) (p : Nat) (f : Part → Part) : (s.modPart p f).outs = s.outs := rfl
@[simp] theorem State.modPart_delivered (s : State) (p : Nat) (f : Part → Part) : (s.modPart p f).delivered = s.delivered := rfl
@[simp] theorem State.modPart_waitroom (s : State) (p : Nat) (f : Part → Part) : (s.modPart p f).waitroom = s.waitroom := rfl
@[simp] theorem State.modPart_pkgid (s : State) (p : Nat) (f : Part → Part) : (s.modPart p f).pkgid = s.pkgid := rfl
@[simp] theorem State.modPart_leader (s : State) (p : Nat) (f : Part → Part) : (s.modPart p f).leader = s.leader := rfl
@[simp] theorem State.modPart_ready (s : State) (p : Nat) (f : Part → Part) : (s.modPart p f).ready = s.ready := rfl
@[simp] theorem State.modPart_cfgseq (s : State) (p : Nat) (f : Part → Part) : (s.modPart p f).cfgseq = s.cfgseq := rfl
@[simp] theorem State.modPart_mapbase (s : State) (p : Nat) (f : Part → Part) : (s.modPart p f).mapbase = s.mapbase := rfl
@[simp] theorem State.modPart_throt (s : State) (p : Nat) (f : Part → Part) : (s.modPart p f).throt = s.throt := rfl
@[simp] theorem State.modPart_devid (s : State) (p : Nat) (f : Part → Part) : (s.modPart p f).devid = s.devid := rfl
@[simp] theorem State.modPart_replace (s : State) (p : Nat) (f : Part → Part) : (s.modPart p f).replace = s.replace := rfl
@[simp] theorem State.modPart_keyrot (s : State) (p : Nat) (f : Part → Part) : (s.modPart p f).keyrot = s.keyrot := rfl
@[simp] theorem State.modPart_attreq (s : State) (p : Nat) (f : Part → Part) : (s.modPart p f).attreq = s.attreq := rfl
@[simp] theorem State.modPart_scrubq (s : State) (p : Nat) (f : Part → Part) : (s.modPart p f).scrubq = s.scrubq := rfl
@[simp] theorem State.modPart_errlogBase (s : State) (p : Nat) (f : Part → Part) : (s.modPart p f).errlogBase = s.errlogBase := rfl
@[simp] theorem State.modPart_svcslot (s : State) (p : Nat) (f : Part → Part) : (s.modPart p f).svcslot = s.svcslot := rfl
@[simp] theorem State.modPart_svcQuantum (s : State) (p : Nat) (f : Part → Part) : (s.modPart p f).svcQuantum = s.svcQuantum := rfl
@[simp] theorem State.modPart_svcRemoved (s : State) (p : Nat) (f : Part → Part) : (s.modPart p f).svcRemoved = s.svcRemoved := rfl
@[simp] theorem State.modPart_pairs (s : State) (p : Nat) (f : Part → Part) : (s.modPart p f).pairs = s.pairs := rfl
@[simp] theorem State.modPart_power (s : State) (p : Nat) (f : Part → Part) : (s.modPart p f).power = s.power := rfl
@[simp] theorem State.modPart_flash (s : State) (p : Nat) (f : Part → Part) : (s.modPart p f).flash = s.flash := rfl
@[simp] theorem State.modPart_fuses (s : State) (p : Nat) (f : Part → Part) : (s.modPart p f).fuses = s.fuses := rfl
@[simp] theorem State.modPart_images (s : State) (p : Nat) (f : Part → Part) : (s.modPart p f).images = s.images := rfl
@[simp] theorem State.modPart_errlog (s : State) (p : Nat) (f : Part → Part) : (s.modPart p f).errlog = s.errlog := rfl
@[simp] theorem State.modPart_keys (s : State) (p : Nat) (f : Part → Part) : (s.modPart p f).keys = s.keys := rfl

/-! ### modHub -/

@[simp] theorem State.modHub_now (s : State) (h : Nat) (f : Hub → Hub) : (s.modHub h f).now = s.now := rfl
@[simp] theorem State.modHub_turn (s : State) (h : Nat) (f : Hub → Hub) : (s.modHub h f).turn = s.turn := rfl
@[simp] theorem State.modHub_cur (s : State) (h : Nat) (f : Hub → Hub) : (s.modHub h f).cur = s.cur := rfl
@[simp] theorem State.modHub_event (s : State) (h : Nat) (f : Hub → Hub) : (s.modHub h f).event = s.event := rfl
@[simp] theorem State.modHub_agenda (s : State) (h : Nat) (f : Hub → Hub) : (s.modHub h f).agenda = s.agenda := rfl
@[simp] theorem State.modHub_freeCount (s : State) (h : Nat) (f : Hub → Hub) : (s.modHub h f).freeCount = s.freeCount := rfl
@[simp] theorem State.modHub_order (s : State) (h : Nat) (f : Hub → Hub) : (s.modHub h f).order = s.order := rfl
@[simp] theorem State.modHub_mem (s : State) (h : Nat) (f : Hub → Hub) : (s.modHub h f).mem = s.mem := rfl
@[simp] theorem State.modHub_poison (s : State) (h : Nat) (f : Hub → Hub) : (s.modHub h f).poison = s.poison := rfl
@[simp] theorem State.modHub_staged (s : State) (h : Nat) (f : Hub → Hub) : (s.modHub h f).staged = s.staged := rfl
@[simp] theorem State.modHub_l2 (s : State) (h : Nat) (f : Hub → Hub) : (s.modHub h f).l2 = s.l2 := rfl
@[simp] theorem State.modHub_l2Waits (s : State) (h : Nat) (f : Hub → Hub) : (s.modHub h f).l2Waits = s.l2Waits := rfl
@[simp] theorem State.modHub_rotations (s : State) (h : Nat) (f : Hub → Hub) : (s.modHub h f).rotations = s.rotations := rfl
@[simp] theorem State.modHub_conds (s : State) (h : Nat) (f : Hub → Hub) : (s.modHub h f).conds = s.conds := rfl
@[simp] theorem State.modHub_queueWaits (s : State) (h : Nat) (f : Hub → Hub) : (s.modHub h f).queueWaits = s.queueWaits := rfl
@[simp] theorem State.modHub_tableWaits (s : State) (h : Nat) (f : Hub → Hub) : (s.modHub h f).tableWaits = s.tableWaits := rfl
@[simp] theorem State.modHub_held (s : State) (h : Nat) (f : Hub → Hub) : (s.modHub h f).held = s.held := rfl
@[simp] theorem State.modHub_launches (s : State) (h : Nat) (f : Hub → Hub) : (s.modHub h f).launches = s.launches := rfl
@[simp] theorem State.modHub_teams (s : State) (h : Nat) (f : Hub → Hub) : (s.modHub h f).teams = s.teams := rfl
@[simp] theorem State.modHub_saved (s : State) (h : Nat) (f : Hub → Hub) : (s.modHub h f).saved = s.saved := rfl
@[simp] theorem State.modHub_peerLeases (s : State) (h : Nat) (f : Hub → Hub) : (s.modHub h f).peerLeases = s.peerLeases := rfl
@[simp] theorem State.modHub_cores (s : State) (h : Nat) (f : Hub → Hub) : (s.modHub h f).cores = s.cores := rfl
@[simp] theorem State.modHub_parts (s : State) (h : Nat) (f : Hub → Hub) : (s.modHub h f).parts = s.parts := rfl
@[simp] theorem State.modHub_harts (s : State) (h : Nat) (f : Hub → Hub) : (s.modHub h f).harts = s.harts := rfl
@[simp] theorem State.modHub_places (s : State) (h : Nat) (f : Hub → Hub) : (s.modHub h f).places = s.places := rfl
@[simp] theorem State.modHub_taken (s : State) (h : Nat) (f : Hub → Hub) : (s.modHub h f).taken = s.taken := rfl
@[simp] theorem State.modHub_owners (s : State) (h : Nat) (f : Hub → Hub) : (s.modHub h f).owners = s.owners := rfl
@[simp] theorem State.modHub_ownerSince (s : State) (h : Nat) (f : Hub → Hub) : (s.modHub h f).ownerSince = s.ownerSince := rfl
@[simp] theorem State.modHub_handovers (s : State) (h : Nat) (f : Hub → Hub) : (s.modHub h f).handovers = s.handovers := rfl
@[simp] theorem State.modHub_pinOps (s : State) (h : Nat) (f : Hub → Hub) : (s.modHub h f).pinOps = s.pinOps := rfl
@[simp] theorem State.modHub_reductions (s : State) (h : Nat) (f : Hub → Hub) : (s.modHub h f).reductions = s.reductions := rfl
@[simp] theorem State.modHub_poolOps (s : State) (h : Nat) (f : Hub → Hub) : (s.modHub h f).poolOps = s.poolOps := rfl
@[simp] theorem State.modHub_poolMember (s : State) (h : Nat) (f : Hub → Hub) : (s.modHub h f).poolMember = s.poolMember := rfl
@[simp] theorem State.modHub_poolPresent (s : State) (h : Nat) (f : Hub → Hub) : (s.modHub h f).poolPresent = s.poolPresent := rfl
@[simp] theorem State.modHub_ballots (s : State) (h : Nat) (f : Hub → Hub) : (s.modHub h f).ballots = s.ballots := rfl
@[simp] theorem State.modHub_ballotCalls (s : State) (h : Nat) (f : Hub → Hub) : (s.modHub h f).ballotCalls = s.ballotCalls := rfl
@[simp] theorem State.modHub_stations (s : State) (h : Nat) (f : Hub → Hub) : (s.modHub h f).stations = s.stations := rfl
@[simp] theorem State.modHub_ports (s : State) (h : Nat) (f : Hub → Hub) : (s.modHub h f).ports = s.ports := rfl
@[simp] theorem State.modHub_sendSeq (s : State) (h : Nat) (f : Hub → Hub) : (s.modHub h f).sendSeq = s.sendSeq := rfl
@[simp] theorem State.modHub_recvSeq (s : State) (h : Nat) (f : Hub → Hub) : (s.modHub h f).recvSeq = s.recvSeq := rfl
@[simp] theorem State.modHub_unacked (s : State) (h : Nat) (f : Hub → Hub) : (s.modHub h f).unacked = s.unacked := rfl
@[simp] theorem State.modHub_outbox (s : State) (h : Nat) (f : Hub → Hub) : (s.modHub h f).outbox = s.outbox := rfl
@[simp] theorem State.modHub_sends (s : State) (h : Nat) (f : Hub → Hub) : (s.modHub h f).sends = s.sends := rfl
@[simp] theorem State.modHub_outs (s : State) (h : Nat) (f : Hub → Hub) : (s.modHub h f).outs = s.outs := rfl
@[simp] theorem State.modHub_delivered (s : State) (h : Nat) (f : Hub → Hub) : (s.modHub h f).delivered = s.delivered := rfl
@[simp] theorem State.modHub_waitroom (s : State) (h : Nat) (f : Hub → Hub) : (s.modHub h f).waitroom = s.waitroom := rfl
@[simp] theorem State.modHub_pkgid (s : State) (h : Nat) (f : Hub → Hub) : (s.modHub h f).pkgid = s.pkgid := rfl
@[simp] theorem State.modHub_leader (s : State) (h : Nat) (f : Hub → Hub) : (s.modHub h f).leader = s.leader := rfl
@[simp] theorem State.modHub_ready (s : State) (h : Nat) (f : Hub → Hub) : (s.modHub h f).ready = s.ready := rfl
@[simp] theorem State.modHub_cfgseq (s : State) (h : Nat) (f : Hub → Hub) : (s.modHub h f).cfgseq = s.cfgseq := rfl
@[simp] theorem State.modHub_mapbase (s : State) (h : Nat) (f : Hub → Hub) : (s.modHub h f).mapbase = s.mapbase := rfl
@[simp] theorem State.modHub_throt (s : State) (h : Nat) (f : Hub → Hub) : (s.modHub h f).throt = s.throt := rfl
@[simp] theorem State.modHub_devid (s : State) (h : Nat) (f : Hub → Hub) : (s.modHub h f).devid = s.devid := rfl
@[simp] theorem State.modHub_replace (s : State) (h : Nat) (f : Hub → Hub) : (s.modHub h f).replace = s.replace := rfl
@[simp] theorem State.modHub_keyrot (s : State) (h : Nat) (f : Hub → Hub) : (s.modHub h f).keyrot = s.keyrot := rfl
@[simp] theorem State.modHub_attreq (s : State) (h : Nat) (f : Hub → Hub) : (s.modHub h f).attreq = s.attreq := rfl
@[simp] theorem State.modHub_scrubq (s : State) (h : Nat) (f : Hub → Hub) : (s.modHub h f).scrubq = s.scrubq := rfl
@[simp] theorem State.modHub_errlogBase (s : State) (h : Nat) (f : Hub → Hub) : (s.modHub h f).errlogBase = s.errlogBase := rfl
@[simp] theorem State.modHub_svcslot (s : State) (h : Nat) (f : Hub → Hub) : (s.modHub h f).svcslot = s.svcslot := rfl
@[simp] theorem State.modHub_svcQuantum (s : State) (h : Nat) (f : Hub → Hub) : (s.modHub h f).svcQuantum = s.svcQuantum := rfl
@[simp] theorem State.modHub_svcRemoved (s : State) (h : Nat) (f : Hub → Hub) : (s.modHub h f).svcRemoved = s.svcRemoved := rfl
@[simp] theorem State.modHub_pairs (s : State) (h : Nat) (f : Hub → Hub) : (s.modHub h f).pairs = s.pairs := rfl
@[simp] theorem State.modHub_power (s : State) (h : Nat) (f : Hub → Hub) : (s.modHub h f).power = s.power := rfl
@[simp] theorem State.modHub_flash (s : State) (h : Nat) (f : Hub → Hub) : (s.modHub h f).flash = s.flash := rfl
@[simp] theorem State.modHub_fuses (s : State) (h : Nat) (f : Hub → Hub) : (s.modHub h f).fuses = s.fuses := rfl
@[simp] theorem State.modHub_images (s : State) (h : Nat) (f : Hub → Hub) : (s.modHub h f).images = s.images := rfl
@[simp] theorem State.modHub_errlog (s : State) (h : Nat) (f : Hub → Hub) : (s.modHub h f).errlog = s.errlog := rfl
@[simp] theorem State.modHub_keys (s : State) (h : Nat) (f : Hub → Hub) : (s.modHub h f).keys = s.keys := rfl

/-! ### modHart -/

@[simp] theorem State.modHart_now (s : State) (h : Nat) (f : Hart → Hart) : (s.modHart h f).now = s.now := rfl
@[simp] theorem State.modHart_turn (s : State) (h : Nat) (f : Hart → Hart) : (s.modHart h f).turn = s.turn := rfl
@[simp] theorem State.modHart_cur (s : State) (h : Nat) (f : Hart → Hart) : (s.modHart h f).cur = s.cur := rfl
@[simp] theorem State.modHart_event (s : State) (h : Nat) (f : Hart → Hart) : (s.modHart h f).event = s.event := rfl
@[simp] theorem State.modHart_agenda (s : State) (h : Nat) (f : Hart → Hart) : (s.modHart h f).agenda = s.agenda := rfl
@[simp] theorem State.modHart_freeCount (s : State) (h : Nat) (f : Hart → Hart) : (s.modHart h f).freeCount = s.freeCount := rfl
@[simp] theorem State.modHart_order (s : State) (h : Nat) (f : Hart → Hart) : (s.modHart h f).order = s.order := rfl
@[simp] theorem State.modHart_mem (s : State) (h : Nat) (f : Hart → Hart) : (s.modHart h f).mem = s.mem := rfl
@[simp] theorem State.modHart_poison (s : State) (h : Nat) (f : Hart → Hart) : (s.modHart h f).poison = s.poison := rfl
@[simp] theorem State.modHart_staged (s : State) (h : Nat) (f : Hart → Hart) : (s.modHart h f).staged = s.staged := rfl
@[simp] theorem State.modHart_l2 (s : State) (h : Nat) (f : Hart → Hart) : (s.modHart h f).l2 = s.l2 := rfl
@[simp] theorem State.modHart_l2Waits (s : State) (h : Nat) (f : Hart → Hart) : (s.modHart h f).l2Waits = s.l2Waits := rfl
@[simp] theorem State.modHart_rotations (s : State) (h : Nat) (f : Hart → Hart) : (s.modHart h f).rotations = s.rotations := rfl
@[simp] theorem State.modHart_conds (s : State) (h : Nat) (f : Hart → Hart) : (s.modHart h f).conds = s.conds := rfl
@[simp] theorem State.modHart_queueWaits (s : State) (h : Nat) (f : Hart → Hart) : (s.modHart h f).queueWaits = s.queueWaits := rfl
@[simp] theorem State.modHart_tableWaits (s : State) (h : Nat) (f : Hart → Hart) : (s.modHart h f).tableWaits = s.tableWaits := rfl
@[simp] theorem State.modHart_held (s : State) (h : Nat) (f : Hart → Hart) : (s.modHart h f).held = s.held := rfl
@[simp] theorem State.modHart_launches (s : State) (h : Nat) (f : Hart → Hart) : (s.modHart h f).launches = s.launches := rfl
@[simp] theorem State.modHart_teams (s : State) (h : Nat) (f : Hart → Hart) : (s.modHart h f).teams = s.teams := rfl
@[simp] theorem State.modHart_saved (s : State) (h : Nat) (f : Hart → Hart) : (s.modHart h f).saved = s.saved := rfl
@[simp] theorem State.modHart_peerLeases (s : State) (h : Nat) (f : Hart → Hart) : (s.modHart h f).peerLeases = s.peerLeases := rfl
@[simp] theorem State.modHart_cores (s : State) (h : Nat) (f : Hart → Hart) : (s.modHart h f).cores = s.cores := rfl
@[simp] theorem State.modHart_parts (s : State) (h : Nat) (f : Hart → Hart) : (s.modHart h f).parts = s.parts := rfl
@[simp] theorem State.modHart_hubs (s : State) (h : Nat) (f : Hart → Hart) : (s.modHart h f).hubs = s.hubs := rfl
@[simp] theorem State.modHart_places (s : State) (h : Nat) (f : Hart → Hart) : (s.modHart h f).places = s.places := rfl
@[simp] theorem State.modHart_taken (s : State) (h : Nat) (f : Hart → Hart) : (s.modHart h f).taken = s.taken := rfl
@[simp] theorem State.modHart_owners (s : State) (h : Nat) (f : Hart → Hart) : (s.modHart h f).owners = s.owners := rfl
@[simp] theorem State.modHart_ownerSince (s : State) (h : Nat) (f : Hart → Hart) : (s.modHart h f).ownerSince = s.ownerSince := rfl
@[simp] theorem State.modHart_handovers (s : State) (h : Nat) (f : Hart → Hart) : (s.modHart h f).handovers = s.handovers := rfl
@[simp] theorem State.modHart_pinOps (s : State) (h : Nat) (f : Hart → Hart) : (s.modHart h f).pinOps = s.pinOps := rfl
@[simp] theorem State.modHart_reductions (s : State) (h : Nat) (f : Hart → Hart) : (s.modHart h f).reductions = s.reductions := rfl
@[simp] theorem State.modHart_poolOps (s : State) (h : Nat) (f : Hart → Hart) : (s.modHart h f).poolOps = s.poolOps := rfl
@[simp] theorem State.modHart_poolMember (s : State) (h : Nat) (f : Hart → Hart) : (s.modHart h f).poolMember = s.poolMember := rfl
@[simp] theorem State.modHart_poolPresent (s : State) (h : Nat) (f : Hart → Hart) : (s.modHart h f).poolPresent = s.poolPresent := rfl
@[simp] theorem State.modHart_ballots (s : State) (h : Nat) (f : Hart → Hart) : (s.modHart h f).ballots = s.ballots := rfl
@[simp] theorem State.modHart_ballotCalls (s : State) (h : Nat) (f : Hart → Hart) : (s.modHart h f).ballotCalls = s.ballotCalls := rfl
@[simp] theorem State.modHart_stations (s : State) (h : Nat) (f : Hart → Hart) : (s.modHart h f).stations = s.stations := rfl
@[simp] theorem State.modHart_ports (s : State) (h : Nat) (f : Hart → Hart) : (s.modHart h f).ports = s.ports := rfl
@[simp] theorem State.modHart_sendSeq (s : State) (h : Nat) (f : Hart → Hart) : (s.modHart h f).sendSeq = s.sendSeq := rfl
@[simp] theorem State.modHart_recvSeq (s : State) (h : Nat) (f : Hart → Hart) : (s.modHart h f).recvSeq = s.recvSeq := rfl
@[simp] theorem State.modHart_unacked (s : State) (h : Nat) (f : Hart → Hart) : (s.modHart h f).unacked = s.unacked := rfl
@[simp] theorem State.modHart_outbox (s : State) (h : Nat) (f : Hart → Hart) : (s.modHart h f).outbox = s.outbox := rfl
@[simp] theorem State.modHart_sends (s : State) (h : Nat) (f : Hart → Hart) : (s.modHart h f).sends = s.sends := rfl
@[simp] theorem State.modHart_outs (s : State) (h : Nat) (f : Hart → Hart) : (s.modHart h f).outs = s.outs := rfl
@[simp] theorem State.modHart_delivered (s : State) (h : Nat) (f : Hart → Hart) : (s.modHart h f).delivered = s.delivered := rfl
@[simp] theorem State.modHart_waitroom (s : State) (h : Nat) (f : Hart → Hart) : (s.modHart h f).waitroom = s.waitroom := rfl
@[simp] theorem State.modHart_pkgid (s : State) (h : Nat) (f : Hart → Hart) : (s.modHart h f).pkgid = s.pkgid := rfl
@[simp] theorem State.modHart_leader (s : State) (h : Nat) (f : Hart → Hart) : (s.modHart h f).leader = s.leader := rfl
@[simp] theorem State.modHart_ready (s : State) (h : Nat) (f : Hart → Hart) : (s.modHart h f).ready = s.ready := rfl
@[simp] theorem State.modHart_cfgseq (s : State) (h : Nat) (f : Hart → Hart) : (s.modHart h f).cfgseq = s.cfgseq := rfl
@[simp] theorem State.modHart_mapbase (s : State) (h : Nat) (f : Hart → Hart) : (s.modHart h f).mapbase = s.mapbase := rfl
@[simp] theorem State.modHart_throt (s : State) (h : Nat) (f : Hart → Hart) : (s.modHart h f).throt = s.throt := rfl
@[simp] theorem State.modHart_devid (s : State) (h : Nat) (f : Hart → Hart) : (s.modHart h f).devid = s.devid := rfl
@[simp] theorem State.modHart_replace (s : State) (h : Nat) (f : Hart → Hart) : (s.modHart h f).replace = s.replace := rfl
@[simp] theorem State.modHart_keyrot (s : State) (h : Nat) (f : Hart → Hart) : (s.modHart h f).keyrot = s.keyrot := rfl
@[simp] theorem State.modHart_attreq (s : State) (h : Nat) (f : Hart → Hart) : (s.modHart h f).attreq = s.attreq := rfl
@[simp] theorem State.modHart_scrubq (s : State) (h : Nat) (f : Hart → Hart) : (s.modHart h f).scrubq = s.scrubq := rfl
@[simp] theorem State.modHart_errlogBase (s : State) (h : Nat) (f : Hart → Hart) : (s.modHart h f).errlogBase = s.errlogBase := rfl
@[simp] theorem State.modHart_svcslot (s : State) (h : Nat) (f : Hart → Hart) : (s.modHart h f).svcslot = s.svcslot := rfl
@[simp] theorem State.modHart_svcQuantum (s : State) (h : Nat) (f : Hart → Hart) : (s.modHart h f).svcQuantum = s.svcQuantum := rfl
@[simp] theorem State.modHart_svcRemoved (s : State) (h : Nat) (f : Hart → Hart) : (s.modHart h f).svcRemoved = s.svcRemoved := rfl
@[simp] theorem State.modHart_pairs (s : State) (h : Nat) (f : Hart → Hart) : (s.modHart h f).pairs = s.pairs := rfl
@[simp] theorem State.modHart_power (s : State) (h : Nat) (f : Hart → Hart) : (s.modHart h f).power = s.power := rfl
@[simp] theorem State.modHart_flash (s : State) (h : Nat) (f : Hart → Hart) : (s.modHart h f).flash = s.flash := rfl
@[simp] theorem State.modHart_fuses (s : State) (h : Nat) (f : Hart → Hart) : (s.modHart h f).fuses = s.fuses := rfl
@[simp] theorem State.modHart_images (s : State) (h : Nat) (f : Hart → Hart) : (s.modHart h f).images = s.images := rfl
@[simp] theorem State.modHart_errlog (s : State) (h : Nat) (f : Hart → Hart) : (s.modHart h f).errlog = s.errlog := rfl
@[simp] theorem State.modHart_keys (s : State) (h : Nat) (f : Hart → Hart) : (s.modHart h f).keys = s.keys := rfl

/-! ### modLaunch -/

@[simp] theorem State.modLaunch_now (s : State) (l : Nat) (f : Launch → Launch) : (s.modLaunch l f).now = s.now := rfl
@[simp] theorem State.modLaunch_turn (s : State) (l : Nat) (f : Launch → Launch) : (s.modLaunch l f).turn = s.turn := rfl
@[simp] theorem State.modLaunch_cur (s : State) (l : Nat) (f : Launch → Launch) : (s.modLaunch l f).cur = s.cur := rfl
@[simp] theorem State.modLaunch_event (s : State) (l : Nat) (f : Launch → Launch) : (s.modLaunch l f).event = s.event := rfl
@[simp] theorem State.modLaunch_agenda (s : State) (l : Nat) (f : Launch → Launch) : (s.modLaunch l f).agenda = s.agenda := rfl
@[simp] theorem State.modLaunch_freeCount (s : State) (l : Nat) (f : Launch → Launch) : (s.modLaunch l f).freeCount = s.freeCount := rfl
@[simp] theorem State.modLaunch_order (s : State) (l : Nat) (f : Launch → Launch) : (s.modLaunch l f).order = s.order := rfl
@[simp] theorem State.modLaunch_mem (s : State) (l : Nat) (f : Launch → Launch) : (s.modLaunch l f).mem = s.mem := rfl
@[simp] theorem State.modLaunch_poison (s : State) (l : Nat) (f : Launch → Launch) : (s.modLaunch l f).poison = s.poison := rfl
@[simp] theorem State.modLaunch_staged (s : State) (l : Nat) (f : Launch → Launch) : (s.modLaunch l f).staged = s.staged := rfl
@[simp] theorem State.modLaunch_l2 (s : State) (l : Nat) (f : Launch → Launch) : (s.modLaunch l f).l2 = s.l2 := rfl
@[simp] theorem State.modLaunch_l2Waits (s : State) (l : Nat) (f : Launch → Launch) : (s.modLaunch l f).l2Waits = s.l2Waits := rfl
@[simp] theorem State.modLaunch_rotations (s : State) (l : Nat) (f : Launch → Launch) : (s.modLaunch l f).rotations = s.rotations := rfl
@[simp] theorem State.modLaunch_conds (s : State) (l : Nat) (f : Launch → Launch) : (s.modLaunch l f).conds = s.conds := rfl
@[simp] theorem State.modLaunch_queueWaits (s : State) (l : Nat) (f : Launch → Launch) : (s.modLaunch l f).queueWaits = s.queueWaits := rfl
@[simp] theorem State.modLaunch_tableWaits (s : State) (l : Nat) (f : Launch → Launch) : (s.modLaunch l f).tableWaits = s.tableWaits := rfl
@[simp] theorem State.modLaunch_held (s : State) (l : Nat) (f : Launch → Launch) : (s.modLaunch l f).held = s.held := rfl
@[simp] theorem State.modLaunch_teams (s : State) (l : Nat) (f : Launch → Launch) : (s.modLaunch l f).teams = s.teams := rfl
@[simp] theorem State.modLaunch_saved (s : State) (l : Nat) (f : Launch → Launch) : (s.modLaunch l f).saved = s.saved := rfl
@[simp] theorem State.modLaunch_peerLeases (s : State) (l : Nat) (f : Launch → Launch) : (s.modLaunch l f).peerLeases = s.peerLeases := rfl
@[simp] theorem State.modLaunch_cores (s : State) (l : Nat) (f : Launch → Launch) : (s.modLaunch l f).cores = s.cores := rfl
@[simp] theorem State.modLaunch_parts (s : State) (l : Nat) (f : Launch → Launch) : (s.modLaunch l f).parts = s.parts := rfl
@[simp] theorem State.modLaunch_hubs (s : State) (l : Nat) (f : Launch → Launch) : (s.modLaunch l f).hubs = s.hubs := rfl
@[simp] theorem State.modLaunch_harts (s : State) (l : Nat) (f : Launch → Launch) : (s.modLaunch l f).harts = s.harts := rfl
@[simp] theorem State.modLaunch_places (s : State) (l : Nat) (f : Launch → Launch) : (s.modLaunch l f).places = s.places := rfl
@[simp] theorem State.modLaunch_taken (s : State) (l : Nat) (f : Launch → Launch) : (s.modLaunch l f).taken = s.taken := rfl
@[simp] theorem State.modLaunch_owners (s : State) (l : Nat) (f : Launch → Launch) : (s.modLaunch l f).owners = s.owners := rfl
@[simp] theorem State.modLaunch_ownerSince (s : State) (l : Nat) (f : Launch → Launch) : (s.modLaunch l f).ownerSince = s.ownerSince := rfl
@[simp] theorem State.modLaunch_handovers (s : State) (l : Nat) (f : Launch → Launch) : (s.modLaunch l f).handovers = s.handovers := rfl
@[simp] theorem State.modLaunch_pinOps (s : State) (l : Nat) (f : Launch → Launch) : (s.modLaunch l f).pinOps = s.pinOps := rfl
@[simp] theorem State.modLaunch_reductions (s : State) (l : Nat) (f : Launch → Launch) : (s.modLaunch l f).reductions = s.reductions := rfl
@[simp] theorem State.modLaunch_poolOps (s : State) (l : Nat) (f : Launch → Launch) : (s.modLaunch l f).poolOps = s.poolOps := rfl
@[simp] theorem State.modLaunch_poolMember (s : State) (l : Nat) (f : Launch → Launch) : (s.modLaunch l f).poolMember = s.poolMember := rfl
@[simp] theorem State.modLaunch_poolPresent (s : State) (l : Nat) (f : Launch → Launch) : (s.modLaunch l f).poolPresent = s.poolPresent := rfl
@[simp] theorem State.modLaunch_ballots (s : State) (l : Nat) (f : Launch → Launch) : (s.modLaunch l f).ballots = s.ballots := rfl
@[simp] theorem State.modLaunch_ballotCalls (s : State) (l : Nat) (f : Launch → Launch) : (s.modLaunch l f).ballotCalls = s.ballotCalls := rfl
@[simp] theorem State.modLaunch_stations (s : State) (l : Nat) (f : Launch → Launch) : (s.modLaunch l f).stations = s.stations := rfl
@[simp] theorem State.modLaunch_ports (s : State) (l : Nat) (f : Launch → Launch) : (s.modLaunch l f).ports = s.ports := rfl
@[simp] theorem State.modLaunch_sendSeq (s : State) (l : Nat) (f : Launch → Launch) : (s.modLaunch l f).sendSeq = s.sendSeq := rfl
@[simp] theorem State.modLaunch_recvSeq (s : State) (l : Nat) (f : Launch → Launch) : (s.modLaunch l f).recvSeq = s.recvSeq := rfl
@[simp] theorem State.modLaunch_unacked (s : State) (l : Nat) (f : Launch → Launch) : (s.modLaunch l f).unacked = s.unacked := rfl
@[simp] theorem State.modLaunch_outbox (s : State) (l : Nat) (f : Launch → Launch) : (s.modLaunch l f).outbox = s.outbox := rfl
@[simp] theorem State.modLaunch_sends (s : State) (l : Nat) (f : Launch → Launch) : (s.modLaunch l f).sends = s.sends := rfl
@[simp] theorem State.modLaunch_outs (s : State) (l : Nat) (f : Launch → Launch) : (s.modLaunch l f).outs = s.outs := rfl
@[simp] theorem State.modLaunch_delivered (s : State) (l : Nat) (f : Launch → Launch) : (s.modLaunch l f).delivered = s.delivered := rfl
@[simp] theorem State.modLaunch_waitroom (s : State) (l : Nat) (f : Launch → Launch) : (s.modLaunch l f).waitroom = s.waitroom := rfl
@[simp] theorem State.modLaunch_pkgid (s : State) (l : Nat) (f : Launch → Launch) : (s.modLaunch l f).pkgid = s.pkgid := rfl
@[simp] theorem State.modLaunch_leader (s : State) (l : Nat) (f : Launch → Launch) : (s.modLaunch l f).leader = s.leader := rfl
@[simp] theorem State.modLaunch_ready (s : State) (l : Nat) (f : Launch → Launch) : (s.modLaunch l f).ready = s.ready := rfl
@[simp] theorem State.modLaunch_cfgseq (s : State) (l : Nat) (f : Launch → Launch) : (s.modLaunch l f).cfgseq = s.cfgseq := rfl
@[simp] theorem State.modLaunch_mapbase (s : State) (l : Nat) (f : Launch → Launch) : (s.modLaunch l f).mapbase = s.mapbase := rfl
@[simp] theorem State.modLaunch_throt (s : State) (l : Nat) (f : Launch → Launch) : (s.modLaunch l f).throt = s.throt := rfl
@[simp] theorem State.modLaunch_devid (s : State) (l : Nat) (f : Launch → Launch) : (s.modLaunch l f).devid = s.devid := rfl
@[simp] theorem State.modLaunch_replace (s : State) (l : Nat) (f : Launch → Launch) : (s.modLaunch l f).replace = s.replace := rfl
@[simp] theorem State.modLaunch_keyrot (s : State) (l : Nat) (f : Launch → Launch) : (s.modLaunch l f).keyrot = s.keyrot := rfl
@[simp] theorem State.modLaunch_attreq (s : State) (l : Nat) (f : Launch → Launch) : (s.modLaunch l f).attreq = s.attreq := rfl
@[simp] theorem State.modLaunch_scrubq (s : State) (l : Nat) (f : Launch → Launch) : (s.modLaunch l f).scrubq = s.scrubq := rfl
@[simp] theorem State.modLaunch_errlogBase (s : State) (l : Nat) (f : Launch → Launch) : (s.modLaunch l f).errlogBase = s.errlogBase := rfl
@[simp] theorem State.modLaunch_svcslot (s : State) (l : Nat) (f : Launch → Launch) : (s.modLaunch l f).svcslot = s.svcslot := rfl
@[simp] theorem State.modLaunch_svcQuantum (s : State) (l : Nat) (f : Launch → Launch) : (s.modLaunch l f).svcQuantum = s.svcQuantum := rfl
@[simp] theorem State.modLaunch_svcRemoved (s : State) (l : Nat) (f : Launch → Launch) : (s.modLaunch l f).svcRemoved = s.svcRemoved := rfl
@[simp] theorem State.modLaunch_pairs (s : State) (l : Nat) (f : Launch → Launch) : (s.modLaunch l f).pairs = s.pairs := rfl
@[simp] theorem State.modLaunch_power (s : State) (l : Nat) (f : Launch → Launch) : (s.modLaunch l f).power = s.power := rfl
@[simp] theorem State.modLaunch_flash (s : State) (l : Nat) (f : Launch → Launch) : (s.modLaunch l f).flash = s.flash := rfl
@[simp] theorem State.modLaunch_fuses (s : State) (l : Nat) (f : Launch → Launch) : (s.modLaunch l f).fuses = s.fuses := rfl
@[simp] theorem State.modLaunch_images (s : State) (l : Nat) (f : Launch → Launch) : (s.modLaunch l f).images = s.images := rfl
@[simp] theorem State.modLaunch_errlog (s : State) (l : Nat) (f : Launch → Launch) : (s.modLaunch l f).errlog = s.errlog := rfl
@[simp] theorem State.modLaunch_keys (s : State) (l : Nat) (f : Launch → Launch) : (s.modLaunch l f).keys = s.keys := rfl

/-! ### modTeam -/

@[simp] theorem State.modTeam_now (s : State) (l i : Nat) (f : Team → Team) : (s.modTeam l i f).now = s.now := rfl
@[simp] theorem State.modTeam_turn (s : State) (l i : Nat) (f : Team → Team) : (s.modTeam l i f).turn = s.turn := rfl
@[simp] theorem State.modTeam_cur (s : State) (l i : Nat) (f : Team → Team) : (s.modTeam l i f).cur = s.cur := rfl
@[simp] theorem State.modTeam_event (s : State) (l i : Nat) (f : Team → Team) : (s.modTeam l i f).event = s.event := rfl
@[simp] theorem State.modTeam_agenda (s : State) (l i : Nat) (f : Team → Team) : (s.modTeam l i f).agenda = s.agenda := rfl
@[simp] theorem State.modTeam_freeCount (s : State) (l i : Nat) (f : Team → Team) : (s.modTeam l i f).freeCount = s.freeCount := rfl
@[simp] theorem State.modTeam_order (s : State) (l i : Nat) (f : Team → Team) : (s.modTeam l i f).order = s.order := rfl
@[simp] theorem State.modTeam_mem (s : State) (l i : Nat) (f : Team → Team) : (s.modTeam l i f).mem = s.mem := rfl
@[simp] theorem State.modTeam_poison (s : State) (l i : Nat) (f : Team → Team) : (s.modTeam l i f).poison = s.poison := rfl
@[simp] theorem State.modTeam_staged (s : State) (l i : Nat) (f : Team → Team) : (s.modTeam l i f).staged = s.staged := rfl
@[simp] theorem State.modTeam_l2 (s : State) (l i : Nat) (f : Team → Team) : (s.modTeam l i f).l2 = s.l2 := rfl
@[simp] theorem State.modTeam_l2Waits (s : State) (l i : Nat) (f : Team → Team) : (s.modTeam l i f).l2Waits = s.l2Waits := rfl
@[simp] theorem State.modTeam_rotations (s : State) (l i : Nat) (f : Team → Team) : (s.modTeam l i f).rotations = s.rotations := rfl
@[simp] theorem State.modTeam_conds (s : State) (l i : Nat) (f : Team → Team) : (s.modTeam l i f).conds = s.conds := rfl
@[simp] theorem State.modTeam_queueWaits (s : State) (l i : Nat) (f : Team → Team) : (s.modTeam l i f).queueWaits = s.queueWaits := rfl
@[simp] theorem State.modTeam_tableWaits (s : State) (l i : Nat) (f : Team → Team) : (s.modTeam l i f).tableWaits = s.tableWaits := rfl
@[simp] theorem State.modTeam_held (s : State) (l i : Nat) (f : Team → Team) : (s.modTeam l i f).held = s.held := rfl
@[simp] theorem State.modTeam_launches (s : State) (l i : Nat) (f : Team → Team) : (s.modTeam l i f).launches = s.launches := rfl
@[simp] theorem State.modTeam_saved (s : State) (l i : Nat) (f : Team → Team) : (s.modTeam l i f).saved = s.saved := rfl
@[simp] theorem State.modTeam_peerLeases (s : State) (l i : Nat) (f : Team → Team) : (s.modTeam l i f).peerLeases = s.peerLeases := rfl
@[simp] theorem State.modTeam_cores (s : State) (l i : Nat) (f : Team → Team) : (s.modTeam l i f).cores = s.cores := rfl
@[simp] theorem State.modTeam_parts (s : State) (l i : Nat) (f : Team → Team) : (s.modTeam l i f).parts = s.parts := rfl
@[simp] theorem State.modTeam_hubs (s : State) (l i : Nat) (f : Team → Team) : (s.modTeam l i f).hubs = s.hubs := rfl
@[simp] theorem State.modTeam_harts (s : State) (l i : Nat) (f : Team → Team) : (s.modTeam l i f).harts = s.harts := rfl
@[simp] theorem State.modTeam_places (s : State) (l i : Nat) (f : Team → Team) : (s.modTeam l i f).places = s.places := rfl
@[simp] theorem State.modTeam_taken (s : State) (l i : Nat) (f : Team → Team) : (s.modTeam l i f).taken = s.taken := rfl
@[simp] theorem State.modTeam_owners (s : State) (l i : Nat) (f : Team → Team) : (s.modTeam l i f).owners = s.owners := rfl
@[simp] theorem State.modTeam_ownerSince (s : State) (l i : Nat) (f : Team → Team) : (s.modTeam l i f).ownerSince = s.ownerSince := rfl
@[simp] theorem State.modTeam_handovers (s : State) (l i : Nat) (f : Team → Team) : (s.modTeam l i f).handovers = s.handovers := rfl
@[simp] theorem State.modTeam_pinOps (s : State) (l i : Nat) (f : Team → Team) : (s.modTeam l i f).pinOps = s.pinOps := rfl
@[simp] theorem State.modTeam_reductions (s : State) (l i : Nat) (f : Team → Team) : (s.modTeam l i f).reductions = s.reductions := rfl
@[simp] theorem State.modTeam_poolOps (s : State) (l i : Nat) (f : Team → Team) : (s.modTeam l i f).poolOps = s.poolOps := rfl
@[simp] theorem State.modTeam_poolMember (s : State) (l i : Nat) (f : Team → Team) : (s.modTeam l i f).poolMember = s.poolMember := rfl
@[simp] theorem State.modTeam_poolPresent (s : State) (l i : Nat) (f : Team → Team) : (s.modTeam l i f).poolPresent = s.poolPresent := rfl
@[simp] theorem State.modTeam_ballots (s : State) (l i : Nat) (f : Team → Team) : (s.modTeam l i f).ballots = s.ballots := rfl
@[simp] theorem State.modTeam_ballotCalls (s : State) (l i : Nat) (f : Team → Team) : (s.modTeam l i f).ballotCalls = s.ballotCalls := rfl
@[simp] theorem State.modTeam_stations (s : State) (l i : Nat) (f : Team → Team) : (s.modTeam l i f).stations = s.stations := rfl
@[simp] theorem State.modTeam_ports (s : State) (l i : Nat) (f : Team → Team) : (s.modTeam l i f).ports = s.ports := rfl
@[simp] theorem State.modTeam_sendSeq (s : State) (l i : Nat) (f : Team → Team) : (s.modTeam l i f).sendSeq = s.sendSeq := rfl
@[simp] theorem State.modTeam_recvSeq (s : State) (l i : Nat) (f : Team → Team) : (s.modTeam l i f).recvSeq = s.recvSeq := rfl
@[simp] theorem State.modTeam_unacked (s : State) (l i : Nat) (f : Team → Team) : (s.modTeam l i f).unacked = s.unacked := rfl
@[simp] theorem State.modTeam_outbox (s : State) (l i : Nat) (f : Team → Team) : (s.modTeam l i f).outbox = s.outbox := rfl
@[simp] theorem State.modTeam_sends (s : State) (l i : Nat) (f : Team → Team) : (s.modTeam l i f).sends = s.sends := rfl
@[simp] theorem State.modTeam_outs (s : State) (l i : Nat) (f : Team → Team) : (s.modTeam l i f).outs = s.outs := rfl
@[simp] theorem State.modTeam_delivered (s : State) (l i : Nat) (f : Team → Team) : (s.modTeam l i f).delivered = s.delivered := rfl
@[simp] theorem State.modTeam_waitroom (s : State) (l i : Nat) (f : Team → Team) : (s.modTeam l i f).waitroom = s.waitroom := rfl
@[simp] theorem State.modTeam_pkgid (s : State) (l i : Nat) (f : Team → Team) : (s.modTeam l i f).pkgid = s.pkgid := rfl
@[simp] theorem State.modTeam_leader (s : State) (l i : Nat) (f : Team → Team) : (s.modTeam l i f).leader = s.leader := rfl
@[simp] theorem State.modTeam_ready (s : State) (l i : Nat) (f : Team → Team) : (s.modTeam l i f).ready = s.ready := rfl
@[simp] theorem State.modTeam_cfgseq (s : State) (l i : Nat) (f : Team → Team) : (s.modTeam l i f).cfgseq = s.cfgseq := rfl
@[simp] theorem State.modTeam_mapbase (s : State) (l i : Nat) (f : Team → Team) : (s.modTeam l i f).mapbase = s.mapbase := rfl
@[simp] theorem State.modTeam_throt (s : State) (l i : Nat) (f : Team → Team) : (s.modTeam l i f).throt = s.throt := rfl
@[simp] theorem State.modTeam_devid (s : State) (l i : Nat) (f : Team → Team) : (s.modTeam l i f).devid = s.devid := rfl
@[simp] theorem State.modTeam_replace (s : State) (l i : Nat) (f : Team → Team) : (s.modTeam l i f).replace = s.replace := rfl
@[simp] theorem State.modTeam_keyrot (s : State) (l i : Nat) (f : Team → Team) : (s.modTeam l i f).keyrot = s.keyrot := rfl
@[simp] theorem State.modTeam_attreq (s : State) (l i : Nat) (f : Team → Team) : (s.modTeam l i f).attreq = s.attreq := rfl
@[simp] theorem State.modTeam_scrubq (s : State) (l i : Nat) (f : Team → Team) : (s.modTeam l i f).scrubq = s.scrubq := rfl
@[simp] theorem State.modTeam_errlogBase (s : State) (l i : Nat) (f : Team → Team) : (s.modTeam l i f).errlogBase = s.errlogBase := rfl
@[simp] theorem State.modTeam_svcslot (s : State) (l i : Nat) (f : Team → Team) : (s.modTeam l i f).svcslot = s.svcslot := rfl
@[simp] theorem State.modTeam_svcQuantum (s : State) (l i : Nat) (f : Team → Team) : (s.modTeam l i f).svcQuantum = s.svcQuantum := rfl
@[simp] theorem State.modTeam_svcRemoved (s : State) (l i : Nat) (f : Team → Team) : (s.modTeam l i f).svcRemoved = s.svcRemoved := rfl
@[simp] theorem State.modTeam_pairs (s : State) (l i : Nat) (f : Team → Team) : (s.modTeam l i f).pairs = s.pairs := rfl
@[simp] theorem State.modTeam_power (s : State) (l i : Nat) (f : Team → Team) : (s.modTeam l i f).power = s.power := rfl
@[simp] theorem State.modTeam_flash (s : State) (l i : Nat) (f : Team → Team) : (s.modTeam l i f).flash = s.flash := rfl
@[simp] theorem State.modTeam_fuses (s : State) (l i : Nat) (f : Team → Team) : (s.modTeam l i f).fuses = s.fuses := rfl
@[simp] theorem State.modTeam_images (s : State) (l i : Nat) (f : Team → Team) : (s.modTeam l i f).images = s.images := rfl
@[simp] theorem State.modTeam_errlog (s : State) (l i : Nat) (f : Team → Team) : (s.modTeam l i f).errlog = s.errlog := rfl
@[simp] theorem State.modTeam_keys (s : State) (l i : Nat) (f : Team → Team) : (s.modTeam l i f).keys = s.keys := rfl

/-! ### schedule -/

@[simp] theorem State.schedule_now (s : State) (d : Nat) (e : Event) : (s.schedule d e).now = s.now := rfl
@[simp] theorem State.schedule_turn (s : State) (d : Nat) (e : Event) : (s.schedule d e).turn = s.turn := rfl
@[simp] theorem State.schedule_cur (s : State) (d : Nat) (e : Event) : (s.schedule d e).cur = s.cur := rfl
@[simp] theorem State.schedule_event (s : State) (d : Nat) (e : Event) : (s.schedule d e).event = s.event := rfl
@[simp] theorem State.schedule_freeCount (s : State) (d : Nat) (e : Event) : (s.schedule d e).freeCount = s.freeCount := rfl
@[simp] theorem State.schedule_order (s : State) (d : Nat) (e : Event) : (s.schedule d e).order = s.order := rfl
@[simp] theorem State.schedule_mem (s : State) (d : Nat) (e : Event) : (s.schedule d e).mem = s.mem := rfl
@[simp] theorem State.schedule_poison (s : State) (d : Nat) (e : Event) : (s.schedule d e).poison = s.poison := rfl
@[simp] theorem State.schedule_staged (s : State) (d : Nat) (e : Event) : (s.schedule d e).staged = s.staged := rfl
@[simp] theorem State.schedule_l2 (s : State) (d : Nat) (e : Event) : (s.schedule d e).l2 = s.l2 := rfl
@[simp] theorem State.schedule_l2Waits (s : State) (d : Nat) (e : Event) : (s.schedule d e).l2Waits = s.l2Waits := rfl
@[simp] theorem State.schedule_rotations (s : State) (d : Nat) (e : Event) : (s.schedule d e).rotations = s.rotations := rfl
@[simp] theorem State.schedule_conds (s : State) (d : Nat) (e : Event) : (s.schedule d e).conds = s.conds := rfl
@[simp] theorem State.schedule_queueWaits (s : State) (d : Nat) (e : Event) : (s.schedule d e).queueWaits = s.queueWaits := rfl
@[simp] theorem State.schedule_tableWaits (s : State) (d : Nat) (e : Event) : (s.schedule d e).tableWaits = s.tableWaits := rfl
@[simp] theorem State.schedule_held (s : State) (d : Nat) (e : Event) : (s.schedule d e).held = s.held := rfl
@[simp] theorem State.schedule_launches (s : State) (d : Nat) (e : Event) : (s.schedule d e).launches = s.launches := rfl
@[simp] theorem State.schedule_teams (s : State) (d : Nat) (e : Event) : (s.schedule d e).teams = s.teams := rfl
@[simp] theorem State.schedule_saved (s : State) (d : Nat) (e : Event) : (s.schedule d e).saved = s.saved := rfl
@[simp] theorem State.schedule_peerLeases (s : State) (d : Nat) (e : Event) : (s.schedule d e).peerLeases = s.peerLeases := rfl
@[simp] theorem State.schedule_cores (s : State) (d : Nat) (e : Event) : (s.schedule d e).cores = s.cores := rfl
@[simp] theorem State.schedule_parts (s : State) (d : Nat) (e : Event) : (s.schedule d e).parts = s.parts := rfl
@[simp] theorem State.schedule_hubs (s : State) (d : Nat) (e : Event) : (s.schedule d e).hubs = s.hubs := rfl
@[simp] theorem State.schedule_harts (s : State) (d : Nat) (e : Event) : (s.schedule d e).harts = s.harts := rfl
@[simp] theorem State.schedule_places (s : State) (d : Nat) (e : Event) : (s.schedule d e).places = s.places := rfl
@[simp] theorem State.schedule_taken (s : State) (d : Nat) (e : Event) : (s.schedule d e).taken = s.taken := rfl
@[simp] theorem State.schedule_owners (s : State) (d : Nat) (e : Event) : (s.schedule d e).owners = s.owners := rfl
@[simp] theorem State.schedule_ownerSince (s : State) (d : Nat) (e : Event) : (s.schedule d e).ownerSince = s.ownerSince := rfl
@[simp] theorem State.schedule_handovers (s : State) (d : Nat) (e : Event) : (s.schedule d e).handovers = s.handovers := rfl
@[simp] theorem State.schedule_pinOps (s : State) (d : Nat) (e : Event) : (s.schedule d e).pinOps = s.pinOps := rfl
@[simp] theorem State.schedule_reductions (s : State) (d : Nat) (e : Event) : (s.schedule d e).reductions = s.reductions := rfl
@[simp] theorem State.schedule_poolOps (s : State) (d : Nat) (e : Event) : (s.schedule d e).poolOps = s.poolOps := rfl
@[simp] theorem State.schedule_poolMember (s : State) (d : Nat) (e : Event) : (s.schedule d e).poolMember = s.poolMember := rfl
@[simp] theorem State.schedule_poolPresent (s : State) (d : Nat) (e : Event) : (s.schedule d e).poolPresent = s.poolPresent := rfl
@[simp] theorem State.schedule_ballots (s : State) (d : Nat) (e : Event) : (s.schedule d e).ballots = s.ballots := rfl
@[simp] theorem State.schedule_ballotCalls (s : State) (d : Nat) (e : Event) : (s.schedule d e).ballotCalls = s.ballotCalls := rfl
@[simp] theorem State.schedule_stations (s : State) (d : Nat) (e : Event) : (s.schedule d e).stations = s.stations := rfl
@[simp] theorem State.schedule_ports (s : State) (d : Nat) (e : Event) : (s.schedule d e).ports = s.ports := rfl
@[simp] theorem State.schedule_sendSeq (s : State) (d : Nat) (e : Event) : (s.schedule d e).sendSeq = s.sendSeq := rfl
@[simp] theorem State.schedule_recvSeq (s : State) (d : Nat) (e : Event) : (s.schedule d e).recvSeq = s.recvSeq := rfl
@[simp] theorem State.schedule_unacked (s : State) (d : Nat) (e : Event) : (s.schedule d e).unacked = s.unacked := rfl
@[simp] theorem State.schedule_outbox (s : State) (d : Nat) (e : Event) : (s.schedule d e).outbox = s.outbox := rfl
@[simp] theorem State.schedule_sends (s : State) (d : Nat) (e : Event) : (s.schedule d e).sends = s.sends := rfl
@[simp] theorem State.schedule_outs (s : State) (d : Nat) (e : Event) : (s.schedule d e).outs = s.outs := rfl
@[simp] theorem State.schedule_delivered (s : State) (d : Nat) (e : Event) : (s.schedule d e).delivered = s.delivered := rfl
@[simp] theorem State.schedule_waitroom (s : State) (d : Nat) (e : Event) : (s.schedule d e).waitroom = s.waitroom := rfl
@[simp] theorem State.schedule_pkgid (s : State) (d : Nat) (e : Event) : (s.schedule d e).pkgid = s.pkgid := rfl
@[simp] theorem State.schedule_leader (s : State) (d : Nat) (e : Event) : (s.schedule d e).leader = s.leader := rfl
@[simp] theorem State.schedule_ready (s : State) (d : Nat) (e : Event) : (s.schedule d e).ready = s.ready := rfl
@[simp] theorem State.schedule_cfgseq (s : State) (d : Nat) (e : Event) : (s.schedule d e).cfgseq = s.cfgseq := rfl
@[simp] theorem State.schedule_mapbase (s : State) (d : Nat) (e : Event) : (s.schedule d e).mapbase = s.mapbase := rfl
@[simp] theorem State.schedule_throt (s : State) (d : Nat) (e : Event) : (s.schedule d e).throt = s.throt := rfl
@[simp] theorem State.schedule_devid (s : State) (d : Nat) (e : Event) : (s.schedule d e).devid = s.devid := rfl
@[simp] theorem State.schedule_replace (s : State) (d : Nat) (e : Event) : (s.schedule d e).replace = s.replace := rfl
@[simp] theorem State.schedule_keyrot (s : State) (d : Nat) (e : Event) : (s.schedule d e).keyrot = s.keyrot := rfl
@[simp] theorem State.schedule_attreq (s : State) (d : Nat) (e : Event) : (s.schedule d e).attreq = s.attreq := rfl
@[simp] theorem State.schedule_scrubq (s : State) (d : Nat) (e : Event) : (s.schedule d e).scrubq = s.scrubq := rfl
@[simp] theorem State.schedule_errlogBase (s : State) (d : Nat) (e : Event) : (s.schedule d e).errlogBase = s.errlogBase := rfl
@[simp] theorem State.schedule_svcslot (s : State) (d : Nat) (e : Event) : (s.schedule d e).svcslot = s.svcslot := rfl
@[simp] theorem State.schedule_svcQuantum (s : State) (d : Nat) (e : Event) : (s.schedule d e).svcQuantum = s.svcQuantum := rfl
@[simp] theorem State.schedule_svcRemoved (s : State) (d : Nat) (e : Event) : (s.schedule d e).svcRemoved = s.svcRemoved := rfl
@[simp] theorem State.schedule_pairs (s : State) (d : Nat) (e : Event) : (s.schedule d e).pairs = s.pairs := rfl
@[simp] theorem State.schedule_power (s : State) (d : Nat) (e : Event) : (s.schedule d e).power = s.power := rfl
@[simp] theorem State.schedule_flash (s : State) (d : Nat) (e : Event) : (s.schedule d e).flash = s.flash := rfl
@[simp] theorem State.schedule_fuses (s : State) (d : Nat) (e : Event) : (s.schedule d e).fuses = s.fuses := rfl
@[simp] theorem State.schedule_images (s : State) (d : Nat) (e : Event) : (s.schedule d e).images = s.images := rfl
@[simp] theorem State.schedule_errlog (s : State) (d : Nat) (e : Event) : (s.schedule d e).errlog = s.errlog := rfl
@[simp] theorem State.schedule_keys (s : State) (d : Nat) (e : Event) : (s.schedule d e).keys = s.keys := rfl

/-! ### scheduleOnce -/

@[simp] theorem State.scheduleOnce_now (s : State) (d : Nat) (e : Event) : (s.scheduleOnce d e).now = s.now := by
  unfold State.scheduleOnce; split <;> rfl
@[simp] theorem State.scheduleOnce_turn (s : State) (d : Nat) (e : Event) : (s.scheduleOnce d e).turn = s.turn := by
  unfold State.scheduleOnce; split <;> rfl
@[simp] theorem State.scheduleOnce_cur (s : State) (d : Nat) (e : Event) : (s.scheduleOnce d e).cur = s.cur := by
  unfold State.scheduleOnce; split <;> rfl
@[simp] theorem State.scheduleOnce_event (s : State) (d : Nat) (e : Event) : (s.scheduleOnce d e).event = s.event := by
  unfold State.scheduleOnce; split <;> rfl
@[simp] theorem State.scheduleOnce_freeCount (s : State) (d : Nat) (e : Event) : (s.scheduleOnce d e).freeCount = s.freeCount := by
  unfold State.scheduleOnce; split <;> rfl
@[simp] theorem State.scheduleOnce_order (s : State) (d : Nat) (e : Event) : (s.scheduleOnce d e).order = s.order := by
  unfold State.scheduleOnce; split <;> rfl
@[simp] theorem State.scheduleOnce_mem (s : State) (d : Nat) (e : Event) : (s.scheduleOnce d e).mem = s.mem := by
  unfold State.scheduleOnce; split <;> rfl
@[simp] theorem State.scheduleOnce_poison (s : State) (d : Nat) (e : Event) : (s.scheduleOnce d e).poison = s.poison := by
  unfold State.scheduleOnce; split <;> rfl
@[simp] theorem State.scheduleOnce_staged (s : State) (d : Nat) (e : Event) : (s.scheduleOnce d e).staged = s.staged := by
  unfold State.scheduleOnce; split <;> rfl
@[simp] theorem State.scheduleOnce_l2 (s : State) (d : Nat) (e : Event) : (s.scheduleOnce d e).l2 = s.l2 := by
  unfold State.scheduleOnce; split <;> rfl
@[simp] theorem State.scheduleOnce_l2Waits (s : State) (d : Nat) (e : Event) : (s.scheduleOnce d e).l2Waits = s.l2Waits := by
  unfold State.scheduleOnce; split <;> rfl
@[simp] theorem State.scheduleOnce_rotations (s : State) (d : Nat) (e : Event) : (s.scheduleOnce d e).rotations = s.rotations := by
  unfold State.scheduleOnce; split <;> rfl
@[simp] theorem State.scheduleOnce_conds (s : State) (d : Nat) (e : Event) : (s.scheduleOnce d e).conds = s.conds := by
  unfold State.scheduleOnce; split <;> rfl
@[simp] theorem State.scheduleOnce_queueWaits (s : State) (d : Nat) (e : Event) : (s.scheduleOnce d e).queueWaits = s.queueWaits := by
  unfold State.scheduleOnce; split <;> rfl
@[simp] theorem State.scheduleOnce_tableWaits (s : State) (d : Nat) (e : Event) : (s.scheduleOnce d e).tableWaits = s.tableWaits := by
  unfold State.scheduleOnce; split <;> rfl
@[simp] theorem State.scheduleOnce_held (s : State) (d : Nat) (e : Event) : (s.scheduleOnce d e).held = s.held := by
  unfold State.scheduleOnce; split <;> rfl
@[simp] theorem State.scheduleOnce_launches (s : State) (d : Nat) (e : Event) : (s.scheduleOnce d e).launches = s.launches := by
  unfold State.scheduleOnce; split <;> rfl
@[simp] theorem State.scheduleOnce_teams (s : State) (d : Nat) (e : Event) : (s.scheduleOnce d e).teams = s.teams := by
  unfold State.scheduleOnce; split <;> rfl
@[simp] theorem State.scheduleOnce_saved (s : State) (d : Nat) (e : Event) : (s.scheduleOnce d e).saved = s.saved := by
  unfold State.scheduleOnce; split <;> rfl
@[simp] theorem State.scheduleOnce_peerLeases (s : State) (d : Nat) (e : Event) : (s.scheduleOnce d e).peerLeases = s.peerLeases := by
  unfold State.scheduleOnce; split <;> rfl
@[simp] theorem State.scheduleOnce_cores (s : State) (d : Nat) (e : Event) : (s.scheduleOnce d e).cores = s.cores := by
  unfold State.scheduleOnce; split <;> rfl
@[simp] theorem State.scheduleOnce_parts (s : State) (d : Nat) (e : Event) : (s.scheduleOnce d e).parts = s.parts := by
  unfold State.scheduleOnce; split <;> rfl
@[simp] theorem State.scheduleOnce_hubs (s : State) (d : Nat) (e : Event) : (s.scheduleOnce d e).hubs = s.hubs := by
  unfold State.scheduleOnce; split <;> rfl
@[simp] theorem State.scheduleOnce_harts (s : State) (d : Nat) (e : Event) : (s.scheduleOnce d e).harts = s.harts := by
  unfold State.scheduleOnce; split <;> rfl
@[simp] theorem State.scheduleOnce_places (s : State) (d : Nat) (e : Event) : (s.scheduleOnce d e).places = s.places := by
  unfold State.scheduleOnce; split <;> rfl
@[simp] theorem State.scheduleOnce_taken (s : State) (d : Nat) (e : Event) : (s.scheduleOnce d e).taken = s.taken := by
  unfold State.scheduleOnce; split <;> rfl
@[simp] theorem State.scheduleOnce_owners (s : State) (d : Nat) (e : Event) : (s.scheduleOnce d e).owners = s.owners := by
  unfold State.scheduleOnce; split <;> rfl
@[simp] theorem State.scheduleOnce_ownerSince (s : State) (d : Nat) (e : Event) : (s.scheduleOnce d e).ownerSince = s.ownerSince := by
  unfold State.scheduleOnce; split <;> rfl
@[simp] theorem State.scheduleOnce_handovers (s : State) (d : Nat) (e : Event) : (s.scheduleOnce d e).handovers = s.handovers := by
  unfold State.scheduleOnce; split <;> rfl
@[simp] theorem State.scheduleOnce_pinOps (s : State) (d : Nat) (e : Event) : (s.scheduleOnce d e).pinOps = s.pinOps := by
  unfold State.scheduleOnce; split <;> rfl
@[simp] theorem State.scheduleOnce_reductions (s : State) (d : Nat) (e : Event) : (s.scheduleOnce d e).reductions = s.reductions := by
  unfold State.scheduleOnce; split <;> rfl
@[simp] theorem State.scheduleOnce_poolOps (s : State) (d : Nat) (e : Event) : (s.scheduleOnce d e).poolOps = s.poolOps := by
  unfold State.scheduleOnce; split <;> rfl
@[simp] theorem State.scheduleOnce_poolMember (s : State) (d : Nat) (e : Event) : (s.scheduleOnce d e).poolMember = s.poolMember := by
  unfold State.scheduleOnce; split <;> rfl
@[simp] theorem State.scheduleOnce_poolPresent (s : State) (d : Nat) (e : Event) : (s.scheduleOnce d e).poolPresent = s.poolPresent := by
  unfold State.scheduleOnce; split <;> rfl
@[simp] theorem State.scheduleOnce_ballots (s : State) (d : Nat) (e : Event) : (s.scheduleOnce d e).ballots = s.ballots := by
  unfold State.scheduleOnce; split <;> rfl
@[simp] theorem State.scheduleOnce_ballotCalls (s : State) (d : Nat) (e : Event) : (s.scheduleOnce d e).ballotCalls = s.ballotCalls := by
  unfold State.scheduleOnce; split <;> rfl
@[simp] theorem State.scheduleOnce_stations (s : State) (d : Nat) (e : Event) : (s.scheduleOnce d e).stations = s.stations := by
  unfold State.scheduleOnce; split <;> rfl
@[simp] theorem State.scheduleOnce_ports (s : State) (d : Nat) (e : Event) : (s.scheduleOnce d e).ports = s.ports := by
  unfold State.scheduleOnce; split <;> rfl
@[simp] theorem State.scheduleOnce_sendSeq (s : State) (d : Nat) (e : Event) : (s.scheduleOnce d e).sendSeq = s.sendSeq := by
  unfold State.scheduleOnce; split <;> rfl
@[simp] theorem State.scheduleOnce_recvSeq (s : State) (d : Nat) (e : Event) : (s.scheduleOnce d e).recvSeq = s.recvSeq := by
  unfold State.scheduleOnce; split <;> rfl
@[simp] theorem State.scheduleOnce_unacked (s : State) (d : Nat) (e : Event) : (s.scheduleOnce d e).unacked = s.unacked := by
  unfold State.scheduleOnce; split <;> rfl
@[simp] theorem State.scheduleOnce_outbox (s : State) (d : Nat) (e : Event) : (s.scheduleOnce d e).outbox = s.outbox := by
  unfold State.scheduleOnce; split <;> rfl
@[simp] theorem State.scheduleOnce_sends (s : State) (d : Nat) (e : Event) : (s.scheduleOnce d e).sends = s.sends := by
  unfold State.scheduleOnce; split <;> rfl
@[simp] theorem State.scheduleOnce_outs (s : State) (d : Nat) (e : Event) : (s.scheduleOnce d e).outs = s.outs := by
  unfold State.scheduleOnce; split <;> rfl
@[simp] theorem State.scheduleOnce_delivered (s : State) (d : Nat) (e : Event) : (s.scheduleOnce d e).delivered = s.delivered := by
  unfold State.scheduleOnce; split <;> rfl
@[simp] theorem State.scheduleOnce_waitroom (s : State) (d : Nat) (e : Event) : (s.scheduleOnce d e).waitroom = s.waitroom := by
  unfold State.scheduleOnce; split <;> rfl
@[simp] theorem State.scheduleOnce_pkgid (s : State) (d : Nat) (e : Event) : (s.scheduleOnce d e).pkgid = s.pkgid := by
  unfold State.scheduleOnce; split <;> rfl
@[simp] theorem State.scheduleOnce_leader (s : State) (d : Nat) (e : Event) : (s.scheduleOnce d e).leader = s.leader := by
  unfold State.scheduleOnce; split <;> rfl
@[simp] theorem State.scheduleOnce_ready (s : State) (d : Nat) (e : Event) : (s.scheduleOnce d e).ready = s.ready := by
  unfold State.scheduleOnce; split <;> rfl
@[simp] theorem State.scheduleOnce_cfgseq (s : State) (d : Nat) (e : Event) : (s.scheduleOnce d e).cfgseq = s.cfgseq := by
  unfold State.scheduleOnce; split <;> rfl
@[simp] theorem State.scheduleOnce_mapbase (s : State) (d : Nat) (e : Event) : (s.scheduleOnce d e).mapbase = s.mapbase := by
  unfold State.scheduleOnce; split <;> rfl
@[simp] theorem State.scheduleOnce_throt (s : State) (d : Nat) (e : Event) : (s.scheduleOnce d e).throt = s.throt := by
  unfold State.scheduleOnce; split <;> rfl
@[simp] theorem State.scheduleOnce_devid (s : State) (d : Nat) (e : Event) : (s.scheduleOnce d e).devid = s.devid := by
  unfold State.scheduleOnce; split <;> rfl
@[simp] theorem State.scheduleOnce_replace (s : State) (d : Nat) (e : Event) : (s.scheduleOnce d e).replace = s.replace := by
  unfold State.scheduleOnce; split <;> rfl
@[simp] theorem State.scheduleOnce_keyrot (s : State) (d : Nat) (e : Event) : (s.scheduleOnce d e).keyrot = s.keyrot := by
  unfold State.scheduleOnce; split <;> rfl
@[simp] theorem State.scheduleOnce_attreq (s : State) (d : Nat) (e : Event) : (s.scheduleOnce d e).attreq = s.attreq := by
  unfold State.scheduleOnce; split <;> rfl
@[simp] theorem State.scheduleOnce_scrubq (s : State) (d : Nat) (e : Event) : (s.scheduleOnce d e).scrubq = s.scrubq := by
  unfold State.scheduleOnce; split <;> rfl
@[simp] theorem State.scheduleOnce_errlogBase (s : State) (d : Nat) (e : Event) : (s.scheduleOnce d e).errlogBase = s.errlogBase := by
  unfold State.scheduleOnce; split <;> rfl
@[simp] theorem State.scheduleOnce_svcslot (s : State) (d : Nat) (e : Event) : (s.scheduleOnce d e).svcslot = s.svcslot := by
  unfold State.scheduleOnce; split <;> rfl
@[simp] theorem State.scheduleOnce_svcQuantum (s : State) (d : Nat) (e : Event) : (s.scheduleOnce d e).svcQuantum = s.svcQuantum := by
  unfold State.scheduleOnce; split <;> rfl
@[simp] theorem State.scheduleOnce_svcRemoved (s : State) (d : Nat) (e : Event) : (s.scheduleOnce d e).svcRemoved = s.svcRemoved := by
  unfold State.scheduleOnce; split <;> rfl
@[simp] theorem State.scheduleOnce_pairs (s : State) (d : Nat) (e : Event) : (s.scheduleOnce d e).pairs = s.pairs := by
  unfold State.scheduleOnce; split <;> rfl
@[simp] theorem State.scheduleOnce_power (s : State) (d : Nat) (e : Event) : (s.scheduleOnce d e).power = s.power := by
  unfold State.scheduleOnce; split <;> rfl
@[simp] theorem State.scheduleOnce_flash (s : State) (d : Nat) (e : Event) : (s.scheduleOnce d e).flash = s.flash := by
  unfold State.scheduleOnce; split <;> rfl
@[simp] theorem State.scheduleOnce_fuses (s : State) (d : Nat) (e : Event) : (s.scheduleOnce d e).fuses = s.fuses := by
  unfold State.scheduleOnce; split <;> rfl
@[simp] theorem State.scheduleOnce_images (s : State) (d : Nat) (e : Event) : (s.scheduleOnce d e).images = s.images := by
  unfold State.scheduleOnce; split <;> rfl
@[simp] theorem State.scheduleOnce_errlog (s : State) (d : Nat) (e : Event) : (s.scheduleOnce d e).errlog = s.errlog := by
  unfold State.scheduleOnce; split <;> rfl
@[simp] theorem State.scheduleOnce_keys (s : State) (d : Nat) (e : Event) : (s.scheduleOnce d e).keys = s.keys := by
  unfold State.scheduleOnce; split <;> rfl

/-! ### unschedule -/

@[simp] theorem State.unschedule_now (s : State) (p : Event → Bool) : (s.unschedule p).now = s.now := rfl
@[simp] theorem State.unschedule_turn (s : State) (p : Event → Bool) : (s.unschedule p).turn = s.turn := rfl
@[simp] theorem State.unschedule_cur (s : State) (p : Event → Bool) : (s.unschedule p).cur = s.cur := rfl
@[simp] theorem State.unschedule_event (s : State) (p : Event → Bool) : (s.unschedule p).event = s.event := rfl
@[simp] theorem State.unschedule_freeCount (s : State) (p : Event → Bool) : (s.unschedule p).freeCount = s.freeCount := rfl
@[simp] theorem State.unschedule_order (s : State) (p : Event → Bool) : (s.unschedule p).order = s.order := rfl
@[simp] theorem State.unschedule_mem (s : State) (p : Event → Bool) : (s.unschedule p).mem = s.mem := rfl
@[simp] theorem State.unschedule_poison (s : State) (p : Event → Bool) : (s.unschedule p).poison = s.poison := rfl
@[simp] theorem State.unschedule_staged (s : State) (p : Event → Bool) : (s.unschedule p).staged = s.staged := rfl
@[simp] theorem State.unschedule_l2 (s : State) (p : Event → Bool) : (s.unschedule p).l2 = s.l2 := rfl
@[simp] theorem State.unschedule_l2Waits (s : State) (p : Event → Bool) : (s.unschedule p).l2Waits = s.l2Waits := rfl
@[simp] theorem State.unschedule_rotations (s : State) (p : Event → Bool) : (s.unschedule p).rotations = s.rotations := rfl
@[simp] theorem State.unschedule_conds (s : State) (p : Event → Bool) : (s.unschedule p).conds = s.conds := rfl
@[simp] theorem State.unschedule_queueWaits (s : State) (p : Event → Bool) : (s.unschedule p).queueWaits = s.queueWaits := rfl
@[simp] theorem State.unschedule_tableWaits (s : State) (p : Event → Bool) : (s.unschedule p).tableWaits = s.tableWaits := rfl
@[simp] theorem State.unschedule_held (s : State) (p : Event → Bool) : (s.unschedule p).held = s.held := rfl
@[simp] theorem State.unschedule_launches (s : State) (p : Event → Bool) : (s.unschedule p).launches = s.launches := rfl
@[simp] theorem State.unschedule_teams (s : State) (p : Event → Bool) : (s.unschedule p).teams = s.teams := rfl
@[simp] theorem State.unschedule_saved (s : State) (p : Event → Bool) : (s.unschedule p).saved = s.saved := rfl
@[simp] theorem State.unschedule_peerLeases (s : State) (p : Event → Bool) : (s.unschedule p).peerLeases = s.peerLeases := rfl
@[simp] theorem State.unschedule_cores (s : State) (p : Event → Bool) : (s.unschedule p).cores = s.cores := rfl
@[simp] theorem State.unschedule_parts (s : State) (p : Event → Bool) : (s.unschedule p).parts = s.parts := rfl
@[simp] theorem State.unschedule_hubs (s : State) (p : Event → Bool) : (s.unschedule p).hubs = s.hubs := rfl
@[simp] theorem State.unschedule_harts (s : State) (p : Event → Bool) : (s.unschedule p).harts = s.harts := rfl
@[simp] theorem State.unschedule_places (s : State) (p : Event → Bool) : (s.unschedule p).places = s.places := rfl
@[simp] theorem State.unschedule_taken (s : State) (p : Event → Bool) : (s.unschedule p).taken = s.taken := rfl
@[simp] theorem State.unschedule_owners (s : State) (p : Event → Bool) : (s.unschedule p).owners = s.owners := rfl
@[simp] theorem State.unschedule_ownerSince (s : State) (p : Event → Bool) : (s.unschedule p).ownerSince = s.ownerSince := rfl
@[simp] theorem State.unschedule_handovers (s : State) (p : Event → Bool) : (s.unschedule p).handovers = s.handovers := rfl
@[simp] theorem State.unschedule_pinOps (s : State) (p : Event → Bool) : (s.unschedule p).pinOps = s.pinOps := rfl
@[simp] theorem State.unschedule_reductions (s : State) (p : Event → Bool) : (s.unschedule p).reductions = s.reductions := rfl
@[simp] theorem State.unschedule_poolOps (s : State) (p : Event → Bool) : (s.unschedule p).poolOps = s.poolOps := rfl
@[simp] theorem State.unschedule_poolMember (s : State) (p : Event → Bool) : (s.unschedule p).poolMember = s.poolMember := rfl
@[simp] theorem State.unschedule_poolPresent (s : State) (p : Event → Bool) : (s.unschedule p).poolPresent = s.poolPresent := rfl
@[simp] theorem State.unschedule_ballots (s : State) (p : Event → Bool) : (s.unschedule p).ballots = s.ballots := rfl
@[simp] theorem State.unschedule_ballotCalls (s : State) (p : Event → Bool) : (s.unschedule p).ballotCalls = s.ballotCalls := rfl
@[simp] theorem State.unschedule_stations (s : State) (p : Event → Bool) : (s.unschedule p).stations = s.stations := rfl
@[simp] theorem State.unschedule_ports (s : State) (p : Event → Bool) : (s.unschedule p).ports = s.ports := rfl
@[simp] theorem State.unschedule_sendSeq (s : State) (p : Event → Bool) : (s.unschedule p).sendSeq = s.sendSeq := rfl
@[simp] theorem State.unschedule_recvSeq (s : State) (p : Event → Bool) : (s.unschedule p).recvSeq = s.recvSeq := rfl
@[simp] theorem State.unschedule_unacked (s : State) (p : Event → Bool) : (s.unschedule p).unacked = s.unacked := rfl
@[simp] theorem State.unschedule_outbox (s : State) (p : Event → Bool) : (s.unschedule p).outbox = s.outbox := rfl
@[simp] theorem State.unschedule_sends (s : State) (p : Event → Bool) : (s.unschedule p).sends = s.sends := rfl
@[simp] theorem State.unschedule_outs (s : State) (p : Event → Bool) : (s.unschedule p).outs = s.outs := rfl
@[simp] theorem State.unschedule_delivered (s : State) (p : Event → Bool) : (s.unschedule p).delivered = s.delivered := rfl
@[simp] theorem State.unschedule_waitroom (s : State) (p : Event → Bool) : (s.unschedule p).waitroom = s.waitroom := rfl
@[simp] theorem State.unschedule_pkgid (s : State) (p : Event → Bool) : (s.unschedule p).pkgid = s.pkgid := rfl
@[simp] theorem State.unschedule_leader (s : State) (p : Event → Bool) : (s.unschedule p).leader = s.leader := rfl
@[simp] theorem State.unschedule_ready (s : State) (p : Event → Bool) : (s.unschedule p).ready = s.ready := rfl
@[simp] theorem State.unschedule_cfgseq (s : State) (p : Event → Bool) : (s.unschedule p).cfgseq = s.cfgseq := rfl
@[simp] theorem State.unschedule_mapbase (s : State) (p : Event → Bool) : (s.unschedule p).mapbase = s.mapbase := rfl
@[simp] theorem State.unschedule_throt (s : State) (p : Event → Bool) : (s.unschedule p).throt = s.throt := rfl
@[simp] theorem State.unschedule_devid (s : State) (p : Event → Bool) : (s.unschedule p).devid = s.devid := rfl
@[simp] theorem State.unschedule_replace (s : State) (p : Event → Bool) : (s.unschedule p).replace = s.replace := rfl
@[simp] theorem State.unschedule_keyrot (s : State) (p : Event → Bool) : (s.unschedule p).keyrot = s.keyrot := rfl
@[simp] theorem State.unschedule_attreq (s : State) (p : Event → Bool) : (s.unschedule p).attreq = s.attreq := rfl
@[simp] theorem State.unschedule_scrubq (s : State) (p : Event → Bool) : (s.unschedule p).scrubq = s.scrubq := rfl
@[simp] theorem State.unschedule_errlogBase (s : State) (p : Event → Bool) : (s.unschedule p).errlogBase = s.errlogBase := rfl
@[simp] theorem State.unschedule_svcslot (s : State) (p : Event → Bool) : (s.unschedule p).svcslot = s.svcslot := rfl
@[simp] theorem State.unschedule_svcQuantum (s : State) (p : Event → Bool) : (s.unschedule p).svcQuantum = s.svcQuantum := rfl
@[simp] theorem State.unschedule_svcRemoved (s : State) (p : Event → Bool) : (s.unschedule p).svcRemoved = s.svcRemoved := rfl
@[simp] theorem State.unschedule_pairs (s : State) (p : Event → Bool) : (s.unschedule p).pairs = s.pairs := rfl
@[simp] theorem State.unschedule_power (s : State) (p : Event → Bool) : (s.unschedule p).power = s.power := rfl
@[simp] theorem State.unschedule_flash (s : State) (p : Event → Bool) : (s.unschedule p).flash = s.flash := rfl
@[simp] theorem State.unschedule_fuses (s : State) (p : Event → Bool) : (s.unschedule p).fuses = s.fuses := rfl
@[simp] theorem State.unschedule_images (s : State) (p : Event → Bool) : (s.unschedule p).images = s.images := rfl
@[simp] theorem State.unschedule_errlog (s : State) (p : Event → Bool) : (s.unschedule p).errlog = s.errlog := rfl
@[simp] theorem State.unschedule_keys (s : State) (p : Event → Bool) : (s.unschedule p).keys = s.keys := rfl

/-! ### tick -/

@[simp] theorem State.tick_now (s : State) : (s.tick).now = s.now := rfl
@[simp] theorem State.tick_turn (s : State) : (s.tick).turn = s.turn := rfl
@[simp] theorem State.tick_cur (s : State) : (s.tick).cur = s.cur := rfl
@[simp] theorem State.tick_event (s : State) : (s.tick).event = s.event := rfl
@[simp] theorem State.tick_agenda (s : State) : (s.tick).agenda = s.agenda := rfl
@[simp] theorem State.tick_freeCount (s : State) : (s.tick).freeCount = s.freeCount := rfl
@[simp] theorem State.tick_mem (s : State) : (s.tick).mem = s.mem := rfl
@[simp] theorem State.tick_poison (s : State) : (s.tick).poison = s.poison := rfl
@[simp] theorem State.tick_staged (s : State) : (s.tick).staged = s.staged := rfl
@[simp] theorem State.tick_l2 (s : State) : (s.tick).l2 = s.l2 := rfl
@[simp] theorem State.tick_l2Waits (s : State) : (s.tick).l2Waits = s.l2Waits := rfl
@[simp] theorem State.tick_rotations (s : State) : (s.tick).rotations = s.rotations := rfl
@[simp] theorem State.tick_conds (s : State) : (s.tick).conds = s.conds := rfl
@[simp] theorem State.tick_queueWaits (s : State) : (s.tick).queueWaits = s.queueWaits := rfl
@[simp] theorem State.tick_tableWaits (s : State) : (s.tick).tableWaits = s.tableWaits := rfl
@[simp] theorem State.tick_held (s : State) : (s.tick).held = s.held := rfl
@[simp] theorem State.tick_launches (s : State) : (s.tick).launches = s.launches := rfl
@[simp] theorem State.tick_teams (s : State) : (s.tick).teams = s.teams := rfl
@[simp] theorem State.tick_saved (s : State) : (s.tick).saved = s.saved := rfl
@[simp] theorem State.tick_peerLeases (s : State) : (s.tick).peerLeases = s.peerLeases := rfl
@[simp] theorem State.tick_cores (s : State) : (s.tick).cores = s.cores := rfl
@[simp] theorem State.tick_parts (s : State) : (s.tick).parts = s.parts := rfl
@[simp] theorem State.tick_hubs (s : State) : (s.tick).hubs = s.hubs := rfl
@[simp] theorem State.tick_harts (s : State) : (s.tick).harts = s.harts := rfl
@[simp] theorem State.tick_places (s : State) : (s.tick).places = s.places := rfl
@[simp] theorem State.tick_taken (s : State) : (s.tick).taken = s.taken := rfl
@[simp] theorem State.tick_owners (s : State) : (s.tick).owners = s.owners := rfl
@[simp] theorem State.tick_ownerSince (s : State) : (s.tick).ownerSince = s.ownerSince := rfl
@[simp] theorem State.tick_handovers (s : State) : (s.tick).handovers = s.handovers := rfl
@[simp] theorem State.tick_pinOps (s : State) : (s.tick).pinOps = s.pinOps := rfl
@[simp] theorem State.tick_reductions (s : State) : (s.tick).reductions = s.reductions := rfl
@[simp] theorem State.tick_poolOps (s : State) : (s.tick).poolOps = s.poolOps := rfl
@[simp] theorem State.tick_poolMember (s : State) : (s.tick).poolMember = s.poolMember := rfl
@[simp] theorem State.tick_poolPresent (s : State) : (s.tick).poolPresent = s.poolPresent := rfl
@[simp] theorem State.tick_ballots (s : State) : (s.tick).ballots = s.ballots := rfl
@[simp] theorem State.tick_ballotCalls (s : State) : (s.tick).ballotCalls = s.ballotCalls := rfl
@[simp] theorem State.tick_stations (s : State) : (s.tick).stations = s.stations := rfl
@[simp] theorem State.tick_ports (s : State) : (s.tick).ports = s.ports := rfl
@[simp] theorem State.tick_sendSeq (s : State) : (s.tick).sendSeq = s.sendSeq := rfl
@[simp] theorem State.tick_recvSeq (s : State) : (s.tick).recvSeq = s.recvSeq := rfl
@[simp] theorem State.tick_unacked (s : State) : (s.tick).unacked = s.unacked := rfl
@[simp] theorem State.tick_outbox (s : State) : (s.tick).outbox = s.outbox := rfl
@[simp] theorem State.tick_sends (s : State) : (s.tick).sends = s.sends := rfl
@[simp] theorem State.tick_outs (s : State) : (s.tick).outs = s.outs := rfl
@[simp] theorem State.tick_delivered (s : State) : (s.tick).delivered = s.delivered := rfl
@[simp] theorem State.tick_waitroom (s : State) : (s.tick).waitroom = s.waitroom := rfl
@[simp] theorem State.tick_pkgid (s : State) : (s.tick).pkgid = s.pkgid := rfl
@[simp] theorem State.tick_leader (s : State) : (s.tick).leader = s.leader := rfl
@[simp] theorem State.tick_ready (s : State) : (s.tick).ready = s.ready := rfl
@[simp] theorem State.tick_cfgseq (s : State) : (s.tick).cfgseq = s.cfgseq := rfl
@[simp] theorem State.tick_mapbase (s : State) : (s.tick).mapbase = s.mapbase := rfl
@[simp] theorem State.tick_throt (s : State) : (s.tick).throt = s.throt := rfl
@[simp] theorem State.tick_devid (s : State) : (s.tick).devid = s.devid := rfl
@[simp] theorem State.tick_replace (s : State) : (s.tick).replace = s.replace := rfl
@[simp] theorem State.tick_keyrot (s : State) : (s.tick).keyrot = s.keyrot := rfl
@[simp] theorem State.tick_attreq (s : State) : (s.tick).attreq = s.attreq := rfl
@[simp] theorem State.tick_scrubq (s : State) : (s.tick).scrubq = s.scrubq := rfl
@[simp] theorem State.tick_errlogBase (s : State) : (s.tick).errlogBase = s.errlogBase := rfl
@[simp] theorem State.tick_svcslot (s : State) : (s.tick).svcslot = s.svcslot := rfl
@[simp] theorem State.tick_svcQuantum (s : State) : (s.tick).svcQuantum = s.svcQuantum := rfl
@[simp] theorem State.tick_svcRemoved (s : State) : (s.tick).svcRemoved = s.svcRemoved := rfl
@[simp] theorem State.tick_pairs (s : State) : (s.tick).pairs = s.pairs := rfl
@[simp] theorem State.tick_power (s : State) : (s.tick).power = s.power := rfl
@[simp] theorem State.tick_flash (s : State) : (s.tick).flash = s.flash := rfl
@[simp] theorem State.tick_fuses (s : State) : (s.tick).fuses = s.fuses := rfl
@[simp] theorem State.tick_images (s : State) : (s.tick).images = s.images := rfl
@[simp] theorem State.tick_errlog (s : State) : (s.tick).errlog = s.errlog := rfl
@[simp] theorem State.tick_keys (s : State) : (s.tick).keys = s.keys := rfl

/-! ### terminal -/

@[simp] theorem State.terminal_now (s : State) (c k l : Nat) (a : Byte) (b : BitVec 16) (x y : DWord) : (s.terminal c k l a b x y).now = s.now := rfl
@[simp] theorem State.terminal_turn (s : State) (c k l : Nat) (a : Byte) (b : BitVec 16) (x y : DWord) : (s.terminal c k l a b x y).turn = s.turn := rfl
@[simp] theorem State.terminal_cur (s : State) (c k l : Nat) (a : Byte) (b : BitVec 16) (x y : DWord) : (s.terminal c k l a b x y).cur = s.cur := rfl
@[simp] theorem State.terminal_event (s : State) (c k l : Nat) (a : Byte) (b : BitVec 16) (x y : DWord) : (s.terminal c k l a b x y).event = s.event := rfl
@[simp] theorem State.terminal_freeCount (s : State) (c k l : Nat) (a : Byte) (b : BitVec 16) (x y : DWord) : (s.terminal c k l a b x y).freeCount = s.freeCount := rfl
@[simp] theorem State.terminal_order (s : State) (c k l : Nat) (a : Byte) (b : BitVec 16) (x y : DWord) : (s.terminal c k l a b x y).order = s.order := rfl
@[simp] theorem State.terminal_mem (s : State) (c k l : Nat) (a : Byte) (b : BitVec 16) (x y : DWord) : (s.terminal c k l a b x y).mem = s.mem := rfl
@[simp] theorem State.terminal_poison (s : State) (c k l : Nat) (a : Byte) (b : BitVec 16) (x y : DWord) : (s.terminal c k l a b x y).poison = s.poison := rfl
@[simp] theorem State.terminal_staged (s : State) (c k l : Nat) (a : Byte) (b : BitVec 16) (x y : DWord) : (s.terminal c k l a b x y).staged = s.staged := rfl
@[simp] theorem State.terminal_l2 (s : State) (c k l : Nat) (a : Byte) (b : BitVec 16) (x y : DWord) : (s.terminal c k l a b x y).l2 = s.l2 := rfl
@[simp] theorem State.terminal_l2Waits (s : State) (c k l : Nat) (a : Byte) (b : BitVec 16) (x y : DWord) : (s.terminal c k l a b x y).l2Waits = s.l2Waits := rfl
@[simp] theorem State.terminal_rotations (s : State) (c k l : Nat) (a : Byte) (b : BitVec 16) (x y : DWord) : (s.terminal c k l a b x y).rotations = s.rotations := rfl
@[simp] theorem State.terminal_conds (s : State) (c k l : Nat) (a : Byte) (b : BitVec 16) (x y : DWord) : (s.terminal c k l a b x y).conds = s.conds := rfl
@[simp] theorem State.terminal_queueWaits (s : State) (c k l : Nat) (a : Byte) (b : BitVec 16) (x y : DWord) : (s.terminal c k l a b x y).queueWaits = s.queueWaits := rfl
@[simp] theorem State.terminal_tableWaits (s : State) (c k l : Nat) (a : Byte) (b : BitVec 16) (x y : DWord) : (s.terminal c k l a b x y).tableWaits = s.tableWaits := rfl
@[simp] theorem State.terminal_held (s : State) (c k l : Nat) (a : Byte) (b : BitVec 16) (x y : DWord) : (s.terminal c k l a b x y).held = s.held := rfl
@[simp] theorem State.terminal_launches (s : State) (c k l : Nat) (a : Byte) (b : BitVec 16) (x y : DWord) : (s.terminal c k l a b x y).launches = s.launches := rfl
@[simp] theorem State.terminal_teams (s : State) (c k l : Nat) (a : Byte) (b : BitVec 16) (x y : DWord) : (s.terminal c k l a b x y).teams = s.teams := rfl
@[simp] theorem State.terminal_saved (s : State) (c k l : Nat) (a : Byte) (b : BitVec 16) (x y : DWord) : (s.terminal c k l a b x y).saved = s.saved := rfl
@[simp] theorem State.terminal_peerLeases (s : State) (c k l : Nat) (a : Byte) (b : BitVec 16) (x y : DWord) : (s.terminal c k l a b x y).peerLeases = s.peerLeases := rfl
@[simp] theorem State.terminal_parts (s : State) (c k l : Nat) (a : Byte) (b : BitVec 16) (x y : DWord) : (s.terminal c k l a b x y).parts = s.parts := rfl
@[simp] theorem State.terminal_hubs (s : State) (c k l : Nat) (a : Byte) (b : BitVec 16) (x y : DWord) : (s.terminal c k l a b x y).hubs = s.hubs := rfl
@[simp] theorem State.terminal_harts (s : State) (c k l : Nat) (a : Byte) (b : BitVec 16) (x y : DWord) : (s.terminal c k l a b x y).harts = s.harts := rfl
@[simp] theorem State.terminal_places (s : State) (c k l : Nat) (a : Byte) (b : BitVec 16) (x y : DWord) : (s.terminal c k l a b x y).places = s.places := rfl
@[simp] theorem State.terminal_taken (s : State) (c k l : Nat) (a : Byte) (b : BitVec 16) (x y : DWord) : (s.terminal c k l a b x y).taken = s.taken := rfl
@[simp] theorem State.terminal_owners (s : State) (c k l : Nat) (a : Byte) (b : BitVec 16) (x y : DWord) : (s.terminal c k l a b x y).owners = s.owners := rfl
@[simp] theorem State.terminal_ownerSince (s : State) (c k l : Nat) (a : Byte) (b : BitVec 16) (x y : DWord) : (s.terminal c k l a b x y).ownerSince = s.ownerSince := rfl
@[simp] theorem State.terminal_handovers (s : State) (c k l : Nat) (a : Byte) (b : BitVec 16) (x y : DWord) : (s.terminal c k l a b x y).handovers = s.handovers := rfl
@[simp] theorem State.terminal_pinOps (s : State) (c k l : Nat) (a : Byte) (b : BitVec 16) (x y : DWord) : (s.terminal c k l a b x y).pinOps = s.pinOps := rfl
@[simp] theorem State.terminal_reductions (s : State) (c k l : Nat) (a : Byte) (b : BitVec 16) (x y : DWord) : (s.terminal c k l a b x y).reductions = s.reductions := rfl
@[simp] theorem State.terminal_poolOps (s : State) (c k l : Nat) (a : Byte) (b : BitVec 16) (x y : DWord) : (s.terminal c k l a b x y).poolOps = s.poolOps := rfl
@[simp] theorem State.terminal_poolMember (s : State) (c k l : Nat) (a : Byte) (b : BitVec 16) (x y : DWord) : (s.terminal c k l a b x y).poolMember = s.poolMember := rfl
@[simp] theorem State.terminal_poolPresent (s : State) (c k l : Nat) (a : Byte) (b : BitVec 16) (x y : DWord) : (s.terminal c k l a b x y).poolPresent = s.poolPresent := rfl
@[simp] theorem State.terminal_ballots (s : State) (c k l : Nat) (a : Byte) (b : BitVec 16) (x y : DWord) : (s.terminal c k l a b x y).ballots = s.ballots := rfl
@[simp] theorem State.terminal_ballotCalls (s : State) (c k l : Nat) (a : Byte) (b : BitVec 16) (x y : DWord) : (s.terminal c k l a b x y).ballotCalls = s.ballotCalls := rfl
@[simp] theorem State.terminal_stations (s : State) (c k l : Nat) (a : Byte) (b : BitVec 16) (x y : DWord) : (s.terminal c k l a b x y).stations = s.stations := rfl
@[simp] theorem State.terminal_ports (s : State) (c k l : Nat) (a : Byte) (b : BitVec 16) (x y : DWord) : (s.terminal c k l a b x y).ports = s.ports := rfl
@[simp] theorem State.terminal_sendSeq (s : State) (c k l : Nat) (a : Byte) (b : BitVec 16) (x y : DWord) : (s.terminal c k l a b x y).sendSeq = s.sendSeq := rfl
@[simp] theorem State.terminal_recvSeq (s : State) (c k l : Nat) (a : Byte) (b : BitVec 16) (x y : DWord) : (s.terminal c k l a b x y).recvSeq = s.recvSeq := rfl
@[simp] theorem State.terminal_unacked (s : State) (c k l : Nat) (a : Byte) (b : BitVec 16) (x y : DWord) : (s.terminal c k l a b x y).unacked = s.unacked := rfl
@[simp] theorem State.terminal_outbox (s : State) (c k l : Nat) (a : Byte) (b : BitVec 16) (x y : DWord) : (s.terminal c k l a b x y).outbox = s.outbox := rfl
@[simp] theorem State.terminal_sends (s : State) (c k l : Nat) (a : Byte) (b : BitVec 16) (x y : DWord) : (s.terminal c k l a b x y).sends = s.sends := rfl
@[simp] theorem State.terminal_outs (s : State) (c k l : Nat) (a : Byte) (b : BitVec 16) (x y : DWord) : (s.terminal c k l a b x y).outs = s.outs := rfl
@[simp] theorem State.terminal_delivered (s : State) (c k l : Nat) (a : Byte) (b : BitVec 16) (x y : DWord) : (s.terminal c k l a b x y).delivered = s.delivered := rfl
@[simp] theorem State.terminal_waitroom (s : State) (c k l : Nat) (a : Byte) (b : BitVec 16) (x y : DWord) : (s.terminal c k l a b x y).waitroom = s.waitroom := rfl
@[simp] theorem State.terminal_pkgid (s : State) (c k l : Nat) (a : Byte) (b : BitVec 16) (x y : DWord) : (s.terminal c k l a b x y).pkgid = s.pkgid := rfl
@[simp] theorem State.terminal_leader (s : State) (c k l : Nat) (a : Byte) (b : BitVec 16) (x y : DWord) : (s.terminal c k l a b x y).leader = s.leader := rfl
@[simp] theorem State.terminal_ready (s : State) (c k l : Nat) (a : Byte) (b : BitVec 16) (x y : DWord) : (s.terminal c k l a b x y).ready = s.ready := rfl
@[simp] theorem State.terminal_cfgseq (s : State) (c k l : Nat) (a : Byte) (b : BitVec 16) (x y : DWord) : (s.terminal c k l a b x y).cfgseq = s.cfgseq := rfl
@[simp] theorem State.terminal_mapbase (s : State) (c k l : Nat) (a : Byte) (b : BitVec 16) (x y : DWord) : (s.terminal c k l a b x y).mapbase = s.mapbase := rfl
@[simp] theorem State.terminal_throt (s : State) (c k l : Nat) (a : Byte) (b : BitVec 16) (x y : DWord) : (s.terminal c k l a b x y).throt = s.throt := rfl
@[simp] theorem State.terminal_devid (s : State) (c k l : Nat) (a : Byte) (b : BitVec 16) (x y : DWord) : (s.terminal c k l a b x y).devid = s.devid := rfl
@[simp] theorem State.terminal_replace (s : State) (c k l : Nat) (a : Byte) (b : BitVec 16) (x y : DWord) : (s.terminal c k l a b x y).replace = s.replace := rfl
@[simp] theorem State.terminal_keyrot (s : State) (c k l : Nat) (a : Byte) (b : BitVec 16) (x y : DWord) : (s.terminal c k l a b x y).keyrot = s.keyrot := rfl
@[simp] theorem State.terminal_attreq (s : State) (c k l : Nat) (a : Byte) (b : BitVec 16) (x y : DWord) : (s.terminal c k l a b x y).attreq = s.attreq := rfl
@[simp] theorem State.terminal_scrubq (s : State) (c k l : Nat) (a : Byte) (b : BitVec 16) (x y : DWord) : (s.terminal c k l a b x y).scrubq = s.scrubq := rfl
@[simp] theorem State.terminal_errlogBase (s : State) (c k l : Nat) (a : Byte) (b : BitVec 16) (x y : DWord) : (s.terminal c k l a b x y).errlogBase = s.errlogBase := rfl
@[simp] theorem State.terminal_svcslot (s : State) (c k l : Nat) (a : Byte) (b : BitVec 16) (x y : DWord) : (s.terminal c k l a b x y).svcslot = s.svcslot := rfl
@[simp] theorem State.terminal_svcQuantum (s : State) (c k l : Nat) (a : Byte) (b : BitVec 16) (x y : DWord) : (s.terminal c k l a b x y).svcQuantum = s.svcQuantum := rfl
@[simp] theorem State.terminal_svcRemoved (s : State) (c k l : Nat) (a : Byte) (b : BitVec 16) (x y : DWord) : (s.terminal c k l a b x y).svcRemoved = s.svcRemoved := rfl
@[simp] theorem State.terminal_pairs (s : State) (c k l : Nat) (a : Byte) (b : BitVec 16) (x y : DWord) : (s.terminal c k l a b x y).pairs = s.pairs := rfl
@[simp] theorem State.terminal_power (s : State) (c k l : Nat) (a : Byte) (b : BitVec 16) (x y : DWord) : (s.terminal c k l a b x y).power = s.power := rfl
@[simp] theorem State.terminal_flash (s : State) (c k l : Nat) (a : Byte) (b : BitVec 16) (x y : DWord) : (s.terminal c k l a b x y).flash = s.flash := rfl
@[simp] theorem State.terminal_fuses (s : State) (c k l : Nat) (a : Byte) (b : BitVec 16) (x y : DWord) : (s.terminal c k l a b x y).fuses = s.fuses := rfl
@[simp] theorem State.terminal_images (s : State) (c k l : Nat) (a : Byte) (b : BitVec 16) (x y : DWord) : (s.terminal c k l a b x y).images = s.images := rfl
@[simp] theorem State.terminal_errlog (s : State) (c k l : Nat) (a : Byte) (b : BitVec 16) (x y : DWord) : (s.terminal c k l a b x y).errlog = s.errlog := rfl
@[simp] theorem State.terminal_keys (s : State) (c k l : Nat) (a : Byte) (b : BitVec 16) (x y : DWord) : (s.terminal c k l a b x y).keys = s.keys := rfl

/-! ### setGroup -/

@[simp] theorem Core.setGroup_side (c : Core) (k : Nat) (g : Group) : (c.setGroup k g).side = c.side := rfl
@[simp] theorem Core.setGroup_pword (c : Core) (k : Nat) (g : Group) : (c.setGroup k g).pword = c.pword := rfl
@[simp] theorem Core.setGroup_dividing (c : Core) (k : Nat) (g : Group) : (c.setGroup k g).dividing = c.dividing := rfl
@[simp] theorem Core.setGroup_owner (c : Core) (k : Nat) (g : Group) : (c.setGroup k g).owner = c.owner := rfl
@[simp] theorem Core.setGroup_fenced (c : Core) (k : Nat) (g : Group) : (c.setGroup k g).fenced = c.fenced := rfl
@[simp] theorem Core.setGroup_clk0 (c : Core) (k : Nat) (g : Group) : (c.setGroup k g).clk0 = c.clk0 := rfl
@[simp] theorem Core.setGroup_sram (c : Core) (k : Nat) (g : Group) : (c.setGroup k g).sram = c.sram := rfl
@[simp] theorem Core.setGroup_tags (c : Core) (k : Nat) (g : Group) : (c.setGroup k g).tags = c.tags := rfl
@[simp] theorem Core.setGroup_sramPoison (c : Core) (k : Nat) (g : Group) : (c.setGroup k g).sramPoison = c.sramPoison := rfl
@[simp] theorem Core.setGroup_landings (c : Core) (k : Nat) (g : Group) : (c.setGroup k g).landings = c.landings := rfl
@[simp] theorem Core.setGroup_lastLaunch (c : Core) (k : Nat) (g : Group) : (c.setGroup k g).lastLaunch = c.lastLaunch := rfl
@[simp] theorem Core.setGroup_reading (c : Core) (k : Nat) (g : Group) : (c.setGroup k g).reading = c.reading := rfl
@[simp] theorem Core.setGroup_fetching (c : Core) (k : Nat) (g : Group) : (c.setGroup k g).fetching = c.fetching := rfl
@[simp] theorem Core.setGroup_vres (c : Core) (k : Nat) (g : Group) : (c.setGroup k g).vres = c.vres := rfl
@[simp] theorem Core.setGroup_fills (c : Core) (k : Nat) (g : Group) : (c.setGroup k g).fills = c.fills := rfl
@[simp] theorem Core.setGroup_ports (c : Core) (k : Nat) (g : Group) : (c.setGroup k g).ports = c.ports := rfl
@[simp] theorem Core.setGroup_gport (c : Core) (k : Nat) (g : Group) : (c.setGroup k g).gport = c.gport := rfl
@[simp] theorem Core.setGroup_sport (c : Core) (k : Nat) (g : Group) : (c.setGroup k g).sport = c.sport := rfl
@[simp] theorem Core.setGroup_l1 (c : Core) (k : Nat) (g : Group) : (c.setGroup k g).l1 = c.l1 := rfl
@[simp] theorem Core.setGroup_icache (c : Core) (k : Nat) (g : Group) : (c.setGroup k g).icache = c.icache := rfl
@[simp] theorem Core.setGroup_loops (c : Core) (k : Nat) (g : Group) : (c.setGroup k g).loops = c.loops := rfl
@[simp] theorem Core.setGroup_loopReq (c : Core) (k : Nat) (g : Group) : (c.setGroup k g).loopReq = c.loopReq := rfl
@[simp] theorem Core.setGroup_loopLast (c : Core) (k : Nat) (g : Group) : (c.setGroup k g).loopLast = c.loopLast := rfl
@[simp] theorem Core.setGroup_loopServed (c : Core) (k : Nat) (g : Group) : (c.setGroup k g).loopServed = c.loopServed := rfl
@[simp] theorem Core.setGroup_lastPage (c : Core) (k : Nat) (g : Group) : (c.setGroup k g).lastPage = c.lastPage := rfl
@[simp] theorem Core.setGroup_wc (c : Core) (k : Nat) (g : Group) : (c.setGroup k g).wc = c.wc := rfl
@[simp] theorem Core.setGroup_jobs (c : Core) (k : Nat) (g : Group) : (c.setGroup k g).jobs = c.jobs := rfl
@[simp] theorem Core.setGroup_btcache (c : Core) (k : Nat) (g : Group) : (c.setGroup k g).btcache = c.btcache := rfl
@[simp] theorem Core.setGroup_engine (c : Core) (k : Nat) (g : Group) : (c.setGroup k g).engine = c.engine := rfl
@[simp] theorem Core.setGroup_engineFree (c : Core) (k : Nat) (g : Group) : (c.setGroup k g).engineFree = c.engineFree := rfl
@[simp] theorem Core.setGroup_tracker (c : Core) (k : Nat) (g : Group) : (c.setGroup k g).tracker = c.tracker := rfl
@[simp] theorem Core.setGroup_errors (c : Core) (k : Nat) (g : Group) : (c.setGroup k g).errors = c.errors := rfl

/-! ### Core.modGroup -/

@[simp] theorem Core.modGroup_side (c : Core) (k : Nat) (f : Group → Group) : (c.modGroup k f).side = c.side := by
  unfold Core.modGroup; split <;> rfl
@[simp] theorem Core.modGroup_pword (c : Core) (k : Nat) (f : Group → Group) : (c.modGroup k f).pword = c.pword := by
  unfold Core.modGroup; split <;> rfl
@[simp] theorem Core.modGroup_dividing (c : Core) (k : Nat) (f : Group → Group) : (c.modGroup k f).dividing = c.dividing := by
  unfold Core.modGroup; split <;> rfl
@[simp] theorem Core.modGroup_owner (c : Core) (k : Nat) (f : Group → Group) : (c.modGroup k f).owner = c.owner := by
  unfold Core.modGroup; split <;> rfl
@[simp] theorem Core.modGroup_fenced (c : Core) (k : Nat) (f : Group → Group) : (c.modGroup k f).fenced = c.fenced := by
  unfold Core.modGroup; split <;> rfl
@[simp] theorem Core.modGroup_clk0 (c : Core) (k : Nat) (f : Group → Group) : (c.modGroup k f).clk0 = c.clk0 := by
  unfold Core.modGroup; split <;> rfl
@[simp] theorem Core.modGroup_sram (c : Core) (k : Nat) (f : Group → Group) : (c.modGroup k f).sram = c.sram := by
  unfold Core.modGroup; split <;> rfl
@[simp] theorem Core.modGroup_tags (c : Core) (k : Nat) (f : Group → Group) : (c.modGroup k f).tags = c.tags := by
  unfold Core.modGroup; split <;> rfl
@[simp] theorem Core.modGroup_sramPoison (c : Core) (k : Nat) (f : Group → Group) : (c.modGroup k f).sramPoison = c.sramPoison := by
  unfold Core.modGroup; split <;> rfl
@[simp] theorem Core.modGroup_landings (c : Core) (k : Nat) (f : Group → Group) : (c.modGroup k f).landings = c.landings := by
  unfold Core.modGroup; split <;> rfl
@[simp] theorem Core.modGroup_lastLaunch (c : Core) (k : Nat) (f : Group → Group) : (c.modGroup k f).lastLaunch = c.lastLaunch := by
  unfold Core.modGroup; split <;> rfl
@[simp] theorem Core.modGroup_reading (c : Core) (k : Nat) (f : Group → Group) : (c.modGroup k f).reading = c.reading := by
  unfold Core.modGroup; split <;> rfl
@[simp] theorem Core.modGroup_fetching (c : Core) (k : Nat) (f : Group → Group) : (c.modGroup k f).fetching = c.fetching := by
  unfold Core.modGroup; split <;> rfl
@[simp] theorem Core.modGroup_vres (c : Core) (k : Nat) (f : Group → Group) : (c.modGroup k f).vres = c.vres := by
  unfold Core.modGroup; split <;> rfl
@[simp] theorem Core.modGroup_fills (c : Core) (k : Nat) (f : Group → Group) : (c.modGroup k f).fills = c.fills := by
  unfold Core.modGroup; split <;> rfl
@[simp] theorem Core.modGroup_ports (c : Core) (k : Nat) (f : Group → Group) : (c.modGroup k f).ports = c.ports := by
  unfold Core.modGroup; split <;> rfl
@[simp] theorem Core.modGroup_gport (c : Core) (k : Nat) (f : Group → Group) : (c.modGroup k f).gport = c.gport := by
  unfold Core.modGroup; split <;> rfl
@[simp] theorem Core.modGroup_sport (c : Core) (k : Nat) (f : Group → Group) : (c.modGroup k f).sport = c.sport := by
  unfold Core.modGroup; split <;> rfl
@[simp] theorem Core.modGroup_l1 (c : Core) (k : Nat) (f : Group → Group) : (c.modGroup k f).l1 = c.l1 := by
  unfold Core.modGroup; split <;> rfl
@[simp] theorem Core.modGroup_icache (c : Core) (k : Nat) (f : Group → Group) : (c.modGroup k f).icache = c.icache := by
  unfold Core.modGroup; split <;> rfl
@[simp] theorem Core.modGroup_loops (c : Core) (k : Nat) (f : Group → Group) : (c.modGroup k f).loops = c.loops := by
  unfold Core.modGroup; split <;> rfl
@[simp] theorem Core.modGroup_loopReq (c : Core) (k : Nat) (f : Group → Group) : (c.modGroup k f).loopReq = c.loopReq := by
  unfold Core.modGroup; split <;> rfl
@[simp] theorem Core.modGroup_loopLast (c : Core) (k : Nat) (f : Group → Group) : (c.modGroup k f).loopLast = c.loopLast := by
  unfold Core.modGroup; split <;> rfl
@[simp] theorem Core.modGroup_loopServed (c : Core) (k : Nat) (f : Group → Group) : (c.modGroup k f).loopServed = c.loopServed := by
  unfold Core.modGroup; split <;> rfl
@[simp] theorem Core.modGroup_lastPage (c : Core) (k : Nat) (f : Group → Group) : (c.modGroup k f).lastPage = c.lastPage := by
  unfold Core.modGroup; split <;> rfl
@[simp] theorem Core.modGroup_wc (c : Core) (k : Nat) (f : Group → Group) : (c.modGroup k f).wc = c.wc := by
  unfold Core.modGroup; split <;> rfl
@[simp] theorem Core.modGroup_jobs (c : Core) (k : Nat) (f : Group → Group) : (c.modGroup k f).jobs = c.jobs := by
  unfold Core.modGroup; split <;> rfl
@[simp] theorem Core.modGroup_btcache (c : Core) (k : Nat) (f : Group → Group) : (c.modGroup k f).btcache = c.btcache := by
  unfold Core.modGroup; split <;> rfl
@[simp] theorem Core.modGroup_engine (c : Core) (k : Nat) (f : Group → Group) : (c.modGroup k f).engine = c.engine := by
  unfold Core.modGroup; split <;> rfl
@[simp] theorem Core.modGroup_engineFree (c : Core) (k : Nat) (f : Group → Group) : (c.modGroup k f).engineFree = c.engineFree := by
  unfold Core.modGroup; split <;> rfl
@[simp] theorem Core.modGroup_tracker (c : Core) (k : Nat) (f : Group → Group) : (c.modGroup k f).tracker = c.tracker := by
  unfold Core.modGroup; split <;> rfl
@[simp] theorem Core.modGroup_errors (c : Core) (k : Nat) (f : Group → Group) : (c.modGroup k f).errors = c.errors := by
  unfold Core.modGroup; split <;> rfl

/-! ### Core.modThread -/

@[simp] theorem Core.modThread_side (c : Core) (k l : Nat) (f : Thread → Thread) : (c.modThread k l f).side = c.side := by
  unfold Core.modThread; simp
@[simp] theorem Core.modThread_pword (c : Core) (k l : Nat) (f : Thread → Thread) : (c.modThread k l f).pword = c.pword := by
  unfold Core.modThread; simp
@[simp] theorem Core.modThread_dividing (c : Core) (k l : Nat) (f : Thread → Thread) : (c.modThread k l f).dividing = c.dividing := by
  unfold Core.modThread; simp
@[simp] theorem Core.modThread_owner (c : Core) (k l : Nat) (f : Thread → Thread) : (c.modThread k l f).owner = c.owner := by
  unfold Core.modThread; simp
@[simp] theorem Core.modThread_fenced (c : Core) (k l : Nat) (f : Thread → Thread) : (c.modThread k l f).fenced = c.fenced := by
  unfold Core.modThread; simp
@[simp] theorem Core.modThread_clk0 (c : Core) (k l : Nat) (f : Thread → Thread) : (c.modThread k l f).clk0 = c.clk0 := by
  unfold Core.modThread; simp
@[simp] theorem Core.modThread_sram (c : Core) (k l : Nat) (f : Thread → Thread) : (c.modThread k l f).sram = c.sram := by
  unfold Core.modThread; simp
@[simp] theorem Core.modThread_tags (c : Core) (k l : Nat) (f : Thread → Thread) : (c.modThread k l f).tags = c.tags := by
  unfold Core.modThread; simp
@[simp] theorem Core.modThread_sramPoison (c : Core) (k l : Nat) (f : Thread → Thread) : (c.modThread k l f).sramPoison = c.sramPoison := by
  unfold Core.modThread; simp
@[simp] theorem Core.modThread_landings (c : Core) (k l : Nat) (f : Thread → Thread) : (c.modThread k l f).landings = c.landings := by
  unfold Core.modThread; simp
@[simp] theorem Core.modThread_lastLaunch (c : Core) (k l : Nat) (f : Thread → Thread) : (c.modThread k l f).lastLaunch = c.lastLaunch := by
  unfold Core.modThread; simp
@[simp] theorem Core.modThread_reading (c : Core) (k l : Nat) (f : Thread → Thread) : (c.modThread k l f).reading = c.reading := by
  unfold Core.modThread; simp
@[simp] theorem Core.modThread_fetching (c : Core) (k l : Nat) (f : Thread → Thread) : (c.modThread k l f).fetching = c.fetching := by
  unfold Core.modThread; simp
@[simp] theorem Core.modThread_vres (c : Core) (k l : Nat) (f : Thread → Thread) : (c.modThread k l f).vres = c.vres := by
  unfold Core.modThread; simp
@[simp] theorem Core.modThread_fills (c : Core) (k l : Nat) (f : Thread → Thread) : (c.modThread k l f).fills = c.fills := by
  unfold Core.modThread; simp
@[simp] theorem Core.modThread_ports (c : Core) (k l : Nat) (f : Thread → Thread) : (c.modThread k l f).ports = c.ports := by
  unfold Core.modThread; simp
@[simp] theorem Core.modThread_gport (c : Core) (k l : Nat) (f : Thread → Thread) : (c.modThread k l f).gport = c.gport := by
  unfold Core.modThread; simp
@[simp] theorem Core.modThread_sport (c : Core) (k l : Nat) (f : Thread → Thread) : (c.modThread k l f).sport = c.sport := by
  unfold Core.modThread; simp
@[simp] theorem Core.modThread_l1 (c : Core) (k l : Nat) (f : Thread → Thread) : (c.modThread k l f).l1 = c.l1 := by
  unfold Core.modThread; simp
@[simp] theorem Core.modThread_icache (c : Core) (k l : Nat) (f : Thread → Thread) : (c.modThread k l f).icache = c.icache := by
  unfold Core.modThread; simp
@[simp] theorem Core.modThread_loops (c : Core) (k l : Nat) (f : Thread → Thread) : (c.modThread k l f).loops = c.loops := by
  unfold Core.modThread; simp
@[simp] theorem Core.modThread_loopReq (c : Core) (k l : Nat) (f : Thread → Thread) : (c.modThread k l f).loopReq = c.loopReq := by
  unfold Core.modThread; simp
@[simp] theorem Core.modThread_loopLast (c : Core) (k l : Nat) (f : Thread → Thread) : (c.modThread k l f).loopLast = c.loopLast := by
  unfold Core.modThread; simp
@[simp] theorem Core.modThread_loopServed (c : Core) (k l : Nat) (f : Thread → Thread) : (c.modThread k l f).loopServed = c.loopServed := by
  unfold Core.modThread; simp
@[simp] theorem Core.modThread_lastPage (c : Core) (k l : Nat) (f : Thread → Thread) : (c.modThread k l f).lastPage = c.lastPage := by
  unfold Core.modThread; simp
@[simp] theorem Core.modThread_wc (c : Core) (k l : Nat) (f : Thread → Thread) : (c.modThread k l f).wc = c.wc := by
  unfold Core.modThread; simp
@[simp] theorem Core.modThread_jobs (c : Core) (k l : Nat) (f : Thread → Thread) : (c.modThread k l f).jobs = c.jobs := by
  unfold Core.modThread; simp
@[simp] theorem Core.modThread_btcache (c : Core) (k l : Nat) (f : Thread → Thread) : (c.modThread k l f).btcache = c.btcache := by
  unfold Core.modThread; simp
@[simp] theorem Core.modThread_engine (c : Core) (k l : Nat) (f : Thread → Thread) : (c.modThread k l f).engine = c.engine := by
  unfold Core.modThread; simp
@[simp] theorem Core.modThread_engineFree (c : Core) (k l : Nat) (f : Thread → Thread) : (c.modThread k l f).engineFree = c.engineFree := by
  unfold Core.modThread; simp
@[simp] theorem Core.modThread_tracker (c : Core) (k l : Nat) (f : Thread → Thread) : (c.modThread k l f).tracker = c.tracker := by
  unfold Core.modThread; simp
@[simp] theorem Core.modThread_errors (c : Core) (k l : Nat) (f : Thread → Thread) : (c.modThread k l f).errors = c.errors := by
  unfold Core.modThread; simp

/-! ### setThread -/

@[simp] theorem Group.setThread_width (g : Group) (l : Nat) (t : Thread) : (g.setThread l t).width = g.width := rfl
@[simp] theorem Group.setThread_entered (g : Group) (l : Nat) (t : Thread) : (g.setThread l t).entered = g.entered := rfl
@[simp] theorem Group.setThread_g (g : Group) (l : Nat) (t : Thread) : (g.setThread l t).g = g.g := rfl
@[simp] theorem Group.setThread_st (g : Group) (l : Nat) (t : Thread) : (g.setThread l t).st = g.st := rfl
@[simp] theorem Group.setThread_since (g : Group) (l : Nat) (t : Thread) : (g.setThread l t).since = g.since := rfl
@[simp] theorem Group.setThread_earliest (g : Group) (l : Nat) (t : Thread) : (g.setThread l t).earliest = g.earliest := rfl
@[simp] theorem Group.setThread_age (g : Group) (l : Nat) (t : Thread) : (g.setThread l t).age = g.age := rfl
@[simp] theorem Group.setThread_paths (g : Group) (l : Nat) (t : Thread) : (g.setThread l t).paths = g.paths := rfl
@[simp] theorem Group.setThread_born (g : Group) (l : Nat) (t : Thread) : (g.setThread l t).born = g.born := rfl
@[simp] theorem Group.setThread_glive (g : Group) (l : Nat) (t : Thread) : (g.setThread l t).glive = g.glive := rfl

/-! ### Group.modThread -/

@[simp] theorem Group.modThread_width (g : Group) (l : Nat) (f : Thread → Thread) : (g.modThread l f).width = g.width := by
  unfold Group.modThread; split <;> rfl
@[simp] theorem Group.modThread_entered (g : Group) (l : Nat) (f : Thread → Thread) : (g.modThread l f).entered = g.entered := by
  unfold Group.modThread; split <;> rfl
@[simp] theorem Group.modThread_g (g : Group) (l : Nat) (f : Thread → Thread) : (g.modThread l f).g = g.g := by
  unfold Group.modThread; split <;> rfl
@[simp] theorem Group.modThread_st (g : Group) (l : Nat) (f : Thread → Thread) : (g.modThread l f).st = g.st := by
  unfold Group.modThread; split <;> rfl
@[simp] theorem Group.modThread_since (g : Group) (l : Nat) (f : Thread → Thread) : (g.modThread l f).since = g.since := by
  unfold Group.modThread; split <;> rfl
@[simp] theorem Group.modThread_earliest (g : Group) (l : Nat) (f : Thread → Thread) : (g.modThread l f).earliest = g.earliest := by
  unfold Group.modThread; split <;> rfl
@[simp] theorem Group.modThread_age (g : Group) (l : Nat) (f : Thread → Thread) : (g.modThread l f).age = g.age := by
  unfold Group.modThread; split <;> rfl
@[simp] theorem Group.modThread_paths (g : Group) (l : Nat) (f : Thread → Thread) : (g.modThread l f).paths = g.paths := by
  unfold Group.modThread; split <;> rfl
@[simp] theorem Group.modThread_born (g : Group) (l : Nat) (f : Thread → Thread) : (g.modThread l f).born = g.born := by
  unfold Group.modThread; split <;> rfl
@[simp] theorem Group.modThread_glive (g : Group) (l : Nat) (f : Thread → Thread) : (g.modThread l f).glive = g.glive := by
  unfold Group.modThread; split <;> rfl

/-! ### modAll -/

@[simp] theorem Group.modAll_width (g : Group) (f : Thread → Thread) : (g.modAll f).width = g.width := rfl
@[simp] theorem Group.modAll_entered (g : Group) (f : Thread → Thread) : (g.modAll f).entered = g.entered := rfl
@[simp] theorem Group.modAll_g (g : Group) (f : Thread → Thread) : (g.modAll f).g = g.g := rfl
@[simp] theorem Group.modAll_st (g : Group) (f : Thread → Thread) : (g.modAll f).st = g.st := rfl
@[simp] theorem Group.modAll_since (g : Group) (f : Thread → Thread) : (g.modAll f).since = g.since := rfl
@[simp] theorem Group.modAll_earliest (g : Group) (f : Thread → Thread) : (g.modAll f).earliest = g.earliest := rfl
@[simp] theorem Group.modAll_age (g : Group) (f : Thread → Thread) : (g.modAll f).age = g.age := rfl
@[simp] theorem Group.modAll_paths (g : Group) (f : Thread → Thread) : (g.modAll f).paths = g.paths := rfl
@[simp] theorem Group.modAll_born (g : Group) (f : Thread → Thread) : (g.modAll f).born = g.born := rfl
@[simp] theorem Group.modAll_glive (g : Group) (f : Thread → Thread) : (g.modAll f).glive = g.glive := rfl

/-! ### vacate -/

@[simp] theorem Thread.vacate_index (t : Thread) (rs : List Nat) : (t.vacate rs).index = t.index := rfl
@[simp] theorem Thread.vacate_spawned (t : Thread) (rs : List Nat) : (t.vacate rs).spawned = t.spawned := rfl
@[simp] theorem Thread.vacate_pc (t : Thread) (rs : List Nat) : (t.vacate rs).pc = t.pc := rfl
@[simp] theorem Thread.vacate_lv (t : Thread) (rs : List Nat) : (t.vacate rs).lv = t.lv := rfl
@[simp] theorem Thread.vacate_p (t : Thread) (rs : List Nat) : (t.vacate rs).p = t.p := rfl
@[simp] theorem Thread.vacate_ptags (t : Thread) (rs : List Nat) : (t.vacate rs).ptags = t.ptags := rfl
@[simp] theorem Thread.vacate_seed (t : Thread) (rs : List Nat) : (t.vacate rs).seed = t.seed := rfl
@[simp] theorem Thread.vacate_trapcause (t : Thread) (rs : List Nat) : (t.vacate rs).trapcause = t.trapcause := rfl
@[simp] theorem Thread.vacate_trapaddr (t : Thread) (rs : List Nat) : (t.vacate rs).trapaddr = t.trapaddr := rfl
@[simp] theorem Thread.vacate_trappc (t : Thread) (rs : List Nat) : (t.vacate rs).trappc = t.trappc := rfl
@[simp] theorem Thread.vacate_handler (t : Thread) (rs : List Nat) : (t.vacate rs).handler = t.handler := rfl
@[simp] theorem Thread.vacate_shadow (t : Thread) (rs : List Nat) : (t.vacate rs).shadow = t.shadow := rfl
@[simp] theorem Thread.vacate_next (t : Thread) (rs : List Nat) : (t.vacate rs).next = t.next := rfl
@[simp] theorem Thread.vacate_lastSolo (t : Thread) (rs : List Nat) : (t.vacate rs).lastSolo = t.lastSolo := rfl
@[simp] theorem Thread.vacate_wait (t : Thread) (rs : List Nat) : (t.vacate rs).wait = t.wait := rfl
@[simp] theorem Thread.vacate_await (t : Thread) (rs : List Nat) : (t.vacate rs).await = t.await := rfl
@[simp] theorem Thread.vacate_sig (t : Thread) (rs : List Nat) : (t.vacate rs).sig = t.sig := rfl
@[simp] theorem Thread.vacate_exited (t : Thread) (rs : List Nat) : (t.vacate rs).exited = t.exited := rfl
@[simp] theorem Thread.vacate_stopped (t : Thread) (rs : List Nat) : (t.vacate rs).stopped = t.stopped := rfl
@[simp] theorem Thread.vacate_l1since (t : Thread) (rs : List Nat) : (t.vacate rs).l1since = t.l1since := rfl
@[simp] theorem Thread.vacate_acqNext (t : Thread) (rs : List Nat) : (t.vacate rs).acqNext = t.acqNext := rfl
@[simp] theorem Thread.vacate_loadsDone (t : Thread) (rs : List Nat) : (t.vacate rs).loadsDone = t.loadsDone := rfl
@[simp] theorem Thread.vacate_storesDone (t : Thread) (rs : List Nat) : (t.vacate rs).storesDone = t.storesDone := rfl
@[simp] theorem Thread.vacate_pubDone (t : Thread) (rs : List Nat) : (t.vacate rs).pubDone = t.pubDone := rfl
@[simp] theorem Thread.vacate_pubs (t : Thread) (rs : List Nat) : (t.vacate rs).pubs = t.pubs := rfl
@[simp] theorem Thread.vacate_workDone (t : Thread) (rs : List Nat) : (t.vacate rs).workDone = t.workDone := rfl
@[simp] theorem Thread.vacate_pendv (t : Thread) (rs : List Nat) : (t.vacate rs).pendv = t.pendv := rfl
@[simp] theorem Thread.vacate_acqs (t : Thread) (rs : List Nat) : (t.vacate rs).acqs = t.acqs := rfl
@[simp] theorem Thread.vacate_plive (t : Thread) (rs : List Nat) : (t.vacate rs).plive = t.plive := rfl

/-! ### landV -/

@[simp] theorem Thread.landV_index (t : Thread) (tag n : Nat) (m x : Word) : (t.landV tag n m x).index = t.index := by
  unfold Thread.landV; split <;> rfl
@[simp] theorem Thread.landV_spawned (t : Thread) (tag n : Nat) (m x : Word) : (t.landV tag n m x).spawned = t.spawned := by
  unfold Thread.landV; split <;> rfl
@[simp] theorem Thread.landV_pc (t : Thread) (tag n : Nat) (m x : Word) : (t.landV tag n m x).pc = t.pc := by
  unfold Thread.landV; split <;> rfl
@[simp] theorem Thread.landV_lv (t : Thread) (tag n : Nat) (m x : Word) : (t.landV tag n m x).lv = t.lv := by
  unfold Thread.landV; split <;> rfl
@[simp] theorem Thread.landV_p (t : Thread) (tag n : Nat) (m x : Word) : (t.landV tag n m x).p = t.p := by
  unfold Thread.landV; split <;> rfl
@[simp] theorem Thread.landV_ptags (t : Thread) (tag n : Nat) (m x : Word) : (t.landV tag n m x).ptags = t.ptags := by
  unfold Thread.landV; split <;> rfl
@[simp] theorem Thread.landV_seed (t : Thread) (tag n : Nat) (m x : Word) : (t.landV tag n m x).seed = t.seed := by
  unfold Thread.landV; split <;> rfl
@[simp] theorem Thread.landV_trapcause (t : Thread) (tag n : Nat) (m x : Word) : (t.landV tag n m x).trapcause = t.trapcause := by
  unfold Thread.landV; split <;> rfl
@[simp] theorem Thread.landV_trapaddr (t : Thread) (tag n : Nat) (m x : Word) : (t.landV tag n m x).trapaddr = t.trapaddr := by
  unfold Thread.landV; split <;> rfl
@[simp] theorem Thread.landV_trappc (t : Thread) (tag n : Nat) (m x : Word) : (t.landV tag n m x).trappc = t.trappc := by
  unfold Thread.landV; split <;> rfl
@[simp] theorem Thread.landV_handler (t : Thread) (tag n : Nat) (m x : Word) : (t.landV tag n m x).handler = t.handler := by
  unfold Thread.landV; split <;> rfl
@[simp] theorem Thread.landV_shadow (t : Thread) (tag n : Nat) (m x : Word) : (t.landV tag n m x).shadow = t.shadow := by
  unfold Thread.landV; split <;> rfl
@[simp] theorem Thread.landV_next (t : Thread) (tag n : Nat) (m x : Word) : (t.landV tag n m x).next = t.next := by
  unfold Thread.landV; split <;> rfl
@[simp] theorem Thread.landV_lastSolo (t : Thread) (tag n : Nat) (m x : Word) : (t.landV tag n m x).lastSolo = t.lastSolo := by
  unfold Thread.landV; split <;> rfl
@[simp] theorem Thread.landV_wait (t : Thread) (tag n : Nat) (m x : Word) : (t.landV tag n m x).wait = t.wait := by
  unfold Thread.landV; split <;> rfl
@[simp] theorem Thread.landV_await (t : Thread) (tag n : Nat) (m x : Word) : (t.landV tag n m x).await = t.await := by
  unfold Thread.landV; split <;> rfl
@[simp] theorem Thread.landV_sig (t : Thread) (tag n : Nat) (m x : Word) : (t.landV tag n m x).sig = t.sig := by
  unfold Thread.landV; split <;> rfl
@[simp] theorem Thread.landV_exited (t : Thread) (tag n : Nat) (m x : Word) : (t.landV tag n m x).exited = t.exited := by
  unfold Thread.landV; split <;> rfl
@[simp] theorem Thread.landV_stopped (t : Thread) (tag n : Nat) (m x : Word) : (t.landV tag n m x).stopped = t.stopped := by
  unfold Thread.landV; split <;> rfl
@[simp] theorem Thread.landV_l1since (t : Thread) (tag n : Nat) (m x : Word) : (t.landV tag n m x).l1since = t.l1since := by
  unfold Thread.landV; split <;> rfl
@[simp] theorem Thread.landV_acqNext (t : Thread) (tag n : Nat) (m x : Word) : (t.landV tag n m x).acqNext = t.acqNext := by
  unfold Thread.landV; split <;> rfl
@[simp] theorem Thread.landV_loadsDone (t : Thread) (tag n : Nat) (m x : Word) : (t.landV tag n m x).loadsDone = t.loadsDone := by
  unfold Thread.landV; split <;> rfl
@[simp] theorem Thread.landV_storesDone (t : Thread) (tag n : Nat) (m x : Word) : (t.landV tag n m x).storesDone = t.storesDone := by
  unfold Thread.landV; split <;> rfl
@[simp] theorem Thread.landV_pubDone (t : Thread) (tag n : Nat) (m x : Word) : (t.landV tag n m x).pubDone = t.pubDone := by
  unfold Thread.landV; split <;> rfl
@[simp] theorem Thread.landV_pubs (t : Thread) (tag n : Nat) (m x : Word) : (t.landV tag n m x).pubs = t.pubs := by
  unfold Thread.landV; split <;> rfl
@[simp] theorem Thread.landV_workDone (t : Thread) (tag n : Nat) (m x : Word) : (t.landV tag n m x).workDone = t.workDone := by
  unfold Thread.landV; split <;> rfl
@[simp] theorem Thread.landV_pendv (t : Thread) (tag n : Nat) (m x : Word) : (t.landV tag n m x).pendv = t.pendv := by
  unfold Thread.landV; split <;> rfl
@[simp] theorem Thread.landV_acqs (t : Thread) (tag n : Nat) (m x : Word) : (t.landV tag n m x).acqs = t.acqs := by
  unfold Thread.landV; split <;> rfl
@[simp] theorem Thread.landV_plive (t : Thread) (tag n : Nat) (m x : Word) : (t.landV tag n m x).plive = t.plive := by
  unfold Thread.landV; split <;> rfl

/-! ### landP -/

@[simp] theorem Thread.landP_index (t : Thread) (tag : Nat) (m x : BitVec 7) : (t.landP tag m x).index = t.index := rfl
@[simp] theorem Thread.landP_spawned (t : Thread) (tag : Nat) (m x : BitVec 7) : (t.landP tag m x).spawned = t.spawned := rfl
@[simp] theorem Thread.landP_pc (t : Thread) (tag : Nat) (m x : BitVec 7) : (t.landP tag m x).pc = t.pc := rfl
@[simp] theorem Thread.landP_v (t : Thread) (tag : Nat) (m x : BitVec 7) : (t.landP tag m x).v = t.v := rfl
@[simp] theorem Thread.landP_lv (t : Thread) (tag : Nat) (m x : BitVec 7) : (t.landP tag m x).lv = t.lv := rfl
@[simp] theorem Thread.landP_seed (t : Thread) (tag : Nat) (m x : BitVec 7) : (t.landP tag m x).seed = t.seed := rfl
@[simp] theorem Thread.landP_trapcause (t : Thread) (tag : Nat) (m x : BitVec 7) : (t.landP tag m x).trapcause = t.trapcause := rfl
@[simp] theorem Thread.landP_trapaddr (t : Thread) (tag : Nat) (m x : BitVec 7) : (t.landP tag m x).trapaddr = t.trapaddr := rfl
@[simp] theorem Thread.landP_trappc (t : Thread) (tag : Nat) (m x : BitVec 7) : (t.landP tag m x).trappc = t.trappc := rfl
@[simp] theorem Thread.landP_handler (t : Thread) (tag : Nat) (m x : BitVec 7) : (t.landP tag m x).handler = t.handler := rfl
@[simp] theorem Thread.landP_shadow (t : Thread) (tag : Nat) (m x : BitVec 7) : (t.landP tag m x).shadow = t.shadow := rfl
@[simp] theorem Thread.landP_next (t : Thread) (tag : Nat) (m x : BitVec 7) : (t.landP tag m x).next = t.next := rfl
@[simp] theorem Thread.landP_lastSolo (t : Thread) (tag : Nat) (m x : BitVec 7) : (t.landP tag m x).lastSolo = t.lastSolo := rfl
@[simp] theorem Thread.landP_wait (t : Thread) (tag : Nat) (m x : BitVec 7) : (t.landP tag m x).wait = t.wait := rfl
@[simp] theorem Thread.landP_await (t : Thread) (tag : Nat) (m x : BitVec 7) : (t.landP tag m x).await = t.await := rfl
@[simp] theorem Thread.landP_sig (t : Thread) (tag : Nat) (m x : BitVec 7) : (t.landP tag m x).sig = t.sig := rfl
@[simp] theorem Thread.landP_exited (t : Thread) (tag : Nat) (m x : BitVec 7) : (t.landP tag m x).exited = t.exited := rfl
@[simp] theorem Thread.landP_stopped (t : Thread) (tag : Nat) (m x : BitVec 7) : (t.landP tag m x).stopped = t.stopped := rfl
@[simp] theorem Thread.landP_l1since (t : Thread) (tag : Nat) (m x : BitVec 7) : (t.landP tag m x).l1since = t.l1since := rfl
@[simp] theorem Thread.landP_acqNext (t : Thread) (tag : Nat) (m x : BitVec 7) : (t.landP tag m x).acqNext = t.acqNext := rfl
@[simp] theorem Thread.landP_loadsDone (t : Thread) (tag : Nat) (m x : BitVec 7) : (t.landP tag m x).loadsDone = t.loadsDone := rfl
@[simp] theorem Thread.landP_storesDone (t : Thread) (tag : Nat) (m x : BitVec 7) : (t.landP tag m x).storesDone = t.storesDone := rfl
@[simp] theorem Thread.landP_pubDone (t : Thread) (tag : Nat) (m x : BitVec 7) : (t.landP tag m x).pubDone = t.pubDone := rfl
@[simp] theorem Thread.landP_pubs (t : Thread) (tag : Nat) (m x : BitVec 7) : (t.landP tag m x).pubs = t.pubs := rfl
@[simp] theorem Thread.landP_workDone (t : Thread) (tag : Nat) (m x : BitVec 7) : (t.landP tag m x).workDone = t.workDone := rfl
@[simp] theorem Thread.landP_pendv (t : Thread) (tag : Nat) (m x : BitVec 7) : (t.landP tag m x).pendv = t.pendv := rfl
@[simp] theorem Thread.landP_acqs (t : Thread) (tag : Nat) (m x : BitVec 7) : (t.landP tag m x).acqs = t.acqs := rfl
@[simp] theorem Thread.landP_plive (t : Thread) (tag : Nat) (m x : BitVec 7) : (t.landP tag m x).plive = t.plive := rfl

/-! ### modLevel -/

@[simp] theorem Thread.modLevel_index (t : Thread) (k : Nat) (f : Level → Level) : (t.modLevel k f).index = t.index := by
  unfold Thread.modLevel; split <;> (try split) <;> rfl
@[simp] theorem Thread.modLevel_spawned (t : Thread) (k : Nat) (f : Level → Level) : (t.modLevel k f).spawned = t.spawned := by
  unfold Thread.modLevel; split <;> (try split) <;> rfl
@[simp] theorem Thread.modLevel_pc (t : Thread) (k : Nat) (f : Level → Level) : (t.modLevel k f).pc = t.pc := by
  unfold Thread.modLevel; split <;> (try split) <;> rfl
@[simp] theorem Thread.modLevel_v (t : Thread) (k : Nat) (f : Level → Level) : (t.modLevel k f).v = t.v := by
  unfold Thread.modLevel; split <;> (try split) <;> rfl
@[simp] theorem Thread.modLevel_p (t : Thread) (k : Nat) (f : Level → Level) : (t.modLevel k f).p = t.p := by
  unfold Thread.modLevel; split <;> (try split) <;> rfl
@[simp] theorem Thread.modLevel_ptags (t : Thread) (k : Nat) (f : Level → Level) : (t.modLevel k f).ptags = t.ptags := by
  unfold Thread.modLevel; split <;> (try split) <;> rfl
@[simp] theorem Thread.modLevel_seed (t : Thread) (k : Nat) (f : Level → Level) : (t.modLevel k f).seed = t.seed := by
  unfold Thread.modLevel; split <;> (try split) <;> rfl
@[simp] theorem Thread.modLevel_trapcause (t : Thread) (k : Nat) (f : Level → Level) : (t.modLevel k f).trapcause = t.trapcause := by
  unfold Thread.modLevel; split <;> (try split) <;> rfl
@[simp] theorem Thread.modLevel_trapaddr (t : Thread) (k : Nat) (f : Level → Level) : (t.modLevel k f).trapaddr = t.trapaddr := by
  unfold Thread.modLevel; split <;> (try split) <;> rfl
@[simp] theorem Thread.modLevel_trappc (t : Thread) (k : Nat) (f : Level → Level) : (t.modLevel k f).trappc = t.trappc := by
  unfold Thread.modLevel; split <;> (try split) <;> rfl
@[simp] theorem Thread.modLevel_handler (t : Thread) (k : Nat) (f : Level → Level) : (t.modLevel k f).handler = t.handler := by
  unfold Thread.modLevel; split <;> (try split) <;> rfl
@[simp] theorem Thread.modLevel_next (t : Thread) (k : Nat) (f : Level → Level) : (t.modLevel k f).next = t.next := by
  unfold Thread.modLevel; split <;> (try split) <;> rfl
@[simp] theorem Thread.modLevel_lastSolo (t : Thread) (k : Nat) (f : Level → Level) : (t.modLevel k f).lastSolo = t.lastSolo := by
  unfold Thread.modLevel; split <;> (try split) <;> rfl
@[simp] theorem Thread.modLevel_wait (t : Thread) (k : Nat) (f : Level → Level) : (t.modLevel k f).wait = t.wait := by
  unfold Thread.modLevel; split <;> (try split) <;> rfl
@[simp] theorem Thread.modLevel_await (t : Thread) (k : Nat) (f : Level → Level) : (t.modLevel k f).await = t.await := by
  unfold Thread.modLevel; split <;> (try split) <;> rfl
@[simp] theorem Thread.modLevel_sig (t : Thread) (k : Nat) (f : Level → Level) : (t.modLevel k f).sig = t.sig := by
  unfold Thread.modLevel; split <;> (try split) <;> rfl
@[simp] theorem Thread.modLevel_exited (t : Thread) (k : Nat) (f : Level → Level) : (t.modLevel k f).exited = t.exited := by
  unfold Thread.modLevel; split <;> (try split) <;> rfl
@[simp] theorem Thread.modLevel_stopped (t : Thread) (k : Nat) (f : Level → Level) : (t.modLevel k f).stopped = t.stopped := by
  unfold Thread.modLevel; split <;> (try split) <;> rfl
@[simp] theorem Thread.modLevel_l1since (t : Thread) (k : Nat) (f : Level → Level) : (t.modLevel k f).l1since = t.l1since := by
  unfold Thread.modLevel; split <;> (try split) <;> rfl
@[simp] theorem Thread.modLevel_acqNext (t : Thread) (k : Nat) (f : Level → Level) : (t.modLevel k f).acqNext = t.acqNext := by
  unfold Thread.modLevel; split <;> (try split) <;> rfl
@[simp] theorem Thread.modLevel_loadsDone (t : Thread) (k : Nat) (f : Level → Level) : (t.modLevel k f).loadsDone = t.loadsDone := by
  unfold Thread.modLevel; split <;> (try split) <;> rfl
@[simp] theorem Thread.modLevel_storesDone (t : Thread) (k : Nat) (f : Level → Level) : (t.modLevel k f).storesDone = t.storesDone := by
  unfold Thread.modLevel; split <;> (try split) <;> rfl
@[simp] theorem Thread.modLevel_pubDone (t : Thread) (k : Nat) (f : Level → Level) : (t.modLevel k f).pubDone = t.pubDone := by
  unfold Thread.modLevel; split <;> (try split) <;> rfl
@[simp] theorem Thread.modLevel_pubs (t : Thread) (k : Nat) (f : Level → Level) : (t.modLevel k f).pubs = t.pubs := by
  unfold Thread.modLevel; split <;> (try split) <;> rfl
@[simp] theorem Thread.modLevel_workDone (t : Thread) (k : Nat) (f : Level → Level) : (t.modLevel k f).workDone = t.workDone := by
  unfold Thread.modLevel; split <;> (try split) <;> rfl
@[simp] theorem Thread.modLevel_pendv (t : Thread) (k : Nat) (f : Level → Level) : (t.modLevel k f).pendv = t.pendv := by
  unfold Thread.modLevel; split <;> (try split) <;> rfl
@[simp] theorem Thread.modLevel_acqs (t : Thread) (k : Nat) (f : Level → Level) : (t.modLevel k f).acqs = t.acqs := by
  unfold Thread.modLevel; split <;> (try split) <;> rfl
@[simp] theorem Thread.modLevel_plive (t : Thread) (k : Nat) (f : Level → Level) : (t.modLevel k f).plive = t.plive := by
  unfold Thread.modLevel; split <;> (try split) <;> rfl

/-! ### enter -/

@[simp] theorem Thread.enter_index (t : Thread) (k : Nat) (a : Word) (x y h : DWord) (n : Nat) : (t.enter k a x y h n).index = t.index := rfl
@[simp] theorem Thread.enter_spawned (t : Thread) (k : Nat) (a : Word) (x y h : DWord) (n : Nat) : (t.enter k a x y h n).spawned = t.spawned := rfl
@[simp] theorem Thread.enter_v (t : Thread) (k : Nat) (a : Word) (x y h : DWord) (n : Nat) : (t.enter k a x y h n).v = t.v := rfl
@[simp] theorem Thread.enter_p (t : Thread) (k : Nat) (a : Word) (x y h : DWord) (n : Nat) : (t.enter k a x y h n).p = t.p := rfl
@[simp] theorem Thread.enter_ptags (t : Thread) (k : Nat) (a : Word) (x y h : DWord) (n : Nat) : (t.enter k a x y h n).ptags = t.ptags := rfl
@[simp] theorem Thread.enter_seed (t : Thread) (k : Nat) (a : Word) (x y h : DWord) (n : Nat) : (t.enter k a x y h n).seed = t.seed := rfl
@[simp] theorem Thread.enter_lastSolo (t : Thread) (k : Nat) (a : Word) (x y h : DWord) (n : Nat) : (t.enter k a x y h n).lastSolo = t.lastSolo := rfl
@[simp] theorem Thread.enter_await (t : Thread) (k : Nat) (a : Word) (x y h : DWord) (n : Nat) : (t.enter k a x y h n).await = t.await := rfl
@[simp] theorem Thread.enter_sig (t : Thread) (k : Nat) (a : Word) (x y h : DWord) (n : Nat) : (t.enter k a x y h n).sig = t.sig := rfl
@[simp] theorem Thread.enter_exited (t : Thread) (k : Nat) (a : Word) (x y h : DWord) (n : Nat) : (t.enter k a x y h n).exited = t.exited := rfl
@[simp] theorem Thread.enter_stopped (t : Thread) (k : Nat) (a : Word) (x y h : DWord) (n : Nat) : (t.enter k a x y h n).stopped = t.stopped := rfl
@[simp] theorem Thread.enter_l1since (t : Thread) (k : Nat) (a : Word) (x y h : DWord) (n : Nat) : (t.enter k a x y h n).l1since = t.l1since := rfl
@[simp] theorem Thread.enter_acqNext (t : Thread) (k : Nat) (a : Word) (x y h : DWord) (n : Nat) : (t.enter k a x y h n).acqNext = t.acqNext := rfl
@[simp] theorem Thread.enter_loadsDone (t : Thread) (k : Nat) (a : Word) (x y h : DWord) (n : Nat) : (t.enter k a x y h n).loadsDone = t.loadsDone := rfl
@[simp] theorem Thread.enter_storesDone (t : Thread) (k : Nat) (a : Word) (x y h : DWord) (n : Nat) : (t.enter k a x y h n).storesDone = t.storesDone := rfl
@[simp] theorem Thread.enter_pubDone (t : Thread) (k : Nat) (a : Word) (x y h : DWord) (n : Nat) : (t.enter k a x y h n).pubDone = t.pubDone := rfl
@[simp] theorem Thread.enter_pubs (t : Thread) (k : Nat) (a : Word) (x y h : DWord) (n : Nat) : (t.enter k a x y h n).pubs = t.pubs := rfl
@[simp] theorem Thread.enter_workDone (t : Thread) (k : Nat) (a : Word) (x y h : DWord) (n : Nat) : (t.enter k a x y h n).workDone = t.workDone := rfl
@[simp] theorem Thread.enter_pendv (t : Thread) (k : Nat) (a : Word) (x y h : DWord) (n : Nat) : (t.enter k a x y h n).pendv = t.pendv := rfl
@[simp] theorem Thread.enter_acqs (t : Thread) (k : Nat) (a : Word) (x y h : DWord) (n : Nat) : (t.enter k a x y h n).acqs = t.acqs := rfl
@[simp] theorem Thread.enter_plive (t : Thread) (k : Nat) (a : Word) (x y h : DWord) (n : Nat) : (t.enter k a x y h n).plive = t.plive := rfl

/-! ### leave -/

@[simp] theorem Thread.leave_index (t : Thread) (n : Nat) : (t.leave n).index = t.index := rfl
@[simp] theorem Thread.leave_spawned (t : Thread) (n : Nat) : (t.leave n).spawned = t.spawned := rfl
@[simp] theorem Thread.leave_v (t : Thread) (n : Nat) : (t.leave n).v = t.v := rfl
@[simp] theorem Thread.leave_p (t : Thread) (n : Nat) : (t.leave n).p = t.p := rfl
@[simp] theorem Thread.leave_ptags (t : Thread) (n : Nat) : (t.leave n).ptags = t.ptags := rfl
@[simp] theorem Thread.leave_seed (t : Thread) (n : Nat) : (t.leave n).seed = t.seed := rfl
@[simp] theorem Thread.leave_trapcause (t : Thread) (n : Nat) : (t.leave n).trapcause = t.trapcause := rfl
@[simp] theorem Thread.leave_trapaddr (t : Thread) (n : Nat) : (t.leave n).trapaddr = t.trapaddr := rfl
@[simp] theorem Thread.leave_trappc (t : Thread) (n : Nat) : (t.leave n).trappc = t.trappc := rfl
@[simp] theorem Thread.leave_shadow (t : Thread) (n : Nat) : (t.leave n).shadow = t.shadow := rfl
@[simp] theorem Thread.leave_lastSolo (t : Thread) (n : Nat) : (t.leave n).lastSolo = t.lastSolo := rfl
@[simp] theorem Thread.leave_wait (t : Thread) (n : Nat) : (t.leave n).wait = t.wait := rfl
@[simp] theorem Thread.leave_await (t : Thread) (n : Nat) : (t.leave n).await = t.await := rfl
@[simp] theorem Thread.leave_sig (t : Thread) (n : Nat) : (t.leave n).sig = t.sig := rfl
@[simp] theorem Thread.leave_exited (t : Thread) (n : Nat) : (t.leave n).exited = t.exited := rfl
@[simp] theorem Thread.leave_stopped (t : Thread) (n : Nat) : (t.leave n).stopped = t.stopped := rfl
@[simp] theorem Thread.leave_l1since (t : Thread) (n : Nat) : (t.leave n).l1since = t.l1since := rfl
@[simp] theorem Thread.leave_acqNext (t : Thread) (n : Nat) : (t.leave n).acqNext = t.acqNext := rfl
@[simp] theorem Thread.leave_loadsDone (t : Thread) (n : Nat) : (t.leave n).loadsDone = t.loadsDone := rfl
@[simp] theorem Thread.leave_storesDone (t : Thread) (n : Nat) : (t.leave n).storesDone = t.storesDone := rfl
@[simp] theorem Thread.leave_pubDone (t : Thread) (n : Nat) : (t.leave n).pubDone = t.pubDone := rfl
@[simp] theorem Thread.leave_pubs (t : Thread) (n : Nat) : (t.leave n).pubs = t.pubs := rfl
@[simp] theorem Thread.leave_workDone (t : Thread) (n : Nat) : (t.leave n).workDone = t.workDone := rfl
@[simp] theorem Thread.leave_pendv (t : Thread) (n : Nat) : (t.leave n).pendv = t.pendv := rfl
@[simp] theorem Thread.leave_acqs (t : Thread) (n : Nat) : (t.leave n).acqs = t.acqs := rfl
@[simp] theorem Thread.leave_plive (t : Thread) (n : Nat) : (t.leave n).plive = t.plive := rfl

end Sys2Proof.Machine
end

