-- ==== Sys2Proof/Laws/Tab.lean ====
section
/-! SUPPORT. Laws of the sorted tables: reads after writes and removals, and the canonical form. -/

namespace Sys2Proof

variable {α : Type}

@[simp] theorem Tab.find_nil (k : Nat) : Tab.find ([] : Tab α) k = none := rfl
@[simp] theorem Tab.get_nil (d : α) (k : Nat) : Tab.get ([] : Tab α) d k = d := rfl

/-- A read of the key just written finds the value, whatever the list. -/
@[simp] theorem Tab.find_put_same (t : Tab α) (k : Nat) (v : α) : (t.put k v).find k = some v := by
  induction t with
  | nil => simp [Tab.put, Tab.find]
  | cons e t ih =>
    obtain ⟨j, w⟩ := e
    unfold Tab.put
    split
    · simp [Tab.find]
    · split
      · simp [Tab.find]
      · rename_i h1 h2
        simp [Tab.find, h1, h2, ih]

/-- A read of another key finds what it found. -/
theorem Tab.find_put_other (t : Tab α) (v : α) {k n : Nat} (h : n ≠ k) :
    (t.put k v).find n = t.find n := by
  induction t with
  | nil =>
    simp only [Tab.put, Tab.find]
    split
    · omega
    · split <;> rfl
  | cons e t ih =>
    obtain ⟨j, w⟩ := e
    unfold Tab.put
    split
    · subst_vars
      simp only [Tab.find]
      split
      · omega
      · rfl
    · split
      · simp only [Tab.find]
        split
        · omega
        · split
          · split
            · omega
            · split
              · rfl
              · omega
          · rfl
      · simp only [Tab.find, ih]

@[simp] theorem Tab.get_put_same (t : Tab α) (d : α) (k : Nat) (v : α) : (t.put k v).get d k = v := by
  simp [Tab.get]

theorem Tab.get_put_other (t : Tab α) (d v : α) {k n : Nat} (h : n ≠ k) :
    (t.put k v).get d n = t.get d n := by
  simp [Tab.get, Tab.find_put_other t v h]

theorem Tab.get_put (t : Tab α) (d v : α) (k n : Nat) :
    (t.put k v).get d n = if n = k then v else t.get d n := by
  split
  · subst_vars; simp
  · exact Tab.get_put_other t d v ‹_›

/-! ## The order of keys -/

theorem Tab.above_mono {n m : Nat} (h : n ≤ m) {t : Tab α} (ht : t.above m = true) : t.above n = true := by
  cases t with
  | nil => rfl
  | cons e t => simp only [Tab.above, decide_eq_true_eq] at *; omega

theorem Tab.find_above {n : Nat} {t : Tab α} (h : t.above n = true) (k : Nat) (hk : k ≤ n) :
    t.find k = none := by
  cases t with
  | nil => rfl
  | cons e t =>
    obtain ⟨j, w⟩ := e
    simp only [Tab.above, decide_eq_true_eq] at h
    simp only [Tab.find]
    split
    · omega
    · split
      · rfl
      · omega

theorem Tab.above_put {n k : Nat} {t : Tab α} (v : α) (h : t.above n = true) (hk : n < k) :
    (t.put k v).above n = true := by
  cases t with
  | nil => simpa [Tab.put, Tab.above] using hk
  | cons e t =>
    obtain ⟨j, w⟩ := e
    simp only [Tab.above, decide_eq_true_eq] at h
    unfold Tab.put
    split
    · simpa [Tab.above] using hk
    · split <;> simp only [Tab.above, decide_eq_true_eq] <;> omega

theorem Tab.sorted_put {t : Tab α} (k : Nat) (v : α) (h : t.sorted = true) :
    (t.put k v).sorted = true := by
  induction t with
  | nil => rfl
  | cons e t ih =>
    obtain ⟨j, w⟩ := e
    simp only [Tab.sorted, Bool.and_eq_true] at h
    unfold Tab.put
    split
    · subst_vars; simpa [Tab.sorted] using h
    · split
      · simp only [Tab.sorted, Bool.and_eq_true, Tab.above, decide_eq_true_eq]
        exact ⟨‹_›, h⟩
      · simp only [Tab.sorted, Bool.and_eq_true]
        exact ⟨Tab.above_put v h.1 (by omega), ih h.2⟩

theorem Tab.above_del {n : Nat} {t : Tab α} (k : Nat) (h : t.above n = true) (hs : t.sorted = true) :
    (t.del k).above n = true := by
  cases t with
  | nil => rfl
  | cons e t =>
    obtain ⟨j, w⟩ := e
    simp only [Tab.above, decide_eq_true_eq] at h
    simp only [Tab.sorted, Bool.and_eq_true] at hs
    unfold Tab.del
    split
    · exact Tab.above_mono (Nat.le_of_lt h) hs.1
    · split <;> simpa [Tab.above] using h

theorem Tab.sorted_del {t : Tab α} (k : Nat) (h : t.sorted = true) : (t.del k).sorted = true := by
  induction t with
  | nil => rfl
  | cons e t ih =>
    obtain ⟨j, w⟩ := e
    have h' := h
    simp only [Tab.sorted, Bool.and_eq_true] at h
    unfold Tab.del
    split
    · exact h.2
    · split
      · exact h'
      · simp only [Tab.sorted, Bool.and_eq_true]
        exact ⟨Tab.above_del k h.1 h.2, ih h.2⟩

/-- In a sorted table a removed key is no longer listed. -/
theorem Tab.find_del_same {t : Tab α} (k : Nat) (h : t.sorted = true) : (t.del k).find k = none := by
  induction t with
  | nil => rfl
  | cons e t ih =>
    obtain ⟨j, w⟩ := e
    simp only [Tab.sorted, Bool.and_eq_true] at h
    unfold Tab.del
    split
    · subst_vars; exact Tab.find_above h.1 _ (Nat.le_refl _)
    · split
      · simp [Tab.find, *]
      · simp [Tab.find, ih h.2, *]

/-- Removing a key leaves the others. -/
theorem Tab.find_del_other {t : Tab α} {k n : Nat} (hs : t.sorted = true) (h : n ≠ k) :
    (t.del k).find n = t.find n := by
  induction t with
  | nil => rfl
  | cons e t ih =>
    obtain ⟨j, w⟩ := e
    simp only [Tab.sorted, Bool.and_eq_true] at hs
    unfold Tab.del
    split
    · subst_vars
      simp only [Tab.find]
      split
      · omega
      · split
        · exact Tab.find_above hs.1 n (by omega)
        · rfl
    · split
      · rfl
      · simp only [Tab.find, ih hs.2]

/-! ## The canonical form -/

section canonical
variable [DecidableEq α]

theorem Tab.noDefault_put {d v : α} {t : Tab α} (k : Nat) (hv : v ≠ d) (h : t.noDefault d = true) :
    (t.put k v).noDefault d = true := by
  induction t with
  | nil => simp [Tab.put, Tab.noDefault, hv]
  | cons e t ih =>
    obtain ⟨j, w⟩ := e
    simp only [Tab.noDefault, Bool.and_eq_true, decide_eq_true_eq] at h
    unfold Tab.put
    split
    · simp [Tab.noDefault, hv, h.2]
    · split
      · simp [Tab.noDefault, hv, h.1, h.2]
      · simp [Tab.noDefault, h.1, ih h.2]

theorem Tab.noDefault_del {d : α} {t : Tab α} (k : Nat) (h : t.noDefault d = true) :
    (t.del k).noDefault d = true := by
  induction t with
  | nil => rfl
  | cons e t ih =>
    obtain ⟨j, w⟩ := e
    simp only [Tab.noDefault, Bool.and_eq_true, decide_eq_true_eq] at h
    unfold Tab.del
    split
    · exact h.2
    · split
      · simp [Tab.noDefault, h.1, h.2]
      · simp [Tab.noDefault, h.1, ih h.2]

/-- A write keeps the canonical form. -/
theorem Tab.canon_set {d : α} {t : Tab α} (k : Nat) (v : α) (h : t.canon d = true) :
    (t.set d k v).canon d = true := by
  simp only [Tab.canon, Bool.and_eq_true] at *
  unfold Tab.set
  split
  · exact ⟨Tab.sorted_del k h.1, Tab.noDefault_del k h.2⟩
  · exact ⟨Tab.sorted_put k v h.1, Tab.noDefault_put k ‹_› h.2⟩

/-- A read after a write to the same key gives the value. -/
theorem Tab.get_set_same {d : α} {t : Tab α} (k : Nat) (v : α) (h : t.canon d = true) :
    (t.set d k v).get d k = v := by
  simp only [Tab.canon, Bool.and_eq_true] at h
  unfold Tab.set Tab.get
  split
  · subst_vars; simp [Tab.find_del_same k h.1]
  · simp

/-- A write leaves every other key alone. -/
theorem Tab.get_set_other {d : α} {t : Tab α} {k n : Nat} (v : α) (h : t.canon d = true) (hn : n ≠ k) :
    (t.set d k v).get d n = t.get d n := by
  simp only [Tab.canon, Bool.and_eq_true] at h
  unfold Tab.set Tab.get
  split
  · simp [Tab.find_del_other h.1 hn]
  · simp [Tab.find_put_other t v hn]

theorem Tab.above_filter {n : Nat} {t : Tab α} (p : Nat × α → Bool) (h : t.above n = true)
    (hs : t.sorted = true) : Tab.above n (t.filter p) = true := by
  induction t with
  | nil => rfl
  | cons e t ih =>
    obtain ⟨j, w⟩ := e
    simp only [Tab.above, decide_eq_true_eq] at h
    simp only [Tab.sorted, Bool.and_eq_true] at hs
    rw [List.filter_cons]
    split
    · simpa [Tab.above] using h
    · exact ih (Tab.above_mono (Nat.le_of_lt h) hs.1) hs.2

/-- Dropping entries keeps the canonical form. -/
theorem Tab.canon_filter {d : α} {t : Tab α} (p : Nat × α → Bool) (h : t.canon d = true) :
    Tab.canon d (t.filter p) = true := by
  simp only [Tab.canon, Bool.and_eq_true] at *
  induction t with
  | nil => exact ⟨rfl, rfl⟩
  | cons e t ih =>
    obtain ⟨j, w⟩ := e
    obtain ⟨h1, h2⟩ := h
    simp only [Tab.sorted, Tab.noDefault, Bool.and_eq_true] at h1 h2
    have := ih ⟨h1.2, h2.2⟩
    rw [List.filter_cons]
    split
    · simp only [Tab.sorted, Tab.noDefault, Bool.and_eq_true]
      exact ⟨⟨Tab.above_filter p h1.1 h1.2, this.1⟩, h2.1, this.2⟩
    · exact this

end canonical

end Sys2Proof
end

