-- ==== Sys2Proof/Laws/Landings.lean ====
section
/-! SUPPORT. What putting writes in flight does (R217): every write stays, only the cycle in which it takes
its port may move; and what the shared end of an issue leaves alone. -/

namespace Sys2Proof.Machine

/-- The writes in flight of a core, without the cycles they land. -/
def Core.flight (c : Core) : List Landing := c.landings.map Landing.key

theorem insertLanding_perm (l : Landing) (ls : List Landing) : (insertLanding l ls).Perm (l :: ls) := by
  induction ls with
  | nil => exact .refl _
  | cons x t ih =>
    unfold insertLanding
    split
    · exact (ih.cons x).trans (.swap ..)
    · exact .refl _

theorem insertWant_perm (l : Landing) (ls : List Landing) : (insertWant l ls).Perm (l :: ls) := by
  induction ls with
  | nil => exact .refl _
  | cons x t ih =>
    unfold insertWant
    split
    · exact (ih.cons x).trans (.swap ..)
    · exact .refl _

theorem foldl_insertWant_perm (ls acc : List Landing) :
    (ls.foldl (fun acc x => insertWant x acc) acc).Perm (ls ++ acc) := by
  induction ls generalizing acc with
  | nil => exact .refl _
  | cons x t ih =>
    refine (ih _).trans ?_
    refine ((insertWant_perm x acc).append_left t).trans ?_
    exact List.perm_middle

theorem foldl_insertLanding_perm (ls acc : List Landing) :
    (ls.foldl (fun acc x => insertLanding x acc) acc).Perm (ls ++ acc) := by
  induction ls generalizing acc with
  | nil => exact .refl _
  | cons x t ih =>
    refine (ih _).trans ?_
    refine ((insertLanding_perm x acc).append_left t).trans ?_
    exact List.perm_middle

theorem assignPort_key (free last : Nat) (ls : List Landing) :
    (assignPort free last ls).map Landing.key = ls.map Landing.key := by
  induction ls generalizing free last with
  | nil => rfl
  | cons x t ih => simp only [assignPort, List.map_cons, ih]; rfl

/-- Putting a write in flight adds it and drops none. -/
theorem Core.addLanding_flight (c : Core) (l : Landing) :
    (c.addLanding l).flight.Perm (l.key :: c.flight) := by
  unfold Core.addLanding Core.flight
  split
  · exact ((insertLanding_perm l c.landings).map _).trans (.refl _)
  · rename_i p hp
    simp only
    refine ((foldl_insertLanding_perm _ _).map _).trans ?_
    rw [List.map_append, assignPort_key]
    refine (((foldl_insertWant_perm _ _).map Landing.key).append_right _).trans ?_
    rw [List.append_nil, ← List.map_append]
    have h1 : (c.landings.filter (fun x => x.port == some p) ++ c.landings.filter (fun x => x.port != some p)).Perm
        c.landings := by
      have := List.filter_append_perm (fun x : Landing => x.port == some p) c.landings
      simpa [bne] using this
    refine List.Perm.trans (.map _ ?_) (.refl ((l :: c.landings).map Landing.key))
    rw [List.append_assoc, List.singleton_append]
    exact List.perm_middle.trans (h1.cons l)

theorem foldl_addLanding_flight (ls : List Landing) (c : Core) :
    (ls.foldl Core.addLanding c).flight.Perm (ls.map Landing.key ++ c.flight) := by
  induction ls generalizing c with
  | nil => exact .refl _
  | cons x t ih =>
    refine (ih _).trans ?_
    refine ((Core.addLanding_flight c x).append_left _).trans ?_
    exact List.perm_middle

/-! ## The core that an operation works on -/

@[simp] theorem State.core_setCore_same (s : State) (c : Nat) (x : Core) : (s.setCore c x).core c = x := by
  simp [State.core, State.setCore]

theorem State.core_setCore_other (s : State) (x : Core) {c d : Nat} (h : d ≠ c) :
    (s.setCore c x).core d = s.core d := by
  simp only [State.core, State.setCore]
  exact Tab.get_put_other _ _ _ h

@[simp] theorem State.core_modCore_same (s : State) (c : Nat) (f : Core → Core) :
    (s.modCore c f).core c = f (s.core c) := by simp [State.modCore]

theorem State.core_modCore_other (s : State) (f : Core → Core) {c d : Nat} (h : d ≠ c) :
    (s.modCore c f).core d = s.core d := State.core_setCore_other _ _ h

@[simp] theorem State.core_modGroup_same (s : State) (c k : Nat) (f : Group → Group) :
    (s.modGroup c k f).core c = (s.core c).modGroup k f := by simp [State.modGroup]

@[simp] theorem State.core_modThread_same (s : State) (c k l : Nat) (f : Thread → Thread) :
    (s.modThread c k l f).core c = (s.core c).modThread k l f := by simp [State.modThread]

theorem State.core_of_cores {s t : State} (h : t.cores = s.cores) (c : Nat) : t.core c = s.core c := by
  simp [State.core, h]

@[simp] theorem State.core_schedule (s : State) (d : Nat) (e : Event) (c : Nat) :
    (s.schedule d e).core c = s.core c := rfl
@[simp] theorem State.core_scheduleOnce (s : State) (d : Nat) (e : Event) (c : Nat) :
    (s.scheduleOnce d e).core c = s.core c := State.core_of_cores (by simp) c
@[simp] theorem State.core_tick (s : State) (c : Nat) : s.tick.core c = s.core c := rfl
@[simp] theorem State.core_modPart (s : State) (p : Nat) (f : Part → Part) (c : Nat) :
    (s.modPart p f).core c = s.core c := rfl
@[simp] theorem State.core_modHub (s : State) (p : Nat) (f : Hub → Hub) (c : Nat) :
    (s.modHub p f).core c = s.core c := rfl
@[simp] theorem State.core_modLaunch (s : State) (p : Nat) (f : Launch → Launch) (c : Nat) :
    (s.modLaunch p f).core c = s.core c := rfl
@[simp] theorem State.core_modTeam (s : State) (p q : Nat) (f : Team → Team) (c : Nat) :
    (s.modTeam p q f).core c = s.core c := rfl

/-- A fold of operations that each keep a reading keeps it. -/
theorem foldl_keeps {α β γ : Type} (P : β → γ) (f : β → α → β) (h : ∀ b a, P (f b a) = P b) (ls : List α)
    (b : β) : P (ls.foldl f b) = P b := by
  induction ls generalizing b with
  | nil => rfl
  | cons x t ih => rw [List.foldl_cons, ih, h]

/-- A fold of operations that each keep a property keeps it. -/
theorem foldl_holds {α β : Type} (P : β → Prop) (f : β → α → β) (h : ∀ b a, P b → P (f b a)) (ls : List α)
    {b : β} (hb : P b) : P (ls.foldl f b) := by
  induction ls generalizing b with
  | nil => exact hb
  | cons x t ih => exact ih (h _ _ hb)

@[simp] theorem foldl_scheduleOnce_core (ls : List Landing) (s : State) (c d : Nat) :
    (ls.foldl (fun s l => s.scheduleOnce l.land (.resultLanding c)) s).core d = s.core d :=
  foldl_keeps (fun s => s.core d) _ (fun s l => State.core_scheduleOnce s _ _ d) ls s

/-- What the writes put in flight add to their core. -/
theorem State.addLandings_flight (s : State) (core : Nat) (ls : List Landing) :
    ((s.addLandings core ls).core core).flight.Perm (ls.map Landing.key ++ (s.core core).flight) := by
  unfold State.addLandings
  rw [foldl_scheduleOnce_core, State.core_modCore_same]
  exact foldl_addLanding_flight ls _

/-- Each write put in flight is in flight. -/
theorem State.addLandings_mem {s : State} {core : Nat} {ls : List Landing} {l : Landing} (h : l ∈ ls) :
    l.key ∈ ((s.addLandings core ls).core core).flight :=
  (s.addLandings_flight core ls).mem_iff.2 (List.mem_append_left _ (List.mem_map_of_mem h))

@[simp] theorem Core.addLanding_groups (c : Core) (l : Landing) : (c.addLanding l).groups = c.groups := by
  unfold Core.addLanding; split <;> rfl

@[simp] theorem Core.addLanding_side (c : Core) (l : Landing) : (c.addLanding l).side = c.side := by
  unfold Core.addLanding; split <;> rfl

/-- The threads of the core, as they stood. -/
theorem State.addLandings_groups (s : State) (core : Nat) (ls : List Landing) :
    ((s.addLandings core ls).core core).groups = (s.core core).groups := by
  unfold State.addLandings
  rw [foldl_scheduleOnce_core, State.core_modCore_same]
  exact foldl_keeps Core.groups _ Core.addLanding_groups ls _

theorem State.addLandings_other (s : State) (ls : List Landing) {core c : Nat} (h : c ≠ core) :
    (s.addLandings core ls).core c = s.core c := by
  unfold State.addLandings
  rw [foldl_scheduleOnce_core, State.core_modCore_other _ _ h]

end Sys2Proof.Machine
end

