-- ==== Sys2Proof/Laws/Issue.lean ====
section
/-! SUPPORT. The beginning and the end of an issue (R215 to R230): which core it works on, what becomes of
each thread, and which writes are in flight after it. -/

namespace Sys2Proof.Machine

/-! ## Updates of one core, group or thread, seen from another -/

theorem State.core_modThread (s : State) (c k l : Nat) (f : Thread → Thread) (d : Nat) :
    (s.modThread c k l f).core d = if d = c then (s.core d).modThread k l f else s.core d := by
  split
  · subst_vars; simp
  · exact State.core_modCore_other _ _ ‹_›

theorem State.core_modGroup (s : State) (c k : Nat) (f : Group → Group) (d : Nat) :
    (s.modGroup c k f).core d = if d = c then (s.core d).modGroup k f else s.core d := by
  split
  · subst_vars; simp
  · exact State.core_modCore_other _ _ ‹_›

@[simp] theorem State.landings_modThread (s : State) (c k l : Nat) (f : Thread → Thread) (d : Nat) :
    ((s.modThread c k l f).core d).landings = (s.core d).landings := by
  rw [State.core_modThread]; split <;> simp

@[simp] theorem State.landings_modGroup (s : State) (c k : Nat) (f : Group → Group) (d : Nat) :
    ((s.modGroup c k f).core d).landings = (s.core d).landings := by
  rw [State.core_modGroup]; split <;> simp

theorem Core.find_modGroup_same (c : Core) (k : Nat) (f : Group → Group) :
    (c.modGroup k f).groups.find k = (c.groups.find k).map f := by
  unfold Core.modGroup
  split
  · rename_i g h; simp [Core.setGroup, h]
  · rename_i h; simp [h]

theorem Core.find_modGroup_other (c : Core) (f : Group → Group) {k j : Nat} (h : j ≠ k) :
    (c.modGroup k f).groups.find j = c.groups.find j := by
  unfold Core.modGroup
  split
  · exact Tab.find_put_other _ _ h
  · rfl

theorem Group.find_modThread_same (g : Group) (l : Nat) (f : Thread → Thread) :
    (g.modThread l f).threads.find l = (g.threads.find l).map f := by
  unfold Group.modThread
  split
  · rename_i t h; simp [Group.setThread, h]
  · rename_i h; simp [h]

theorem Group.find_modThread_other (g : Group) (f : Thread → Thread) {l j : Nat} (h : j ≠ l) :
    (g.modThread l f).threads.find j = g.threads.find j := by
  unfold Group.modThread
  split
  · exact Tab.find_put_other _ _ h
  · rfl

theorem Core.threadAt_modThread (c : Core) (k l : Nat) (f : Thread → Thread) (j m : Nat) :
    (c.modThread k l f).threadAt j m =
      if j = k ∧ m = l then (c.threadAt j m).map f else c.threadAt j m := by
  unfold Core.threadAt Core.modThread
  by_cases hj : j = k
  · subst hj
    rw [Core.find_modGroup_same]
    cases hg : c.groups.find j with
    | none => simp
    | some g =>
      simp only [Option.map_some, Option.bind_some, true_and]
      split
      · subst_vars; exact Group.find_modThread_same ..
      · exact Group.find_modThread_other _ _ ‹_›
  · rw [Core.find_modGroup_other _ _ hj, if_neg (by tauto)]

theorem State.threadAt_modThread (s : State) (c k l : Nat) (f : Thread → Thread) (d j m : Nat) :
    (s.modThread c k l f).threadAt d j m =
      if d = c ∧ j = k ∧ m = l then (s.threadAt d j m).map f else s.threadAt d j m := by
  unfold State.threadAt
  rw [State.core_modThread]
  by_cases h : d = c
  · simp only [h, if_true, true_and, Core.threadAt_modThread]
  · simp [h]

/-- A change of some lanes of a group, made once to each lane listed. -/
theorem Group.find_foldl_modThread (f : Thread → Thread) (hf : ∀ t, f (f t) = f t) (ls : List Nat)
    (g : Group) (m : Nat) :
    (ls.foldl (fun g l => g.modThread l f) g).threads.find m =
      if m ∈ ls then (g.threads.find m).map f else g.threads.find m := by
  induction ls generalizing g with
  | nil => simp
  | cons a t ih =>
    rw [List.foldl_cons, ih]
    by_cases ha : m = a
    · subst ha
      rw [Group.find_modThread_same]
      have e : (Option.map f (Option.map f (g.threads.find m))) = Option.map f (g.threads.find m) := by
        cases g.threads.find m <;> simp [hf]
      by_cases ht : m ∈ t <;> simp [ht, e]
    · rw [Group.find_modThread_other _ _ ha]
      simp [ha]

theorem State.threadAt_modLanes (s : State) (c k : Nat) (ls : List Nat) (f : Thread → Thread)
    (hf : ∀ t, f (f t) = f t) (d j m : Nat) :
    (s.modGroup c k fun g => ls.foldl (fun g l => g.modThread l f) g).threadAt d j m =
      if d = c ∧ j = k ∧ m ∈ ls then (s.threadAt d j m).map f else s.threadAt d j m := by
  unfold State.threadAt
  rw [State.core_modGroup]
  by_cases h : d = c
  · subst h
    simp only [if_true, true_and]
    unfold Core.threadAt
    by_cases hj : j = k
    · subst hj
      rw [Core.find_modGroup_same]
      cases hg : (s.core d).groups.find j with
      | none => simp
      | some g =>
        simp only [Option.map_some, Option.bind_some, true_and]
        exact Group.find_foldl_modThread f hf ls g m
    · rw [Core.find_modGroup_other _ _ hj, if_neg (by tauto)]
  · simp [h]

/-! ## Everything outside the cores and the agenda -/

@[simp] theorem State.rest_setCore (s : State) (c : Nat) (x : Core) : (s.setCore c x).rest = s.rest := rfl
@[simp] theorem State.rest_modCore (s : State) (c : Nat) (f : Core → Core) : (s.modCore c f).rest = s.rest := rfl
@[simp] theorem State.rest_modGroup (s : State) (c k : Nat) (f : Group → Group) :
    (s.modGroup c k f).rest = s.rest := rfl
@[simp] theorem State.rest_modThread (s : State) (c k l : Nat) (f : Thread → Thread) :
    (s.modThread c k l f).rest = s.rest := rfl
@[simp] theorem State.rest_schedule (s : State) (d : Nat) (e : Event) : (s.schedule d e).rest = s.rest := rfl
@[simp] theorem State.rest_scheduleOnce (s : State) (d : Nat) (e : Event) :
    (s.scheduleOnce d e).rest = s.rest := by unfold State.scheduleOnce; split <;> rfl
@[simp] theorem State.rest_tick (s : State) : s.tick.rest = s.rest := rfl
@[simp] theorem State.rest_terminal (s : State) (c k l : Nat) (a : Byte) (b : BitVec 16) (x y : DWord) :
    (s.terminal c k l a b x y).rest = s.rest := rfl

@[simp] theorem State.rest_trap (s : State) (c k l a : Nat) (x y z : DWord) (e n : Nat) :
    (s.trap c k l a x y z e n).rest = s.rest := by
  unfold State.trap; split <;> simp

@[simp] theorem State.rest_raise (s : State) (x : Ctx) (ts : List LaneTrap) : (s.raise x ts).rest = s.rest :=
  foldl_keeps State.rest _ (fun s t => State.rest_trap s ..) ts s

@[simp] theorem State.rest_addLandings (s : State) (core : Nat) (ls : List Landing) :
    (s.addLandings core ls).rest = s.rest := by
  unfold State.addLandings
  exact (foldl_keeps State.rest _ (fun s l => State.rest_scheduleOnce s ..) _ _).trans (by simp)

@[simp] theorem State.rest_begin (s : State) (sh : Shape) (f : Fields) : (s.begin sh f).2.rest = s.rest := rfl

@[simp] theorem State.rest_finishTo (s : State) (x : Ctx) (ts : List LaneTrap) (gos : List Go)
    (ls : List Landing) : (s.finishTo x ts gos ls).rest = s.rest := by
  simp [State.finishTo, State.passLanes, State.goLanes]

@[simp] theorem State.rest_finish (s : State) (x : Ctx) (ts : List LaneTrap) (ls : List Landing) :
    (s.finish x ts ls).rest = s.rest := State.rest_finishTo ..

@[simp] theorem State.rest_seeds (s : State) (x : Ctx) (rs : List (Nat × LaneOut)) :
    (s.seeds x rs).rest = s.rest := by
  unfold State.seeds
  refine foldl_keeps State.rest _ (fun s r => ?_) rs s
  obtain ⟨l, o⟩ := r
  simp only
  split <;> simp

/-- A register instruction of fixed latency changes nothing outside its core but the agenda. -/
@[simp] theorem State.rest_alu (s : State) (sh : Shape) (f : Fields) (ka kb kc : ImmKind)
    (fn : Ctx → List LaneIn → LaneIn → LaneOut) (held : List Opnd) (idle : Ctx → Nat → Nat) :
    (s.alu sh f ka kb kc fn held idle).rest = s.rest := by
  unfold State.alu
  simp only [State.rest_finish, State.rest_seeds, State.rest_begin]

/-! ## Traps of an issue -/

theorem State.threadAt_trap_other (s : State) (c k l a : Nat) (x y z : DWord) (e n : Nat) {d j m : Nat}
    (h : ¬(d = c ∧ j = k ∧ m = l)) : (s.trap c k l a x y z e n).threadAt d j m = s.threadAt d j m := by
  unfold State.trap State.terminal
  split
  · rw [State.threadAt_modThread, if_neg h]; rfl
  · change (s.modThread c k l _).threadAt d j m = _
    rw [State.threadAt_modThread, if_neg h]

/-- Lanes that raise nothing are as they were. -/
theorem State.threadAt_raise_other (x : Ctx) (ts : List LaneTrap) (s : State) {d j m : Nat}
    (h : d = x.core → j = x.slot → ∀ t ∈ ts, t.lane ≠ m) :
    (s.raise x ts).threadAt d j m = s.threadAt d j m := by
  unfold State.raise
  induction ts generalizing s with
  | nil => rfl
  | cons a t ih =>
    rw [List.foldl_cons, ih _ (fun h1 h2 t ht => h h1 h2 t (List.mem_cons_of_mem _ ht))]
    refine State.threadAt_trap_other _ _ _ _ _ _ _ _ _ _ ?_
    rintro ⟨h1, h2, h3⟩
    exact h h1 h2 a List.mem_cons_self h3.symm

@[simp] theorem State.landings_trap (s : State) (c k l a : Nat) (x y z : DWord) (e n d : Nat) :
    ((s.trap c k l a x y z e n).core d).landings = (s.core d).landings := by
  unfold State.trap State.terminal
  split
  · rw [State.landings_modThread]; rfl
  · rw [State.core_schedule, State.landings_modThread]

@[simp] theorem State.landings_raise (s : State) (x : Ctx) (ts : List LaneTrap) (d : Nat) :
    ((s.raise x ts).core d).landings = (s.core d).landings :=
  foldl_keeps (fun s : State => (s.core d).landings) _ (fun s t => State.landings_trap s ..) ts s

/-! ## The end of an issue -/

theorem State.threadAt_addLandings (s : State) (core : Nat) (ls : List Landing) (d j m : Nat) :
    (s.addLandings core ls).threadAt d j m = s.threadAt d j m := by
  unfold State.threadAt Core.threadAt
  by_cases h : d = core
  · subst h; rw [State.addLandings_groups]
  · rw [State.addLandings_other _ _ h]

theorem State.threadAt_goLanes_nil (s : State) (x : Ctx) (d j m : Nat) :
    (s.goLanes x []).threadAt d j m = s.threadAt d j m := by
  unfold State.goLanes State.threadAt
  rw [State.core_modGroup]
  split
  · unfold Core.threadAt
    by_cases hj : j = x.slot
    · subst hj
      rw [Core.find_modGroup_same]
      cases h : (s.core d).groups.find x.slot <;> simp
    · rw [Core.find_modGroup_other _ _ hj]
  · rfl

/-- The lanes of an issue that raise nothing pass to the next address (R191, R216); every other thread is
as it was. -/
theorem State.threadAt_finish (s : State) (x : Ctx) (ts : List LaneTrap) (ls : List Landing) {d j m : Nat}
    (h : d = x.core → j = x.slot → ∀ t ∈ ts, t.lane ≠ m) :
    (s.finish x ts ls).threadAt d j m =
      if d = x.core ∧ j = x.slot ∧ m ∈ x.lanes then
        (s.threadAt d j m).map fun t => t.advance x.nextPc x.nextIssue
      else s.threadAt d j m := by
  unfold State.finish State.finishTo
  simp only
  rw [State.threadAt_addLandings, State.threadAt_raise_other x ts _ h, State.threadAt_goLanes_nil]
  unfold State.passLanes
  rw [State.threadAt_modLanes _ _ _ _ (fun t => t.advance x.nextPc x.nextIssue) (fun t => rfl)]
  by_cases h1 : d = x.core ∧ j = x.slot
  · obtain ⟨h2, h3⟩ := h1
    have h4 := h h2 h3
    have : (m ∈ x.lanes.filter fun l => !(ts.any fun t => t.lane == l)) ↔ m ∈ x.lanes := by
      simp only [List.mem_filter, Bool.not_eq_true', List.any_eq_false, beq_iff_eq, and_iff_left_iff_imp]
      exact fun _ t ht => h4 t ht
    simp only [h2, h3, true_and, this]
  · rw [if_neg (by tauto), if_neg (by tauto)]

/-- The writes in flight after an issue: those before it, its dead marks, and its own. -/
theorem State.finishTo_flight (s : State) (x : Ctx) (ts : List LaneTrap) (gos : List Go) (ls : List Landing) :
    ((s.finishTo x ts gos ls).core x.core).flight.Perm
      ((x.deadLandings (x.lanes.filter fun l => !(ts.any fun t => t.lane == l)) ++ ls).map Landing.key ++
        (s.core x.core).flight) := by
  unfold State.finishTo
  refine (State.addLandings_flight _ _ _).trans ?_
  unfold Core.flight
  simp only [State.landings_raise, State.goLanes, State.passLanes, State.landings_modGroup]
  exact .refl _

theorem State.core_finishTo_other (s : State) (x : Ctx) (ts : List LaneTrap) (gos : List Go)
    (ls : List Landing) {d : Nat} (h : d ≠ x.core) : (s.finishTo x ts gos ls).core d = s.core d := by
  unfold State.finishTo
  simp only
  rw [State.addLandings_other _ _ h]
  have hr : ∀ s : State, (s.raise x ts).core d = s.core d := fun s =>
    foldl_keeps (fun s : State => s.core d) _ (fun s t => by
      unfold State.trap State.terminal
      split
      · rw [State.core_modThread, if_neg h]; rfl
      · rw [State.core_schedule, State.core_modThread, if_neg h]) ts s
  rw [hr]
  unfold State.goLanes State.passLanes
  rw [State.core_modGroup, if_neg h, State.core_modGroup, if_neg h]

/-! ## The beginning of an issue -/

@[simp] theorem State.begin_core (s : State) (sh : Shape) (f : Fields) : (s.begin sh f).1.core = s.cur.core := rfl
@[simp] theorem State.begin_slot (s : State) (sh : Shape) (f : Fields) : (s.begin sh f).1.slot = s.cur.slot := rfl
@[simp] theorem State.begin_lanes (s : State) (sh : Shape) (f : Fields) : (s.begin sh f).1.lanes = s.cur.lanes := rfl
@[simp] theorem State.begin_sh (s : State) (sh : Shape) (f : Fields) : (s.begin sh f).1.sh = sh := rfl
@[simp] theorem State.begin_f (s : State) (sh : Shape) (f : Fields) : (s.begin sh f).1.f = f := rfl

/-- The core of the issue is the one its context holds. -/
@[simp] theorem State.begin_state_core (s : State) (sh : Shape) (f : Fields) :
    (s.begin sh f).2.core s.cur.core = (s.begin sh f).1.raw := by
  simp only [State.begin]
  exact State.core_setCore_same ..

theorem State.begin_state_other (s : State) (sh : Shape) (f : Fields) {d : Nat} (h : d ≠ s.cur.core) :
    (s.begin sh f).2.core d = s.core d := by
  simp only [State.begin]
  exact State.core_setCore_other _ _ h

end Sys2Proof.Machine
end

