-- ==== Sys2Proof/Laws/Alu.lean ====
section
/-! SUPPORT. The mould of the register instructions of fixed latency (R213 to R222): what is in flight after
it, what becomes of each thread, and what it leaves alone. -/

namespace Sys2Proof.Machine

/-- What a lane delivers: with a G destination, every lane delivers the value of the lowest (R65, R75). -/
def Ctx.output (x : Ctx) (fn : Ctx → List LaneIn → LaneIn → LaneOut) (ins : List LaneIn) (i : LaneIn) :
    LaneOut :=
  match x.f.dst, x.sh.dst, ins with
  | .g _, .val _ _ _, i0 :: _ => { fn x ins i with val := (fn x ins i0).val }
  | _, _, _ => fn x ins i

/-- The level traps of an issue (R224). -/
def Ctx.levelFaults (x : Ctx) (held : List Opnd) : List LaneTrap :=
  (x.actives.map fun l => (l, x.levelFault l (readFields x.sh x.f) held)).filterMap fun (l, r) =>
    r.map fun (cause, code) => (⟨l, cause, BitVec.ofNat 64 code, none⟩ : LaneTrap)

theorem Ctx.inputs_eq (x : Ctx) (ka kb kc : ImmKind) (held : List Opnd) :
    (((x.actives.map fun l => (l, x.levelFault l (readFields x.sh x.f) held)).filter fun (_, r) => r.isNone).map
      fun (l, _) => x.laneIn ka kb kc l) = x.inputs ka kb kc held := by
  unfold Ctx.inputs Ctx.okLanes
  induction x.actives with
  | nil => rfl
  | cons a t ih =>
    simp only [List.map_cons, List.filter_cons]
    split <;> simp_all

theorem Ctx.levelFaults_lane {x : Ctx} {held : List Opnd} {t : LaneTrap} (h : t ∈ x.levelFaults held) :
    t.lane ∈ x.actives ∧ (x.levelFault t.lane (readFields x.sh x.f) held).isSome = true := by
  simp only [Ctx.levelFaults, List.mem_filterMap, List.mem_map, Option.map_eq_some_iff] at h
  obtain ⟨a, ⟨l, hl, rfl⟩, p, hp, rfl⟩ := h
  refine ⟨hl, ?_⟩
  simp only at hp
  simp [hp]

theorem Ctx.okLanes_not_fault {x : Ctx} {held : List Opnd} {m : Nat} (h : m ∈ x.okLanes held) :
    ∀ t ∈ x.levelFaults held, t.lane ≠ m := by
  rintro t ht rfl
  have := (Ctx.levelFaults_lane ht).2
  simp only [Ctx.okLanes, List.mem_filter] at h
  rw [Option.isNone_iff_eq_none] at h
  simp [h.2] at this

/-- The results of the active lanes. -/
def Ctx.outputs (x : Ctx) (fn : Ctx → List LaneIn → LaneIn → LaneOut) (ins : List LaneIn) :
    List (Nat × LaneOut) :=
  ins.map fun i => (i.lane, x.output fn ins i)

theorem Ctx.outputs_eq (x : Ctx) (fn : Ctx → List LaneIn → LaneIn → LaneOut) (ins : List LaneIn) :
    (match x.f.dst, x.sh.dst, ins.map fun i => (i.lane, fn x ins i) with
      | .g _, .val _ _ _, (_, o) :: _ =>
        (ins.map fun i => (i.lane, fn x ins i)).map fun (l, p) => (l, { p with val := o.val })
      | _, _, _ => ins.map fun i => (i.lane, fn x ins i)) = x.outputs fn ins := by
  unfold Ctx.outputs Ctx.output
  cases hi : ins with
  | nil => cases x.f.dst <;> cases x.sh.dst <;> rfl
  | cons i0 t =>
    rw [← hi]
    have : ins.map (fun i => (i.lane, fn x ins i)) =
        (i0.lane, fn x ins i0) :: t.map (fun i => (i.lane, fn x ins i)) := by rw [hi]; rfl
    cases x.f.dst <;> cases x.sh.dst <;> simp only [this]
    all_goals (rw [hi]; simp)

/-- The writes of an issue of the mould. -/
def Ctx.aluLandings (x : Ctx) (ka kb kc : ImmKind) (fn : Ctx → List LaneIn → LaneIn → LaneOut)
    (held : List Opnd) (idle : Ctx → Nat → Nat) : List Landing :=
  let outs := x.outputs fn (x.inputs ka kb kc held)
  (match outs with | (_, o) :: _ => x.groupLandings o.val | [] => []) ++
    (outs.flatMap fun (l, o) => x.laneLandings o l) ++
    (x.lanes.filter fun l => !x.active l).map fun l => x.idlePush l (idle x l)

/-- The mould in one line. -/
theorem State.alu_eq (s : State) (sh : Shape) (f : Fields) (ka kb kc : ImmKind)
    (fn : Ctx → List LaneIn → LaneIn → LaneOut) (held : List Opnd) (idle : Ctx → Nat → Nat) :
    s.alu sh f ka kb kc fn held idle =
      let x := (s.begin sh f).1
      ((s.begin sh f).2.seeds x (x.outputs fn (x.inputs ka kb kc held))).finish x (x.levelFaults held)
        (x.aluLandings ka kb kc fn held idle) := by
  have h1 := Ctx.inputs_eq (s.begin sh f).1 ka kb kc held
  have h2 := Ctx.outputs_eq (s.begin sh f).1 fn ((s.begin sh f).1.inputs ka kb kc held)
  simp only [State.begin_sh, State.begin_f] at h1 h2
  unfold State.alu Ctx.aluLandings
  simp only []
  rw [← h2, ← h1]
  rfl

/-- What is in flight after an issue of the mould: the writes before it, its dead marks and its own. -/
theorem State.alu_flight (s : State) (sh : Shape) (f : Fields) (ka kb kc : ImmKind)
    (fn : Ctx → List LaneIn → LaneIn → LaneOut) (held : List Opnd) (idle : Ctx → Nat → Nat) :
    let x := (s.begin sh f).1
    ((s.alu sh f ka kb kc fn held idle).core s.cur.core).flight.Perm
      ((x.deadLandings (x.lanes.filter fun l => !((x.levelFaults held).any fun t => t.lane == l)) ++
          x.aluLandings ka kb kc fn held idle).map Landing.key ++ x.raw.flight) := by
  intro x
  rw [State.alu_eq]
  have hf := State.finishTo_flight ((s.begin sh f).2.seeds x (x.outputs fn (x.inputs ka kb kc held))) x
    (x.levelFaults held) [] (x.aluLandings ka kb kc fn held idle)
  have hs : (((s.begin sh f).2.seeds x (x.outputs fn (x.inputs ka kb kc held))).core x.core).flight =
      x.raw.flight := by
    unfold Core.flight
    congr 1
    refine (foldl_keeps (fun s : State => (s.core x.core).landings) _ (fun s r => ?_) _ _).trans ?_
    · obtain ⟨l, o⟩ := r
      simp only
      split
      · rfl
      · rw [State.landings_modThread]
    · rw [show x.core = s.cur.core from rfl, State.begin_state_core]
  rw [hs] at hf
  exact hf

/-- Every write of a lane that reads what it may read is in flight. -/
theorem State.alu_lane (s : State) (sh : Shape) (f : Fields) (ka kb kc : ImmKind)
    (fn : Ctx → List LaneIn → LaneIn → LaneOut) (held : List Opnd) (idle : Ctx → Nat → Nat) {lane : Nat}
    (h : lane ∈ (s.begin sh f).1.okLanes held) {l : Landing}
    (hl : let x := (s.begin sh f).1
      l ∈ x.laneLandings (x.output fn (x.inputs ka kb kc held) (x.laneIn ka kb kc lane)) lane) :
    l.key ∈ ((s.alu sh f ka kb kc fn held idle).core s.cur.core).flight := by
  rw [(State.alu_flight ..).mem_iff]
  refine List.mem_append_left _ (List.mem_map_of_mem (List.mem_append_right _ ?_))
  unfold Ctx.aluLandings
  refine List.mem_append_left _ (List.mem_append_right _ ?_)
  rw [List.mem_flatMap]
  refine ⟨(lane, _), ?_, hl⟩
  unfold Ctx.outputs
  rw [List.mem_map]
  exact ⟨_, List.mem_map_of_mem h, rfl⟩

/-- The write of a G destination is in flight: the value of the lowest lane (R75). -/
theorem State.alu_group (s : State) (sh : Shape) (f : Fields) (ka kb kc : ImmKind)
    (fn : Ctx → List LaneIn → LaneIn → LaneOut) (held : List Opnd) (idle : Ctx → Nat → Nat)
    {lane : Nat} {ls : List Nat} (h : (s.begin sh f).1.okLanes held = lane :: ls) {l : Landing}
    (hl : let x := (s.begin sh f).1
      l ∈ x.groupLandings (x.output fn (x.inputs ka kb kc held) (x.laneIn ka kb kc lane)).val) :
    l.key ∈ ((s.alu sh f ka kb kc fn held idle).core s.cur.core).flight := by
  rw [(State.alu_flight ..).mem_iff]
  refine List.mem_append_left _ (List.mem_map_of_mem (List.mem_append_right _ ?_))
  unfold Ctx.aluLandings
  refine List.mem_append_left _ (List.mem_append_left _ ?_)
  have : (s.begin sh f).1.inputs ka kb kc held =
      (s.begin sh f).1.laneIn ka kb kc lane :: ls.map ((s.begin sh f).1.laneIn ka kb kc) := by
    unfold Ctx.inputs; rw [h]; rfl
  simp only [Ctx.outputs, this, List.map_cons]
  simp only [this] at hl
  exact hl

theorem State.threadAt_seeds_none (s : State) (x : Ctx) (rs : List (Nat × LaneOut))
    (h : ∀ r ∈ rs, r.2.seed = none ∧ r.2.trappc = none) : s.seeds x rs = s := by
  unfold State.seeds
  induction rs generalizing s with
  | nil => rfl
  | cons a t ih =>
    obtain ⟨l, o⟩ := a
    have ha := h (l, o) List.mem_cons_self
    rw [List.foldl_cons, ih _ (fun r hr => h r (List.mem_cons_of_mem _ hr))]
    simp only at ha
    simp [ha.1, ha.2]

theorem State.begin_threadAt (s : State) (sh : Shape) (f : Fields) (d j m : Nat) :
    (s.begin sh f).2.threadAt d j m =
      if d = s.cur.core then (s.begin sh f).1.raw.threadAt j m else s.threadAt d j m := by
  unfold State.threadAt
  by_cases h : d = s.cur.core
  · subst h; rw [if_pos rfl, State.begin_state_core]
  · rw [if_neg h, State.begin_state_other _ _ _ h]

/-- No thread changes at once but for its address and its next issue, where no result goes to a special
register: a lane of the issue that raises nothing passes, and any other thread is as it stood. -/
theorem State.alu_threadAt (s : State) (sh : Shape) (f : Fields) (ka kb kc : ImmKind)
    (fn : Ctx → List LaneIn → LaneIn → LaneOut) (held : List Opnd) (idle : Ctx → Nat → Nat)
    (hs : ∀ x ins i, (fn x ins i).seed = none ∧ (fn x ins i).trappc = none) {d j m : Nat} :
    let x := (s.begin sh f).1
    (d = x.core → j = x.slot → ∀ t ∈ x.levelFaults held, t.lane ≠ m) →
    (s.alu sh f ka kb kc fn held idle).threadAt d j m =
      if d = x.core ∧ j = x.slot ∧ m ∈ x.lanes then
        (x.raw.threadAt j m).map fun t => t.advance x.nextPc x.nextIssue
      else if d = x.core then x.raw.threadAt j m else s.threadAt d j m := by
  intro x h
  rw [State.alu_eq]
  simp only []
  rw [State.threadAt_finish _ _ _ _ h, State.threadAt_seeds_none]; rw [State.begin_threadAt]
  · by_cases hd : d = x.core
    · have hd' : d = s.cur.core := hd
      simp only [hd', if_true]
      by_cases h2 : s.cur.core = x.core ∧ j = x.slot ∧ m ∈ x.lanes
      · rw [if_pos h2, if_pos h2]
      · rw [if_neg h2, if_neg h2]; exact (if_pos rfl).symm
    · have hd' : ¬d = s.cur.core := hd
      have h2 : ¬(d = x.core ∧ j = x.slot ∧ m ∈ x.lanes) := fun h => hd h.1
      simp only [hd', h2, if_false]
      exact (if_neg hd).symm
  · intro r hr
    simp only [Ctx.outputs, List.mem_map] at hr
    obtain ⟨i, -, rfl⟩ := hr
    simp only [Ctx.output]
    split <;> simp [hs]

/-- Cores other than the issue's are as they were. -/
theorem State.alu_core_other (s : State) (sh : Shape) (f : Fields) (ka kb kc : ImmKind)
    (fn : Ctx → List LaneIn → LaneIn → LaneOut) (held : List Opnd) (idle : Ctx → Nat → Nat) {d : Nat}
    (h : d ≠ s.cur.core) : (s.alu sh f ka kb kc fn held idle).core d = s.core d := by
  rw [State.alu_eq]
  simp only [State.finish]
  rw [State.core_finishTo_other _ _ _ _ _ h]
  refine (foldl_keeps (fun s : State => s.core d) _ (fun s r => ?_) _ _).trans (State.begin_state_other _ _ _ h)
  obtain ⟨l, o⟩ := r
  simp only
  split
  · rfl
  · rw [State.core_modThread]; exact if_neg h

end Sys2Proof.Machine
end

