-- ==== Sys2Proof/Laws/Computes.lean ====
section
/-! SUPPORT. From the mould of the register instructions to what statements say of them: results delivered,
predicates set and special registers written. -/

namespace Sys2Proof.Machine

theorem State.writes_of_flight {t : State} {x : Ctx} {due lane : Nat} {op : MicroOp}
    (h : (x.landing due lane op).key ∈ (t.core x.core).flight) : t.writes x due lane op := by
  unfold Core.flight at h
  rw [List.mem_map] at h
  obtain ⟨l, hl, hk⟩ := h
  refine ⟨l, hl, ?_⟩
  simp only [Landing.key, Ctx.landing, Landing.mk.injEq] at hk
  tauto

/-- What a lane delivers, with the value of the lane that counts. -/
theorem Ctx.output_eq (x : Ctx) (fn : Ctx → List LaneIn → LaneIn → LaneOut) (ins : List LaneIn) (i : LaneIn) :
    x.output fn ins i = { fn x ins i with val := (fn x ins (x.sole ins i)).val } := by
  unfold Ctx.output Ctx.sole Ctx.dest
  cases x.sh.dst <;> cases x.f.dst <;> cases ins <;> rfl

/-- The landings of a result deliver it. -/
theorem State.delivers_of {t : State} {x : Ctx} {lane : Nat} {o : LaneOut}
    (h : ∀ l ∈ x.laneLandings o lane, l.key ∈ (t.core x.core).flight) : t.delivers x lane o.val o.mask := by
  have hb : x.partialBase o = if o.mask = BitVec.allOnes 32 then none else x.keeps.map fun n => (n, 1) := by
    unfold Ctx.partialBase Ctx.keeps
    split <;> cases x.f.dst <;> rfl
  have hc : (x.partialBase o).map (·.1) = if o.mask = BitVec.allOnes 32 then none else x.keeps := by
    rw [hb]; split <;> cases x.keeps <;> rfl
  refine ⟨fun r d hd j hj => ?_, fun r hd => ?_, fun r hw hd => ?_, ?_, ?_⟩
  all_goals refine State.writes_of_flight (h _ ?_)
  all_goals unfold Ctx.laneLandings
  all_goals simp only [hc]
  · unfold Ctx.dest at hd
    cases hs : x.sh.dst <;> simp only [hs] at hd hj ⊢ <;> try cases hd
    simp only [hd]
    refine List.mem_append_left _ (List.mem_append_left _ (List.mem_append_left _ ?_))
    rw [List.mem_map]
    exact ⟨j, List.mem_range.2 hj, rfl⟩
  · unfold Ctx.dest at hd
    cases hs : x.sh.dst <;> simp only [hs] at hd ⊢ <;> try cases hd
    simp only [hd]
    exact List.mem_append_left _ (List.mem_append_left _ (List.mem_append_left _ List.mem_cons_self))
  · simp only [hw, if_neg hd]
    exact List.mem_append_left _ (List.mem_append_left _ (List.mem_append_right _ List.mem_cons_self))
  · exact List.mem_append_right _ List.mem_cons_self
  · refine List.mem_append_right _ (List.mem_cons_of_mem _ (List.mem_singleton.2 ?_))
    rw [hb]
    unfold Ctx.shortTime
    congr 2
    split <;> rfl

theorem State.setsPreds_of {t : State} {x : Ctx} {lane : Nat} {o : LaneOut}
    (h : ∀ l ∈ x.laneLandings o lane, l.key ∈ (t.core x.core).flight) :
    t.setsPreds x lane o.pmask o.pval := by
  intro hp
  refine State.writes_of_flight (h _ ?_)
  unfold Ctx.laneLandings
  simp only [hp, if_false]
  exact List.mem_append_left _ (List.mem_append_right _ List.mem_cons_self)

/-- What the mould makes of one active lane without a level trap. -/
theorem State.alu_lane_flight {s : State} {sh : Shape} {f : Fields} {ka kb kc : ImmKind}
    {fn : Ctx → List LaneIn → LaneIn → LaneOut} {held : List Opnd} {idle : Ctx → Nat → Nat} {a : LaneIn}
    (ha : a ∈ (s.begin sh f).1.inputs ka kb kc held) :
    ∀ l ∈ (s.begin sh f).1.laneLandings
        ((s.begin sh f).1.output fn ((s.begin sh f).1.inputs ka kb kc held) a) a.lane,
      l.key ∈ ((s.alu sh f ka kb kc fn held idle).core s.cur.core).flight := by
  intro l hl
  simp only [Ctx.inputs, List.mem_map] at ha
  obtain ⟨lane, hlane, rfl⟩ := ha
  exact State.alu_lane s sh f ka kb kc fn held idle hlane hl

/-- What the mould makes of a G destination: the value of the lowest lane. -/
theorem State.alu_deliversG (s : State) (sh : Shape) (f : Fields) (ka kb kc : ImmKind)
    (fn : Ctx → List LaneIn → LaneIn → LaneOut) (held : List Opnd) (idle : Ctx → Nat → Nat) {a : LaneIn}
    (ha : a ∈ (s.begin sh f).1.inputs ka kb kc held) :
    (s.alu sh f ka kb kc fn held idle).deliversG (s.begin sh f).1
      (let x := (s.begin sh f).1
       let ins := x.inputs ka kb kc held
       (fn x ins (x.sole ins a)).val) := by
  have key : ∀ x : Ctx, x = (s.begin sh f).1 → ∀ ins, ins = x.inputs ka kb kc held → a ∈ ins →
      (s.alu sh f ka kb kc fn held idle).deliversG x (fn x ins (x.sole ins a)).val := by
    intro x hx ins hi ha r hr j hj
    obtain ⟨i0, rest, h0⟩ : ∃ i0 rest, ins = i0 :: rest := by
      cases ins with
      | nil => cases ha
      | cons b c => exact ⟨b, c, rfl⟩
    have hn : ∃ lane ls, x.okLanes held = lane :: ls := by
      cases hk : x.okLanes held with
      | nil => rw [h0, Ctx.inputs, hk] at hi; cases hi
      | cons b c => exact ⟨b, c, rfl⟩
    obtain ⟨lane, ls, hk⟩ := hn
    have h1 : x.laneIn ka kb kc lane = i0 := by
      rw [h0, Ctx.inputs, hk] at hi; exact (List.cons.inj hi).1.symm
    have hs : x.sole ins a = i0 := by unfold Ctx.sole; rw [hr, h0]; rfl
    have hs0 : x.sole ins i0 = i0 := by unfold Ctx.sole; rw [hr, h0]; rfl
    subst hx
    refine State.writes_of_flight (State.alu_group s sh f ka kb kc fn held idle hk ?_)
    intro y
    rw [h1, Ctx.output_eq, ← hi, hs0, hs]
    unfold Ctx.groupLandings
    unfold Ctx.dest at hr
    have hy : y = (s.begin sh f).1 := rfl
    rw [← hy] at hr hj ⊢
    cases hd : y.sh.dst <;> simp only [hd] at hr hj ⊢ <;> try cases hr
    simp only [hr, List.mem_map]
    exact ⟨j, List.mem_range.2 hj, rfl⟩
  exact key _ rfl _ rfl ha

/-- A lane's special registers after the seeds of an issue in which every result of the lane is the same. -/
theorem State.seeds_hold (x : Ctx) (rs : List (Nat × LaneOut)) (s : State) {m : Nat} {o : LaneOut}
    (hm : (m, o) ∈ rs) (ho : ∀ r ∈ rs, r.1 = m → r.2 = o) {u : Thread}
    (hu : (s.seeds x rs).threadAt x.core x.slot m = some u) :
    (∀ w, o.seed = some w → u.seed = w) ∧ ∀ w, o.trappc = some w → u.trappc = w := by
  have step : ∀ (rs : List (Nat × LaneOut)) (s : State), (∀ r ∈ rs, r.1 = m → r.2 = o) →
      ((m, o) ∈ rs ∨ ∀ u, s.threadAt x.core x.slot m = some u →
        (∀ w, o.seed = some w → u.seed = w) ∧ ∀ w, o.trappc = some w → u.trappc = w) →
      ∀ u, (s.seeds x rs).threadAt x.core x.slot m = some u →
        (∀ w, o.seed = some w → u.seed = w) ∧ ∀ w, o.trappc = some w → u.trappc = w := by
    intro rs
    induction rs with
    | nil =>
      intro s _ h u hu
      rcases h with h | h
      · cases h
      · exact h u hu
    | cons a t ih =>
      intro s ho h
      have hs : s.seeds x (a :: t) = State.seeds
          (if a.2.seed.isNone && a.2.trappc.isNone then s
           else s.modThread x.core x.slot a.1 fun t =>
             { t with seed := a.2.seed.getD t.seed, trappc := a.2.trappc.getD t.trappc }) x t := rfl
      rw [hs]
      refine ih _ (fun r hr => ho r (List.mem_cons_of_mem _ hr)) ?_
      by_cases ha : a.1 = m
      · have hao : a.2 = o := ho a List.mem_cons_self ha
        refine .inr fun u hu => ?_
        rw [hao, ha] at hu
        split at hu
        · rename_i hn
          simp only [Bool.and_eq_true, Option.isNone_iff_eq_none] at hn
          simp [hn.1, hn.2]
        · rw [State.threadAt_modThread, if_pos ⟨rfl, rfl, rfl⟩, Option.map_eq_some_iff] at hu
          obtain ⟨v, -, rfl⟩ := hu
          constructor <;> intro w hw <;> simp [hw]
      · rcases h with h | h
        · rcases List.mem_cons.1 h with h | h
          · rw [← h] at ha; exact absurd rfl ha
          · exact .inl h
        · refine .inr fun u hu => h u ?_
          split at hu
          · exact hu
          · rwa [State.threadAt_modThread, if_neg fun h => ha h.2.2.symm] at hu
  exact step rs s ho (.inl hm) u hu

theorem Ctx.inputs_lane {x : Ctx} {ka kb kc : ImmKind} {held : List Opnd} {a b : LaneIn}
    (ha : a ∈ x.inputs ka kb kc held) (hb : b ∈ x.inputs ka kb kc held) (h : b.lane = a.lane) : b = a := by
  simp only [Ctx.inputs, List.mem_map] at ha hb
  obtain ⟨l, -, rfl⟩ := ha
  obtain ⟨k, -, rfl⟩ := hb
  simp only [Ctx.laneIn] at h
  rw [h]

theorem Ctx.inputs_ok {x : Ctx} {ka kb kc : ImmKind} {held : List Opnd} {a : LaneIn}
    (ha : a ∈ x.inputs ka kb kc held) : a.lane ∈ x.okLanes held := by
  simp only [Ctx.inputs, List.mem_map] at ha
  obtain ⟨l, h, rfl⟩ := ha
  exact h

theorem Ctx.output_seed (x : Ctx) (fn : Ctx → List LaneIn → LaneIn → LaneOut) (ins : List LaneIn) (i : LaneIn) :
    (x.output fn ins i).seed = (fn x ins i).seed ∧ (x.output fn ins i).trappc = (fn x ins i).trappc := by
  rw [Ctx.output_eq]; exact ⟨rfl, rfl⟩

theorem State.seeds_outputs (x : Ctx) (fn : Ctx → List LaneIn → LaneIn → LaneOut) (s : State)
    {ka kb kc : ImmKind} {held : List Opnd} {a : LaneIn} (ha : a ∈ x.inputs ka kb kc held) {v : Thread}
    (hv : (s.seeds x (x.outputs fn (x.inputs ka kb kc held))).threadAt x.core x.slot a.lane = some v) :
    (∀ w, (fn x (x.inputs ka kb kc held) a).seed = some w → v.seed = w) ∧
      ∀ w, (fn x (x.inputs ka kb kc held) a).trappc = some w → v.trappc = w := by
  have hm : (a.lane, x.output fn (x.inputs ka kb kc held) a) ∈ x.outputs fn (x.inputs ka kb kc held) := by
    unfold Ctx.outputs
    exact List.mem_map.2 ⟨a, ha, rfl⟩
  have ho : ∀ r ∈ x.outputs fn (x.inputs ka kb kc held), r.1 = a.lane →
      r.2 = x.output fn (x.inputs ka kb kc held) a := by
    intro r hr h
    unfold Ctx.outputs at hr
    obtain ⟨b, hb, rfl⟩ := List.mem_map.1 hr
    rw [Ctx.inputs_lane ha hb h]
  have h := State.seeds_hold x _ s hm ho hv
  rwa [(Ctx.output_seed ..).1, (Ctx.output_seed ..).2] at h

/-- The special registers that an issue of the mould writes. -/
theorem State.alu_seeds {s : State} {sh : Shape} {f : Fields} {ka kb kc : ImmKind}
    {fn : Ctx → List LaneIn → LaneIn → LaneOut} {held : List Opnd} {idle : Ctx → Nat → Nat} {a : LaneIn}
    (ha : a ∈ (s.begin sh f).1.inputs ka kb kc held) {u : Thread}
    (hu : (s.alu sh f ka kb kc fn held idle).threadAt s.cur.core s.cur.slot a.lane = some u) :
    (∀ w, (fn (s.begin sh f).1 ((s.begin sh f).1.inputs ka kb kc held) a).seed = some w → u.seed = w) ∧
      ∀ w, (fn (s.begin sh f).1 ((s.begin sh f).1.inputs ka kb kc held) a).trappc = some w → u.trappc = w := by
  rw [State.alu_eq] at hu
  have hf := Ctx.okLanes_not_fault (Ctx.inputs_ok ha)
  simp only at hu
  rw [State.threadAt_finish _ (s.begin sh f).1 _ _ (fun _ _ => hf)] at hu
  split at hu
  · rw [Option.map_eq_some_iff] at hu
    obtain ⟨v, hv, hvu⟩ := hu
    have h := State.seeds_outputs _ fn _ ha hv
    rw [← hvu]
    exact h
  · exact State.seeds_outputs _ fn _ ha hu

/-- An instruction of the mould yields its results. -/
theorem Yields.of_alu {s : State} {i : Instr} {ka kb kc : ImmKind} {held : List Opnd}
    {fn : Ctx → List LaneIn → LaneIn → LaneOut} {idle : Ctx → Nat → Nat}
    (he : exec i s = .next (s.alu i.shape i.fields ka kb kc fn held idle)) :
    Yields s i ka kb kc held fn := by
  refine ⟨_, he, ?_⟩
  intro x ins a ha
  have h := State.alu_lane_flight (fn := fn) (idle := idle) ha
  have e := Ctx.output_eq (s.begin i.shape i.fields).1 fn ins a
  have d := State.delivers_of h
  have p := State.setsPreds_of h
  rw [show ((s.begin i.shape i.fields).1.inputs ka kb kc held) = ins from rfl, e] at d p
  exact ⟨d, State.alu_deliversG s _ _ ka kb kc fn held idle ha, p, fun u hu => State.alu_seeds ha hu⟩

/-- An instruction of the mould with a plain result computes it. -/
theorem Computes.of_alu {s : State} {i : Instr} {ka kb kc : ImmKind} {v : Ctx → List LaneIn → LaneIn → Nat}
    {fn : Ctx → List LaneIn → LaneIn → LaneOut} {idle : Ctx → Nat → Nat}
    (he : exec i s = .next (s.alu i.shape i.fields ka kb kc fn [] idle))
    (hv : ∀ x ins a, (fn x ins a).val = v x ins a ∧ (fn x ins a).mask = BitVec.allOnes 32) :
    Computes s i ka kb kc v := by
  obtain ⟨t, ht, h⟩ := Yields.of_alu (held := []) he
  refine ⟨t, ht, ?_⟩
  intro x ins a ha
  have := h a ha
  simp only [(hv _ _ _).1, (hv _ _ _).2] at this
  exact ⟨this.1, this.2.1⟩

/-- A lane-wise instruction computes its function. -/
theorem Computes.of_aluLane {s : State} {i : Instr} {k : ImmKind} {v : LaneIn → Nat}
    (he : exec i s = .next (s.aluLane i.shape i.fields k v)) : Computes s i k k k fun _ _ a => v a :=
  .of_alu he fun _ _ _ => ⟨rfl, rfl⟩

/-- A result is all that counts of a function of the inputs. -/
theorem Computes.congr {s : State} {i : Instr} {ka kb kc : ImmKind} {v w : Ctx → List LaneIn → LaneIn → Nat}
    (h : Computes s i ka kb kc v) (hv : ∀ x ins a, v x ins a = w x ins a) : Computes s i ka kb kc w := by
  have : v = w := by funext x ins a; exact hv x ins a
  rwa [← this]

/-- A bit is all that counts of a function of the inputs. -/
theorem Decides.congr {s : State} {i : Instr} {k : ImmKind} {b c : Ctx → List LaneIn → LaneIn → Bool}
    (h : Decides s i k b) (e : ∀ x ins a, b x ins a = c x ins a) : Decides s i k c := by
  have : b = c := by funext x ins a; exact e x ins a
  rwa [← this]

theorem Yields.congr {s : State} {i : Instr} {ka kb kc : ImmKind} {held : List Opnd}
    {v w : Ctx → List LaneIn → LaneIn → LaneOut} (h : Yields s i ka kb kc held v)
    (e : ∀ x ins a, v x ins a = w x ins a) : Yields s i ka kb kc held w := by
  have : v = w := by funext x ins a; exact e x ins a
  rwa [← this]

theorem Ctx.sole_mem {x : Ctx} {ins : List LaneIn} {a : LaneIn} (h : a ∈ ins) : x.sole ins a ∈ ins := by
  unfold Ctx.sole
  cases x.dest <;> try exact h
  cases ins with
  | nil => exact h
  | cons b t => exact List.mem_cons_self

/-- Only the inputs of the issue count: at most one for each lane. -/
theorem Computes.congr_mem {s : State} {i : Instr} {ka kb kc : ImmKind} {v w : Ctx → List LaneIn → LaneIn → Nat}
    (h : Computes s i ka kb kc v)
    (hv : ∀ x ins a, a ∈ ins → (∀ b ∈ ins, ∀ c ∈ ins, b.lane = c.lane → b = c) → v x ins a = w x ins a) :
    Computes s i ka kb kc w := by
  obtain ⟨t, ht, h⟩ := h
  refine ⟨t, ht, ?_⟩
  intro x ins a ha
  have e := hv x ins _ (Ctx.sole_mem (x := x) ha) fun b hb c hc hl => Ctx.inputs_lane hc hb hl
  rw [← e]
  exact h a ha

theorem Decides.congr_mem {s : State} {i : Instr} {k : ImmKind} {b c : Ctx → List LaneIn → LaneIn → Bool}
    (h : Decides s i k b) (e : ∀ x ins a, a ∈ ins → b x ins a = c x ins a) : Decides s i k c := by
  obtain ⟨t, ht, h⟩ := h
  refine ⟨t, ht, ?_⟩
  intro x ins a ha
  rw [← e x ins a ha]
  exact h a ha

theorem LaneOut.bit_fields (o : Opnd) (b : Bool) :
    (LaneOut.bit o b).val = b.toNat ∧ (LaneOut.bit o b).mask = BitVec.allOnes 32 ∧
      (LaneOut.bit o b).pmask = predMask o ∧ (LaneOut.bit o b).pval = if b then predMask o else 0 := by
  unfold LaneOut.bit predMask
  cases o <;> simp [LaneOut.of]
  split <;> simp

/-- An instruction of the mould with a predicate destination decides its bit. -/
theorem Decides.of_alu {s : State} {i : Instr} {k : ImmKind} {b : Ctx → List LaneIn → LaneIn → Bool}
    (he : exec i s = .next (s.alu i.shape i.fields k k k fun x ins a => LaneOut.bit i.fields.dst (b x ins a)))
    (hd : i.shape.dst = .pred) : Decides s i k b := by
  obtain ⟨t, ht, h⟩ := Yields.of_alu he
  refine ⟨t, ht, ?_⟩
  intro x ins a ha
  have hs : x.sole ins a = a := by
    have hd' : x.sh.dst = .pred := hd
    simp [Ctx.sole, Ctx.dest, hd']
  obtain ⟨h1, -, h3, -⟩ := h a ha
  have e := LaneOut.bit_fields i.fields.dst (b x ins a)
  have hs' : (s.issueOf i).sole ((s.issueOf i).inputs k k k []) a = a := hs
  rw [hs'] at h1
  change t.delivers x a.lane (LaneOut.bit i.fields.dst (b x ins a)).val (LaneOut.bit i.fields.dst (b x ins a)).mask at h1
  change t.setsPreds x a.lane (LaneOut.bit i.fields.dst (b x ins a)).pmask (LaneOut.bit i.fields.dst (b x ins a)).pval at h3
  rw [e.1, e.2.1] at h1
  rw [e.2.2.1, e.2.2.2] at h3
  exact ⟨h1, h3⟩

end Sys2Proof.Machine
end

