-- ==== Sys2Proof/Laws/Frame.lean ====
section
/-! SUPPORT. The frame of the register instructions: what the shared beginning and end of an issue leave
alone. -/

namespace Sys2Proof.Machine

/-! ## A core without its groups, writes in flight and ports -/

@[simp] theorem Core.rest_modGroup (c : Core) (k : Nat) (f : Group → Group) : (c.modGroup k f).rest = c.rest := by
  unfold Core.modGroup; split <;> rfl

@[simp] theorem Core.rest_modThread (c : Core) (k l : Nat) (f : Thread → Thread) :
    (c.modThread k l f).rest = c.rest := Core.rest_modGroup ..

@[simp] theorem Core.rest_addLanding (c : Core) (l : Landing) : (c.addLanding l).rest = c.rest := by
  unfold Core.addLanding; split <;> rfl

@[simp] theorem Core.rest_land (c : Core) (l : Landing) : (c.land l).rest = c.rest := by
  unfold Core.land
  split
  · exact Core.rest_modGroup ..
  · exact Core.rest_modThread ..
  · exact Core.rest_modGroup ..
  · split <;> exact Core.rest_modThread ..
  · exact Core.rest_modThread ..

theorem rest_settleAll (n : Nat) (ls : List Landing) (c : Core) : (settleAll n ls c).rest = c.rest := by
  induction ls generalizing c with
  | nil => rfl
  | cons a t ih =>
    unfold settleAll
    split
    · rw [ih]; simp
    · rfl

@[simp] theorem Core.rest_settle (c : Core) (n : Nat) : (c.settle n).rest = c.rest := rest_settleAll ..

theorem State.core_rest_modThread (s : State) (c k l : Nat) (f : Thread → Thread) (d : Nat) :
    ((s.modThread c k l f).core d).rest = (s.core d).rest := by
  rw [State.core_modThread]; split <;> simp

theorem State.core_rest_modGroup (s : State) (c k : Nat) (f : Group → Group) (d : Nat) :
    ((s.modGroup c k f).core d).rest = (s.core d).rest := by
  rw [State.core_modGroup]; split <;> simp

theorem State.core_rest_trap (s : State) (c k l a : Nat) (x y z : DWord) (e n d : Nat) :
    ((s.trap c k l a x y z e n).core d).rest = (s.core d).rest := by
  unfold State.trap State.terminal
  split
  · rw [State.core_rest_modThread]; rfl
  · rw [State.core_schedule, State.core_rest_modThread]

theorem State.core_rest_raise (s : State) (x : Ctx) (ts : List LaneTrap) (d : Nat) :
    ((s.raise x ts).core d).rest = (s.core d).rest :=
  foldl_keeps (fun s : State => (s.core d).rest) _ (fun s _ => State.core_rest_trap s ..) ts s

theorem State.core_rest_addLandings (s : State) (core : Nat) (ls : List Landing) (d : Nat) :
    ((s.addLandings core ls).core d).rest = (s.core d).rest := by
  unfold State.addLandings
  rw [foldl_scheduleOnce_core]
  by_cases h : d = core
  · subst h
    rw [State.core_modCore_same]
    exact foldl_keeps Core.rest _ (fun c l => Core.rest_addLanding c l) _ _
  · rw [State.core_modCore_other _ _ h]

theorem State.core_rest_finishTo (s : State) (x : Ctx) (ts : List LaneTrap) (gos : List Go) (ls : List Landing)
    (d : Nat) : ((s.finishTo x ts gos ls).core d).rest = (s.core d).rest := by
  unfold State.finishTo
  simp only
  rw [State.core_rest_addLandings, State.core_rest_raise]
  unfold State.goLanes State.passLanes
  rw [State.core_rest_modGroup, State.core_rest_modGroup]

theorem State.core_rest_seeds (s : State) (x : Ctx) (rs : List (Nat × LaneOut)) (d : Nat) :
    ((s.seeds x rs).core d).rest = (s.core d).rest := by
  unfold State.seeds
  refine foldl_keeps (fun s : State => (s.core d).rest) _ (fun s r => ?_) rs s
  obtain ⟨l, o⟩ := r
  simp only
  split
  · rfl
  · rw [State.core_rest_modThread]

theorem State.begin_raw_rest (s : State) (sh : Shape) (f : Fields) :
    (s.begin sh f).1.raw.rest = (s.core s.cur.core).rest := by
  have : (s.begin sh f).1.raw.rest = ((s.core s.cur.core).settle s.now).rest := rfl
  rw [this, Core.rest_settle]

/-! ## Groups without their threads -/

/-- The common fields of a core's group. -/
def State.groupRest (s : State) (d j : Nat) : Option Group := ((s.core d).groups.find j).map Group.rest

theorem Group.rest_modThread (g : Group) (l : Nat) (f : Thread → Thread) : (g.modThread l f).rest = g.rest := by
  unfold Group.modThread; split <;> rfl

theorem Core.groupRest_modGroup (c : Core) (k : Nat) (f : Group → Group) (hf : ∀ g, (f g).rest = g.rest) (j : Nat) :
    ((c.modGroup k f).groups.find j).map Group.rest = (c.groups.find j).map Group.rest := by
  by_cases h : j = k
  · subst h
    rw [Core.find_modGroup_same]
    cases c.groups.find j <;> simp [hf]
  · rw [Core.find_modGroup_other _ _ h]

theorem State.groupRest_modGroup (s : State) (c k : Nat) (f : Group → Group) (hf : ∀ g, (f g).rest = g.rest)
    (d j : Nat) : (s.modGroup c k f).groupRest d j = s.groupRest d j := by
  unfold State.groupRest
  rw [State.core_modGroup]
  split
  · exact Core.groupRest_modGroup _ _ _ hf _
  · rfl

theorem State.groupRest_modThread (s : State) (c k l : Nat) (f : Thread → Thread) (d j : Nat) :
    (s.modThread c k l f).groupRest d j = s.groupRest d j :=
  State.groupRest_modGroup _ _ _ _ (fun g => Group.rest_modThread g l f) _ _

theorem State.groupRest_raise (s : State) (x : Ctx) (ts : List LaneTrap) (d j : Nat) :
    (s.raise x ts).groupRest d j = s.groupRest d j :=
  foldl_keeps (fun s : State => s.groupRest d j) _ (fun s t => by
    unfold State.trap State.terminal
    split
    · rw [State.groupRest_modThread]; rfl
    · change (s.modThread _ _ _ _).groupRest d j = _
      rw [State.groupRest_modThread]) ts s

theorem State.groupRest_addLandings (s : State) (core : Nat) (ls : List Landing) (d j : Nat) :
    (s.addLandings core ls).groupRest d j = s.groupRest d j := by
  unfold State.groupRest
  by_cases h : d = core
  · subst h; rw [State.addLandings_groups]
  · rw [State.addLandings_other _ _ h]

theorem State.groupRest_finishTo (s : State) (x : Ctx) (ts : List LaneTrap) (gos : List Go) (ls : List Landing)
    (d j : Nat) : (s.finishTo x ts gos ls).groupRest d j = s.groupRest d j := by
  unfold State.finishTo
  simp only
  rw [State.groupRest_addLandings, State.groupRest_raise]
  unfold State.goLanes State.passLanes
  rw [State.groupRest_modGroup, State.groupRest_modGroup]
  · exact fun g => foldl_keeps Group.rest _ (fun g l => Group.rest_modThread g ..) _ _
  · exact fun g => foldl_keeps Group.rest _ (fun g l => Group.rest_modThread g ..) _ _

theorem State.groupRest_seeds (s : State) (x : Ctx) (rs : List (Nat × LaneOut)) (d j : Nat) :
    (s.seeds x rs).groupRest d j = s.groupRest d j := by
  unfold State.seeds
  refine foldl_keeps (fun s : State => s.groupRest d j) _ (fun s r => ?_) rs s
  obtain ⟨l, o⟩ := r
  simp only
  split
  · rfl
  · rw [State.groupRest_modThread]

/-! ## Threads under the seeds of an issue -/

theorem State.seeds_threadAt (x : Ctx) (rs : List (Nat × LaneOut)) (s : State) (d j m : Nat) :
    (∀ u, s.threadAt d j m = some u → ∃ seed pc,
      (s.seeds x rs).threadAt d j m = some { u with seed := seed, trappc := pc }) ∧
    (s.threadAt d j m = none → (s.seeds x rs).threadAt d j m = none) ∧
    (¬(d = x.core ∧ j = x.slot ∧ ∃ o, (m, o) ∈ rs) → (s.seeds x rs).threadAt d j m = s.threadAt d j m) := by
  induction rs generalizing s with
  | nil => exact ⟨fun u hu => ⟨u.seed, u.trappc, hu⟩, fun h => h, fun _ => rfl⟩
  | cons a t ih =>
    have hs : s.seeds x (a :: t) = State.seeds
        (if a.2.seed.isNone && a.2.trappc.isNone then s
         else s.modThread x.core x.slot a.1 fun t =>
           { t with seed := a.2.seed.getD t.seed, trappc := a.2.trappc.getD t.trappc }) x t := rfl
    rw [hs]
    split
    · obtain ⟨h1, h2, h3⟩ := ih s
      exact ⟨h1, h2, fun h => h3 fun ⟨p, q, o, r⟩ => h ⟨p, q, o, List.mem_cons_of_mem _ r⟩⟩
    · obtain ⟨h1, h2, h3⟩ := ih (s.modThread x.core x.slot a.1 fun t =>
           { t with seed := a.2.seed.getD t.seed, trappc := a.2.trappc.getD t.trappc })
      rw [State.threadAt_modThread] at h1 h2 h3
      refine ⟨fun u hu => ?_, fun hn => ?_, fun h => ?_⟩
      · split at h1
        · obtain ⟨p, q, hpq⟩ := h1 _ (by rw [hu]; rfl)
          exact ⟨p, q, hpq⟩
        · exact h1 u hu
      · exact h2 (by rw [hn]; split <;> rfl)
      · rw [h3 fun ⟨p, q, o, r⟩ => h ⟨p, q, o, List.mem_cons_of_mem _ r⟩, if_neg]
        rintro ⟨p, q, rfl⟩
        exact h ⟨p, q, a.2, List.mem_cons_self⟩

/-! ## The writes of the mould -/

theorem Ctx.mayWrite_lane {x : Ctx} {i : Instr} {o : LaneOut} {lane : Nat}
    (hp : o.pmask &&& ~~~i.predsOf = 0) {l : Landing} (h : l ∈ x.laneLandings o lane) :
    l.slot = x.slot ∧ l.eff = x.e ∧ l.tag = x.tag ∧ x.mayWrite i l.op := by
  unfold Ctx.laneLandings at h
  simp only [List.mem_append, List.mem_cons, List.not_mem_nil, or_false] at h
  rcases h with ((h | h) | h) | (rfl | rfl)
  · cases hs : x.sh.dst <;> simp only [hs] at h <;> try cases h
    cases hd : x.f.dst <;> simp only [hd] at h <;> try cases h
    · obtain ⟨j, hj, rfl⟩ := List.mem_map.1 h
      have hx : x.dest = _ := show (match x.sh.dst with | .val _ _ _ => x.f.dst | _ => .zero) = _ by rw [hs, hd]
      exact ⟨rfl, rfl, rfl, _, _, hx, Nat.le_add_right .., Nat.add_lt_add_left (hs ▸ List.mem_range.1 hj) _⟩
    · exact ⟨rfl, rfl, rfl, _, rfl, .inl (by simp [Ctx.dest, hs, hd])⟩
    · rename_i h; cases h
  · cases hc : x.f.cw <;> simp only [hc] at h
    · cases h
    · split at h
      · cases h
      · rw [List.mem_singleton] at h
        subst h
        exact ⟨rfl, rfl, rfl, _, rfl, .inr hc⟩
  · split at h
    · cases h
    · rw [List.mem_singleton] at h
      subst h
      exact ⟨rfl, rfl, rfl, hp⟩
  · exact ⟨rfl, rfl, rfl, trivial⟩
  · exact ⟨rfl, rfl, rfl, trivial⟩

theorem Ctx.mayWrite_group {x : Ctx} {i : Instr} {v : Nat} {l : Landing} (h : l ∈ x.groupLandings v) :
    l.slot = x.slot ∧ l.eff = x.e ∧ l.tag = x.tag ∧ x.mayWrite i l.op := by
  unfold Ctx.groupLandings at h
  cases hs : x.sh.dst <;> simp only [hs] at h <;> try cases h
  cases hd : x.f.dst <;> simp only [hd] at h <;> try cases h
  obtain ⟨j, hj, rfl⟩ := List.mem_map.1 h
  have hx : x.dest = _ := show (match x.sh.dst with | .val _ _ _ => x.f.dst | _ => .zero) = _ by rw [hs, hd]
  exact ⟨rfl, rfl, rfl, _, hx, Nat.le_add_right .., Nat.add_lt_add_left (hs ▸ List.mem_range.1 hj) _⟩

theorem Ctx.mayWrite_dead {x : Ctx} {i : Instr} {lanes : List Nat} {l : Landing} (h : l ∈ x.deadLandings lanes) :
    l.slot = x.slot ∧ l.eff = x.e ∧ l.tag = x.tag ∧ x.mayWrite i l.op := by
  unfold Ctx.deadLandings at h
  simp only at h
  split at h
  · cases h
  · obtain ⟨j, -, rfl⟩ := List.mem_map.1 h
    exact ⟨rfl, rfl, rfl, rfl⟩

theorem Ctx.mayWrite_key {x : Ctx} {i : Instr} {k l : Landing} (hk : k.key = l.key)
    (h : k.slot = x.slot ∧ k.eff = x.e ∧ k.tag = x.tag ∧ x.mayWrite i k.op) :
    l.slot = x.slot ∧ l.eff = x.e ∧ l.tag = x.tag ∧ x.mayWrite i l.op := by
  simp only [Landing.key, Landing.mk.injEq] at hk
  obtain ⟨-, -, h1, h2, h3, -, h4⟩ := hk
  rwa [← h1, ← h2, ← h3, ← h4]

/-- The writes in flight at the end of an issue. -/
theorem State.finish_origin {s : State} {x : Ctx} {i : Instr} {ts : List LaneTrap} {ls : List Landing}
    (h : ∀ l ∈ ls, l.slot = x.slot ∧ l.eff = x.e ∧ l.tag = x.tag ∧ x.mayWrite i l.op) :
    ∀ l ∈ ((s.finish x ts ls).core x.core).landings,
      (∃ k ∈ (s.core x.core).landings, k.key = l.key) ∨
      (l.slot = x.slot ∧ l.eff = x.e ∧ l.tag = x.tag ∧ x.mayWrite i l.op) := by
  intro l hl
  have hk : l.key ∈ ((s.finish x ts ls).core x.core).flight := List.mem_map_of_mem hl
  have hp := (State.finishTo_flight s x ts [] ls).mem_iff.1 hk
  rcases List.mem_append.1 hp with hp | hp
  · obtain ⟨k, hk, he⟩ := List.mem_map.1 hp
    refine .inr (Ctx.mayWrite_key he ?_)
    rcases List.mem_append.1 hk with hk | hk
    · exact Ctx.mayWrite_dead hk
    · exact h k hk
  · obtain ⟨k, hk, he⟩ := List.mem_map.1 hp
    exact .inl ⟨k, hk, he⟩

theorem State.seeds_landings (s : State) (x : Ctx) (rs : List (Nat × LaneOut)) (d : Nat) :
    ((s.seeds x rs).core d).landings = (s.core d).landings := by
  unfold State.seeds
  refine foldl_keeps (fun s : State => (s.core d).landings) _ (fun s r => ?_) rs s
  obtain ⟨l, o⟩ := r
  simp only
  split
  · rfl
  · rw [State.landings_modThread]

theorem State.seeds_core_other (s : State) (x : Ctx) (rs : List (Nat × LaneOut)) {d : Nat} (h : d ≠ x.core) :
    (s.seeds x rs).core d = s.core d := by
  unfold State.seeds
  refine foldl_keeps (fun s : State => s.core d) _ (fun s r => ?_) rs s
  obtain ⟨l, o⟩ := r
  simp only
  split
  · rfl
  · rw [State.core_modThread, if_neg h]

/-- The frame of an issue that seeds some special registers and finishes. -/
theorem State.seeds_finish_frame {s : State} {sh : Shape} {f : Fields} {i : Instr} (ts : List LaneTrap)
    (ls : List Landing) (rs : List (Nat × LaneOut)) {raised : Nat → Prop} {special : Bool}
    (ht : ∀ t ∈ ts, raised t.lane) (hr : ∀ r ∈ rs, r.1 ∈ (s.begin sh f).1.lanes)
    (hs : special = false → ∀ r ∈ rs, r.2.seed = none ∧ r.2.trappc = none)
    (hl : let x := (s.begin sh f).1
      ∀ l ∈ ls, l.slot = x.slot ∧ l.eff = x.e ∧ l.tag = x.tag ∧ x.mayWrite i l.op) :
    s.keepsFrame (((s.begin sh f).2.seeds (s.begin sh f).1 rs).finish (s.begin sh f).1 ts ls) i
      (s.begin sh f).1 raised special := by
  refine ⟨?_, ?_, ?_, ?_, ?_, ?_⟩
  · rw [State.rest_finish, State.rest_seeds, State.rest_begin]
  · intro d hd
    unfold State.finish
    rw [State.core_finishTo_other _ _ _ _ _ hd, State.seeds_core_other _ _ _ hd, State.begin_state_other _ _ _ hd]
  · unfold State.finish
    rw [State.core_rest_finishTo, State.core_rest_seeds]
    have : ((s.begin sh f).2.core (s.begin sh f).1.core) = (s.begin sh f).1.raw := State.begin_state_core ..
    rw [this, State.begin_raw_rest]; rfl
  · intro j
    change State.groupRest _ _ _ = _
    unfold State.finish
    rw [State.groupRest_finishTo, State.groupRest_seeds]
    unfold State.groupRest
    have : ((s.begin sh f).2.core (s.begin sh f).1.core) = (s.begin sh f).1.raw := State.begin_state_core ..
    rw [this]
  · intro d j m hm
    have hb : (s.begin sh f).2.threadAt d j m = s.before (s.begin sh f).1 d j m := State.begin_threadAt ..
    obtain ⟨h1, h2, h3⟩ := State.seeds_threadAt (s.begin sh f).1 rs (s.begin sh f).2 d j m
    rw [State.threadAt_finish _ _ _ _ fun p q t h e => hm ⟨p, q, (congrArg raised e).mp (ht t h)⟩]
    split
    · intro u hu
      rw [← hb] at hu
      by_cases hsp : special = false
      · rw [State.threadAt_seeds_none _ _ _ (hs hsp), hu]
        exact ⟨u.seed, u.trappc, rfl, fun _ => ⟨rfl, rfl⟩⟩
      · obtain ⟨p, q, hpq⟩ := h1 u hu
        rw [hpq]
        exact ⟨p, q, rfl, fun h => absurd h hsp⟩
    · rename_i hn
      rw [h3 fun ⟨p, q, o, h⟩ => hn ⟨p, q, hr _ h⟩, hb]
  · intro l h
    have := State.finish_origin hl l h
    rwa [State.seeds_landings, show (s.begin sh f).2.core (s.begin sh f).1.core = (s.begin sh f).1.raw from
      State.begin_state_core ..] at this

theorem Ctx.lanes_of_input {x : Ctx} {ka kb kc : ImmKind} {held : List Opnd} {a : LaneIn}
    (ha : a ∈ x.inputs ka kb kc held) : a.lane ∈ x.lanes := by
  have h := Ctx.inputs_ok ha
  unfold Ctx.okLanes Ctx.actives at h
  exact (List.mem_filter.1 (List.mem_filter.1 h).1).1

theorem Ctx.aluLandings_mayWrite {x : Ctx} {i : Instr} {ka kb kc : ImmKind}
    {fn : Ctx → List LaneIn → LaneIn → LaneOut} {held : List Opnd} {idle : Ctx → Nat → Nat}
    (hp : ∀ x ins a, (fn x ins a).pmask &&& ~~~i.predsOf = 0) :
    ∀ l ∈ x.aluLandings ka kb kc fn held idle,
      l.slot = x.slot ∧ l.eff = x.e ∧ l.tag = x.tag ∧ x.mayWrite i l.op := by
  intro l hl
  unfold Ctx.aluLandings at hl
  simp only [List.mem_append] at hl
  rcases hl with (hl | hl) | hl
  · split at hl
    · exact Ctx.mayWrite_group hl
    · cases hl
  · obtain ⟨r, hr, hl⟩ := List.mem_flatMap.1 hl
    unfold Ctx.outputs at hr
    obtain ⟨a, -, rfl⟩ := List.mem_map.1 hr
    refine Ctx.mayWrite_lane ?_ hl
    rw [Ctx.output_eq]
    exact hp _ _ _
  · obtain ⟨k, -, rfl⟩ := List.mem_map.1 hl
    exact ⟨rfl, rfl, rfl, trivial⟩

/-- The frame of the mould. -/
theorem State.alu_frame {s : State} {i : Instr} {ka kb kc : ImmKind}
    {fn : Ctx → List LaneIn → LaneIn → LaneOut} {held : List Opnd} {idle : Ctx → Nat → Nat} {special : Bool}
    (hp : ∀ x ins a, (fn x ins a).pmask &&& ~~~i.predsOf = 0)
    (hs : special = false → ∀ x ins a, (fn x ins a).seed = none ∧ (fn x ins a).trappc = none) :
    s.keepsFrame (s.alu i.shape i.fields ka kb kc fn held idle) i (s.issueOf i)
      (fun m => m ∈ (s.issueOf i).actives ∧
        ((s.issueOf i).levelFault m (readFields (s.issueOf i).sh (s.issueOf i).f) held).isSome = true) special := by
  rw [State.alu_eq]
  refine State.seeds_finish_frame _ _ _ (fun t ht => Ctx.levelFaults_lane ht) (fun r hr => ?_)
    (fun h r hr => ?_) (Ctx.aluLandings_mayWrite hp)
  · unfold Ctx.outputs at hr
    obtain ⟨a, ha, rfl⟩ := List.mem_map.1 hr
    exact Ctx.lanes_of_input ha
  · unfold Ctx.outputs at hr
    obtain ⟨a, ha, rfl⟩ := List.mem_map.1 hr
    simp only [(Ctx.output_seed ..).1, (Ctx.output_seed ..).2]
    exact hs h _ _ _

end Sys2Proof.Machine
end

