-- ==== Sys2Proof/Laws/Traps.lean ====
section
/-! SUPPORT. Taking an exception within an issue (R443 to R446, R449): what becomes of each lane that raises
one. -/

namespace Sys2Proof.Machine

theorem State.mem_agenda_schedule {s : State} {d : Nat} {e : Event} {p : Nat × Event} (h : p ∈ s.agenda) :
    p ∈ (s.schedule d e).agenda := by
  have key : ∀ (due : Nat) (l : List (Nat × Event)), p ∈ l → p ∈ insertEvent due e l := by
    intro due l
    induction l with
    | nil => intro h; cases h
    | cons a t ih =>
      intro h
      obtain ⟨x, y⟩ := a
      unfold insertEvent
      split
      · rcases List.mem_cons.1 h with h | h
        · exact h ▸ List.mem_cons_self
        · exact List.mem_cons_of_mem _ (ih h)
      · exact List.mem_cons_of_mem _ h
  exact key _ _ h

theorem State.mem_agenda_schedule_self (s : State) (d : Nat) (e : Event) :
    (max d s.now, e) ∈ (s.schedule d e).agenda := by
  have key : ∀ (due : Nat) (l : List (Nat × Event)), (due, e) ∈ insertEvent due e l := by
    intro due l
    induction l with
    | nil => exact List.mem_cons_self
    | cons a t ih =>
      obtain ⟨x, y⟩ := a
      unfold insertEvent
      split
      · exact List.mem_cons_of_mem _ ih
      · exact List.mem_cons_self
  exact key _ _

theorem State.mem_agenda_scheduleOnce {s : State} {d : Nat} {e : Event} {p : Nat × Event} (h : p ∈ s.agenda) :
    p ∈ (s.scheduleOnce d e).agenda := by
  unfold State.scheduleOnce
  split
  · exact h
  · exact State.mem_agenda_schedule h

theorem State.mem_agenda_scheduleOnce_self (s : State) (d : Nat) (e : Event) :
    (max d s.now, e) ∈ (s.scheduleOnce d e).agenda := by
  unfold State.scheduleOnce
  split
  · assumption
  · exact State.mem_agenda_schedule_self ..

theorem State.mem_agenda_addLandings {s : State} {c : Nat} {ls : List Landing} {p : Nat × Event} (h : p ∈ s.agenda) :
    p ∈ (s.addLandings c ls).agenda :=
  foldl_holds (fun s : State => p ∈ s.agenda) _ (fun _ _ h => State.mem_agenda_scheduleOnce h) _ h

theorem State.mem_agenda_trap {s : State} {c k l a : Nat} {x y z : DWord} {e n : Nat} {p : Nat × Event}
    (h : p ∈ s.agenda) : p ∈ (s.trap c k l a x y z e n).agenda := by
  unfold State.trap State.terminal
  split
  · exact h
  · exact State.mem_agenda_schedule h

theorem State.mem_agenda_raise {s : State} {x : Ctx} {ts : List LaneTrap} {p : Nat × Event} (h : p ∈ s.agenda) :
    p ∈ (s.raise x ts).agenda :=
  foldl_holds (fun s : State => p ∈ s.agenda) _ (fun _ _ h => State.mem_agenda_trap h) _ h

/-- What the rest of two states settles: the time, and a core's side and launch. -/
theorem State.now_congr {s t : State} (h : t.rest = s.rest) : t.now = s.now := by
  have := congrArg (fun s : State => s.now) h
  exact this

theorem State.sideD_congr {s t : State} {c : Nat} (hc : (t.core c).rest = (s.core c).rest) :
    (t.core c).sideD = (s.core c).sideD := by
  have h : (t.core c).rest.side = (s.core c).rest.side := by rw [hc]
  unfold Core.sideD
  rw [show (t.core c).side = (s.core c).side from h]

theorem State.coreLaunch_congr {s t : State} {c : Nat} (h : t.rest = s.rest)
    (hc : (t.core c).rest = (s.core c).rest) : t.coreLaunch c = s.coreLaunch c := by
  have h1 : t.rest.launches = s.rest.launches := by rw [h]
  unfold State.coreLaunch State.launch
  rw [State.sideD_congr hc, show t.launches = s.launches from h1]

theorem State.thread_eq {s : State} {c k l : Nat} {u : Thread} (h : s.threadAt c k l = some u) :
    s.thread c k l = u := by
  unfold State.threadAt Core.threadAt at h
  unfold State.thread Core.thread Core.group Group.thread Tab.get
  cases hg : (s.core c).groups.find k with
  | none => rw [hg] at h; cases h
  | some g =>
    rw [hg] at h
    simp only [Option.bind_some] at h
    simp [h]

/-- What a trap makes of its thread: the handler's entry, or a stop with the fault on its way. -/
def State.trapped (s t : State) (c k l a : Nat) (x y z : DWord) (next : Nat) (u : Thread) : Prop :=
  (∀ p, (s.coreLaunch c).handler = some p → u.handler = false →
    ∃ ctx, t.threadAt c k l = some (u.enter ctx (BitVec.ofNat 32 a) x y p next)) ∧
  ((s.coreLaunch c).handler = none ∨ u.handler = true →
    t.threadAt c k l = some { u with stopped := true } ∧
    (s.now + officeTime c, .terminalFaultArrival (s.core c).sideD.launch
      ⟨BitVec.ofNat 8 a, 1, x, z, BitVec.ofNat 16 c, BitVec.ofNat 8 k, BitVec.ofNat 8 l⟩) ∈ t.agenda)

theorem State.trapped_trap {s : State} {c k l a : Nat} {x y z : DWord} {e n : Nat} {u : Thread}
    (h : s.threadAt c k l = some u) :
    s.trapped (s.trap c k l a x y z e n) c k l a x y z (e + 1 + n + 8) u := by
  have hu := State.thread_eq h
  constructor
  · intro p hp hb
    unfold State.trap
    rw [hu, hp, hb]
    refine ⟨s.tick.order, ?_⟩
    simp only
    rw [State.threadAt_modThread, if_pos ⟨rfl, rfl, rfl⟩]
    change Option.map _ (s.threadAt c k l) = _
    rw [h]; rfl
  · intro hn
    have he : s.trap c k l a x y z e n = s.terminal c k l (BitVec.ofNat 8 a) 1 x z := by
      unfold State.trap
      rw [hu]
      rcases hn with hn | hn
      · rw [hn]
      · rw [hn]; cases (s.coreLaunch c).handler <;> rfl
    rw [he]
    constructor
    · change (s.modThread c k l _).threadAt c k l = _
      rw [State.threadAt_modThread, if_pos ⟨rfl, rfl, rfl⟩, h]; rfl
    · have := State.mem_agenda_schedule_self (s.modThread c k l fun t => { t with stopped := true })
        (s.now + officeTime c) (.terminalFaultArrival (s.core c).sideD.launch
          ⟨BitVec.ofNat 8 a, 1, x, z, BitVec.ofNat 16 c, BitVec.ofNat 8 k, BitVec.ofNat 8 l⟩)
      rwa [show max (s.now + officeTime c) (s.modThread c k l fun t => { t with stopped := true }).now =
        s.now + officeTime c from Nat.max_eq_left (Nat.le_add_right ..)] at this

theorem State.trapped_mono {s t t' : State} {c k l a : Nat} {x y z : DWord} {next : Nat} {u : Thread}
    (h : s.trapped t c k l a x y z next u) (h1 : t'.threadAt c k l = t.threadAt c k l)
    (h2 : ∀ p ∈ t.agenda, p ∈ t'.agenda) : s.trapped t' c k l a x y z next u := by
  constructor
  · intro p hp hb; rw [h1]; exact h.1 p hp hb
  · intro hn; rw [h1]; exact ⟨(h.2 hn).1, h2 _ (h.2 hn).2⟩

theorem State.trapped_congr {s s' t : State} {c k l a : Nat} {x y z : DWord} {next : Nat} {u : Thread}
    (h : s'.trapped t c k l a x y z next u) (hr : s'.rest = s.rest) (hc : (s'.core c).rest = (s.core c).rest) :
    s.trapped t c k l a x y z next u := by
  unfold State.trapped at h
  rwa [State.coreLaunch_congr hr hc, State.now_congr hr, State.sideD_congr hc] at h

/-- What the traps of an issue make of a lane that raises one: each lane raises at most one. -/
theorem State.trapped_raise {x : Ctx} (ts : List LaneTrap) {s : State} {t : LaneTrap} {u : Thread}
    (ht : t ∈ ts) (hn : (ts.map (·.lane)).Nodup) (h : s.threadAt x.core x.slot t.lane = some u) :
    s.trapped (s.raise x ts) x.core x.slot t.lane t.cause t.addr (t.pc.getD x.pc) x.pc
      (x.e + 1 + x.stall + 8) u := by
  induction ts generalizing s with
  | nil => cases ht
  | cons a r ih =>
    have hs : s.raise x (a :: r) = State.raise
        (s.trap x.core x.slot a.lane a.cause a.addr (a.pc.getD x.pc) x.pc x.e x.stall) x r := rfl
    rw [hs]
    have hn' := List.nodup_cons.1 (show (a.lane :: r.map (·.lane)).Nodup from hn)
    rcases List.mem_cons.1 ht with rfl | hr
    · have ho : ∀ b ∈ r, b.lane ≠ t.lane := fun b hb e =>
        hn'.1 (List.mem_map.2 ⟨b, hb, e⟩)
      exact State.trapped_mono (State.trapped_trap h) (State.threadAt_raise_other x r _ fun _ _ => ho)
        fun p hp => State.mem_agenda_raise hp
    · have hne : ¬(x.core = x.core ∧ x.slot = x.slot ∧ t.lane = a.lane) := fun ⟨_, _, e⟩ =>
        hn'.1 (List.mem_map.2 ⟨t, hr, e⟩)
      refine State.trapped_congr (ih hr hn'.2 ?_) (State.rest_trap ..) (State.core_rest_trap ..)
      exact (State.threadAt_trap_other s x.core x.slot a.lane a.cause a.addr (a.pc.getD x.pc) x.pc x.e
        x.stall hne).trans h

/-- The lanes of an issue that raise a cause, at its end: of a shared end without transfers. -/
theorem State.raises_finish {s : State} {sh : Shape} {f : Fields} {rs : List (Nat × LaneOut)}
    (ts : List LaneTrap) (ls : List Landing) {t : LaneTrap} (ht : t ∈ ts) (hn : (ts.map (·.lane)).Nodup)
    (hr : ¬∃ o, (t.lane, o) ∈ rs) :
    let x := (s.begin sh f).1
    s.raises (((s.begin sh f).2.seeds x rs).finish x ts ls) x t.lane t.cause t.addr (t.pc.getD x.pc) := by
  intro x u hu
  have h0 : (s.begin sh f).2.threadAt x.core x.slot t.lane = some u := by
    rw [State.begin_threadAt]; exact (if_pos (show x.core = s.cur.core from rfl)).trans hu
  have h1 : ((s.begin sh f).2.seeds x rs).threadAt x.core x.slot t.lane = some u := by
    rw [(State.seeds_threadAt x rs _ x.core x.slot t.lane).2.2 fun h => hr h.2.2]; exact h0
  have h2 : ((((s.begin sh f).2.seeds x rs).passLanes x (x.lanes.filter fun l => !(ts.any fun t => t.lane == l))).goLanes
      x []).threadAt x.core x.slot t.lane = some u := by
    rw [State.threadAt_goLanes_nil]
    unfold State.passLanes
    rw [State.threadAt_modLanes _ _ _ _ (fun t => t.advance x.nextPc x.nextIssue) (fun t => rfl), if_neg]
    · exact h1
    · rintro ⟨-, -, h⟩
      have h3 := (List.mem_filter.1 h).2
      simp only [Bool.not_eq_true', List.any_eq_false, beq_iff_eq] at h3
      exact h3 t ht rfl
  have h3 := State.trapped_raise ts ht hn h2
  have h4 := State.trapped_mono (t' := ((s.begin sh f).2.seeds x rs).finish x ts ls) h3
    (State.threadAt_addLandings ..) fun p hp => State.mem_agenda_addLandings hp
  have h5 := State.trapped_congr (s := s) h4
    (by unfold State.goLanes State.passLanes
        rw [State.rest_modGroup, State.rest_modGroup, State.rest_seeds, State.rest_begin])
    (by unfold State.goLanes State.passLanes
        rw [State.core_rest_modGroup, State.core_rest_modGroup, State.core_rest_seeds]
        have : (s.begin sh f).2.core x.core = x.raw := State.begin_state_core ..
        rw [this, State.begin_raw_rest]; rfl)
  exact h5

theorem filterMap_lane_nodup {g : Nat → Option LaneTrap} (hg : ∀ l t, g l = some t → t.lane = l) {ls : List Nat}
    (h : ls.Nodup) : ((ls.filterMap g).map (·.lane)).Nodup := by
  induction ls with
  | nil => exact List.nodup_nil
  | cons a r ih =>
    rw [List.nodup_cons] at h
    rw [List.filterMap_cons]
    cases ha : g a with
    | none => exact ih h.2
    | some t =>
      simp only [List.map_cons, List.nodup_cons]
      refine ⟨fun hm => ?_, ih h.2⟩
      obtain ⟨b, hb, he⟩ := List.mem_map.1 hm
      obtain ⟨c, hc, hcb⟩ := List.mem_filterMap.1 hb
      rw [hg _ _ ha, hg _ _ hcb] at he
      exact h.1 (he ▸ hc)

/-- The lanes of the mould that raise a level trap. -/
theorem State.alu_raises {s : State} {sh : Shape} {f : Fields} {ka kb kc : ImmKind}
    {fn : Ctx → List LaneIn → LaneIn → LaneOut} {held : List Opnd} {idle : Ctx → Nat → Nat} {l cause code : Nat}
    (hn : s.cur.lanes.Nodup) (hl : l ∈ (s.begin sh f).1.actives)
    (h : (s.begin sh f).1.levelFault l (readFields sh f) held = some (cause, code)) :
    s.raises (s.alu sh f ka kb kc fn held idle) (s.begin sh f).1 l cause (BitVec.ofNat 64 code) (s.begin sh f).1.pc := by
  rw [State.alu_eq]
  have hm : (⟨l, cause, BitVec.ofNat 64 code, none⟩ : LaneTrap) ∈ (s.begin sh f).1.levelFaults held := by
    unfold Ctx.levelFaults
    refine List.mem_filterMap.2 ⟨(l, some (cause, code)), List.mem_map.2 ⟨l, hl, ?_⟩, rfl⟩
    exact congrArg (Prod.mk l) h
  refine State.raises_finish _ _ hm ?_ ?_
  · have e : (s.begin sh f).1.levelFaults held = (s.begin sh f).1.actives.filterMap fun l =>
        ((s.begin sh f).1.levelFault l (readFields (s.begin sh f).1.sh (s.begin sh f).1.f) held).map
          fun p => (⟨l, p.1, BitVec.ofNat 64 p.2, none⟩ : LaneTrap) := by
      unfold Ctx.levelFaults
      rw [List.filterMap_map]; rfl
    rw [e]
    refine filterMap_lane_nodup (fun l t h => ?_) (hn.filter _)
    obtain ⟨p, -, rfl⟩ := Option.map_eq_some_iff.1 h
    rfl
  · rintro ⟨o, ho⟩
    unfold Ctx.outputs at ho
    obtain ⟨a, ha, he⟩ := List.mem_map.1 ho
    have := Ctx.okLanes_not_fault (Ctx.inputs_ok ha) _ hm
    exact this (congrArg Prod.fst he).symm

/-- A level trap is OPND_LEVEL or STALL_SHORT (R224). -/
theorem Ctx.levelFault_cause {x : Ctx} {l cause code : Nat} {fields : List (Opnd × Nat)} {held : List Opnd}
    (h : x.levelFault l fields held = some (cause, code)) : cause = 3 ∨ cause = 4 := by
  unfold Ctx.levelFault at h
  split at h
  · simp only [Option.some.injEq, Prod.mk.injEq] at h; exact .inl h.1.symm
  · split at h
    · rw [Option.map_eq_some_iff] at h
      obtain ⟨p, -, hp⟩ := h
      exact .inr (congrArg Prod.fst hp).symm
    · cases h

/-- The push of a lane that is not active (R9, R221). -/
theorem State.alu_idle (s : State) (sh : Shape) (f : Fields) (ka kb kc : ImmKind)
    (fn : Ctx → List LaneIn → LaneIn → LaneOut) (held : List Opnd) (idle : Ctx → Nat → Nat) {l : Nat}
    (hl : l ∈ (s.begin sh f).1.lanes) (ha : (s.begin sh f).1.active l = false) :
    (s.alu sh f ka kb kc fn held idle).writes (s.begin sh f).1 (s.begin sh f).1.e l
      (.push ((s.begin sh f).1.thread l).lv.ctx (BitVec.ofNat 64 (idle (s.begin sh f).1 l)) none) := by
  refine State.writes_of_flight ?_
  change _ ∈ ((s.alu sh f ka kb kc fn held idle).core s.cur.core).flight
  rw [(State.alu_flight ..).mem_iff]
  refine List.mem_append_left _ (List.mem_map_of_mem (List.mem_append_right _ ?_))
  unfold Ctx.aluLandings
  exact List.mem_append_right _ (List.mem_map.2 ⟨l, List.mem_filter.2 ⟨hl, by simp [ha]⟩, rfl⟩)

end Sys2Proof.Machine
end

