-- ==== Sys2Proof/Laws/Ends.lean ====
section
/-! SUPPORT. The shared ends of an issue (R191, R200, R216): what becomes of each lane, and what is left alone. -/

namespace Sys2Proof.Machine

/-- goLanes on one lane. -/
theorem State.threadAt_goLanes (s : State) (x : Ctx) (gos : List Go) (hn : (gos.map (·.lane)).Nodup) (d j m : Nat) :
    (s.goLanes x gos).threadAt d j m =
      if d = x.core ∧ j = x.slot then
        match gos.find? (fun g => g.lane == m) with
        | some g => (s.threadAt d j m).map fun t => t.advance g.pc (x.nextIssue + g.b)
        | none => s.threadAt d j m
      else s.threadAt d j m := by
  have key : ∀ (gos : List Go) (g : Group), (gos.map (·.lane)).Nodup →
     (gos.foldl (fun g o => g.modThread o.lane fun t => t.advance o.pc (x.nextIssue + o.b)) g).threads.find m =
      match gos.find? (fun g => g.lane == m) with
        | some o => (g.threads.find m).map fun t => t.advance o.pc (x.nextIssue + o.b)
        | none => g.threads.find m := by
    intro gos
    induction gos with
    | nil => intro g _; rfl
    | cons a t ih =>
      intro g hn
      rw [List.map_cons, List.nodup_cons] at hn
      rw [List.foldl_cons, ih _ hn.2, List.find?_cons]
      by_cases h : a.lane = m
      · have : t.find? (fun g => g.lane == m) = none := by
          rw [List.find?_eq_none]
          intro o ho hm
          exact hn.1 (List.mem_map.2 ⟨o, ho, by simp at hm; omega⟩)
        rw [this]
        simp only [h, beq_self_eq_true]
        rw [Group.find_modThread_same]
      · rw [Group.find_modThread_other _ _ (fun e => h e.symm)]
        have : (a.lane == m) = false := by simpa using h
        rw [this]
  unfold State.goLanes State.threadAt
  rw [State.core_modGroup]
  by_cases hd : d = x.core
  · subst hd
    simp only [if_true, true_and]
    unfold Core.threadAt
    by_cases hj : j = x.slot
    · subst hj
      rw [Core.find_modGroup_same, if_pos rfl]
      cases hg : (s.core x.core).groups.find x.slot with
      | none => simp; split <;> rfl
      | some g =>
        simp only [Option.map_some, Option.bind_some]
        exact key gos g hn
    · rw [Core.find_modGroup_other _ _ hj, if_neg hj]
  · simp [hd]

theorem State.threadAt_goLanes_other (s : State) (x : Ctx) (gos : List Go) (d j m : Nat) (h : ∀ g ∈ gos, g.lane ≠ m) :
    (s.goLanes x gos).threadAt d j m = s.threadAt d j m := by
  have key : ∀ (gos : List Go) (g : Group), (∀ g ∈ gos, g.lane ≠ m) →
     (gos.foldl (fun g o => g.modThread o.lane fun t => t.advance o.pc (x.nextIssue + o.b)) g).threads.find m = g.threads.find m := by
    intro gos
    induction gos with
    | nil => intro g _; rfl
    | cons a t ih =>
      intro g hn
      rw [List.foldl_cons, ih _ (fun g hg => hn g (List.mem_cons_of_mem _ hg)), Group.find_modThread_other _ _ (fun e => hn a List.mem_cons_self e.symm)]
  unfold State.goLanes State.threadAt
  rw [State.core_modGroup]
  by_cases hd : d = x.core
  · subst hd
    simp only [if_true]
    unfold Core.threadAt
    by_cases hj : j = x.slot
    · subst hj
      rw [Core.find_modGroup_same]
      cases hg : (s.core x.core).groups.find x.slot with
      | none => simp
      | some g =>
        simp only [Option.map_some, Option.bind_some]
        exact key gos g h
    · rw [Core.find_modGroup_other _ _ hj]
  · simp [hd]

theorem State.threadAt_finishTo_other (s : State) (x : Ctx) (ts : List LaneTrap) (gos : List Go) (ls : List Landing) {d j m : Nat}
    (hg : ∀ g ∈ gos, g.lane ∈ x.lanes) (ht : ∀ t ∈ ts, t.lane ∈ x.lanes) (hm : ¬(d = x.core ∧ j = x.slot ∧ m ∈ x.lanes)) :
    (s.finishTo x ts gos ls).threadAt d j m = s.threadAt d j m := by
  unfold State.finishTo
  simp only
  rw [State.threadAt_addLandings, State.threadAt_raise_other x ts _ fun p q t h e => hm ⟨p, q, by have := ht t h; rwa [e] at this⟩]
  have h0 : (s.passLanes x (x.lanes.filter fun l => !(ts.any fun t => t.lane == l))).threadAt d j m = s.threadAt d j m := by
    unfold State.passLanes
    rw [State.threadAt_modLanes _ _ _ _ (fun t => t.advance x.nextPc x.nextIssue) (fun t => rfl), if_neg]
    rintro ⟨a, b, c⟩
    exact hm ⟨a, b, (List.mem_filter.1 c).1⟩
  by_cases hdj : d = x.core ∧ j = x.slot
  · rw [State.threadAt_goLanes_other, h0]
    intro g hgm e
    exact hm ⟨hdj.1, hdj.2, by have := hg g hgm; rwa [e] at this⟩
  · have : ∀ s : State, (s.goLanes x gos).threadAt d j m = s.threadAt d j m := by
      intro s
      unfold State.goLanes State.threadAt
      rw [State.core_modGroup]
      split
      · rename_i hd
        unfold Core.threadAt
        rw [Core.find_modGroup_other _ _ (fun h => hdj ⟨hd, h⟩)]
      · rfl
    rw [this, h0]

theorem State.threadAt_finishTo (s : State) (x : Ctx) (ts : List LaneTrap) (gos : List Go) (ls : List Landing) {d j m : Nat}
    (hn : (gos.map (·.lane)).Nodup)
    (h : d = x.core → j = x.slot → ∀ t ∈ ts, t.lane ≠ m) :
    (s.finishTo x ts gos ls).threadAt d j m =
      if d = x.core ∧ j = x.slot then
        match gos.find? (fun g => g.lane == m) with
        | some g => (s.threadAt d j m).map fun t => t.advance g.pc (x.nextIssue + g.b)
        | none => if m ∈ x.lanes then (s.threadAt d j m).map fun t => t.advance x.nextPc x.nextIssue else s.threadAt d j m
      else s.threadAt d j m := by
  unfold State.finishTo
  simp only
  rw [State.threadAt_addLandings, State.threadAt_raise_other x ts _ h, State.threadAt_goLanes _ _ _ hn]
  unfold State.passLanes
  rw [State.threadAt_modLanes _ _ _ _ (fun t => t.advance x.nextPc x.nextIssue) (fun t => rfl)]
  by_cases hdj : d = x.core ∧ j = x.slot
  · rw [if_pos hdj, if_pos hdj]
    have hm : m ∈ (x.lanes.filter fun l => !(ts.any fun t => t.lane == l)) ↔ m ∈ x.lanes := by
      rw [List.mem_filter]
      refine ⟨fun h => h.1, fun hm => ⟨hm, ?_⟩⟩
      simp only [Bool.not_eq_true', List.any_eq_false, beq_iff_eq]
      exact fun t ht => h hdj.1 hdj.2 t ht
    simp only [hdj.1, hdj.2, true_and, hm]
    split
    · split
      · rw [Option.map_map]; rfl
      · rfl
    · rfl
  · rw [if_neg hdj, if_neg hdj, if_neg]
    rintro ⟨a, b, _⟩; exact hdj ⟨a, b⟩

/-- The lanes of an issue that raise a cause, at its end. -/
theorem State.raises_finishTo {s : State} {sh : Shape} {f : Fields} 
    (ts : List LaneTrap) (gos : List Go) (ls : List Landing) {t : LaneTrap} (ht : t ∈ ts) (hn : (ts.map (·.lane)).Nodup)
    (hg : (gos.map (·.lane)).Nodup) (hr : ∀ g ∈ gos, g.lane ≠ t.lane) :
    let x := (s.begin sh f).1
    s.raises ((s.begin sh f).2.finishTo x ts gos ls) x t.lane t.cause t.addr (t.pc.getD x.pc) := by
  intro x u hu
  have h0 : (s.begin sh f).2.threadAt x.core x.slot t.lane = some u := by
    rw [State.begin_threadAt]; exact (if_pos (show x.core = s.cur.core from rfl)).trans hu
  have h2 : (((s.begin sh f).2.passLanes x (x.lanes.filter fun l => !(ts.any fun t => t.lane == l))).goLanes
      x gos).threadAt x.core x.slot t.lane = some u := by
    rw [State.threadAt_goLanes _ _ _ hg, if_pos ⟨rfl, rfl⟩]
    have : gos.find? (fun g => g.lane == t.lane) = none := by
      rw [List.find?_eq_none]; intro g hgm; simpa using hr g hgm
    rw [this]
    unfold State.passLanes
    simp only
    rw [State.threadAt_modLanes _ _ _ _ (fun t => t.advance x.nextPc x.nextIssue) (fun t => rfl), if_neg]
    · exact h0
    · rintro ⟨-, -, h⟩
      have h3 := (List.mem_filter.1 h).2
      simp only [Bool.not_eq_true', List.any_eq_false, beq_iff_eq] at h3
      exact h3 t ht rfl
  have h3 := State.trapped_raise ts ht hn h2
  have h4 := State.trapped_mono (t' := (s.begin sh f).2.finishTo x ts gos ls) h3
    (State.threadAt_addLandings ..) fun p hp => State.mem_agenda_addLandings hp
  have h5 := State.trapped_congr (s := s) h4
    (by unfold State.goLanes State.passLanes
        rw [State.rest_modGroup, State.rest_modGroup, State.rest_begin])
    (by unfold State.goLanes State.passLanes
        rw [State.core_rest_modGroup, State.core_rest_modGroup]
        have : (s.begin sh f).2.core x.core = x.raw := State.begin_state_core ..
        rw [this, State.begin_raw_rest]; rfl)
  exact h5

theorem State.finishTo_keepsOthers {s : State} {sh : Shape} {f : Fields} (ts : List LaneTrap) (gos : List Go)
    (ls : List Landing) {allowed : MicroOp → Prop}
    (ht : ∀ t ∈ ts, t.lane ∈ (s.begin sh f).1.lanes) (hg : ∀ g ∈ gos, g.lane ∈ (s.begin sh f).1.lanes)
    (hv : ∀ regs, regs = deadRegs sh f ++ (s.begin sh f).1.vac → allowed (.vacate regs))
    (hl : let x := (s.begin sh f).1
      ∀ l ∈ ls, l.slot = x.slot ∧ l.eff = x.e ∧ l.tag = x.tag ∧ allowed l.op) :
    s.keepsOthers ((s.begin sh f).2.finishTo (s.begin sh f).1 ts gos ls) (s.begin sh f).1 allowed := by
  refine ⟨?_, ?_, ?_, ?_, ?_, ?_⟩
  · rw [State.rest_finishTo, State.rest_begin]
  · intro d hd
    rw [State.core_finishTo_other _ _ _ _ _ hd, State.begin_state_other _ _ _ hd]
  · rw [State.core_rest_finishTo]
    have : ((s.begin sh f).2.core (s.begin sh f).1.core) = (s.begin sh f).1.raw := State.begin_state_core ..
    rw [this, State.begin_raw_rest]; rfl
  · intro j
    change State.groupRest _ _ _ = _
    rw [State.groupRest_finishTo]
    unfold State.groupRest
    have : ((s.begin sh f).2.core (s.begin sh f).1.core) = (s.begin sh f).1.raw := State.begin_state_core ..
    rw [this]
  · intro d j m hm
    have hb : (s.begin sh f).2.threadAt d j m = s.before (s.begin sh f).1 d j m := State.begin_threadAt ..
    rw [State.threadAt_finishTo_other _ _ _ _ _ hg ht hm, hb]
  · intro l hl'
    have hk : l.key ∈ (((s.begin sh f).2.finishTo (s.begin sh f).1 ts gos ls).core (s.begin sh f).1.core).flight := List.mem_map_of_mem hl'
    have hp := (State.finishTo_flight _ _ ts gos ls).mem_iff.1 hk
    have hkey : ∀ k : Landing, k.key = l.key → (k.slot = (s.begin sh f).1.slot ∧ k.eff = (s.begin sh f).1.e ∧ k.tag = (s.begin sh f).1.tag ∧ allowed k.op) →
       (l.slot = (s.begin sh f).1.slot ∧ l.eff = (s.begin sh f).1.e ∧ l.tag = (s.begin sh f).1.tag ∧ allowed l.op) := by
      intro k hk h
      simp only [Landing.key, Landing.mk.injEq] at hk
      obtain ⟨-, -, h1, h2, h3, -, h4⟩ := hk
      rwa [← h1, ← h2, ← h3, ← h4]
    rcases List.mem_append.1 hp with hp | hp
    · obtain ⟨k, hk, he⟩ := List.mem_map.1 hp
      refine .inr (hkey k he ?_)
      rcases List.mem_append.1 hk with hk | hk
      · unfold Ctx.deadLandings at hk
        simp only at hk
        split at hk
        · cases hk
        · obtain ⟨j, -, rfl⟩ := List.mem_map.1 hk
          exact ⟨rfl, rfl, rfl, hv _ rfl⟩
      · exact hl k hk
    · obtain ⟨k, hk, he⟩ := List.mem_map.1 hp
      have hraw : ((s.begin sh f).2.core (s.begin sh f).1.core) = (s.begin sh f).1.raw := State.begin_state_core ..
      rw [hraw] at hk
      exact .inl ⟨k, hk, he⟩

theorem State.goesTo_of {s t : State} {x : Ctx} {sh : Shape} {f : Fields} {l : Nat} {pc : DWord} {n : Nat} (hx : x = (s.begin sh f).1)
    (h : t.threadAt x.core x.slot l = ((s.begin sh f).2.threadAt x.core x.slot l).map fun t => t.advance pc n) : t.goesTo x l pc n := by
  subst hx
  intro u hu
  have h0 : (s.begin sh f).2.threadAt (s.begin sh f).1.core (s.begin sh f).1.slot l = some u := by
    rw [State.begin_threadAt]; exact (if_pos (show (s.begin sh f).1.core = s.cur.core from rfl)).trans hu
  rw [h, h0]; rfl


theorem filterMap_map_nodup {α β : Type} {g : α → Option β} {p : α → Nat} {q : β → Nat} (hg : ∀ a b, g a = some b → q b = p a) {ls : List α}
    (h : (ls.map p).Nodup) : ((ls.filterMap g).map q).Nodup := by
  induction ls with
  | nil => exact List.nodup_nil
  | cons a r ih =>
    rw [List.map_cons, List.nodup_cons] at h
    rw [List.filterMap_cons]
    cases ha : g a with
    | none => exact ih h.2
    | some t =>
      simp only [List.map_cons, List.nodup_cons]
      refine ⟨fun hm => ?_, ih h.2⟩
      obtain ⟨b, hb, he⟩ := List.mem_map.1 hm
      obtain ⟨c, hc, hcb⟩ := List.mem_filterMap.1 hb
      rw [hg _ _ ha, hg _ _ hcb] at he
      exact h.1 (List.mem_map.2 ⟨c, hc, he⟩)

/-- The traps, targets and completing lanes of a transfer. -/
theorem Ctx.jump_parts (x : Ctx) (target : Nat → Option DWord) (b : Nat) :
    let lv := x.levelTraps
    let outs := (x.without lv).map fun l => (l, target l)
    let ts := lv ++ oddTraps outs
    let done := outs.filter fun o => !(ts.any fun t => t.lane == o.1)
    let gos := done.filterMap fun (l, t) => t.map fun a => (⟨l, a, b⟩ : Go)
    (∀ t ∈ ts, t.lane ∈ x.lanes) ∧ (∀ g ∈ gos, g.lane ∈ x.lanes) ∧ 
    (∀ t ∈ ts, t.lane ∈ x.actives) ∧ (∀ g ∈ gos, g.lane ∈ x.actives) ∧ 
    (∀ l, x.completes target l → l ∈ done.map (·.1)) ∧
    (∀ l ∈ x.actives, ∀ c code, x.levelFault l (readFields x.sh x.f) = some (c, code) → ⟨l, c, BitVec.ofNat 64 code, none⟩ ∈ ts) ∧
    (∀ l ∈ x.actives, x.levelFault l (readFields x.sh x.f) = none → ∀ a, target l = some a → a.getLsbD 0 = true → ⟨l, 5, a, none⟩ ∈ ts) ∧
    (∀ l ∈ x.actives, x.levelFault l (readFields x.sh x.f) = none → ∀ a, target l = some a → a.getLsbD 0 = false → ⟨l, a, b⟩ ∈ gos) ∧
    (∀ l ∈ x.actives, x.levelFault l (readFields x.sh x.f) = none → (∀ a, target l = some a → a.getLsbD 0 = false) → ∀ t ∈ ts, t.lane ≠ l) ∧
    (∀ g ∈ gos, ∀ t ∈ ts, t.lane ≠ g.lane) ∧
    (∀ g ∈ gos, target g.lane = some g.pc) ∧
    (x.lanes.Nodup → (ts.map (·.lane)).Nodup ∧ (gos.map (·.lane)).Nodup) := by
  intro lv outs ts done gos
  have hlv : ∀ t, t ∈ lv ↔ ∃ l ∈ x.actives, ∃ c code, x.levelFault l (readFields x.sh x.f) = some (c, code) ∧ t = ⟨l, c, BitVec.ofNat 64 code, none⟩ := by
    intro t
    simp only [lv, Ctx.levelTraps, List.mem_filterMap, Option.map_eq_some_iff, Prod.exists, LaneTrap.at_]
    constructor
    · rintro ⟨l, hl, c, code, h, rfl⟩; exact ⟨l, hl, c, code, h, rfl⟩
    · rintro ⟨l, hl, c, code, h, rfl⟩; exact ⟨l, hl, c, code, h, rfl⟩
  have hwo : ∀ l, l ∈ x.without lv ↔ l ∈ x.actives ∧ x.levelFault l (readFields x.sh x.f) = none := by
    intro l
    unfold Ctx.without
    rw [List.mem_filter]
    refine and_congr_right fun hl => ?_
    simp only [Bool.not_eq_true', List.any_eq_false, beq_iff_eq]
    constructor
    · intro h
      cases hf : x.levelFault l (readFields x.sh x.f) with
      | none => rfl
      | some p => exact absurd rfl (h _ ((hlv _).2 ⟨l, hl, p.1, p.2, hf, rfl⟩))
    · intro h t ht e
      obtain ⟨k, -, c, code, hk, rfl⟩ := (hlv t).1 ht
      subst e
      rw [h] at hk; cases hk
  have hodd : ∀ t, t ∈ oddTraps outs ↔ ∃ l ∈ x.actives, x.levelFault l (readFields x.sh x.f) = none ∧ ∃ a, target l = some a ∧ a.getLsbD 0 = true ∧ t = ⟨l, 5, a, none⟩ := by
    intro t
    simp only [oddTraps, outs, List.mem_filterMap, List.mem_map, Prod.exists, LaneTrap.at_, causeMisalign]
    constructor
    · rintro ⟨l, o, ⟨k, hk, he⟩, h⟩
      obtain ⟨rfl, rfl⟩ := Prod.mk.inj he
      rw [Option.bind_eq_some_iff] at h
      obtain ⟨a, ha, h⟩ := h
      have := (hwo k).1 hk
      refine ⟨k, this.1, this.2, a, ha, ?_⟩
      split at h
      · rename_i h1; exact ⟨h1, (Option.some.inj h).symm⟩
      · cases h
    · rintro ⟨l, hl, hf, a, ha, h0, rfl⟩
      refine ⟨l, target l, ⟨l, (hwo l).2 ⟨hl, hf⟩, rfl⟩, ?_⟩
      rw [ha]; simp [h0]
  have hts : ∀ t ∈ ts, t ∈ lv ∨ t ∈ oddTraps outs := fun t h => List.mem_append.1 h
  have hact : ∀ l ∈ x.actives, l ∈ x.lanes := fun l h => (List.mem_filter.1 h).1
  have htsl : ∀ t ∈ ts, t.lane ∈ x.actives := by
    intro t h
    rcases hts t h with h | h
    · obtain ⟨l, hl, c, code, -, rfl⟩ := (hlv t).1 h; exact hl
    · obtain ⟨l, hl, -, a, -, -, rfl⟩ := (hodd t).1 h; exact hl
  have hok : ∀ l ∈ x.actives, x.levelFault l (readFields x.sh x.f) = none → (∀ a, target l = some a → a.getLsbD 0 = false) → ∀ t ∈ ts, t.lane ≠ l := by
    intro l hl hf ho t ht e
    rcases hts t ht with h | h
    · obtain ⟨k, -, c, code, hk, rfl⟩ := (hlv t).1 h
      subst e
      rw [hf] at hk; cases hk
    · obtain ⟨k, -, -, a, ha, h0, rfl⟩ := (hodd t).1 h
      subst e
      rw [ho a ha] at h0; cases h0
  have hdone : ∀ o, o ∈ done ↔ o ∈ outs ∧ ∀ t ∈ ts, t.lane ≠ o.1 := by
    intro o
    simp only [done, List.mem_filter, Bool.not_eq_true', List.any_eq_false, beq_iff_eq]
  have hmdone : ∀ l, x.completes target l → (l, target l) ∈ done := by
    rintro l ⟨h1, h2, h3⟩
    exact (hdone _).2 ⟨List.mem_map.2 ⟨l, (hwo l).2 ⟨h1, h2⟩, rfl⟩, hok l h1 h2 h3⟩
  have hgos : ∀ g ∈ gos, (g.lane, some g.pc) ∈ done ∧ target g.lane = some g.pc ∧ g.lane ∈ x.actives := by
    intro g hg
    obtain ⟨⟨l, o⟩, ho, hg⟩ := List.mem_filterMap.1 hg
    obtain ⟨a, rfl, rfl⟩ := Option.map_eq_some_iff.1 hg
    refine ⟨ho, ?_⟩
    obtain ⟨k, hk, he⟩ := List.mem_map.1 ((hdone _).1 ho).1
    obtain ⟨rfl, h⟩ := Prod.mk.inj he
    exact ⟨h, ((hwo k).1 hk).1⟩
  refine ⟨fun t h => hact _ (htsl t h), fun g h => hact _ (hgos g h).2.2, htsl, fun g h => (hgos g h).2.2, 
    fun l h => List.mem_map.2 ⟨_, hmdone l h, rfl⟩, fun l hl c code h => List.mem_append_left _ ((hlv _).2 ⟨l, hl, c, code, h, rfl⟩), 
    fun l hl hf a ha h0 => List.mem_append_right _ ((hodd _).2 ⟨l, hl, hf, a, ha, h0, rfl⟩), ?_, hok, ?_, fun g hg => (hgos g hg).2.1, fun hn => ⟨?_, ?_⟩⟩
  · intro l hl hf a ha h0
    refine List.mem_filterMap.2 ⟨_, hmdone l ⟨hl, hf, ?_⟩, by rw [ha]; rfl⟩
    intro a' ha'; rw [ha] at ha'; injection ha' with h; rw [← h]; exact h0
  · intro g hg t ht
    exact ((hdone _).1 (hgos g hg).1).2 t ht
  · have hna : x.actives.Nodup := hn.filter _
    rw [List.map_append, List.nodup_append]
    refine ⟨filterMap_lane_nodup (fun l t h => ?_) hna, ?_, ?_⟩
    · obtain ⟨p, -, rfl⟩ := Option.map_eq_some_iff.1 h
      rfl
    · refine filterMap_map_nodup (p := Prod.fst) (fun o t h => ?_) ?_
      · obtain ⟨a, -, h⟩ := Option.bind_eq_some_iff.1 h
        split at h
        · rw [← Option.some.inj h]; rfl
        · cases h
      · simp only [outs, List.map_map]
        change (List.map (fun l => l) (x.without lv)).Nodup
        rw [List.map_id']
        exact hna.filter _
    · intro a ha c hc e
      obtain ⟨t, ht, rfl⟩ := List.mem_map.1 ha
      obtain ⟨t', ht', rfl⟩ := List.mem_map.1 hc
      obtain ⟨k, -, c, code, hk, rfl⟩ := (hlv t).1 ht
      obtain ⟨k', -, hf, a, ha', h0, rfl⟩ := (hodd t').1 ht'
      simp only at e
      subst e
      rw [hf] at hk; cases hk
  · have hna : x.actives.Nodup := hn.filter _
    refine filterMap_map_nodup (p := Prod.fst) (fun o g h => ?_) ?_
    · obtain ⟨a, -, rfl⟩ := Option.map_eq_some_iff.1 h; rfl
    · have : ((x.without lv).map fun l => (l, target l)).map Prod.fst = x.without lv := by
        rw [List.map_map]; change List.map (fun l => l) _ = _; rw [List.map_id']
      refine List.Nodup.sublist (List.Sublist.map _ List.filter_sublist) ?_
      change (List.map Prod.fst ((x.without lv).map fun l => (l, target l))).Nodup
      rw [this]
      exact hna.filter _

/-- The mould of the transfers. -/
theorem State.jump_spec (s : State) (sh : Shape) (f : Fields) (b : Nat) (target : Ctx → Nat → Option DWord)
    (ls : Ctx → List Nat → List Landing)
    (hl : ∀ x lanes, x.sh = sh → x.f = f → ∀ l ∈ ls x lanes, l.slot = x.slot ∧ l.eff = x.e ∧ l.tag = x.tag ∧ x.linkWrite l.op) :
    let x := (s.begin sh f).1
    let t := s.jump sh f b target ls
    (s.keepsOthers t x x.linkWrite ∧ s.transfers t x b (target x) ∧ 
     ∃ done : List Nat, (∀ l, x.completes (target x) l → l ∈ done) ∧ ∀ k ∈ ls x done, k.key ∈ (t.core x.core).flight) := by
  have H := Ctx.jump_parts (s.begin sh f).1 (target (s.begin sh f).1) b
  intro x t
  have ht : t = (s.begin sh f).2.finishTo x (x.levelTraps ++ oddTraps ((x.without x.levelTraps).map fun l => (l, target x l)))
     (((((x.without x.levelTraps).map fun l => (l, target x l)).filter fun o => !((x.levelTraps ++ oddTraps ((x.without x.levelTraps).map fun l => (l, target x l))).any fun t => t.lane == o.1))).filterMap fun (l, t) => t.map fun a => (⟨l, a, b⟩ : Go))
     (ls x ((((x.without x.levelTraps).map fun l => (l, target x l)).filter fun o => !((x.levelTraps ++ oddTraps ((x.without x.levelTraps).map fun l => (l, target x l))).any fun t => t.lane == o.1)).map (·.1))) := rfl
  clear_value t
  subst ht
  revert H
  change (let lv := x.levelTraps; _) → _
  intro H
  simp only at H
  generalize (x.levelTraps ++ oddTraps ((x.without x.levelTraps).map fun l => (l, target x l))) = ts at *
  generalize (((x.without x.levelTraps).map fun l => (l, target x l)).filter fun o => !(ts.any fun t => t.lane == o.1)) = done at *
  generalize (done.filterMap fun (l, t) => t.map fun a => (⟨l, a, b⟩ : Go)) = gos at *
  obtain ⟨h1, h2, h3, h4, h5, h6, h7, h8, h9, h10, h11, h12⟩ := H
  refine ⟨State.finishTo_keepsOthers ts gos _ h1 h2 (fun regs h => h) (hl x _ rfl rfl), ?_, _, h5, fun k hk => ?_⟩
  · intro hn l hlm
    obtain ⟨hn1, hn2⟩ := h12 hn
    have pass : l ∉ gos.map (·.lane) → (∀ t ∈ ts, t.lane ≠ l) → ((s.begin sh f).2.finishTo x ts gos (ls x (done.map (·.1)))).passes x l := by
      intro hg ht
      refine State.goesTo_of (s := s) (sh := sh) (f := f) rfl ?_
      rw [State.threadAt_finishTo _ _ _ _ _ hn2 fun _ _ => ht, if_pos ⟨rfl, rfl⟩]
      have : gos.find? (fun g => g.lane == l) = none := by
        rw [List.find?_eq_none]; intro g hgm h; exact hg (List.mem_map.2 ⟨g, hgm, by simpa using h⟩)
      rw [this]
      simp only
      rw [if_pos hlm]
    cases ha : x.active l with
    | false =>
      simp only [if_true]
      have hna : l ∉ x.actives := fun h => by have := (List.mem_filter.1 h).2; rw [ha] at this; cases this
      refine pass ?_ ?_
      · intro h; obtain ⟨g, hg, rfl⟩ := List.mem_map.1 h; exact hna (h4 g hg)
      · intro t ht e; exact hna (e ▸ h3 t ht)
    | true =>
      simp only [Bool.true_eq_false, if_false]
      have hla : l ∈ x.actives := List.mem_filter.2 ⟨hlm, ha⟩
      cases hf : x.levelFault l (readFields x.sh x.f) with
      | some p =>
        obtain ⟨c, code⟩ := p
        exact State.raises_finishTo ts gos _ (h6 l hla c code hf) hn1 hn2 fun g hg => (h10 g hg _ (h6 l hla c code hf)).symm
      | none =>
        simp only
        cases ht : target x l with
        | none =>
          refine pass ?_ (h9 l hla hf (by rw [ht]; intro a h; cases h))
          intro h; obtain ⟨g, hg, rfl⟩ := List.mem_map.1 h
          have := h11 g hg; rw [ht] at this; cases this
        | some a =>
          simp only
          cases h0 : a.getLsbD 0 with
          | true =>
            exact State.raises_finishTo ts gos _ (h7 l hla hf a ht h0) hn1 hn2 fun g hg => (h10 g hg _ (h7 l hla hf a ht h0)).symm
          | false =>
            have hg := h8 l hla hf a ht h0
            refine State.goesTo_of (s := s) (sh := sh) (f := f) rfl ?_
            rw [State.threadAt_finishTo _ _ _ _ _ hn2 fun _ _ => h9 l hla hf (by intro a' h; rw [ht] at h; injection h with h; rw [← h]; exact h0), if_pos ⟨rfl, rfl⟩]
            have : ∃ g, gos.find? (fun g => g.lane == l) = some g ∧ g.pc = a ∧ g.b = b := by
              cases hfi : gos.find? (fun g => g.lane == l) with
              | none => rw [List.find?_eq_none] at hfi; exact absurd (by simp) (hfi _ hg)
              | some g =>
                have h1 := List.find?_some hfi
                have h2 := List.mem_of_find?_eq_some hfi
                have hgl : g.lane = l := by simpa using h1
                have : g = ⟨l, a, b⟩ := by
                  have := List.inj_on_of_nodup_map hn2 h2 hg hgl
                  exact this
                exact ⟨g, rfl, by rw [this], by rw [this]⟩
            obtain ⟨g, hfi, rfl, rfl⟩ := this
            rw [hfi]
  · rw [(State.finishTo_flight ..).mem_iff]
    exact List.mem_append_left _ (List.mem_map_of_mem (List.mem_append_right _ hk))

theorem Tab.mem_of_find {α : Type} {t : Tab α} {k : Nat} {v : α} (h : t.find k = some v) : (k, v) ∈ t := by
  induction t with
  | nil => cases h
  | cons a r ih =>
    obtain ⟨j, w⟩ := a
    unfold Tab.find at h
    split at h
    · rename_i hj; rw [← Option.some.inj h, hj]; exact List.mem_cons_self
    · split at h
      · cases h
      · exact List.mem_cons_of_mem _ (ih h)

theorem State.finish_pass {s : State} {sh : Shape} {f : Fields} {ts : List LaneTrap} {ls : List Landing} {l : Nat}
    (hl : l ∈ (s.begin sh f).1.lanes) (h : ∀ t ∈ ts, t.lane ≠ l) :
    ((s.begin sh f).2.finish (s.begin sh f).1 ts ls).passes (s.begin sh f).1 l := by
  refine State.goesTo_of (s := s) (sh := sh) (f := f) rfl ?_
  have h0 := State.threadAt_finishTo (s.begin sh f).2 (s.begin sh f).1 ts [] ls (d := (s.begin sh f).1.core) (j := (s.begin sh f).1.slot) (m := l) List.nodup_nil (fun _ _ => h)
  rw [if_pos ⟨rfl, rfl⟩] at h0
  simp only [List.find?_nil, if_pos hl] at h0
  exact h0

theorem State.finish_keepsOthers {s : State} {sh : Shape} {f : Fields} (ts : List LaneTrap)
    (ht : ∀ t ∈ ts, t.lane ∈ (s.begin sh f).1.lanes) :
    s.keepsOthers ((s.begin sh f).2.finish (s.begin sh f).1 ts []) (s.begin sh f).1 (s.begin sh f).1.linkWrite :=
  State.finishTo_keepsOthers ts [] [] ht (fun _ h => by cases h) (fun _ h => h) (fun _ h => by cases h)

theorem State.finish_raises {s : State} {sh : Shape} {f : Fields} {ts : List LaneTrap} {ls : List Landing} {t : LaneTrap} (ht : t ∈ ts) (hn : (ts.map (·.lane)).Nodup) :
    s.raises ((s.begin sh f).2.finish (s.begin sh f).1 ts ls) (s.begin sh f).1 t.lane t.cause t.addr (t.pc.getD (s.begin sh f).1.pc) :=
  State.raises_finishTo ts [] ls ht hn List.nodup_nil (fun _ h => by cases h)

theorem State.raiseAll_spec (s : State) (sh : Shape) (f : Fields) (cause : Nat) (code : BitVec 18) (after : Bool) :
    let x := (s.begin sh f).1
    let t := s.raiseAll sh f cause code after
    s.keepsOthers t x x.linkWrite ∧ (x.lanes.Nodup → ∀ l ∈ x.lanes, if x.active l then 
      s.raises t x l cause (code.setWidth 64) (if after then x.nextPc else x.pc) else t.passes x l) := by
  intro x t
  have ha : ∀ l ∈ x.actives, l ∈ x.lanes := fun l h => (List.mem_filter.1 h).1
  refine ⟨State.finish_keepsOthers _ ?_, fun hn l hl => ?_⟩
  · intro t h
    obtain ⟨l, hl, rfl⟩ := List.mem_map.1 h
    exact ha l hl
  · split
    · rename_i h
      have h0 : l ∈ x.actives := List.mem_filter.2 ⟨hl, h⟩
      have h1 := State.finish_raises (s := s) (sh := sh) (f := f) (ls := []) (ts := x.actives.map fun l =>
        (⟨l, cause, code.setWidth 64, if after then some x.nextPc else none⟩ : LaneTrap)) (List.mem_map.2 ⟨l, h0, rfl⟩) (by
          rw [List.map_map]; change (List.map (fun l => l) x.actives).Nodup; rw [List.map_id']; exact hn.filter _)
      cases after <;> exact h1
    · rename_i h
      refine State.finish_pass hl ?_
      intro t ht e
      obtain ⟨k, hk, rfl⟩ := List.mem_map.1 ht
      simp only at e
      subst e
      exact h (List.mem_filter.1 hk).2

/-- What a landing leaves alone of a thread. -/
def Thread.fixed (t : Thread) : Thread := { t with v := [], p := 0, ptags := [], lv := Level.empty 0, shadow := Level.empty 0 }

theorem Thread.fixed_modLevel (t : Thread) (c : Nat) (f : Level → Level) : (t.modLevel c f).fixed = t.fixed := by
  unfold Thread.modLevel; split
  · rfl
  · split <;> rfl

theorem Thread.fixed_land (t : Thread) (tag : Nat) (op : MicroOp) : (t.land tag op).fixed = t.fixed := by
  cases op <;> unfold Thread.land <;> simp only [Thread.fixed_modLevel]
  · unfold Thread.landV; split <;> rfl
  · unfold Thread.landP; rfl
  · rfl
  · rfl

theorem Core.threadAt_modGroup (c : Core) (k : Nat) (f : Group → Group) (hf : ∀ g, (f g).threads = g.threads) (j m : Nat) :
    (c.modGroup k f).threadAt j m = c.threadAt j m := by
  unfold Core.threadAt
  by_cases h : j = k
  · subst h; rw [Core.find_modGroup_same]; cases c.groups.find j <;> simp [hf]
  · rw [Core.find_modGroup_other _ _ h]

theorem Core.fixed_land (c : Core) (l : Landing) (j m : Nat) : ((c.land l).threadAt j m).map Thread.fixed = (c.threadAt j m).map Thread.fixed := by
  have ht : ∀ op, ((c.modThread l.slot l.lane fun t => t.land l.tag op).threadAt j m).map Thread.fixed = (c.threadAt j m).map Thread.fixed := by
    intro op
    rw [Core.threadAt_modThread]
    split
    · rw [Option.map_map]; congr 1; funext t; exact Thread.fixed_land ..
    · rfl
  unfold Core.land
  split
  · rw [Core.threadAt_modGroup]
    intro g; unfold Group.landG; split <;> rfl
  · exact ht _
  · rw [Core.threadAt_modGroup]
    intro g; unfold Group.leave; split <;> rfl
  · split <;> exact ht _
  · exact ht _

theorem fixed_settleAll (n : Nat) (ls : List Landing) (c : Core) (j m : Nat) : ((settleAll n ls c).threadAt j m).map Thread.fixed = (c.threadAt j m).map Thread.fixed := by
  induction ls generalizing c with
  | nil => rfl
  | cons a t ih =>
    unfold settleAll
    split
    · rw [ih, Core.fixed_land]
    · rfl

theorem Core.fixed_settle (c : Core) (n : Nat) (j m : Nat) : ((c.settle n).threadAt j m).map Thread.fixed = (c.threadAt j m).map Thread.fixed := fixed_settleAll ..

theorem Core.thread_eq {c : Core} {k l : Nat} {u : Thread} (h : c.threadAt k l = some u) : c.thread k l = u := by
  unfold Core.threadAt at h
  unfold Core.thread Core.group Group.thread Tab.get
  cases hg : c.groups.find k with
  | none => rw [hg] at h; cases h
  | some g =>
    rw [hg] at h
    simp only [Option.bind_some] at h
    simp [h]

theorem State.modLanes_keepsOthers {s t : State} {x : Ctx} {allowed : MicroOp → Prop} (h : s.keepsOthers t x allowed) (ls : List Nat) (f : Thread → Thread)
    (hf : ∀ t, f (f t) = f t) (hl : ∀ l ∈ ls, l ∈ x.lanes) :
    s.keepsOthers (t.modGroup x.core x.slot fun g => ls.foldl (fun g l => g.modThread l f) g) x allowed := by
  obtain ⟨h1, h2, h3, h4, h5, h6⟩ := h
  refine ⟨by rw [State.rest_modGroup, h1], ?_, ?_, ?_, ?_, ?_⟩
  · intro d hd; rw [State.core_modGroup, if_neg hd, h2 d hd]
  · rw [State.core_rest_modGroup, h3]
  · intro j
    rw [← h4 j]
    exact State.groupRest_modGroup _ _ _ _ (fun g => foldl_keeps Group.rest _ (fun g l => Group.rest_modThread g ..) _ _) _ _
  · intro d j m hm
    rw [State.threadAt_modLanes _ _ _ _ f hf, if_neg, h5 d j m hm]
    rintro ⟨a, b, c⟩; exact hm ⟨a, b, hl m c⟩
  · rw [State.landings_modGroup]; exact h6

theorem State.raises_mono {s t t' : State} {x : Ctx} {l c : Nat} {a p : DWord} (h : s.raises t x l c a p)
    (h1 : t'.threadAt x.core x.slot l = t.threadAt x.core x.slot l) (h2 : ∀ p ∈ t.agenda, p ∈ t'.agenda) : s.raises t' x l c a p := by
  intro u hu
  obtain ⟨h3, h4⟩ := h u hu
  refine ⟨fun p hp hh => ?_, fun hh => ?_⟩
  · rw [h1]; exact h3 p hp hh
  · rw [h1]; exact ⟨(h4 hh).1, h2 _ (h4 hh).2⟩

theorem State.trapReturn_spec (s : State) (sh : Shape) (f : Fields) :
    let x := (s.begin sh f).1
    let t := s.trapReturn sh f
    s.keepsOthers t x x.linkWrite ∧
      (x.lanes.Nodup → ∀ l ∈ x.lanes, if x.active l then 
      if (x.thread l).handler = false then s.raises t x l 1 x.pc x.pc
      else if (x.thread l).trappc.getLsbD 0 then s.raises t x l 5 (x.thread l).trappc x.pc
      else ∀ u, x.raw.threadAt x.slot l = some u → t.threadAt x.core x.slot l =
        some { u with lv := u.shadow, handler := false, pc := u.trappc, next := x.nextIssue + 4 }
       else t.passes x l) := by
  intro x t
  have ha : ∀ l ∈ x.actives, l ∈ x.lanes := fun l h => (List.mem_filter.1 h).1
  have hlane : ∀ l t, x.tretTrap l = some t → t.lane = l := by
    intro l t h
    unfold Ctx.tretTrap at h
    simp only at h
    split at h
    · rw [← Option.some.inj h]; rfl
    · split at h
      · rw [← Option.some.inj h]; rfl
      · cases h
  have hts : ∀ t ∈ x.actives.filterMap x.tretTrap, t.lane ∈ x.actives ∧ x.tretTrap t.lane = some t := by
    intro t h
    obtain ⟨l, hl, h⟩ := List.mem_filterMap.1 h
    have := hlane l t h
    subst this
    exact ⟨hl, h⟩
  have hk := State.finish_keepsOthers (s := s) (sh := sh) (f := f) (x.actives.filterMap x.tretTrap) (fun t h => ha _ (hts t h).1)
  have ht : t = ((s.begin sh f).2.finish x (x.actives.filterMap x.tretTrap) []).modGroup x.core x.slot fun g =>
     (x.without (x.actives.filterMap x.tretTrap)).foldl (fun g l => g.modThread l fun t => t.leave (x.nextIssue + 4)) g := rfl
  have hw : ∀ l, l ∈ x.without (x.actives.filterMap x.tretTrap) ↔ l ∈ x.actives ∧ x.tretTrap l = none := by
    intro l
    unfold Ctx.without
    rw [List.mem_filter]
    refine and_congr_right fun hl => ?_
    simp only [Bool.not_eq_true', List.any_eq_false, beq_iff_eq]
    constructor
    · intro h
      cases hf : x.tretTrap l with
      | none => rfl
      | some p => exact absurd (hlane l p hf) (h p (List.mem_filterMap.2 ⟨l, hl, hf⟩))
    · intro h t ht e
      have := (hts t ht).2
      rw [e, h] at this; cases this
  have hag : ((s.begin sh f).2.finish x (x.actives.filterMap x.tretTrap) []).agenda = t.agenda := by rw [ht]; rfl
  refine ⟨?_, fun hn l hl => ?_⟩
  · rw [ht]
    refine State.modLanes_keepsOthers hk _ _ (fun t => rfl) fun l h => ha l ((hw l).1 h).1
  · have hone : ∀ l, t.threadAt x.core x.slot l = if l ∈ x.without (x.actives.filterMap x.tretTrap) then
         (((s.begin sh f).2.finish x (x.actives.filterMap x.tretTrap) []).threadAt x.core x.slot l).map (fun t => t.leave (x.nextIssue + 4))
        else ((s.begin sh f).2.finish x (x.actives.filterMap x.tretTrap) []).threadAt x.core x.slot l := by
      intro l
      rw [ht, State.threadAt_modLanes _ _ _ _ (fun t => t.leave (x.nextIssue + 4)) (fun t => rfl)]
      simp
    have hra : ∀ tr : LaneTrap, tr.pc = none → l ∈ x.actives → x.tretTrap l = some tr → s.raises t x l tr.cause tr.addr x.pc := by
      intro tr hpc hla htr
      have h1 := State.finish_raises (s := s) (sh := sh) (f := f) (ls := []) (t := tr) (ts := x.actives.filterMap x.tretTrap) 
        (List.mem_filterMap.2 ⟨l, hla, htr⟩) (filterMap_lane_nodup hlane (hn.filter _))
      rw [hlane l tr htr, hpc] at h1
      refine State.raises_mono h1 ?_ (fun p hp => by rw [← hag]; exact hp)
      rw [hone, if_neg]
      intro h; rw [hw, htr] at h; cases h.2
    split
    · rename_i hact
      have hla : l ∈ x.actives := List.mem_filter.2 ⟨hl, hact⟩
      split
      · rename_i hh
        exact hra ⟨l, 1, x.pc, none⟩ rfl hla (by unfold Ctx.tretTrap; simp [hh, LaneTrap.at_, causeIllegalInsn])
      · rename_i hh
        split
        · rename_i h0
          exact hra ⟨l, 5, (x.thread l).trappc, none⟩ rfl hla (by unfold Ctx.tretTrap; simp [hh, h0, LaneTrap.at_, causeMisalign])
        · rename_i h0
          intro u hu
          have hno : x.tretTrap l = none := by unfold Ctx.tretTrap; simp only [Bool.not_eq_false] at hh; simp only [hh, Bool.not_true, Bool.false_eq_true, if_false, if_neg h0]
          rw [hone, if_pos ((hw l).2 ⟨hla, hno⟩)]
          have hp : ((s.begin sh f).2.finish x (x.actives.filterMap x.tretTrap) []).passes x l := State.finish_pass (s := s) hl (fun t ht e => by
            have := (hts t ht).2; rw [e, hno] at this; cases this)
          rw [hp u hu]
          rfl
    · rename_i hact
      have hp : ((s.begin sh f).2.finish x (x.actives.filterMap x.tretTrap) []).passes x l := State.finish_pass (s := s) hl (fun t ht e => by
        have := (hts t ht).1; rw [e] at this; exact hact (List.mem_filter.1 this).2)
      intro u hu
      rw [hone, if_neg, hp u hu]
      intro h; exact hact (List.mem_filter.1 ((hw l).1 h).1).2

theorem State.mem_agenda_freePlace (s : State) (x : Ctx) : ∃ d, d ≤ max (x.e + 1) s.now ∧ ∃ dom, (d, Event.activeSetEntry x.core dom) ∈ (s.freePlace x).agenda :=
  ⟨_, le_rfl, _, State.mem_agenda_scheduleOnce_self ..⟩

end Sys2Proof.Machine
end

