-- ==== Sys2Proof/Laws/Calm.lean ====
section
/-! SUPPORT. What the operations of memory accesses leave alone: registers, writes in flight, team sides, and
the bytes that agents read. -/

namespace Sys2Proof.Machine

/-! ## Cores whose registers stay -/

/-- A core's registers, writes in flight and team side are the same. -/
structure Core.Calm (c d : Core) : Prop where
  landings : d.landings = c.landings
  side : d.side = c.side
  gregs : ∀ j, (d.groups.find j).map (·.g) = (c.groups.find j).map (·.g)
  regs : ∀ j m, (d.threadAt j m).map Thread.regs = (c.threadAt j m).map Thread.regs

theorem Core.Calm.refl (c : Core) : c.Calm c := ⟨rfl, rfl, fun _ => rfl, fun _ _ => rfl⟩

theorem Core.Calm.trans {c d e : Core} (h : c.Calm d) (k : d.Calm e) : c.Calm e :=
  ⟨k.landings.trans h.landings, k.side.trans h.side, fun j => (k.gregs j).trans (h.gregs j),
    fun j m => (k.regs j m).trans (h.regs j m)⟩

/-- A change outside groups, writes in flight and side. -/
theorem Core.Calm.of_fields {c d : Core} (h1 : d.landings = c.landings) (h2 : d.side = c.side)
    (h3 : d.groups = c.groups) : c.Calm d :=
  ⟨h1, h2, fun j => by rw [h3], fun j m => by unfold Core.threadAt; rw [h3]⟩

theorem Core.Calm.modThread (c : Core) (k l : Nat) (f : Thread → Thread) (hf : ∀ t, (f t).regs = t.regs) :
    c.Calm (c.modThread k l f) := by
  refine ⟨?_, ?_, fun j => ?_, fun j m => ?_⟩
  · unfold Core.modThread Core.modGroup; split <;> rfl
  · unfold Core.modThread Core.modGroup; split <;> rfl
  · unfold Core.modThread
    by_cases h : j = k
    · subst h
      rw [Core.find_modGroup_same]
      cases c.groups.find j with
      | none => rfl
      | some g =>
        simp only [Option.map_some, Option.some.injEq]
        unfold Group.modThread; split <;> rfl
    · rw [Core.find_modGroup_other _ _ h]
  · rw [Core.threadAt_modThread]
    split
    · rw [Option.map_map]
      congr 1
      funext t
      exact hf t
    · rfl

/-! ## States whose registers stay -/

/-- Registers, writes in flight, sides, launches, moves of frames and the time are the same. -/
structure State.Calm (s t : State) : Prop where
  cores : ∀ d, (s.core d).Calm (t.core d)
  now : t.now = s.now
  launches : t.launches = s.launches
  forwards : ∀ h, (t.hub h).forwards = (s.hub h).forwards

theorem State.Calm.refl (s : State) : s.Calm s := ⟨fun _ => .refl _, rfl, rfl, fun _ => rfl⟩

theorem State.Calm.trans {s t u : State} (h : s.Calm t) (k : t.Calm u) : s.Calm u :=
  ⟨fun d => (h.cores d).trans (k.cores d), k.now.trans h.now, k.launches.trans h.launches,
    fun x => (k.forwards x).trans (h.forwards x)⟩

/-- Transitivity, the later change first. -/
theorem State.Calm.after {s t u : State} (k : t.Calm u) (h : s.Calm t) : s.Calm u := h.trans k

theorem State.Calm.keepsRegs {s t : State} (h : s.Calm t) : s.keepsRegs t :=
  fun d => ⟨(h.cores d).landings, fun j => ⟨(h.cores d).gregs j, fun m => (h.cores d).regs j m⟩⟩

theorem State.Calm.of_fields {s t : State} (h1 : t.cores = s.cores) (h2 : t.now = s.now)
    (h3 : t.launches = s.launches) (h4 : t.hubs = s.hubs) : s.Calm t :=
  ⟨fun d => by rw [State.core_of_cores h1]; exact .refl _, h2, h3, fun h => by unfold State.hub; rw [h4]⟩

theorem State.Calm.modCore (s : State) (c : Nat) (f : Core → Core) (hf : (s.core c).Calm (f (s.core c))) :
    s.Calm (s.modCore c f) := by
  refine ⟨fun d => ?_, rfl, rfl, fun _ => rfl⟩
  by_cases h : d = c
  · subst h; rw [State.core_modCore_same]; exact hf
  · rw [State.core_modCore_other _ _ h]; exact .refl _

theorem State.Calm.setCore (s : State) (c : Nat) (x : Core) (hx : (s.core c).Calm x) : s.Calm (s.setCore c x) :=
  State.Calm.modCore s c (fun _ => x) hx

theorem State.Calm.modThread (s : State) (c k l : Nat) (f : Thread → Thread) (hf : ∀ t, (f t).regs = t.regs) :
    s.Calm (s.modThread c k l f) :=
  State.Calm.modCore s c _ (Core.Calm.modThread _ k l f hf)

theorem State.Calm.schedule (s : State) (d : Nat) (e : Event) : s.Calm (s.schedule d e) := .of_fields rfl rfl rfl rfl

theorem State.Calm.scheduleOnce (s : State) (d : Nat) (e : Event) : s.Calm (s.scheduleOnce d e) := by
  unfold State.scheduleOnce; split
  · exact .refl _
  · exact .schedule ..

theorem State.Calm.foldl {α : Type} (f : State → α → State) (hf : ∀ (s : State) a, s.Calm (f s a)) (ls : List α) (s : State) :
    s.Calm (ls.foldl f s) :=
  foldl_holds (fun t => s.Calm t) f (fun t a h => h.trans (hf t a)) ls (.refl s)

theorem State.Calm.sideD {s t : State} (h : s.Calm t) (c : Nat) : (t.core c).sideD = (s.core c).sideD := by
  unfold Core.sideD; rw [(h.cores c).side]

theorem State.Calm.launch {s t : State} (h : s.Calm t) (l : Nat) : t.launch l = s.launch l := by
  unfold State.launch; rw [h.launches]

theorem State.Calm.corePart {s t : State} (h : s.Calm t) (c : Nat) : t.corePart c = s.corePart c := by
  unfold State.corePart State.coreLaunch; rw [h.sideD, h.launch]

theorem State.Calm.covers {s t : State} (h : s.Calm t) (sc a c : Nat) : t.covers sc a c = s.covers sc a c := by
  unfold State.covers; simp only [h.corePart]

theorem State.Calm.pubCovers {s t : State} (h : s.Calm t) (w : Staged) (sc a c : Nat) :
    t.pubCovers w sc a c = s.pubCovers w sc a c := by
  unfold State.pubCovers; simp only [h.corePart, h.launch, h.covers]

theorem State.Calm.sees {s t : State} (h : s.Calm t) (v : Viewer) (w : Staged) : t.sees v w = s.sees v w := by
  unfold State.sees
  cases v with
  | core c => simp only [h.sideD, (h.cores c).side, h.pubCovers]
  | part p => simp only [h.launch]
  | merged => rfl

theorem State.Calm.forwardOf {s t : State} (h : s.Calm t) (f : Nat) : t.forwardOf f = s.forwardOf f := by
  unfold State.forwardOf; simp only [h.forwards]

theorem State.Calm.routeRead {s t : State} (h : s.Calm t) (pa : Nat) : t.routeRead pa = s.routeRead pa := by
  unfold State.routeRead; rw [h.forwardOf]

theorem State.Calm.routeWrite {s t : State} (h : s.Calm t) (pa : Nat) : t.routeWrite pa = s.routeWrite pa := by
  unfold State.routeWrite; rw [h.forwardOf]

/-! ## States whose bytes stay too -/

/-- A staged write without the mask of phases. -/
def Staged.bare (w : Staged) : Staged := { w with mask := [] }

/-- Nothing that an access reads changes but the caches. -/
structure State.Quiet (s t : State) : Prop extends s.Calm t where
  mem : t.mem = s.mem
  staged : t.staged.map Staged.bare = s.staged.map Staged.bare
  poison : t.poison = s.poison
  held : t.held = s.held
  parts : t.parts = s.parts
  owners : t.owners = s.owners
  handovers : t.handovers = s.handovers
  poolMember : t.poolMember = s.poolMember

theorem State.Quiet.refl (s : State) : s.Quiet s := ⟨.refl s, rfl, rfl, rfl, rfl, rfl, rfl, rfl, rfl⟩

theorem State.Quiet.trans {s t u : State} (h : s.Quiet t) (k : t.Quiet u) : s.Quiet u :=
  ⟨h.toCalm.trans k.toCalm, k.mem.trans h.mem, k.staged.trans h.staged, k.poison.trans h.poison, k.held.trans h.held,
    k.parts.trans h.parts, k.owners.trans h.owners, k.handovers.trans h.handovers, k.poolMember.trans h.poolMember⟩

/-- Transitivity, the later change first. -/
theorem State.Quiet.after {s t u : State} (k : t.Quiet u) (h : s.Quiet t) : s.Quiet u := h.trans k

theorem State.Quiet.modCore (s : State) (c : Nat) (f : Core → Core) (hf : (s.core c).Calm (f (s.core c))) :
    s.Quiet (s.modCore c f) := ⟨.modCore s c f hf, rfl, rfl, rfl, rfl, rfl, rfl, rfl, rfl⟩

theorem State.Quiet.setCore (s : State) (c : Nat) (x : Core) (hx : (s.core c).Calm x) : s.Quiet (s.setCore c x) :=
  State.Quiet.modCore s c (fun _ => x) hx

theorem State.Quiet.modThread (s : State) (c k l : Nat) (f : Thread → Thread) (hf : ∀ t, (f t).regs = t.regs) :
    s.Quiet (s.modThread c k l f) := State.Quiet.modCore s c _ (Core.Calm.modThread _ k l f hf)

theorem State.Quiet.schedule (s : State) (d : Nat) (e : Event) : s.Quiet (s.schedule d e) :=
  ⟨.schedule s d e, rfl, rfl, rfl, rfl, rfl, rfl, rfl, rfl⟩

theorem State.Quiet.scheduleOnce (s : State) (d : Nat) (e : Event) : s.Quiet (s.scheduleOnce d e) := by
  unfold State.scheduleOnce; split
  · exact .refl _
  · exact .schedule ..

theorem State.Quiet.tick (s : State) : s.Quiet s.tick :=
  ⟨.of_fields rfl rfl rfl rfl, rfl, rfl, rfl, rfl, rfl, rfl, rfl, rfl⟩

theorem State.Quiet.foldl {α : Type} (f : State → α → State) (hf : ∀ (s : State) a, s.Quiet (f s a)) (ls : List α) (s : State) :
    s.Quiet (ls.foldl f s) :=
  foldl_holds (fun t => s.Quiet t) f (fun t a h => h.trans (hf t a)) ls (.refl s)

theorem Staged.bare_byte (w : Staged) (a : Nat) : w.bare.byte a = w.byte a := rfl

theorem State.sees_bare (s : State) (v : Viewer) (w : Staged) : s.sees v w.bare = s.sees v w := by
  cases v <;> rfl

/-- The staged part of a byte's view depends on the writes without their masks. -/
theorem State.view_bare (s : State) (v : Viewer) (pa : Nat) (ws : List Staged) (b : Byte) :
    ws.foldl (fun b w => if s.sees v w then (w.byte pa).getD b else b) b =
      (ws.map Staged.bare).foldl (fun b w => if s.sees v w then (w.byte pa).getD b else b) b := by
  rw [List.foldl_map]; rfl

theorem State.Quiet.viewByte {s t : State} (h : s.Quiet t) (v : Viewer) (a : Nat) : t.viewByte v a = s.viewByte v a := by
  unfold State.viewByte
  simp only [h.routeRead, h.sees, h.mem]
  rw [State.view_bare, h.staged, ← State.view_bare]

theorem State.Quiet.sameBytes {s t : State} (h : s.Quiet t) : s.sameBytes t := fun v a _ => h.viewByte v a

theorem State.Quiet.view {s t : State} (h : s.Quiet t) (v : Viewer) (a n : Nat) : t.view v a n = s.view v a n := by
  unfold State.view; simp only [show t.viewByte v = s.viewByte v from funext fun a => h.viewByte v a]

theorem State.Quiet.memByte {s t : State} (h : s.Quiet t) (a : Nat) : t.memByte a = s.memByte a := by
  unfold State.memByte; rw [h.routeRead, h.mem]

theorem State.Quiet.poisoned {s t : State} (h : s.Quiet t) (a n : Nat) : t.poisoned a n = s.poisoned a n := by
  unfold State.poisoned; simp only [h.routeRead, h.poison]

theorem State.Quiet.flagsByte {s t : State} (h : s.Quiet t) (l : Nat) : t.flagsByte l = s.flagsByte l := by
  unfold State.flagsByte State.isQueueLine; rw [h.parts]

theorem State.Quiet.dropsStore {s t : State} (h : s.Quiet t) (a : Nat) (bs : List Byte) :
    t.dropsStore a bs = s.dropsStore a bs := by
  unfold State.dropsStore; simp only [h.flagsByte, h.memByte]

theorem State.Quiet.needsHandover {s t : State} (h : s.Quiet t) (a : Nat) : t.needsHandover a = s.needsHandover a := by
  unfold State.needsHandover State.pageOwner State.memberOf
  rw [h.owners, h.handovers, h.poolMember]

theorem State.Quiet.lets {s t : State} (h : s.Quiet t) (c a : Nat) : t.lets c a ↔ s.lets c a := by
  unfold State.lets; rw [h.needsHandover, h.held]

theorem State.Quiet.stagingLines {s t : State} (h : s.Quiet t) (c : Nat) : t.stagingLines c = s.stagingLines c := by
  have key : ∀ ws : List Staged, (ws.filter fun w => w.core == c && !w.hidden).map (fun w => w.addr / 128) =
      ((ws.map Staged.bare).filter fun w => w.core == c && !w.hidden).map (fun w => w.addr / 128) := fun ws => by
    rw [List.filter_map, List.map_map]; rfl
  unfold State.stagingLines
  rw [key, h.staged, ← key]

theorem State.Quiet.hasStagingLine {s t : State} (h : s.Quiet t) (c a : Nat) :
    t.hasStagingLine c a = s.hasStagingLine c a := by
  have key : ∀ ws : List Staged, (ws.any fun w => w.core == c && !w.hidden && w.addr / 128 == a / 128) =
      ((ws.map Staged.bare).any fun w => w.core == c && !w.hidden && w.addr / 128 == a / 128) := fun ws => by
    rw [List.any_map]; rfl
  unfold State.hasStagingLine
  rw [key, h.staged, ← key]

theorem State.Quiet.takesStore {s t : State} (h : s.Quiet t) (c a : Nat) : t.takesStore c a ↔ s.takesStore c a := by
  unfold State.takesStore; rw [h.hasStagingLine, h.stagingLines]

/-! ## Quiet operations -/

theorem State.Quiet.modHub (s : State) (n : Nat) (f : Hub → Hub) (hf : ∀ h, (f h).forwards = h.forwards) :
    s.Quiet (s.modHub n f) := by
  refine ⟨⟨fun _ => .refl _, rfl, rfl, fun h => ?_⟩, rfl, rfl, rfl, rfl, rfl, rfl, rfl, rfl⟩
  unfold State.modHub State.hub
  rw [Tab.get_put]
  split
  · subst_vars; exact hf _
  · rfl

theorem State.Quiet.setPlace (s : State) (n : Nat) (p : Place) : s.Quiet (s.setPlace n p) :=
  ⟨.of_fields rfl rfl rfl rfl, rfl, rfl, rfl, rfl, rfl, rfl, rfl, rfl⟩

theorem State.Quiet.sampleFrame (s : State) (h f : Nat) : s.Quiet (s.sampleFrame h f) := by
  unfold State.sampleFrame
  simp only
  split
  · exact (State.Quiet.setPlace ..).trans (.modHub _ _ _ fun _ => rfl)
  · exact (State.Quiet.setPlace ..).trans (.setPlace ..)

theorem State.Quiet.halvingDue (s : State) (h k : Nat) : s.Quiet (s.halvingDue h k) := by
  unfold State.halvingDue
  split
  · exact .after (.scheduleOnce _ _ _) (.modHub _ _ _ fun _ => rfl)
  · exact .refl _

theorem State.Quiet.countMiss (s : State) (pa : Nat) : s.Quiet (s.countMiss pa) := by
  unfold State.countMiss
  simp only
  split
  · exact .refl _
  · split
    · exact .modHub _ _ _ fun _ => rfl
    · exact .after (.scheduleOnce _ _ _) (.after (.halvingDue _ _ _) (.after (.sampleFrame _ _ _)
        (.after (.modHub _ _ _ fun _ => rfl) (.modHub _ _ _ fun _ => rfl))))

theorem State.Quiet.caches (s : State) (ls : Tab (List L2Line)) (ws : List L2Line) :
    s.Quiet { s with l2 := ls, l2Waits := ws } :=
  ⟨.of_fields rfl rfl rfl rfl, rfl, rfl, rfl, rfl, rfl, rfl, rfl, rfl⟩

theorem State.Quiet.l2Waiting (s : State) (n : Nat) : s.Quiet (s.l2Waiting n) := by
  unfold State.l2Waiting
  split
  · exact .refl _
  · exact .caches _ _ _

theorem State.Quiet.l2Enter (s : State) (pa u : Nat) (b : Bool) : s.Quiet (s.l2Enter pa u b) := by
  unfold State.l2Enter
  simp only
  split
  · exact .caches s _ s.l2Waits
  · split
    · exact .caches s _ s.l2Waits
    · split
      · exact .caches s _ s.l2Waits
      · exact .caches s _ _

theorem State.Quiet.l2Touch (s : State) (pa : Nat) (b : Bool) : s.Quiet (s.l2Touch pa b) := by
  unfold State.l2Touch
  simp only
  have h := fun u b => ((State.Quiet.l2Waiting s (l2Set pa)).trans (.tick _)).trans (.l2Enter _ pa u b)
  split
  · exact h _ _
  · exact (h _ _).trans (.countMiss _ _)

theorem State.Quiet.l1Fill (s : State) (c pa : Nat) (b : Bool) : s.Quiet (s.l1Fill c pa b) := by
  unfold State.l1Fill
  simp only
  split
  · exact .refl _
  · exact .after (.schedule _ _ _) (.after (.setCore _ _ _ (.of_fields rfl rfl rfl)) (.tick s))

theorem State.Quiet.joinPhase (s : State) (c i : Nat) (ls : List Nat) : s.Quiet (s.joinPhase c i ls) := by
  refine ⟨.of_fields rfl rfl rfl rfl, rfl, ?_, rfl, rfl, rfl, rfl, rfl, rfl⟩
  unfold State.joinPhase
  simp only [List.map_map]
  apply List.map_congr_left
  intro w _
  simp only [Function.comp]
  split <;> rfl

theorem State.Quiet.loadL1 (s : State) (c k l pa n : Nat) (x : L1Line) : s.Quiet (s.loadL1 c k l pa n x).2 := by
  unfold State.loadL1
  exact .after (.joinPhase _ _ _ _) (.after (.modCore _ _ _ (.of_fields rfl rfl rfl)) (.tick s))

theorem State.Quiet.loadHome (s : State) (c k l pa n : Nat) (a b : Bool) : s.Quiet (s.loadHome c k l pa n a b).2 := by
  unfold State.loadHome
  simp only
  refine .after (.joinPhase _ _ _ _) ?_
  split
  · exact .after (.l1Fill _ _ _ _) (.l2Touch s _ _)
  · exact .refl _

theorem State.Quiet.takeGlobal (s : State) (c k e n : Nat) : s.Quiet (s.takeGlobal c k e n).2 :=
  .setCore _ _ _ (.of_fields rfl rfl rfl)

theorem State.Quiet.requests (s : State) (x : Ctx) (as : List LaneAcc) : s.Quiet (s.requests x as).2 :=
  .takeGlobal ..

theorem State.Quiet.pend (s : State) (c k l : Nat) (o : Opnd) (n tag : Nat) (b : Bool) :
    s.Quiet (s.pend c k l o n tag b) := by
  unfold State.pend; split
  · exact .modCore _ _ _ (.of_fields rfl rfl rfl)
  · exact .refl _

theorem State.Quiet.deliver (s : State) (c k l tag due : Nat) (vals : List Word) (a : Option Nat) :
    s.Quiet (s.deliver c k l tag due vals a) :=
  .after (.scheduleOnce _ _ _) (.modCore s c _ (.of_fields rfl rfl rfl))

theorem State.Quiet.answer (s : State) (h : Held) (due v : Nat) : s.Quiet (s.answer h due v) := by
  unfold State.answer
  simp only
  have h1 : s.Quiet (s.modThread h.core h.slot h.lane fun t =>
      if h.regs = 0 then { t with storesDone := max t.storesDone due }
      else { t with loadsDone := max t.loadsDone due }) :=
    .modThread _ _ _ _ _ fun t => by split <;> rfl
  split
  · exact h1.trans (.deliver _ _ _ _ _ _ _ _)
  · exact h1

theorem State.Quiet.acquireAfter (s : State) (c k l sc due : Nat) : s.Quiet (s.acquireAfter c k l sc due) :=
  .modThread _ _ _ _ _ fun _ => rfl

theorem State.Quiet.terminal (s : State) (c k l : Nat) (a : Byte) (b : BitVec 16) (x y : DWord) :
    s.Quiet (s.terminal c k l a b x y) :=
  .after (.schedule _ _ _) (.modThread s _ _ _ _ fun _ => rfl)

theorem State.Quiet.faultLane (s : State) (c k l a : Nat) (x y : DWord) : s.Quiet (s.faultLane c k l a x y) :=
  .terminal ..

theorem State.Quiet.outside (s : State) (n : Nat) : s.Quiet (s.outside n).2 :=
  ⟨.of_fields rfl rfl rfl rfl, rfl, rfl, rfl, rfl, rfl, rfl, rfl, rfl⟩

theorem State.Quiet.notify (s : State) (pa n : Nat) : s.Quiet (s.notify pa n) := by
  unfold State.notify
  simp only
  refine .trans (.trans (.foldl _ (fun s a => ?_) _ _) (.foldl _ (fun s a => ?_) _ _)) (.foldl _ (fun s a => ?_) _ _)
  · split
    · exact .scheduleOnce _ _ _
    · exact .refl _
  · split
    · exact .scheduleOnce _ _ _
    · exact .refl _
  · exact .foldl _ (fun s a => .scheduleOnce _ _ _) _ _

theorem State.Quiet.drainWc (s : State) (c : Nat) (p : WcEntry → Bool) : s.Quiet (s.drainWc c p) := by
  unfold State.drainWc
  exact (State.Quiet.setCore s c { s.core c with wc := (s.core c).wc.filter fun e => !p e } (.of_fields rfl rfl rfl)).trans
    ⟨.of_fields rfl rfl rfl rfl, rfl, rfl, rfl, rfl, rfl, rfl, rfl, rfl⟩

/-! ## Calm operations -/

theorem State.Calm.modPart (s : State) (p : Nat) (f : Part → Part) : s.Calm (s.modPart p f) := .of_fields rfl rfl rfl rfl

theorem State.Calm.writeMerged (s : State) (pa : Nat) (bs : List Byte) : s.Calm (s.writeMerged pa bs) := by
  unfold State.writeMerged
  exact .after (State.Quiet.notify _ _ _).toCalm (.of_fields rfl rfl rfl rfl)

theorem State.Calm.setPte (s : State) (pa v m : Nat) : s.Calm (s.setPte pa v m) := by
  unfold State.setPte
  simp only
  split
  · exact .refl _
  · exact .writeMerged _ _ _

theorem State.Calm.takeNapot (s : State) (x : Xlat) (b : Bool) (l : Leaf) (va : Nat) : s.Calm (s.takeNapot x b l va) := by
  unfold State.takeNapot
  split
  · exact .refl _
  · exact .modPart _ _ _

theorem State.Calm.setTables (s : State) (x : Xlat) (m : Nat) : s.Calm (s.setTables x m) := by
  unfold State.setTables
  refine .foldl _ (fun s a => ?_) _ _
  split
  · exact .setPte _ _ _ _
  · exact .refl _

theorem State.Calm.setAD (s : State) (x : Xlat) (w : Bool) : s.Calm (s.setAD x w) := by
  unfold State.setAD
  exact .after (.setPte _ _ _ _) (.after (.setPte _ _ _ _) (.after (.setTables _ _ _) (.after (.takeNapot _ _ _ _ _) (.takeNapot _ _ _ _ _))))

theorem State.Calm.mergeOne (s : State) (w : Staged) : s.Calm (s.mergeOne w) := .of_fields rfl rfl rfl rfl

theorem State.Calm.publishWhere (s : State) (sc a : Nat) (p : Staged → Bool) : s.Calm (s.publishWhere sc a p) := by
  unfold State.publishWhere
  simp only
  refine .trans ?_ (State.Calm.foldl _ (fun s w => (State.Quiet.notify _ _ _).toCalm) _ _)
  split
  · exact .foldl _ (fun s w => .mergeOne _ _) _ _
  · exact .of_fields rfl rfl rfl rfl

theorem State.Quiet.drainFor (s : State) (c sc : Nat) : s.Quiet (s.drainFor c sc).2 := by
  unfold State.drainFor
  split
  · exact .drainWc _ _ _
  · exact .refl _

theorem State.Calm.completePub (s : State) (c k l d : Nat) : s.Calm (s.completePub c k l d) := by
  unfold State.completePub
  exact .after (.schedule _ _ _) (.after (.modThread _ _ _ _ _ fun _ => rfl) (State.Quiet.tick s).toCalm)

theorem State.Calm.publishAs (s : State) (c k l sc : Nat) (p : Staged → Bool) : s.Calm (s.publishAs c k l sc p) := by
  unfold State.publishAs
  exact .after (.completePub _ _ _ _ _) (.after (State.Quiet.drainFor _ _ _).toCalm (.publishWhere s _ _ _))

theorem State.Calm.publishPhase (s : State) (c k l sc : Nat) : s.Calm (s.publishPhase c k l sc) := .publishAs _ _ _ _ _ _

theorem State.Calm.demoteTo (s : State) (p n sc : Nat) : s.Calm (s.demoteTo p n sc).2 := by
  unfold State.demoteTo
  split
  · exact State.Calm.of_fields rfl rfl rfl rfl
  · exact .refl _

theorem State.Calm.demote (s : State) (c sc : Nat) : s.Calm (s.demote c sc).2 := .demoteTo _ _ _ _

theorem State.Calm.earlyPublish (s : State) (c : Nat) : s.Calm (s.earlyPublish c) := by
  unfold State.earlyPublish
  split
  · exact .refl _
  · refine .after (.modPart _ _ _) ?_
    split
    · exact .publishAs _ _ _ _ _ _
    · exact .publishWhere _ _ _ _

theorem State.Calm.makeRoom (c b n : Nat) (s : State) : s.Calm (s.makeRoom c b n) := by
  induction n generalizing s with
  | zero => exact .refl _
  | succ n ih =>
    unfold State.makeRoom
    split
    · exact .refl _
    · exact .trans (.earlyPublish _ _) (ih _)

theorem State.Calm.writeStagedBy (s : State) (c i j pa : Nat) (bs : List Byte) : s.Calm (s.writeStagedBy c i j pa bs) := by
  unfold State.writeStagedBy
  simp only
  refine .trans ?_ (State.Quiet.notify _ _ _).toCalm
  refine .trans ?_ (State.Calm.modCore _ _ _ (.of_fields rfl rfl rfl))
  refine State.Calm.trans (t := (if s.hasStagingLine c (s.routeRead pa) = true then s else s.makeRoom c 4096 4096)) ?_ (.of_fields rfl rfl rfl rfl)
  split
  · exact .refl _
  · exact .makeRoom _ _ _ _

theorem State.Calm.resolve {s t : State} {l va : Nat} {n : Need} {g : Target} (h : s.resolve l va n = .ok (g, t)) :
    s.Calm t := by
  unfold State.resolve at h
  simp only at h
  repeat' split at h
  all_goals first
    | cases h; done
    | (simp only [Except.ok.injEq, Prod.mk.injEq] at h; obtain ⟨-, rfl⟩ := h; first | exact .refl _ | exact .setAD _ _ _)

theorem State.Calm.resolveLane {s t : State} {c k l va : Nat} {n : Need} {g : Target}
    (h : s.resolveLane c k l va n = .ok (g, t)) : s.Calm t := by
  unfold State.resolveLane at h
  simp only at h
  repeat' split at h
  all_goals first
    | cases h; done
    | exact .resolve h
    | (simp only [Except.ok.injEq, Prod.mk.injEq] at h; obtain ⟨-, rfl⟩ := h
       first
        | exact .refl _
        | exact .after (.modCore _ _ _ (.of_fields rfl rfl rfl)) (.setAD _ _ _))

theorem State.Quiet.replayLater (s : State) (h : Held) (a : Nat) (w : Option Nat) : s.Quiet (s.replayLater h a w) := by
  unfold State.replayLater
  split
  · exact .refl _
  · split
    · exact .schedule _ _ _
    · split <;> exact .schedule _ _ _

theorem State.Calm.hold (s : State) (h : Held) (a : Nat) (w : Option Nat) : s.Calm (s.hold h a w) := by
  unfold State.hold
  simp only
  refine .after (State.Quiet.replayLater _ _ _ _).toCalm ?_
  have h0 : ∀ hs, s.Calm { s.tick with held := hs } := fun hs => .of_fields rfl rfl rfl rfl
  split
  · exact .after (.modThread _ _ _ _ _ fun _ => rfl) (h0 _)
  · exact h0 _

theorem State.Quiet.askHandover (s : State) (pa : Nat) : s.Quiet (s.askHandover pa) := by
  unfold State.askHandover
  simp only
  split
  · exact .refl _
  · exact .schedule _ _ _

theorem State.Calm.beforeAtomic (s : State) (c pa n sc : Nat) : s.Calm (s.beforeAtomic c pa n sc) := by
  unfold State.beforeAtomic
  exact .after (.modCore _ _ _ (.of_fields rfl rfl rfl)) (.publishWhere _ _ _ _)

theorem State.Quiet.storesBy (s : State) (c k l d : Nat) : s.Quiet (s.storesBy c k l d) :=
  .modThread _ _ _ _ _ fun _ => rfl

theorem State.Calm.performAtomic (s : State) (h : Held) (pa a b : Nat) : s.Calm (s.performAtomic h pa a b) := by
  unfold State.performAtomic
  split
  · exact (State.Quiet.faultLane ..).toCalm
  · have h1 := State.Calm.beforeAtomic s h.core pa h.size h.scope
    have h2 : s.Calm (if h.first then (s.beforeAtomic h.core pa h.size h.scope).l2Touch pa false
        else s.beforeAtomic h.core pa h.size h.scope) := by
      split
      · exact h1.trans (State.Quiet.l2Touch _ _ _).toCalm
      · exact h1
    have h3 : ∀ (n : List Byte) (r d : Nat), s.Calm (((if h.first then (s.beforeAtomic h.core pa h.size h.scope).l2Touch pa false
        else s.beforeAtomic h.core pa h.size h.scope).writeMerged pa n).answer h d r) :=
      fun n r d => (h2.trans (.writeMerged _ _ _)).trans (State.Quiet.answer _ _ _ _).toCalm
    simp only
    generalize h.op.update _ = r
    obtain ⟨new, ret⟩ := r
    simp only
    split <;> split <;> first | exact (h3 _ _ _).trans (State.Quiet.acquireAfter _ _ _ _ _ _).toCalm | exact h3 _ _ _

theorem State.Quiet.performLoad (s : State) (h : Held) (x y : Bool) (pa a b : Nat) : s.Quiet (s.performLoad h x y pa a b) := by
  unfold State.performLoad
  split
  · exact (State.Quiet.loadL1 _ _ _ _ _ _ _).trans (.answer _ _ _ _)
  · split
    · exact .faultLane _ _ _ _ _ _ _
    · exact (State.Quiet.loadHome _ _ _ _ _ _ _ _).trans (.answer _ _ _ _)

theorem State.Quiet.prefLine (s : State) (c pa : Nat) (x y : Bool) : s.Quiet (s.prefLine c pa x y) := by
  unfold State.prefLine
  simp only
  split
  · exact .refl _
  · split
    · exact .l2Touch _ _ _
    · exact .after (.l1Fill _ _ _ _) (.l2Touch _ _ _)

theorem State.Calm.performCctl (s : State) (h : Held) (x y : Bool) (pa a b : Nat) : s.Calm (s.performCctl h x y pa a b) := by
  unfold State.performCctl
  simp only
  refine .after (State.Quiet.storesBy _ _ _ _ _).toCalm ?_
  have h1 : s.Calm (if x && h.first then (s.publishLine h.core (s.routeRead pa / 128) h.scope).drainFor h.core h.scope
      else (0, s)).2 := by
    split
    · exact .after (State.Quiet.drainFor _ _ _).toCalm (.publishWhere _ _ _ _)
    · exact .refl _
  generalize (if x && h.first then (s.publishLine h.core (s.routeRead pa / 128) h.scope).drainFor h.core h.scope
      else (0, s)) = r at h1 ⊢
  obtain ⟨d, u⟩ := r
  simp only at h1 ⊢
  have h2 : s.Calm (if y then u.modCore h.core fun c => c.l1Drop (s.routeRead pa) else u) := by
    split
    · exact h1.trans (.modCore _ _ _ (.of_fields rfl rfl rfl))
    · exact h1
  split
  · exact h2.trans (.completePub _ _ _ _ _)
  · exact h2

theorem State.Calm.perform (s : State) (h : Held) (pa a b : Nat) : s.Calm (s.perform h pa a b) := by
  unfold State.perform
  split
  · exact (State.Quiet.performLoad _ _ _ _ _ _ _).toCalm
  · simp only
    refine .after (State.Quiet.storesBy _ _ _ _ _).toCalm ?_
    have h1 : ∀ bs, s.Calm (if s.dropsStore pa bs then s else s.writeStaged h.core h.thread pa bs) := by
      intro bs
      split
      · exact .refl _
      · exact .writeStagedBy _ _ _ _ _ _
    split
    · exact (h1 _).trans (State.Quiet.l2Touch _ _ _).toCalm
    · exact h1 _
  · split
    · exact (State.Quiet.prefLine _ _ _ _ _).toCalm
    · exact .refl _
  · exact .performCctl _ _ _ _ _ _ _
  · exact .performAtomic _ _ _ _ _

theorem State.Calm.tryAccess (s : State) (h : Held) (a b : Nat) : s.Calm (s.tryAccess h a b) := by
  unfold State.tryAccess
  split
  · exact .perform _ _ _ _ _
  · simp only
    split
    · exact (State.Quiet.askHandover _ _).toCalm.trans (.hold _ _ _ _)
    · exact .hold _ _ _ _

theorem State.Quiet.wcStore (s : State) (c i l o : Nat) (bs : List Byte) : s.Quiet (s.wcStore c i l o bs) := by
  unfold State.wcStore
  simp only
  have h0 : ∀ (b : Bool) (p : WcEntry → Bool), s.Quiet (if b then s.drainWc c p else s) := by
    intro b p; split
    · exact .drainWc _ _ _
    · exact .refl _
  split
  · split
    · exact .after (.drainWc _ _ _) (.after (.modCore _ _ _ (.of_fields rfl rfl rfl)) (h0 _ _))
    · exact .after (.modCore _ _ _ (.of_fields rfl rfl rfl)) (h0 _ _)
  · exact .after (.schedule _ _ _) (.after (.modCore _ _ _ (.of_fields rfl rfl rfl)) (.after (.tick _) (h0 _ _)))

theorem State.Quiet.peerAccess (s : State) (h : Held) (l p o a : Nat) : s.Quiet (s.peerAccess h l p o a) := by
  unfold State.peerAccess
  simp only
  split
  · exact .terminal _ _ _ _ _ _ _ _
  · split
    · exact (State.Quiet.outside _ _).trans (.answer _ _ _ _)
    · exact .wcStore _ _ _ _ _ _
    · exact .refl _
    · exact .storesBy _ _ _ _ _
    · have h1 : ∀ d v, s.Quiet ((s.outside h.size).2.answer h d v) := fun d v => (State.Quiet.outside _ _).trans (.answer _ _ _ _)
      split <;> split <;> first | exact (h1 _ _).trans (.acquireAfter _ _ _ _ _ _) | exact h1 _ _

theorem State.Calm.laneAccess (s : State) (x : Ctx) (r : Request) (a b c : Nat) (d : Bool) (o : HeldOp) (m : Bool) :
    s.Calm (s.laneAccess x r a b c d o m) := by
  unfold State.laneAccess
  simp only
  split
  · exact (State.Quiet.pend ..).toCalm.trans (.tryAccess _ _ _ _)
  · exact (State.Quiet.pend ..).toCalm.trans (State.Quiet.peerAccess _ _ _ _ _ _).toCalm

end Sys2Proof.Machine
end

