-- ==== Sys2Proof/Tests/Slice0.lean ====
section
/-! SUPPORT. Tests of one step or one word each. Words are written out from the encoding tables of 03_encoding.md and
the listings of the instruction chapters; results come from the worked examples and the rules named. The witnesses show
states and operands that meet the hypotheses of the statements. -/

namespace Sys2Proof.Tests

open Machine

set_option Elab.async false

/-! ## Words and their instructions (R48 to R79) -/

def bytes (l : List Nat) : List Byte := l.map (BitVec.ofNat 8)

/-- The fields of an instruction that every lane executes, without stall count and co-write. -/
def op (dst a b c : Opnd) (m : Nat) : Fields := ⟨0, 7, false, none, dst, a, b, c, BitVec.ofNat 5 m⟩

/-- V and G registers. -/
def rv (n : Nat) : Opnd := .v (BitVec.ofNat 7 n) false
def rg (n : Nat) : Opnd := .g (BitVec.ofNat 6 n)

/-- R237's listing: IADD.i16x2.sat V7, V8, C2. -/
theorem test_decode_integer : decode (bytes [0x03, 0x82, 0x3B, 0x00, 0x08, 0x82, 0x8B, 0x30]) =
    .ok (.iadd (op (rv 7) (rv 8) (.c 2) .zero 6)) 8 := by decide +kernel

/-- R239's listing: LOGIC3 V1, V2, V3, V4, 0x96. -/
theorem test_decode_logic3 : decode (bytes [0x43, 0xE3, 0x0B, 0x00, 0x02, 0x03, 0x04, 0x90]) =
    .ok (.logic3 0x96 (op (rv 1) (rv 2) (rv 3) (rv 4) 0)) 8 := by decide +kernel

/-- R266's listing: FFMA.f32.rz V1, V2, V3, L0. -/
theorem test_decode_float : decode (bytes [0x43, 0x86, 0x0B, 0x00, 0x02, 0x03, 0x88, 0x08]) =
    .ok (.ffma (op (rv 1) (rv 2) (rv 3) (.l 0) 1)) 8 := by decide +kernel

/-- FCVT, with the element selectors and .sat of R278. -/
theorem test_decode_convert : decode (bytes [0xA3, 0x87, 0x33, 0x80, 0x05, 0x40, 0x09, 0x81]) =
    .ok (.fcvt .e4m3 .f32 1 0 false true (op (rv 6) (rv 5) .zero .zero 0)) 8 := by decide +kernel

/-- A predicate, its negation, a stall count, a co-write and a dead mark (R60, R61, R65, R66). -/
theorem test_decode_common_fields : decode (bytes [0x07, 0x06, 0x0D, 0x58, 0x02, 0x03, 0x8B, 0x09]) =
    .ok (.fadd ⟨1, 2, true, some 3, rv 1, .v 2 true, rv 3, .zero, 1⟩) 8 := by decide +kernel

theorem test_decode_exit : decode (bytes [0xC3, 0x80, 0x5B, 0x04, 0x8B, 0x8B, 0x8B, 0x00]) =
    .ok (.exit (op .zero .zero .zero .zero 0)) 8 := by decide +kernel

theorem test_decode_trap_return : decode (bytes [0x23, 0x81, 0x5B, 0x04, 0x8B, 0x8B, 0x8B, 0x00]) =
    .ok (.tret (op .zero .zero .zero .zero 0)) 8 := by decide +kernel

theorem test_decode_syscall : decode (bytes [0x43, 0x81, 0x1B, 0x00, 0x94, 0xF1, 0x8B, 0x00]) =
    .ok (.syscall (op (rv 3) (rg 4) (.imm 33) .zero 0)) 8 := by decide +kernel

theorem test_decode_spawn : decode (bytes [0x83, 0x81, 0x43, 0x00, 0x92, 0x04, 0x8B, 0x20]) =
    .ok (.spawn (op (rv 8) (rg 2) (rv 4) .zero 4)) 8 := by decide +kernel

theorem test_decode_atomic : decode (bytes [0x03, 0x8C, 0x33, 0x00, 0x94, 0x07, 0xE0, 0x98]) =
    .ok (.atom .add .i32 (op (rv 6) (rg 4) (rv 7) .zero 0x13)) 8 := by decide +kernel

theorem test_decode_phase : decode (bytes [0xC3, 0x8C, 0x5B, 0x04, 0x8B, 0x8B, 0x8B, 0x18]) =
    .ok (.phasePub (op .zero .zero .zero .zero 3)) 8 := by decide +kernel

theorem test_decode_convergence : decode (bytes [0xA3, 0x81, 0x5B, 0x04, 0xE3, 0x9A, 0x8B, 0x00]) =
    .ok (.cdecl (op .zero (.k 3) (rg 10) .zero 0)) 8 := by decide +kernel

theorem test_decode_queue : decode (bytes [0x23, 0x8D, 0x53, 0x00, 0x02, 0x94, 0x8B, 0x60]) =
    .ok (.enq (op (rv 10) (rv 2) (rg 4) .zero 0xC)) 8 := by decide +kernel

theorem test_decode_courier : decode (bytes [0x83, 0x8D, 0x63, 0x00, 0x98, 0x8B, 0x8B, 0x00]) =
    .ok (.xcopy (op (rv 12) (rg 8) .zero .zero 0)) 8 := by decide +kernel

theorem test_decode_pool : decode (bytes [0x63, 0xBE, 0x63, 0x00, 0x98, 0x8B, 0x8B, 0x00]) =
    .ok (.xpoolReduce (op (rv 12) (rg 8) .zero .zero 0)) 8 := by decide +kernel

theorem test_decode_ballot_post : decode (bytes [0x83, 0x8E, 0x33, 0x00, 0x94, 0x8B, 0x8B, 0x00]) =
    .ok (.sbpost (op (rv 6) (rg 4) .zero .zero 0)) 8 := by decide +kernel

theorem test_decode_ballot_read : decode (bytes [0xA3, 0x9E, 0x43, 0x00, 0x8B, 0xE0, 0x8B, 0x00]) =
    .ok (.sbread (op (rv 8) .zero (.imm 16) .zero 0)) 8 := by decide +kernel

theorem test_decode_matrix : decode (bytes [0x23, 0x8F, 0xA3, 0x00, 0x98, 0x9C, 0xA0, 0x18]) =
    .ok (.mma (op (rv 20) (rg 8) (rg 12) (rg 16) 3)) 8 := by decide +kernel

theorem test_decode_matrix_row : decode (bytes [0xC3, 0xAF, 0x5B, 0x04, 0xA4, 0x02, 0x03, 0x00]) =
    .ok (.mexp (op .zero (rg 20) (rv 2) (rv 3) 0)) 8 := by decide +kernel

/-- Short forms (R76 to R78). -/
theorem test_decode_w32 : decode (bytes [0x09, 0x42, 0x28, 0x88]) = .ok (.iaddW32 ⟨2, rv 4, rv 5, .c 2⟩) 4 ∧
    decode (bytes [0x61, 0x24, 0xD0, 0xAF]) = .ok (.movW32 ⟨0, rv 2, .imm 26, .zero⟩) 4 := by decide +kernel

theorem test_decode_w16 : decode (bytes [0x82, 0x28]) = .ok (.iaddW16 ⟨rv 4, rv 5⟩) 2 ∧
    decode (bytes [0x44, 0xE0]) = .ok (.isubW16 ⟨rv 2, .imm 17⟩) 2 := by decide +kernel

/-- lnl.enq of a hart (R122). -/
theorem test_decode_hart : decodeHart 0x90C5850B = some (.lnlEnq 4 true 12 11 10) := by decide +kernel

/-! ## Terms that are not well-formed -/

/-- A field holds what its role does not allow: a barrier as a source. -/
theorem test_illformed_source : (Instr.iadd (op (rv 7) (.bar 1) (rv 3) .zero 0)).wf = false := by decide +kernel
/-- A source of two registers stands on an even one (R6). -/
theorem test_illformed_run : (Instr.iadd64 (op (rv 2) (rv 5) (rv 6) .zero 0)).wf = false := by decide +kernel
/-- A destination carries no dead mark (R66). -/
theorem test_illformed_dead_destination : (Instr.iadd (op (.v 7 true) (rv 1) (rv 2) .zero 0)).wf = false := by
  decide +kernel
/-- The result of a float instruction goes to a V or C register (R266). -/
theorem test_illformed_destination : (Instr.fadd (op (rg 4) (rv 1) (rv 2) .zero 0)).wf = false := by decide +kernel
/-- A predicate destination has no negation (R60). -/
theorem test_illformed_predicate : (Instr.icmp .eq (op (.p 1 true) (rv 1) (rv 2) .zero 0)).wf = false := by decide +kernel
/-- A modifier code that the instruction does not accept: .sat of a shift (R240). -/
theorem test_illformed_modifier : (Instr.shl (op (rv 7) (rv 1) (rv 2) .zero 4)).wf = false := by decide +kernel
/-- Form 1 of an instruction that has form 0 alone (R241). -/
theorem test_illformed_form : (Instr.fshl (op (rv 7) (rv 1) (.imm18 5) (rv 2) 0)).wf = false := by decide +kernel
/-- An unused source field (R59). -/
theorem test_illformed_unused : (Instr.popc (op (rv 7) (rv 1) (rv 2) .zero 0)).wf = false := by decide +kernel
/-- A co-write stands beside one register of a fixed-latency instruction (R65). -/
theorem test_illformed_cowrite :
    (Instr.iadd64 { op (rv 2) (rv 4) (rv 6) .zero 0 with cw := some 1 }).wf = false := by decide +kernel
/-- The same of a wide immediate. -/
theorem test_illformed_wide_cowrite : (Instr.call ⟨0, 7, false, some 1, rv 2, 0⟩).wf = false := by decide +kernel
/-- The short fields' ranges (R54, R55). -/
theorem test_illformed_a7 : (Instr.iaddW32 ⟨0, rv 1, rv 96, rv 3⟩).wf = false := by decide +kernel
theorem test_illformed_b6 : (Instr.iaddW32 ⟨0, rv 1, rv 2, rv 32⟩).wf = false := by decide +kernel
theorem test_illformed_d7 : (Instr.iaddW32 ⟨0, rv 120, rv 2, rv 3⟩).wf = false := by decide +kernel
theorem test_illformed_s5 : (Instr.iaddW16 ⟨rv 1, rv 16⟩).wf = false := by decide +kernel
theorem test_illformed_d6 : (Instr.iaddW16 ⟨rv 48, rv 1⟩).wf = false := by decide +kernel
theorem test_illformed_counter : (Instr.brdecW32 0 (rg 2) 5).wf = false := by decide +kernel
theorem test_wellformed : (Instr.iadd (op (rv 7) (rv 8) (.c 2) .zero 6)).wf = true ∧
    (Instr.iaddW32 ⟨2, rv 119, rv 95, rv 31⟩).wf = true ∧ (Instr.iaddW16 ⟨rv 47, rv 15⟩).wf = true := by decide +kernel

/-! ## A small machine: one group with one thread on core 0, issuing at 0x1000 -/

def vregs (l : List (Nat × Nat)) : Tab VReg := l.map fun p => (p.1, ⟨BitVec.ofNat 32 p.2, false, 0⟩)

/-- A thread with V registers and C slots. -/
def thr (v : List (Nat × Nat)) (c : List (Nat × Nat) := []) : Thread :=
  { Thread.fresh with
    pc := 0x1000, v := vregs v
    lv := { Level.empty 0 with c := c.map fun p => (p.1, ⟨BitVec.ofNat 32 p.2, true, 0⟩) } }

/-- 32 granules of registers, 16 of scratchpad, 8 of accumulators and 8 of L1. -/
def pword0 : Word := 0x208420

def side0 : Side :=
  { launch := 0, team := 0, side := 0, placed := 0, consumed := 0, started := true, returning := false, holes := [], pressed := [], stopAt := none }

def group0 (u : Thread) : Group := { Group.fresh with threads := [(0, u)], st := .active }

def core0 (u : Thread) : Core :=
  { Core.reset with
    side := some side0, owner := some 0, pword := some pword0, groups := [(0, group0 u)]
    lastPage := [(laneKey 0 0, { vpage := 2, frame := 7, gpage := 2, asid := 0, r := true, w := true, x := true
                                 dirty := true, key := 0, part := 0 })] }

def launch0 : Launch :=
  { Launch.zero with
    env := { Envelope.zero with regs := 128, tx := 16, pword := pword0, text := 4096, entry := 0x1000 }
    leases := [⟨0, 16, .rw⟩], frames := [⟨0, 0, 16⟩] }

def team0 : Team :=
  { launch := 0, index := 0, cores := [0], barriers := [], convs := [], spawncount := 16, doneSides := []
    preempt := none, stopping := false, forced := false, cancel := false, forLaunch := none, exitDemoted := false }

def world (u : Thread) : State :=
  { State.reset with
    agenda := [], turn := .thread, cur := { Issue.of 0 0 [0] 0x1000 false with len := 8 }, ready := 1
    cores := [(0, core0 u)], launches := [(0, launch0)], teams := [team0], parts := [(0, { Part.reset with clmask := 1 })] }

/-- The V registers that an instruction's results are on their way to, in a small machine. -/
def vOf (u : Thread) (i : Instr) : List (Nat × Nat) :=
  match exec i (world u) with
  | .next t => (t.core 0).landings.filterMap fun l => match l.op with
    | .v n _ x => some (n, x.toNat)
    | _ => none
  | _ => []

/-- The predicate bits on their way: mask and value. -/
def pOf (u : Thread) (i : Instr) : List (Nat × Nat) :=
  match exec i (world u) with
  | .next t => (t.core 0).landings.filterMap fun l => match l.op with
    | .p m x => some (m.toNat, x.toNat)
    | _ => none
  | _ => []

/-- A state in which an event has come due. -/
def due (s : State) (e : Event) : State := { s with turn := .idle, event := e }

/-! ## Integer instructions -/

/-- R237's example: each half added, the upper one clamped. -/
theorem test_iadd_saturates : vOf (thr [(8, 0x7FF00005)] [(2, 0x0020FFFE)]) (.iadd (op (rv 7) (rv 8) (.c 2) .zero 6)) =
    [(7, 0x7FFF0003)] := by decide +kernel
/-- Its wrap without .sat. -/
theorem test_iadd_wraps : vOf (thr [(8, 0x7FF00005)] [(2, 0x0020FFFE)]) (.iadd (op (rv 7) (rv 8) (.c 2) .zero 2)) =
    [(7, 0x80100003)] := by decide +kernel
/-- The first link of R237's chain: the low word is 0 and the carry 1. -/
theorem test_iaddc_carries : vOf (thr [(4, 0xFFFFFFFF), (9, 1)]) (.iaddc (op (rv 0) (rv 4) (rv 9) (.p 1 false) 0)) = [(0, 0)] ∧
    pOf (thr [(4, 0xFFFFFFFF), (9, 1)]) (.iaddc (op (rv 0) (rv 4) (rv 9) (.p 1 false) 0)) = [(2, 2)] := by decide +kernel
theorem test_isubb_borrows : vOf (thr [(4, 0), (9, 1)]) (.isubb (op (rv 0) (rv 4) (rv 9) (.p 1 false) 0)) = [(0, 0xFFFFFFFF)] ∧
    pOf (thr [(4, 0), (9, 1)]) (.isubb (op (rv 0) (rv 4) (rv 9) (.p 1 false) 0)) = [(2, 2)] := by decide +kernel
/-- 2^31 − 1 as the high word: the sum of 64 bits carries into it and clamps (R237). -/
theorem test_iadd64_saturates : vOf (thr [(4, 0xFFFFFFFF), (5, 0x7FFFFFFF), (6, 1)]) (.iadd64 (op (rv 2) (rv 4) (rv 6) .zero 4)) =
    [(2, 0xFFFFFFFF), (3, 0x7FFFFFFF)] := by decide +kernel
theorem test_isub_sign : vOf (thr [(1, 3), (2, 5)]) (.isub (op (rv 3) (rv 1) (rv 2) .zero 0)) = [(3, 0xFFFFFFFE)] := by
  decide +kernel
theorem test_imulh_signed : vOf (thr [(1, 0xFFFFFFFF), (2, 2)]) (.imulh (op (rv 3) (rv 1) (rv 2) .zero 0)) =
    [(3, 0xFFFFFFFF)] ∧
    vOf (thr [(1, 0xFFFFFFFF), (2, 2)]) (.imulh (op (rv 3) (rv 1) (rv 2) .zero 1)) = [(3, 1)] := by decide +kernel
theorem test_iabs_of_least : vOf (thr [(1, 0x80000000)]) (.iabs (op (rv 3) (rv 1) .zero .zero 4)) = [(3, 0x7FFFFFFF)] := by
  decide +kernel
theorem test_imad64 : vOf (thr [(1, 0xFFFFFFFF), (2, 3), (4, 5)]) (.imad64 (op (rv 6) (rv 1) (rv 2) (rv 4) 0)) =
    [(6, 2), (7, 0)] := by decide +kernel
/-- R239: the truth table 0x96 is a XOR b XOR c. -/
theorem test_logic3_xor : vOf (thr [(2, 0xF0F0F0F0), (3, 0xCCCCCCCC), (4, 0xAAAAAAAA)])
    (.logic3 0x96 (op (rv 1) (rv 2) (rv 3) (rv 4) 0)) = [(1, 0x96969696)] := by decide +kernel
theorem test_andn_operand_order : vOf (thr [(1, 0xFF), (2, 0x0F)]) (.andn (op (rv 3) (rv 1) (rv 2) .zero 0)) = [(3, 0xF0)] := by
  decide +kernel
/-- A shift by the width or more (R240). -/
theorem test_shl_by_width : vOf (thr [(1, 1), (2, 32)]) (.shl (op (rv 3) (rv 1) (rv 2) .zero 0)) = [(3, 0)] := by decide +kernel
theorem test_shra_by_width : vOf (thr [(1, 0x80000000), (2, 40)]) (.shra (op (rv 3) (rv 1) (rv 2) .zero 0)) =
    [(3, 0xFFFFFFFF)] := by decide +kernel
theorem test_fshl_by_32 : vOf (thr [(1, 5), (2, 9), (4, 77)]) (.fshl (op (rv 3) (rv 1) (rv 2) (rv 4) 0)) = [(3, 9)] := by
  decide +kernel
/-- R242: bits 8 to 15, as a signed field. -/
theorem test_bfx_signed : vOf (thr [(1, 0xF0C0), (2, 0x0808)]) (.bfx (op (rv 3) (rv 1) (rv 2) .zero 0)) =
    [(3, 0xFFFFFFF0)] := by decide +kernel
theorem test_bfi_inserts : vOf (thr [(1, 0xFF), (2, 0x0404), (4, 0)]) (.bfi (op (rv 3) (rv 1) (rv 2) (rv 4) 0)) = [(3, 0xF0)] := by
  decide +kernel
theorem test_clz_of_zero : vOf (thr [(1, 0)]) (.clz (op (rv 3) (rv 1) .zero .zero 0)) = [(3, 32)] ∧
    vOf (thr [(1, 0)]) (.ctz (op (rv 3) (rv 1) .zero .zero 0)) = [(3, 32)] := by decide +kernel
theorem test_icmp_unsigned : pOf (thr [(1, 0xFFFFFFFF), (2, 1)]) (.icmp .lt (op (.p 2 false) (rv 1) (rv 2) .zero 0)) = [(4, 4)] ∧
    pOf (thr [(1, 0xFFFFFFFF), (2, 1)]) (.icmp .lt (op (.p 2 false) (rv 1) (rv 2) .zero 1)) = [(4, 0)] := by decide +kernel
/-- P7 discards (R60). -/
theorem test_icmp_p7 : pOf (thr [(1, 1), (2, 1)]) (.icmp .eq (op (.p 7 false) (rv 1) (rv 2) .zero 0)) = [] := by decide +kernel
theorem test_isel_negated : vOf (thr [(1, 11), (2, 22)]) (.isel (op (rv 3) (rv 1) (rv 2) (.p 0 true) 0)) = [(3, 11)] := by
  decide +kernel
theorem test_sread_lane_and_team : vOf (thr [(1, 0)]) (.sread .ntidX (op (rv 3) .zero .zero .zero 0)) = [(3, 16)] := by
  decide +kernel
theorem test_pmov_reads_p7 : vOf { thr [] with p := 5 } (.pmovPv (op (rv 3) .zero .zero .zero 0)) = [(3, 0x85)] := by decide +kernel
/-- A vote over one active lane. -/
theorem test_vote_ballot : vOf { thr [] with p := 1 } (.voteBallot (op (rv 3) (.p 0 false) .zero .zero 0)) = [(3, 1)] := by
  decide +kernel
/-- SHFL.up from below lane 0 keeps the lane's own value (R258). -/
theorem test_shfl_out_of_range : vOf (thr [(1, 99), (2, 1)]) (.shfl .up (op (rv 3) (rv 1) (rv 2) .zero 0)) = [(3, 99)] := by
  decide +kernel

/-! ## Float instructions -/

/-- 1.5 + 2.25 (R266). -/
theorem test_fadd : vOf (thr [(1, 0x3FC00000), (2, 0x40100000)]) (.fadd (op (rv 3) (rv 1) (rv 2) .zero 0)) =
    [(3, 0x40700000)] := by decide +kernel
/-- Opposite infinities give NaN (R264). -/
theorem test_fadd_infinities : vOf (thr [(1, 0x7F800000), (2, 0xFF800000)]) (.fadd (op (rv 3) (rv 1) (rv 2) .zero 0)) =
    [(3, 0x7FC00000)] := by decide +kernel
/-- x − x is +0, and −0 under .rd (R264). -/
theorem test_fsub_zero : vOf (thr [(1, 0x3F800000)]) (.fsub (op (rv 3) (rv 1) (rv 1) .zero 0)) = [(3, 0)] ∧
    vOf (thr [(1, 0x3F800000)]) (.fsub (op (rv 3) (rv 1) (rv 1) .zero 3)) = [(3, 0x80000000)] := by decide +kernel
/-- The largest value doubled (R97): infinity, or the largest under .rz. -/
theorem test_fmul_overflow : vOf (thr [(1, 0x7F7FFFFF), (2, 0x40000000)]) (.fmul (op (rv 3) (rv 1) (rv 2) .zero 0)) =
    [(3, 0x7F800000)] ∧
    vOf (thr [(1, 0x7F7FFFFF), (2, 0x40000000)]) (.fmul (op (rv 3) (rv 1) (rv 2) .zero 1)) = [(3, 0x7F7FFFFF)] := by decide +kernel
/-- One rounding: (1 + 2^-23)² − (1 + 2^-22) is 2^-46 (R266). -/
theorem test_ffma_rounds_once : vOf (thr [(1, 0x3F800001), (2, 0x3F800001), (3, 0xBF800002)])
    (.ffma (op (rv 4) (rv 1) (rv 2) (rv 3) 0)) = [(4, 0x28800000)] := by decide +kernel
theorem test_fdiv_by_zero : vOf (thr [(1, 0xBF800000), (2, 0)]) (.fdiv (op (rv 3) (rv 1) (rv 2) .zero 0)) =
    [(3, 0xFF800000)] := by decide +kernel
theorem test_fsqrt : vOf (thr [(1, 0x40800000)]) (.fsqrt (op (rv 3) (rv 1) .zero .zero 0)) = [(3, 0x40000000)] := by decide +kernel
/-- The exact points of R271. -/
theorem test_fexp2_exact : vOf (thr [(1, 0x40400000)]) (.fexp2 (op (rv 3) (rv 1) .zero .zero 0)) = [(3, 0x41000000)] := by
  decide +kernel
theorem test_fclass_subnormal : vOf (thr [(1, 1)]) (.fclass (op (rv 3) (rv 1) .zero .zero 0)) = [(3, 32)] := by decide +kernel
/-- NaN is 0 and infinity the range's end (R276). -/
theorem test_f2i_corners : vOf (thr [(1, 0x7FC00000)]) (.f2i .i32 .f32 false (op (rv 3) (rv 1) .zero .zero 0)) = [(3, 0)] ∧
    vOf (thr [(1, 0x7F800000)]) (.f2i .i32 .f32 false (op (rv 3) (rv 1) .zero .zero 0)) = [(3, 0x7FFFFFFF)] := by decide +kernel
theorem test_dadd : vOf (thr [(2, 0), (3, 0x3FF00000), (4, 0), (5, 0x40000000)]) (.dadd (op (rv 6) (rv 2) (rv 4) .zero 0)) =
    [(6, 0), (7, 0x40080000)] := by decide +kernel
/-- R87 at the ends of a format: the largest E4M3 and the least subnormal E2M1. -/
theorem test_values : elemValue .e4m3 0x7E = .fin false 448 1 ∧ (elemValue .e4m3 0x7F) = .nan := by decide +kernel

/-! ## Register instructions: the hypotheses of their statements -/

/-- V1 lands in cycle 9, and the launch checks stall counts. -/
def shortRead : State :=
  let s := world (thr [(1, 5)])
  { s with
    launches := [(0, { launch0 with env := { launch0.env with flags := 2 } })]
    cores := s.cores.map fun p => (p.1, { p.2 with
      landings := [{ due := 9, land := 9, eff := 5, tag := 1, slot := 0, lane := 0, op := .v 1 (BitVec.ofNat 32 0) 7 }] }) }

/-- LevelTraps: active lanes with a cause, and an inactive one. RegisterFrame: an instruction of its kind. -/
theorem witness_LevelTraps :
    let i := Instr.iadd (op (rv 3) (.c 2) (rv 1) .zero 0)
    let x := (world (thr [(1, 5)])).issueOf i
    let y := (world (thr [(1, 5)])).issueOf (.iadd { op (rv 3) (rv 1) (rv 1) .zero 0 with pred := 0 })
    i.registerOnly = true ∧ x.lanes.Nodup ∧ 0 ∈ x.actives ∧
    (x.levelFault 0 (readFields x.sh x.f) i.held).map (·.1) = some 3 ∧
    (let z := shortRead.issueOf (.iadd (op (rv 3) (rv 1) (rv 1) .zero 0))
     z.lanes.Nodup ∧ 0 ∈ z.actives ∧ (z.levelFault 0 (readFields z.sh z.f)).map (·.1) = some 4) ∧
    (y.lanes = [0] ∧ y.active 0 = false) ∧ (.plop 0 (op (.p 1 false) (.p 0 false) (.p 0 false) (.p 0 false) 0) : Instr).registerOnly = true := by
  decide +kernel

/-- An invalid slot raises OPND_LEVEL: without a handler the lane stops (R446). -/
theorem test_level_trap_stops : (match exec (.iadd (op (rv 3) (.c 2) (rv 1) .zero 0)) (world (thr [(1, 5)])) with
    | .next t => (t.threadAt 0 0 0).map (·.stopped)
    | _ => none) = some true := by decide +kernel

/-- The statements of register instructions: a lane that counts, and none under a false predicate. -/
theorem witness_register_lanes :
    let i := Instr.iadd (op (rv 7) (rv 8) (.c 2) .zero 6)
    let s := world (thr [(8, 5)] [(2, 9)])
    ((s.issueOf i).inputs .half .half .half []).map (fun a => (a.lane, a.a, a.b)) = [(0, 5, 9)] ∧
    ((s.issueOf (.sread .lane (op (rv 7) .zero .zero .zero 0))).inputs .int .int .int []).length = 1 ∧
    (Instr.sread .lane (op (rv 7) .zero .zero .zero 0)).registerOnly = true := by decide +kernel

/-- MOVHI on a V and on a G register. -/
theorem witness_CompareAndMove :
    let i := Instr.movhi ⟨0, 7, false, none, rv 2, 9⟩
    let j := Instr.movhi ⟨0, 7, false, none, rg 2, 9⟩
    ((world (thr [])).issueOf i).actives = [0] ∧ ((world (thr [])).issueOf j).actives = [0] ∧
    ((world (thr [])).issueOf i).raw.landings = [] := by decide +kernel

/-- Each clause of the exact points of R271: an integer at both ends of its range, beyond them, 0, halves, and 9. -/
theorem witness_BoundedFunctions : (Value.fin true 149 1).rat = some (-149) ∧ (Value.fin false 127 1).rat = some 127 ∧
    (Value.fin false 128 1).rat = some 128 ∧ (Value.fin true 301 2).rat = some (-301 / 2) ∧
    (Value.fin false 0 1).rat = some 0 ∧ (Value.fin true 1 2).rat = some (-1 / 2) ∧ (Value.fin true 9 1).rat = some (-9) ∧
    (Value.fin false 1 2).wf := by
  refine ⟨?_, ?_, ?_, ?_, ?_, ?_, ?_, ?_⟩ <;> norm_num [Value.rat, Value.wf]

/-- A code with an exponent, one without, and special ones, at the ends of their ranges. -/
theorem witness_FloatValues : elemValue .f32 0x7F7FFFFF ≠ .nan ∧ elemValue .f32 1 = .fin false 1 (2 ^ 149) ∧
    elemValue .f32 0x7F800000 = .inf false ∧ elemValue .e4m3 0x78 = .fin false 256 1 ∧ elemValue .e2m1 0xF = .fin true 6 1 := by
  decide +kernel

/-- Formats and values of Rounding's clauses. -/
theorem witness_Rounding : (fltOf .f32).isSome = true ∧ (fltOf .f64).isSome = true ∧ (fltOf .e2m1).isSome = true ∧
    (Value.fin false 1 3).wf ∧ (Value.fin true 0 1).wf ∧ (Value.fin true 0 1).rat = some 0 := by
  refine ⟨by decide, by decide, by decide, ?_, ?_, ?_⟩ <;> norm_num [Value.wf, Value.rat]

/-! ## Control -/

/-- The address and the next issue of lane 0 after an instruction. -/
def goes (s : State) (i : Instr) : Option (Nat × Nat) :=
  match exec i s with
  | .next t => (t.threadAt 0 0 0).map fun u => (u.pc.toNat, u.next)
  | _ => none

/-- R200, R201: a branch at 0x1000 by −16 halfwords, and one that falls through. -/
theorem test_bra : (goes (world (thr [])) (.bra ⟨0, 7, false, none, .zero, 0xFFFFFFF0⟩)).map (·.1) = some 0xFE0 ∧
    (goes (world (thr [])) (.bra ⟨0, 0, false, none, .zero, 0xFFFFFFF0⟩)).map (·.1) = some 0x1008 := by decide +kernel
/-- R208: the counter falls to 0 and the loop ends; else it goes on. -/
theorem test_brdec : (goes (world (thr [(1, 1)])) (.brdec 0x3FFF0 (op (rv 1) .zero .zero .zero 0))).map (·.1) = some 0x1008 ∧
    (goes (world (thr [(1, 2)])) (.brdec 0x3FFF0 (op (rv 1) .zero .zero .zero 0))).map (·.1) = some 0xFE0 := by decide +kernel

def handled (u : Thread) : State :=
  let s := world u
  { s with launches := [(0, { launch0 with handler := some 0x2000 })] }

/-- TRAP enters the handler with its code, and TRAPPC past itself (R447). -/
theorem test_trap : (match exec (.trap 5 (op .zero .zero .zero .zero 0)) (handled (thr [])) with
    | .next t => (t.threadAt 0 0 0).map fun u => (u.trapcause.toNat, u.trapaddr.toNat, u.trappc.toNat, u.pc.toNat, u.handler)
    | _ => none) = some (11, 5, 0x1008, 0x2000, true) := by decide +kernel
theorem test_bkpt : (match exec (.bkpt 5 (op .zero .zero .zero .zero 0)) (handled (thr [])) with
    | .next t => (t.threadAt 0 0 0).map fun u => (u.trapcause.toNat, u.trappc.toNat)
    | _ => none) = some (10, 0x1000) := by decide +kernel
/-- TRET leaves the handler (R448). -/
theorem test_tret : (goes (handled { thr [] with handler := true, trappc := 0x1234 }) (.tret (op .zero .zero .zero .zero 0))).map (·.1) =
    some 0x1234 := by decide +kernel

/-- Transfers: a taken branch, an odd target, a level trap, a loop that goes on, TRAP and BKPT, TRET within and without the
handler and to an odd address, YIELD with and without an active lane. -/
theorem witness_Transfers :
    let f := op (rv 1) (rv 2) .zero .zero 0
    let s := world (thr [(1, 2), (2, 0x2001), (3, 0)])
    let x := s.issueOf (.brx f)
    (x.actives = [0] ∧ x.levelFault 0 (readFields x.sh x.f) = none ∧ x.value 0 (rv 2) 2 .int = 0x2001) ∧
    ((s.issueOf (.trap 0 f)).lanes.Nodup ∧ (s.issueOf (.yield f)).actives = [0]) ∧
    (s.issueOf (.yield { f with pred := 0 })).actives = [] ∧
    ((handled { thr [] with handler := true, trappc := 0x1235 }).issueOf (.tret f)).raw.threadAt 0 0 ≠ none := by decide +kernel

/-! ## Memory -/

/-- Bytes of memory, in address order. -/
def mem (a : Nat) (l : List Nat) : Tab Byte :=
  (l.zipIdx.map fun p => (a + p.2, BitVec.ofNat 8 p.1)).filter fun p => p.2 != 0

/-- The small machine with memory: page 2 of its addresses is frame 7 (0x70000). -/
def withMem (u : Thread) (m : Tab Byte) : State := { world u with mem := m }

/-- The words on their way from memory or a unit: register and words. -/
def rOf (s : State) (i : Instr) : List (Nat × List Nat) :=
  match exec i s with
  | .next t => (t.core 0).vres.map fun v => (v.reg, v.vals.map (·.toNat))
  | _ => []

def base : List (Nat × Nat) := [(2, 0x20040), (3, 0), (5, 0xCAFE)]

/-- Little-endian (R2), and sign-extended (R332). -/
theorem test_ld : rOf (withMem (thr base) (mem 0x70040 [0x01, 0x80, 0xFF, 0x12])) (.ld (op (rv 6) (rv 2) .zero .zero 0)) =
    [(6, [0x12FF8001])] ∧
    rOf (withMem (thr base) (mem 0x70040 [0x01, 0x80])) (.ld (op (rv 6) (rv 2) .zero .zero 10)) = [(6, [0xFFFF8001])] := by
  decide +kernel

/-- A store is seen by its own core and by no other reader (R371, R374). -/
theorem test_st : (match exec (.st (op (rv 5) (rv 2) .zero .zero 0)) (world (thr base)) with
    | .next t => (t.viewByte (.core 0) 0x70040, t.viewByte (.core 0) 0x70041, t.viewByte .merged 0x70040)
    | _ => (0, 0, 0)) = (0xFE, 0xCA, 0) := by decide +kernel

/-- A misaligned address traps before anything else (R325), and one beyond the leases is LEASE_OUT (R323). -/
theorem test_ld_faults : (match exec (.ld (op (rv 6) (rv 2) .zero .zero 0)) (handled (thr [(2, 0x20041), (3, 0)])) with
    | .next t => (t.threadAt 0 0 0).map fun u => u.trapcause.toNat
    | _ => none) = some 5 ∧
    (match exec (.ld (op (rv 6) (rv 2) .zero .zero 0)) (world (thr [(2, 0x200000), (3, 0)])) with
    | .next t => (t.threadAt 0 0 0).map (·.stopped)
    | _ => none) = some true := by decide +kernel

/-- The physical address that lane 0's access comes to. -/
def placeOf (s : State) (va : Nat) (n : Need) : Option Nat :=
  match s.resolveLane 0 0 0 va n with
  | .ok (.mem pa, _) => some pa
  | _ => none

/-- No hub moves a frame. -/
theorem hub_still {s : State} (h : s.hubs.all (fun p => p.2.forwards.isEmpty) = true) (k : Nat) : (s.hub k).forwards = [] := by
  unfold State.hub
  generalize s.hubs = m at h
  induction m with
  | nil => rfl
  | cons a r ih =>
    simp only [List.all_cons, Bool.and_eq_true, List.isEmpty_iff] at h
    simp only [Tab.get, Tab.find] at ih ⊢
    split
    · exact h.1
    · split
      · rfl
      · exact ih h.2

/-- A place whose writes have a place. -/
theorem clears_of {s : State} {a q : Nat} (h : s.routeWrite a = .at_ q) : s.clears a := by
  intro k hk; rw [h] at hk; cases hk

/-- A line of no translation table. -/
theorem no_table {s : State} {part : Nat} {z : Xlat} {a : Nat}
    (h : (a / 128 != s.routeRead z.onePa / 128 && a / 128 != s.routeRead z.two.pteAddr / 128 && z.path.all fun g =>
      match s.walkG part g z.small with | .ok p => a / 128 != s.routeRead p.pteAddr / 128 | .error _ => true) = true) :
    ¬s.tableLine part z a := by
  simp only [Bool.and_eq_true, bne_iff_ne, ne_eq, List.all_eq_true] at h
  rintro (e | e | ⟨g, hg, p, hp, e⟩)
  · exact h.1.1 e
  · exact h.1.2 e
  · have := h.2 g hg
    simp [hp] at this
    exact this e

/-- GlobalLoads and GlobalStores: one lane that is alone, on a place that nothing holds, at both ends of the page. -/
theorem witness_GlobalLoads :
    let s := withMem (thr base) (mem 0x70040 [1])
    let x := s.issueOf (.ld (op (rv 6) (rv 2) .zero .zero 0))
    s.memOk = true ∧ x.alone 0 ∧ placeOf s 0x20000 Need.read = some 0x70000 ∧ placeOf s 0x2FFFC Need.read = some 0x7FFFC ∧
    s.lets 0 0x70000 := by
  refine ⟨by decide +kernel, ⟨by decide +kernel, by decide +kernel⟩, by decide +kernel, by decide +kernel, by decide +kernel, ?_⟩
  intro h hh; cases hh

/-- A line that the core's L1 holds serves the load. -/
theorem test_ld_from_l1 :
    let s := world (thr base)
    rOf { s with cores := s.cores.map fun p => (p.1, { p.2 with
      l1 := [{ line := 0xE00, key := 0, filled := 0, order := 0, used := 0, bytes := List.replicate 128 7, src := [] }] }) }
      (.ld (op (rv 6) (rv 2) .zero .zero 0)) = [(6, [0x07070707])] := by decide +kernel

/-- A store to an enabled descriptor is dropped unless it clears ENABLE (R111). -/
theorem test_dropped_store :
    let s := withMem (thr base) (mem 0x7000B [1])
    let s := { s with parts := [(0, { Part.reset with clmask := 1, queues := [0x70000] })] }
    s.dropsStore 0x70008 [0, 0, 0, 1] = true ∧ s.dropsStore 0x70008 [0, 0, 0, 0] = false := by decide +kernel

theorem witness_GlobalStores :
    let s := world (thr base)
    let x := s.issueOf (.st (op (rv 5) (rv 2) .zero .zero 0))
    x.alone 0 ∧ placeOf s 0x20040 Need.write = some 0x70040 ∧ s.lets 0 0x70040 ∧ s.routeWrite 0x70040 = .at_ 0x70040 ∧
    s.dropsStore 0x70040 [0xFE, 0xCA, 0, 0] = false ∧ (s.core 0).side.isSome = true ∧ s.stagingFull 0 0x70040 = false ∧
    s.takesStore 0 0x70040 := by
  refine ⟨⟨by decide +kernel, by decide +kernel⟩, by decide +kernel, ⟨by decide +kernel, ?_⟩, by decide +kernel,
    by decide +kernel, by decide +kernel, by decide +kernel, .inr (by decide +kernel)⟩
  intro h hh; cases hh

/-- Addition at the home slice, the old value returned (R401). -/
theorem test_atom_add : rOf (withMem (thr base) (mem 0x70040 [9])) (.atom .add .i32 (op (rv 6) (rv 2) (rv 5) .zero 0)) =
    [(6, [9])] ∧
    (match exec (.atom .add .i32 (op (rv 6) (rv 2) (rv 5) .zero 0)) (withMem (thr base) (mem 0x70040 [9])) with
    | .next t => (t.viewByte .merged 0x70040, t.viewByte .merged 0x70041)
    | _ => (0, 0)) = (0x07, 0xCB) := by decide +kernel
/-- LAST: the arrival that completes the count receives 1 and clears it (R410). -/
theorem test_last : rOf (withMem (thr [(2, 0x20040), (3, 0), (4, 10)]) (mem 0x70040 [9])) (.last (op (rv 6) (rv 2) (rv 4) .zero 0)) = [(6, [1])] ∧
    rOf (withMem (thr [(2, 0x20040), (3, 0), (4, 11)]) (mem 0x70040 [9])) (.last (op (rv 6) (rv 2) (rv 4) .zero 0)) = [(6, [0])] := by decide +kernel
theorem test_acas : rOf (withMem (thr [(2, 0x20040), (3, 0), (4, 9), (5, 77)]) (mem 0x70040 [9]))
    (.acas .i32 (op (rv 6) (rv 2) (rv 4) .zero 0)) = [(6, [9])] := by decide +kernel

theorem witness_GlobalAtomics :
    let s := withMem (thr base) (mem 0x70040 [9])
    let x := s.issueOf (.atom .add .i32 (op (rv 6) (rv 2) (rv 5) .zero 0x18))
    s.memOk = true ∧ x.alone 0 ∧ placeOf s 0x20040 Need.both = some 0x70040 ∧ s.routeWrite 0x70040 = .at_ 0x70040 ∧
    s.poisoned 0x70040 4 = false ∧ (s.core 0).side.isSome = true := by
  refine ⟨by decide +kernel, ⟨by decide +kernel, by decide +kernel⟩, ?_⟩
  decide +kernel

/-- AccessChecks: each answer is met: not canonical, not leased, kept and allowed, and no translation. -/
theorem witness_AccessChecks :
    let s := world (thr base)
    s.memOk = true ∧ (0x0200000000000000#64).extractLsb' 57 7 ≠ 0 ∧ placeOf s (2 ^ 63) Need.read = none ∧
    placeOf s 0x100000 Need.read = none ∧ placeOf s 0x20000 Need.both = some 0x70000 ∧ placeOf s 0x30000 Need.read = none := by
  decide +kernel

/-- HeldAccesses: a page of another package, an earlier access to the line, a line that is being copied. -/
def access : Held :=
  { id := 5, cause := 0, replays := 0, win := none, core := 0, slot := 0, lane := 0, thread := 0, launch := 0, pc := 0x1000
    va := 0x20040, pa := 0x70040, first := true, miss := true, size := 4, dst := rv 6, regs := 1, tag := 1, scope := 0, acq := true
    op := .atom .add .i32 1 }

def forwarding : State :=
  let s := world (thr base)
  { s with hubs := [(0, { Hub.reset with forwards := [{ id := 1, frm := 7, into := 8, progress := 0, part := 0, asked := none }] })] }

theorem witness_HeldAccesses : (world (thr base)).needsHandover (2 ^ 51) = true ∧ (world (thr base)).needsHandover 0x70040 = false ∧
    forwarding.routeWrite 0x70040 = .stall 0 ∧ access.op.isLoad = false ∧
    ({ world (thr base) with held := [{ access with id := 0 }] } : State).held.length = 1 := by decide +kernel

/-! ## The scratchpad and the caches -/

theorem test_sts_lds :
    let s := world (thr [(1, 0x100), (5, 0xCAFE)])
    (match exec (.sts (op (rv 5) (rv 1) .zero .zero 0)) s with
    | .next t => (t.sramByte 0 (32 * 16384 + 0x100), t.sramByte 0 (32 * 16384 + 0x101))
    | _ => (0, 0)) = (0xFE, 0xCA) ∧ rOf s (.lds (op (rv 6) (rv 1) .zero .zero 0)) = [(6, [0])] := by decide +kernel

/-- ScratchAccesses: the last word of the scratchpad fits and the next does not; a cluster word of another core meets no
team. -/
theorem witness_ScratchAccesses :
    let s := world (thr [(1, 0x3FFFC), (5, 0xCAFE)])
    let x := s.issueOf (.lds (op (rv 6) (rv 1) .zero .zero 0))
    x.alone 0 ∧ s.scratchFits 0 false 0x3FFFC 4 = true ∧ s.scratchFits 0 false 0x40000 4 = false ∧
    s.scratchFits 0 true (2 ^ 24) 4 = true ∧ s.scratchFits 0 true (2 ^ 20) 4 = false ∧ s.reaches 0 1 = false ∧ (s.core 0).sramOk = true := by
  refine ⟨⟨by decide +kernel, by decide +kernel⟩, ?_⟩
  decide +kernel

theorem witness_CacheControl :
    let s := world (thr base)
    (s.issueOf (.pref (op .zero (rv 2) .zero .zero 0))).alone 0 ∧ (s.issueOf (.cctlWb (op .zero (rv 2) .zero .zero 3))).alone 0 ∧
    (s.issueOf (.icinv (op .zero (rv 2) .zero .zero 1))).alone 0 ∧ (s.issueOf (.ifence (op .zero .zero .zero .zero 0))).alone 0 ∧
    s.poisoned 0x70000 128 = false ∧ (s.core 0).l1Granules ≠ 0 := by
  refine ⟨⟨by decide +kernel, by decide +kernel⟩, ⟨by decide +kernel, by decide +kernel⟩, ⟨by decide +kernel, by decide +kernel⟩,
    ⟨by decide +kernel, by decide +kernel⟩, by decide +kernel, by decide +kernel⟩

/-- Phases: a thread with a staged store publishes it. -/
theorem witness_Phases :
    let s := match exec (.st (op (rv 5) (rv 2) .zero .zero 0)) (world (thr base)) with | .next t => t | _ => State.reset
    (s.issueOf (.phasePub (op .zero .zero .zero .zero 3))).alone 0 ∧ (s.staged.any fun w => w.inPhase 0 0 0) = true := by
  refine ⟨⟨by decide +kernel, by decide +kernel⟩, by decide +kernel⟩

/-! ## What waits: barriers, rounds, conditions, queues -/

/-- The event of a row has come due, whichever it is: the first hypothesis of every statement about one. -/
theorem witness_event (s : State) (e : Event) : (due s e).event = e := rfl

/-- Lane 0 with an instruction under way at 0xFF8. -/
def await0 : Await := { e := 5, stall := 0, pc := 0xFF8, npc := 0x1000, dead := [], block := true }
def waiting (w : Wait) : Thread := { thr base with wait := w, await := some await0 }

/-- A field of the next state, or what a stop would give. -/
def after {α : Type} (s : State) (i : Instr) (f : State → α) : Option α :=
  match exec i s with
  | .next t => some (f t)
  | _ => none

/-- The only arrival of a phase of one completes it (R413). -/
theorem test_barrier_completes : after (due (world (waiting .answer)) (.barrierArrival 0 0 0 3 1 .sync)) .barrierArrival
    (fun t => (t.findTeam 0 0).map fun T => ((T.barriers.get Barrier.zero 3).gen, (T.barriers.get Barrier.zero 3).arr)) =
    some (some (1, 0)) := by decide +kernel
/-- The first of two only counts. -/
theorem test_barrier_counts : after (due (world (waiting .answer)) (.barrierArrival 0 0 0 3 2 .sync)) .barrierArrival
    (fun t => (t.findTeam 0 0).map fun T => ((T.barriers.get Barrier.zero 3).gen, (T.barriers.get Barrier.zero 3).arr)) =
    some (some (0, 1)) := by decide +kernel

/-- Barriers: an arrival, one of a thread that is pending, and a wait of a phase that has ended. -/
theorem witness_Barriers :
    let s := world (waiting .answer)
    let T := { team0 with barriers := [(3, { gen := 0, arr := 1, n := 2, pend := [(0, 0)] })] }
    let p := { world (waiting (.barrier 3 5)) with teams := [T] }
    (s.coreTeam 0 = some team0 ∧ (s.threadAt 0 0 0).map (·.await) = some (some await0)) ∧
    (p.coreTeam 0 = some T ∧ ((T.barriers.get Barrier.zero 3).pend.find 0).isSome = true ∧
      (p.threadAt 0 0 0).map (·.wait) = some (.barrier 3 5)) ∧
    (let x := (world (thr base)).issueOf (.barSync (op .zero (.bar 3) (.imm 17) .zero 0))
     x.f.a = .bar 3 ∧ x.okLanes [] = [0]) := by decide +kernel

def rounded (signed : List Nat) : Team :=
  { team0 with convs := [(2, { decl := .mask, set := [0, 1], use := .csign, signed := signed, round := 9, dsts := [] })] }

/-- The signature that completes a set ends the round (R418). -/
theorem test_sign_completes : after (due { world (waiting .answer) with teams := [rounded [1]] } (.signatureArrival 0 0 0 2 false))
    .signatureArrival (fun t => (t.findTeam 0 0).map fun T => ((T.convs.get Conv.zero 2).signed, (T.convs.get Conv.zero 2).round)) =
    some (some ([], 10)) := by decide +kernel

theorem witness_Convergence :
    let s := { world (waiting .answer) with teams := [rounded []] }
    let x := (world (thr [(2, 1), (3, 0)])).issueOf (.cdecl (op .zero (.k 2) (rv 2) .zero 0))
    (s.coreTeam 0 = some (rounded []) ∧ (s.threadAt 0 0 0).map (·.await) = some (some await0)) ∧
    (0 ∈ ((rounded []).convs.get Conv.zero 2).set ∧ 0 ∉ ((rounded []).convs.get Conv.zero 2).signed) ∧
    (0 ∈ ((rounded [0]).convs.get Conv.zero 2).signed) ∧ [0, 1].Nodup ∧
    (x.f.a = .k 2 ∧ (x.okLanes []).head? = some 0 ∧ ((world (thr base)).teamOf 0).length < 2) := by decide +kernel

def cond (mon : Bool) : CondWait :=
  { core := 0, slot := 0, lane := 0, va := 0x20040, pa := 0x70040, rel := .eq, uns := true, w64 := false, value := 9
    tag := 1, scope := 2, peer := false, mon := mon, stamp := 4 }

/-- A condition that is met wakes its lane with OK; an unmet one stays (R406). -/
theorem test_monitor : after (due { withMem (waiting .cond) (mem 0x70040 [9]) with conds := [cond true] } (.monitorReevaluate 0xE00))
    .monitorReevaluate (fun t => (t.conds.length, (t.threadAt 0 0 0).map (·.wait))) = some (0, some .none) ∧
    after (due { withMem (waiting .cond) (mem 0x70040 [8]) with conds := [cond true] } (.monitorReevaluate 0xE00))
    .monitorReevaluate (fun t => (t.conds.length, (t.threadAt 0 0 0).map (·.wait))) = some (1, some .cond) := by decide +kernel

theorem witness_Waits :
    let s := { withMem (waiting .cond) (mem 0x70040 [9]) with conds := [cond true] }
    let p := { s with conds := [cond false] }
    let x := (withMem (thr base) []).issueOf (.waitc .eq true false (op (rv 6) (rv 2) (rv 5) .zero 0))
    s.memOk = true ∧ x.alone 0 ∧ s.conds.filter (fun c => c.mon && c.pa / 128 == 0xE00) = [cond true] ∧
    p.conds.filter (fun c => c.core == 0 && c.slot == 0 && !c.mon) = [cond false] ∧
    s.conds.find? (fun c => c.stamp == 4) = some (cond true) ∧ placeOf (withMem (thr base) []) 0x20040 Need.read = some 0x70040 ∧
    ((cond true).peer = false ∧ s.needsHandover 0x70040 = false ∧ s.poisoned (s.routeRead 0x70040) 4 = false ∧
      s.condMet (cond true) = true ∧ p.condMet (cond false) = true) ∧
    -- a first evaluation that holds
    (match (withMem (thr base) (mem 0x70040 [0xFE, 0xCA])).resolveLane 0 0 0 0x20040 Need.read with
      | .ok (.mem pa, s2) => pa == 0x70040 && s2.condMet { cond false with value := 0xCAFE } && !s2.needsHandover pa &&
          !s2.poisoned pa 4 && s2.conds.isEmpty
      | _ => false) = true := by
  refine ⟨by decide +kernel, ⟨by decide +kernel, by decide +kernel⟩, by decide +kernel, by decide +kernel, by decide +kernel,
    by decide +kernel, by decide +kernel, by decide +kernel⟩

/-- A physical memory that both stages map to itself: one leaf each of 256 TiB (R157). -/
def paged (u : Thread) (m : Tab Byte) : State :=
  let s := world u
  let datp : DWord := 0xA000000000000100
  { s with
    mem := m ++ [(0x100000, 0xDF), (0x104000, 0xDF)]
    launches := [(0, { launch0 with datp := datp })]
    parts := [(0, { Part.reset with clmask := 1, datp := datp, groot := 0xA000000000000104 })] }

/-- A descriptor at 0x70000 (R110): slots from 0x80000, two records, of a kind, HEAD 3 and a TAIL. -/
def queueAt (kind : Nat) (tail : Nat) (flags : Nat := 1) : Tab Byte :=
  mem 0x70000 ([0, 0, 8, 0, 0, 0, 0, 0, 1, kind, 0, flags, 0, 0, 0, 0] ++ [3, 0, 0, 0, 0, 0, 0, 0] ++ [tail])

/-- V2:V3 the descriptor, V4:V5 a line: pages 2 and 3 of a machine that maps page 2 to frame 7. -/
def enqueuer : Thread := thr [(2, 0x70000), (3, 0), (4, 0x50000), (5, 0), (7, 1)]

/-- Both pages leased and mapped to themselves. -/
def queued (u : Thread) (m : Tab Byte) : State := paged u m

/-- ENQ on a queue with room gives OK with the count; on a full one FULL (R116, R121). -/
theorem test_enq : rOf (queued enqueuer (queueAt 0 4)) (.enq (op (rv 6) (rv 2) (rv 4) .zero 0)) = [(6, [0x100 + 512 * 4])] ∧
    rOf (queued enqueuer (queueAt 0 5)) (.enq (op (rv 6) (rv 2) (rv 4) .zero 0)) = [(6, [0x101])] := by decide +kernel
/-- DEQ on an empty queue is EMPTY, and a queue that takes no DEQ is DENIED (R112, R116). -/
theorem test_deq : rOf (queued enqueuer (queueAt 0 3)) (.deq (op (rv 6) (rv 2) (rv 4) .zero 0)) = [(6, [0x102])] ∧
    rOf (queued enqueuer (queueAt 1 4)) (.deq (op (rv 6) (rv 2) (rv 4) .zero 0)) = [(6, [0x109])] := by decide +kernel

def parked (enq : Bool) : QueueWait :=
  { id := 8, who := .lane 0 0 0, enq := enq, q := 0x70000, qpa := 0x70000, line := 0x50000, linePa := 0x50000, sp := false
    scope := 2, tag := 1, wait := true, mon := true }

def ruleNo : QueueRule → Nat
  | .denied => 0
  | .blocked => 1
  | .unmapped _ => 2
  | .moves _ _ _ => 3
  | .later _ => 4

/-- Queues: a lane that is alone, every answer of R116, and a parked operation. -/
theorem witness_Queues :
    let s := queued enqueuer (queueAt 0 4)
    s.memOk = true ∧ (s.issueOf (.enq (op (rv 6) (rv 2) (rv 4) .zero 0))).alone 0 ∧
    (s.issueOf (.deq (op (rv 6) (rv 2) (rv 4) .zero 0))).alone 0 ∧
    ruleNo (s.rule116 (parked true)) = 3 ∧ ruleNo ((queued enqueuer (queueAt 0 5)).rule116 (parked true)) = 1 ∧
    ruleNo ((queued enqueuer (queueAt 2 4)).rule116 (parked true)) = 0 ∧
    ruleNo ((withMem enqueuer (queueAt 0 4)).rule116 (parked true)) = 2 ∧
    ({ s with queueWaits := [parked true] } : State).queueWaits.filter (fun w => w.mon && w.qpa == 0x70000) = [parked true] ∧
    placeOf s 0x70000 Need.both = some 0x70000 := by
  refine ⟨by decide +kernel, ⟨by decide +kernel, by decide +kernel⟩, ⟨by decide +kernel, by decide +kernel⟩, ?_⟩
  decide +kernel

/-- An operation moves a record, and none of its places is a table's or under a move. -/
def movesTo (s : State) (w : QueueWait) (count va pa : Nat) : Bool :=
  match s.rule116 w with
  | .moves c v z => c == count && v == va && z.pa == pa && [w.qpa, z.pa, w.linePa].all fun a =>
      (match s.routeWrite a with | .at_ _ => true | _ => false) &&
      let b := s.routeRead a
      (b / 128 != s.routeRead z.onePa / 128 && b / 128 != s.routeRead z.two.pteAddr / 128 && z.path.all fun g =>
        match s.walkG z.part g z.small with | .ok p => b / 128 != s.routeRead p.pteAddr / 128 | .error _ => true)
  | _ => false

theorem moves_of {s : State} {w : QueueWait} {count va pa : Nat} (h : movesTo s w count va pa = true) (hh : s.held = []) :
    ∃ z, s.rule116 w = .moves count va z ∧ s.mayMove w z ∧ z.pa = pa := by
  unfold movesTo at h
  split at h
  · rename_i c v z hr
    simp only [Bool.and_eq_true, beq_iff_eq] at h
    obtain ⟨⟨⟨rfl, rfl⟩, rfl⟩, hp⟩ := h
    refine ⟨z, hr, ⟨fun a ha => ?_, fun _ _ _ _ g hg => by rw [hh] at hg; cases hg⟩, rfl⟩
    have hm : a ∈ [w.qpa, z.pa, w.linePa] := by rcases ha with rfl | rfl | ⟨-, rfl⟩ <;> simp
    have := List.all_eq_true.mp hp a hm
    simp only [Bool.and_eq_true] at this
    refine ⟨?_, no_table (by simpa using this.2)⟩
    split at this
    · rename_i q hq; exact clears_of hq
    · cases this.1
  · cases h

/-- Queues: an insertion whose queue has room, as one parks it and as it is performed. -/
theorem witness_Queues_moves :
    let s := queued enqueuer (queueAt 0 4)
    let d := queued enqueuer (queueAt 0 4 ++ mem 0x80180 [7])
    ∃ z y, s.rule116 (parked true) = .moves 4 0x80000 z ∧ s.mayMove (parked true) z ∧ s.record (parked true) ≠ none ∧
      d.rule116 (parked false) = .moves 3 0x80080 y ∧ d.mayMove (parked false) y ∧ d.poisoned y.pa 128 = false ∧
      ({ s with queueWaits := [parked true] } : State).queueWaits.find? (fun w => w.id == 8) = some (parked true) ∧
      canonical 0x70000 = true ∧ canonical 0x50000 = true ∧ (s.launch 0).leased 7 Need.both = true ∧
      (s.launch 0).leased 5 Need.write = true := by
  obtain ⟨z, h1, h2, h3⟩ := moves_of (s := queued enqueuer (queueAt 0 4)) (w := parked true) (count := 4) (va := 0x80000)
    (pa := 0x80000) (by decide +kernel) rfl
  obtain ⟨y, h4, h5, h6⟩ := moves_of (s := queued enqueuer (queueAt 0 4 ++ mem 0x80180 [7])) (w := parked false) (count := 3)
    (va := 0x80080) (pa := 0x80080) (by decide +kernel) rfl
  refine ⟨z, y, h1, h2, by decide +kernel, h4, h5, ?_, by decide +kernel⟩
  rw [h6]; decide +kernel

/-- HartsAndHosts: a hart at a queue instruction, and a host window whose slot HSEQ is examined. -/
def hosted : State :=
  { paged (thr base) (queueAt 1 4 3) with hubs := [(0, { Hub.reset with hostq := [(0, 0x70000)] })], turn := .hart 2 }

theorem witness_HartsAndHosts : hosted.memOk = true ∧ hosted.turn = .hart 2 ∧
    (hosted.hostDesc 0 0).map (fun p => (p.1, p.2.slots, p.2.held)) = some (0x70000, 2, 1) ∧
    (hosted.slotBytes (hosted.qdesc .merged 0x70000) 0).isSome = true ∧ (hosted.hub 0).pendingSlot.find 0 = none ∧
    (∀ h, (hosted.hub h).forwards = []) ∧ (({ hosted with hubs := [(0, { Hub.reset with hostq := [(0, 0x70000)], pendingSlot := [(0, 0)] })] } : State).hub 0).pendingSlot.find 0 = some 0 ∧
    (hosted.reserve 0 0x70000).isSome = false :=
  ⟨by decide +kernel, by decide +kernel, by decide +kernel, by decide +kernel, by decide +kernel, hub_still (by decide +kernel), by decide +kernel,
    by decide +kernel⟩

/-- A misaligned descriptor is an exception of the hart (R122). -/
theorem test_hart_misaligned :
    let s := { hosted with harts := [(2, { Hart.reset with x := [(11, 0x70004), (12, 0x50000)], tvec := 0x400, pc := 0x80 })] }
    after s (.lnlEnq 4 true 12 11 10) (fun t => ((t.hart 2).cause, (t.hart 2).pc, (t.hart 2).epc, (t.hart 2).tval)) =
      some (6, 0x400, 0x80, 0x70004) := by decide +kernel

/-! ## Placement -/

def placed : State :=
  let s := paged (thr [(2, 0x70000), (3, 0), (4, 1), (5, 1)]) []
  { s with
    places := [(7, { Place.zero with assigned := true, ptepa := 0x104000 })]
    parts := s.parts.map fun p => (p.1, { p.2 with qpin := ⟨0, 4⟩, qhbm := ⟨1, 4⟩ }) }

/-- PIN of a frame where it lies sets PIN and counts it (R187). -/
theorem test_pin : rOf placed (.pin (op (rv 6) (rv 2) (rv 4) (rv 5) 0)) = [(6, [0x100])] ∧
    after placed (.pin (op (rv 6) (rv 2) (rv 4) (rv 5) 0)) (fun t => ((t.place 7).pin, (t.part 0).qpin.used)) = some (true, 1) := by
  decide +kernel
/-- A range that is not whole pages is MALFORMED. -/
theorem test_pin_malformed : rOf (paged (thr [(2, 0x70080), (3, 0), (4, 1), (5, 1)]) []) (.pin (op (rv 6) (rv 2) (rv 4) (rv 5) 0)) =
    [(6, [0x10A])] := by decide +kernel

theorem witness_PlacementRequests :
    let x := placed.issueOf (.pin (op (rv 6) (rv 2) (rv 4) (rv 5) 0))
    x.alone 0 ∧ (placed.core 0).side.isSome = true ∧ (x.raw.threadAt 0 0).isSome = true ∧ placed.pinOps = [] ∧
    (match placed.rule187 0 0x70000 1 1 false with | .pins [7] [] => true | _ => false) = true ∧
    (match placed.rule187 0 0x70000 0 1 false with | .ends 0x10A => true | _ => false) = true ∧
    (match placed.rule187 0 0x70000 4096 1 false with | .ends 0x109 => true | _ => false) = true ∧
    (match placed.rule187 0 0x70000 1 1 true with | .unpins [7] => true | _ => false) = true ∧
    (match placed.rule187 0 0x70000 1 2 false with | .ends 0x403 => true | .ends 0x503 => true | _ => false) = true := by
  refine ⟨⟨by decide +kernel, by decide +kernel⟩, ?_⟩
  decide +kernel

def pinWait (left : Option (List Nat)) : PinOp :=
  { id := 9, hub := 0, kind := .pin, part := 0, datp := 0, leases := [], launch := 0, team := 0, thread := 0, dst := none, tag := 3
    va := 0x70000, count := 1, target := 0, lag := 0, left := left, moved := 0 }

/-- Behind an operation whose frames are still being moved, another one waits (R187). -/
theorem test_pin_waits :
    after { placed with pinOps := [pinWait (some [8])] } (.pin (op (rv 6) (rv 2) (rv 4) (rv 5) 0))
      (fun t => ((t.place 7).pin, t.pinOps.map (·.left))) = some (false, [some [8], none]) := by decide +kernel

theorem witness_PlacementRequests_waits :
    let s : State := { placed with pinOps := [pinWait (some [8])] }
    s.pinOps.find? (fun o => o.hub == hubOfCore 0) = some (pinWait (some [8])) ∧ (pinWait (some [8])).left ≠ none ∧
    (pinWait (some [8])).kind ≠ .hint ∧ ∀ o ∈ ({ placed with pinOps := [{ pinWait none with hub := 1 }] } : State).pinOps, o.hub ≠ hubOfCore 0 := by
  decide +kernel

/-- A frame of HBM that its partition wants in LP, and a free frame there. -/
def wanted : State :=
  { placed with
    places := [(7, { Place.zero with assigned := true, ptepa := 0x104000, ptier := 2, phub := 3 })]
    parts := placed.parts.map fun p => (p.1, { p.2 with qlp := ⟨0, 4⟩ }) }

def moving : State :=
  { placed with hubs := [(0, { Hub.reset with forwards := [{ id := 1, frm := 7, into := 2, progress := 511, part := 0, asked := none }] })] }

def invalidating : State :=
  { placed with parts := placed.parts.map fun p => (p.1, { p.2 with
      ivq := [{ number := 0, req := 0, asid := 0, acted := true, move := none }], ivIssued := 1 }) }

/-- Moves: a request, one that ends, a frame to be moved, a copy at its last line, and a move that ends. -/
theorem witness_Moves :
    ((invalidating.part 0).ivq.length = 1 ∧ (invalidating.part 0).ivq.all (fun r => r.move.isNone) = true) ∧
    (frameTier 7 = some (.hbm, 0) ∧ (wanted.places.sorted && heatHub 7 == 0) = true ∧ (wanted.hub 0).forwards.length < 8 ∧
      (wanted.freeFrame (wanted.tierRange 0 .lp 0)).isSome = true ∧ wanted.quotaRoom 0 .lp 1 = true) ∧
    (moving.forwardOf 7 = some (0, { id := 1, frm := 7, into := 2, progress := 511, part := 0, asked := none }) ∧
      moving.forwardOf 2 = none ∧ moving.staged = [] ∧ (moving.place 7).ptepa.toNat / 65536 ≠ 2 ∧
      (moving.place 7).ptepa.toNat % 8 = 0 ∧ moving.held = [] ∧ moving.memOk = true ∧ moving.pinOps = [] ∧
      (moving.hub 0).moves = []) := by decide +kernel

/-- Moves: a request that has acted and whose accesses are done, one that has not acted, and a preferred place. -/
theorem witness_Moves_more :
    let r : InvReq := { number := 0, req := 0, asid := 0, acted := false, move := none }
    let s : State := { invalidating with parts := invalidating.parts.map fun p => (p.1, { p.2 with ivq := [r] }) }
    ((s.part 0).ivq = [r] ∧ r.acted = false ∧ r.move = none ∧ s.held = [] ∧ (s.places.all fun p => !p.2.migr) = true ∧
      (s.part 0).deferred = [] ∧ (s.cores.all fun p => p.2.jobs.isEmpty) = true) ∧
    (wanted.places.length = 1 ∧ (wanted.places.all fun p => p.2.assigned && p.2.ptepa != 0 && !p.2.pin && !p.2.migr && !p.2.scrub &&
      !p.2.passed && p.2.ptier == 2 && p.2.phub == 3) = true) ∧
    (({ Hub.reset with late := [7] } : Hub).late.all fun f => heatHub f == 0) = true ∧ moving.routeWrite 0x104000 = .at_ 0x104000 := by
  decide +kernel

/-- A line that is copied reads as before through the entry (R174). -/
theorem test_line_copy : after (due { moving with mem := mem 0x7FF80 [5] } (.migrationLineCopy 0 1)) .migrationLineCopy
    (fun t => (t.viewByte .merged 0x7FF80, ((t.hub 0).forwards.map (·.progress)))) = some (5, [512]) := by decide +kernel

/-- Frames: a scrub without a record queue, a handover at once and one that waits, held accesses that are tried again. -/
theorem witness_Frames :
    placed.memOk = true ∧ placed.scrubq = 0 ∧ placed.routeRead 0 / 65536 ≠ 7 ∧
    placed.owners.find 3 = none ∧ ({ placed with owners := [(3, 1)], ownerSince := [(3, 0)] } : State).now < 8192 ∧
    ({ placed with held := [access] } : State).held.find? (fun g => g.id == access.id) = some access ∧ access.win = none ∧
    (placed.place 7).migr = false := by decide +kernel

/-- Frames: a record queue with room and a full one, outside the frame that is scrubbed; an access that waits for a window, one
that is kept back, one that is free. -/
theorem witness_Frames_more :
    let q := fun (tail : Nat) => { queued (thr base) (queueAt 0 tail) with scrubq := 0x70000 }
    let d := (q 4).qdesc .merged 0x70000
    ((q 4).memOk = true ∧ d.ok = true ∧ d.held ≠ d.slots ∧ ((q 5).qdesc .merged 0x70000).held = ((q 5).qdesc .merged 0x70000).slots) ∧
    (((q 4).routeRead 0x70000) / 65536 ≠ 9 ∧ (q 4).routeRead (d.slotVa d.tail) / 65536 ≠ 9 ∧ (q 4).clears 0x70000 ∧
      (q 4).clears (d.slotVa d.tail)) ∧
    (forwarding.routeWrite 0x70040 = .stall 0 ∧ forwarding.keeps access ∧ ¬placed.keeps access) := by
  refine ⟨by decide +kernel, ⟨by decide +kernel, by decide +kernel, clears_of (q := 0x70000) (by decide +kernel),
    clears_of (q := 0x80000) (by decide +kernel)⟩, by decide +kernel, .inr (.inr ⟨by decide +kernel, .inl ⟨0, by decide +kernel⟩⟩), ?_⟩
  rintro (⟨-, h⟩ | ⟨g, hg, -⟩ | ⟨-, ⟨k, h⟩ | ⟨⟨bs, st, h⟩, -⟩⟩)
  · exact absurd h (by decide +kernel)
  · cases hg
  · exact clears_of (q := 0x70040) (by decide +kernel) k h
  · cases h

/-- A scrub leaves zeros (R181). -/
theorem test_scrub : after (due (withMem (thr base) (mem 0x70040 [5])) (.frameScrub 7)) .frameScrub
    (fun t => t.viewByte .merged 0x70040) = some 0 := by decide +kernel

/-! ## Couriers and block tables -/

/-- A card at 0x70000 (R342): KIND, CTL, four elements of 4 bytes from 0x50000 to offset 0x100 of the scratchpad. -/
def card (kind : Nat) : List Nat :=
  [kind, 0x40, 2, 0, 4, 0, 1, 0, 1, 0, 1, 0, 0, 0, 5, 0, 0, 0, 0, 0, 0, 1]

def couriered (kind : Nat) : State := paged (thr [(2, 0x70000), (3, 0)]) (mem 0x50000 [1, 2, 3, 4] ++ mem 0x70000 (card kind))

/-- A whole card becomes a job; one of another kind is MALFORMED at its first byte (R345). -/
theorem test_xcopy : after (couriered 0) (.xcopy (op (rv 6) (rv 2) .zero .zero 0)) (fun t => (t.core 0).jobs.length) = some 1 ∧
    rOf (couriered 1) (.xcopy (op (rv 6) (rv 2) .zero .zero 0)) = [(6, [0x10A])] := by decide +kernel

theorem witness_CourierJobs :
    ((couriered 0).issueOf (.xcopy (op (rv 6) (rv 2) .zero .zero 0))).alone 0 ∧
    ((couriered 0).issueOf (.xappk (op (rv 6) (rv 2) (rv 2) .zero 0))).alone 0 ∧
    ((couriered 0).issueOf (.xptr (op (rv 6) (rv 2) .zero .zero 0))).alone 0 ∧
    ((couriered 0).core 0).jobs.length < 32 ∧
    (match (couriered 0).courierReadAll 0 false [(0x70000, 64)] with | .ok _ _ => true | _ => false) = true := by
  refine ⟨⟨by decide +kernel, by decide +kernel⟩, ⟨by decide +kernel, by decide +kernel⟩, ⟨by decide +kernel, by decide +kernel⟩, ?_⟩
  decide +kernel

/-- A fill job of the card above, in the window. -/
def job (started : Option Nat) (status : Option Word) : Job :=
  { Job.fresh with id := 3, kind := .fill, chan := 1, card := bytes (card 1), started := started, status := status, dst := some 6 }

def running (started : Option Nat) (status : Option Word) : State :=
  let s := couriered 1
  { s with cores := s.cores.map fun p => (p.1, { p.2 with jobs := [job started status] })
           parts := s.parts.map fun p => (p.1, { p.2 with cbkt := [(0, { depth := 4096, rate := 64, debt := 0, tokens := 4096 })] }) }

/-- A job at the head of its channel starts, and its transfer takes tokens for the bytes it writes (R348, R354). -/
theorem test_job_starts : after (due (running none none) (.courierJobStart 0 1)) .courierJobStart
    (fun t => (t.core 0).jobs.map (·.started)) = some [some 0] := by decide +kernel
theorem test_fill_writes : after (due (running (some 0) none) (.courierWrite 0 1)) .courierWrite
    (fun t => (t.teamByte 0 0x102, ((t.part 0).cbkt.get Bucket.zero 0).tokens)) = some (5, 4080) := by decide +kernel

theorem witness_CourierSteps :
    ((running none none).core 0).oldestOf 1 = some ([], job none none) ∧
    ((running (some 0) none).core 0).oldestOf 1 = some ([], job (some 0) none) ∧
    ((running (some 0) (some 0x100)).core 0).oldestOf 1 = some ([], job (some 0) (some 0x100)) ∧
    (running (some 0) none).sramOk = true ∧ ((running (some 0) none).teamOf 0).Nodup ∧
    ({ running none none with parts := [(0, { Part.reset with deferred := [{ pool := 0x51000, freest := 0x53000, block := 1 }] })] } : State).parts.length = 1 := by
  decide +kernel

/-- A copy job, its source in memory or at a line that is poisoned, and fewer tokens than its bytes. -/
def copying (tokens : Nat) (poison : List Nat) : State :=
  let s := couriered 0
  { s with
    poison := poison
    cores := s.cores.map fun p => (p.1, { p.2 with jobs := [{ job (some 0) none with kind := .copy, card := bytes (card 0) }] })
    parts := s.parts.map fun p => (p.1, { p.2 with cbkt := [(0, { depth := 4096, rate := 64, debt := 0, tokens := tokens })] }) }

/-- CourierSteps: a copy that brings its bytes, and one whose source is poisoned; too few tokens; a block to be freed. -/
theorem witness_CourierSteps_more :
    let j : Job := { job (some 0) none with kind := .copy, card := bytes (card 0) }
    let d : State := { couriered 0 with parts := (couriered 0).parts.map fun p =>
      (p.1, { p.2 with deferred := [{ pool := 0x51000, freest := 0x53000, block := 1 }] }) }
    (((copying 4096 []).core 0).oldestOf 1 = some ([], j) ∧ (Card.ofBytes (bytes (card 0))).spDst = true ∧
      (match (copying 4096 []).courierReadAll 0 j.strided.srcSp j.strided.pieces with
        | .ok bs _ => bs.take 4 == bytes [1, 2, 3, 4] | _ => false) = true ∧ j.strided.bytes ≤ 4096 ∧ 1 < j.strided.bytes) ∧
    ((match (copying 4096 [0xA00]).courierReadAll 0 j.strided.srcSp j.strided.pieces with | .poison => true | _ => false) = true) ∧
    (∀ a ∈ j.strided.dsts, a < ((copying 4096 []).teamOf 0).length * ((copying 4096 []).core 0).spBytes) ∧
    (d.part 0).deferred.length = 1 ∧ d.gathers 0 0x51000 1 = false ∧
    (match d.agentUse 0 (d.part 0).datp 0x53000 Need.write true with | some (pa, _) => pa == 0x53000 | none => false) = true := by
  decide +kernel

/-- A block table at 0x50000 (R357) and its pool at 0x51000 (R356), with one free block, number 2. -/
def tables (nlog flags : Nat) : State :=
  paged (thr [(2, 0x50000), (3, 0), (4, 0xFFFFFFFF)])
    (mem 0x50000 ([0, 0x10, 5, 0, 0, 0, 0, 0, 0, 0x40, 5, 0, 0, 0, 0, 0, 0, 0x50, 5, 0, 0, 0, 0, 0] ++
      [8, 0, 0, 0, nlog, 0, 0, 0, nlog, 0, 0, 0, 0, 0, 0, 0, 0, 1, 4, flags]) ++
     mem 0x51000 ([0, 0, 9, 0, 0, 0, 0, 0, 0, 0x20, 5, 0, 0, 0, 0, 0, 0, 0x30, 5, 0, 0, 0, 0, 0] ++
      [4, 0, 0, 0, 1, 0, 0, 0, 16, 1]) ++ mem 0x53000 [2])

def quotaed (s : State) : State := { s with parts := s.parts.map fun p => (p.1, { p.2 with bquota := ⟨0, 4⟩ }) }

/-- BTAPP takes the free block, and counts it (R359); a disabled table is DENIED. -/
theorem test_btapp : rOf (quotaed (tables 0 1)) (.btapp (op (rv 6) (rv 2) (rv 4) .zero 0)) = [(6, [0x100])] ∧
    after (quotaed (tables 0 1)) (.btapp (op (rv 6) (rv 2) (rv 4) .zero 0)) (fun t => (t.part 0).bquota.used) = some 1 ∧
    rOf (quotaed (tables 0 0)) (.btapp (op (rv 6) (rv 2) (rv 4) .zero 0)) = [(6, [0x109])] := by decide +kernel
/-- BTREL of an empty table is EMPTY. -/
theorem test_btrel : rOf (quotaed (tables 0 1)) (.btrel (op (rv 6) (rv 2) (rv 4) .zero 0)) = [(6, [0x102])] := by decide +kernel

theorem witness_BlockTables :
    let s := quotaed (tables 0 1)
    (s.issueOf (.btapp (op (rv 6) (rv 2) (rv 4) .zero 0))).alone 0 ∧ (s.issueOf (.btrel (op (rv 6) (rv 2) (rv 4) .zero 0))).alone 0 ∧
    (match s.openTable (s.tabWho 0) 0x50000 Need.both with | .ok (o, _) => o.bad 0 = false && o.poolBad = false | _ => false) = true := by
  refine ⟨⟨by decide +kernel, by decide +kernel⟩, ⟨by decide +kernel, by decide +kernel⟩, by decide +kernel⟩

/-! ## The pool and the ballots -/

/-- Pages from 2^51 are mapped to the pool, and belong to this package. -/
def pooled (u : Thread) (m : Tab Byte) : State :=
  let s := world u
  let datp : DWord := 0xA000000000000100
  { s with
    mem := m ++ [(0x100000, 0xDF), (0x100040, 0xDF), (0x100046, 2), (0x104000, 0xDF), (0x104040, 0xDF), (0x104046, 2)]
    launches := [(0, { launch0 with datp := datp, leases := [⟨0, 16, .rw⟩, ⟨2 ^ 35, 2, .rw⟩], frames := [⟨0, 0, 16⟩, ⟨2 ^ 35, 2 ^ 35, 2⟩] })]
    parts := [(0, { Part.reset with
      clmask := 1, datp := datp, groot := 0xA000000000000104, poolValid := true, poolBase := 0, poolLimit := 4 })]
    owners := [(0, 0), (1, 0)], poolPresent := 1 }

/-- A pool card at 0x70000 (R438): OP, LEN 128, DST 2^51, a pattern. -/
def poolCard (op len : Nat) : Tab Byte := mem 0x70000 [op, 0, 0, 0, len, 0, 0, 0, 0, 0, 0, 0, 0, 0, 8, 0, 9]

theorem test_xpool_fill : after (pooled (thr [(2, 0x70000), (3, 0)]) (poolCard 0 128)) (.xpoolFill (op (rv 6) (rv 2) .zero .zero 0))
    (fun t => t.poolOps.map fun o => (o.len, o.dstFrames, o.word.toNat)) = some [(128, [2 ^ 35], 9)] ∧
    rOf (pooled (thr [(2, 0x70000), (3, 0)]) (poolCard 0 127)) (.xpoolFill (op (rv 6) (rv 2) .zero .zero 0)) =
      [(6, [0x10A + 512 * 4])] := by decide +kernel

theorem witness_PoolRequests :
    ((pooled (thr [(2, 0x70000), (3, 0)]) (poolCard 0 128)).issueOf (.xpoolFill (op (rv 6) (rv 2) .zero .zero 0))).alone 0 ∧
    (match (pooled (thr [(2, 0x70000), (3, 0)]) []).poolPages 0 (2 ^ 51) 128 Need.write with | .ok ([some f], _) => f == 2 ^ 35 | _ => false) = true := by
  refine ⟨⟨by decide +kernel, by decide +kernel⟩, by decide +kernel⟩

def poolOp (k : Nat) : PoolOp :=
  { id := 6, launch := 0, team := 0, thread := 0, core := 0, dst := some 6, tag := 1, op := k, scope := 5, len := 128
    dstFrames := [2 ^ 35], dstOff := 0, srcFrames := [2 ^ 35], srcOff := 128, word := 9, mask := 3, start := true
    elems := List.replicate 64 0, pos := 0, posted := false }

def reduction : Reduction :=
  { key := 9, dst := 2 ^ 51, len := 128, mask := 1, start := true, elems := [(0, List.replicate 64 0)], waiters := [6], stamp := 2 }

def modules (k : Nat) (rs : List Reduction) : State := { pooled (thr base) [] with poolOps := [poolOp k], reductions := rs }

/-- A fill of one line writes it and ends; the first post of a reduction opens a record. -/
theorem test_pool_line : after (due (modules 0 []) (.poolModuleOp 6)) .poolModuleOp
    (fun t => (t.viewByte .merged (2 ^ 51 + 8), t.poolOps.length)) = some (9, 0) := by decide +kernel

theorem witness_PoolModules :
    (modules 0 []).poolOps.find? (fun o => o.id == 6) = some (poolOp 0) ∧ (poolOp 3).op < 4 ∧ (modules 3 []).memOk = true ∧
    (modules 3 [reduction]).reductions.find? (fun r => r.key == 9 && r.dst == 2 ^ 51) = some reduction ∧
    (modules 3 [reduction]).reductions.find? (fun r => r.key == 9 && r.dst == 2 ^ 51 && r.stamp == 2) = some reduction := by
  decide +kernel

def sib (i : Nat) : Sib :=
  { sstate := 1, team := i, posted := false, seq := 0, slot := 0, overpost := false, kvskip := false, cyc := 0, tables := []
    st := 0, bytes := 0, pools := 0 }

/-- Two siblings and a quorum. -/
def ballot (q : Nat) : Ballot :=
  { launch := 0, part := 0, n := 2, q := q, key := 5, st := 0, tiebrk := false, keeper := 0, posts := 0, past := 0, slots := []
    sibs := [(0, sib 0), (1, sib 1)] }

def voting (q : Nat) : State := { world (thr [(2, 7), (3, 0)]) with ballots := [ballot q] }

/-- A post of one of two siblings: with a quorum of 1 it closes the record as its keeper (R483, R485). -/
theorem test_sbpost : rOf (voting 1) (.sbpost (op (rv 6) (rv 2) .zero .zero 0)) = [(6, [0x100 + 512 * (1024 + 2048)])] ∧
    rOf (voting 2) (.sbpost (op (rv 6) (rv 2) .zero .zero 0)) = [(6, [0x100])] := by decide +kernel
theorem test_sbpoll : rOf (voting 2) (.sbpoll (op (rv 6) .zero .zero .zero 0)) = [(6, [0x100])] := by decide +kernel
/-- Field 0 of the launch's own record: open, two siblings (R494). -/
theorem test_sbread : rOf (voting 2) (.sbread (op (rv 8) .zero .zero .zero 0)) = [(8, [0x100, 0, 0, 2 * 2 ^ 24])] := by decide +kernel

theorem witness_Ballots :
    let s := voting 2
    (s.issueOf (.sbpost (op (rv 6) (rv 2) .zero .zero 0))).okLanes [] = [0] ∧ s.ballotOf 0 = some (ballot 2) ∧
    (ballot 2).sibs.sorted = true ∧ ((ballot 2).sibs.find 0).isSome = true ∧ (ballot 2).posts < 64 ∧ (ballot 2).slots = [] ∧
    ((ballot 2).sib 0).posted = false := by decide +kernel

/-! ## Beyond the package -/

/-- Package 3's partition 2 is paired with partition 0 here, and its launch 7 has leased page 7. -/
def peered : State :=
  let s := paged (thr base) (mem 0x70040 [9])
  { s with
    parts := s.parts.map fun p => (p.1, { p.2 with peertab := [(3, { valid := true, w := true, r := true, rpart := 2 })] })
    peerLeases := [{ podid := 3, frm := 2, rpart := 0, launch := 7, lease := ⟨7, 1, .rw⟩, record := 0 }] }

def request (frm w : Nat) : PeerReq := { podid := 3, frm := frm, rpart := 0, w := BitVec.ofNat 64 w, op := .load 4, lease := 7 }

/-- A leased load is served, one from a partition that is not paired is PERM, one not leased LEASE_OUT (R425). -/
theorem test_peer_load : after (due peered (.peerWindowAccess (request 2 0x70040))) .peerWindowAccess (fun t => t.outs) =
      some [.peer 3 0 [9, 0, 0, 0]] ∧
    after (due peered (.peerWindowAccess (request 1 0x70040))) .peerWindowAccess (fun t => t.outs) = some [.peer 3 0x11 []] ∧
    after (due peered (.peerWindowAccess (request 2 0x80000))) .peerWindowAccess (fun t => t.outs) = some [.peer 3 0x10 []] := by
  decide +kernel

theorem witness_PeerAccesses : peered.memOk = true ∧ ((peered.part 0).peer 3).map (·.rpart) = some 2 ∧
    ((peered.part 0).peer 4).isNone = true ∧
    (match peered.xlate 0 (peered.part 0).datp 0x70040 with | .ok z => peered.checkXlat 0 Need.read z | _ => false) = true ∧
    (peered.hub (peered.homeUnit 0)).freeRecord = some 0 := by decide +kernel

/-- PeerAccesses: a place of memory that no move copies, within one line; a peer's lease that its quota has room for. -/
theorem witness_PeerAccesses_more :
    ((match peered.xlate 0 (peered.part 0).datp 0x70040 with
      | .ok z => (peered.setAD z false).clears 0x70040 ∧ z.pa = 0x70040
      | .error _ => False) ∧ 0x70040 % 128 + 4 ≤ 128) ∧ peered.needsHandover 0x70040 = false ∧
    (match peered.xlate 0 (peered.part 0).datp 0x70000 with | .ok z => (peered.reside 0 [z]).isSome | .error _ => true) = false := by
  refine ⟨⟨?_, by decide +kernel⟩, by decide +kernel, by decide +kernel⟩
  obtain ⟨z, hz, hp, q, hq⟩ : ∃ z, peered.xlate 0 (peered.part 0).datp 0x70040 = .ok z ∧ z.pa = 0x70040 ∧
      ∃ q, (peered.setAD z false).routeWrite 0x70040 = .at_ q := by
    have h : (match peered.xlate 0 (peered.part 0).datp 0x70040 with
        | .ok z => z.pa == 0x70040 && (match (peered.setAD z false).routeWrite 0x70040 with | .at_ _ => true | _ => false)
        | .error _ => false) = true := by decide +kernel
    split at h
    · rename_i z hz
      simp only [Bool.and_eq_true, beq_iff_eq] at h
      refine ⟨z, hz, h.1, ?_⟩
      have h2 := h.2
      split at h2
      · rename_i q hq; exact ⟨q, hq⟩
      · cases h2
    · cases h
  rw [hz]
  exact ⟨clears_of hq, hp⟩

def unacked (tries : Nat) : Unacked := { pod := 3, seq := 8, msg := .ballotRead 0 0 2 5 0 1, tries := tries }

/-- The fourth resend is the last (log 13); a lane's failure halves its station (R429). -/
theorem test_resend : after (due { voting 2 with unacked := [unacked 3] } (.registeredResend 3 8)) .registeredResend
    (fun t => (t.outbox.length, t.unacked.length)) = some (1, 1) ∧
    after (due { voting 2 with unacked := [unacked 4] } (.registeredResend 3 8)) .registeredResend
    (fun t => (t.outbox.length, t.unacked.length)) = some (0, 0) := by decide +kernel
theorem test_lane_failure : after (due (voting 2) (.laneFailure 5)) .laneFailure
    (fun t => ((t.stations.get Station.reset 5).width, t.replace.getLsbD 29)) = some (2, true) := by decide +kernel

theorem witness_Messages :
    (modules 3 [reduction]).reductions.find? (fun r => r.key == 9 && r.dst == 2 ^ 51) = some reduction ∧
    ({ voting 2 with ballotCalls := [{ id := 1, core := 0, slot := 0, lanes := [0], tag := 1 }] } : State).ballotCalls.find? (fun c => c.id == 1) =
      some { id := 1, core := 0, slot := 0, lanes := [0], tag := 1 } ∧
    ({ voting 2 with unacked := [unacked 3] } : State).unacked.find? (fun u => u.pod == 3 && u.seq == 8) = some (unacked 3) ∧
    ((peered.part 0).peer 3).isSome = true := by decide +kernel

/-- An egress queue at 0x70000 with one envelope for package 9, queue 4. -/
def egress : State :=
  let s := paged (thr base) (queueAt 0 4 ++ mem 0x80080 [2, 0, 0, 0, 9, 0, 0, 0, 4])
  { s with parts := s.parts.map fun p => (p.1, { p.2 with xoq := 0x70000, fbkt := [(0, { depth := 512, rate := 64, debt := 0, tokens := 512 })] }) }

def envelope : RemoteEnv :=
  { soid := 9, srcQnum := 1, tag := 0, qnum := 0, count := 0, waitroom := true, payload := List.replicate 96 0 }

theorem test_scale_out_send : after (due egress (.scaleOutSend 0)) .scaleOutSend
    (fun t => (t.outs.length, (t.part 0).scaleBusy, (t.qdesc .merged 0x70000).head)) = some (1, some (0, 9, 4), 4) := by decide +kernel

theorem witness_ScaleOut : egress.memOk = true ∧ (egress.part 0).scaleBusy = none ∧
    (egress.egressQueue 0).map (fun p => (p.1, p.2.held)) = some (0x70000, 1) ∧
    egress.agentPa 0 (egress.part 0).datp 0x80080 Need.any = some 0x80080 ∧ egress.parts.sorted = true ∧
    envelope.payload.length = 96 ∧ egress.targetQueue envelope = none ∧
    (({ egress with parts := egress.parts.map fun p => (p.1, { p.2 with queues := [0x70000] }) } : State).targetQueue envelope).map (·.2.1) = some 0x70000 ∧
    ({ egress with waitroom := [(4, 65536, envelope)] } : State).waitroom.find? (fun w => w.1 == 4) = some (4, 65536, envelope) := by
  decide +kernel

/-- ScaleOut: the slot's translation, which passes; a descriptor that no move copies; a queue that an envelope finds full. -/
theorem witness_ScaleOut_more :
    (match egress.agentUse 0 (egress.part 0).datp 0x80080 Need.any false with | some (pa, _) => pa == 0x80080 | none => false) = true ∧
    (0x70000 + 16) % 128 = 16 ∧ egress.clears (0x70000 + 16) ∧
    (let s : State := { egress with parts := egress.parts.map fun p => (p.1, { p.2 with queues := [0x70000] }) }
     (s.targetQueue envelope).map (fun p => (p.2.1 % 128, p.2.2.held == p.2.2.slots)) = some (0, false)) :=
  ⟨by decide +kernel, by decide, clears_of (q := 0x70010) (by decide +kernel), by decide +kernel⟩

/-! ## The matrix engine -/

def sig0 (k : Nat) (accd : Word) (ops : List Word) : Sig := { op := k, accd := accd, ops := ops, dst := none, tag := 1, trap := none }

/-- A thread whose signature of MZERO on a 16 by 16 tile of F32 is on its way to a round of one. -/
def signing (set signed : List Nat) : State :=
  { world { waiting .answer with sig := some (sig0 0 0 [0, 0, 0, 0, 0, 0]) } with
    teams := [{ team0 with convs := [(2, { decl := .mask, set := set, use := .matrix, signed := signed, round := 9, dsts := [] })] }] }

/-- The completing signature places the operation; one of two only counts; one that has signed is refused (R417). -/
theorem test_matrix_signature :
    after (due (signing [0] []) (.signatureArrival 0 0 0 2 true)) .signatureArrival (fun t => ((t.core 0).engine.map (·.kind))) =
      some [.mzero] ∧
    after (due (signing [0, 1] []) (.signatureArrival 0 0 0 2 true)) .signatureArrival
      (fun t => ((t.core 0).engine.length, (t.findTeam 0 0).map fun T => (T.convs.get Conv.zero 2).signed)) = some (0, some [0]) ∧
    after (due (signing [0, 1] [0]) (.signatureArrival 0 0 0 2 true)) .signatureArrival
      (fun t => (t.threadAt 0 0 0).map (·.stopped)) = some (some true) := by decide +kernel

def event (k : EngKind) : EngEvent :=
  { id := 3, kind := k, placed := 0, dom := 0, slot := 0, thread := 0, accd := 0, ops := [0, 0, 0, 0, 0, 0], lanes := []
    seed := 1, dsts := [], tag := 1, la := [], lb := [], fetched := true, arrives := 0, maps := true, todo := none, chunk := 0, next := 0, past := false
    status := 0, ended := none }

def engined (v : EngEvent) (now : Nat) : State :=
  let s := world (thr base)
  { s with now := now, cores := s.cores.map fun p => (p.1, { p.2 with engine := [v], sram := [(48 * 16384 + 5, 7)] }) }

/-- MZERO clears its tile in one chunk (R310). -/
theorem test_mzero : after (due (engined (event .mzero) 20) (.matrixChunk 0)) .matrixChunk
    (fun t => (t.sramByte 0 (48 * 16384 + 5), (t.core 0).engine.map fun v => (v.past, v.status))) = some (0, [(true, 0x100)]) := by
  decide +kernel

/-- Element (0, 1) of the tile, read by a lane (R317). -/
def reading : EngEvent := { event .mread with lanes := [⟨0, 0, 1, 0⟩] }

theorem test_mread : after (due { engined reading 20 with cores := (engined reading 20).cores.map fun p =>
      (p.1, { p.2 with vres := [{ due := none, tag := 1, slot := 0, lane := 0, reg := 6, n := 1, vals := [], acq := none, ord := false }] }) }
    (.mreadPerform 0)) .mreadPerform (fun t => (t.core 0).vres.map fun v => v.vals.map (·.toNat)) = some [[0x700]] := by decide +kernel

theorem witness_MatrixRequests :
    let s := signing [0] []
    let x := (world (thr [(1, 0), (2, 1)])).issueOf (.mread (op (rv 6) (rv 1) (rv 2) .zero 0))
    ((s.coreTeam 0).isSome = true ∧ (s.threadAt 0 0 0).map (·.await) = some (some await0) ∧ ((s.threadAt 0 0 0).map (·.sig.isSome)) = some true) ∧
    x.alone 0 ∧ ((AccDesc.ofWord 0).ok ((world (thr [])).core 0).accGranules) = true ∧
    ((world (thr [])).issueOf (.mzero (op .zero (rg 1) (rg 4) (rg 8) 2))).lanes.Nodup := by
  refine ⟨by decide +kernel, ⟨by decide +kernel, by decide +kernel⟩, by decide +kernel, by decide +kernel⟩

/-- MatrixRequests: the only declared signer, of a well-formed MZERO whose round it completes; and an idle engine. -/
theorem witness_MatrixRequests_completes :
    let T := { team0 with convs := [(2, { decl := .mask, set := [0], use := .none, signed := [], round := 9, dsts := [] })] }
    let s : State := { world (thr []) with teams := [T] }
    let x := s.issueOf (.mzero (op .zero (rg 1) (rg 4) (rg 8) 2))
    let v := (sig0 0 0 [0, 0, 0, 0, 0, 0]).event 0 0 0 x.e 1
    x.alone 0 ∧ s.coreTeam 0 = some T ∧ (s.core 0).sideD.side = 0 ∧ (x.raw.threadAt 0 0).isSome = true ∧
    (T.convs.get Conv.zero 2).set = [0] ∧ (T.convs.get Conv.zero 2).signed = [] ∧ (s.core 0).engine = [] ∧
    v.malformed (s.core 0).accGranules false = 0 ∧ v.paired = true ∧ s.rangeMiss 0 v = none ∧ s.tagMiss 0 v = none ∧
    s.sramOk = true ∧ (s.core 0).engineFree = 0 := by
  refine ⟨⟨by decide +kernel, by decide +kernel⟩, ?_⟩
  decide +kernel

/-- MatrixEngine: an operand line in a granule of the scratchpad, an event held back by an earlier MWRITE, one that is past, one
whose scratchpad region takes its bytes. -/
theorem witness_MatrixEngine_more :
    let w : EngEvent := { event .mwrite with id := 1, lanes := [⟨0, 0, 1, 0⟩] }
    let s : State := { world (thr []) with cores := (world (thr [])).cores.map fun p => (p.1, { p.2 with engine := [w, event .mzero] }) }
    (s.core 0).engHead = some (event .mzero) ∧ ((s.core 0).engBefore 3).any (fun e => e.kind == .mwrite && e.touches (event .mzero) 0) = true ∧
    ({ event .mzero with past := true } : EngEvent).past = true ∧ (event .mzero).hasLines 0 = true ∧ (event .mzero).todo = none ∧
    s.pinnedLines.length = 0 := by decide +kernel

theorem witness_MatrixEngine :
    (engined (event .mzero) 20).sramOk = true ∧ ((engined (event .mzero) 20).core 0).engHead = some (event .mzero) ∧
    ((engined { event .mma with fetched := false } 20).core 0).engine.filter (fun v => !v.fetched) = [{ event .mma with fetched := false }] ∧
    ((engined (event .mma) 20).core 0).engine.find? (fun v => v.id == 3) = some (event .mma) ∧
    ((engined reading 20).core 0).engine.filter (fun v => v.kind == .mread || v.kind == .mwrite) = [reading] ∧
    (0 < (AccDesc.ofWord 0).m ∧ 15 - (AccDesc.ofWord 0).col0 0 < (AccDesc.ofWord 0).ns) := by decide +kernel

/-! ## Ends, spawns and calls -/

/-- The last thread's EXIT empties its group (R476). -/
theorem test_exit : after (world (thr base)) (.exit (op .zero .zero .zero .zero 0)) (fun t => (t.core 0).groups.length) = some 0 := by
  decide +kernel

def trackers : List TrackEntry := [{ id := 2, slot := 0, born := 0, threads := [0], wc := [], done := 0 }]

def emptied (ts : List TrackEntry) : State :=
  let s := world (thr base)
  { s with cores := s.cores.map fun p => (p.1, { p.2 with groups := [], tracker := ts }) }

/-- A side that holds nothing leaves its core, and its team ends (R480). -/
theorem test_side_complete : after (due (emptied []) (.teamSideComplete 0)) .teamSideComplete
    (fun t => ((t.core 0).side.isSome, t.teams.length, (t.launch 0).completed)) = some (false, 0, 1) ∧
    after (due (emptied trackers) (.teamSideComplete 0)) .teamSideComplete (fun t => ((t.core 0).side.isSome, t.teams.length)) =
      some (true, 1) := by decide +kernel

theorem witness_Exits :
    let s := world (thr base)
    let x := s.issueOf (.exit (op .zero .zero .zero .zero 0))
    s.tablesOk = true ∧ x.actives = [0] ∧ (x.raw.threadAt 0 0).isSome = true ∧ s.coreTeam 0 = some team0 ∧
    ((emptied trackers).core 0).tracker.find? (fun e => e.id == 2) = trackers.head? ∧ (emptied []).coreTeam 0 = some team0 := by
  decide +kernel

def spawner : Thread := thr [(1, 64), (2, 7)]

/-- The state in which the first pending event of a kind that an instruction has sent out comes due. -/
def sentOut (s : State) (i : Instr) (p : Event → Bool) : State :=
  match exec i s with
  | .next t => match t.agenda.find? (fun e => p e.2) with
    | some (n, e) => { t with now := n, turn := .idle, event := e, agenda := t.agenda.filter (· != (n, e)) }
    | none => State.reset
  | _ => State.reset

def isSpawn : Event → Bool
  | .spawnInsert _ _ _ _ => true
  | _ => false

def spawn0 : Instr := .spawn (op (rv 6) (rv 1) (rv 2) .zero 1)

/-- SPAWN of the entry at text offset 64 fills a pigeonhole in the next cycle, and gives the index (R151, R152). -/
theorem test_spawn : after (sentOut (world spawner) spawn0 isSpawn) .spawnBlockRetry
      (fun t => ((t.core 0).vres.map (fun v => (v.reg, v.vals.map (·.toNat))),
        (t.core 0).sideD.holes.map fun h => (h.2.key, h.2.recs.map fun r => r.args.map (·.toNat)))) =
    some ([(6, [0x100 + 512 * 16])], [(64, [[7]])]) := by decide +kernel
theorem test_spawn_odd : after (sentOut (handled (thr [(1, 65), (2, 7)])) spawn0 isSpawn) .spawnBlockRetry
    (fun t => (t.threadAt 0 0 0).map fun u => u.trapcause.toNat) = some (some 5) := by decide +kernel

def holed (st : HoleState) (gs : List Group) : State :=
  let s := world (thr base)
  { s with cores := s.cores.map fun p => (p.1, { p.2 with
      side := some { side0 with
        holes := [(2, { st := st, key := 64, recs := [⟨[7], 16, 3⟩], expires := 9, stamp := 4 })], pressed := gs } }) }

/-- A due pigeonhole becomes a Ready group whose thread starts at the entry (R153). -/
theorem test_pigeonhole : after (due (holed .due []) (.pigeonholeLaunch 0)) .pigeonholeLaunch
    (fun t => ((t.core 0).groups.map (·.1), (t.threadAt 0 1 0).map fun u => (u.pc.toNat, u.index, (u.vread 0).toNat))) =
    some ([0, 1], some (0x1040, 16, 7)) := by decide +kernel

theorem witness_Spawns :
    let s := world spawner
    (s.issueOf (.spawn (op (rv 6) (rv 1) (rv 2) .zero 1))).alone 0 ∧ s.tablesOk = true ∧ s.coreTeam 0 = some team0 ∧
    ((holed .due []).core 0).side.isSome = true ∧
    (((holed .due []).core 0).sideD.holes.get Hole.free 2).st = .due ∧
    (∀ i < 2, (((holed .due []).core 0).sideD.holes.get Hole.free i).st ≠ .due) ∧
    ((holed .free [group0 (thr [])]).core 0).sideD.pressed = [group0 (thr [])] := by
  refine ⟨⟨by decide +kernel, by decide +kernel⟩, ?_⟩
  decide +kernel

/-- Spawns: the event of a SPAWN whose lane waits, with a pigeonhole free and none that has its entry; a blocked group that may
be saved for room. -/
theorem witness_Spawns_more :
    let s := sentOut (world spawner) spawn0 isSpawn
    ((s.threadAt 0 0 0).map fun u => (u.wait, u.stopped, u.await.isSome)) = some (.answer, false, true) ∧
    s.coreTeam 0 = some team0 ∧ (s.core 0).side.isSome = true ∧ ((s.core 0).sideD.holes.get Hole.free 0).st = .free ∧
    (world spawner).thread 0 0 0 = spawner ∧ team0.spawncount < 2 ^ 23 ∧
    (let b := { group0 { waiting .cond with pc := 0x1000 } with st := .blocked }
     b.threads.all (fun p => p.2.wait == .cond) = true ∧ b.st = .blocked) ∧
    ((holed .filling []).core 0).sideD.holes.find 2 = some { st := .filling, key := 64, recs := [⟨[7], 16, 3⟩], expires := 9, stamp := 4 } := by
  decide +kernel

/-- SYSCALL without a service queue is denied: the call stands, with its tag (R464). -/
theorem test_syscall : after (paged (thr [(2, 0x70000), (3, 0)]) []) (.syscall (op (rv 6) (rv 2) (.imm 33) .zero 0))
    (fun t => ((t.part 0).calls.map fun c => (c.tag.toNat, c.denied), (t.threadAt 0 0 0).map (·.wait))) =
    some ([(0, true)], some (.call 0)) := by decide +kernel

def call0 : SysCall :=
  { tag := 0, core := 0, lanes := [(0, 0)], dst := some 6, tagNo := 1, argbase := 0x70000, launch := 0, team := 0
    waiting := false, denied := true, env := [] }

def called : State :=
  let s := paged (waiting (.call 0)) []
  { s with parts := s.parts.map fun p => (p.1, { p.2 with calls := [call0] }), pairs := [(0, ⟨false, false, 0, 0⟩)] }

theorem test_sysdone : after (due called (.sysdoneWrite 0)) .sysdoneWrite
    (fun t => ((t.part 0).calls.length, (t.threadAt 0 0 0).map fun u => (u.wait, u.pc.toNat))) = some (0, some (.none, 0x1000)) := by
  decide +kernel

theorem witness_Calls :
    let s := paged (thr [(2, 0x70000), (3, 0)]) []
    let x := s.issueOf (.syscall (op (rv 6) (rv 2) (.imm 33) .zero 0))
    s.tablesOk = true ∧ (x.okLanes []).head? = some 0 ∧ x.lanes.Nodup ∧ (s.part 0).calls = [] ∧
    ((s.launch 0).leases.any fun z => z.kind == .rw && z.page == 0 && z.count == 16) = true ∧
    ((called.part 0).calls.filter fun c => c.tag == 0) = [call0] ∧ (called.core 0).side.isSome = true ∧
    (called.threadAt 0 0 0).map (·.wait) = some (.call 0) ∧ (called.pairs.get Pair.reset 0).inReset = false ∧
    (called.pairs.get Pair.reset 3).inReset = true := by decide +kernel

/-! ## Launches -/

/-- A launch envelope of one team of 16 threads (R126), with a first byte. -/
def envelopeBytes (type : Nat) : List Nat :=
  [type, 0, 0, 4, 0x20, 0x84, 0x20, 0, 0, 0x10, 0, 0, 0, 0, 0, 0, 0, 0, 0, 0, 0, 0, 0, 0, 0, 0, 128, 0, 16, 0, 1, 0, 1, 0, 64, 0,
    1, 0, 0, 0, 1, 0, 0, 0, 1, 0, 0, 0, 0, 0, 0, 0, 0, 0, 0, 0, 1, 0, 0, 0] ++ List.replicate 44 0 ++ [0, 0x10]

/-- A launch queue at 0x70000 whose head is that envelope, and its completion queue at 0x71000. -/
def launching (type : Nat) : State :=
  let s := paged (thr base) (mem 0x70000 ([0, 0, 8, 0, 0, 0, 0, 0, 1, 1, 0, 1, 0, 0, 0, 0, 3, 0, 0, 0, 0, 0, 0, 0, 4, 0, 0, 0, 0, 0, 0, 0,
    0, 0x10, 7, 0, 0, 0, 0, 0, 3]) ++ mem 0x71000 [0, 0, 9, 0, 0, 0, 0, 0, 1, 3, 0, 1] ++ mem 0x80080 (envelopeBytes type))
  { s with launches := [], teams := [], cores := []
           parts := s.parts.map fun p => (p.1, { p.2 with queues := [0x70000], heads := [0x70000], qhbm := ⟨0, 4⟩, psceil := 0xFFFFFF, ctxn := 1 }) }

/-- A whole envelope goes on to its lease grant; one of another type ends MALFORMED, and its queue's HEAD passes it. -/
theorem test_admission : after (due (launching 1) (.launchAdmission 0)) .launchAdmission
    (fun t => ((t.part 0).grants.map (·.queue), (t.qdesc .merged 0x70000).head)) = some ([0x70000], 3) ∧
    after (due (launching 2) (.launchAdmission 0)) .launchAdmission
    (fun t => ((t.part 0).grants.length, (t.qdesc .merged 0x70000).head, (t.view .merged 0x90004 4).map (·.toNat))) =
      some (0, 4, [0x0A, 1, 0, 0]) := by decide +kernel

def granting : State :=
  let s := launching 1
  { s with parts := s.parts.map fun p => (p.1, { p.2 with grants := [{ queue := 0x70000, order := 0, asked := [], answers := [] }] }) }

/-- The grant admits the launch under the first free lease record, and gives its cluster the index 0 (R124, R140). -/
theorem test_grant : after (due granting (.leaseGrant 0 0x70000)) .leaseGrant
    (fun t => (t.launches.map fun l => (l.1, l.2.seq, l.2.ranges.get (0, 0) 0), (t.qdesc .merged 0x70000).head)) =
    some ([(0, 3, (0, 1))], 4) := by decide +kernel
/-- A launch whose frames are not within the quota ends QUOTA (R124). -/
theorem test_grant_quota :
    let s := { granting with parts := granting.parts.map fun p => (p.1, { p.2 with qhbm := ⟨4, 4⟩ }) }
    after (due s (.leaseGrant 0 0x70000)) .leaseGrant (fun t => (t.launches.length, (t.view .merged 0x90004 4).map (·.toNat))) =
      some (0, [3, 1, 0, 0]) := by decide +kernel

theorem witness_Admission :
    (launching 1).tablesOk = true ∧ (launching 1).memOk = true ∧ 0x70000 % 128 = 0 ∧ (launching 1).ready ≠ 0 ∧
    ((launching 1).part 0).heads = [0x70000] ∧ ((launching 1).part 0).grants = [] ∧
    (granting.part 0).grants = [{ queue := 0x70000, order := 0, asked := [], answers := [] }] ∧
    ((launching 1).completionQueue 0 0x70000) = some 0x71000 ∧ (launching 1).hubs = [] ∧
    (((launching 1).part 0).calls.all fun c => !c.waiting) = true := by decide +kernel

/-- Admission: the queue whose own line is written, and that of no other; moves under way; an envelope above the ceiling, one with
a dependence on a queue, frames within the quota and not. -/
theorem witness_Admission_more :
    ((launching 1).part 0).queues.filter (fun z => z == 0x70000 || (launching 1).completionQueue 0 z == some 0x70000) = [0x70000] ∧
    ((launching 1).part 0).queues.filter (fun z => z == 0x72000 || (launching 1).completionQueue 0 z == some 0x72000) = [] ∧
    (∀ h, ((launching 1).hub h).forwards = []) ∧
    (let s : State := launching 1
     let e := Envelope.ofBytes (s.headBytes 0 (s.qdesc .merged 0x70000))
     e.dep0.getLsbD 63 = false ∧ e.flags.getLsbD 2 = false ∧ e.leaseList = 0 ∧ ∀ r ∈ e.implicit, isWindow r.base = false) ∧
    ((({ launching 1 with parts := (launching 1).parts.map fun p => (p.1, { p.2 with psceil := 0 }) } : State).part 0).psceil = 0) :=
  ⟨by decide +kernel, by decide +kernel, hub_still (by decide +kernel), by decide +kernel, by decide +kernel⟩

/-- A launch with one index left, whose only free core is 0. -/
def handing : State :=
  let s := world (thr base)
  { s with
    launches := [(0, { launch0 with ranges := [(0, (0, 3)), (1, (3, 8))] })], teams := []
    cores := (0, { Core.reset with owner := some 0 }) :: (List.range' 1 7).map fun c => (c, { Core.reset with fenced := true })
    parts := [(0, { Part.reset with clmask := 3, ctxn := 4 })] }

/-- The distributor hands the next index to the free core (R141); a thief takes the upper half (R142). -/
theorem test_handout : after (due handing (.clusterHandout 0)) .clusterHandout
    (fun t => (t.teams.map fun T => (T.index, T.cores), (t.launch 0).ranges.get (0, 0) 0)) = some ([(0, [0])], (1, 3)) := by
  decide +kernel
theorem test_steal : after (due { handing with launches := [(0, { launch0 with ranges := [(0, (3, 3)), (1, (3, 8))] })] }
      (.stealWithinDie 0)) .stealWithinDie
    (fun t => ((t.launch 0).ranges.get (0, 0) 0, (t.launch 0).ranges.get (0, 0) 1)) = some ((6, 8), (3, 6)) := by decide +kernel

theorem witness_Placing :
    handing.tablesOk = true ∧ (handing.part 0).clmask.getLsbD 0 = true ∧ handing.parts.length = 1 ∧
    (∀ d < 8, ((handing.core d).side = none ∧ (handing.core d).fenced = false ∧ (handing.core d).tracker = []) ↔ d = 0) ∧
    (handing.launch 0).env.flags.getLsbD 0 = false ∧ (handing.launch 0).fault = none ∧ handing.saved = [] ∧
    handing.slotsUsed 0 + 1 ≤ (handing.part 0).ctxn ∧ ((world (thr base)).core 0).side = some side0 := by decide +kernel

/-- Placing: a launch that has to steal, within its die and beyond it; a side that has been given back; a launch that has
starved beside one of lower priority. -/
theorem witness_Placing_more :
    let near : State := { handing with launches := [(0, { launch0 with ranges := [(0, (3, 3)), (1, (3, 8))] })] }
    let far : State := { handing with
      launches := [(0, { launch0 with ranges := [(0, (3, 3)), (9, (3, 8))] })], parts := [(0, { Part.reset with clmask := 0x201, ctxn := 4 })] }
    let left := fun (s : State) (k : Nat) => ((s.launch 0).ranges.get (0, 0) k).2 - ((s.launch 0).ranges.get (0, 0) k).1
    (left near 0 = 0 ∧ 2 ≤ left near 1 ∧ near.slotsUsed 0 + 1 ≤ (near.part 0).ctxn) ∧
    (left far 0 = 0 ∧ left far 9 = 5 ∧ (far.part 0).clmask.getLsbD 9 = true ∧ (∀ k < 8, left far k = 0)) ∧
    (({ side0 with returning := true } : Side).returning = true) ∧
    (let l : Launch := { launch0 with env := { launch0.env with prio := 3 }, ranges := [(0, (0, 3))] }
     let s : State := { world (thr base) with launches := [(0, launch0), (1, l)], now := 4096 }
     l.preempting = false ∧ l.starve + 2048 ≤ s.now ∧ l.fault = none ∧ launch0.env.prio < l.env.prio ∧ s.teams = [team0] ∧
       team0.cores ≠ [] ∧ team0.preempt = none ∧ team0.forLaunch = none) := by decide +kernel

/-- A team's groups are made Ready, its threads at the entry with their seeds (R136). -/
theorem test_groups_ready : after (due (emptied []) (.groupsReady 0)) .groupsReady
    (fun t => ((t.threadAt 0 0 15).map fun u => (u.pc.toNat, u.index, u.seed.toNat), (t.threadAt 0 1 0).isSome)) =
    some (some (0x1000, 15, 0x5EED000E), false) := by decide +kernel

def fault0 : FaultRec := { cause := 0x12, flags := 0, addr := 0, pc := 0, core := 0, slot := 0, lane := 0 }

/-- The first terminal fault ends the launch and orders its cores to stop (R449). -/
theorem test_terminal_fault : after (due (world (thr base)) (.terminalFaultArrival 0 fault0)) .terminalFaultArrival
    (fun t => ((t.launch 0).fault, t.agenda.any fun e => e.2 == .launchStopArrival 0 0)) = some (some fault0, true) := by decide +kernel

/-- A launch without teams and indices is complete: its record has status POISON after a poison fault (R127, R449). -/
def completing (f : Option FaultRec) : State :=
  let s := launching 1
  { s with launches := [(0, { launch0 with queue := 0x70000, seq := 2, fault := f })] }

theorem test_completion : after (due (completing (some fault0)) (.launchCompletion 0)) .launchCompletion
    (fun t => (t.launches.length, (t.view .merged 0x90004 4).map (·.toNat))) = some (0, [0x06, 0x25, 0, 0]) := by decide +kernel

/-- Retiring: a launch that has ended, a team that is cancelled and has stopped, and a ring with a record. -/
def cancelled : State :=
  let s := world { thr base with stopped := true }
  { s with teams := [{ team0 with cancel := true }]
           hubs := [(0, { Hub.reset with records := [(0, 1, List.replicate 28 1)] })]
           parts := s.parts.map fun p => (p.1, { p.2 with ring1 := { base := 0x60000, log2n := 4, head := 0, posted := 0, lost := 0 } }) }

theorem test_cancelled_team_retires : after (due cancelled (.siblingRetire 0 0)) .siblingRetire
    (fun t => (t.teams.length, (t.launch 0).cancelled)) = some (0, 1) := by decide +kernel

theorem witness_Retiring :
    (completing none).tablesOk = true ∧ (completing none).memOk = true ∧ ((completing none).launches.find 0).isSome = true ∧
    ((completing none).launch 0).queue % 128 = 0 ∧ (completing none).teams = [] ∧ (completing none).saved = [] ∧
    cancelled.findTeam 0 0 = some { team0 with cancel := true } ∧ cancelled.sidesOf { team0 with cancel := true } = [0] ∧
    cancelled.sideQuiet 0 = true ∧ (cancelled.hub 0).records = [(0, 1, List.replicate 28 1)] ∧
    (((cancelled.part 0).ring1.posted.setWidth 16 : BitVec 16) - (cancelled.part 0).ring1.head).toNat < 2 ^ (cancelled.part 0).ring1.log2n := by
  decide +kernel

/-- Retiring: a core whose side runs, starts, or belongs to another launch; a cancelled team whose threads have not stopped, and
one that is not quiet. -/
theorem witness_Retiring_more :
    let s := world (thr base)
    let starts : State := { s with agenda := [(32, .groupsReady 0)] }
    let busy : State := { emptied trackers with teams := [{ team0 with cancel := true }] }
    (s.core 0).side = some side0 ∧ side0.launch = 0 ∧ s.starting 0 = false ∧ starts.starting 0 = true ∧ (s.findTeam 0 0).isSome = true ∧
    s.sidesOf team0 = [0] ∧ team0.cancel = false ∧ team0.stopping = false ∧
    busy.sideQuiet 0 = false ∧ (cancelled.ballotOf 0).isNone = true ∧
    (cancelled.hub 1).records = [] ∧ (cancelled.core 0).sideD.stopAt = none := by decide +kernel

/-- Saving: a team that stops, and a place to restore it to. -/
def stopping : State :=
  let s := world { thr base with stopped := true }
  { s with teams := [{ team0 with preempt := some 0, stopping := true }] }

theorem test_team_save : after (due stopping (.teamSave 0 0)) .teamSave
    (fun t => ((t.core 0).side.isSome, t.saved.map fun v => (v.launch, v.team, v.sides.length))) = some (false, [(0, 0, 1)]) := by
  decide +kernel
/-- A barrier that is partly arrived defers the save (R455, R456). -/
theorem test_preempt_deferred :
    let T := { team0 with barriers := [(3, { gen := 0, arr := 1, n := 2, pend := [] })] }
    after (due { world (thr base) with teams := [T] } (.preemptionRequest 0 0)) .preemptionRequest
    (fun t => ((t.findTeam 0 0).map fun T => (T.preempt, T.stopping), t.agenda.any fun e => e == (65536, .forcedSave 0 0))) =
    some (some (some 0, false), true) := by decide +kernel

def kept : SavedSide := { side := side0, groups := [(0, { group0 (thr base) with st := .saved })], jobs := [], sram := [(5, 6)], tags := [], sramPoison := [] }
def restoring : State :=
  let s := emptied []
  { s with saved := [{ launch := 0, team := 0, sides := [kept] }] }

theorem test_team_restore : after (due restoring (.teamRestore 0 0 0)) .teamRestore
    (fun t => (t.sramByte 0 5, (t.threadAt 0 0 0).map fun u => (u.pc.toNat, (u.vread 5).toNat))) = some (6, some (0x1000, 0xCAFE)) := by
  decide +kernel

theorem witness_Saving :
    stopping.tablesOk = true ∧ stopping.findTeam 0 0 = some { team0 with preempt := some 0, stopping := true } ∧
    stopping.sidesOf { team0 with preempt := some 0, stopping := true } = [0] ∧ stopping.starting 0 = false ∧
    stopping.savedUp 0 = true ∧ (stopping.core 0).landings = [] ∧ (stopping.core 0).vres = [] ∧ (stopping.launch 0).fault = none ∧
    (restoring.core 0).side = some side0 ∧ (restoring.saved.find? fun v => v.launch == 0 && v.team == 0).isSome = true ∧
    restoring.findTeam 0 0 = some team0 := by decide +kernel

/-- Saving: a lane that waits for an answer keeps the save back; nothing keeps it back; the kept side is read whole. -/
theorem witness_Saving_more :
    let s : State := { world (waiting .answer) with teams := [{ team0 with preempt := some 0, stopping := true }] }
    ((s.threadAt 0 0 0).map (·.wait)) = some .answer ∧ s.starting 0 = false ∧
    (stopping.ballotOf 0).isNone = true ∧ (kept.side.side = side0.side ∧ kept.side.launch = 0 ∧ kept.side.team = 0) ∧
    ((kept.groups.find 0).map fun g => g.threads.all fun p => p.2.pendv.isEmpty) = some true ∧ team0.preempt = none := by decide +kernel

/-! ## Issue, the package, and the step -/

/-- The group's instruction IADD.i16x2.sat V7, V8, C2 lies in the instruction cache. -/
def fetching : State :=
  let s := paged (thr [(8, 5)] [(2, 9)]) []
  { s with
    cores := s.cores.map fun p => (p.1, { p.2 with
      icache := [{ line := 32, key := 0, used := 0, bytes := bytes [0x03, 0x82, 0x3B, 0x00, 0x08, 0x82, 0x8B, 0x30] ++ List.replicate 120 0 }] }) }

/-- The step of an issue fetches and runs the instruction; its result is on its way to V7. -/
theorem test_step_issues : (match step fetching with
    | .next t => (t.core 0).landings.filterMap fun l => match l.op with | .v n _ x => some (n, x.toNat) | _ => none
    | _ => []) = [(7, 14)] := by decide +kernel

/-- A word placed where the next step fetches is the one that runs. -/
theorem test_fetch_word : (match step (State.reset.withFetchWord 64 0x308B8208003B8203) with
    | .next t => t.order
    | _ => 0) ≠ 0 ∧ decodeTableWord 64 0x308B8208003B8203 = some (.iadd (op (rv 7) (rv 8) (.c 2) .zero 6)) := by decide +kernel

/-- The selection of a domain issues for its only group (R193, R232). -/
theorem test_selection : after { due fetching (.issueSelection 0 0) with turn := .idle } .issueSelection
    (fun t => (t.turn, t.cur.slot, t.cur.lanes, t.cur.pc)) = some (.thread, 0, [0], 0x1000) := by decide +kernel

/-- A word that is no instruction raises ILLEGAL_INSN (R81): W64 with major 0x7F. -/
def illegal : State :=
  { fetching with cores := fetching.cores.map fun p => (p.1, { p.2 with
      icache := [{ line := 32, key := 0, used := 0, bytes := bytes [0xFF, 0xFF, 0xFF, 0xFF] ++ List.replicate 124 0xFF }] }) }

theorem test_illegal : (match step illegal with
    | .next t => (t.threadAt 0 0 0).map (·.stopped)
    | _ => none) = some true := by decide +kernel

theorem test_no_such_core : (match step { fetching with cur := { fetching.cur with core := 384 } } with
    | .fault .noSuchAgent => true
    | _ => false) = true := by decide +kernel

theorem witness_StepRuns :
    let s0 := { fetching with turn := .idle }
    fetching.turn = .thread ∧ fetching.cur.core < 384 ∧
    (match s0.issueBytes with | .ok bs => decode bs == .ok (.iadd (op (rv 7) (rv 8) (.c 2) .zero 6)) 8 | _ => false) = true ∧
    topReg (Instr.iadd (op (rv 7) (rv 8) (.c 2) .zero 6)).shape (op (rv 7) (rv 8) (.c 2) .zero 6) ≤ 128 ∧
    s0.stopPending 0 = false ∧ ({ stopping with turn := .idle } : State).stopPending 0 = true ∧
    (match ({ paged (thr base) [] with turn := .idle } : State).issueBytes with | .miss pa => pa == 0x1000 | _ => false) = true ∧
    (match ({ world (thr base) with turn := .idle } : State).issueBytes with | .fault c _ => c == 0x11 | _ => false) = true ∧
    fetching.cur.lanes.Nodup := by decide +kernel

/-- StepRuns: a read phase that ends at once and one with a bank to wait for, and an issue that carries its instruction. -/
theorem witness_StepRuns_reads :
    let u := { fetching.cur with left := [8], insn := some (Instr.iadd (op (rv 7) (rv 8) (.c 2) .zero 6)) }
    let s : State := { fetching with turn := .idle, cur := u }
    let b : State := { fetching with turn := .idle, cur := { u with left := [8, 4] } }
    (s.readOn (.iadd (op (rv 7) (rv 8) (.c 2) .zero 6))).2.isSome = true ∧
    (b.readOn (.iadd (op (rv 7) (rv 8) (.c 2) .zero 6))).2.isSome = false ∧ u.insn.isSome = true ∧
    ((s.thread 0 0 0).acqNext = none ∧ (s.thread 0 0 0).acqs = []) := by decide +kernel

/-- Issuing: a ready path, a landing that is due, a result for the fill buffer, and groups that wait to enter. -/
theorem witness_Issuing :
    let l : Landing := { due := 0, land := 0, eff := 0, tag := 1, slot := 0, lane := 0, op := .v 1 (BitVec.ofNat 32 0) 7 }
    fetching.tablesOk = true ∧ (fetching.readyPaths 0 0).find 0x1000 = some [0] ∧ (fetching.core 0).landings = [] ∧
    (({ fetching with cores := fetching.cores.map fun p => (p.1, { p.2 with landings := [l] }) } : State).core 0).landings = [l] ∧
    (fetching.core 0).icache.all (fun f => f.used ≤ fetching.order) = true ∧
    ((fetching.core 0).groups.all fun g => g.2.width == 16) = true ∧ (fetching.core 0).fills = [] := by decide +kernel

/-- Issuing: an issue whose line has come; a lane that may issue by itself, with its instruction in the loop buffer and without;
a fill buffer that is due, and one whose banks are taken. -/
theorem witness_Issuing_more :
    let u := Issue.of 0 0 [0] 0x1000 false
    let f : State := { fetching with cores := fetching.cores.map fun p => (p.1, { p.2 with fetching := [(0, u)] }) }
    let bs := bytes [0x03, 0x82, 0x3B, 0x00, 0x08, 0x82, 0x8B, 0x30]
    let g : Group := { group0 (thr [(8, 5)]) with threads := [(0, thr [(8, 5)]), (1, { thr [] with pc := 0x2000 })] }
    let w : State := { fetching with cores := fetching.cores.map fun p => (p.1, { p.2 with groups := [(0, g)], loops := [(0, [⟨0x1000, bs⟩])] }) }
    let v : VarResult := { due := some 0, tag := 1, slot := 0, lane := 0, reg := 6, n := 1, vals := [9], acq := none, ord := false }
    let r : State := { fetching with cores := fetching.cores.map fun p => (p.1, { p.2 with vres := [v] }) }
    ((f.core 0).fetching = [(0, u)] ∧ ((f.core 0).groups.find 0).map (·.st) = some .active ∧ ((f.threadAt 0 0 0).map (·.pc)) = some u.pc) ∧
    (2 ≤ g.pathsOf.length ∧ ((w.core 0).loopDecode 0 0x1000).isSome = true ∧ (w.core 0).loopInsn 1 0x2000 = none) ∧
    ((r.core 0).vres = [v] ∧ (r.core 0).fills = [] ∧ (r.threadAt 0 0 0).map (fun u => (u.v.get VReg.empty 6).tag) = some 0) := by
  decide +kernel

/-- A landing writes the register with its tag (R217, R219). -/
theorem test_landing :
    let l : Landing := { due := 0, land := 0, eff := 0, tag := 1, slot := 0, lane := 0, op := .v 1 (BitVec.allOnes 32) 7 }
    after (due { fetching with cores := fetching.cores.map fun p => (p.1, { p.2 with landings := [l] }) } (.resultLanding 0))
      .resultLanding (fun t => (t.threadAt 0 0 0).map fun u => u.vread 1) = some (some 7) := by decide +kernel

/-- Package: after bring-up accesses are served; a hart's page is walked; an address of no memory. -/
def hart2 : State :=
  let s := paged (thr base) (mem 0x70040 [9])
  { s with harts := [(2, { Hart.reset with satp := 0 })] }

theorem witness_Package :
    hart2.memOk = true ∧ hart2.ready ≠ 0 ∧ (tierOf 0x70040).isSome = true ∧ hart2.needsHandover 0x70040 = false ∧
    hart2.needsHandover (2 ^ 51) = true ∧ (tierOf (2 ^ 51)).isSome = true ∧ regWindow 0x70040 = none ∧ hart2.mapAt 0x70040 = none ∧
    hart2.poisoned 0x70040 4 = false ∧ (List.replicate 32 (0 : Byte)).length = 32 ∧ tierOf (2 ^ 56 - 1) = none := by decide +kernel

/-- Package: no move is under way; a service pair reads by physical addresses; a store to the placement map. -/
theorem witness_Package_more :
    (∀ h, (hart2.hub h).forwards = []) ∧ hart2.clears 0x70040 ∧ 288 ≤ 299 ∧ hart2.hartWalk 299 0x70040 1 = none ∧
    ({ hart2 with pairs := [(11, ⟨false, false, 0, 0⟩)] } : State).hartWalk 299 0x70040 1 = some 0x70040 ∧
    hart2.hartWalk 2 0x70040 1 = some 0x70040 ∧ hart2.dropsStore 0x70040 [1] = false ∧
    (let s : State := { hart2 with mapbase := 0x600000 }
     s.mapAt 0x600070 = some 7 ∧ regWindow 0x600070 = none ∧ (tierOf 0x600070).isSome = true) :=
  ⟨hub_still (by decide +kernel), clears_of (q := 0x70040) (by decide +kernel), by decide, by decide +kernel, by decide +kernel,
    by decide +kernel, by decide +kernel, by decide +kernel⟩

/-- A host's read (R394). -/
theorem test_host_read : after (due hart2 (.hostMemoryAccess false 0x70040 [] 2)) .hostMemoryAccess (fun t => t.outs) =
    some [.host 0x70040 [9, 0]] := by decide +kernel
/-- Sixteen measurements over the budget lower the clock by one step (R522). -/
theorem test_power : after (due { hart2 with power := [(0, { Power.reset with window := List.replicate 15 900000 })] } (.powerMeasurement 0 900000))
    .powerMeasurement (fun t => ((t.power.get Power.reset 0).clock, t.throt.getLsbD 0)) = some (20, true) := by decide +kernel
theorem test_thermal_trip : after (due hart2 (.thermalTrip 3)) .thermalTrip (fun t => (t.ready, t.replace.getLsbD 81)) =
    some (0, true) := by decide +kernel

/-- Registers: hub 0 and 2, partition 0 and 47; a partition with a launch and one without. -/
theorem test_register_write : after (due hart2 (.registerWrite 2 0x1000048 0xFFFFFFFFFFFFFFF3)) .registerWrite
    (fun t => (t.regRead 0 0x1000048, t.regRead 2 0x100048, t.cfgseq)) = some (3, 3, 1) := by decide +kernel
/-- CLMASK of a partition with a launch cannot be written (R519). -/
theorem test_clmask_denied : after (due hart2 (.registerWrite 0 0x100C000 0xFF)) .registerWrite
    (fun t => (t.regRead 0 0x100C000, t.regRead 0 0x100C008)) = some (1, 0x109) := by decide +kernel

theorem witness_Registers : (2 < 3 ∧ 47 < 48) ∧ hart2.launches.length = 1 ∧ (hart2.launch 0).part = 0 ∧ hart2.keys.sorted = true ∧
    ((0x10000 : DWord).getLsbD 16 = true) := by decide +kernel

/-- Registers: a key rotation that finds a frame of the partition, and one that is under way. -/
theorem witness_Registers_rotation :
    let s : State := { placed with launches := [], keys := [(0, List.replicate 64 1)] }
    s.keys.sorted = true ∧ s.places.sorted = true ∧ (s.place 7).assigned = true ∧ (s.place 7).key.toNat = 0 ∧ (s.place 7).migr = false ∧
    (s.part 0).queues = [] ∧ s.rotations = [] ∧ 56 ≤ 56 ∧
    ({ s with rotations := [(0, 56, [7])] } : State).rotations.find? (fun r => r.2.1 == 56) = some (0, 56, [7]) := by decide +kernel

/-- The invariants hold of reset and of a machine that runs. -/
theorem witness_CanonicalStays : State.reset.memOk = true ∧ State.reset.sramOk = true ∧ fetching.memOk = true ∧ fetching.sramOk = true ∧
    safeStep fetching = true := by decide +kernel
theorem witness_TablesStaySorted : State.reset.tablesOk = true ∧ handing.tablesOk = true ∧ safeStep fetching = true := by
  decide +kernel
theorem test_reset : State.reset.agenda = [(0, .packageReset)] ∧ (State.reset.part 5).ceil = 4 ∧ (State.reset.hub 1).migpol = 0xFFFFFFFF := by
  decide +kernel

/-- InstructionLengths: whole and cut words of every length. -/
theorem witness_InstructionLengths : decode (bytes [0x82]) = .truncated ∧ decode (bytes [0x09, 0x42, 0x28]) = .truncated ∧
    decode (bytes [0x03, 0x82, 0x3B, 0x00, 0x08, 0x82, 0x8B]) = .truncated ∧ fetching.cur.len = 8 := by decide +kernel
/-- ReservedDestination: d6 at both ends of its reserved range, and just below it. -/
theorem witness_ReservedDestination :
    (0x0700#16).getLsbD 0 = false ∧ ((0x0700#16).extractLsb' 5 6).toNat = 56 ∧ ((0x07E0#16).extractLsb' 5 6).toNat = 63 ∧
    decode (bytes [0x00, 0x07]) = .illegalOpnd ∧ decode (bytes [0xE0, 0x07]) = .illegalOpnd ∧
    decode (bytes [0xE0, 0x06]) ≠ .illegalOpnd := by decide +kernel
/-- RoundTrip: an instruction of every length, and a hart's, encoded. -/
theorem witness_RoundTrip :
    encode (.iadd (op (rv 7) (rv 8) (.c 2) .zero 6)) = bytes [0x03, 0x82, 0x3B, 0x00, 0x08, 0x82, 0x8B, 0x30] ∧
    encode (.iaddW32 ⟨2, rv 4, rv 5, .c 2⟩) = bytes [0x09, 0x42, 0x28, 0x88] ∧ encode (.iaddW16 ⟨rv 4, rv 5⟩) = bytes [0x82, 0x28] ∧
    leNat (encode (.lnlEnq 4 true 12 11 10)) = 0x90C5850B := by decide +kernel

end Sys2Proof.Tests
end

section
/-! SUPPORT. The length that the first byte gives, what decode makes of it, and the words with a reserved d6
(R48, R79). -/

namespace Sys2Proof

open Machine

/-! ## The length of an instruction (R48) -/

theorem getLsbD_zero_eq_decide {k : Nat} (w : BitVec k) : w.getLsbD 0 = decide (w.toNat % 2 = 1) :=
  Nat.testBit_zero _

/-- The table of R48, by bits [1:0]. -/
theorem insnLength_eq_of_bits (b : Byte) :
    insnLength b = if b.getLsbD 0 = false then 2 else if b.getLsbD 1 = false then 4 else 8 := by
  have bit1 : b.getLsbD 1 = decide (b.toNat / 2 % 2 = 1) :=
    (Nat.testBit_succ _ 0).trans (Nat.testBit_zero _)
  simp only [insnLength, getLsbD_zero_eq_decide, bit1, decide_eq_false_iff_not]
  split_ifs <;> omega

theorem insnLength_even (b : Byte) : insnLength b % 2 = 0 := by
  unfold insnLength
  split_ifs <;> rfl

theorem Decoded.ofExcept_ne_truncated (n : Nat) (r : Except Ill Instr) : Decoded.ofExcept n r ≠ .truncated := by
  rcases r with (_ | _) | _ <;> exact Decoded.noConfusion

theorem Decoded.length_of_ofExcept_eq_ok {n m : Nat} {i : Instr} {r : Except Ill Instr}
    (h : Decoded.ofExcept n r = .ok i m) : m = n := by
  rcases r with (_ | _) | j
  · cases h
  · cases h
  · cases h; rfl

theorem decode_cons_of_short {b : Byte} {bs : List Byte} (h : bs.length + 1 < insnLength b) :
    decode (b :: bs) = .truncated :=
  if_pos h

/-- With enough bytes the decoder of the length's format answers. -/
theorem decode_cons_of_long {b : Byte} {bs : List Byte} (h : ¬ bs.length + 1 < insnLength b) :
    ∃ r, decode (b :: bs) = .ofExcept (insnLength b) r :=
  ⟨_, if_neg h⟩

theorem decode_cons_truncated_iff (b : Byte) (bs : List Byte) :
    decode (b :: bs) = .truncated ↔ bs.length + 1 < insnLength b := by
  refine ⟨fun h => ?_, decode_cons_of_short⟩
  by_contra hlong
  obtain ⟨r, hr⟩ := decode_cons_of_long hlong
  exact Decoded.ofExcept_ne_truncated _ r (hr.symm.trans h)

theorem length_of_decode_cons_eq_ok {b : Byte} {bs : List Byte} {i : Instr} {n : Nat}
    (h : decode (b :: bs) = .ok i n) : n = insnLength b := by
  by_cases hlen : bs.length + 1 < insnLength b
  · rw [decode_cons_of_short hlen] at h
    cases h
  · obtain ⟨r, hr⟩ := decode_cons_of_long hlen
    exact Decoded.length_of_ofExcept_eq_ok (hr.symm.trans h)

@[simp] theorem Machine.State.issueOf_nextPc (s : State) (i : Instr) :
    (s.issueOf i).nextPc = s.cur.pc + BitVec.ofNat 64 s.cur.len := rfl

/-- An even distance keeps bit 0 of an address. -/
theorem getLsbD_zero_add_even (pc : DWord) {n : Nat} (h : n % 2 = 0) :
    (pc + BitVec.ofNat 64 n).getLsbD 0 = pc.getLsbD 0 := by
  simp only [getLsbD_zero_eq_decide, BitVec.toNat_add, BitVec.toNat_ofNat]
  congr 2
  omega

/-- Settles O58: decode takes the length from insnLength, which is the table of R48, and every entry is even. -/
theorem instructionLengths : Obligations.InstructionLengths := by
  intro b bs
  simp only [← insnLength_eq_of_bits]
  refine ⟨(decode_cons_truncated_iff b bs).symm, fun i n h => ?_, fun s i n h hlen => ?_⟩
  · obtain rfl := length_of_decode_cons_eq_ok h
    exact ⟨rfl, insnLength_even b⟩
  · obtain rfl := length_of_decode_cons_eq_ok h
    rw [State.issueOf_nextPc, hlen]
    exact ⟨rfl, getLsbD_zero_add_even _ (insnLength_even b)⟩

/-! ## The reserved values of d6 (R79) -/

theorem decode16_of_reserved_d6 {w : Nat} (h : 56 ≤ bits w 5 6) : decode16 w = .error .opnd := if_pos h

theorem bits_toNat_eq_extractLsb' {k : Nat} (w : BitVec k) (lo n : Nat) :
    bits w.toNat lo n = (w.extractLsb' lo n).toNat := by
  rw [BitVec.extractLsb'_toNat, Nat.shiftRight_eq_div_pow, bits]

/-- Settles O59: bit 0 clear makes it a word of two bytes, and decode16 looks at d6 first. -/
theorem reservedDestination : Obligations.ReservedDestination := by
  intro w rest hbit hd6
  have even : w.toNat % 2 = 0 := by
    rw [getLsbD_zero_eq_decide, decide_eq_false_iff_not] at hbit
    omega
  have reserved : decode16 w.toNat = .error .opnd :=
    decode16_of_reserved_d6 (by rwa [bits_toNat_eq_extractLsb'])
  rw [decode_leBytes rest w.isLt (.inl ⟨rfl, even⟩), if_pos rfl, reserved]
  rfl

end Sys2Proof
end
